-- ==== Sys2Proof/Word.lean ====
section
/-! DEFINITION. The words of the Narderan N9: bytes, 64-bit words, the vector and predicate registers, and the
sparse tables every table-like piece of state is held in. -/

namespace Sys2Proof

/-- A byte of memory, of a tile or of a latch (R4: bit 0 is the least significant). -/
abbrev Byte := BitVec 8

/-- A scalar register, a slot word, a micro-op word or a system register. -/
abbrev Word := BitVec 64

/-- A vector register: 1,024 bytes, byte 0 in bits [7:0] (R70). -/
abbrev VReg := BitVec 8192

/-- A predicate register: 512 bits (R67). -/
abbrev PReg := BitVec 512

/-- A table from numbers to values, held as the list of the entries that differ from a default value, keys strictly
rising. `Machine.Tbl.get` and `Machine.Tbl.set` (Machine/Table.lean) are its only accessors. -/
abbrev Tbl (α : Type) := List (Nat × α)

end Sys2Proof
end

