-- ==== Sys2Proof/Machine/Table.lean ====
section
/-! DEFINITION. Sparse tables (`Tbl`) and the bit-field helpers every other file uses. -/

namespace Sys2Proof.Machine

/-- The entry of key `n`, or the default. -/
def tget {α : Type} (d : α) : Tbl α → Nat → α
  | [], _ => d
  | (k, v) :: t, n => if k = n then v else tget d t n

/-- Every entry but those of key `n`. -/
def terase {α : Type} : Tbl α → Nat → Tbl α
  | [], _ => []
  | (k, v) :: t, n => if k = n then terase t n else (k, v) :: terase t n

/-- Puts an entry before the first one of a larger key. -/
def tinsert {α : Type} (t : Tbl α) (n : Nat) (x : α) : Tbl α :=
  match t with
  | [] => [(n, x)]
  | (k, v) :: t => if n < k then (n, x) :: (k, v) :: t else (k, v) :: tinsert t n x

/-- Writes the entry of key `n`; writing the default removes it. -/
def tset {α : Type} [DecidableEq α] (d : α) (t : Tbl α) (n : Nat) (x : α) : Tbl α :=
  if x = d then terase t n else tinsert (terase t n) n x

/-- The canonical form: keys strictly rising from `lo` on, and no entry equal to the default. -/
def twfFrom {α : Type} [DecidableEq α] (d : α) (lo : Nat) : Tbl α → Bool
  | [] => true
  | (k, v) :: t => decide (lo ≤ k) && !decide (v = d) && twfFrom d (k + 1) t

/-- The canonical form of a table. -/
def twf {α : Type} [DecidableEq α] (d : α) (t : Tbl α) : Bool := twfFrom d 0 t

/-- Writes the values of `l` at `n`, `n + 1`, … -/
def tsets {α : Type} [DecidableEq α] (d : α) (t : Tbl α) (n : Nat) : List α → Tbl α
  | [] => t
  | x :: l => tsets d (tset d t n x) (n + 1) l

/-- The `c` values from key `n` on. -/
def tgets {α : Type} (d : α) (t : Tbl α) (n : Nat) : Nat → List α
  | 0 => []
  | c + 1 => tget d t n :: tgets d t (n + 1) c

/-- The numbers 0 to `n - 1`, rising. -/
def upto (n : Nat) : List Nat := List.range n

/-- Bits [h:l] of a natural number (R4). -/
def bits (x h l : Nat) : Nat := x / 2 ^ l % 2 ^ (h + 1 - l)

/-- Bit `i` of a natural number. -/
def bit (x i : Nat) : Bool := x.testBit i

/-- `sext(x, n)`: bits [n-1:0] read as signed (Table 2.5). -/
def sext (x n : Nat) : Int :=
  let y := x % 2 ^ n
  if n ≠ 0 ∧ 2 ^ (n - 1) ≤ y then (y : Int) - (2 ^ n : Nat) else y

/-- An integer modulo 2^w, as a natural number. -/
def wrapN (x : Int) (w : Nat) : Nat := (x % ((2 ^ w : Nat) : Int)).toNat

/-- A Bool as 0 or 1. -/
def b2n (b : Bool) : Nat := if b then 1 else 0

/-- `ceil(a / b)` for b > 0. -/
def ceilDiv (a b : Nat) : Nat := (a + b - 1) / b

/-- The bytes of a value, lowest address first (R4). -/
def toBytes : Nat → Nat → List Byte
  | 0, _ => []
  | n + 1, x => BitVec.ofNat 8 x :: toBytes n (x / 256)

/-- The value whose bytes these are, lowest address first (R4). -/
def ofBytes : List Byte → Nat
  | [] => 0
  | b :: l => b.toNat + 256 * ofBytes l

/-- Number of ones among bits 0 to n-1. -/
def popcount (x : Nat) : Nat → Nat
  | 0 => 0
  | n + 1 => popcount x n + b2n (bit x n)

/-- Leading zeros of the n-bit pattern of x. -/
def clz (x : Nat) : Nat → Nat
  | 0 => 0
  | n + 1 => if bit x n then 0 else 1 + clz x n

/-- The first element of a list with a property. -/
def findFirst {α : Type} (p : α → Bool) : List α → Option α
  | [] => none
  | a :: l => if p a then some a else findFirst p l

/-- The element of a list with the least key; the earlier one on a tie. -/
def minBy {α : Type} (key : α → Nat) : List α → Option α
  | [] => none
  | a :: l =>
    match minBy key l with
    | none => some a
    | some b => if key b < key a then some b else some a

/-- Replaces every element of a list for which `p` holds. -/
def mapIf {α : Type} (p : α → Bool) (f : α → α) (l : List α) : List α := l.map fun a => if p a then f a else a

/-- The sum of a list of natural numbers. -/
def sumN : List Nat → Nat
  | [] => 0
  | a :: l => a + sumN l

/-- Insertion sort by a strict order `lt` (stable). -/
def sortBy {α : Type} (lt : α → α → Bool) : List α → List α
  | [] => []
  | a :: l => ins lt a (sortBy lt l)
where
  ins (lt : α → α → Bool) (a : α) : List α → List α
    | [] => [a]
    | b :: l => if lt b a then b :: ins lt a l else a :: b :: l

end Sys2Proof.Machine
end

