-- ==== Sys2Proof/Machine/Float.lean ====
section
/-! DEFINITION. Number formats and exact arithmetic (R36 to R40, R85 to R90, R97, R100 to R102, R211): extended
reals, the one rounding `rne`, and the correctly rounded functions. -/

namespace Sys2Proof.Machine

/-- The floating formats of Table 5.1. -/
inductive Fmt where
  | f32 | f16 | bf16 | e4m3 | e5m2
  deriving DecidableEq, Repr

/-- Width in bits (Table 5.1). -/
def Fmt.width : Fmt → Nat
  | .f32 => 32 | .f16 => 16 | .bf16 => 16 | .e4m3 => 8 | .e5m2 => 8

/-- Bits of the fraction field (Table 5.1). -/
def Fmt.frac : Fmt → Nat
  | .f32 => 23 | .f16 => 10 | .bf16 => 7 | .e4m3 => 3 | .e5m2 => 2

/-- Bits of the exponent field (Table 5.1). -/
def Fmt.expo : Fmt → Nat
  | .f32 => 8 | .f16 => 5 | .bf16 => 8 | .e4m3 => 4 | .e5m2 => 5

/-- Bias (Table 5.1). -/
def Fmt.bias : Fmt → Nat
  | .f32 => 127 | .f16 => 15 | .bf16 => 127 | .e4m3 => 7 | .e5m2 => 15

/-- `canon_nan(fmt)` (Table 2.5). -/
def Fmt.nan : Fmt → Nat
  | .f32 => 0x7FC00000 | .f16 => 0x7E00 | .bf16 => 0x7FC0 | .e4m3 => 0x7F | .e5m2 => 0x7E

/-- The infinity of a sign; E4M3 has none and gives ±448 (R39 case 2). -/
def Fmt.inf (f : Fmt) (neg : Bool) : Nat :=
  b2n neg * 2 ^ (f.width - 1) + (match f with | .e4m3 => 0x7E | _ => (2 ^ f.expo - 1) * 2 ^ f.frac)

/-- The zero of a sign. -/
def Fmt.zero (f : Fmt) (neg : Bool) : Nat := b2n neg * 2 ^ (f.width - 1)

/-- An extended real (R36): `fin m e` is the nonzero dyadic number m × 2^e. -/
inductive Ext where
  | nan
  | inf (neg : Bool)
  | zero (neg : Bool)
  | fin (m : Int) (e : Int)
  deriving DecidableEq, Repr

/-- m × 2^e as an extended real, zero as +0. -/
def Ext.ofDyadic (m e : Int) : Ext := if m = 0 then .zero false else .fin m e

/-- Decoding of an encoding (R86). -/
def decodeF (f : Fmt) (x : Nat) : Ext :=
  let m := f.frac
  let s := bit x (f.width - 1)
  let e := bits x (f.width - 2) m
  let fr := x % 2 ^ m
  let sg : Int := if s then -1 else 1
  let top := 2 ^ f.expo - 1
  if e = 0 then
    if fr = 0 then .zero s else .fin (sg * fr) (1 - (f.bias : Int) - m)
  else if e = top ∧ f ≠ .e4m3 then
    if fr = 0 then .inf s else .nan
  else if e = top ∧ fr = 2 ^ m - 1 then .nan
  else .fin (sg * ((2 ^ m + fr : Nat) : Int)) ((e : Int) - f.bias - m)

/-- Rounds the magnitude (n + ε) × 2^e to the format, where 0 < ε < 1 when `sticky` and ε = 0 otherwise; `sticky`
is used only with an n of more bits than the format keeps (R39 cases 4 to 6). -/
def roundMag (f : Fmt) (neg : Bool) (n : Nat) (sticky : Bool) (e : Int) : Nat :=
  if n = 0 then f.zero neg
  else
    let m := f.frac
    let lead : Int := e + (Nat.log2 n : Int)
    let t : Int := max (lead - m) (1 - (f.bias : Int) - m)
    let q : Nat :=
      if t ≤ e then n * 2 ^ (e - t).toNat
      else
        let sh := (t - e).toNat
        let q0 := n / 2 ^ sh
        let r := n % 2 ^ sh
        let half := 2 ^ (sh - 1)
        if half < r ∨ (r = half ∧ (sticky ∨ q0 % 2 = 1)) then q0 + 1 else q0
    let (q, t) := if q = 2 ^ (m + 1) then (2 ^ m, t + 1) else (q, t)
    if q = 0 then f.zero neg
    else if q < 2 ^ m then f.zero neg + q
    else
      let fld : Int := t + m + f.bias
      let code := fld.toNat * 2 ^ m + (q - 2 ^ m)
      if f.inf false ≤ code then f.inf neg else f.zero neg + code

/-- `rne(x, fmt)` (R39). -/
def rne (f : Fmt) : Ext → Nat
  | .nan => f.nan
  | .inf neg => f.inf neg
  | .zero neg => f.zero neg
  | .fin m e => roundMag f (m < 0) m.natAbs false e

/-- The sign-flipped value (R100: the sign of a zero or an infinity flips too). -/
def Ext.neg : Ext → Ext
  | .nan => .nan
  | .inf s => .inf (!s)
  | .zero s => .zero (!s)
  | .fin m e => .fin (-m) e

/-- The sign of a value; a NaN counts as positive. -/
def Ext.sign : Ext → Bool
  | .nan => false
  | .inf s => s
  | .zero s => s
  | .fin m _ => decide (m < 0)

/-- The magnitude of a value. -/
def Ext.abs (x : Ext) : Ext := if x.sign then x.neg else x

/-- The exact sum of two dyadic numbers. -/
def addDyadic (a : Int × Int) (b : Int × Int) : Int × Int :=
  let e := min a.2 b.2
  (a.1 * ((2 ^ (a.2 - e).toNat : Nat) : Int) + b.1 * ((2 ^ (b.2 - e).toNat : Nat) : Int), e)

/-- The exact sum of the finite addends of a list. -/
def sumDyadic : List Ext → Int × Int
  | [] => (0, 0)
  | .fin m e :: l => let r := sumDyadic l; if r.1 = 0 then (m, e) else addDyadic (m, e) r
  | _ :: l => sumDyadic l

/-- `exact_sum(list)` (R38). -/
def exactSum (l : List Ext) : Ext :=
  let pos := l.any (· == .inf false)
  let ngt := l.any (· == .inf true)
  if l.any (· == .nan) || (pos && ngt) then .nan
  else if pos then .inf false
  else if ngt then .inf true
  else
    let s := sumDyadic l
    if s.1 ≠ 0 then .fin s.1 s.2
    else .zero (l.all (· == .zero true))

/-- The product of two extended reals (R97). -/
def Ext.mul (x y : Ext) : Ext :=
  let s := x.sign != y.sign
  match x, y with
  | .nan, _ => .nan
  | _, .nan => .nan
  | .inf _, .zero _ => .nan
  | .zero _, .inf _ => .nan
  | .inf _, _ => .inf s
  | _, .inf _ => .inf s
  | .zero _, _ => .zero s
  | _, .zero _ => .zero s
  | .fin m e, .fin n g => .fin (m * n) (e + g)

/-- `x + y` and `x - y` exactly (R100). -/
def Ext.add (x y : Ext) : Ext := exactSum [x, y]

/-- The quotient of two magnitudes, as (quotient with 64 or more bits, sticky, exponent). -/
def divMag (a : Nat) (e : Int) (b : Nat) (g : Int) : Nat × Bool × Int :=
  let k := Nat.log2 b + 66
  (a * 2 ^ k / b, decide (a * 2 ^ k % b ≠ 0), e - g - k)

/-- The quotient rounded once into the format (R100, division). -/
def divRne (f : Fmt) (x y : Ext) : Nat :=
  let s := x.sign != y.sign
  match x, y with
  | .nan, _ => f.nan
  | _, .nan => f.nan
  | .zero _, .zero _ => f.nan
  | .inf _, .inf _ => f.nan
  | .inf _, _ => f.inf s
  | _, .zero _ => f.inf s
  | _, .inf _ => f.zero s
  | .zero _, _ => f.zero s
  | .fin m e, .fin n g =>
    let q := divMag m.natAbs e n.natAbs g
    roundMag f s q.1 q.2.1 q.2.2

/-- Integer square root, by its bits from bit `k` down. -/
def isqrtFrom (n : Nat) : Nat → Nat → Nat
  | 0, r => if (r + 1) * (r + 1) ≤ n then r + 1 else r
  | k + 1, r => let c := r + 2 ^ (k + 1); isqrtFrom n k (if c * c ≤ n then c else r)

/-- Integer square root. -/
def isqrt (n : Nat) : Nat := isqrtFrom n (Nat.log2 n / 2 + 1) 0

/-- The square root rounded once (R100, R211). -/
def sqrtRne (f : Fmt) : Ext → Nat
  | .nan => f.nan
  | .inf s => if s then f.nan else f.inf false
  | .zero s => f.zero s
  | .fin m e =>
    if m < 0 then f.nan
    else
      let (a, g) : Nat × Int := if e % 2 = 0 then (m.natAbs, e) else (2 * m.natAbs, e - 1)
      let n := a * 2 ^ 128
      let r := isqrt n
      roundMag f false r (decide (r * r ≠ n)) (g / 2 - 64)

/-- The reciprocal rounded once (Table 11.3). -/
def rcpRne (f : Fmt) (x : Ext) : Nat := divRne f (.fin 1 0) x

/-- The reciprocal square root rounded once (Table 11.3). -/
def rsqrtRne (f : Fmt) : Ext → Nat
  | .nan => f.nan
  | .inf s => if s then f.nan else f.zero false
  | .zero s => f.inf s
  | .fin m e =>
    if m < 0 then f.nan
    else
      let (a, g) : Nat × Int := if e % 2 = 0 then (m.natAbs, e) else (2 * m.natAbs, e - 1)
      let k := Nat.log2 a + 66
      let n := 2 ^ (2 * k)
      let r := isqrt (n / a)
      roundMag f false r (decide (r * r * a ≠ n)) (-(g / 2) - k)

/-- A lower bound of ln 2 × 2^p, below it by at most p + 1: the terms 1 / (n 2^n) for n = 1 to `k`. -/
def ln2Fixed (p : Nat) : Nat → Nat
  | 0 => 0
  | k + 1 => ln2Fixed p k + 2 ^ p / ((k + 1) * 2 ^ (k + 1))

/-- The terms y^n / n! from the n-th on, with y and the terms in 2^-p, each rounded down. -/
def expTerms (p y : Nat) : Nat → Nat → Nat → Nat
  | 0, _, _ => 0
  | k + 1, n, t => t + expTerms p y k (n + 1) (t * y / 2 ^ p / n)

/-- A lower bound of 2^(f / 2^p) × 2^p for 0 ≤ f < 2^p, at working precision p; `expErr p` bounds its error. -/
def exp2Fixed (p f : Nat) : Nat := expTerms p (f * ln2Fixed p p / 2 ^ p) 120 1 (2 ^ p)

/-- What `exp2Fixed p` may fall short of the exact value by, in units of 2^-p. -/
def expErr (p : Nat) : Nat := 8 * p + 400

/-- 2^x rounded once into the format, for finite nonzero x (R100, R211): an interval of working precision `p` bits
around the exact value, which is irrational unless x is an integer, rounds to one encoding. -/
def exp2Rne (f : Fmt) : Ext → Nat
  | .nan => f.nan
  | .inf s => if s then f.zero false else f.inf false
  | .zero _ => rne f (.fin 1 0)
  | .fin m e =>
    if (1024 : Int) * ((2 ^ (-e).toNat : Nat) : Int) ≤ m * ((2 ^ e.toNat : Nat) : Int) then f.inf false
    else if m * ((2 ^ e.toNat : Nat) : Int) ≤ (-1024 : Int) * ((2 ^ (-e).toNat : Nat) : Int) then f.zero false
    else
      let k := (-e).toNat
      let a : Int := m * ((2 ^ e.toNat : Nat) : Int)
      let i : Int := a / ((2 ^ k : Nat) : Int)
      let fr : Nat := (a % ((2 ^ k : Nat) : Int)).toNat
      if fr = 0 then rne f (.fin 1 i)
      else
        let p := k + 256
        let lo := exp2Fixed p (fr * 2 ^ (p - k))
        let r := roundMag f false lo true (i - p)
        if r = roundMag f false (lo + expErr p) true (i - p) then r
        else
          let p := k + 4096
          roundMag f false (exp2Fixed p (fr * 2 ^ (p - k))) true (i - p)

/-- The first `k` fraction bits of log2 (v / 2^p) for 2^p ≤ v < 2^(p+1), by squaring; `up` rounds each square up. -/
def log2Bits (p : Nat) (up : Bool) : Nat → Nat → Nat → Nat
  | 0, _, acc => acc
  | k + 1, v, acc =>
    let s := if up then ceilDiv (v * v) (2 ^ p) else v * v / 2 ^ p
    if 2 ^ (p + 1) ≤ s then log2Bits p up k (if up then ceilDiv s 2 else s / 2) (2 * acc + 1)
    else log2Bits p up k s (2 * acc)

/-- log2 x rounded once into the format (R100, R211). The value is an integer when x is a power of two and
irrational otherwise; the interval of 192 fraction bits around it rounds to one encoding. -/
def log2Rne (f : Fmt) : Ext → Nat
  | .nan => f.nan
  | .inf s => if s then f.nan else f.inf false
  | .zero _ => f.inf true
  | .fin m e =>
    if m < 0 then f.nan
    else
      let a := m.natAbs
      let l := Nat.log2 a
      let i : Int := e + l
      if a = 2 ^ l then rne f (Ext.ofDyadic i 0)
      else
        let p := 640
        let v := a * 2 ^ (p - l)
        let lo : Int := i * ((2 ^ 192 : Nat) : Int) + (log2Bits p false 192 v 0 : Nat)
        let hi : Int := i * ((2 ^ 192 : Nat) : Int) + (log2Bits p true 192 v 0 : Nat) + 1
        if 0 ≤ lo then roundMag f false lo.natAbs true (-192)
        else roundMag f true hi.natAbs true (-192)

/-- The nearest integer of n / d, a tie going to the even one (R89 case 3), for d > 0. -/
def roundDiv (n : Nat) (d : Nat) : Nat :=
  let q := n / d
  let r := n % d
  if d < 2 * r ∨ (2 * r = d ∧ q % 2 = 1) then q + 1 else q

/-- A value beyond every bound of a conversion to integers (R89 case 3). -/
def beyond : Int := (2 ^ 200 : Nat)

/-- The nearest integer of a value, ±infinity as beyond every bound, a NaN as 0 (R89 cases 2, 3, 5). -/
def toIntRne : Ext → Int
  | .nan => 0
  | .inf s => if s then -beyond else beyond
  | .zero _ => 0
  | .fin m e =>
    let a : Nat := roundDiv (m.natAbs * 2 ^ e.toNat) (2 ^ (-e).toNat)
    if m < 0 then -(a : Int) else a

/-- The nearest integer of x / s (R89 case 1). -/
def toIntScaled (x s : Ext) : Int :=
  match x, s with
  | .nan, _ => 0
  | _, .nan => 0
  | _, .zero _ => 0
  | .inf a, .inf _ => if a then -beyond else beyond
  | .inf a, s => if a != s.sign then -beyond else beyond
  | _, .inf _ => 0
  | .zero _, _ => 0
  | .fin m e, .fin n g =>
    let d := e - g
    let a : Nat := roundDiv (m.natAbs * 2 ^ d.toNat) (n.natAbs * 2 ^ (-d).toNat)
    if (decide (m < 0)) != (decide (n < 0)) then -(a : Int) else a

/-- min(max(x, lo), hi). -/
def clampI (lo hi x : Int) : Int := if x < lo then lo else if hi < x then hi else x

/-- `sat_i32(x)` (Table 2.5). -/
def satI32 (x : Int) : Int := clampI (-(2 ^ 31 : Nat)) ((2 ^ 31 : Nat) - 1) x

/-- `wrap_i32(x)` (Table 2.5). -/
def wrapI32 (x : Int) : Int := (x + (2 ^ 31 : Nat)) % ((2 ^ 32 : Nat) : Int) - (2 ^ 31 : Nat)

/-- `plane_value(c, n)` (R40). -/
def planeValue (c : Int) (n : Nat) : Int :=
  if n = 8 then c else c / ((2 ^ (8 - n) : Nat) : Int) * ((2 ^ (8 - n) : Nat) : Int) + ((2 ^ (7 - n) : Nat) : Int)

/-- x < y for values that are no NaN; +0 and −0 are equal. -/
def Ext.lt (x y : Ext) : Bool :=
  match x, y with
  | .nan, _ => false
  | _, .nan => false
  | .inf a, .inf b => a && !b
  | .inf a, _ => a
  | _, .inf b => !b
  | .zero _, .zero _ => false
  | .zero _, .fin n _ => decide (0 < n)
  | .fin m _, .zero _ => decide (m < 0)
  | .fin m e, .fin n g => decide ((addDyadic (m, e) (-n, g)).1 < 0)

/-- Equality of values: NaN equals nothing, +0 equals −0 (R213). -/
def Ext.eqv (x y : Ext) : Bool :=
  match x, y with
  | .nan, _ => false
  | _, .nan => false
  | x, y => !x.lt y && !y.lt x

/-- Maximum or minimum of two encodings (R101): canonical NaN when either is one, +0 above −0. -/
def maxMinF (f : Fmt) (isMax : Bool) (a b : Nat) : Nat :=
  let x := decodeF f a
  let y := decodeF f b
  match x, y with
  | .nan, _ => f.nan
  | _, .nan => f.nan
  | .zero s, .zero _ => if s == isMax then b else a
  | _, _ => if x.lt y == isMax then b else a

/-- One level of the fixed reduction tree (R102): node (y[2i], y[2i + 1]). -/
def treeLevel {α : Type} (node : α → α → α) : List α → List α
  | a :: b :: l => node a b :: treeLevel node l
  | l => l

/-- The fixed binary tree of R102 over at most 2^k values, `k` levels. -/
def treeReduce {α : Type} (node : α → α → α) : Nat → List α → List α
  | 0, l => l
  | k + 1, l => treeReduce node k (treeLevel node l)

/-- The sum node of R102 on F32 encodings. -/
def sumNode (a b : Nat) : Nat := rne .f32 (exactSum [decodeF .f32 a, decodeF .f32 b])

/-- The floating tree sum of F32 encodings (R102). -/
def treeSum (l : List Nat) : Nat := (treeReduce sumNode 10 l).headD 0

end Sys2Proof.Machine
end

