-- ==== Sys2Proof/Machine/Types.lean ====
section
/-! DEFINITION. Type codes (R172), elements of vector registers (R70), conversions between types (R89, R90, R216). -/

namespace Sys2Proof.Machine

/-- A type of Table 9.4: integer (signed or natural, width), floating, or n planes of codes of a signedness. -/
inductive Ty where
  | int (signed : Bool) (w : Nat)
  | flt (f : Fmt)
  | plane (n : Nat) (signed : Bool)
  deriving DecidableEq, Repr

/-- The type of a code of Table 9.4; code 0x00 and the illegal codes are none. -/
def tyOf (c : BitVec 5) : Option Ty :=
  match c.toNat with
  | 1 => some (.int true 8) | 2 => some (.int true 16) | 3 => some (.int true 32) | 4 => some (.int true 64)
  | 5 => some (.int false 8) | 6 => some (.int false 16) | 7 => some (.int false 32) | 8 => some (.int false 64)
  | 9 => some (.flt .f32) | 10 => some (.flt .f16) | 11 => some (.flt .bf16)
  | 12 => some (.flt .e4m3) | 13 => some (.flt .e5m2)
  | n =>
    if 0x11 ≤ n ∧ n ≤ 0x17 then some (.plane (n - 0x0F) true)
    else if 0x19 ≤ n then some (.plane (n - 0x17) false)
    else none

/-- Width of one element in bits; plane codes count as one byte (R216). -/
def Ty.width : Ty → Nat
  | .int _ w => w
  | .flt f => f.width
  | .plane _ _ => 8

/-- Bytes of one element. -/
def Ty.bytes (t : Ty) : Nat := t.width / 8

/-- Elements of a vector register (R70). -/
def Ty.count (t : Ty) : Nat := 8192 / t.width

/-- The vector-arithmetic floating types F of R207. -/
def Ty.isF : Ty → Bool
  | .flt .f32 => true | .flt .f16 => true | .flt .bf16 => true | _ => false

/-- The types E of R207. -/
def Ty.isE : Ty → Bool
  | .flt .e4m3 => true | .flt .e5m2 => true | _ => false

/-- The integer types I of R207. -/
def Ty.isI : Ty → Bool
  | .int _ _ => true | _ => false

/-- The plane types P of R207. -/
def Ty.isP : Ty → Bool
  | .plane _ _ => true | _ => false

/-- The types A of R207: F, I and E. -/
def Ty.isA (t : Ty) : Bool := t.isF || t.isI || t.isE

/-- `ext(x, w)` of R194 for an integer type: the low w bits read in the type. -/
def extI (signed : Bool) (w : Nat) (x : Nat) : Int := if signed then sext x w else (x % 2 ^ w : Nat)

/-- The smallest value of an integer type. -/
def loI (signed : Bool) (w : Nat) : Int := if signed then -((2 ^ (w - 1) : Nat) : Int) else 0

/-- The largest value of an integer type. -/
def hiI (signed : Bool) (w : Nat) : Int :=
  if signed then ((2 ^ (w - 1) : Nat) : Int) - 1 else ((2 ^ w : Nat) : Int) - 1

/-- The code ranges of an 8-plane code (R89 case 4). -/
def loP (signed : Bool) : Int := if signed then -128 else 0
/-- The largest 8-plane code. -/
def hiP (signed : Bool) : Int := if signed then 127 else 255

/-- An element read as an exact value: floating decode, integer, or the plane value of its code (R86, R90, R92). -/
def Ty.value (t : Ty) (x : Nat) : Ext :=
  match t with
  | .int s w => Ext.ofDyadic (extI s w x) 0
  | .flt f => decodeF f x
  | .plane n s => Ext.ofDyadic (planeValue (extI s 8 x) n) 0

/-- An element read as an integer, for integer and plane types. -/
def Ty.int? (t : Ty) (x : Nat) : Option Int :=
  match t with
  | .int s w => some (extI s w x)
  | .flt _ => none
  | .plane n s => some (planeValue (extI s 8 x) n)

/-- `conv` of Table 11.5, from an element of type `ts` to the encoding of type `td`. -/
def conv (td ts : Ty) (x : Nat) : Nat :=
  match td with
  | .flt f => rne f (ts.value x)
  | .int s w =>
    let i := match ts.int? x with
      | some i => i
      | none => toIntRne (ts.value x)
    wrapN (clampI (loI s w) (hiI s w) i) w
  | .plane _ s =>
    let i := match ts.int? x with
      | some i => i
      | none => toIntRne (ts.value x)
    wrapN (clampI (loP s) (hiP s) i) 8

/-- The type pairs Table 11.5 admits. -/
def convAdmitted (td ts : Ty) : Bool :=
  match td with
  | .flt _ => true
  | .int _ _ => true
  | .plane n _ => n = 8 && (ts.isF || ts.isE || ts.isI || ts.isP)

/-- Element i of width w of a register value (R70). -/
def elem (w : Nat) (v : VReg) (i : Nat) : Nat := (v.toNat >>> (i * w)) % 2 ^ w

/-- Packs elements of width w, element 0 lowest. -/
def packNat (w : Nat) : List Nat → Nat
  | [] => 0
  | x :: l => x % 2 ^ w + 2 ^ w * packNat w l

/-- A register value from its elements of width w. -/
def packV (w : Nat) (l : List Nat) : VReg := BitVec.ofNat 8192 (packNat w l)

/-- Builds a register of element width w from a function of the element number. -/
def buildV (w : Nat) (f : Nat → Nat) : VReg := packV w ((upto (8192 / w)).map f)

/-- The predicate bit that governs element i of width w (Table 4.2). -/
def govBit (w i : Nat) : Nat := if w = 8 then i / 2 else i

/-- Activity of element i of width w under an optional guard value and its sense (R206): no guard makes every element
active. -/
def elemActive (g : Option PReg) (sense : Bool) (w i : Nat) : Bool :=
  match g with
  | none => true
  | some p => p.toNat.testBit (govBit w i) != sense

/-- The elements of a register, in order. -/
def elems (w : Nat) (v : VReg) : List Nat := (upto (8192 / w)).map (elem w v)

/-- Replaces the active elements of `old` by those `f` gives (R206). -/
def mergeV (g : Option PReg) (sense : Bool) (w : Nat) (old : VReg) (f : Nat → Nat) : VReg :=
  buildV w fun i => if elemActive g sense w i then f i else elem w old i

end Sys2Proof.Machine
end

