-- ==== Sys2Proof/Machine/Flags.lean ====
section
/-! DEFINITION. Conditions and the predicate bits they write. The N9 has no flags register (R209): a comparison writes a
predicate register (R195, R213), and the counting forms read one (R215). -/

namespace Sys2Proof.Machine

/-- A condition of Table 9.5 between two integers. -/
def condInt (cc : Nat) (a b : Int) : Bool :=
  match cc with
  | 0 => decide (a = b)
  | 1 => decide (a ≠ b)
  | 2 => decide (a < b)
  | 3 => decide (a ≤ b)
  | 4 => decide (b < a)
  | _ => decide (b ≤ a)

/-- A condition of Table 9.5 between two floating values: +0 equals −0, and a NaN meets `.ne` alone (R213). -/
def condExt (cc : Nat) (a b : Ext) : Bool :=
  let nan := a == .nan || b == .nan
  match cc with
  | 0 => a.eqv b
  | 1 => nan || !a.eqv b
  | 2 => a.lt b
  | 3 => !nan && !b.lt a
  | 4 => b.lt a
  | _ => !nan && !a.lt b

/-- A condition between two elements of a type. -/
def condElem (t : Ty) (cc a b : Nat) : Bool :=
  match t.int? a, t.int? b with
  | some x, some y => condInt cc x y
  | _, _ => condExt cc (t.value a) (t.value b)

/-- A predicate value from its bits. -/
def buildP (f : Nat → Bool) : PReg := BitVec.ofNat 512 (packNat 1 ((upto 512).map fun i => b2n (f i)))

/-- CMP (R195): all 512 bits are the result of the comparison. -/
def predAll (b : Bool) : PReg := if b then BitVec.allOnes 512 else 0

/-- VCMP (R213): bit b of the destination under the mapping of R70. For 8-bit types it is the AND over the pair of
elements it governs; bits that govern no element are 0; a bit that governs only inactive elements keeps its value. -/
def predCmp (t : Ty) (g : Option PReg) (sense : Bool) (cc : Nat) (va vb : VReg) (old : PReg) : PReg :=
  let w := t.width
  let test := fun i => condElem t cc (elem w va i) (elem w vb i)
  buildP fun b =>
    if w = 8 then
      if elemActive g sense 8 (2 * b) then test (2 * b) && test (2 * b + 1) else old.getLsbD b
    else if t.count ≤ b then false
    else if elemActive g sense w b then test b else old.getLsbD b

/-- Is bit j active in a per-bit predicate operation (R215)? -/
def bitActive (g : Option PReg) (sense : Bool) (j : Nat) : Bool :=
  match g with
  | none => true
  | some p => p.getLsbD j != sense

/-- A per-bit predicate operation (R215): inactive bits keep their values. -/
def predOp (g : Option PReg) (sense : Bool) (f : Bool → Bool → Bool) (a b old : PReg) : PReg :=
  buildP fun j => if bitActive g sense j then f (a.getLsbD j) (b.getLsbD j) else old.getLsbD j

/-- PCNT (R215): active bits that are 1. -/
def predCount (g : Option PReg) (sense : Bool) (a : PReg) : Nat :=
  ((upto 512).filter fun j => bitActive g sense j && a.getLsbD j).length

/-- PFIRST (R215): the smallest active bit that is 1, or 512. -/
def predFirst (g : Option PReg) (sense : Bool) (a : PReg) : Nat :=
  match findFirst (fun j => bitActive g sense j && a.getLsbD j) (upto 512) with
  | some j => j
  | none => 512

end Sys2Proof.Machine
end

