-- ==== Sys2Proof/Config.lean ====
section
/-! DEFINITION. What the manual leaves to the part or leaves open (log 5): constants with no body, so that nothing proved
of the machine can rest on a value of theirs. Each is applied to the counter `fresh` of the state, or to what it depends on. -/

namespace Sys2Proof.Config

/-- A value the manual leaves undefined (R8, R253). -/
opaque freeValue : Nat → Nat

/-- Cycles a queue entry, a group of operands or an engine spends waiting for its source, the network and contention
(R185, R250, R253): the manual gives only uncontended figures. -/
opaque delay : Nat → Nat

/-- A choice between two orders the manual leaves open, such as which of two enabled agents acts first. -/
opaque choose : Nat → Bool

/-- The coefficients of the activity-counter estimate (R111, class 4), in pJ: 0 for each group that enters an array, 1 for each
byte moved, 2 for each access. They are set for the part and not published. -/
opaque energyOf : Nat → Nat

/-- The measured mean power of the domains other than the arrays, in thousandths of a watt, at a tick (R321). -/
opaque nonArrayWatts : Nat → Nat

/-- SHA3-512 of a list of bytes (R310, R324). -/
opaque digest : List Byte → BitVec 512

/-- The digest of the Uzovas ROM (R310). -/
opaque romDigest : BitVec 512

/-- The version of the image the board ships with (R324), when no other was ever staged. -/
opaque firstVersion : BitVec 64

/-- An ML-DSA-87 signed SPDM answer for a measurement block (R310). -/
opaque signed : BitVec 512 → Nat → BitVec 512

/-- Does a self-test of a unit find it LASTING (R382)? -/
opaque lasting : Nat → Bool

/-- Where in its pool the allocator puts a tile, among the places that fit (R75, R126). -/
opaque tilePlace : Nat → Nat

/-- The Fareri switch nearest to a package of the pod (R160). -/
opaque switchOf : Nat → Nat

/-- The Fareri switch that a lane of this package passes through (R377). -/
opaque laneSwitch : Nat → Nat

/-- Does the package that a tile delivery goes to find its quire, handle, rows and ring in order (R372)? -/
opaque remoteTakes : Nat → Bool

/-- A byte of another package's memory that nothing the model saw has written. -/
opaque remoteByte : Nat → BitVec 8

end Sys2Proof.Config
end

