-- ==== Sys2Proof/Syntax.lean ====
section
/-! DEFINITION. The instruction set of the N9: one constructor of `Instr` for each row of spec/opcode_table.json. A slot
operation carries the fields of its slot word (Tables 9.6 to 9.13), a micro-op those of its store word (Table 9.15),
an event of the machine the number of the part it befalls, and an act of the outside world what it brings. -/

namespace Sys2Proof

/-- The nine slots of a bundle, in mask order (R162). -/
inductive Slot where
  | C | A | B | V | M | L | W | E | X
  deriving DecidableEq, Repr

/-- A slot C word (Table 9.6). -/
structure CW where
  pred  : BitVec 7
  sense : Bool
  kin   : BitVec 7
  fa    : BitVec 8
  fb    : BitVec 8
  imm24 : BitVec 24
  deriving DecidableEq, Repr

/-- A slot A or slot B word (Table 9.7); `slotB` says which of the two slots holds it. -/
structure ABW where
  slotB : Bool
  pred  : BitVec 7
  sense : Bool
  dst   : BitVec 8
  src1  : BitVec 8
  src2  : BitVec 8
  hold1 : Bool
  hold2 : Bool
  rel   : Bool
  immf  : Bool
  type  : BitVec 5
  imm15 : BitVec 15
  deriving DecidableEq, Repr

/-- A slot V word (Table 9.8). -/
structure VW where
  pred  : BitVec 7
  sense : Bool
  dst   : BitVec 8
  src1  : BitVec 8
  src2  : BitVec 8
  src3  : BitVec 8
  hold1 : Bool
  hold2 : Bool
  hold3 : Bool
  rel   : Bool
  type  : BitVec 5
  type2 : BitVec 5
  deriving DecidableEq, Repr

/-- A slot M word (Table 9.9). -/
structure MW where
  pred  : BitVec 7
  sense : Bool
  tgt   : BitVec 8
  src1  : BitVec 8
  src2  : BitVec 8
  hold1 : Bool
  hold2 : Bool
  rel   : Bool
  rout  : BitVec 6
  mode  : BitVec 2
  cap   : BitVec 3
  deriving DecidableEq, Repr

/-- A slot L word (Table 9.10). -/
structure LW where
  pred  : BitVec 7
  sense : Bool
  dst   : BitVec 8
  base  : BitVec 8
  index : BitVec 8
  kin   : BitVec 7
  holdb : Bool
  holdx : Bool
  rel   : Bool
  type  : BitVec 5
  off8  : BitVec 8
  deriving DecidableEq, Repr

/-- A slot W word (Table 9.11). -/
structure WW where
  pred  : BitVec 7
  sense : Bool
  data  : BitVec 8
  base  : BitVec 8
  index : BitVec 8
  kin   : BitVec 7
  holdd : Bool
  holdb : Bool
  holdx : Bool
  rel   : Bool
  type  : BitVec 5
  off8  : BitVec 8
  deriving DecidableEq, Repr

/-- A slot E word (Table 9.12). `kin2` is bits [43:37]: the third consumed token when `extf` is 0, and HOLDC with
the scalar register of the third operand when it is 1. -/
structure EW where
  pred  : BitVec 7
  sense : Bool
  kout  : BitVec 7
  kin0  : BitVec 7
  kin1  : BitVec 7
  kin2  : BitVec 7
  opa   : BitVec 8
  opb   : BitVec 8
  holda : Bool
  holdb : Bool
  rel   : Bool
  extf  : Bool
  deriving DecidableEq, Repr

/-- A slot X word (Table 9.13). -/
structure XW where
  pred  : BitVec 7
  sense : Bool
  dst   : BitVec 8
  src1  : BitVec 8
  src2  : BitVec 8
  hold1 : Bool
  hold2 : Bool
  rel   : Bool
  type  : BitVec 5
  type2 : BitVec 5
  deriving DecidableEq, Repr

/-- A micro-op word of the microprogram store (Table 9.15), without its code. -/
structure MopW where
  ctr    : BitVec 2
  parm   : BitVec 3
  target : BitVec 10
  imm16  : BitVec 16
  deriving DecidableEq, Repr

/-- The seven types of the accumulate-on-write add, min and max, in the order of Table 9.24. -/
inductive AcwType where
  | i32 | n32 | i64 | n64 | f32 | f16 | bf16
  deriving DecidableEq, Repr

/-- The two types of the accumulate-on-write and, or, xor, swap and cas (Table 9.24). -/
inductive AcwWidth where
  | n32 | n64
  deriving DecidableEq, Repr

/-- What a Fareri flit brings to this package (R318): payload for, or a read of, device memory of this package, sent through
a leaf with or without ELIDE (R376); the rows of a tile delivery with what R260 names, and whether its CRC-32C holds (R372);
the return of a remote read; the acknowledgement of a transfer of a command; a barrier arrival from another package; a switch
that takes a word of this package, or writes it back and drops it (R160, R377); or a flit whose CRC failed, which is
retransmitted and delivers nothing. -/
inductive Flit where
  | write (pa : Nat) (data : List Byte) (elide : Bool)
  | read (pa len : Nat) (elide : Bool)
  | deliver (spkg sctx part seq member handle offset : Nat) (rows : List (List Byte)) (post : Bool) (barn : Nat) (good : Bool)
  | remote (pkg pa : Nat) (data : List Byte)
  | ack (cmd : Nat)
  | podArrival (job barrier count : Nat)
  | hold (switch pa : Nat)
  | back (switch pa : Nat) (data : BitVec 64)
  | badCrc
  deriving DecidableEq, Repr

/-- What reaches the DOE mailbox as an SPDM message (R305, R310): a request for a measurement block, or the IDE key management
that establishes link IDE. -/
inductive SpdmReq where
  | measure (index : Nat)
  | ideKeys
  deriving DecidableEq, Repr

/-- The instructions, micro-ops and outside acts of the N9, then the events the machine brings about itself. -/
inductive Instr where
  /-- BR (R188). Transfers control to the bundle at the header address plus the signed displacement. -/
  | br (w : CW)
  /-- BRI (R188). Transfers control to the address held in a scalar register. -/
  | bri (w : CW)
  /-- CALL (R188). Writes the link, raises the call depth and transfers to the displaced target. -/
  | call (w : CW)
  /-- CALLI (R188). Writes the link, raises the call depth and transfers to a register target, which must be a safe point. -/
  | calli (w : CW)
  /-- RET (R188). Lowers the call depth and transfers to the address in a register. -/
  | ret (w : CW)
  /-- LOOP (R189). Pushes a counted-loop entry, or skips to END when the count is zero. -/
  | loop (w : CW)
  /-- EXIT (R190). Ends the context's program; it retires once in-flight results land and engine commands complete. -/
  | exit (w : CW)
  /-- YIELD (R191). Blocks the context for n column cycles. -/
  | yield (w : CW)
  /-- WAIT (R192). Holds back every later bundle until the named token completes. -/
  | wait (w : CW)
  /-- TRAP (R193). Raises a program trap with code n after the bundle's other slots take effect. -/
  | trap (w : CW)
  /-- SYSRD (R198). Reads a system register into a scalar register after the system read latency. -/
  | sysrd (w : CW)
  /-- SYSWR (R198). Writes a system register that has no row of its own from a scalar register. -/
  | syswr (w : CW)
  /-- GOVLOAD_WRITE (R114). Sets the partition's synthetic governor demand, refused for an enabled class above 4 or a foreign instance. -/
  | govloadWrite (w : CW)
  /-- TRETPC_WRITE (R337). Sets the trap return address, refused when bits [63:56] are nonzero. -/
  | tretpcWrite (w : CW)
  /-- TSTAT_WRITE (R338). Writing 1 to HELD discards every held entry with its tagged result. -/
  | tstatWrite (w : CW)
  /-- TRET (R340). Returns from a trap handler, restoring level, loop stack, latches and held entries and replaying captured results. -/
  | tret (w : CW)
  /-- OWNSET (R199). Writes an owner's contract header, applied at the next governor tick. -/
  | ownset (w : CW)
  /-- OWNLAT (R199). Sets one latency entry of an owner's contract. -/
  | ownlat (w : CW)
  /-- OWNBKT (R199). Sets the bucket depth and refill rate of an owner's contexts. -/
  | ownbkt (w : CW)
  /-- OWNRD (R199). Reads an owner's contract header, latency entries or bucket word. -/
  | ownrd (w : CW)
  /-- WAYSET (R200). Sets an owner's way mask in one L2 slice. -/
  | wayset (w : CW)
  /-- OCCRD (R200). Reads an owner's occupancy count in one L2 slice. -/
  | occrd (w : CW)
  /-- RNGSET (R388). Writes or empties an entry of the partition's shared-range table. -/
  | rngset (w : CW)
  /-- WHLSET (R201). Replaces a core's slot-wheel positions, applied from the next revolution. -/
  | whlset (w : CW)
  /-- TLBINV (R202). Removes cached translations of the partition from every TLB of the package. -/
  | tlbinv (w : CW)
  /-- MSWR (R203). Writes a microprogram store word on the issuing core or on every core of the partition. -/
  | mswr (w : CW)
  /-- RTSET (R203). Writes a routine-table entry on the issuing core or on every core of the partition. -/
  | rtset (w : CW)
  /-- PARTSET (R204). Enables or disables a partition. -/
  | partset (w : CW)
  /-- PARTCOL (R204). Sets a partition's columns, moving wheel positions, stores and base regions. -/
  | partcol (w : CW)
  /-- PARTSLC (R204). Assigns or releases L2 slices, writing back dirty lines on release. -/
  | partslc (w : CW)
  /-- PARTCHN (R204). Assigns or releases memory channels and changes the interleave. -/
  | partchn (w : CW)
  /-- PARTLNK (R204). Assigns or releases Fareri Link lanes. -/
  | partlnk (w : CW)
  /-- OWNASGN (R204). Assigns an owner to a partition with reset contract, or removes it. -/
  | ownasgn (w : CW)
  /-- TENSET (R204). Writes a tenant's record with its enable and slice length. -/
  | tenset (w : CW)
  /-- GENADV (R205). Advances the partition's L2 generation, discarding its lines. -/
  | genadv (w : CW)
  /-- ERRINJ (R385). Arms one injected correctable or uncorrectable error at a named unit. -/
  | errinj (w : CW)
  /-- SELFTST (R205). Runs the targeted self-test of a named unit and records its verdict. -/
  | selftst (w : CW)
  /-- CTXSTOP (R205). Stops a context at a safe point or by urgent pre-emption. -/
  | ctxstop (w : CW)
  /-- FRMSET (R205). Appends save frames to a partition's free list. -/
  | frmset (w : CW)
  /-- MOV (R194). Moves a source or immediate, extended by type, into a scalar register. -/
  | mov (w : ABW)
  /-- ADD (R194). Adds two scalar operands modulo the type width. -/
  | add (w : ABW)
  /-- SUB (R194). Subtracts two scalar operands modulo the type width. -/
  | sub (w : ABW)
  /-- MUL (R194). Multiplies two scalar operands, keeping the low half. -/
  | mul (w : ABW)
  /-- MULH (R194). Multiplies two scalar operands, keeping the high half. -/
  | mulh (w : ABW)
  /-- DIV (R194). Divides with truncation toward zero, giving 0 on division by zero. -/
  | div (w : ABW)
  /-- REM (R194). Gives the truncated remainder, or the dividend on division by zero. -/
  | rem (w : ABW)
  /-- AND (R194). Bitwise AND of two scalar operands. -/
  | and (w : ABW)
  /-- OR (R194). Bitwise OR of two scalar operands. -/
  | or (w : ABW)
  /-- XOR (R194). Bitwise exclusive OR of two scalar operands. -/
  | xor (w : ABW)
  /-- SHL (R194). Shifts left by the second operand mod 128. -/
  | shl (w : ABW)
  /-- SHR (R194). Shifts right by the second operand mod 128, arithmetic for signed types. -/
  | shr (w : ABW)
  /-- MIN (R194). Smaller of two scalar operands. -/
  | min (w : ABW)
  /-- MAX (R194). Larger of two scalar operands. -/
  | max (w : ABW)
  /-- ADDS (R194). Adds with clamping to the type's range. -/
  | adds (w : ABW)
  /-- SUBS (R194). Subtracts with clamping to the type's range. -/
  | subs (w : ABW)
  /-- CMP (R195). Compares two scalar operands and sets every bit of a predicate register. -/
  | cmp (w : ABW)
  /-- SEL (R195). Selects one of two scalar operands by a predicate bit. -/
  | sel (w : ABW)
  /-- CLZ (R194). Counts leading zeros of the operand's pattern. -/
  | clz (w : ABW)
  /-- POPC (R194). Counts ones in the operand's pattern. -/
  | popc (w : ABW)
  /-- EXT (R194). Extracts a field of the type's width from a 64-bit value. -/
  | ext (w : ABW)
  /-- ADR (R196). Forms the bundle's header address plus the long immediate. -/
  | adr (w : ABW)
  /-- AGBASE (R196). Sets the BASE of an address-generator set. -/
  | agbase (w : ABW)
  /-- AGDIM (R196). Sets the count and stride of one dimension of a set. -/
  | agdim (w : ABW)
  /-- AGIDX (R196). Sets the current index of one dimension of a set. -/
  | agidx (w : ABW)
  /-- AGIND (R196). Sets the indirect table handle, enable, width and dimension of a set. -/
  | agind (w : ABW)
  /-- AGMODE (R196). Sets a set's address mode, virtual or tile offset. -/
  | agmode (w : ABW)
  /-- AGRD (R196). Reads one 64-bit word of a set's image. -/
  | agrd (w : ABW)
  /-- AGCLR (R196). Clears every field of a set. -/
  | agclr (w : ABW)
  /-- MPSET (R196). Writes a matrix parameter register. -/
  | mpset (w : ABW)
  /-- MPRD (R196). Reads a matrix parameter register into a scalar register. -/
  | mprd (w : ABW)
  /-- VMOV (R218). Copies active elements of a vector or the long immediate. -/
  | vmov (w : VW)
  /-- VBCAST (R218). Writes a scalar value into every active element. -/
  | vbcast (w : VW)
  /-- VADD (R210). Element-wise addition, rounded once or wrapped. -/
  | vadd (w : VW)
  /-- VSUB (R210). Element-wise subtraction, rounded once or wrapped. -/
  | vsub (w : VW)
  /-- VMUL (R210). Element-wise multiplication, rounded once or wrapped. -/
  | vmul (w : VW)
  /-- VFMA (R210). Element-wise fused multiply-add, rounded once. -/
  | vfma (w : VW)
  /-- VFMS (R210). Element-wise fused multiply-subtract, rounded once. -/
  | vfms (w : VW)
  /-- VDIV (R210). Element-wise floating division, rounded once. -/
  | vdiv (w : VW)
  /-- VMIN (R210). Element-wise minimum. -/
  | vmin (w : VW)
  /-- VMAX (R210). Element-wise maximum. -/
  | vmax (w : VW)
  /-- VABS (R210). Element-wise absolute value. -/
  | vabs (w : VW)
  /-- VNEG (R210). Element-wise negation. -/
  | vneg (w : VW)
  /-- VSQRT (R211). Correctly rounded element-wise square root. -/
  | vsqrt (w : VW)
  /-- VRCP (R211). Correctly rounded element-wise reciprocal. -/
  | vrcp (w : VW)
  /-- VRSQRT (R211). Correctly rounded element-wise reciprocal square root. -/
  | vrsqrt (w : VW)
  /-- VEXP2 (R211). Correctly rounded element-wise power of two. -/
  | vexp2 (w : VW)
  /-- VLOG2 (R211). Correctly rounded element-wise base-2 logarithm. -/
  | vlog2 (w : VW)
  /-- VSZADD (R212). Adds the correctly rounded log2 of a size to each logit. -/
  | vszadd (w : VW)
  /-- VCMP (R213). Compares element pairs and writes predicate bits. -/
  | vcmp (w : VW)
  /-- VSEL (R214). Selects each element from one of two vectors by a predicate. -/
  | vsel (w : VW)
  /-- VAND (R210). Element-wise bitwise AND. -/
  | vand (w : VW)
  /-- VOR (R210). Element-wise bitwise OR. -/
  | vor (w : VW)
  /-- VXOR (R210). Element-wise bitwise exclusive OR. -/
  | vxor (w : VW)
  /-- VNOT (R210). Element-wise bitwise inversion. -/
  | vnot (w : VW)
  /-- VSHL (R210). Element-wise left shift. -/
  | vshl (w : VW)
  /-- VSHR (R210). Element-wise right shift. -/
  | vshr (w : VW)
  /-- VADDS (R210). Element-wise saturating addition. -/
  | vadds (w : VW)
  /-- VSUBS (R210). Element-wise saturating subtraction. -/
  | vsubs (w : VW)
  /-- VMULH (R210). Element-wise high half of the product. -/
  | vmulh (w : VW)
  /-- VCVT (R216). Converts elements between types into or out of one part of the register. -/
  | vcvt (w : VW)
  /-- VRSUM (R217). Reduces the active elements by sum in a fixed tree into every element. -/
  | vrsum (w : VW)
  /-- VRMAX (R217). Reduces the active elements by maximum into every element. -/
  | vrmax (w : VW)
  /-- VRMIN (R217). Reduces the active elements by minimum into every element. -/
  | vrmin (w : VW)
  /-- VPERM (R218). Writes elements of a source chosen by an index vector. -/
  | vperm (w : VW)
  /-- VROT (R218). Rotates elements by a scalar amount. -/
  | vrot (w : VW)
  /-- VEXTR (R218). Extracts one element into a scalar register. -/
  | vextr (w : VW)
  /-- VINS (R218). Inserts a scalar value into one element. -/
  | vins (w : VW)
  /-- VIOTA (R218). Writes a base plus the element index into each active element. -/
  | viota (w : VW)
  /-- PAND (R215). Bitwise AND of two predicate registers. -/
  | pand (w : VW)
  /-- POR (R215). Bitwise OR of two predicate registers. -/
  | por (w : VW)
  /-- PXOR (R215). Bitwise exclusive OR of two predicate registers. -/
  | pxor (w : VW)
  /-- PNOT (R215). Inverts a predicate register. -/
  | pnot (w : VW)
  /-- PMOV (R215). Copies a predicate register. -/
  | pmov (w : VW)
  /-- PCNT (R215). Counts active set bits of a predicate. -/
  | pcnt (w : VW)
  /-- PFIRST (R215). Finds the lowest active set bit of a predicate. -/
  | pfirst (w : VW)
  /-- LD (R246). Loads a scalar from memory and extends it into a register. -/
  | ld (w : LW)
  /-- LDSC (R154). Sequentially consistent scalar load at the context's wheel position. -/
  | ldsc (w : LW)
  /-- VLD (R220). Loads 1,024 bytes from memory into a vector register. -/
  | vld (w : LW)
  /-- VLDG (R224). Gathers one element per draw of an address-generator set from memory. -/
  | vldg (w : LW)
  /-- TLD (R222). Loads 1,024 bytes, or n planes of a block, from a tile. -/
  | tld (w : LW)
  /-- TLDG (R224). Gathers one element per draw from tile offsets. -/
  | tldg (w : LW)
  /-- PLD (R220). Loads 64 bytes from memory into a predicate register. -/
  | pld (w : LW)
  /-- PFH (R248). Asks the home slice to fill one line under the owner's mask. -/
  | pfh (w : LW)
  /-- PFHX (R248). Asks for a fill of up to 255 consecutive lines. -/
  | pfhx (w : LW)
  /-- L_SLOT_HINT (R178). An L-slot word with opcode 0xF0 to 0xFE does nothing. -/
  | lSlotHint (op : BitVec 4) (rest : BitVec 56)
  /-- ST (R246). Stores the low bytes of a scalar to memory. -/
  | st (w : WW)
  /-- STSC (R154). Sequentially consistent scalar store at the context's wheel position. -/
  | stsc (w : WW)
  /-- VST (R220). Stores 1,024 bytes of a vector register to memory. -/
  | vst (w : WW)
  /-- VSTS (R224). Scatters one element per draw of an address-generator set to memory. -/
  | vsts (w : WW)
  /-- TST (R222). Stores a vector register into a tile, or all eight planes of a block. -/
  | tst (w : WW)
  /-- TSTS (R224). Scatters one element per draw to tile offsets. -/
  | tsts (w : WW)
  /-- PST (R220). Stores a predicate register as 64 bytes to memory. -/
  | pst (w : WW)
  /-- MARK (R152). Orders the context's later accesses behind its earlier ones at a scope and completes a token. -/
  | mark (w : WW)
  /-- STNT (R247). Stores without allocating a line in the home slice. -/
  | stnt (w : WW)
  /-- MCALL (R238). Issues a matrix call of a routine into an accumulator tile under the owner's contract. -/
  | mcall (w : MW)
  /-- ACCGET (R228). Requests the grant of an accumulator tile. -/
  | accget (w : MW)
  /-- ACCPUT (R228). Releases an accumulator tile. -/
  | accput (w : MW)
  /-- ACCCLR (R229). Clears an accumulator tile and its postmark. -/
  | accclr (w : MW)
  /-- ACCMOV (R229). Copies one accumulator tile and its postmark to another. -/
  | accmov (w : MW)
  /-- ACCST (R235). Stores an accumulator tile under a descriptor, followed by its postmark. -/
  | accst (w : MW)
  /-- LATGET (R228). Requests the grant of an operand latch. -/
  | latget (w : MW)
  /-- LATPUT (R228). Releases an operand latch. -/
  | latput (w : MW)
  /-- LATLD (R233). Fills a latch from an operand grid. -/
  | latld (w : MW)
  /-- ACCRD (R230). Reads four rows of an accumulator tile, or its postmark, into a vector register. -/
  | accrd (w : MW)
  /-- KTILE (R240). Waits for the next K-tile window, takes the owner's rung and records it in the postmark. -/
  | ktile (w : MopW)
  /-- FETCHA (R240). Chooses the A descriptor as the K-tile's A source. -/
  | fetcha (w : MopW)
  /-- FETCHB (R240). Chooses the B descriptor as the K-tile's B source. -/
  | fetchb (w : MopW)
  /-- LATA (R240). Chooses a latch as the K-tile's A source. -/
  | lata (w : MopW)
  /-- LATB (R240). Chooses a latch as the K-tile's B source. -/
  | latb (w : MopW)
  /-- GROUPS (R241). Computes the open K-tile's groups into every active cell. -/
  | groups (w : MopW)
  /-- STEPA (R240). Moves the A operand index by a signed immediate. -/
  | stepa (w : MopW)
  /-- STEPB (R240). Moves the B operand index by a signed immediate. -/
  | stepb (w : MopW)
  /-- SCALEA (R240). Enables or disables A's scales. -/
  | scalea (w : MopW)
  /-- SCALEB (R240). Enables or disables B's scales. -/
  | scaleb (w : MopW)
  /-- ACCSEL (R240). Selects transposed accumulation. -/
  | accsel (w : MopW)
  /-- FILLA (R240). Makes every A element of the K-tile a constant. -/
  | filla (w : MopW)
  /-- FILLB (R240). Makes every B element of the K-tile a constant. -/
  | fillb (w : MopW)
  /-- CNTSET (R240). Sets a routine counter. -/
  | cntset (w : MopW)
  /-- CNTDEC (R240). Decrements a routine counter, not below zero. -/
  | cntdec (w : MopW)
  /-- JNZ (R240). Jumps when a routine counter is nonzero. -/
  | jnz (w : MopW)
  /-- JMP (R240). Jumps to a store word. -/
  | jmp (w : MopW)
  /-- PARMRD (R240). Loads a counter from a 16-bit field of a parameter register. -/
  | parmrd (w : MopW)
  /-- DONE (R240). Ends the routine once every K-tile is computed. -/
  | done (w : MopW)
  /-- NOPM (R240). Does nothing. -/
  | nopm (w : MopW)
  /-- COPY_MEM_TO_TILE (R252). Copies a memory image into a tile, optionally through a load half-chain. -/
  | copyMemToTile (w : EW)
  /-- COPY_TILE_TO_MEM (R252). Copies a tile's image to memory, optionally through a store half-chain. -/
  | copyTileToMem (w : EW)
  /-- COPY_TILE_TO_TILE (R252). Copies one tile's image into another of equal shape. -/
  | copyTileToTile (w : EW)
  /-- COPY_MEM_TO_MEM (R252). Copies a byte count from one memory address to another. -/
  | copyMemToMem (w : EW)
  /-- MCAST (R260). Sends a tile's image to up to 64 memory or tile destinations. -/
  | mcast (w : EW)
  /-- COPYH (R262). Copies a tile to memory and presents an arrival to a handler. -/
  | copyh (w : EW)
  /-- TALLOC (R265). Allocates a tile and writes its tile-table entries. -/
  | talloc (w : EW)
  /-- TFREE (R265). Empties a tile's entries and returns its space after earlier accesses complete. -/
  | tfree (w : EW)
  /-- LAUNCH (R266). Reads a letter from memory and enters it into the partition's launch queues. -/
  | launch (w : EW)
  /-- RACQ (R266). Makes the device the holder of a shared range after back-invalidating host copies. -/
  | racq (w : EW)
  /-- RREL (R266). Writes back a shared range's dirty lines and makes the host its holder. -/
  | rrel (w : EW)
  /-- BAR_CORE (R264). Arrives at a core-scope barrier. -/
  | barCore (w : EW)
  /-- BAR_QUAD (R264). Arrives at a quad-scope barrier. -/
  | barQuad (w : EW)
  /-- BAR_STACK (R264). Arrives at a stack-scope barrier. -/
  | barStack (w : EW)
  /-- BAR_PKG (R264). Arrives at a package-scope barrier. -/
  | barPkg (w : EW)
  /-- BAR_POD (R264). Arrives at a pod-scope barrier. -/
  | barPod (w : EW)
  /-- ACW_ADD (R263). Atomically adds a value to a memory unit at its port. -/
  | acwAdd (t : AcwType) (w : EW)
  /-- ACW_MIN (R263). Atomically takes the minimum into a memory unit. -/
  | acwMin (t : AcwType) (w : EW)
  /-- ACW_MAX (R263). Atomically takes the maximum into a memory unit. -/
  | acwMax (t : AcwType) (w : EW)
  /-- ACW_AND (R263). Atomically ANDs a value into a memory unit. -/
  | acwAnd (t : AcwWidth) (w : EW)
  /-- ACW_OR (R263). Atomically ORs a value into a memory unit. -/
  | acwOr (t : AcwWidth) (w : EW)
  /-- ACW_XOR (R263). Atomically exclusive-ORs a value into a memory unit. -/
  | acwXor (t : AcwWidth) (w : EW)
  /-- ACW_SWAP (R263). Atomically replaces a memory unit. -/
  | acwSwap (t : AcwWidth) (w : EW)
  /-- ACW_CAS (R263). Atomically compares and swaps a memory unit. -/
  | acwCas (t : AcwWidth) (w : EW)
  /-- ACWF_ADD (R263). Atomic add that also writes the old value into a tile row. -/
  | acwfAdd (t : AcwType) (w : EW)
  /-- ACWF_MIN (R263). Atomic minimum that fetches the old value. -/
  | acwfMin (t : AcwType) (w : EW)
  /-- ACWF_MAX (R263). Atomic maximum that fetches the old value. -/
  | acwfMax (t : AcwType) (w : EW)
  /-- ACWF_AND (R263). Atomic AND that fetches the old value. -/
  | acwfAnd (t : AcwWidth) (w : EW)
  /-- ACWF_OR (R263). Atomic OR that fetches the old value. -/
  | acwfOr (t : AcwWidth) (w : EW)
  /-- ACWF_XOR (R263). Atomic exclusive OR that fetches the old value. -/
  | acwfXor (t : AcwWidth) (w : EW)
  /-- ACWF_SWAP (R263). Atomic swap that fetches the old value. -/
  | acwfSwap (t : AcwWidth) (w : EW)
  /-- ACWF_CAS (R263). Atomic compare-and-swap that fetches the old value. -/
  | acwfCas (t : AcwWidth) (w : EW)
  /-- XEXP (R268). Expands compressed groups from two vector registers, checking the declared ratio. -/
  | xexp (w : XW)
  /-- XTRN (R268). Transposes 16 by 16 blocks of elements. -/
  | xtrn (w : XW)
  /-- XCVT (R268). Converts elements as VCVT does, unguarded per element. -/
  | xcvt (w : XW)
  /-- XQNT (R268). Quantises elements to 8-bit codes under BF16 scales. -/
  | xqnt (w : XW)
  /-- SHSEAL (R256). Reads and validates a shape record and seals it into the stack's shape table. -/
  | shseal (w : XW)
  /-- SHFREE (R256). Frees a shape-table entry. -/
  | shfree (w : XW)
  /-- XRATIO (R268). Sets the context's declared expansion ratio. -/
  | xratio (w : XW)
  /-- XRED (R268). Reduces each 64-byte row to one F32 lane by the fixed tree. -/
  | xred (w : XW)
  /-- TMMATCH (R274). Builds an unmerge map by bipartite matching of key rows. -/
  | tmmatch (w : EW)
  /-- TMMERGE (R276). Averages value rows by size into survivor rows under a map. -/
  | tmmerge (w : EW)
  /-- TMUNMRG (R277). Restores every token's row from its survivor under a map. -/
  | tmunmrg (w : EW)
  /-- TMCOMP (R279). Composes two maps of successive layers. -/
  | tmcomp (w : EW)
  /-- TMFREE (R278). Empties a map entry and frees its store entry. -/
  | tmfree (w : EW)
  /-- TMSIZE (R278). Writes a map's sizes or merged indices into a tile. -/
  | tmsize (w : EW)
  /-- SMOPEN (R288). Reads a session descriptor and opens a sparse merge session. -/
  | smopen (w : EW)
  /-- SMPUSH (R290). Pushes up to 256 entries from three vector registers to a stream. -/
  | smpush (w : EW)
  /-- SMFEED (R291). Feeds entries of a stream from memory through the copy engine. -/
  | smfeed (w : EW)
  /-- SMLIMIT (R292). Sets the session's buffer limit. -/
  | smlimit (w : EW)
  /-- SMEND (R293). Closes a stream. -/
  | smend (w : EW)
  /-- SMDRAIN (R295). Merges every run and the buffer and writes the compressed-row result. -/
  | smdrain (w : EW)
  /-- LETTERBOX_WRITE (R43). A 64-byte aligned host write delivers one launch letter to a partition's letterbox. -/
  | letterboxWrite (off : Nat) (full : Bool) (data : List Byte)
  /-- ERROR_STRIKE (R379). A detected storage error is corrected or handled and charged, then self-tested and logged. -/
  | errorStrike (desc : BitVec 64) (unc : Bool) (lasting : Bool)
  /-- TDISP_LOCK (R309). The host moves a TDI to CONFIG_LOCKED, locking its configuration and taking its digest. -/
  | tdispLock (part : Nat)
  /-- TDISP_RUN (R309). The host moves a locked TDI to RUN. -/
  | tdispRun (part : Nat)
  /-- TDISP_UNLOCK (R378). The host returns a TDI to CONFIG_UNLOCKED, terminating its contexts from ERROR. -/
  | tdispUnlock (part : Nat)
  /-- IDE_LOSS (R309). Loss of link IDE moves locked TDIs to ERROR. -/
  | ideLoss
  /-- SPDM_REQUEST (R310). The Uzovas responder answers an SPDM request over the DOE mailbox. -/
  | spdmRequest (req : SpdmReq)
  /-- FIRMWARE_STAGE (R324). A new firmware image is staged through the DOE mailbox for the next reset. -/
  | firmwareStage (image : List Byte) (version : BitVec 64) (keySlot : Nat) (sigGood : Bool) (raise : Bool)
  /-- BAR0_WRITE (R303). A host write to a management register without a row of its own. -/
  | bar0Write (off : Nat) (len : Nat) (data : BitVec 64)
  /-- PBUDGET_WRITE (R321). Sets the power budget, ignored outside 400 to 1,600 watts. -/
  | pbudgetWrite (data : BitVec 64)
  /-- PARTITION_RECORD_WRITE (R311). A host write to a partition record's RW fields, ignored and erroring when locked. -/
  | partitionRecordWrite (part : Nat) (word : Nat) (data : BitVec 64)
  /-- HDM_DECODER_COMMIT (R306). The host commits an HDM decoder onto a partition's device memory. -/
  | hdmDecoderCommit (part : Nat) (base : Nat) (size : Nat)
  /-- HOST_MEM_READ (R306). A host CXL.mem read of device memory through the home slice and elision rule. -/
  | hostMemRead (hpa : Nat) (len : Nat)
  /-- HOST_MEM_WRITE (R306). A host CXL.mem write of device memory, performed at sys at its completion. -/
  | hostMemWrite (hpa : Nat) (data : List Byte)
  /-- HOST_SNOOP (R308). The device answers a host snoop for a host line it holds. -/
  | hostSnoop (line : Nat) (inv : Bool)
  /-- LINK_TRAINING (R303). A Fareri link trains and the switch assigns the package number. -/
  | linkTraining (switch : Nat) (pkg : Nat)
  /-- COLD_RESET (R323). Power-on or fundamental reset returns the device to its reset state. -/
  | coldReset
  /-- WARM_RESET (R323). A CXL hot reset returns the device to its reset state, keeping auxiliary state. -/
  | warmReset
  /-- BOOT_COMPLETE (R324). Firmware checks and self-test end, BOOT is set and partition 0 is enabled. -/
  | bootComplete (selfTest : Bool)
  /-- BACK_INVALIDATION_RESPONSE (R307). The host answers a back-invalidation snoop, so the waiting slice write or RACQ may proceed. -/
  | backInvalidationResponse (line : Nat) (dirty : Option (List Byte))
  /-- ATS_TRANSLATION_RESPONSE (R312). The host IOMMU returns, or refuses, a translation requested through ATS for host memory. -/
  | atsTranslationResponse (hpaPage : Nat) (answer : Option Nat)
  /-- FARERI_FLIT_ARRIVAL (R318). A flit arrives on a Fareri lane, carrying remote payload, barrier arrivals or acknowledgements, or failing its CRC and being retransmitted. -/
  | fareriFlitArrival (flit : Flit)
  /-- FARERI_LINK_LOSS (R377). A Fareri link to a switch goes down, starting the 1 ms retraining limit. -/
  | fareriLinkLoss (switch : Nat)
  /-- YIELD_EXPIRY (R191). The yield count runs out and the context becomes ready again. -/
  | yieldExpiry (c : Nat)
  /-- STORE_WRITE_APPLY (R78). On a core whose matrix calls have ended, a pending store or routine-table write takes effect. -/
  | storeWriteApply (core : Nat)
  /-- MATRIX_CALL_COMPLETE (R107). At the fixed completion cycle the call's values and postmark land in the accumulator tile. -/
  | matrixCallComplete (call : Nat)
  /-- HANDLER_ARRIVAL (R65). A DORMANT handler context becomes READY for a queued or new arrival. -/
  | handlerArrival (c : Nat)
  /-- ALLOCATION_SERVED (R125). An allocation waiting at the head of its allocator is served when frees make room. -/
  | allocationServed (alloc : Nat)
  /-- SWITCH_WRITEBACK (R160). A plain access to a switch-held word waits until the switch writes it back and drops it. -/
  | switchWriteback (word : Nat)
  /-- MAP_STORE_WAIT_SERVED (R280). A match or composition waiting for a free map-store entry is served when one frees. -/
  | mapStoreWaitServed (quad : Nat)
  /-- SMOPEN_SET_ASIDE_SERVED (R287). A set-aside SMOPEN is served when the session before it closes. -/
  | smopenSetAsideServed (quad : Nat)
  /-- SCHEDULER_PASS (R48). Every 64 scheduler cycles the partition scheduler tries to place each head letter and saved quire. -/
  | schedulerPass (part : Nat)
  /-- LETTER_RESERVING (R49). A head letter unplaced for 1,024 passes becomes reserving. -/
  | letterReserving (part : Nat) (prio : Nat)
  /-- START_SIGNAL (R51). Once every member is claimed and written, the start signal sends them to READY or DORMANT. -/
  | startSignal (quire : Nat)
  /-- CONTEXT_RETIRE (R190). After EXIT, once results land and commands complete, the context enters RETIRED and releases grants. -/
  | contextRetire (c : Nat)
  /-- QUIRE_RETIRE (R64). When the last member retires, the quire's tiles are freed and the completion word written. -/
  | quireRetire (quire : Nat)
  /-- AGE_COUNT_EXPIRY (R56). A READY context's age count reaches 64 and it becomes aged. -/
  | ageCountExpiry (c : Nat)
  /-- RESULT_LANDING (R54). An operation's result lands in its destination at its published cycle. -/
  | resultLanding (c : Nat)
  /-- LATE_LOAD_FREEZE (R185). A load's value missing at its landing cycle freezes the context. -/
  | lateLoadFreeze (c : Nat)
  /-- LATE_LOAD_ARRIVAL (R185). The late value lands and the frozen context returns to READY or BLOCKED. -/
  | lateLoadArrival (c : Nat)
  /-- SLICE_END (R59). A tenant's slice ends and stop requests go to its contexts. -/
  | sliceEnd (part : Nat)
  /-- SAFE_POINT_STOP (R59). A stopping context reaches its next safe point and enters SAVING. -/
  | safePointStop (c : Nat)
  /-- CONTEXT_SAVE (R59). Once in-flight work ends, the live state is written to save frames and the context becomes EMPTY. -/
  | contextSave (c : Nat)
  /-- STOP_TIMEOUT (R59). A context not at a safe point 65,536 cycles after its stop request is stopped urgently. -/
  | stopTimeout (c : Nat)
  /-- URGENT_STOP (R343). Freezes the context at the next bundle boundary, snapshots and saves its whole state. -/
  | urgentStop (c : Nat)
  /-- FRAME_EXHAUSTION (R348). A save finding no free frame waits, logs a FRAME record and raises the hypervisor vector. -/
  | frameExhaustion (c : Nat)
  /-- PARCEL_TIMEOUT (R375). A parcel waiting 2^24 cycles for ring room is dropped and its destination fails. -/
  | parcelTimeout (part : Nat)
  /-- DELIVERY_CHECK (R372). Once all rows of a link transfer are written the CRC is checked and POST counted. -/
  | deliveryCheck (delivery : Nat) (good : Bool)
  /-- GOVERNOR_TICK (R115). Every 256 scheduler cycles the governor narrows and widens owners on each instance. -/
  | governorTick
  /-- COLUMN_STEP_UP (R119). After 16 cool ticks without a step the column's clock steps up. -/
  | columnStepUp (col : Nat)
  /-- BUDGET_ARBITER (R321). Every 16 ticks sets each column's class 4 energy share. -/
  | budgetArbiter
  /-- BREACH_BEGIN (R117). A group missing its K-tile window freezes every issuing context of the core. -/
  | breachBegin (core : Nat)
  /-- BREACH_END (R117). The late group enters the array and the frozen contexts return. -/
  | breachEnd (core : Nat)
  /-- BREACH_TIMEOUT (R358). A breach freeze reaching 65,536 cycles ends the call with a GOVERN fault. -/
  | breachTimeout (core : Nat)
  /-- FAULT_FREEZE (R335). A faulting context freezes and its snapshot buffer captures results, held entries and state. -/
  | faultFreeze (c : Nat)
  /-- TRAP_DELIVERY (R338). Once the snapshot is full the fault is delivered to the handler or the context is terminated. -/
  | trapDelivery (c : Nat)
  /-- CONTEXT_TERMINATE (R341). After its commands complete the context writes its fault record, raises 4p+1 and retires. -/
  | contextTerminate (c : Nat)
  /-- SELF_TEST_VERDICT (R382). A targeted self-test ends with a TRANSIENT or LASTING verdict. -/
  | selfTestVerdict (test : Nat)
  /-- SWITCH_FAILURE (R377). A switch that fails to retrain within 1 ms loses its words, poisoning their home lines. -/
  | switchFailure (switch : Nat)
  /-- TDI_ERROR (R378). A TDI entering ERROR freezes its partition and poisons its host accesses. -/
  | tdiError (part : Nat)
  /-- ENGINE_COMMAND_COMPLETE (R155). An engine command's reads have read and its writes are performed, so it completes and its produced token completes, possibly with a failure record. -/
  | engineCommandComplete (cmd : Nat)
  /-- MARKER_COMPLETE (R152). A marker's earlier stores are performed and its earlier loads have read at its scope, so its token completes and the later accesses may proceed. -/
  | markerComplete (c : Nat)
  /-- SLOT_WHEEL_POSITION (R153). The slot wheel reaches a position, and the waiting SC access of that position's core issues and is ordered in the wheel order. -/
  | slotWheelPosition (core : Nat)
  /-- K_TILE_WINDOW_OPEN (R107). At c0 + j × P + Fj the window of K-tile j opens, and the routine's waiting KTILE takes the rung and requests operands. -/
  | kTileWindowOpen (call : Nat)
  /-- TLBINV_COMPLETE (R202). Every TLB has dropped the entries and every earlier walk has ended, so TLBINV completes and its context unblocks. -/
  | tlbinvComplete (c : Nat)
  /-- GENERATION_ZEROING_END (R130). The physical zeroing of a structure whose generation would wrap ends, and the waiting claims, allocations, grants and GENADV proceed. -/
  | generationZeroingEnd (struct : Nat)
  /-- SLICE_RELEASE_WRITEBACK_END (R204). The write-back and invalidation of the slices that PARTSLC releases end, and the blocking PARTSLC completes. -/
  | sliceReleaseWritebackEnd (c : Nat)
  deriving DecidableEq, Repr

end Sys2Proof
end

