-- ==== Sys2Proof/Machine/Forms.lean ====
section
/-! DEFINITION. The form of every slot operation: what each field of its word holds (Tables 10.1, 10.3, 10.5, 11.1,
11.6, 12.1, 13.1, 13.2, 13.6, 13.7, 14.2, 15.1), which types it accepts, its level and its latency (Table 9.27), and
the checks 4 to 9 of R179 read off the form. -/

namespace Sys2Proof.Machine

/-- Privilege levels (R81). -/
inductive Level where
  | U | S | H
  deriving DecidableEq, Repr

/-- The level as a number, U lowest. -/
def Level.num : Level → Nat
  | .U => 0 | .S => 1 | .H => 2

/-- The register classes of Table 9.3 that a context holds, and the core's two. -/
inductive Cls where
  | s | v | p | ag | m | a | l
  deriving DecidableEq, Repr

/-- Registers of a class (Table 9.3). -/
def Cls.count : Cls → Nat
  | .s => 64 | .v => 160 | .p => 96 | .ag => 16 | .m => 8 | .a => 16 | .l => 4

/-- RCLASS of Table 24.3. -/
def Cls.num : Cls → Nat
  | .s => 0 | .v => 1 | .p => 2 | .ag => 3 | .m => 4 | .a => 5 | .l => 6

/-- What an 8-bit field of a slot word holds in a form. -/
inductive Role where
  /-- Unused: must be zero (R175). -/
  | unused
  /-- A register source; `imm`: 0xFE reads the long-immediate word; `held`: 0xFF reads the latch (Table 9.3). -/
  | src (c : Cls) (imm held : Bool)
  /-- A register destination. -/
  | dst (c : Cls)
  /-- A tile handle: every value is one. -/
  | handle
  /-- An accumulator tile. -/
  | acc
  /-- A latch. -/
  | lat
  /-- A plain number up to a bound. -/
  | num (max : Nat)
  /-- A condition code (Table 9.5). -/
  | cond
  /-- The first of the three vector registers of SMPUSH (R286: 0 to 157). -/
  | push
  deriving DecidableEq, Repr

/-- One field of a slot word: its value, role, hold bit, and which source field of the slot it is. -/
structure Field where
  val  : Nat
  role : Role
  hold : Bool
  idx  : Nat
  deriving DecidableEq, Repr

/-- The form of a slot operation. -/
structure Form where
  slot   : Slot
  pred   : BitVec 7
  sense  : Bool
  flds   : List Field
  /-- Every other unused field is zero and every plain number of the form is in range (check 4). -/
  clean  : Bool
  /-- Type, scope, condition, MODE and CAP are accepted (check 8). -/
  typeOk : Bool
  /-- Consumed tokens. -/
  kins   : List (BitVec 7)
  /-- Produced token. -/
  kout   : BitVec 7
  rel    : Bool
  level  : Level
  /-- Cycles from issue to landing (Table 9.27). -/
  lat    : Nat
  /-- Guarded element by element (or, for SEL, not guarded at all): the guard never suppresses the whole operation. -/
  ew     : Bool
  /-- The opcode is assigned in the slot (check 3): the set-up forms of Table 10.5 are slot B's only (Table 9.19). -/
  opOk   : Bool := true
  /-- The immediate that stands in the place of the second source (IMMF, Table 9.7). -/
  imm2   : Option Nat := none
  deriving DecidableEq, Repr

/-- The field of a form with an index. -/
def Form.fld (f : Form) (i : Nat) : Field :=
  match findFirst (fun g => g.idx = i) f.flds with
  | some g => g
  | none => ⟨0, .unused, false, i⟩

/-- The number in the destination field: FA in slot C (R186), field 3 elsewhere. -/
def Form.dst (f : Form) : Nat := match f.slot with | .C => (f.fld 0).val | _ => (f.fld 3).val

/-- Does a type code name a type with a property? -/
def tyIs (c : BitVec 5) (p : Ty → Bool) : Bool :=
  match tyOf c with
  | some t => p t
  | none => false

/-- Is the type of a code 64 bits wide? -/
def wide64 (c : BitVec 5) : Bool := tyIs c fun t => t.width == 64

/-- The VCVT type pairs (Table 11.5). -/
def cvtOk (td ts : BitVec 5) : Bool :=
  match tyOf td, tyOf ts with
  | some d, some s => convAdmitted d s
  | _, _ => false

/-- The largest part number of a conversion (R216). -/
def partMax (td ts : BitVec 5) : Nat :=
  match tyOf td, tyOf ts with
  | some d, some s => max d.width s.width / min d.width s.width - 1
  | _, _ => 0

/-- The type pairs of the reductions (Table 11.1). -/
def redOk (td ts : BitVec 5) : Bool :=
  (td == 9 && tyIs ts Ty.isF) || ((td == 3 || td == 7 || td == 4 || td == 8) && tyIs ts Ty.isI)

/-- Slot C (Table 9.6, R186): no field is held or reads the long-immediate word. -/
def cForm (w : CW) (fa fb : Role) (immOk : Bool) (lat : Nat) (lev : Level) : Form :=
  { slot := .C, pred := w.pred, sense := w.sense, flds := [⟨w.fa.toNat, fa, false, 0⟩, ⟨w.fb.toNat, fb, false, 1⟩],
    clean := immOk, typeOk := true, kins := [w.kin], kout := 0x7F, rel := false, level := lev, lat := lat, ew := false }

/-- The slot of a slot A or B word. -/
def abSlot (w : ABW) : Slot := if w.slotB then .B else .A

/-- The second source of a scalar form: unused when IMM15 replaces it (Table 9.7). -/
def src2Role (w : ABW) : Role := if w.immf then .unused else .src .s true true

/-- A scalar operation of Table 10.3; `two` is false for the unary forms, whose SRC1 is zero (R194). -/
def scalarForm (w : ABW) (two : Bool) (lat : Nat) : Form :=
  { slot := abSlot w, pred := w.pred, sense := w.sense,
    flds := [⟨w.dst.toNat, .dst .s, false, 3⟩, ⟨w.src1.toNat, if two then .src .s true true else .unused, w.hold1, 0⟩,
      ⟨w.src2.toNat, src2Role w, w.hold2, 1⟩],
    clean := w.immf || w.imm15 == 0, typeOk := tyIs w.type Ty.isI,
    kins := [], kout := 0x7F, rel := w.rel, level := .U, lat := lat, ew := false,
    imm2 := if w.immf then some (wrapN (sext w.imm15.toNat 15) 64) else none }

/-- CMP (R195): the condition in bits [63:56], a 7-bit immediate in [55:49] when IMMF is 1. -/
def cmpForm (w : ABW) : Form :=
  { slot := abSlot w, pred := w.pred, sense := w.sense,
    flds := [⟨w.dst.toNat, .dst .p, false, 3⟩, ⟨w.src1.toNat, .src .s true true, w.hold1, 0⟩,
      ⟨w.src2.toNat, src2Role w, w.hold2, 1⟩],
    clean := w.immf || w.imm15.toNat % 128 == 0,
    typeOk := tyIs w.type Ty.isI && decide (w.imm15.toNat / 128 ≤ 5),
    kins := [], kout := 0x7F, rel := w.rel, level := .U, lat := 1, ew := false,
    imm2 := if w.immf then some (wrapN (sext (w.imm15.toNat % 128) 7) 64) else none }

/-- SEL (R195): PRED and SENSE are the selector, not a guard. -/
def selForm (w : ABW) : Form := { scalarForm w true 1 with ew := true }

/-- The slot B set-up forms of Table 10.5. -/
def bForm (w : ABW) (d s1 s2 : Role) (immOk : Bool) (lat : Nat) : Form :=
  { slot := abSlot w, pred := w.pred, sense := w.sense,
    flds := [⟨w.dst.toNat, d, false, 3⟩, ⟨w.src1.toNat, s1, w.hold1, 0⟩, ⟨w.src2.toNat, s2, w.hold2, 1⟩],
    clean := immOk && !w.immf, typeOk := w.type == 0,
    kins := [], kout := 0x7F, rel := w.rel, level := .U, lat := lat, ew := false, opOk := w.slotB }

/-- A vector source that accepts 0xFE, but under a 64-bit type (R207). -/
def vImm (w : VW) : Role := .src .v (!wide64 w.type) true

/-- Slot V (Tables 9.8, 11.1). A type that the form does not use must be zero, as a type (log 81). -/
def vForm (w : VW) (d s1 s2 s3 : Role) (tOk t2Ok : Bool) (lat : Nat) (ew : Bool) : Form :=
  { slot := .V, pred := w.pred, sense := w.sense,
    flds := [⟨w.dst.toNat, d, false, 3⟩, ⟨w.src1.toNat, s1, w.hold1, 0⟩, ⟨w.src2.toNat, s2, w.hold2, 1⟩,
      ⟨w.src3.toNat, s3, w.hold3, 2⟩],
    clean := true, typeOk := tOk && t2Ok, kins := [], kout := 0x7F, rel := w.rel, level := .U, lat := lat, ew := ew }

/-- Slot L (Tables 9.10, 11.6, 13.1). -/
def lForm (w : LW) (d ba ix : Role) (tOk rest : Bool) (lat : Nat) (ew : Bool) : Form :=
  { slot := .L, pred := w.pred, sense := w.sense,
    flds := [⟨w.dst.toNat, d, false, 3⟩, ⟨w.base.toNat, ba, w.holdb, 0⟩, ⟨w.index.toNat, ix, w.holdx, 1⟩],
    clean := rest, typeOk := tOk, kins := [w.kin], kout := 0x7F, rel := w.rel, level := .U, lat := lat, ew := ew }

/-- The hints 0xF0 to 0xFE of slot L: nothing of them is checked (R178). -/
def hintForm : Form :=
  { slot := .L, pred := 0x7F, sense := false, flds := [], clean := true, typeOk := true, kins := [], kout := 0x7F,
    rel := false, level := .U, lat := 0, ew := true }

/-- Slot W (Tables 9.11, 11.6, 13.1). -/
def wForm (w : WW) (da ba ix : Role) (tOk rest : Bool) (ew : Bool) : Form :=
  { slot := .W, pred := w.pred, sense := w.sense,
    flds := [⟨w.base.toNat, ba, w.holdb, 0⟩, ⟨w.index.toNat, ix, w.holdx, 1⟩, ⟨w.data.toNat, da, w.holdd, 2⟩],
    clean := rest, typeOk := tOk, kins := [w.kin], kout := 0x7F, rel := w.rel, level := .U, lat := 0, ew := ew }

/-- MARK (R249): SCOPE in BASE [26:24], KOUT in DATA [22:16]; OFF8, TYPE, INDEX and the hold bits zero. -/
def markForm (w : WW) : Form :=
  { slot := .W, pred := w.pred, sense := w.sense,
    flds := [⟨0, .unused, w.holdb, 0⟩, ⟨w.index.toNat, .unused, w.holdx, 1⟩, ⟨0, .unused, w.holdd, 2⟩],
    clean := w.off8 == 0 && w.type == 0 && decide (w.base.toNat < 8) && decide (w.data.toNat < 128),
    typeOk := decide (w.base.toNat ≤ 5),
    kins := [w.kin], kout := w.data.setWidth 7, rel := w.rel, level := .U, lat := 0, ew := false }

/-- Slot M (Tables 9.9, 12.1). -/
def mForm (w : MW) (tg s1 s2 : Role) (call : Bool) (lat : Nat) : Form :=
  { slot := .M, pred := w.pred, sense := w.sense,
    flds := [⟨w.tgt.toNat, tg, false, 3⟩, ⟨w.src1.toNat, s1, w.hold1, 0⟩, ⟨w.src2.toNat, s2, w.hold2, 1⟩],
    clean := call || (w.rout == 0 && w.mode == 0 && w.cap == 0),
    typeOk := !call || (!(w.mode == 3) && decide (w.cap.toNat ≤ 4)),
    kins := [], kout := 0x7F, rel := w.rel, level := .U, lat := lat, ew := false }

/-- Slot E (Tables 9.12, 13.2): `ext` says which EXTF the form takes, none when it takes either. -/
def eForm (w : EW) (oa ob : Role) (ext : Option Bool) (rest : Bool) : Form :=
  { slot := .E, pred := w.pred, sense := w.sense,
    flds := [⟨w.opa.toNat, oa, w.holda, 0⟩, ⟨w.opb.toNat, ob, w.holdb, 1⟩] ++
      (if w.extf then [⟨w.kin2.toNat % 64, .src .s false true, w.kin2.toNat.testBit 6, 2⟩] else []),
    clean := rest && (match ext with | none => true | some b => w.extf == b), typeOk := true,
    kins := [w.kin0, w.kin1] ++ (if w.extf then [] else [w.kin2]), kout := w.kout, rel := w.rel, level := .U,
    lat := 0, ew := false }

/-- Slot X (Tables 9.13, 13.7). -/
def xForm (w : XW) (d s1 s2 : Role) (tOk t2Ok : Bool) (lat : Nat) : Form :=
  { slot := .X, pred := w.pred, sense := w.sense,
    flds := [⟨w.dst.toNat, d, false, 3⟩, ⟨w.src1.toNat, s1, w.hold1, 0⟩, ⟨w.src2.toNat, s2, w.hold2, 1⟩],
    clean := true, typeOk := tOk && t2Ok, kins := [], kout := 0x7F, rel := w.rel, level := .U, lat := lat, ew := false }

/-- The form of each slot operation; a micro-op, an event or an outside act has none. -/
def formOf (i : Instr) : Option Form :=
  match i with
  | .br w => some (cForm w .unused .unused (true) 0 .U)
  | .bri w => some (cForm w (.src .s false false) .unused (w.imm24 == 0) 0 .U)
  | .call w => some (cForm w (.dst .s) .unused (true) 1 .U)
  | .calli w => some (cForm w (.dst .s) (.src .s false false) (w.imm24 == 0) 1 .U)
  | .ret w => some (cForm w (.src .s false false) .unused (w.imm24 == 0) 0 .U)
  | .loop w => some (cForm w (.src .s false false) .unused (true) 0 .U)
  | .exit w => some (cForm w .unused .unused (w.imm24 == 0) 0 .U)
  | .yield w => some (cForm w .unused .unused (true) 0 .U)
  | .wait w => some (cForm w .unused .unused (w.imm24 == 0) 0 .U)
  | .trap w => some (cForm w .unused .unused (decide (w.imm24.toNat ≤ 65535)) 0 .U)
  | .sysrd w => some (cForm w (.dst .s) .unused (decide (w.imm24.toNat ≤ 4095)) 6 .U)
  | .syswr w => some (cForm w .unused (.src .s false false) (decide (w.imm24.toNat ≤ 4095) && !(w.imm24 == 0x10) && !(w.imm24 == 0x1C) && !(w.imm24 == 0x1D)) 0 .S)
  | .govloadWrite w => some (cForm w .unused (.src .s false false) (w.imm24 == 0x10) 0 .S)
  | .tretpcWrite w => some (cForm w .unused (.src .s false false) (w.imm24 == 0x1C) 0 .S)
  | .tstatWrite w => some (cForm w .unused (.src .s false false) (w.imm24 == 0x1D) 0 .S)
  | .tret w => some (cForm w .unused .unused (w.imm24 == 0 && w.kin == 0x7F) 0 .S)
  | .ownset w => some (cForm w (.src .s false false) (.src .s false false) (w.imm24 == 0) 0 .S)
  | .ownlat w => some (cForm w (.src .s false false) (.src .s false false) (decide (w.imm24.toNat ≤ 63)) 0 .S)
  | .ownbkt w => some (cForm w (.src .s false false) (.src .s false false) (w.imm24 == 0) 0 .S)
  | .ownrd w => some (cForm w (.dst .s) (.src .s false false) (decide (w.imm24.toNat ≤ 17)) 6 .S)
  | .wayset w => some (cForm w (.src .s false false) (.src .s false false) (w.imm24 == 0) 0 .S)
  | .occrd w => some (cForm w (.dst .s) (.src .s false false) (w.imm24 == 0) 6 .S)
  | .rngset w => some (cForm w (.src .s false false) (.src .s false false) (true) 0 .S)
  | .whlset w => some (cForm w (.src .s false false) (.src .s false false) (w.imm24 == 0) 0 .S)
  | .tlbinv w => some (cForm w (.src .s false false) (.src .s false false) (decide (w.imm24.toNat ≤ 2)) 0 .S)
  | .mswr w => some (cForm w (.src .s false false) (.src .s false false) (decide (w.imm24.toNat ≤ 1)) 0 .S)
  | .rtset w => some (cForm w (.src .s false false) (.src .s false false) (decide (w.imm24.toNat ≤ 1)) 0 .S)
  | .partset w => some (cForm w (.src .s false false) (.src .s false false) (w.imm24 == 0) 0 .H)
  | .partcol w => some (cForm w (.src .s false false) (.src .s false false) (w.imm24 == 0) 0 .H)
  | .partslc w => some (cForm w (.src .s false false) (.src .s false false) (w.imm24 == 0) 0 .H)
  | .partchn w => some (cForm w (.src .s false false) (.src .s false false) (w.imm24 == 0) 0 .H)
  | .partlnk w => some (cForm w (.src .s false false) (.src .s false false) (w.imm24 == 0) 0 .H)
  | .ownasgn w => some (cForm w (.src .s false false) (.src .s false false) (w.imm24 == 0) 0 .H)
  | .tenset w => some (cForm w (.src .s false false) (.src .s false false) (w.imm24 == 0) 0 .H)
  | .genadv w => some (cForm w (.src .s false false) .unused (w.imm24 == 0) 0 .H)
  | .errinj w => some (cForm w (.src .s false false) .unused (decide (w.imm24.toNat ≤ 1)) 0 .H)
  | .selftst w => some (cForm w (.src .s false false) .unused (w.imm24 == 0) 0 .H)
  | .ctxstop w => some (cForm w (.src .s false false) .unused (decide (w.imm24.toNat ≤ 1)) 0 .H)
  | .frmset w => some (cForm w (.src .s false false) (.src .s false false) (true) 0 .H)
  | .mov w => some (scalarForm w false 1)
  | .add w => some (scalarForm w true 1)
  | .sub w => some (scalarForm w true 1)
  | .mul w => some (scalarForm w true 3)
  | .mulh w => some (scalarForm w true 3)
  | .div w => some (scalarForm w true 20)
  | .rem w => some (scalarForm w true 20)
  | .and w => some (scalarForm w true 1)
  | .or w => some (scalarForm w true 1)
  | .xor w => some (scalarForm w true 1)
  | .shl w => some (scalarForm w true 1)
  | .shr w => some (scalarForm w true 1)
  | .min w => some (scalarForm w true 1)
  | .max w => some (scalarForm w true 1)
  | .adds w => some (scalarForm w true 1)
  | .subs w => some (scalarForm w true 1)
  | .cmp w => some (cmpForm w)
  | .sel w => some (selForm w)
  | .clz w => some (scalarForm w false 1)
  | .popc w => some (scalarForm w false 1)
  | .ext w => some (scalarForm w true 1)
  | .adr w => some (bForm w (.dst .s) .unused .unused (w.imm15 == 0) 1)
  | .agbase w => some (bForm w (.dst .ag) (.src .s true true) .unused (w.imm15 == 0) 2)
  | .agdim w => some (bForm w (.dst .ag) (.src .s true true) (.src .s true true) (decide (w.imm15.toNat < 4)) 2)
  | .agidx w => some (bForm w (.dst .ag) (.src .s true true) .unused (decide (w.imm15.toNat < 4)) 2)
  | .agind w => some (bForm w (.dst .ag) .handle .unused (decide (w.imm15.toNat < 16)) 2)
  | .agmode w => some (bForm w (.dst .ag) .unused .unused (decide (w.imm15.toNat < 2)) 2)
  | .agrd w => some (bForm w (.dst .s) (.src .ag false true) .unused (decide (w.imm15.toNat < 8)) 2)
  | .agclr w => some (bForm w (.dst .ag) .unused .unused (w.imm15 == 0) 2)
  | .mpset w => some (bForm w (.dst .m) (.src .s true true) .unused (w.imm15 == 0) 2)
  | .mprd w => some (bForm w (.dst .s) (.src .m false true) .unused (w.imm15 == 0) 2)
  | .vmov w => some (vForm w (.dst .v) (vImm w) .unused .unused (tyIs w.type (Ty.isA)) (w.type2 == 0) 2 true)
  | .vbcast w => some (vForm w (.dst .v) (.src .s true true) .unused .unused (tyIs w.type (Ty.isA)) (w.type2 == 0) 2 true)
  | .vadd w => some (vForm w (.dst .v) (.src .v false true) (vImm w) .unused (tyIs w.type (fun t => t.isF || t.isI)) (w.type2 == 0) 4 true)
  | .vsub w => some (vForm w (.dst .v) (.src .v false true) (vImm w) .unused (tyIs w.type (fun t => t.isF || t.isI)) (w.type2 == 0) 4 true)
  | .vmul w => some (vForm w (.dst .v) (.src .v false true) (vImm w) .unused (tyIs w.type (fun t => t.isF || t.isI)) (w.type2 == 0) 4 true)
  | .vfma w => some (vForm w (.dst .v) (.src .v false true) (vImm w) (.src .v false true) (tyIs w.type (fun t => t.isF || t.isI)) (w.type2 == 0) 4 true)
  | .vfms w => some (vForm w (.dst .v) (.src .v false true) (vImm w) (.src .v false true) (tyIs w.type (fun t => t.isF || t.isI)) (w.type2 == 0) 4 true)
  | .vdiv w => some (vForm w (.dst .v) (.src .v false true) (vImm w) .unused (tyIs w.type (Ty.isF)) (w.type2 == 0) 14 true)
  | .vmin w => some (vForm w (.dst .v) (.src .v false true) (vImm w) .unused (tyIs w.type (fun t => t.isF || t.isI)) (w.type2 == 0) 4 true)
  | .vmax w => some (vForm w (.dst .v) (.src .v false true) (vImm w) .unused (tyIs w.type (fun t => t.isF || t.isI)) (w.type2 == 0) 4 true)
  | .vabs w => some (vForm w (.dst .v) (.src .v false true) .unused .unused (tyIs w.type (fun t => t.isF || t.isI)) (w.type2 == 0) 2 true)
  | .vneg w => some (vForm w (.dst .v) (.src .v false true) .unused .unused (tyIs w.type (fun t => t.isF || t.isI)) (w.type2 == 0) 2 true)
  | .vsqrt w => some (vForm w (.dst .v) (.src .v false true) .unused .unused (tyIs w.type (Ty.isF)) (w.type2 == 0) 14 true)
  | .vrcp w => some (vForm w (.dst .v) (.src .v false true) .unused .unused (tyIs w.type (Ty.isF)) (w.type2 == 0) 14 true)
  | .vrsqrt w => some (vForm w (.dst .v) (.src .v false true) .unused .unused (tyIs w.type (Ty.isF)) (w.type2 == 0) 14 true)
  | .vexp2 w => some (vForm w (.dst .v) (.src .v false true) .unused .unused (tyIs w.type (Ty.isF)) (w.type2 == 0) 12 true)
  | .vlog2 w => some (vForm w (.dst .v) (.src .v false true) .unused .unused (tyIs w.type (Ty.isF)) (w.type2 == 0) 12 true)
  | .vszadd w => some (vForm w (.dst .v) (.src .v false true) (.src .v false true) .unused (tyIs w.type (Ty.isF)) (w.type2 == 6 || (w.type2 == 7 && w.type == 9)) 12 true)
  | .vcmp w => some (vForm w (.dst .p) (.src .v false true) (vImm w) .cond (tyIs w.type (fun t => t.isF || t.isI)) (w.type2 == 0) 2 true)
  | .vsel w => some (vForm w (.dst .v) (.src .v false true) (vImm w) (.src .p false true) (tyIs w.type (Ty.isA)) (w.type2 == 0) 2 true)
  | .vand w => some (vForm w (.dst .v) (.src .v false true) (vImm w) .unused (tyIs w.type (Ty.isI)) (w.type2 == 0) 2 true)
  | .vor w => some (vForm w (.dst .v) (.src .v false true) (vImm w) .unused (tyIs w.type (Ty.isI)) (w.type2 == 0) 2 true)
  | .vxor w => some (vForm w (.dst .v) (.src .v false true) (vImm w) .unused (tyIs w.type (Ty.isI)) (w.type2 == 0) 2 true)
  | .vnot w => some (vForm w (.dst .v) (.src .v false true) .unused .unused (tyIs w.type (Ty.isI)) (w.type2 == 0) 2 true)
  | .vshl w => some (vForm w (.dst .v) (.src .v false true) (vImm w) .unused (tyIs w.type (Ty.isI)) (w.type2 == 0) 2 true)
  | .vshr w => some (vForm w (.dst .v) (.src .v false true) (vImm w) .unused (tyIs w.type (Ty.isI)) (w.type2 == 0) 2 true)
  | .vadds w => some (vForm w (.dst .v) (.src .v false true) (vImm w) .unused (tyIs w.type (Ty.isI)) (w.type2 == 0) 2 true)
  | .vsubs w => some (vForm w (.dst .v) (.src .v false true) (vImm w) .unused (tyIs w.type (Ty.isI)) (w.type2 == 0) 2 true)
  | .vmulh w => some (vForm w (.dst .v) (.src .v false true) (vImm w) .unused (tyIs w.type (Ty.isI)) (w.type2 == 0) 4 true)
  | .vcvt w => some (vForm w (.dst .v) (.src .v false true) .unused (.num (partMax w.type w.type2)) (cvtOk w.type w.type2) (true) 4 true)
  | .vrsum w => some (vForm w (.dst .v) (.src .v false true) .unused .unused (redOk w.type w.type2) (true) 10 true)
  | .vrmax w => some (vForm w (.dst .v) (.src .v false true) .unused .unused (redOk w.type w.type2) (true) 10 true)
  | .vrmin w => some (vForm w (.dst .v) (.src .v false true) .unused .unused (redOk w.type w.type2) (true) 10 true)
  | .vperm w => some (vForm w (.dst .v) (.src .v false true) (.src .v false true) .unused (tyIs w.type (fun t => t.isA && t.width != 8)) (w.type2 == 0) 4 true)
  | .vrot w => some (vForm w (.dst .v) (.src .v false true) (.src .s true true) .unused (tyIs w.type (Ty.isA)) (w.type2 == 0) 4 true)
  | .vextr w => some (vForm w (.dst .s) (.src .v false true) (.src .s true true) .unused (tyIs w.type (Ty.isA)) (w.type2 == 0) 4 false)
  | .vins w => some (vForm w (.dst .v) (.src .s true true) (.src .s true true) .unused (tyIs w.type (Ty.isA)) (w.type2 == 0) 4 true)
  | .viota w => some (vForm w (.dst .v) (.src .s true true) .unused .unused (tyIs w.type (Ty.isI)) (w.type2 == 0) 2 true)
  | .pand w => some (vForm w (.dst .p) (.src .p false true) (.src .p false true) .unused (w.type == 0) (w.type2 == 0) 2 true)
  | .por w => some (vForm w (.dst .p) (.src .p false true) (.src .p false true) .unused (w.type == 0) (w.type2 == 0) 2 true)
  | .pxor w => some (vForm w (.dst .p) (.src .p false true) (.src .p false true) .unused (w.type == 0) (w.type2 == 0) 2 true)
  | .pnot w => some (vForm w (.dst .p) (.src .p false true) .unused .unused (w.type == 0) (w.type2 == 0) 2 true)
  | .pmov w => some (vForm w (.dst .p) (.src .p false true) .unused .unused (w.type == 0) (w.type2 == 0) 2 true)
  | .pcnt w => some (vForm w (.dst .s) (.src .p false true) .unused .unused (w.type == 0) (w.type2 == 0) 2 true)
  | .pfirst w => some (vForm w (.dst .s) (.src .p false true) .unused .unused (w.type == 0) (w.type2 == 0) 2 true)
  | .ld w => some (lForm w (.dst .s) (.src .s false true) (.src .s true true) (tyIs w.type (Ty.isI)) (true && true) 40 false)
  | .ldsc w => some (lForm w (.dst .s) (.src .s false true) (.num 3) (tyIs w.type (Ty.isI)) (true && true) 40 false)
  | .vld w => some (lForm w (.dst .v) (.src .s false true) (.src .s true true) (tyIs w.type (Ty.isA)) (true && true) 44 true)
  | .vldg w => some (lForm w (.dst .v) (.src .ag false true) .unused (tyIs w.type (Ty.isA)) (w.off8 == 0 && true) 44 true)
  | .tld w => some (lForm w (.dst .v) .handle (.src .s true true) (tyIs w.type (fun t => t.isA || t.isP)) (true && true) 10 true)
  | .tldg w => some (lForm w (.dst .v) (.src .ag false true) .unused (tyIs w.type (Ty.isA)) (w.off8 == 0 && true) 10 true)
  | .pld w => some (lForm w (.dst .p) (.src .s false true) (.src .s true true) (w.type == 0) (true && true) 40 false)
  | .pfh w => some (lForm w .unused (.src .s false true) (.src .s true true) (w.type == 0) (true && w.kin == 0x7F) 0 false)
  | .pfhx w => some (lForm w .unused (.src .s false true) (.src .s false true) (w.type == 0) (w.off8 == 0 && w.kin == 0x7F) 0 false)
  | .lSlotHint _ _ => some hintForm
  | .st w => some (wForm w (.src .s true true) (.src .s false true) (.src .s true true) (tyIs w.type (Ty.isI)) (true) false)
  | .stsc w => some (wForm w (.src .s false true) (.src .s false true) (.num 3) (tyIs w.type (Ty.isI)) (true) false)
  | .vst w => some (wForm w (.src .v false true) (.src .s false true) (.src .s true true) (tyIs w.type (Ty.isA)) (true) true)
  | .vsts w => some (wForm w (.src .v false true) (.src .ag false true) .unused (tyIs w.type (Ty.isA)) (w.off8 == 0) true)
  | .tst w => some (wForm w (.src .v false true) .handle (.src .s true true) (tyIs w.type (fun t => t.isA || t == .plane 8 true || t == .plane 8 false)) (true) true)
  | .tsts w => some (wForm w (.src .v false true) (.src .ag false true) .unused (tyIs w.type (Ty.isA)) (w.off8 == 0) true)
  | .pst w => some (wForm w (.src .p false true) (.src .s false true) (.src .s true true) (w.type == 0) (true) false)
  | .mark w => some (markForm w)
  | .stnt w => some (wForm w (.src .s true true) (.src .s false true) (.src .s true true) (tyIs w.type (Ty.isI)) (true) false)
  | .mcall w => some (mForm w .acc (.src .m false true) (.src .m false true) true 0)
  | .accget w => some (mForm w .acc .unused .unused false 1)
  | .accput w => some (mForm w .acc .unused .unused false 1)
  | .accclr w => some (mForm w .acc .unused .unused false 4)
  | .accmov w => some (mForm w .acc .acc .unused false 16)
  | .accst w => some (mForm w .acc (.src .m false true) .unused false 16)
  | .latget w => some (mForm w .lat .unused .unused false 1)
  | .latput w => some (mForm w .lat .unused .unused false 1)
  | .latld w => some (mForm w .lat (.src .m false true) (.src .s false true) false 64)
  | .accrd w => some (mForm w (.dst .v) .acc (.src .s false true) false 8)
  | .copyMemToTile w => some (eForm w .handle (.src .s false true) none (true))
  | .copyTileToMem w => some (eForm w (.src .s false true) .handle none (true))
  | .copyTileToTile w => some (eForm w .handle .handle (some false) (true))
  | .copyMemToMem w => some (eForm w (.src .s false true) (.src .s false true) (some true) (true))
  | .mcast w => some (eForm w .handle .handle (some true) (true))
  | .copyh w => some (eForm w (.src .s false true) .handle (some true) (true))
  | .talloc w => some (eForm w .handle (.src .s false true) (some false) (true))
  | .tfree w => some (eForm w .handle .unused (some false) (true))
  | .launch w => some (eForm w (.src .s false true) .unused (some false) (true))
  | .racq w => some (eForm w (.src .s false true) (.src .s false true) (some false) (true))
  | .rrel w => some (eForm w (.src .s false true) (.src .s false true) (some false) (true))
  | .barCore w => some (eForm w (.num 255) (.num 255) none ((w.extf && w.opb == 0) || (!w.extf && !(w.opb == 0))))
  | .barQuad w => some (eForm w (.num 255) (.num 255) none ((w.extf && w.opb == 0) || (!w.extf && !(w.opb == 0))))
  | .barStack w => some (eForm w (.num 255) (.num 255) none ((w.extf && w.opb == 0) || (!w.extf && !(w.opb == 0))))
  | .barPkg w => some (eForm w (.num 255) (.num 255) none ((w.extf && w.opb == 0) || (!w.extf && !(w.opb == 0))))
  | .barPod w => some (eForm w (.num 255) (.num 255) none ((w.extf && w.opb == 0) || (!w.extf && !(w.opb == 0))))
  | .tmmatch w => some (eForm w (.num 15) .handle (some true) (true))
  | .tmmerge w => some (eForm w .handle .handle (some true) (true))
  | .tmunmrg w => some (eForm w .handle .handle (some true) (true))
  | .tmcomp w => some (eForm w (.src .s false true) .unused (some false) (true))
  | .tmfree w => some (eForm w (.num 15) .unused (some false) (true))
  | .tmsize w => some (eForm w .handle (.num 31) (some false) (true))
  | .smopen w => some (eForm w (.src .s false true) .unused (some false) (true))
  | .smpush w => some (eForm w (.num 15) .push (some true) (true))
  | .smfeed w => some (eForm w (.num 15) (.src .s false true) (some true) (true))
  | .smlimit w => some (eForm w (.src .s false true) .unused (some false) (true))
  | .smend w => some (eForm w (.num 15) .unused (some false) (true))
  | .smdrain w => some (eForm w .unused .unused (some false) (true))
  | .acwAdd _ w => some (eForm w (.src .s false true) (.src .s true true) (some false) (true))
  | .acwMin _ w => some (eForm w (.src .s false true) (.src .s true true) (some false) (true))
  | .acwMax _ w => some (eForm w (.src .s false true) (.src .s true true) (some false) (true))
  | .acwAnd _ w => some (eForm w (.src .s false true) (.src .s true true) (some false) (true))
  | .acwOr _ w => some (eForm w (.src .s false true) (.src .s true true) (some false) (true))
  | .acwXor _ w => some (eForm w (.src .s false true) (.src .s true true) (some false) (true))
  | .acwSwap _ w => some (eForm w (.src .s false true) (.src .s true true) (some false) (true))
  | .acwCas _ w => some (eForm w (.src .s false true) (.src .s true true) (some true) (true))
  | .acwfAdd _ w => some (eForm w (.src .s false true) (.src .s true true) (some false) (true))
  | .acwfMin _ w => some (eForm w (.src .s false true) (.src .s true true) (some false) (true))
  | .acwfMax _ w => some (eForm w (.src .s false true) (.src .s true true) (some false) (true))
  | .acwfAnd _ w => some (eForm w (.src .s false true) (.src .s true true) (some false) (true))
  | .acwfOr _ w => some (eForm w (.src .s false true) (.src .s true true) (some false) (true))
  | .acwfXor _ w => some (eForm w (.src .s false true) (.src .s true true) (some false) (true))
  | .acwfSwap _ w => some (eForm w (.src .s false true) (.src .s true true) (some false) (true))
  | .acwfCas _ w => some (eForm w (.src .s false true) (.src .s true true) (some true) (true))
  | .xexp w => some (xForm w (.dst .v) (.src .v false true) (.src .v false true) (tyIs w.type (Ty.isA)) (w.type2 == 0) 6)
  | .xtrn w => some (xForm w (.dst .v) (.src .v false true) .unused (tyIs w.type (fun t => t.isA && t.width != 64)) (w.type2 == 0) 8)
  | .xcvt w => some (xForm w (.dst .v) (.src .v false true) (.num (partMax w.type w.type2)) (cvtOk w.type w.type2) (true) 4)
  | .xqnt w => some (xForm w (.dst .v) (.src .v false true) (.src .v false true) (w.type == 0x17 || w.type == 0x1F || w.type == 1 || w.type == 5) (tyIs w.type2 Ty.isF) 6)
  | .shseal w => some (xForm w (.dst .s) (.src .s false true) .unused (w.type == 0) (w.type2 == 0) 24)
  | .shfree w => some (xForm w .unused (.src .s false true) .unused (w.type == 0) (w.type2 == 0) 0)
  | .xratio w => some (xForm w .unused (.src .s true true) .unused (w.type == 0) (w.type2 == 0) 1)
  | .xred w => some (xForm w (.dst .v) (.src .v false true) .unused (w.type == 9) (tyIs w.type2 Ty.isF) 8)
  | .yieldExpiry _ | .storeWriteApply _ | .matrixCallComplete _ | .ktile _ | .fetcha _ | .fetchb _ | .lata _
    | .latb _ | .groups _ | .stepa _ | .stepb _ | .scalea _ | .scaleb _ | .accsel _ | .filla _ | .fillb _
    | .cntset _ | .cntdec _ | .jnz _ | .jmp _ | .parmrd _ | .done _ | .nopm _ | .handlerArrival _
    | .allocationServed _ | .switchWriteback _ | .mapStoreWaitServed _ | .smopenSetAsideServed _
    | .letterboxWrite _ _ _ | .schedulerPass _ | .letterReserving _ _ | .startSignal _ | .contextRetire _
    | .quireRetire _ | .ageCountExpiry _ | .resultLanding _ | .lateLoadFreeze _ | .lateLoadArrival _
    | .sliceEnd _ | .safePointStop _ | .contextSave _ | .stopTimeout _ | .urgentStop _ | .frameExhaustion _
    | .parcelTimeout _ | .deliveryCheck _ _ | .governorTick | .columnStepUp _ | .budgetArbiter | .breachBegin _
    | .breachEnd _ | .breachTimeout _ | .faultFreeze _ | .trapDelivery _ | .contextTerminate _
    | .errorStrike _ _ _ | .selfTestVerdict _ | .switchFailure _ | .tdiError _ | .tdispLock _ | .tdispRun _
    | .tdispUnlock _ | .ideLoss | .spdmRequest _ | .firmwareStage _ _ _ _ _ | .bar0Write _ _ _ | .pbudgetWrite _
    | .partitionRecordWrite _ _ _ | .hdmDecoderCommit _ _ _ | .hostMemRead _ _ | .hostMemWrite _ _
    | .hostSnoop _ _ | .linkTraining _ _ | .coldReset | .warmReset | .bootComplete _ | .engineCommandComplete _
    | .markerComplete _ | .slotWheelPosition _ | .kTileWindowOpen _ | .tlbinvComplete _ | .generationZeroingEnd _
    | .sliceReleaseWritebackEnd _ | .backInvalidationResponse _ _ | .atsTranslationResponse _ _
    | .fareriFlitArrival _ | .fareriLinkLoss _ => none

/-- Check 4 of R179 on one field: unused fields are zero, plain numbers in range (log 81). -/
def Field.zeroOk (f : Field) : Bool :=
  match f.role with
  | .unused => f.val == 0
  | .num m => decide (f.val ≤ m)
  | _ => true

/-- Check 7 of R179 on one field (Table 9.3). -/
def Field.regOk (f : Field) : Bool :=
  match f.role with
  | .src c imm held => decide (f.val < c.count) || (imm && f.val == 0xFE) || (held && f.val == 0xFF)
  | .dst c => decide (f.val < c.count)
  | .acc => decide (f.val < 16)
  | .lat => decide (f.val < 4)
  | .push => decide (f.val ≤ 157)
  | _ => true

/-- Check 8 of R179 on a condition field (Table 9.5). -/
def Field.condOk (f : Field) : Bool :=
  match f.role with
  | .cond => decide (f.val ≤ 5)
  | _ => true

/-- Check 9 of R179 on one field (R174, R227): a hold bit stands only on a field that names a register source. -/
def Field.holdOk (f : Field) : Bool :=
  !f.hold || (match f.role with
    | .src c _ true => decide (f.val < c.count)
    | _ => false)

/-- A token field of a word: 0 to 63, or 0x7F for none (R170). -/
def tokOk (k : BitVec 7) : Bool := decide (k.toNat < 64) || k == 0x7F

/-- A predicate field: p0 to p95, or 0x7F with SENSE 0 (Table 9.2). -/
def predOk (p : BitVec 7) (sense : Bool) : Bool := decide (p.toNat < 96) || (p == 0x7F && !sense)

/-- Is the form one of the hints that are not checked (R178)? -/
def isHint (i : Instr) : Bool :=
  match i with
  | .lSlotHint op _ => decide (op.toNat < 15)
  | _ => false

/-- The first of the checks 3 to 9 of R179 that a form fails (log 81). -/
def formIll (f : Form) : Option Nat :=
  if !f.opOk then some 3
  else if !(f.clean && f.flds.all Field.zeroOk) then some 4
  else if !predOk f.pred f.sense then some 5
  else if !(f.kins.all tokOk && tokOk f.kout) then some 6
  else if !f.flds.all Field.regOk then some 7
  else if !(f.typeOk && f.flds.all Field.condOk) then some 8
  else if !f.flds.all Field.holdOk then some 9
  else none

/-- The ILL check an instruction fails, for the checks 3 to 9 of R179. -/
def illCheck (i : Instr) : Option Nat :=
  match i with
  | .lSlotHint op _ => if op.toNat < 15 then none else some 3
  | i =>
    match formOf i with
    | some f => formIll f
    | none => none

end Sys2Proof.Machine
end

