-- ==== Sys2Proof/WellFormed.lean ====
section
/-! DEFINITION. Well-formed instructions: those whose fields pass the checks 3 to 9 of R179. Events and outside acts
have no fields to check. -/

namespace Sys2Proof

/-- The fields of the instruction pass the checks 3 to 9 of R179. -/
def Instr.wellFormed (i : Instr) : Bool := (Machine.illCheck i).isNone

/-- An instruction is well formed when no check of R179 refuses it. -/
abbrev Instr.WellFormed (i : Instr) : Prop := i.wellFormed = true

end Sys2Proof
end

