-- ==== Sys2Proof/Decode.lean ====
section
/-! DEFINITION. Decoding (R162, R169, R175, R177, R179, R180 to R182, Tables 9.1 to 9.26), total on any bytes, and
after it the encoder, written from the same tables. A slot word that is no operation is refused by the number of the
check of R179 it fails. -/

namespace Sys2Proof

open Sys2Proof.Machine

/-- What a slot word decodes to: an operation, or the check of R179 it fails. -/
inductive SlotDecoded where
  | ok (i : Instr)
  | ill (check : Nat)
  deriving DecidableEq, Repr

/-- A bundle (R162): its header, its long-immediate word and its operations, in mask order. -/
structure Bundle where
  header : BitVec 32
  imm    : BitVec 32
  ops    : List (Slot × Instr)
  deriving DecidableEq, Repr

/-- What bytes decode to as a bundle: a bundle and the bytes after it, a check of R179 that fails (with the slot, 15
for the header), or too few bytes. -/
inductive Decoded where
  | bundle (b : Bundle) (rest : List Byte)
  | ill (check slot : Nat)
  | short
  deriving DecidableEq, Repr

/-- Bits [l + n - 1 : l] of a word. -/
def fld (w : Word) (l n : Nat) : BitVec n := w.extractLsb' l n

/-- The fields of a slot C word (Table 9.6). -/
def unpackC (w : Word) : CW :=
  { pred := fld w 8 7, sense := w.getLsbD 15,
    imm24 := fld w 40 24, fb := fld w 32 8, fa := fld w 24 8, kin := fld w 16 7 }

/-- The fields of a slot A or B word (Table 9.7). -/
def unpackAB (slotB : Bool) (w : Word) : ABW :=
  { slotB := slotB, pred := fld w 8 7, sense := w.getLsbD 15,
    imm15 := fld w 49 15, type := fld w 44 5, immf := w.getLsbD 43, rel := w.getLsbD 42, hold2 := w.getLsbD 41, hold1 := w.getLsbD 40, src2 := fld w 32 8, src1 := fld w 24 8, dst := fld w 16 8 }

/-- The fields of a slot V word (Table 9.8). -/
def unpackV (w : Word) : VW :=
  { pred := fld w 8 7, sense := w.getLsbD 15,
    type2 := fld w 57 5, type := fld w 52 5, rel := w.getLsbD 51, hold3 := w.getLsbD 50, hold2 := w.getLsbD 49, hold1 := w.getLsbD 48, src3 := fld w 40 8, src2 := fld w 32 8, src1 := fld w 24 8, dst := fld w 16 8 }

/-- The fields of a slot M word (Table 9.9). -/
def unpackM (w : Word) : MW :=
  { pred := fld w 8 7, sense := w.getLsbD 15,
    cap := fld w 51 3, mode := fld w 49 2, rout := fld w 43 6, rel := w.getLsbD 42, hold2 := w.getLsbD 41, hold1 := w.getLsbD 40, src2 := fld w 32 8, src1 := fld w 24 8, tgt := fld w 16 8 }

/-- The fields of a slot L word (Table 9.10). -/
def unpackL (w : Word) : LW :=
  { pred := fld w 8 7, sense := w.getLsbD 15,
    off8 := fld w 56 8, type := fld w 51 5, rel := w.getLsbD 50, holdx := w.getLsbD 49, holdb := w.getLsbD 48, kin := fld w 40 7, index := fld w 32 8, base := fld w 24 8, dst := fld w 16 8 }

/-- The fields of a slot W word (Table 9.11). -/
def unpackW (w : Word) : WW :=
  { pred := fld w 8 7, sense := w.getLsbD 15,
    off8 := fld w 56 8, type := fld w 51 5, rel := w.getLsbD 50, holdx := w.getLsbD 49, holdb := w.getLsbD 48, holdd := w.getLsbD 47, kin := fld w 40 7, index := fld w 32 8, base := fld w 24 8, data := fld w 16 8 }

/-- The fields of a slot E word (Table 9.12). -/
def unpackE (w : Word) : EW :=
  { pred := fld w 8 7, sense := w.getLsbD 15,
    extf := w.getLsbD 63, rel := w.getLsbD 62, holdb := w.getLsbD 61, holda := w.getLsbD 60, opb := fld w 52 8, opa := fld w 44 8, kin2 := fld w 37 7, kin1 := fld w 30 7, kin0 := fld w 23 7, kout := fld w 16 7 }

/-- The fields of a slot X word (Table 9.13). -/
def unpackX (w : Word) : XW :=
  { pred := fld w 8 7, sense := w.getLsbD 15,
    type2 := fld w 48 5, type := fld w 43 5, rel := w.getLsbD 42, hold2 := w.getLsbD 41, hold1 := w.getLsbD 40, src2 := fld w 32 8, src1 := fld w 24 8, dst := fld w 16 8 }

/-- The fields of a micro-op word (Table 9.15). -/
def unpackMop (w : Word) : MopW :=
  { ctr := fld w 8 2, parm := fld w 12 3, target := fld w 16 10, imm16 := fld w 32 16 }

/-- Are the reserved bits of a slot word zero (Tables 9.6 to 9.13)? -/
def reservedZero (sl : Slot) (w : Word) : Bool :=
  match sl with
  | .C => !w.getLsbD 23
  | .V => fld w 62 2 == 0
  | .M => fld w 54 10 == 0
  | .L => !w.getLsbD 47
  | .X => fld w 53 11 == 0
  | _ => true

/-- Slot C opcodes (Table 9.18). The writes of registers 0x10, 0x1C and 0x1D have rows of their own. -/
def opC (op : Nat) (w : CW) : Option Instr :=
  match op with
  | 0x01 => some (.br w)
  | 0x02 => some (.bri w)
  | 0x03 => some (.call w)
  | 0x04 => some (.calli w)
  | 0x05 => some (.ret w)
  | 0x06 => some (.loop w)
  | 0x07 => some (.exit w)
  | 0x08 => some (.yield w)
  | 0x09 => some (.wait w)
  | 0x0A => some (.trap w)
  | 0x10 => some (.sysrd w)
  | 0x11 => some (if w.imm24 == 0x10 then .govloadWrite w else if w.imm24 == 0x1C then .tretpcWrite w
      else if w.imm24 == 0x1D then .tstatWrite w else .syswr w)
  | 0x12 => some (.tret w)
  | 0x18 => some (.ownset w)
  | 0x19 => some (.ownlat w)
  | 0x1A => some (.ownbkt w)
  | 0x1B => some (.ownrd w)
  | 0x1C => some (.wayset w)
  | 0x1D => some (.occrd w)
  | 0x1E => some (.whlset w)
  | 0x1F => some (.tlbinv w)
  | 0x20 => some (.mswr w)
  | 0x21 => some (.rtset w)
  | 0x22 => some (.rngset w)
  | 0x28 => some (.partset w)
  | 0x29 => some (.partcol w)
  | 0x2A => some (.partslc w)
  | 0x2B => some (.partchn w)
  | 0x2C => some (.partlnk w)
  | 0x2D => some (.ownasgn w)
  | 0x2E => some (.tenset w)
  | 0x2F => some (.genadv w)
  | 0x30 => some (.errinj w)
  | 0x31 => some (.selftst w)
  | 0x32 => some (.ctxstop w)
  | 0x33 => some (.frmset w)
  | _ => none

/-- Slot A and B opcodes (Table 9.19). -/
def opAB (op : Nat) (w : ABW) : Option Instr :=
  match op with
  | 0x01 => some (.mov w)
  | 0x02 => some (.add w)
  | 0x03 => some (.sub w)
  | 0x04 => some (.mul w)
  | 0x05 => some (.mulh w)
  | 0x06 => some (.div w)
  | 0x07 => some (.rem w)
  | 0x08 => some (.and w)
  | 0x09 => some (.or w)
  | 0x0A => some (.xor w)
  | 0x0B => some (.shl w)
  | 0x0C => some (.shr w)
  | 0x0D => some (.min w)
  | 0x0E => some (.max w)
  | 0x0F => some (.adds w)
  | 0x10 => some (.subs w)
  | 0x11 => some (.cmp w)
  | 0x12 => some (.sel w)
  | 0x13 => some (.clz w)
  | 0x14 => some (.popc w)
  | 0x15 => some (.ext w)
  | 0x40 => if w.slotB then some (.adr w) else none
  | 0x41 => if w.slotB then some (.agbase w) else none
  | 0x42 => if w.slotB then some (.agdim w) else none
  | 0x43 => if w.slotB then some (.agidx w) else none
  | 0x44 => if w.slotB then some (.agind w) else none
  | 0x45 => if w.slotB then some (.agmode w) else none
  | 0x46 => if w.slotB then some (.agrd w) else none
  | 0x47 => if w.slotB then some (.agclr w) else none
  | 0x48 => if w.slotB then some (.mpset w) else none
  | 0x49 => if w.slotB then some (.mprd w) else none
  | _ => none

/-- Slot V opcodes (Table 9.20). -/
def opV (op : Nat) (w : VW) : Option Instr :=
  match op with
  | 0x01 => some (.vmov w)
  | 0x02 => some (.vbcast w)
  | 0x03 => some (.vadd w)
  | 0x04 => some (.vsub w)
  | 0x05 => some (.vmul w)
  | 0x06 => some (.vfma w)
  | 0x07 => some (.vfms w)
  | 0x08 => some (.vdiv w)
  | 0x09 => some (.vmin w)
  | 0x0A => some (.vmax w)
  | 0x0B => some (.vabs w)
  | 0x0C => some (.vneg w)
  | 0x0D => some (.vsqrt w)
  | 0x0E => some (.vrcp w)
  | 0x0F => some (.vrsqrt w)
  | 0x10 => some (.vexp2 w)
  | 0x11 => some (.vlog2 w)
  | 0x12 => some (.vszadd w)
  | 0x13 => some (.vcmp w)
  | 0x14 => some (.vsel w)
  | 0x15 => some (.vand w)
  | 0x16 => some (.vor w)
  | 0x17 => some (.vxor w)
  | 0x18 => some (.vnot w)
  | 0x19 => some (.vshl w)
  | 0x1A => some (.vshr w)
  | 0x1B => some (.vadds w)
  | 0x1C => some (.vsubs w)
  | 0x1D => some (.vmulh w)
  | 0x1E => some (.vcvt w)
  | 0x1F => some (.vrsum w)
  | 0x20 => some (.vrmax w)
  | 0x21 => some (.vrmin w)
  | 0x22 => some (.vperm w)
  | 0x23 => some (.vrot w)
  | 0x24 => some (.vextr w)
  | 0x25 => some (.vins w)
  | 0x26 => some (.viota w)
  | 0x27 => some (.pand w)
  | 0x28 => some (.por w)
  | 0x29 => some (.pxor w)
  | 0x2A => some (.pnot w)
  | 0x2B => some (.pmov w)
  | 0x2C => some (.pcnt w)
  | 0x2D => some (.pfirst w)
  | _ => none

/-- Slot M opcodes (Table 9.22). -/
def opM (op : Nat) (w : MW) : Option Instr :=
  match op with
  | 0x01 => some (.mcall w)
  | 0x02 => some (.accget w)
  | 0x03 => some (.accput w)
  | 0x04 => some (.accclr w)
  | 0x05 => some (.accmov w)
  | 0x06 => some (.accst w)
  | 0x07 => some (.latget w)
  | 0x08 => some (.latput w)
  | 0x09 => some (.latld w)
  | 0x0A => some (.accrd w)
  | _ => none

/-- Slot W opcodes (Table 9.21). -/
def opW (op : Nat) (w : WW) : Option Instr :=
  match op with
  | 0x01 => some (.st w)
  | 0x02 => some (.stsc w)
  | 0x03 => some (.vst w)
  | 0x04 => some (.vsts w)
  | 0x05 => some (.tst w)
  | 0x06 => some (.tsts w)
  | 0x07 => some (.pst w)
  | 0x08 => some (.mark w)
  | 0x09 => some (.stnt w)
  | _ => none

/-- Slot X opcodes (Table 9.25). -/
def opX (op : Nat) (w : XW) : Option Instr :=
  match op with
  | 0x01 => some (.xexp w)
  | 0x02 => some (.xtrn w)
  | 0x03 => some (.xcvt w)
  | 0x04 => some (.xqnt w)
  | 0x05 => some (.shseal w)
  | 0x06 => some (.shfree w)
  | 0x07 => some (.xratio w)
  | 0x08 => some (.xred w)
  | _ => none

/-- Slot L opcodes (Table 9.21); 0xF0 to 0xFE are the hints. -/
def opL (op : Nat) (w : LW) (raw : Word) : Option Instr :=
  match op with
  | 0x01 => some (.ld w)
  | 0x02 => some (.ldsc w)
  | 0x03 => some (.vld w)
  | 0x04 => some (.vldg w)
  | 0x05 => some (.tld w)
  | 0x06 => some (.tldg w)
  | 0x07 => some (.pld w)
  | 0x08 => some (.pfh w)
  | 0x09 => some (.pfhx w)
  | n => if 0xF0 ≤ n ∧ n ≤ 0xFE then some (.lSlotHint (fld raw 0 4) (fld raw 8 56)) else none

/-- Slot E opcodes (Tables 9.23, 9.24). -/
def opE (op : Nat) (w : EW) : Option Instr :=
  match op with
  | 0x01 => some (.copyMemToTile w)
  | 0x02 => some (.copyTileToMem w)
  | 0x03 => some (.copyTileToTile w)
  | 0x04 => some (.copyMemToMem w)
  | 0x05 => some (.mcast w)
  | 0x06 => some (.copyh w)
  | 0x08 => some (.talloc w)
  | 0x09 => some (.tfree w)
  | 0x0A => some (.launch w)
  | 0x0B => some (.racq w)
  | 0x0C => some (.rrel w)
  | 0x10 => some (.barCore w)
  | 0x11 => some (.barQuad w)
  | 0x12 => some (.barStack w)
  | 0x13 => some (.barPkg w)
  | 0x14 => some (.barPod w)
  | 0x18 => some (.tmmatch w)
  | 0x19 => some (.tmmerge w)
  | 0x1A => some (.tmunmrg w)
  | 0x1B => some (.tmcomp w)
  | 0x1C => some (.tmfree w)
  | 0x1D => some (.tmsize w)
  | 0x20 => some (.smopen w)
  | 0x21 => some (.smpush w)
  | 0x22 => some (.smfeed w)
  | 0x23 => some (.smlimit w)
  | 0x24 => some (.smend w)
  | 0x25 => some (.smdrain w)
  | 0x80 => some (.acwAdd .i32 w)
  | 0x81 => some (.acwAdd .n32 w)
  | 0x82 => some (.acwAdd .i64 w)
  | 0x83 => some (.acwAdd .n64 w)
  | 0x84 => some (.acwAdd .f32 w)
  | 0x85 => some (.acwAdd .f16 w)
  | 0x86 => some (.acwAdd .bf16 w)
  | 0x87 => some (.acwMin .i32 w)
  | 0x88 => some (.acwMin .n32 w)
  | 0x89 => some (.acwMin .i64 w)
  | 0x8A => some (.acwMin .n64 w)
  | 0x8B => some (.acwMin .f32 w)
  | 0x8C => some (.acwMin .f16 w)
  | 0x8D => some (.acwMin .bf16 w)
  | 0x8E => some (.acwMax .i32 w)
  | 0x8F => some (.acwMax .n32 w)
  | 0x90 => some (.acwMax .i64 w)
  | 0x91 => some (.acwMax .n64 w)
  | 0x92 => some (.acwMax .f32 w)
  | 0x93 => some (.acwMax .f16 w)
  | 0x94 => some (.acwMax .bf16 w)
  | 0x95 => some (.acwAnd .n32 w)
  | 0x96 => some (.acwAnd .n64 w)
  | 0x97 => some (.acwOr .n32 w)
  | 0x98 => some (.acwOr .n64 w)
  | 0x99 => some (.acwXor .n32 w)
  | 0x9A => some (.acwXor .n64 w)
  | 0x9B => some (.acwSwap .n32 w)
  | 0x9C => some (.acwSwap .n64 w)
  | 0x9D => some (.acwCas .n32 w)
  | 0x9E => some (.acwCas .n64 w)
  | 0xA0 => some (.acwfAdd .i32 w)
  | 0xA1 => some (.acwfAdd .n32 w)
  | 0xA2 => some (.acwfAdd .i64 w)
  | 0xA3 => some (.acwfAdd .n64 w)
  | 0xA4 => some (.acwfAdd .f32 w)
  | 0xA5 => some (.acwfAdd .f16 w)
  | 0xA6 => some (.acwfAdd .bf16 w)
  | 0xA7 => some (.acwfMin .i32 w)
  | 0xA8 => some (.acwfMin .n32 w)
  | 0xA9 => some (.acwfMin .i64 w)
  | 0xAA => some (.acwfMin .n64 w)
  | 0xAB => some (.acwfMin .f32 w)
  | 0xAC => some (.acwfMin .f16 w)
  | 0xAD => some (.acwfMin .bf16 w)
  | 0xAE => some (.acwfMax .i32 w)
  | 0xAF => some (.acwfMax .n32 w)
  | 0xB0 => some (.acwfMax .i64 w)
  | 0xB1 => some (.acwfMax .n64 w)
  | 0xB2 => some (.acwfMax .f32 w)
  | 0xB3 => some (.acwfMax .f16 w)
  | 0xB4 => some (.acwfMax .bf16 w)
  | 0xB5 => some (.acwfAnd .n32 w)
  | 0xB6 => some (.acwfAnd .n64 w)
  | 0xB7 => some (.acwfOr .n32 w)
  | 0xB8 => some (.acwfOr .n64 w)
  | 0xB9 => some (.acwfXor .n32 w)
  | 0xBA => some (.acwfXor .n64 w)
  | 0xBB => some (.acwfSwap .n32 w)
  | 0xBC => some (.acwfSwap .n64 w)
  | 0xBD => some (.acwfCas .n32 w)
  | 0xBE => some (.acwfCas .n64 w)
  | _ => none

/-- Micro-op codes (Table 9.26). -/
def opMop (op : Nat) (w : MopW) : Option Instr :=
  match op with
  | 0x01 => some (.ktile w)
  | 0x02 => some (.fetcha w)
  | 0x03 => some (.fetchb w)
  | 0x04 => some (.lata w)
  | 0x05 => some (.latb w)
  | 0x06 => some (.groups w)
  | 0x07 => some (.stepa w)
  | 0x08 => some (.stepb w)
  | 0x09 => some (.scalea w)
  | 0x0A => some (.scaleb w)
  | 0x0B => some (.accsel w)
  | 0x0C => some (.filla w)
  | 0x0D => some (.fillb w)
  | 0x0E => some (.cntset w)
  | 0x0F => some (.cntdec w)
  | 0x10 => some (.jnz w)
  | 0x11 => some (.jmp w)
  | 0x12 => some (.parmrd w)
  | 0x13 => some (.done w)
  | 0x14 => some (.nopm w)
  | _ => none

/-- The operation a slot word names by its opcode, before any other check. -/
def opOfSlot (sl : Slot) (w : Word) : Option Instr :=
  let op := (fld w 0 8).toNat
  match sl with
  | .C => opC op (unpackC w)
  | .A => opAB op (unpackAB false w)
  | .B => opAB op (unpackAB true w)
  | .V => opV op (unpackV w)
  | .M => opM op (unpackM w)
  | .L => opL op (unpackL w) w
  | .W => opW op (unpackW w)
  | .E => opE op (unpackE w)
  | .X => opX op (unpackX w)

/-- Decoding of a slot word: the operation, or the first check of R179 it fails, 3 to 9. -/
def decodeSlot (sl : Slot) (w : Word) : SlotDecoded :=
  match opOfSlot sl w with
  | none => .ill 3
  | some i =>
    if isHint i then .ok i
    else if !reservedZero sl w then .ill 4
    else
      match illCheck i with
      | some k => .ill k
      | none => .ok i

/-- Decoding of a micro-op word; none is the micro-op fault of R182. -/
def decodeMop (w : Word) : Option Instr :=
  if fld w 48 16 == 0 && fld w 26 6 == 0 && !w.getLsbD 15 && fld w 10 2 == 0 then opMop (fld w 0 8).toNat (unpackMop w)
  else none

/-- The slots in mask order (R162). -/
def Slot.all : List Slot := [.C, .A, .B, .V, .M, .L, .W, .E, .X]

/-- The bit of MASK of a slot, which is also its number in fault records (Table 9.1). -/
def Slot.num : Slot → Nat
  | .C => 0 | .A => 1 | .B => 2 | .V => 3 | .M => 4 | .L => 5 | .W => 6 | .E => 7 | .X => 8

/-- The slots a header's MASK names, in mask order. -/
def maskSlots (header : BitVec 32) : List Slot := Slot.all.filter fun sl => header.getLsbD sl.num

/-- The size of a bundle in bytes (R162). -/
def bundleSize (header : BitVec 32) : Nat := 8 + 8 * (maskSlots header).length

/-- Checks 1 and 2 of R179 on a header, but for the safe-point table, which stands in memory. -/
def headerIll (header : BitVec 32) : Option Nat :=
  if !(header.extractLsb' 21 11 == 0) then some 1
  else if !header.getLsbD 9 && !(header.extractLsb' 10 10 == 0) then some 2
  else none

/-- Decodes the slot words of a bundle, in mask order; the lowest slot that fails a check is the one reported. -/
def decodeSlots : List Slot → List Byte → Except (Nat × Nat) (List (Slot × Instr))
  | [], _ => .ok []
  | sl :: l, bs =>
    match decodeSlot sl (BitVec.ofNat 64 (ofBytes (bs.take 8))) with
    | .ill k => .error (k, sl.num)
    | .ok i =>
      match decodeSlots l (bs.drop 8) with
      | .error e => .error e
      | .ok r => .ok ((sl, i) :: r)

/-- Decodes the bundle at the head of a list of bytes (R162, R179). -/
def decodeBundle (bs : List Byte) : Decoded :=
  if bs.length < 8 then .short
  else
    let header := BitVec.ofNat 32 (ofBytes (bs.take 4))
    let imm := BitVec.ofNat 32 (ofBytes ((bs.drop 4).take 4))
    if bs.length < bundleSize header then .short
    else
      match headerIll header with
      | some k => .ill k 15
      | none =>
        match decodeSlots (maskSlots header) (bs.drop 8) with
        | .error (k, sl) => .ill k sl
        | .ok ops => .bundle ⟨header, imm, ops⟩ (bs.drop (bundleSize header))

/-! The encoder. -/

/-- Bits [15:0] of a slot word (Table 9.2). -/
def packLow (op : BitVec 8) (pred : BitVec 7) (sense : Bool) : BitVec 16 := BitVec.ofBool sense ++ pred ++ op

/-- A slot C word from its fields (Table 9.6). -/
def packC (op : BitVec 8) (w : CW) : Word :=
  w.imm24 ++ w.fb ++ w.fa ++ (0 : BitVec 1) ++ w.kin ++
    packLow op w.pred w.sense

/-- A slot A or B word from its fields (Table 9.7). -/
def packAB (op : BitVec 8) (w : ABW) : Word :=
  w.imm15 ++ w.type ++ BitVec.ofBool w.immf ++ BitVec.ofBool w.rel ++ BitVec.ofBool w.hold2 ++ BitVec.ofBool w.hold1 ++ w.src2 ++ w.src1 ++ w.dst ++
    packLow op w.pred w.sense

/-- A slot V word from its fields (Table 9.8). -/
def packVec (op : BitVec 8) (w : VW) : Word :=
  (0 : BitVec 2) ++ w.type2 ++ w.type ++ BitVec.ofBool w.rel ++ BitVec.ofBool w.hold3 ++ BitVec.ofBool w.hold2 ++ BitVec.ofBool w.hold1 ++ w.src3 ++ w.src2 ++ w.src1 ++ w.dst ++
    packLow op w.pred w.sense

/-- A slot M word from its fields (Table 9.9). -/
def packM (op : BitVec 8) (w : MW) : Word :=
  (0 : BitVec 10) ++ w.cap ++ w.mode ++ w.rout ++ BitVec.ofBool w.rel ++ BitVec.ofBool w.hold2 ++ BitVec.ofBool w.hold1 ++ w.src2 ++ w.src1 ++ w.tgt ++
    packLow op w.pred w.sense

/-- A slot L word from its fields (Table 9.10). -/
def packL (op : BitVec 8) (w : LW) : Word :=
  w.off8 ++ w.type ++ BitVec.ofBool w.rel ++ BitVec.ofBool w.holdx ++ BitVec.ofBool w.holdb ++ (0 : BitVec 1) ++ w.kin ++ w.index ++ w.base ++ w.dst ++
    packLow op w.pred w.sense

/-- A slot W word from its fields (Table 9.11). -/
def packW (op : BitVec 8) (w : WW) : Word :=
  w.off8 ++ w.type ++ BitVec.ofBool w.rel ++ BitVec.ofBool w.holdx ++ BitVec.ofBool w.holdb ++ BitVec.ofBool w.holdd ++ w.kin ++ w.index ++ w.base ++ w.data ++
    packLow op w.pred w.sense

/-- A slot E word from its fields (Table 9.12). -/
def packE (op : BitVec 8) (w : EW) : Word :=
  BitVec.ofBool w.extf ++ BitVec.ofBool w.rel ++ BitVec.ofBool w.holdb ++ BitVec.ofBool w.holda ++ w.opb ++ w.opa ++ w.kin2 ++ w.kin1 ++ w.kin0 ++ w.kout ++
    packLow op w.pred w.sense

/-- A slot X word from its fields (Table 9.13). -/
def packX (op : BitVec 8) (w : XW) : Word :=
  (0 : BitVec 11) ++ w.type2 ++ w.type ++ BitVec.ofBool w.rel ++ BitVec.ofBool w.hold2 ++ BitVec.ofBool w.hold1 ++ w.src2 ++ w.src1 ++ w.dst ++
    packLow op w.pred w.sense

/-- A micro-op word from its fields (Table 9.15). -/
def packMop (op : BitVec 8) (w : MopW) : Word :=
  (0 : BitVec 16) ++ w.imm16 ++ (0 : BitVec 6) ++ w.target ++ (0 : BitVec 1) ++ w.parm ++ (0 : BitVec 2) ++ w.ctr ++ op

/-- The index of a type among the seven of Table 9.24. -/
def AcwType.idx : AcwType → Nat
  | .i32 => 0 | .n32 => 1 | .i64 => 2 | .n64 => 3 | .f32 => 4 | .f16 => 5 | .bf16 => 6

/-- The index of a type among the two of Table 9.24. -/
def AcwWidth.idx : AcwWidth → Nat
  | .n32 => 0 | .n64 => 1

/-- The slot and the slot word of a slot operation. -/
def slotWord (i : Instr) : Option (Slot × Word) :=
  match i with
  | .br w => some (.C, packC 0x01 w)
  | .bri w => some (.C, packC 0x02 w)
  | .call w => some (.C, packC 0x03 w)
  | .calli w => some (.C, packC 0x04 w)
  | .ret w => some (.C, packC 0x05 w)
  | .loop w => some (.C, packC 0x06 w)
  | .exit w => some (.C, packC 0x07 w)
  | .yield w => some (.C, packC 0x08 w)
  | .wait w => some (.C, packC 0x09 w)
  | .trap w => some (.C, packC 0x0A w)
  | .sysrd w => some (.C, packC 0x10 w)
  | .syswr w => some (.C, packC 0x11 w)
  | .govloadWrite w => some (.C, packC 0x11 w)
  | .tretpcWrite w => some (.C, packC 0x11 w)
  | .tstatWrite w => some (.C, packC 0x11 w)
  | .tret w => some (.C, packC 0x12 w)
  | .ownset w => some (.C, packC 0x18 w)
  | .ownlat w => some (.C, packC 0x19 w)
  | .ownbkt w => some (.C, packC 0x1A w)
  | .ownrd w => some (.C, packC 0x1B w)
  | .wayset w => some (.C, packC 0x1C w)
  | .occrd w => some (.C, packC 0x1D w)
  | .rngset w => some (.C, packC 0x22 w)
  | .whlset w => some (.C, packC 0x1E w)
  | .tlbinv w => some (.C, packC 0x1F w)
  | .mswr w => some (.C, packC 0x20 w)
  | .rtset w => some (.C, packC 0x21 w)
  | .partset w => some (.C, packC 0x28 w)
  | .partcol w => some (.C, packC 0x29 w)
  | .partslc w => some (.C, packC 0x2A w)
  | .partchn w => some (.C, packC 0x2B w)
  | .partlnk w => some (.C, packC 0x2C w)
  | .ownasgn w => some (.C, packC 0x2D w)
  | .tenset w => some (.C, packC 0x2E w)
  | .genadv w => some (.C, packC 0x2F w)
  | .errinj w => some (.C, packC 0x30 w)
  | .selftst w => some (.C, packC 0x31 w)
  | .ctxstop w => some (.C, packC 0x32 w)
  | .frmset w => some (.C, packC 0x33 w)
  | .mov w => some (abSlot w, packAB 0x01 w)
  | .add w => some (abSlot w, packAB 0x02 w)
  | .sub w => some (abSlot w, packAB 0x03 w)
  | .mul w => some (abSlot w, packAB 0x04 w)
  | .mulh w => some (abSlot w, packAB 0x05 w)
  | .div w => some (abSlot w, packAB 0x06 w)
  | .rem w => some (abSlot w, packAB 0x07 w)
  | .and w => some (abSlot w, packAB 0x08 w)
  | .or w => some (abSlot w, packAB 0x09 w)
  | .xor w => some (abSlot w, packAB 0x0A w)
  | .shl w => some (abSlot w, packAB 0x0B w)
  | .shr w => some (abSlot w, packAB 0x0C w)
  | .min w => some (abSlot w, packAB 0x0D w)
  | .max w => some (abSlot w, packAB 0x0E w)
  | .adds w => some (abSlot w, packAB 0x0F w)
  | .subs w => some (abSlot w, packAB 0x10 w)
  | .cmp w => some (abSlot w, packAB 0x11 w)
  | .sel w => some (abSlot w, packAB 0x12 w)
  | .clz w => some (abSlot w, packAB 0x13 w)
  | .popc w => some (abSlot w, packAB 0x14 w)
  | .ext w => some (abSlot w, packAB 0x15 w)
  | .adr w => some (abSlot w, packAB 0x40 w)
  | .agbase w => some (abSlot w, packAB 0x41 w)
  | .agdim w => some (abSlot w, packAB 0x42 w)
  | .agidx w => some (abSlot w, packAB 0x43 w)
  | .agind w => some (abSlot w, packAB 0x44 w)
  | .agmode w => some (abSlot w, packAB 0x45 w)
  | .agrd w => some (abSlot w, packAB 0x46 w)
  | .agclr w => some (abSlot w, packAB 0x47 w)
  | .mpset w => some (abSlot w, packAB 0x48 w)
  | .mprd w => some (abSlot w, packAB 0x49 w)
  | .vmov w => some (.V, packVec 0x01 w)
  | .vbcast w => some (.V, packVec 0x02 w)
  | .vadd w => some (.V, packVec 0x03 w)
  | .vsub w => some (.V, packVec 0x04 w)
  | .vmul w => some (.V, packVec 0x05 w)
  | .vfma w => some (.V, packVec 0x06 w)
  | .vfms w => some (.V, packVec 0x07 w)
  | .vdiv w => some (.V, packVec 0x08 w)
  | .vmin w => some (.V, packVec 0x09 w)
  | .vmax w => some (.V, packVec 0x0A w)
  | .vabs w => some (.V, packVec 0x0B w)
  | .vneg w => some (.V, packVec 0x0C w)
  | .vsqrt w => some (.V, packVec 0x0D w)
  | .vrcp w => some (.V, packVec 0x0E w)
  | .vrsqrt w => some (.V, packVec 0x0F w)
  | .vexp2 w => some (.V, packVec 0x10 w)
  | .vlog2 w => some (.V, packVec 0x11 w)
  | .vszadd w => some (.V, packVec 0x12 w)
  | .vcmp w => some (.V, packVec 0x13 w)
  | .vsel w => some (.V, packVec 0x14 w)
  | .vand w => some (.V, packVec 0x15 w)
  | .vor w => some (.V, packVec 0x16 w)
  | .vxor w => some (.V, packVec 0x17 w)
  | .vnot w => some (.V, packVec 0x18 w)
  | .vshl w => some (.V, packVec 0x19 w)
  | .vshr w => some (.V, packVec 0x1A w)
  | .vadds w => some (.V, packVec 0x1B w)
  | .vsubs w => some (.V, packVec 0x1C w)
  | .vmulh w => some (.V, packVec 0x1D w)
  | .vcvt w => some (.V, packVec 0x1E w)
  | .vrsum w => some (.V, packVec 0x1F w)
  | .vrmax w => some (.V, packVec 0x20 w)
  | .vrmin w => some (.V, packVec 0x21 w)
  | .vperm w => some (.V, packVec 0x22 w)
  | .vrot w => some (.V, packVec 0x23 w)
  | .vextr w => some (.V, packVec 0x24 w)
  | .vins w => some (.V, packVec 0x25 w)
  | .viota w => some (.V, packVec 0x26 w)
  | .pand w => some (.V, packVec 0x27 w)
  | .por w => some (.V, packVec 0x28 w)
  | .pxor w => some (.V, packVec 0x29 w)
  | .pnot w => some (.V, packVec 0x2A w)
  | .pmov w => some (.V, packVec 0x2B w)
  | .pcnt w => some (.V, packVec 0x2C w)
  | .pfirst w => some (.V, packVec 0x2D w)
  | .ld w => some (.L, packL 0x01 w)
  | .ldsc w => some (.L, packL 0x02 w)
  | .vld w => some (.L, packL 0x03 w)
  | .vldg w => some (.L, packL 0x04 w)
  | .tld w => some (.L, packL 0x05 w)
  | .tldg w => some (.L, packL 0x06 w)
  | .pld w => some (.L, packL 0x07 w)
  | .pfh w => some (.L, packL 0x08 w)
  | .pfhx w => some (.L, packL 0x09 w)
  | .lSlotHint op rest => some (.L, rest ++ (0xF : BitVec 4) ++ op)
  | .st w => some (.W, packW 0x01 w)
  | .stsc w => some (.W, packW 0x02 w)
  | .vst w => some (.W, packW 0x03 w)
  | .vsts w => some (.W, packW 0x04 w)
  | .tst w => some (.W, packW 0x05 w)
  | .tsts w => some (.W, packW 0x06 w)
  | .pst w => some (.W, packW 0x07 w)
  | .mark w => some (.W, packW 0x08 w)
  | .stnt w => some (.W, packW 0x09 w)
  | .mcall w => some (.M, packM 0x01 w)
  | .accget w => some (.M, packM 0x02 w)
  | .accput w => some (.M, packM 0x03 w)
  | .accclr w => some (.M, packM 0x04 w)
  | .accmov w => some (.M, packM 0x05 w)
  | .accst w => some (.M, packM 0x06 w)
  | .latget w => some (.M, packM 0x07 w)
  | .latput w => some (.M, packM 0x08 w)
  | .latld w => some (.M, packM 0x09 w)
  | .accrd w => some (.M, packM 0x0A w)
  | .copyMemToTile w => some (.E, packE 0x01 w)
  | .copyTileToMem w => some (.E, packE 0x02 w)
  | .copyTileToTile w => some (.E, packE 0x03 w)
  | .copyMemToMem w => some (.E, packE 0x04 w)
  | .mcast w => some (.E, packE 0x05 w)
  | .copyh w => some (.E, packE 0x06 w)
  | .talloc w => some (.E, packE 0x08 w)
  | .tfree w => some (.E, packE 0x09 w)
  | .launch w => some (.E, packE 0x0A w)
  | .racq w => some (.E, packE 0x0B w)
  | .rrel w => some (.E, packE 0x0C w)
  | .barCore w => some (.E, packE 0x10 w)
  | .barQuad w => some (.E, packE 0x11 w)
  | .barStack w => some (.E, packE 0x12 w)
  | .barPkg w => some (.E, packE 0x13 w)
  | .barPod w => some (.E, packE 0x14 w)
  | .acwAdd t w => some (.E, packE (BitVec.ofNat 8 (0x80 + t.idx)) w)
  | .acwMin t w => some (.E, packE (BitVec.ofNat 8 (0x87 + t.idx)) w)
  | .acwMax t w => some (.E, packE (BitVec.ofNat 8 (0x8E + t.idx)) w)
  | .acwAnd t w => some (.E, packE (BitVec.ofNat 8 (0x95 + t.idx)) w)
  | .acwOr t w => some (.E, packE (BitVec.ofNat 8 (0x97 + t.idx)) w)
  | .acwXor t w => some (.E, packE (BitVec.ofNat 8 (0x99 + t.idx)) w)
  | .acwSwap t w => some (.E, packE (BitVec.ofNat 8 (0x9B + t.idx)) w)
  | .acwCas t w => some (.E, packE (BitVec.ofNat 8 (0x9D + t.idx)) w)
  | .acwfAdd t w => some (.E, packE (BitVec.ofNat 8 (0xA0 + t.idx)) w)
  | .acwfMin t w => some (.E, packE (BitVec.ofNat 8 (0xA7 + t.idx)) w)
  | .acwfMax t w => some (.E, packE (BitVec.ofNat 8 (0xAE + t.idx)) w)
  | .acwfAnd t w => some (.E, packE (BitVec.ofNat 8 (0xB5 + t.idx)) w)
  | .acwfOr t w => some (.E, packE (BitVec.ofNat 8 (0xB7 + t.idx)) w)
  | .acwfXor t w => some (.E, packE (BitVec.ofNat 8 (0xB9 + t.idx)) w)
  | .acwfSwap t w => some (.E, packE (BitVec.ofNat 8 (0xBB + t.idx)) w)
  | .acwfCas t w => some (.E, packE (BitVec.ofNat 8 (0xBD + t.idx)) w)
  | .xexp w => some (.X, packX 0x01 w)
  | .xtrn w => some (.X, packX 0x02 w)
  | .xcvt w => some (.X, packX 0x03 w)
  | .xqnt w => some (.X, packX 0x04 w)
  | .shseal w => some (.X, packX 0x05 w)
  | .shfree w => some (.X, packX 0x06 w)
  | .xratio w => some (.X, packX 0x07 w)
  | .xred w => some (.X, packX 0x08 w)
  | .tmmatch w => some (.E, packE 0x18 w)
  | .tmmerge w => some (.E, packE 0x19 w)
  | .tmunmrg w => some (.E, packE 0x1A w)
  | .tmcomp w => some (.E, packE 0x1B w)
  | .tmfree w => some (.E, packE 0x1C w)
  | .tmsize w => some (.E, packE 0x1D w)
  | .smopen w => some (.E, packE 0x20 w)
  | .smpush w => some (.E, packE 0x21 w)
  | .smfeed w => some (.E, packE 0x22 w)
  | .smlimit w => some (.E, packE 0x23 w)
  | .smend w => some (.E, packE 0x24 w)
  | .smdrain w => some (.E, packE 0x25 w)
  | .yieldExpiry _ | .storeWriteApply _ | .matrixCallComplete _ | .ktile _ | .fetcha _ | .fetchb _ | .lata _
    | .latb _ | .groups _ | .stepa _ | .stepb _ | .scalea _ | .scaleb _ | .accsel _ | .filla _ | .fillb _
    | .cntset _ | .cntdec _ | .jnz _ | .jmp _ | .parmrd _ | .done _ | .nopm _ | .handlerArrival _
    | .allocationServed _ | .switchWriteback _ | .mapStoreWaitServed _ | .smopenSetAsideServed _
    | .letterboxWrite _ _ _ | .schedulerPass _ | .letterReserving _ _ | .startSignal _ | .contextRetire _
    | .quireRetire _ | .ageCountExpiry _ | .resultLanding _ | .lateLoadFreeze _ | .lateLoadArrival _
    | .sliceEnd _ | .safePointStop _ | .contextSave _ | .stopTimeout _ | .urgentStop _ | .frameExhaustion _
    | .parcelTimeout _ | .deliveryCheck _ _ | .governorTick | .columnStepUp _ | .budgetArbiter | .breachBegin _
    | .breachEnd _ | .breachTimeout _ | .faultFreeze _ | .trapDelivery _ | .contextTerminate _
    | .errorStrike _ _ _ | .selfTestVerdict _ | .switchFailure _ | .tdiError _ | .tdispLock _ | .tdispRun _
    | .tdispUnlock _ | .ideLoss | .spdmRequest _ | .firmwareStage _ _ _ _ _ | .bar0Write _ _ _ | .pbudgetWrite _
    | .partitionRecordWrite _ _ _ | .hdmDecoderCommit _ _ _ | .hostMemRead _ _ | .hostMemWrite _ _
    | .hostSnoop _ _ | .linkTraining _ _ | .coldReset | .warmReset | .bootComplete _ | .engineCommandComplete _
    | .markerComplete _ | .slotWheelPosition _ | .kTileWindowOpen _ | .tlbinvComplete _
    | .generationZeroingEnd _ | .sliceReleaseWritebackEnd _ | .backInvalidationResponse _ _
    | .atsTranslationResponse _ _ | .fareriFlitArrival _ | .fareriLinkLoss _ => none

/-- The store word of a micro-op. -/
def mopWord (i : Instr) : Option Word :=
  match i with
  | .ktile w => some (packMop 0x01 w)
  | .fetcha w => some (packMop 0x02 w)
  | .fetchb w => some (packMop 0x03 w)
  | .lata w => some (packMop 0x04 w)
  | .latb w => some (packMop 0x05 w)
  | .groups w => some (packMop 0x06 w)
  | .stepa w => some (packMop 0x07 w)
  | .stepb w => some (packMop 0x08 w)
  | .scalea w => some (packMop 0x09 w)
  | .scaleb w => some (packMop 0x0A w)
  | .accsel w => some (packMop 0x0B w)
  | .filla w => some (packMop 0x0C w)
  | .fillb w => some (packMop 0x0D w)
  | .cntset w => some (packMop 0x0E w)
  | .cntdec w => some (packMop 0x0F w)
  | .jnz w => some (packMop 0x10 w)
  | .jmp w => some (packMop 0x11 w)
  | .parmrd w => some (packMop 0x12 w)
  | .done w => some (packMop 0x13 w)
  | .nopm w => some (packMop 0x14 w)
  | _ => none

/-- The word of a slot operation or of a micro-op; events and outside acts have none. -/
def encode (i : Instr) : Option Word :=
  match slotWord i with
  | some (_, w) => some w
  | none => mopWord i

/-- The bytes of a bundle with one operation, header and long-immediate word first (R162). -/
def encodeBundle (sl : Slot) (imm : BitVec 32) (w : Word) : List Byte :=
  toBytes 4 (2 ^ sl.num) ++ toBytes 4 imm.toNat ++ toBytes 8 w.toNat

/-- The bytes of an instruction laid out as in memory: a micro-op word of at most 64 bits, else a bundle of up to 80
bytes. -/
def tableBytes (nbits w : Nat) : List Byte := if nbits ≤ 64 then toBytes 8 w else toBytes 80 w

/-- The instruction the decoder reads from bits numbered as spec/opcode_table.json numbers them: a micro-op word when
they are at most 64, otherwise a bundle, of which the operation in its lowest slot. -/
def decodeTableWord (nbits w : Nat) : Option Instr :=
  if nbits ≤ 64 then decodeMop (BitVec.ofNat 64 w)
  else
    match decodeBundle (tableBytes nbits w) with
    | .bundle b _ => (b.ops.head?).map Prod.snd
    | _ => none

end Sys2Proof
end

