-- ==== Sys2Proof/Machine/State.lean ====
section
/-! DEFINITION. The state of the N9, as plain data: everything INVENTORY.md lists under State. Tables (`Tbl`) list the
entries that differ from the default their accessor in Machine/Ops.lean names. `State.reset` is the machine right after
a cold reset. -/

namespace Sys2Proof.Machine

open Sys2Proof

/-- The states of Table 3.4 (R52). -/
inductive CtxState where
  | empty | claimed | ready | blocked | frozen | dormant | saving | retired
  deriving DecidableEq, Repr

/-- A fault or failure record: words 0 to 5 of the 64 bytes of R337 and R342; words 6 and 7 are TRETPC and TSTAT. -/
structure Rec where
  w0  : Word := 0
  pc  : Word := 0
  adr : Word := 0
  opa : Word := 0
  opb : Word := 0
  opc : Word := 0
  deriving DecidableEq, Repr

/-- A dependence token (R74): pending or complete, the serial number of the operation that produces it, and the
failure record a completed token may carry (R342). -/
structure Tok where
  pending : Bool := false
  prod    : Nat := 0
  fail    : Option Rec := none
  deriving DecidableEq, Repr

/-- A result in flight or a landing window (R54, R352): its destination, the column cycle it lands at, and its value,
none while a load has not read. `src` is the serial number of the queue entry or call it comes from, 0 for none. -/
structure Landing where
  cls  : Cls
  idx  : Nat
  due  : Nat
  val  : Option Nat
  src  : Nat
  slot : Slot
  deriving DecidableEq, Repr

/-- A place one byte or more of which are accessed (R147): physical memory, with the slice that PIN names if it does, a
tile by its serial number, or the memory of another package. -/
inductive Place where
  | mem (pa : Nat) (pin : Option Nat)
  | tile (id off : Nat)
  | remote (pkg pa : Nat)
  deriving DecidableEq, Repr

/-- What one write has covered so far of a poisoned line or tile row: the place it begins at, the serial number of the entry or
command that writes, and the bytes as a mask (R377, Table 25.5). -/
structure Cover where
  place  : Place
  writer : Nat
  mask   : Nat
  deriving DecidableEq, Repr

/-- One naturally aligned unit that a store writes (R148): its place and its bytes. -/
structure WUnit where
  place : Place
  data  : List Byte
  /-- Bits written of each byte: all but for a plane store (R223). -/
  mask  : Byte := 0xFF
  /-- The leaf's elision attribute, and whether the slice may allocate its line (R308). -/
  elide : Bool := false
  cache : Bool := true
  deriving DecidableEq, Repr

/-- What a LATLD or ACCST captures beside the words of its entry (R232, R235): the set, the tiles that handles named, and the
values and postmark stored. -/
structure MatEntry where
  ag    : BitVec 512
  tiles : Tbl Nat
  vals  : Tbl (BitVec 32)
  pm    : Word
  deriving DecidableEq, Repr

/-- An entry of a context's load queue or store queue (R151): the operation with the values it read at issue. A marker
stands in both queues under one serial number (R152). -/
structure QEntry where
  /-- Serial number; program order within a context. -/
  id    : Nat
  pc    : Nat
  slot  : Slot
  op    : Instr
  /-- BASE, INDEX and DATA values read at issue. -/
  base  : Nat
  index : Nat
  data  : Nat
  /-- The guard predicate read at issue, none when unpredicated, and its sense. -/
  guard : Option PReg
  sense : Bool
  /-- The level at issue, which its translation is checked at. -/
  level : Level
  /-- The tile it accesses, 0 for memory. -/
  tile  : Nat
  /-- The addresses or tile offsets the access names or draws (R72, R220, R222, R224), one for a plain access. -/
  addrs : List Nat
  /-- Loads: the values of the units read so far, in order. -/
  got   : List Nat
  /-- The consumed token, with the serial number of the operation that produced it when the entry issued (R74). -/
  tok   : Option (Nat × Nat)
  /-- Landing cycle of a load. -/
  due   : Nat
  /-- Cycle before which the entry takes no further step (service and network time, R185): of its column for a load, of the
  scheduler for a store. -/
  wait  : Nat
  /-- Stores: 0 not performed; 1 core, 2 quad, 3 stack: the widest level whose point of performance it has reached
  (R149). A store performed at `pkg` has left the queue. -/
  reach : Nat
  /-- Stores: order of arrival at the node of its reach. -/
  arr   : Nat
  /-- Stores: its units have been translated; the units it has still to write at their homes. -/
  known : Bool
  units : List WUnit
  mat   : Option MatEntry := none
  deriving DecidableEq, Repr

/-- A counted-loop entry (R189). -/
structure LoopEnt where
  start : Nat
  stop  : Nat
  left  : Nat
  depth : Nat
  deriving DecidableEq, Repr

/-- A latched source value with the class of the register it came from (R31, Table 24.4). -/
structure Held where
  cls : Cls
  val : Nat
  deriving DecidableEq, Repr

/-- The latency-tagged snapshot buffer of a frozen or trapped context (R336). -/
structure Snap where
  /-- Captured results; `due` is the tag r. -/
  results : List Landing
  heldL   : List QEntry
  heldW   : List QEntry
  holds   : Tbl (Option Held)
  loops   : List LoopEnt
  depth   : Nat
  ratio   : Nat
  /-- Serial numbers below this one are of operations that issued before the freeze. -/
  mark    : Nat
  /-- The windows of accumulator tiles and latches that were open then and belong to no queue entry or call (R340). -/
  wins    : List Landing
  deriving DecidableEq, Repr

/-- Why a context is BLOCKED beyond what its next bundle shows (R53, R186): the blocking operation it issued. -/
inductive Block where
  | none
  | yield (until_ : Nat)
  /-- TLBINV, with the serial number below which stores issued before it. -/
  | tlbinv (until_ mark : Nat)
  | storeWrite
  | partslc (part first count until_ : Nat)
  | genadv (part : Nat)
  | selftst (desc : Word)
  | ctxstop (target : Nat)
  deriving DecidableEq, Repr

/-- A stop request (R59, R343): since which cycle of the context's column, and whether it is urgent. -/
structure StopReq where
  since  : Nat
  urgent : Bool
  deriving DecidableEq, Repr

/-- Causes that hold a context in FROZEN (R117, R185, R335). -/
structure Freeze where
  /-- A load whose data is late, by its queue serial number (R185). -/
  late   : Bool := false
  /-- A breach of a call of the core (R117). -/
  breach : Bool := false
  /-- The fault being delivered: its record, its freeze cycle, and whether it was found before issue or at the
  consumer (R338). -/
  fault  : Option (Rec × Nat × Bool) := none
  /-- Of the last fault found after issue: the scheduler cycle it was found in and the serial number of its operation, among
  several of one cycle the least (R334). -/
  found  : Option (Nat × Nat) := none
  /-- Frozen at the bundle boundary of an urgent stop (R343), since a column cycle. -/
  urgent : Option Nat := none
  /-- The TDI of its partition is in ERROR (R378). -/
  tdi    : Bool := false
  deriving DecidableEq, Repr

/-- The unmerge map of one entry of a context's map table (R270, R271). -/
inductive MapEnt where
  | empty
  | lost
  | valid (n m : Nat) (u : List Nat) (ind : List Nat) (sz : List Nat) (surv : List Nat) (keep : Bool)
  deriving DecidableEq, Repr

/-- An arrival waiting at a handler context (R65): argument, length, sender. -/
structure Arrival where
  arg    : Nat
  len    : Nat
  sender : Nat
  cmd    : Nat
  deriving DecidableEq, Repr

/-- A sealed object as its header gives it (Table 9.29). -/
structure Sealed where
  base    : Nat
  codelen : Nat
  mapoff  : Nat
  sptoff  : Nat
  nsafe   : Nat
  ownrec  : Bool
  ladder  : Nat
  ceil    : Nat
  floor   : Nat
  deriving DecidableEq, Repr

/-- A hardware context (04, R67 to R84). -/
structure Ctx where
  st      : CtxState := .empty
  pc      : Nat := 0
  /-- The sealed object it runs in, and the bundle addresses that its safe-point table gave, as they stood when control last
  arrived by a transfer, a start or a resumption (R168). -/
  code    : Option Sealed := none
  safes   : List Nat := []
  s       : Tbl Word := []
  v       : Tbl VReg := []
  p       : Tbl PReg := []
  /-- Address-generator sets, as their 512-bit images (R71). -/
  ag      : Tbl (BitVec 512) := []
  m       : Tbl Word := []
  tok     : Tbl Tok := []
  /-- The tile table: for each handle, the serial number of the tile it names (R75, R123). -/
  tiles   : Tbl Nat := []
  /-- Hold latches, keyed by 4 × slot + source field (R31, R79). -/
  holds   : Tbl (Option Held) := []
  loops   : List LoopEnt := []
  depth   : Nat := 0
  ratio   : Nat := 0
  level   : Level := .U
  owner   : Nat := 0
  /-- Serial number of its quire, 0 for none, and its quire member index. -/
  quire   : Nat := 0
  member  : Nat := 0
  members : Nat := 0
  part    : Nat := 0
  tenant  : Nat := 0
  /-- FLTREC to FLTOPC, TRETPC, TSTAT (HELD, INTRAP, PLEVEL), TSCRA, TSCRB (R337). -/
  flt     : Rec := {}
  tretpc  : Word := 0
  intrap  : Bool := false
  plevel  : Level := .U
  heldBit : Bool := false
  tscra   : Word := 0
  tscrb   : Word := 0
  age     : Nat := 0
  aged    : Bool := false
  inflight : List Landing := []
  loadQ   : List QEntry := []
  storeQ  : List QEntry := []
  /-- Serial numbers of stores not yet performed at `pkg` whose values its loads have read (R152). -/
  readFrom : List Nat := []
  /-- The snapshot buffer (R336). -/
  snap    : Option Snap := none
  /-- Captured results and held entries are replayed at the first bundle issued after the snapshot's end (R336, R340). -/
  replay  : List Landing := []
  /-- Results captured since an urgent stop; `due` is the tag r (R343). -/
  ucap    : List Landing := []
  frz     : Freeze := {}
  block   : Block := .none
  /-- The column cycle before which no bundle issues (the empty cycle of a transfer, R184). -/
  bubble  : Nat := 0
  stop    : Option StopReq := none
  /-- It is saved whole, by urgent pre-emption, once SAVING (R343). -/
  saveUrgent : Bool := false
  /-- Frames already taken for a save that waits for more (R348), and whether FRAME was recorded. -/
  frames  : List Nat := []
  frameWait : Bool := false
  exiting : Bool := false
  /-- An EXIT that had issued when a trap was entered, in force again at TRET. -/
  exitHeld : Bool := false
  /-- Terminated by a fault, not yet RETIRED (R341). -/
  dying   : Option Rec := none
  /-- A fault record kept in an urgent image, delivered before the first bundle (R343). -/
  pendFault : Option (Rec × Bool) := none
  breaches : Nat := 0
  narrows  : Nat := 0
  lastres  : Nat := 7
  maps    : Tbl MapEnt := []
  /-- Token buckets, by slice: how far below full each is, in sixteenths of a byte, and the cycle of that level; one
  without an entry has been full since the claim, at scheduler cycle `born` (R139). -/
  buckets : Tbl (Nat × Nat) := []
  born    : Nat := 0
  arrivals : List Arrival := []
  /-- A handler context was dismissed (R66). -/
  dismissed : Bool := false
  deriving DecidableEq, Repr

/-- An accumulator tile (R76): the context-in-core that holds its grant, its 4,096 values by 64 × row + column, and its
postmark (R121). -/
structure AccTile where
  holder : Option Nat := none
  vals   : Tbl (BitVec 32) := []
  pm     : Word := 0
  deriving DecidableEq, Repr

/-- A latch (R76, R232): its holder and its 32 KiB. -/
structure LatchT where
  holder : Option Nat := none
  bytes  : Tbl Byte := []
  deriving DecidableEq, Repr

/-- A store write waiting until the core's calls have ended (R78): into the routine table or the microprogram store. -/
structure PendWrite where
  ctx     : Nat
  routine : Bool
  idx     : Nat
  word    : Word
  deriving DecidableEq, Repr

/-- Where an operand of a K-tile comes from (R240). -/
inductive Source where
  | desc
  | latch (l : Nat)
  | fill (imm : Nat)
  deriving DecidableEq, Repr

/-- What a GROUPS of a K-tile captured, until its last group has entered the array (R117, R241): the K-tile and its rung,
the first indices, sources, scale and mapping switches, the operand rows fetched so far (R143), the scheduler cycles in which
the rows were asked for and before which the next one does not arrive, the units and scales of that row read so far, whether
every row is there, and the groups that have not entered the array. -/
structure Job where
  kt     : Nat
  rung   : Nat
  kA     : Nat
  kB     : Nat
  srcA   : Source
  srcB   : Source
  scA    : Bool
  scB    : Bool
  trn    : Bool
  rowsA  : List (List Ext)
  rowsB  : List (List Ext)
  start  : Nat
  wait   : Nat
  part   : List (Int × Nat) := []
  scales : List (Int × Nat) := []
  filled : Bool
  left   : Nat
  deriving DecidableEq, Repr

/-- A matrix call in flight (R238 to R242). -/
structure Call where
  id     : Nat
  core   : Nat
  ctx    : Nat
  pc     : Nat
  /-- The address of the bundle that issued it and its operand record. -/
  opa    : Word
  opb    : Word
  acc    : Nat
  owner  : Nat
  ladder : Nat
  da     : Word
  db     : Word
  mp     : List Word
  /-- Address-generator images read at issue: A, B, and the scale sets of A and B (R232), and the tiles that handles
  named then. -/
  agA    : BitVec 512
  agB    : BitVec 512
  sgA    : BitVec 512
  sgB    : BitVec 512
  tiles  : Tbl Nat
  level  : Level
  mode   : Nat
  cap    : Nat
  /-- LAT at issue, K-tile count N, depth T, issue cycle c0, freeze length so far, and that length when the open window
  opened. -/
  lat    : Nat
  n      : Nat
  depth  : Nat
  c0     : Nat
  frz    : Nat
  frzAt  : Nat
  /-- First and last store word, next word, words executed. -/
  first  : Nat
  last   : Nat
  upc    : Nat
  words  : Nat
  cnt    : List Nat
  kt     : Nat
  kA     : Nat
  kB     : Nat
  trn    : Bool
  scA    : Bool
  scB    : Bool
  srcA   : Option Source
  srcB   : Option Source
  /-- The K-tile begun last has had no GROUPS. -/
  isOpen : Bool
  /-- The routine waits at a KTILE for window kt - 1 (R107). -/
  waiting : Bool
  /-- The routine has executed DONE. -/
  ended  : Bool
  /-- The rung that the K-tile begun last took (R108). -/
  rung   : Nat
  vals   : Tbl (BitVec 32)
  pm     : Word
  jobs   : List Job
  /-- The pipe stopped at a fault: operand (false A), row, and its record (R143). -/
  stopped : Option (Bool × Nat × Rec)
  /-- Governor instances it has drawn on: class and instance (R111). -/
  uses   : List (Nat × Nat)
  late   : Bool
  exhaust : Bool
  therm  : Bool
  /-- Latches held as a source from issue to completion (R234). -/
  latches : List Nat
  deriving DecidableEq, Repr

/-- A breach freeze in progress (R117): the column cycle it began at. -/
structure Breach where
  since : Nat
  deriving DecidableEq, Repr

/-- The core-wide resources (R76 to R78, R83). -/
structure Core where
  accs    : Tbl AccTile := []
  lats    : Tbl LatchT := []
  store   : Tbl Word := []
  routs   : Tbl Word := []
  pend    : List PendWrite := []
  wheel   : Word := 0
  /-- The positions still in force until the next revolution after WHLSET (R201). -/
  wheelOld : Option Word := none
  breach  : Option Breach := none
  /-- The context whose SC access the wheel position of a scheduler cycle serves (R153). -/
  scTurn  : Option (Nat × Nat) := none
  /-- Commands waiting at the core's allocator, by serial number, in order (R125). -/
  allocQ  : List Nat := []
  /-- Out of placement after a LASTING verdict (R382). -/
  lasting : Bool := false
  deriving DecidableEq, Repr

/-- The levels of Table 7.1. -/
inductive TLevel where
  | LOCAL | QUIRE | BASE
  deriving DecidableEq, Repr

/-- A tile (R123, R124): where it lies, who may name it, its shape, its bytes (unwritten ones read zero, R129) and its
poisoned rows (Table 25.5). `core` is the core whose tile memory holds a LOCAL or QUIRE tile; a BASE tile lies in the
base tile level of `stack`, in the pool of `part`. -/
structure Tile where
  id     : Nat
  level  : TLevel
  core   : Nat
  stack  : Nat
  part   : Nat
  quire  : Nat
  member : Nat
  esize  : Nat
  cols   : Nat
  rows   : Nat
  /-- Where its bytes are charged: (core, bytes) for tile memory, (column, bytes) for each region of a BASE tile (R126). -/
  place  : List (Nat × Nat)
  bytes  : Tbl Byte
  poison : List Nat
  /-- Freed: named by no table, its space returned once the accesses begun before end (R265). -/
  freed  : Bool
  deriving DecidableEq, Repr

/-- Where an engine command writes a unit (R252, R259, R260): memory at a virtual address, plainly or through an
accumulate-on-write index of Table 9.24, a tile by its serial number with the handle that named it, or an image offset of
the tile that a delivery of MCAST names. -/
inductive EDst where
  | va (a : Nat) (acw : Option Nat)
  | tile (id h off : Nat)
  | deliver (off : Nat)
  deriving DecidableEq, Repr

/-- A unit that an engine command has read and not yet written, for destination `dest` of MCAST, 0 elsewhere. -/
structure EUnit where
  dst  : EDst
  data : List Byte
  dest : Nat := 0
  deriving DecidableEq, Repr

/-- An entry of the shared-range table (R146, R388). -/
structure Range where
  tenant : Nat
  base   : Nat
  len    : Nat
  device : Bool
  deriving DecidableEq, Repr

/-- An engine command that has issued and not completed (R250): what it read at issue, and where it stands. -/
structure ECmd where
  id     : Nat
  ctx    : Nat
  quire  : Nat
  op     : Instr
  pc     : Nat
  imm    : BitVec 32
  opa    : Nat
  opb    : Nat
  opc    : Nat
  /-- The three registers of SMPUSH, read at issue (R290). -/
  vecs   : List VReg
  /-- The shape record captured at issue (R256): none without a shape handle, `some none` when the handle named no
  entry. -/
  shape  : Option (Option (BitVec 768))
  owner  : Nat
  level  : Level
  /-- Consumed tokens still waited for, the failure inherited from one of them, and the produced token. -/
  kins   : List (Nat × Nat)
  fail   : Option Rec
  kout   : Option Nat
  /-- Order in which it became ready, 0 while it waits for tokens (R250). -/
  ready  : Nat
  /-- It has begun, and the scheduler cycle before which it takes no further step. -/
  begun  : Bool
  wait   : Nat
  /-- The tiles it looked up when it began. -/
  tiles  : List Nat
  /-- Items it has still to read, by number, and units it has read and still to write (R253). -/
  todo   : List Nat
  rest   : List EUnit
  /-- Destinations it has written over the Fareri Link, and the failed ones with SUB and CODE. -/
  far    : List Nat
  fails  : List (Nat × Nat × Nat)
  /-- The list entries of MCAST as read when it began (R260). -/
  dests  : List (Nat × Nat)
  /-- The letter of a LAUNCH that waits for a place in its queue (R46). -/
  letter : Option (BitVec 512)
  /-- The token-merging unit has served it, and it waits for a free map-store entry (R280). -/
  served : Bool
  held   : Bool
  /-- The entry of a push or feed that has been read and checked, and waits for the spill before it (R289). -/
  entry  : Option (Nat × Nat × Nat) := none
  /-- What it has read of several places that it reads as one, while it waits for the rest: each address with its bytes. -/
  parts  : List (Nat × List Byte) := []
  /-- The entry of the shared-range table that RACQ or RREL named when it began (R388). -/
  range  : Option (Nat × Range) := none
  /-- An error charged to an MCAST for what it just accessed: CODE and FLTADR (R369). -/
  hurt   : Option (Nat × Nat) := none
  /-- Everything it does is done but for the token's completion. -/
  acted  : Bool
  /-- Suppressed by its guard: it makes no access, and its token completes when those it consumes have (R156). -/
  nop    : Bool
  deriving DecidableEq, Repr

/-- The networks of Table 3.1 with their instance: core, quad, stack number; the package; a pod job or partition. -/
inductive Net where
  | core (n : Nat) | quad (n : Nat) | stack (n : Nat) | pkg | pod (job : Nat) (part : Nat)
  deriving DecidableEq, Repr

/-- A barrier episode (R264, R373, R374): its network, its number there, its count (0 while only held POSTs wait), the
arrivals counted, the commands among them, held POST arrivals (true: of a failed delivery), poison, and the quires that
broke it. -/
structure Episode where
  net     : Net
  num     : Nat
  count   : Nat
  arrived : Nat
  cmds    : List Nat
  posts   : List Bool
  poisoned : Bool
  quires  : List Nat
  broke   : List Nat
  deriving DecidableEq, Repr

/-- A saved member (R59, R343, R345): the context as it will resume, the context it was, its accumulator tiles, latches and
tiles with their handles, the frames of its image, and the kind of Table 23.7. -/
structure Image where
  member  : Nat
  kind    : Nat
  dormant : Bool
  num     : Nat
  ctx     : Ctx
  accs    : List (Nat × AccTile)
  lats    : List (Nat × LatchT)
  tiles   : List (Nat × Tile)
  frames  : List Nat
  deriving DecidableEq, Repr

/-- An entry of the sparse buffer or of a run (Table 15.3). -/
structure SmEnt where
  row    : Nat
  col    : Nat
  val    : Nat
  stream : Nat
  seq    : Nat
  deriving DecidableEq, Repr

/-- A stream of a session (R285): closed, the last key, SEQ. -/
structure SmStream where
  closed : Bool := false
  last   : Option (Nat × Nat) := none
  seq    : Nat := 0
  deriving DecidableEq, Repr

/-- A sparse session (R285). -/
structure Session where
  quire   : Nat
  home    : Nat
  /-- The opening context, with the partition, tenant, owner and level its accesses are made under. -/
  ctx     : Nat
  part    : Nat
  tenant  : Nat
  owner   : Nat
  level   : Level
  desc    : BitVec 512
  limit   : Nat
  buf     : List SmEnt
  streams : Tbl SmStream
  runs    : Nat
  cursor  : Nat
  /-- An uncorrectable error struck the buffer (Table 25.5). -/
  broken  : Bool
  deriving DecidableEq, Repr

/-- The states of a quire: claimed and not started, running, or saved. -/
inductive QuireState where
  | claimed | running | saved
  deriving DecidableEq, Repr

/-- A quire (03). -/
structure Quire where
  id      : Nat
  part    : Nat
  letter  : BitVec 512
  st      : QuireState
  /-- Contexts of its members by quire member index; empty while saved. -/
  members : List Nat
  quads   : Nat
  /-- The count of MEMBERS. -/
  size    : Nat
  broken  : Bool
  /-- A fault record was written at DONE + 8 (R341). -/
  recorded : Bool
  dismissed : Bool
  /-- It resumes from save frames, which its restoration returns (R345). -/
  resuming : Bool
  /-- Its members are being stopped at the end of a slice (R59); the QUIRE and BASE tiles that stopped members name
  (R347). -/
  stopping : Bool
  named   : List Nat
  /-- The scheduler cycle of its start signal, once claimed (R51). -/
  wait    : Nat
  images  : List Image
  /-- Its saved sessions, at most one of each of its quads (R296). -/
  sessions : List Session
  /-- Saved, it is reserving as the head of its queue (R49, R62). -/
  holds   : Bool := false
  deriving DecidableEq, Repr

/-- A letter in a launch queue with the passes it stayed unplaced at the head, and whether it is reserving (R49). -/
structure Letter where
  bits   : BitVec 512
  passes : Nat
  holds  : Bool := false
  deriving DecidableEq, Repr

/-- A valid way of an L2 set (R135); the order of the ways is the `recency` of the set. The line is named by its physical
address div 128. -/
structure Way where
  dirty  : Bool
  line   : Nat
  owner  : Nat
  gen    : Nat
  elide  : Bool
  poison : Bool
  data   : Nat
  deriving DecidableEq, Repr

/-- A set of an L2 slice: its valid ways, and its ways from least to most recent (R135). -/
structure L2Set where
  ways    : Tbl (Option Way) := []
  recency : List Nat := [0, 1, 2, 3, 4, 5, 6, 7, 8, 9, 10, 11, 12, 13, 14, 15]
  quar    : List Nat := []
  /-- Ways that a self-test found LASTING, quarantined until cold reset (R382). -/
  lasting : List Nat := []
  deriving DecidableEq, Repr

/-- An owner's contract record (R103): header, latencies, way masks by slice, bucket word (log 78),
and its partition. -/
structure Owner where
  hdr   : Word := 0
  part  : Option Nat := none
  lat   : Tbl Nat := []
  /-- Way masks that differ from 0xFFFF, by slice. -/
  masks : Tbl Nat := []
  rate  : Nat := 1024
  depth : Nat := 16384
  /-- Writes waiting for the next tick (R105): a header, latencies. -/
  pendHdr : Option Word := none
  pendLat : List (Nat × Nat) := []
  /-- The cycle of the last tick and the RUNG held before it (R108). -/
  was : Option (Nat × Nat) := none
  deriving DecidableEq, Repr

/-- A request that waits at a slice port (R139): who makes it, the context that pays, its charge in bytes, and the scheduler
cycle in which it was last made. -/
structure PortReq where
  id    : Nat
  ctx   : Nat
  bytes : Nat
  last  : Nat
  deriving DecidableEq, Repr

/-- A slice port (R139): the bytes it has served, counted as 64 for each scheduler cycle up to the one in which it is free
again, and the requests that wait, oldest first. -/
structure SlicePort where
  free : Nat := 0
  reqs : List PortReq := []
  deriving DecidableEq, Repr

/-- A tenant of a partition (R311, R316, R337). -/
structure Tenant where
  en    : Bool := false
  tbase : Nat := 0
  repay : Nat := 0
  slice : Nat := 0
  tvec  : Word := 0
  deriving DecidableEq, Repr

/-- The slice that runs in a partition (R316): its tenant, and the scheduler cycle it ends at. -/
structure SliceRun where
  tenant : Nat
  stop   : Nat
  since  : Nat
  deriving DecidableEq, Repr

/-- A parcel in a poste restante ring or waiting at it (R261, R375). -/
structure Parcel where
  spkg    : Nat
  sctx    : Nat
  len     : Nat
  offset  : Nat
  seq     : Nat
  member  : Nat
  handle  : Nat
  barn    : Nat
  post    : Bool
  /-- Ring position of its header, in 64-byte units since the ring's start. -/
  at_     : Nat
  data    : List Byte
  /-- The command and the MCAST destination it comes from, while it waits; scheduler cycle it began to wait. -/
  cmd     : Nat
  dest    : Nat
  since   : Nat
  valid   : Bool
  deriving DecidableEq, Repr

/-- A line that a prefetch hint asks a slice for, waiting at the port (R248): who asked, under which owner. -/
structure Hint where
  id     : Nat
  ctx    : Nat
  part   : Nat
  tenant : Nat
  level  : Level
  owner  : Nat
  va     : Nat
  wait   : Nat
  deriving DecidableEq, Repr

/-- A transfer over the Fareri Link whose rows are all sent (R319, R372): its number, its command and destination, and the
scheduler cycle its verdict arrives at. -/
structure Delivery where
  id   : Nat
  cmd  : Nat
  dest : Nat
  wait : Nat
  deriving DecidableEq, Repr

/-- TDISP states of a partition (Table 20.5, TDI). -/
inductive Tdi where
  | unlocked | locked | run | error
  deriving DecidableEq, Repr

/-- A partition (R311). -/
structure Part where
  en      : Bool := false
  tdi     : Tdi := .unlocked
  cols    : Nat := 0
  slices  : List Nat := []
  chans   : List Nat := []
  lanes   : List Nat := []
  ssbase  : Nat := 0
  meta_   : Nat := 0
  prbase  : Nat := 0
  prsize  : Nat := 0
  podjob  : Nat := 0
  sealtab : Nat := 0
  nseal   : Nat := 0
  tenants : Tbl Tenant := []
  queues  : Tbl (List Letter) := []
  /-- Letters from the letterbox whose check waits for the host's translation, in order (R142, R370). -/
  arriving : List (BitVec 512) := []
  lbxdrop : Nat := 0
  govload : Word := 0
  /-- The priority of the letter or saved quire that is reserving (R49). -/
  reserving : Option Nat := none
  /-- Passes the saved quires stayed unplaced, by quire serial number (R62). -/
  savedPass : Tbl Nat := []
  run     : Option SliceRun := none
  frames  : List Nat := []
  ranges  : Tbl (Option Range) := []
  ring    : List Parcel := []
  waiting : List Parcel := []
  /-- Ring head and tail, in 64-byte units since reset. -/
  tail    : Nat := 0
  l2gen   : Nat := 0
  digest  : Option (BitVec 512) := none
  /-- The pages of its second-stage tables, protected while its TDI is not CONFIG_UNLOCKED (R309). -/
  tables  : List Nat := []
  /-- HDM decoder: base and size (R306). -/
  hdm     : Option (Nat × Nat) := none
  deriving DecidableEq, Repr

/-- A column (R10, R119). -/
structure Col where
  t0     : Int := 4000
  t1     : Int := 4000
  q      : Nat := 8
  /-- Cycles of its clock since reset, and the eighths of a cycle gathered (R81, R119). -/
  cycles : Nat := 0
  frac   : Nat := 0
  /-- Ticks in a row at 3.00 °C below TLIM, and ticks since the last step (R119). -/
  cool   : Nat := 0
  since  : Nat := 16
  share  : Nat := 0
  /-- Class 4 demand of the windows since the last share (R321). -/
  d16    : Nat := 0
  deriving DecidableEq, Repr

/-- A sealed entry of a stack's shape table (R256): partition, seal count, record. -/
structure Shape where
  part   : Nat
  count  : Nat
  bits   : BitVec 768
  deriving DecidableEq, Repr

/-- A cached combined translation (R141, R142): partition, tenant, page number by size, and what the walk gave. -/
structure Trans where
  part   : Nat
  tenant : Nat
  /-- log2 of the page size, virtual page base, physical base. -/
  size   : Nat
  va     : Nat
  pa     : Nat
  rd     : Bool
  wr     : Bool
  wr1    : Bool
  wr2    : Bool
  exec   : Bool
  user   : Bool
  pin    : Option Nat
  elide  : Bool
  remote : Option Nat
  /-- log2 of what the second-stage leaf spans (R376). -/
  span   : Nat
  deriving DecidableEq, Repr

/-- A stack: its shape table of 1,024 entries with their seal counts (R256), the last-level TLB (R142), and the
allocators of its base tile level. -/
structure Stack where
  shapes : Tbl (Option Shape) := []
  seals  : Tbl Nat := []
  /-- Entries that a SHFREE frees (R256): entry, seal count, context, and the cycle of the context's column. -/
  freeing : List (Nat × Nat × Nat × Nat) := []
  tlb    : List Trans := []
  /-- Commands waiting at the allocator of each partition's base pool here (R126). -/
  allocQ : Tbl (List Nat) := []
  deriving DecidableEq, Repr

/-- A quad: commands that have begun with its token-merging unit and its sparse network, in the order they began, and
those set aside (R280, R287). -/
structure Quad where
  tmQ    : List Nat := []
  smQ    : List Nat := []
  aside  : List Nat := []
  session : Option Session := none
  /-- First-level TLBs: of its cores' load pipes and of its copy engines (R142). -/
  tlb    : Tbl (List Trans) := []
  deriving DecidableEq, Repr

/-- An accumulate-on-write applied in a switch and held there (R160). -/
structure SwWord where
  switch : Nat
  pkg    : Nat
  pa     : Nat
  word   : Nat
  deriving DecidableEq, Repr

/-- A self-test in progress (R382). It ends at a cycle of the unit's clock: its column's for a core's or a quad's structure. -/
structure SelfTest where
  desc   : Word
  ends   : Nat
  /-- The context whose SELFTST it is, none after an error. -/
  ctx    : Option Nat
  w0     : Word
  retired : Nat
  killed : List Nat
  deriving DecidableEq, Repr

/-- A write of the device's own that waits for the host to give up its copy of the line, or for a switch (R307, R377): bytes, or the
raising of a counter by one, and the vector raised after it. -/
structure Posted where
  part : Nat
  pa   : Nat
  data : List Byte
  add  : Bool
  irq  : Option Nat
  deriving DecidableEq, Repr

/-- Boot states (Table 20.2). -/
inductive Boot where
  | booting | running | recovery | selfTest
  deriving DecidableEq, Repr

/-- The host and firmware side of the device (20). -/
structure Pkg where
  boot    : Boot := .booting
  badacc  : Bool := false
  lockwr  : Bool := false
  pkgid   : Nat := 0
  pbudget : Nat := 0x640
  fwver   : Word := 0
  /-- Firmware staged, rollback minimum, key slots (R324). -/
  staged  : Option (List Byte × Word × Nat × Bool × Bool) := none
  flash   : Option (List Byte × Word × Nat × Bool × Bool) := none
  rollback : Nat := 0
  msixTab : Tbl Word := []
  /-- The MSI-X pending bits (Table 20.1). -/
  pending : Nat := 0
  /-- Vectors raised, latest first. -/
  raised  : List Nat := []
  /-- DOE responses, latest last; none is an error response. -/
  doe     : List (Option (BitVec 512)) := []
  /-- The bytes of the last host read of device memory as the host got them; none is poison (R306, R378, R381). -/
  answer  : List (Option Byte) := []
  ide     : Bool := false
  /-- Lines of device memory whose copy the host may hold (R307). -/
  hostHas : List Nat := []
  /-- Snoops sent and not answered: line. -/
  snoops  : List Nat := []
  /-- The device's own writes that wait, in order. -/
  posted  : List Posted := []
  /-- Host translations returned through ATS, by partition and page (R312): none means refused. Those that a walk has used go as
  the cycle ends. -/
  ats     : Tbl (Option (Option Nat)) := []
  atsUsed : List Nat := []
  atsReq  : List Nat := []
  tlim    : Nat := 0x251C
  hflogBase : Nat := 0
  hflogNpg : Nat := 0
  hflogCount : Nat := 0
  armed   : Option (Word × Bool) := none
  /-- Link state by Fareri switch: trained, and the cycle a lost link must retrain by. -/
  links   : Tbl Bool := []
  lost    : Tbl Nat := []
  switchWords : List SwWord := []
  /-- Words of switches that plain accesses wait for: package and address (R160). -/
  swWant : List (Nat × Nat) := []
  /-- Held marks of R377: a word of 8 bytes by its memory key div 8, and the switch that holds it. -/
  marks   : List (Nat × Nat) := []
  /-- Lines of memory that are poisoned, by memory key div 128. -/
  poison  : List Nat := []
  covers  : List Cover := []
  /-- Page bits C and T (R376), by physical address div 65,536. -/
  cBits   : List Nat := []
  tBits   : List Nat := []
  /-- Pages that a self-test found LASTING, retired until cold reset (R382). -/
  lastPages : List Nat := []
  deriving DecidableEq, Repr

/-- Where the machine stands inside a scheduler cycle (the model's own, log 4): advancing the clocks, the events of the
cycle, looking at each context's next bundle, or issuing. -/
inductive Phase where
  | clock | events | scan | issue
  deriving DecidableEq, Repr

/-- The bundle being issued: its context, header address, size, long-immediate word, the operations still to act,
whether its faults before issue have been looked for, a taken transfer's target and whether it was a BR or BRI (R189),
the code of a TRAP (R193), and the context as it stood when the bundle issued, which every operation of the bundle reads
(R352). -/
structure Cur where
  ctx     : Nat
  h       : Nat
  size    : Nat
  imm     : BitVec 32
  todo    : List (Slot × Instr)
  checked : Bool
  jump    : Option Nat
  branch  : Bool
  trap    : Option Nat
  /-- The serial number that the operations of its later slots count on from, once it has raised a TRAP (R334). -/
  trapId  : Nat := 0
  before  : Ctx
  deriving DecidableEq, Repr

/-- The periodic events of a scheduler cycle: the governor's tick, the budget arbiter, a partition's scheduler pass. -/
inductive Periodic where
  | governorTick
  | budgetArbiter
  | schedulerPass (part : Nat)
  deriving DecidableEq, Repr

/-- What the system registers and device-wide tables hold at the start of a scheduler cycle, which reads of that cycle give (R80,
R187); the model's own. -/
structure Dawn where
  ctxs   : Tbl Ctx
  cores  : Tbl Core
  calls  : List Call
  cols   : Tbl Col
  parts  : Tbl Part
  owners : Tbl Owner
  occ    : Tbl Nat
  pkg    : Pkg
  deriving DecidableEq, Repr

/-- The whole machine. -/
structure State where
  ctxs   : Tbl Ctx
  cores  : Tbl Core
  calls  : List Call
  cols   : Tbl Col
  quads  : Tbl Quad
  stackTab : Tbl Stack
  parts  : Tbl Part
  owners : Tbl Owner
  quires : List Quire
  tiles  : List Tile
  cmds   : List ECmd
  hints  : List Hint
  eps    : List Episode
  /-- L2 sets, keyed by 64 × slice + set (R134, R135). -/
  l2     : Tbl L2Set
  /-- Occupancy counts, keyed by 256 × slice + owner (R138). -/
  occ    : Tbl Nat
  /-- Spare pools, keyed by 12 × slice + partition, in sixteenths of a byte (R139). -/
  spare  : Tbl Nat
  /-- The slice ports (R139). -/
  ports  : Tbl SlicePort
  /-- Generations of R128 and R130, by structure number, and the structures being zeroed. -/
  gens   : Tbl Nat
  zeroing : List Nat
  /-- Governor: demand of the window and quiet counts, keyed by 1,024 × class + instance, and the users of the window
  as (class, instance, owner) (R111, R112). -/
  demand : Tbl Nat
  quiet  : Tbl Nat
  users  : List (Nat × Nat × Nat)
  tests  : List SelfTest
  /-- Deliveries that wait for their checksum verdict (R372). -/
  dlv    : List Delivery
  pkg    : Pkg
  /-- Scheduler cycles since reset. -/
  cycle  : Nat
  /-- Device memory by channel × 1.5 GiB + channel address, host memory from 2^51 on (log 3). -/
  mem    : List Host.Cell
  /-- Device memory of other packages, by package × 2^52 + physical address. -/
  remote : List Host.Cell
  /-- The model's own: the state that reads of this cycle see, none before the first cycle. -/
  dawn   : Option Dawn
  /-- The model's own (log 4): phase, contexts to issue or to look at, the bundle being issued, the call whose routine
  runs, the acts of the outside still to come with the cycle each arrives at, the periodic events of this cycle still to come,
  and the counters of serial numbers and of free values. -/
  phase  : Phase
  todo   : List Nat
  cur    : Option Cur
  micro  : Option Nat
  inputs : List (Nat × Instr)
  agenda : List Periodic
  serial : Nat
  fresh  : Nat
  deriving DecidableEq, Repr

/-- What stops the machine with a fault. Nothing does: every fault of the manual is a state the machine goes on from. -/
inductive Fault where
  /-- Raised by nobody; it is safe to have. -/
  | none
  deriving DecidableEq, Repr

/-- What the model refuses. -/
inductive Refusal where
  /-- Raised by an arm of exec whose instruction has no meaning yet; safe, since the machine then does not go on. -/
  | notModelled (mnemonic : String)
  deriving DecidableEq, Repr

/-- The machine right after a cold reset (R323): every context EMPTY, every partition disabled, every table empty. -/
def State.reset : State :=
  { ctxs := [], cores := [], calls := [], cols := [], quads := [], stackTab := [], parts := [], owners := [],
    quires := [], tiles := [], cmds := [], hints := [], eps := [], l2 := [], occ := [], spare := [], ports := [], gens := [], zeroing := [],
    demand := [], quiet := [], users := [], tests := [], dlv := [], pkg := {}, cycle := 0, mem := [], remote := [], dawn := none,
    phase := .clock, todo := [], cur := none, micro := none, inputs := [], agenda := [], serial := 1, fresh := 0 }

end Sys2Proof.Machine
end

