-- ==== Sys2Proof/Machine/Ops.lean ====
section
/-! DEFINITION. The named operations on the machine's parts: numbering (R9), registers and tokens, results in flight,
taking a fault, delivering it and returning from a trap (23). -/

namespace Sys2Proof.Machine

open Sys2Proof

/-- The core of a context (R9). -/
def coreOf (c : Nat) : Nat := c / 4
/-- The column, and quad, of a context (R9). -/
def colOf (c : Nat) : Nat := c / 16
/-- The stack of a context (R9). -/
def stackOf (c : Nat) : Nat := c / 128

/-- Is a context in a state that ends a CTXSTOP (R205)? -/
def CtxState.atRest (t : CtxState) : Bool := t = .empty || t = .retired || t = .dormant

/-- Context `c`. -/
def State.ctx (s : State) (c : Nat) : Ctx := tget {} s.ctxs c
/-- Core `n`. -/
def State.core (s : State) (n : Nat) : Core := tget {} s.cores n
/-- Column `n`. -/
def State.col (s : State) (n : Nat) : Col := tget {} s.cols n
/-- Quad `n`. -/
def State.quad (s : State) (n : Nat) : Quad := tget {} s.quads n
/-- Stack `n`. -/
def State.stack (s : State) (n : Nat) : Stack := tget {} s.stackTab n
/-- Partition `p`. -/
def State.part (s : State) (p : Nat) : Part := tget {} s.parts p
/-- Owner `o`. -/
def State.owner (s : State) (o : Nat) : Owner := tget {} s.owners o

/-- Replaces context `c`. -/
def State.setCtx (s : State) (c : Nat) (x : Ctx) : State := { s with ctxs := tset {} s.ctxs c x }
/-- Replaces core `n`. -/
def State.setCore (s : State) (n : Nat) (x : Core) : State := { s with cores := tset {} s.cores n x }
/-- Replaces column `n`. -/
def State.setCol (s : State) (n : Nat) (x : Col) : State := { s with cols := tset {} s.cols n x }
/-- Replaces quad `n`. -/
def State.setQuad (s : State) (n : Nat) (x : Quad) : State := { s with quads := tset {} s.quads n x }
/-- Replaces stack `n`. -/
def State.setStack (s : State) (n : Nat) (x : Stack) : State := { s with stackTab := tset {} s.stackTab n x }
/-- Replaces partition `p`. -/
def State.setPart (s : State) (p : Nat) (x : Part) : State := { s with parts := tset {} s.parts p x }
/-- Replaces owner `o`. -/
def State.setOwner (s : State) (o : Nat) (x : Owner) : State := { s with owners := tset {} s.owners o x }

/-- Changes context `c` by `f`. -/
def State.updCtx (s : State) (c : Nat) (f : Ctx → Ctx) : State := s.setCtx c (f (s.ctx c))
/-- Changes every context in play by `f`, each from what it was. -/
def State.mapCtxs (s : State) (f : Nat → Ctx → Ctx) : State :=
  (s.ctxs.map Prod.fst).foldl (fun t c => t.setCtx c (f c (s.ctx c))) s
/-- Changes core `n` by `f`. -/
def State.updCore (s : State) (n : Nat) (f : Core → Core) : State := s.setCore n (f (s.core n))
/-- Changes quad `n` by `f`. -/
def State.updQuad (s : State) (n : Nat) (f : Quad → Quad) : State := s.setQuad n (f (s.quad n))
/-- Changes stack `n` by `f`. -/
def State.updStack (s : State) (n : Nat) (f : Stack → Stack) : State := s.setStack n (f (s.stack n))
/-- Changes partition `p` by `f`. -/
def State.updPart (s : State) (p : Nat) (f : Part → Part) : State := s.setPart p (f (s.part p))
/-- Changes owner `o` by `f`. -/
def State.updOwner (s : State) (o : Nat) (f : Owner → Owner) : State := s.setOwner o (f (s.owner o))
/-- Changes the package record by `f`. -/
def State.updPkg (s : State) (f : Pkg → Pkg) : State := { s with pkg := f s.pkg }

/-- The cycle count of the column of context `c` (R5, R81). -/
def State.now (s : State) (c : Nat) : Nat := (s.col (colOf c)).cycles

/-- A new serial number. -/
def State.newSerial (s : State) : Nat × State := (s.serial, { s with serial := s.serial + 1 })

/-- A free natural number (Config), and the counter advanced. -/
def State.newFree (s : State) : Nat × State := (Config.freeValue s.fresh, { s with fresh := s.fresh + 1 })

/-- A scheduler cycle, not before the present one, that the manual leaves open. -/
def State.newWait (s : State) : Nat × State := (s.cycle + Config.delay s.fresh, { s with fresh := s.fresh + 1 })

/-- Is an MSI-X vector masked by its table entry (R303, log 65)? -/
def Pkg.masked (k : Pkg) (v : Nat) : Bool := (tget 0 k.msixTab (2 * v + 1)).getLsbD 32

/-- Raises an MSI-X vector (R317); the message of a masked one is pending. -/
def State.raise (s : State) (v : Nat) : State :=
  s.updPkg fun k => { k with raised := v :: k.raised, pending := if k.masked v then k.pending ||| 2 ^ v else k.pending }

/-! Generations (R130), by structure: context c, accumulator tile 1024 + 16 × core + a, latch 4096 + 4 × core + l, tile
memory of a core 5000 + core, base tile level of a column 5200 + column, slices of a partition 5300 + partition. -/

/-- The structure of an accumulator tile. -/
def genAcc (core a : Nat) : Nat := 1024 + 16 * core + a
/-- The structure of a latch. -/
def genLat (core l : Nat) : Nat := 4096 + 4 * core + l
/-- The structure of a core's tile memory. -/
def genMem (core : Nat) : Nat := 5000 + core
/-- The structure of a column's base tile level. -/
def genBase (col : Nat) : Nat := 5200 + col

/-- A structure whose next advance would come round is zeroed first (R130): its stale entries go, and what needs an advance
of it waits. -/
def State.freeGen (s : State) (g : Nat) : State :=
  if tget 0 s.gens g + 1 < 2 ^ 16 || s.zeroing.contains g then s else { s with zeroing := s.zeroing ++ [g] }

/-- A claim, allocation or grant advances the generation of its structure. -/
def State.bumpGen (s : State) (g : Nat) : State :=
  { s with gens := tset 0 s.gens g (tget 0 s.gens g + 1) }.freeGen g

/-! Registers (R67 to R70). -/

/-- The value of a register of a context, as a natural number; `s0` reads zero (R68). -/
def Ctx.reg (x : Ctx) (c : Cls) (n : Nat) : Nat :=
  match c with
  | .s => if n = 0 then 0 else (tget 0 x.s n).toNat
  | .v => (tget 0 x.v n).toNat
  | .p => (tget 0 x.p n).toNat
  | .ag => (tget 0 x.ag n).toNat
  | .m => (tget 0 x.m n).toNat
  | .a => 0
  | .l => 0

/-- Writes a register of a context; a write of `s0` is discarded (R68). -/
def Ctx.setReg (x : Ctx) (c : Cls) (n : Nat) (v : Nat) : Ctx :=
  match c with
  | .s => if n = 0 then x else { x with s := tset 0 x.s n (BitVec.ofNat 64 v) }
  | .v => { x with v := tset 0 x.v n (BitVec.ofNat 8192 v) }
  | .p => { x with p := tset 0 x.p n (BitVec.ofNat 512 v) }
  | .ag => { x with ag := tset 0 x.ag n (BitVec.ofNat 512 v) }
  | .m => { x with m := tset 0 x.m n (BitVec.ofNat 64 v) }
  | .a => x
  | .l => x

/-- Predicate register `n`. -/
def Ctx.pred (x : Ctx) (n : Nat) : PReg := tget 0 x.p n

/-- The guard of an operation that is not element-wise (R30): bit 0 of the predicate, read under SENSE. -/
def Ctx.guard (x : Ctx) (pred : BitVec 7) (sense : Bool) : Bool :=
  if pred = 0x7F then true else (x.pred pred.toNat).getLsbD 0 != sense

/-- The guard value of an element-wise operation (R206). -/
def Ctx.guardVal (x : Ctx) (pred : BitVec 7) : Option PReg :=
  if pred = 0x7F then none else some (x.pred pred.toNat)

/-- The latched value of a slot's source field (R31). -/
def Ctx.latch (x : Ctx) (sl : Slot) (f : Nat) : Option Held := tget none x.holds (4 * sl.num + f)

/-- The long-immediate word broadcast to every 32-bit lane (Table 9.3). -/
def immLanes (imm : BitVec 32) : Nat := packNat 32 (List.replicate 256 imm.toNat)

/-- The long-immediate word as a scalar source (Table 9.3). -/
def immScalar (imm : BitVec 32) : Nat := wrapN (sext imm.toNat 32) 64

/-- The value of a field of a slot word: a register, the long-immediate word, a latched value, or the number itself
(R171, R194). -/
def Ctx.field (x : Ctx) (imm : BitVec 32) (sl : Slot) (f : Field) : Nat :=
  match f.role with
  | .src c takesImm held =>
    if takesImm && f.val = 0xFE then (match c with | .v => immLanes imm | _ => immScalar imm)
    else if held && f.val = 0xFF then (match x.latch sl f.idx with | some h => h.val | none => 0)
    else x.reg c f.val
  | .push => x.reg .v f.val
  | _ => f.val

/-- The class of the register that a source field names (Table 2.2): a register, the first register of SMPUSH, or an accumulator
tile read. A tile handle is never held, and does not release a latch (log 77). -/
def Field.names (f : Field) : Option Cls :=
  match f.role with
  | .src c _ _ => if f.val < c.count then some c else none
  | .push => some .v
  | .acc => if f.val < Cls.a.count then some .a else none
  | _ => none

/-- Latches a field of an operation that has read its sources in `x0`: a hold bit latches the value, a register named
without one releases the latch (R31). -/
def holdField (x0 : Ctx) (imm : BitVec 32) (sl : Slot) (t : Tbl (Option Held)) (f : Field) : Tbl (Option Held) :=
  match f.names with
  | some c => tset none t (4 * sl.num + f.idx) (if f.hold then some ⟨c, x0.field imm sl f⟩ else none)
  | none => t

/-- The hold latches of a context after an operation of a form (R31): REL releases the latches of the slot set before,
then the hold bits set theirs. -/
def holdStep (x0 : Ctx) (imm : BitVec 32) (f : Form) (t : Tbl (Option Held)) : Tbl (Option Held) :=
  let t := if f.rel then (upto 4).foldl (fun t i => tset none t (4 * f.slot.num + i) none) t else t
  f.flds.foldl (holdField x0 imm f.slot) t

/-! Tokens (R74). -/

/-- Token `k` of a context. -/
def Ctx.token (x : Ctx) (k : Nat) : Tok := tget {} x.tok k

/-- Writes token `k`. -/
def Ctx.setToken (x : Ctx) (k : Nat) (t : Tok) : Ctx := { x with tok := tset {} x.tok k t }

/-- The token number of a token field, none for 0x7F (R170). -/
def tokNum (k : BitVec 7) : Option Nat := if k.toNat < 64 then some k.toNat else none

/-- Makes a token pending for the operation of a serial number (R74); its failure record is lost (R342). -/
def Ctx.produce (x : Ctx) (k : Option Nat) (id : Nat) : Ctx :=
  match k with
  | some k => x.setToken k ⟨true, id, none⟩
  | none => x

/-- Completes the token of the operation of a serial number, with its failure if it has one (R74, R342). -/
def Ctx.complete (x : Ctx) (k : Option Nat) (id : Nat) (fail : Option Rec) : Ctx :=
  match k with
  | some k => if (x.token k).prod = id && (x.token k).pending then x.setToken k ⟨false, id, fail⟩ else x
  | none => x

/-- Is a token complete? -/
def Ctx.tokDone (x : Ctx) (k : Option Nat) : Bool :=
  match k with
  | some k => !(x.token k).pending
  | none => true

/-- The failure record of a completed token. -/
def Ctx.tokFail (x : Ctx) (k : Option Nat) : Option Rec :=
  match k with
  | some k => if (x.token k).pending then none else (x.token k).fail
  | none => none

/-! Results in flight (R54, R352). -/

/-- Puts a result in flight that lands `lat` column cycles from now; a result of `s0` sets no bit (R68). -/
def State.land (s : State) (c : Nat) (sl : Slot) (cls : Cls) (n lat : Nat) (v : Option Nat) (src : Nat) : State :=
  if cls = .s && n = 0 && src = 0 then s
  else s.updCtx c fun x => { x with inflight := x.inflight ++ [⟨cls, n, s.now c + lat, v, src, sl⟩] }

/-- The result of a form's destination field. -/
def State.result (s : State) (c : Nat) (f : Form) (cls : Cls) (v : Nat) : State :=
  s.land c f.slot cls f.dst f.lat (some v) 0

/-- The first result in flight whose destination is a register, tile or latch; `s0` never carries a bit. -/
def Ctx.busy (x : Ctx) (cls : Cls) (n : Nat) : Option Landing :=
  if cls = .s && n = 0 then none
  else findFirst (fun l => l.cls = cls && l.idx = n) x.inflight

/-! Faults (23). -/

/-- What is known of a fault where it is found: the fields of Table 23.4 that the context does not give, and the words
of Table 23.3. -/
structure FaultInfo where
  cls  : Nat
  code : Nat
  sub  : Nat := 0
  slot : Nat := 15
  tok  : Nat := 0x7F
  adr  : Nat := 0
  opa  : Nat := 0
  opb  : Nat := 0
  opc  : Nat := 0
  pc   : Nat := 0
  delayed : Bool := false
  /-- The serial number of an operation that has issued, for a fault after issue (R334). -/
  id   : Nat := 0
  deriving DecidableEq, Repr

/-- The fault record of Tables 23.3 and 23.4, for a context at its present level; HELD is filled in at delivery. -/
def mkRec (c : Nat) (x : Ctx) (f : FaultInfo) : Rec :=
  { w0 := BitVec.ofNat 64 (f.cls % 2 ^ 8 + x.part % 16 * 2 ^ 12 + f.tok % 128 * 2 ^ 16 + b2n f.delayed * 2 ^ 25 +
      x.level.num * 2 ^ 26 + f.slot % 16 * 2 ^ 28 + c % 512 * 2 ^ 32 + f.sub % 128 * 2 ^ 41 + f.code % 2 ^ 16 * 2 ^ 48),
    pc := BitVec.ofNat 64 f.pc, adr := BitVec.ofNat 64 f.adr, opa := BitVec.ofNat 64 f.opa,
    opb := BitVec.ofNat 64 f.opb, opc := BitVec.ofNat 64 f.opc }

/-- CLASS of a record. -/
def Rec.cls (r : Rec) : Nat := r.w0.toNat % 256
/-- CODE of a record. -/
def Rec.code (r : Rec) : Nat := r.w0.toNat / 2 ^ 48
/-- TOKEN of a record. -/
def Rec.tokenNum (r : Rec) : Nat := r.w0.toNat / 2 ^ 16 % 128
/-- A record with HELD (Table 23.4) set as given. -/
def Rec.withHeld (r : Rec) (b : Bool) : Rec :=
  { r with w0 := BitVec.ofNat 64 (r.w0.toNat - r.w0.toNat / 2 ^ 24 % 2 * 2 ^ 24 + b2n b * 2 ^ 24) }

/-- Is a landing the result of a register, not the window of an accumulator tile or latch? -/
def Landing.isReg (l : Landing) : Bool := !(l.cls = .a) && !(l.cls = .l)

/-- An empty snapshot buffer (R336) into which the hold latches, the loop stack with `depth`, and the declared ratio of
a context have been moved. -/
def snapOf (x : Ctx) (mark : Nat) : Snap :=
  { results := [], heldL := [], heldW := [], holds := x.holds, loops := x.loops, depth := x.depth, ratio := x.ratio,
    mark := mark, wins := x.inflight.filter fun l => !l.isReg && decide (l.src = 0) }

/-- Where the operation of a fault after issue stands in the order of issue (R334): a bundle's operations take their serial
numbers in the order of its slots, and a TRAP, of the lowest slot, comes before the one of the serial number it notes. -/
def FaultInfo.order (f : FaultInfo) : Nat := if f.cls = 0x0D then 2 * f.id else 2 * f.id + 1

/-- Does the fault being delivered give way to one found after issue (R334): in the same cycle, of an operation that issued
earlier? -/
def Freeze.yields (f : Freeze) (before : Bool) (found : Nat × Nat) : Bool :=
  !before && (match f.fault, f.found with
    | some (_, _, false), some o => o.1 = found.1 && decide (found.2 < o.2)
    | _, _ => false)

/-- The snapshot buffer of a context that freezes (R336): its hold latches, loop stack and ratio, the results still to be
replayed with their tags, and what an urgent stop has put there. -/
def Ctx.snapNow (x : Ctx) (mark : Nat) : Snap :=
  match x.snap with
  | some sn => { snapOf x sn.mark with results := sn.results ++ x.replay, heldL := sn.heldL, heldW := sn.heldW }
  | none => { snapOf x mark with results := x.replay }

/-- A context that takes a fault at freeze cycle `f` (R335, R336): FROZEN with the record, its context state in the snapshot
buffer. One that is already being delivered a fault keeps the first record, but for one of the same cycle whose operation
issued earlier (R334). -/
def Ctx.freezeAt (x : Ctx) (r : Rec) (f mark : Nat) (before : Bool) (found : Nat × Nat) : Ctx :=
  match x.frz.fault with
  | some o =>
    if x.frz.yields before found then { x with frz := { x.frz with fault := some (r, o.2.1, false), found := some found } } else x
  | none =>
    { x with st := .frozen, snap := some (x.snapNow mark), holds := [], loops := [], depth := 0, ratio := 0, replay := [],
             block := .none,
             frz := { x.frz with fault := some (r, f, before), found := if before then x.frz.found else some found } }

/-- Did the column of a context step in this scheduler cycle (R119)? -/
def Col.stepped (x : Col) : Bool := decide (x.frac < x.q)

/-- Is the machine past the events of its scheduler cycle, so that what it finds is found in the next (R335)? -/
def State.issuing (s : State) : Bool := s.phase = .issue || s.phase = .clock

/-- The freeze cycle of a fault found after issue now (R335): the first cycle of the column in which the context has issued
no bundle. What queues, pipes, routines and engines find while a cycle ends is found in the next. -/
def State.freezeCol (s : State) (c : Nat) : Nat :=
  if s.issuing || !(s.col (colOf c)).stepped then s.now c + 1 else s.now c

/-- The scheduler cycle in which a fault after issue is found now. -/
def State.foundIn (s : State) : Nat := if s.issuing then s.cycle + 1 else s.cycle

/-- TAKING A FAULT: the one operation every fault goes through (R335). `before`: it was found before issue or at the
consumer, so that TRETPC is the faulting bundle (R338, R349). -/
def State.takeFault (s : State) (c : Nat) (f : FaultInfo) (before : Bool) : State :=
  let x := s.ctx c
  if x.st = .empty || x.st = .retired || x.st = .dormant || x.dying.isSome then s
  else
    let s := s.setCtx c
      (x.freezeAt (mkRec c x f) (if before then s.now c else s.freezeCol c) s.serial before (s.foundIn, f.order))
    match s.cur with
    | some k => if k.ctx = c && before then { s with cur := none } else s
    | none => s

/-- Captures a result of a frozen context into its snapshot buffer, tagged r = L − F (R336). -/
def Ctx.capture (x : Ctx) (l : Landing) (f : Nat) : Ctx :=
  match x.snap with
  | some sn => { x with snap := some { sn with results := sn.results ++ [{ l with due := l.due - f }] } }
  | none => x

/-- The tenant of a context. -/
def State.tenantOf (s : State) (x : Ctx) : Tenant := tget {} (s.part x.part).tenants x.tenant

/-- TVEC of the tenant of a context (R337). -/
def State.tvec (s : State) (x : Ctx) : Word := (s.tenantOf x).tvec

/-- A SHSEAL whose fault is delivered leaves the buffer, its destination unwritten (Table 24.5). -/
def Ctx.dropSeal (x : Ctx) (r : Rec) : Ctx :=
  match x.snap with
  | some sn =>
    match sn.heldL with
    | e :: l =>
      if r.cls = 7 && (r.code = 0x0301 || r.code = 0x0302) && r.pc.toNat = e.pc then
        { x with snap := some { sn with heldL := l, results := sn.results.filter fun a => !(a.src = e.id) } }
      else x
    | [] => x
  | none => x

/-- Does the buffer hold entries (Table 23.4)? -/
def Ctx.holdsEntries (x : Ctx) : Bool :=
  match x.snap with | some sn => !sn.heldL.isEmpty || !sn.heldW.isEmpty | none => false

/-- Delivery of a fault at level U to the trap handler (R338): the trap registers written, TRETPC, TSTAT, level S, and
control at TVEC. The context's pc names the faulting bundle when the fault was found before issue or at
the consumer, and the first bundle not issued otherwise. -/
def Ctx.enterTrap (x : Ctx) (r : Rec) (tvec : Word) : Ctx :=
  let x := x.dropSeal r
  let held := x.holdsEntries
  let x := if r.cls = 0x0C && r.tokenNum < 64 then
      x.setToken r.tokenNum { x.token r.tokenNum with fail := none } else x
  { x with flt := r.withHeld held, tretpc := BitVec.ofNat 64 x.pc,
           heldBit := held, intrap := true, plevel := .U, level := .S, pc := tvec.toNat % 2 ^ 56, st := .ready,
           exitHeld := x.exiting, exiting := false, frz := { x.frz with fault := none } }

/-- Termination begins (R341): the context waits for its commands and calls, and CONTEXT_TERMINATE ends it. -/
def Ctx.beginDeath (x : Ctx) (r : Rec) : Ctx :=
  { x with dying := some (r.withHeld (x.dropSeal r).holdsEntries),
           st := .frozen, frz := { x.frz with fault := none } }

/-- RETURNING FROM A TRAP (R340): level, INTRAP, the program counter, and the snapshot buffer's contents go back; the
captured results are to be replayed from the next bundle's issue on. -/
def Ctx.trapReturn (x : Ctx) : Ctx :=
  let x := { x with level := x.plevel, intrap := false, pc := x.tretpc.toNat % 2 ^ 56, heldBit := false,
                    exiting := x.exiting || x.exitHeld, exitHeld := false }
  match x.snap with
  | some sn =>
    { x with holds := sn.holds, loops := sn.loops, depth := sn.depth, ratio := sn.ratio,
             loadQ := sn.heldL ++ x.loadQ, storeQ := sn.heldW ++ x.storeQ, replay := sn.results, snap := none }
  | none => x

/-- A result whose landing cycle has come and whose value is there. -/
def Landing.isDue (l : Landing) (now : Nat) : Bool := l.isReg && decide (l.due ≤ now) && l.val.isSome

/-- Is a landing the window of an accumulator tile or latch that has ended? That of a call or of a LATLD that has not read
goes on (R234, R242). -/
def Landing.isOver (l : Landing) (now : Nat) : Bool := !l.isReg && decide (l.due ≤ now) && (l.src = 0 || l.val.isSome)

/-- The landings that column cycle `now` leaves in flight. -/
def Ctx.stillUp (x : Ctx) (now : Nat) : List Landing := x.inflight.filter fun l => !l.isDue now && !l.isOver now

/-- Lands every result due by column cycle `now` (R54). -/
def Ctx.landDue (x : Ctx) (now : Nat) : Ctx :=
  (x.inflight.filter fun l => l.isDue now).foldl
    (fun x l => match l.val with | some v => x.setReg l.cls l.idx v | none => x)
    { x with inflight := x.stillUp now }

/-- Captures every result due by column cycle `now` into the snapshot buffer of a context that froze at `f` (R336). -/
def Ctx.captureDue (x : Ctx) (now f : Nat) : Ctx :=
  (x.inflight.filter fun l => l.isDue now).foldl (fun x l => x.capture l f) { x with inflight := x.stillUp now }

/-- Captures every result due by column cycle `now` of a context stopped urgently at `f` (R343). -/
def Ctx.captureUrgent (x : Ctx) (now f : Nat) : Ctx :=
  { x with inflight := x.stillUp now,
           ucap := x.ucap ++ (x.inflight.filter fun l => l.isDue now).map fun l => { l with due := l.due - f } }

/-- At the first bundle that issues after a resumption, at column cycle F′, each captured result is put in flight to
land at F′ + r (R336, R340); those of r = 0 are readable by that bundle, so they are written at once. -/
def Ctx.replayAt (x : Ctx) (now : Nat) : Ctx :=
  let x' := { x with replay := [], inflight := x.inflight ++
    ((x.replay.filter fun l => l.due ≠ 0 || l.val.isNone).map fun l => { l with due := now + l.due }) }
  (x.replay.filter fun l => l.due = 0).foldl
    (fun x l => match l.val with | some v => x.setReg l.cls l.idx v | none => x) x'

/-! The TDI of a partition (R309, R378). -/

/-- A TDI enters ERROR: every context of the partition is frozen, and vector 49 is raised (R378). -/
def State.tdiEnterError (s : State) (p : Nat) : State :=
  let s := s.updPart p fun q => { q with tdi := .error }
  let freeze := fun (x : Ctx) =>
    if x.part = p && !(x.st = .empty) then { x with st := .frozen, frz := { x.frz with tdi := true } } else x
  (s.mapCtxs fun _ x => freeze x).raise 49

end Sys2Proof.Machine
end

