-- ==== Sys2Proof/Machine/Mem.lean ====
section
/-! DEFINITION. Memory: physical addresses and channels (R132, R133), zero-line elision (R144), the L2 slices (R134 to
R138), tiles (R123 to R129), and what a reader sees of stores on their way (R149, R150). -/

namespace Sys2Proof.Machine

open Sys2Proof

/-! Physical memory. -/

/-- Bytes of a memory channel, 1.5 GiB (R132). -/
def chanBytes : Nat := 3 * 2 ^ 29

/-- The partition of a device physical address (Table 7.3). -/
def paPart (pa : Nat) : Nat := pa / 2 ^ 47 % 16
/-- The partition offset of a device physical address. -/
def paOff (pa : Nat) : Nat := pa % 2 ^ 47
/-- Does a physical address name host memory (Table 7.3)? -/
def paHost (pa : Nat) : Bool := decide (2 ^ 51 ≤ pa)
/-- The physical address of an offset of a partition. -/
def devPa (part off : Nat) : Nat := part * 2 ^ 47 + off

/-- The page of a physical address in the state bits of R376. -/
def pageOf (pa : Nat) : Nat := pa / 65536

/-- The channel of a device address and the address there (R133). -/
def State.chanOf (s : State) (pa : Nat) : Option (Nat × Nat) :=
  let p := s.part (paPart pa)
  let nc := p.chans.length
  let o := paOff pa
  if 12 ≤ paPart pa || nc * chanBytes ≤ o then none
  else
    match p.chans[o / 512 % nc]? with
    | some ch => some (ch, o / (512 * nc) * 512 + o % 512)
    | none => none

/-- Where a physical byte stands in `mem`; none when the address maps nothing (R132). -/
def State.memKey (s : State) (pa : Nat) : Option Nat :=
  if paHost pa then some pa
  else match s.chanOf pa with
    | some (ch, a) => some (ch * chanBytes + a)
    | none => none

/-- The byte of memory at a key; one that nothing has written reads as zero (log 3). -/
def State.cell (s : State) (k : Nat) : Byte := tget 0 s.mem k

/-- The form of a memory list: addresses strictly rising, no entry equal to what an unlisted address reads as. -/
def Memory.wf (m : List Host.Cell) : Bool := twf (0 : Byte) m

/-- The byte of memory at a physical address; zero where it maps nothing. -/
def State.rawByte (s : State) (pa : Nat) : Byte :=
  match s.memKey pa with
  | some k => s.cell k
  | none => 0

/-- Writes the byte of memory at a physical address; nothing where it maps nothing. -/
def State.setRawByte (s : State) (pa : Nat) (b : Byte) : State :=
  match s.memKey pa with
  | some k => { s with mem := tset (0 : Byte) s.mem k b }
  | none => s

/-- Bytes of memory from a physical address on. -/
def State.rawBytes (s : State) (pa n : Nat) : List Byte := (upto n).map fun i => s.rawByte (pa + i)

/-- Writes bytes of memory from a physical address on. -/
def State.setRawBytes (s : State) (pa : Nat) : List Byte → State
  | [] => s
  | b :: l => (s.setRawByte pa b).setRawBytes (pa + 1) l

/-- A 64-bit word of memory. -/
def State.rawWord (s : State) (pa : Nat) : Nat := ofBytes (s.rawBytes pa 8)

/-- Adds demand to a governed instance in this window (R111). -/
def State.addDemand (s : State) (cls inst n : Nat) : State :=
  { s with demand := tset 0 s.demand (1024 * cls + inst) (tget 0 s.demand (1024 * cls + inst) + n) }

/-- Supply of an instance in a window (Table 6.5); classes 0 and 1 step down with the column's clock. -/
def State.supply (s : State) (x : Nat × Nat) : Nat :=
  match x.1 with
  | 0 => 32 * (s.col (x.2 / 4)).q
  | 1 => 16384 * (s.col x.2).q
  | 2 => 16384
  | 3 => 178
  | _ => (s.col x.2).share

/-! Elision (R144). -/

/-- The physical address of the bitmap byte of a line, and the bit there. -/
def State.elideAt (s : State) (pa : Nat) : Nat × Nat :=
  let o := paOff pa
  let i := o % 65536 / 128
  (devPa (paPart pa) ((s.part (paPart pa)).meta_ * 65536 + 64 * (o / 65536) + i / 8), i % 8)

/-- The bitmap bit of a line. -/
def State.elideBit (s : State) (pa : Nat) : Bool := (s.rawByte (s.elideAt pa).1).getLsbD (s.elideAt pa).2

/-- Writes the bitmap bit of a line, in memory (R144, log 87). -/
def State.setElideBit (s : State) (pa : Nat) (b : Bool) : State :=
  let (a, i) := s.elideAt pa
  let old := (s.rawByte a).toNat
  s.setRawByte a (BitVec.ofNat 8 (old - old / 2 ^ i % 2 * 2 ^ i + b2n b * 2 ^ i))

/-- A line of 128 bytes at the memory port, through a leaf with or without the elision attribute. -/
def State.portRead (s : State) (line : Nat) (elide : Bool) : List Byte :=
  if elide && !s.elideBit (128 * line) then List.replicate 128 0 else s.rawBytes (128 * line) 128

/-- A write of a line at the memory port (R144). -/
def State.portWrite (s : State) (line : Nat) (elide : Bool) (d : List Byte) : State :=
  if elide then
    if d.all (· == 0) then s.setElideBit (128 * line) false
    else (s.setRawBytes (128 * line) d).setElideBit (128 * line) true
  else s.setRawBytes (128 * line) d

/-- Asks the channel of a line for its two bursts (R111 class 3, R133). -/
def State.burst (s : State) (line : Nat) : State :=
  match s.chanOf (128 * line) with
  | some (ch, _) => if paHost (128 * line) then s else s.addDemand 3 ch 2
  | none => s

/-- A line is read at the memory port: no burst when it is elided (R144, R145). -/
def State.burstRead (s : State) (line : Nat) (elide : Bool) : State :=
  if elide && !s.elideBit (128 * line) then s else s.burst line

/-- A line is written at the memory port: no burst when it is elided (R144, R145). -/
def State.burstWrite (s : State) (line : Nat) (elide : Bool) (d : List Byte) : State :=
  if elide && d.all (· == 0) then s else s.burst line

/-! The L2 slices (R134 to R138). -/

/-- Who makes an access at a slice and through what leaf: the owner charged, the partition of the issuing context, the
PIN slice, the elision attribute, whether a line may be allocated (R308), and whether it is non-temporal (R247). -/
structure Port where
  owner : Nat
  part  : Nat
  pin   : Option Nat := none
  elide : Bool := false
  cache : Bool := true
  nt    : Bool := false
  deriving DecidableEq, Repr

/-- The home slice of a line (R134); none when the partition holds no slice. -/
def State.home (s : State) (p : Port) (line : Nat) : Option Nat :=
  match p.pin with
  | some sl => some sl
  | none =>
    let l := (s.part p.part).slices
    l[line / 64 % l.length]?

/-- The key of the set of a line in a slice (R134). -/
def setKey (slice line : Nat) : Nat := 64 * slice + line % 64

/-- A set of a slice. -/
def State.l2set (s : State) (k : Nat) : L2Set := tget {} s.l2 k
/-- Replaces a set of a slice. -/
def State.setL2 (s : State) (k : Nat) (x : L2Set) : State := { s with l2 := tset {} s.l2 k x }

/-- Is a way valid and of the current generation of the partition (R128)? -/
def State.wayLive (s : State) (part : Nat) (w : Option Way) : Bool :=
  match w with
  | some w => w.gen = (s.part part).l2gen
  | none => false

/-- The way of a set that holds a line, valid and current. -/
def State.findWay (s : State) (part : Nat) (x : L2Set) (line : Nat) : Option Nat :=
  findFirst (fun i => match tget none x.ways i with
    | some w => w.line = line && s.wayLive part (some w)
    | none => false) (upto 16)

/-- The way mask of an owner in a slice (R136). -/
def State.maskOf (s : State) (o slice : Nat) : Nat := tget 0xFFFF (s.owner o).masks slice

/-- Adds to the occupancy count of an owner in a slice (R138). -/
def State.addOcc (s : State) (slice o : Nat) (up : Bool) : State :=
  let n := tget 0 s.occ (256 * slice + o)
  { s with occ := tset 0 s.occ (256 * slice + o) (if up then n + 1 else n - 1) }

/-- Moves a way to the most recent end of its set. -/
def L2Set.touch (x : L2Set) (w : Nat) : L2Set := { x with recency := (x.recency.filter (· ≠ w)) ++ [w] }

/-- The fields of a unit descriptor (Table 25.8). -/
structure UnitD where
  struct : Nat
  unit   : Nat
  loc    : Nat
  deriving DecidableEq, Repr

/-- A descriptor's fields. -/
def unitD (v : Nat) : UnitD := ⟨v / 2 ^ 60 % 16, bits v 59 48, v % 2 ^ 48⟩

/-- The context a descriptor of STRUCT 5, 6, 14 or 15 names. -/
def UnitD.ctx (u : UnitD) : Nat := 4 * u.unit + bits u.loc 17 16

/-- Structures of Table 25.5 that Table 25.8 gives no number stand under STRUCT 15 for the outside's errors (log 90), by core, with
context-in-core in [17:16] and a kind in [3:0]: 5 the routine table, 6 the first-level TLB, entry in [13:8]; every other kind a
register-like structure of the context (address-generator sets, parameter registers, predicates, hold latches, loop stack). -/
def UnitD.isStore (u : UnitD) : Bool := u.struct = 9 || (u.struct = 15 && u.loc % 16 = 5)
/-- Is the unit an entry of a TLB? -/
def UnitD.isTlb (u : UnitD) : Bool := u.struct = 11 || (u.struct = 15 && u.loc % 16 = 6)
/-- Is the unit a structure of a core (R382)? -/
def UnitD.inCore (u : UnitD) : Bool := u.struct = 3 || decide (5 ≤ u.struct ∧ u.struct ≤ 9) || decide (14 ≤ u.struct)
/-- Is the unit a register of a context, or another structure that holds its state? -/
def UnitD.inCtx (u : UnitD) : Bool :=
  u.struct = 5 || u.struct = 6 || u.struct = 14 || (u.struct = 15 && !u.isStore && !u.isTlb)

/-- The clock that times the self-test of a unit (R5, R382): its column's for a core's or a quad's structure. -/
def State.testNow (s : State) (u : UnitD) : Nat :=
  match u.struct with
  | 3 => (s.col (u.unit / 4)).cycles
  | 5 => (s.col (u.unit / 4)).cycles
  | 6 => (s.col (u.unit / 4)).cycles
  | 7 => (s.col (u.unit / 4)).cycles
  | 8 => (s.col (u.unit / 4)).cycles
  | 9 => (s.col (u.unit / 4)).cycles
  | 12 => (s.col u.unit).cycles
  | 13 => (s.col u.unit).cycles
  | 14 => (s.col (u.unit / 4)).cycles
  | 15 => (s.col (u.unit / 4)).cycles
  | _ => s.cycle

/-- Is a unit out of service for its self-test (R382)? -/
def State.testing (s : State) (hit : UnitD → Bool) : Bool :=
  s.tests.any fun t => decide (s.testNow (unitD t.desc.toNat) < t.ends) && hit (unitD t.desc.toNat)

/-- Does a descriptor name a frame of a set, its data or its tag? -/
def UnitD.frame (u : UnitD) (key way : Nat) : Bool :=
  decide (u.struct ≤ 1) && 64 * u.unit + bits u.loc 9 4 = key && u.loc % 16 = way

/-- The victim way for an owner's mask (R136, R381, R382): the lowest way of the mask that is invalid or stale, else the
least recent of the mask; quarantined frames and frames under test are passed over. -/
def State.victim (s : State) (part key : Nat) (x : L2Set) (mask : Nat) : Option Nat :=
  let ok := fun w => mask.testBit w && !x.quar.contains w && !s.testing (fun u => u.frame key w)
  match findFirst (fun w => ok w && !s.wayLive part (tget none x.ways w)) (upto 16) with
  | some w => some w
  | none => findFirst ok x.recency

/-- The bytes of a way's line. -/
def Way.bytes (w : Way) : List Byte := toBytes 128 w.data

/-- Replaces bytes of a list from an offset on. -/
def splice (l : List Byte) (off : Nat) (d : List Byte) : List Byte := l.take off ++ d ++ l.drop (off + d.length)

/-- Writes back a way's line to memory if it is valid, dirty and current. -/
def State.writeBack (s : State) (part : Nat) (w : Option Way) : State :=
  match w with
  | some x => if x.dirty && s.wayLive part w then (s.portWrite x.line x.elide x.bytes).burstWrite x.line x.elide x.bytes else s
  | none => s

/-- Fills a line into the owner's ways of a set (R136), and gives the way; none when the owner may fill none. -/
def State.fill (s : State) (p : Port) (slice line : Nat) : State × Option Nat :=
  let k := setKey slice line
  let x := s.l2set k
  match s.victim p.part k x (s.maskOf p.owner slice) with
  | none => (s, none)
  | some v =>
    let old := tget none x.ways v
    let s := s.writeBack p.part old
    let s := if s.wayLive p.part old then
        (match old with | some o => s.addOcc slice o.owner false | none => s) else s
    let s := s.burstRead line p.elide
    let poison := match s.memKey (128 * line) with
      | some k => s.pkg.poison.contains (k / 128)
      | none => false
    let w : Way := { dirty := false, line := line, owner := p.owner, gen := (s.part p.part).l2gen, elide := p.elide,
                     poison := poison, data := ofBytes (s.portRead line p.elide) }
    let s := s.addOcc slice p.owner true
    (s.setL2 k ({ x with ways := tset none x.ways v (some w) }.touch v), some v)

/-- A line as an access of the port reads it, and whether memory was asked (R136). -/
def State.l2Read (s : State) (p : Port) (line : Nat) : State × List Byte × Bool :=
  match s.home p line with
  | none => (s.burstRead line p.elide, s.portRead line p.elide, true)
  | some sl =>
    let k := setKey sl line
    let x := s.l2set k
    match s.findWay p.part x line with
    | some w =>
      let d := match tget none x.ways w with | some y => y.bytes | none => []
      (if (s.maskOf p.owner sl).testBit w then s.setL2 k (x.touch w) else s, d, false)
    | none =>
      if !p.cache then (s.burstRead line p.elide, s.portRead line p.elide, true)
      else
        match s.fill p sl line with
        | (s, some v) =>
          (s, (match tget none (s.l2set k).ways v with | some y => y.bytes | none => []), true)
        | (s, none) => (s.burstRead line p.elide, s.portRead line p.elide, true)

/-- Merges bytes into a way's line and marks it dirty; a write of the whole line clears its poison (R377). -/
def Way.merge (w : Way) (off : Nat) (d : List Byte) : Way :=
  { w with dirty := true, data := ofBytes (splice w.bytes off d), poison := w.poison && d.length ≠ 128 }

/-- Clears the poison of a line of memory that a write covers whole. -/
def State.unpoison (s : State) (line : Nat) (d : List Byte) : State :=
  if d.length = 128 then
    match s.memKey (128 * line) with
    | some k => s.updPkg fun q => { q with poison := q.poison.filter (· ≠ k / 128) }
    | none => s
  else s

/-- Writes bytes straight to memory. -/
def State.memWrite (s : State) (p : Port) (line off : Nat) (d : List Byte) : State :=
  let b := splice (s.portRead line p.elide) off d
  ((s.portWrite line p.elide b).burstWrite line p.elide b).unpoison line d

/-- A write of bytes within one line by an access of the port (R136, R247). -/
def State.l2Write (s : State) (p : Port) (line off : Nat) (d : List Byte) : State :=
  match s.home p line with
  | none => s.memWrite p line off d
  | some sl =>
    let k := setKey sl line
    let x := s.l2set k
    let put := fun (s : State) (x : L2Set) (w : Nat) =>
      match tget none x.ways w with
      | some y => (s.setL2 k { x with ways := tset none x.ways w (some (y.merge off d)) }).unpoison line d
      | none => s
    match s.findWay p.part x line with
    | some w => put s (if (s.maskOf p.owner sl).testBit w && !p.nt then x.touch w else x) w
    | none =>
      if !p.cache || p.nt then s.memWrite p line off d
      else
        match s.fill p sl line with
        | (s, some v) => put s (s.l2set k) v
        | (s, none) => s.memWrite p line off d

/-- Bytes at a physical address read through the slices, line by line. -/
def State.readPa (s : State) (p : Port) (pa n : Nat) : State × List Byte :=
  let l0 := pa / 128
  let l1 := (pa + n - 1) / 128
  (upto (if n = 0 then 0 else l1 + 1 - l0)).foldl (fun (acc : State × List Byte) i =>
    let r := acc.1.l2Read p (l0 + i)
    let lo := if i = 0 then pa % 128 else 0
    (r.1, acc.2 ++ (r.2.1.drop lo).take (n - acc.2.length))) (s, [])

/-- Writes bytes within one line, or across lines, through the slices. -/
def State.writePa (s : State) (p : Port) (pa : Nat) (d : List Byte) : State :=
  let l0 := pa / 128
  let l1 := (pa + d.length - 1) / 128
  (upto (if d.isEmpty then 0 else l1 + 1 - l0)).foldl (fun s i =>
    let lo := if i = 0 then pa % 128 else 0
    let from_ := if i = 0 then 0 else 128 * (l0 + i) - pa
    s.l2Write p (l0 + i) lo ((d.drop from_).take (128 - lo))) s

/-- The bytes an agent would read at a physical address, changing nothing: the line of the home slice if it holds it,
memory otherwise (the device's own reads of tables and code, log 6). -/
def State.peekByte (s : State) (p : Port) (pa : Nat) : Byte :=
  let line := pa / 128
  let mem := (fun _ : Unit => if p.elide && !s.elideBit (128 * line) then 0 else s.rawByte pa)
  match s.home p line with
  | none => mem ()
  | some sl =>
    let x := s.l2set (setKey sl line)
    match s.findWay p.part x line with
    | some w => (match tget none x.ways w with | some y => BitVec.ofNat 8 (y.data / 256 ^ (pa % 128)) | none => 0)
    | none => mem ()

/-- Bytes read without any change. -/
def State.peek (s : State) (p : Port) (pa n : Nat) : List Byte := (upto n).map fun i => s.peekByte p (pa + i)

/-- The device's own port for the tables and records of a partition. -/
def ownPort (part : Nat) : Port := { owner := 0, part := part, cache := false }

/-- A 64-bit word of a partition's device memory, as the device reads its tables. -/
def State.peekWord (s : State) (part pa : Nat) : Nat := ofBytes (s.peek (ownPort part) pa 8)

/-! Writes that must wait or are refused, and the device's own writes (R307, R309, R377, R381). -/

/-- Does a Fareri switch hold a word of this package that an access touches (R160, R377)? -/
def State.marked (s : State) (pa n : Nat) : Bool :=
  (upto (if n = 0 then 0 else (pa + n - 1) / 8 + 1 - pa / 8)).any fun i => match s.memKey (8 * (pa / 8 + i)) with
    | some k => s.pkg.marks.any fun m => m.1 = k / 8
    | none => false

/-- The partition whose second-stage tables a page of device memory holds, write-protected while its TDI is locked (R309). -/
def State.guardOf (s : State) (pa : Nat) : Option Nat :=
  if paHost pa then none else (s.parts.find? fun e => e.2.tables.contains (pageOf pa)).map Prod.fst

/-- A write to a protected page is dropped, and moves the TDI to ERROR (R309). -/
def State.guardHit (s : State) (p : Nat) : State := if (s.part p).tdi = .error then s else s.tdiEnterError p

/-- Does a slice write wait for a back-invalidation (R307)? The snoop is sent if it has not been. -/
def State.snoopFirst (s : State) (pa : Nat) : State × Bool :=
  let l := pa / 128
  if paHost pa || !s.pkg.hostHas.contains l then (s, false)
  else (s.updPkg fun k => { k with snoops := if k.snoops.contains l then k.snoops else k.snoops ++ [l] }, true)

/-- Does an access to a line through a port read the unit (STRUCT 0 to 2)? A tag is read by every search of its set, the
data of a frame by a hit, or by the write-back of the dirty victim of a fill; device memory by a miss. -/
def State.lineHit (s : State) (p : Port) (line : Nat) (write : Bool) (u : UnitD) : Bool :=
  match s.home p line with
  | none => u.struct = 2 && u.loc = line
  | some sl =>
    let k := setKey sl line
    let x := s.l2set k
    let w := s.findWay p.part x line
    match u.struct with
    | 0 => u.frame k (u.loc % 16) && (w = some (u.loc % 16) ||
        (w.isNone && p.cache && !(write && p.nt) && s.victim p.part k x (s.maskOf p.owner sl) = some (u.loc % 16) &&
          (match tget none x.ways (u.loc % 16) with | some y => y.dirty && s.wayLive p.part (some y) | none => false)))
    | 1 => u.frame k (u.loc % 16)
    | 2 => w.isNone && u.loc = line
    | _ => false

/-- The lines that bytes touch. -/
def linesOf (pa n : Nat) : List Nat := (upto (if n = 0 then 0 else (pa + n - 1) / 128 + 1 - pa / 128)).map fun i => pa / 128 + i

/-- Does an armed error stand where an access to bytes would read it? -/
def State.armedAt (s : State) (p : Port) (pa n : Nat) (write : Bool) : Bool :=
  match s.pkg.armed with
  | some (d, _) => (linesOf pa n).any fun l => s.lineHit p l write (unitD d.toNat)
  | none => false

/-- How many bytes a write of the device's own takes. -/
def Posted.bytes (q : Posted) : Nat := if q.add then 8 else q.data.length

/-- One write of the device's own within a line: false while it waits, an armed error that it would read striking before it is made
(R386). A protected page, which it moves to ERROR, and a retired one
take no bytes (R309, R381). -/
def State.postedWrite (s : State) (q : Posted) : State × Bool :=
  let n := q.bytes
  let done := fun (s : State) => match q.irq with | some v => s.raise v | none => s
  match s.guardOf q.pa with
  | some g => (done (s.guardHit g), true)
  | none =>
    if s.pkg.tBits.contains (pageOf q.pa) then (done s, true)
    else if s.marked q.pa n || s.armedAt (ownPort q.part) q.pa n true then (s, false)
    else
      match s.snoopFirst q.pa with
      | (s, true) => (s, false)
      | (s, false) =>
        let d := if q.add then toBytes 8 ((s.peekWord q.part q.pa + 1) % 2 ^ 64) else q.data
        (done (s.writePa (ownPort q.part) q.pa d), true)

/-- A write of the device's own is made, or waits behind those of its line that do. -/
def State.postWrite (s : State) (q : Posted) : State :=
  let wait := fun (s : State) => s.updPkg fun k => { k with posted := k.posted ++ [q] }
  if s.pkg.posted.any fun r => r.pa / 128 = q.pa / 128 then wait s
  else
    match s.postedWrite q with
    | (s, true) => s
    | (s, false) => wait s

/-- The device's own writes that waited are made, as far as they can be. -/
def State.drainPosted (s : State) : State :=
  s.pkg.posted.foldl State.postWrite (s.updPkg fun k => { k with posted := [] })

/-- The device writes bytes of its own to a partition's memory, line by line. -/
def State.ownWrite (s : State) (part pa : Nat) (d : List Byte) : State :=
  (upto (if d.isEmpty then 0 else (pa + d.length - 1) / 128 + 1 - pa / 128)).foldl (fun s i =>
    let from_ := if i = 0 then 0 else 128 * (pa / 128 + i) - pa
    let bytes := (d.drop from_).take (128 - (pa + from_) % 128)
    s.postWrite { part := part, pa := pa + from_, data := bytes, add := false, irq := none }) s

/-- Raises a word of the partition's counter block by one (R368). -/
def State.count (s : State) (part word : Nat) : State :=
  let q := s.part part
  s.postWrite { part := part, pa := devPa part (q.meta_ * 65536 + q.chans.length * 3 * 2 ^ 19 + 8 * word), data := [], add := true,
                irq := none }

/-! Tiles (R123 to R129). -/

/-- The tile of a serial number. -/
def State.tile (s : State) (id : Nat) : Option Tile := findFirst (fun t => t.id = id) s.tiles

/-- The tile a handle of a context names, if any (R75). -/
def State.handle (s : State) (x : Ctx) (h : Nat) : Option Tile :=
  match tget 0 x.tiles h with
  | 0 => none
  | id => s.tile id

/-- Changes a tile. -/
def State.updTile (s : State) (id : Nat) (f : Tile → Tile) : State :=
  { s with tiles := mapIf (fun t => t.id = id) f s.tiles }

/-- Row pitch (R124). -/
def pitch (cols esize : Nat) : Nat := 128 * ceilDiv (cols * esize) 128
/-- Row pitch of a tile. -/
def Tile.pitch (t : Tile) : Nat := Machine.pitch t.cols t.esize
/-- Bytes of a tile, ROWS × P. -/
def Tile.bytesN (t : Tile) : Nat := t.rows * t.pitch
/-- Bytes it occupies in its pool (R124). -/
def Tile.space (t : Tile) : Nat := 4096 * ceilDiv t.bytesN 4096
/-- Bytes of a row's image (R252). -/
def Tile.rowLen (t : Tile) : Nat := t.cols * t.esize
/-- Bytes of its image (R252). -/
def Tile.imageLen (t : Tile) : Nat := t.rows * t.rowLen
/-- The byte offset in the tile of a byte of its image. -/
def Tile.imageOff (t : Tile) (i : Nat) : Nat := i / t.rowLen * t.pitch + i % t.rowLen

/-- Bytes of a tile from an offset on; unwritten ones are zero (R129). -/
def Tile.read (t : Tile) (off n : Nat) : List Byte := tgets 0 t.bytes off n

/-- Writes bytes into a tile; a row written whole is no longer poisoned (Table 25.5). -/
def Tile.write (t : Tile) (off : Nat) (d : List Byte) : Tile :=
  { t with bytes := tsets 0 t.bytes off d,
           poison := t.poison.filter fun r => !(decide (off ≤ r * t.pitch ∧ (r + 1) * t.pitch ≤ off + d.length)) }

/-- The image of a tile (R252). -/
def Tile.image (t : Tile) : List Byte := (upto t.rows).flatMap fun r => t.read (r * t.pitch) t.rowLen

/-- The tile-table entry of a tile (Table 4.4). -/
def Tile.entry (t : Tile) : Nat :=
  (match t.level with | .LOCAL => 0 | .QUIRE => 1 | .BASE => 2) * 2 ^ 62 + t.member * 2 ^ 56 +
    Nat.log2 t.esize * 2 ^ 54 + t.cols * 2 ^ 40 + t.rows * 2 ^ 20

/-- The column a tile of tile memory lies in. -/
def Tile.quad (t : Tile) : Nat := t.core / 4

/-- The quire of a serial number. -/
def State.quire (s : State) (id : Nat) : Option Quire := findFirst (fun q => q.id = id) s.quires
/-- Changes a quire. -/
def State.updQuire (s : State) (id : Nat) (f : Quire → Quire) : State :=
  { s with quires := mapIf (fun q => q.id = id) f s.quires }

/-- The level at which stores to a tile are performed everywhere it can be read (Table 7.1): 2 quad, 3 stack. A LOCAL
tile's engines lie in its quad (R149). -/
def State.tileReach (s : State) (t : Tile) : Nat :=
  match t.level with
  | .LOCAL => 2
  | .BASE => 3
  | .QUIRE => match s.quire t.quire with | some q => if q.quads ≤ 1 then 2 else 3 | none => 3

/-- Is the member whose tile memory holds a QUIRE tile resident (R254, Table 25.1 CODE 14)? -/
def State.resident (s : State) (t : Tile) : Bool :=
  match t.level with
  | .QUIRE =>
    match s.quire t.quire with
    | some q =>
      match q.st, q.members[t.member]? with
      | .running, some c => (s.ctx c).quire = q.id && !((s.ctx c).st = .saving || (s.ctx c).st = .claimed || (s.ctx c).st = .empty)
      | _, _ => false
    | none => false
  | _ => true

/-! What a reader sees (R149, R150). -/

/-- From where an agent reads: its own context and the serial number its access has, and the core, quad and stack whose
points of performance it sees. -/
structure Eye where
  own   : Option (Nat × Nat) := none
  core  : Option Nat := none
  quad  : Option Nat := none
  stack : Option Nat := none
  deriving DecidableEq, Repr

/-- A context's access with a serial number. -/
def eyeCtx (c id : Nat) : Eye := ⟨some (c, id), some (coreOf c), some (colOf c), some (stackOf c)⟩
/-- An engine or merge unit of a quad. -/
def eyeQuad (q : Nat) : Eye := ⟨none, none, some q, some (q / 8)⟩
/-- The host, and any agent that sees only what is performed at `pkg`. -/
def eyeFar : Eye := {}

/-- How far a place lies into the bytes that begin at another of the same space. -/
def Place.within (a b : Place) (n : Nat) : Option Nat :=
  match a, b with
  | .mem x _, .mem y _ => if y ≤ x ∧ x < y + n then some (x - y) else none
  | .tile i x, .tile j y => if i = j ∧ y ≤ x ∧ x < y + n then some (x - y) else none
  | .remote i x, .remote j y => if i = j ∧ y ≤ x ∧ x < y + n then some (x - y) else none
  | _, _ => none

/-- The place `i` bytes further. -/
def Place.add (p : Place) (i : Nat) : Place :=
  match p with
  | .mem a pin => .mem (a + i) pin
  | .tile t o => .tile t (o + i)
  | .remote k a => .remote k (a + i)

/-- The byte a store entry writes at a place, with the bits it writes. -/
def QEntry.byteAt (e : QEntry) (p : Place) : Option (Byte × Byte) :=
  e.units.foldl (fun r u => match p.within u.place u.data.length with
    | some i => u.data[i]?.map fun b => (b, u.mask)
    | none => r) none

/-- Do two lists of units touch a common byte? -/
def overlap (a b : List WUnit) : Bool :=
  a.any fun u => b.any fun v =>
    (u.place.within v.place v.data.length).isSome || (v.place.within u.place u.data.length).isSome

/-- How near a store of context `c` on its way stands to a reader, 0 nearest, none when the reader does not see it. -/
def Eye.sees (y : Eye) (c : Nat) (e : QEntry) : Option Nat :=
  let own := match y.own with | some (o, id) => if o = c then some (decide (e.id < id)) else none | none => none
  if own = some false then none
  else if e.reach = 0 then (if own = some true then some 0 else none)
  else if e.reach = 1 then (if y.core = some (coreOf c) then some 1 else none)
  else if e.reach = 2 then (if y.quad = some (colOf c) then some 2 else none)
  else if y.stack = some (stackOf c) then some 3 else none

/-- A store on its way as a reader sees it at a byte: how near it stands, its order there, its serial number, and what it
writes. -/
structure Seen where
  near  : Nat
  order : Nat
  id    : Nat
  byte  : Byte
  mask  : Byte
  deriving DecidableEq, Repr

/-- The stores on their way that a reader sees at a place. -/
def State.onWay (s : State) (y : Eye) (p : Place) : List Seen :=
  s.ctxs.flatMap fun cx => cx.2.storeQ.filterMap fun e =>
    match y.sees cx.1 e with
    | some d => (e.byteAt p).map fun b => ⟨d, if d = 0 then e.id else e.arr, e.id, b.1, b.2⟩
    | none => none

/-- Does a store come before another in the order a reader applies them: farther first, and at one node in order of
arrival? -/
def Seen.before (a b : Seen) : Bool := decide (b.near < a.near) || (a.near = b.near && decide (a.order < b.order))

/-- Bits of a byte replaced under a mask. -/
def mergeBits (old new mask : Byte) : Byte := (old &&& ~~~mask) ||| (new &&& mask)

/-- What stores on their way put over bytes read at home, with the serial numbers of those read. -/
def State.overlay (s : State) (y : Eye) (p : Place) (d : List Byte) : List Byte × List Nat :=
  let r := (upto d.length).map fun i =>
    let l := sortBy Seen.before (s.onWay y (p.add i))
    (l.foldl (fun b v => mergeBits b v.byte v.mask) (d.getD i 0), l.map Seen.id)
  (r.map Prod.fst, r.flatMap Prod.snd)

/-- Reads bytes at a place as a reader sees them (R150): at home, under the stores on their way. -/
def State.readPlace (s : State) (y : Eye) (p : Port) (pl : Place) (n : Nat) : State × List Byte × List Nat :=
  match pl with
  | .mem pa pin =>
    let r := s.readPa { p with pin := pin } pa n
    let o := s.overlay y pl r.2
    (r.1, o.1, o.2)
  | .tile id off =>
    let d := match s.tile id with | some t => t.read off n | none => List.replicate n 0
    let o := s.overlay y pl d
    (s, o.1, o.2)
  | .remote _ _ => (s, List.replicate n 0, [])

/-- Performs a unit at its home (R149): the slice of its line, or the tile. -/
def State.writeUnit (s : State) (p : Port) (u : WUnit) : State :=
  match u.place with
  | .mem pa pin => s.writePa { p with pin := pin, elide := u.elide, cache := u.cache } pa u.data
  | .tile id off =>
    s.updTile id fun t =>
      if u.mask = 0xFF then t.write off u.data
      else t.write off ((u.data.zip (t.read off u.data.length)).map fun e => mergeBits e.2 e.1 u.mask)
  | .remote _ _ => s

end Sys2Proof.Machine
end

