-- ==== Sys2Proof/Machine/Xlate.lean ====
section
/-! DEFINITION. Translation (R140 to R142, R312, R313) and the checks of Table 25.1; sealed code objects (R165 to R168). -/

namespace Sys2Proof.Machine

open Sys2Proof

/-- What a walk gives: a result, a cause of Table 25.1, or a host page whose translation the host has not answered. -/
inductive Walk (α : Type) where
  | ok (a : α)
  | err (code : Nat)
  | wait (page : Nat)
  deriving DecidableEq, Repr

/-- A second-stage page: log2 of its size, its physical base, and its attributes (Table 20.8). -/
structure Page2 where
  size   : Nat
  pa     : Nat
  rd     : Bool
  wr     : Bool
  elide  : Bool
  remote : Option Nat
  deriving DecidableEq, Repr

/-- log2 of what an entry of each level spans (Table 7.4). -/
def levelShift : Nat → Nat
  | 0 => 46 | 1 => 36 | 2 => 26 | 3 => 21 | _ => 16

/-- Entries of a table of each level of the first stage (Table 7.4). -/
def levelSize : Nat → Nat
  | 3 => 32 | 4 => 32 | _ => 1024

/-- Does a physical address decode to the partition's device memory (R132, Table 20.8)? -/
def State.inPart (s : State) (part pa : Nat) : Bool :=
  !paHost pa && paPart pa = part && decide (paOff pa < (s.part part).chans.length * chanBytes)

/-- A second-stage entry that breaks Table 20.8 (R312). -/
def State.bad2 (s : State) (part lvl e : Nat) : Bool :=
  let leaf := bit e 62
  let a := bits e 51 16 * 65536
  let rem := bit e 58
  !(bits e 57 52 = 0) || !(bits e 15 12 = 0) || (!rem && !(bits e 11 0 = 0)) || bit e 51 ||
    (leaf && decide (lvl < 2)) || (!leaf && lvl = 4) ||
    (leaf && !(a % 2 ^ levelShift lvl = 0)) || (!(leaf && rem) && !s.inPart part a)

/-- The second-stage walk from a level, `fuel` levels left (R312); a table in a retired page is not read (R381). -/
def State.walk2From (s : State) (part ia : Nat) : Nat → Nat → Nat → Walk Page2
  | 0, _, _ => .err 9
  | fuel + 1, lvl, table =>
    let n := if lvl = 0 then 32 else levelSize lvl
    let at_ := table + 8 * (ia / 2 ^ levelShift lvl % n)
    let e := s.peekWord part at_
    if s.pkg.tBits.contains (pageOf at_) then .err 12
    else if !bit e 63 || s.bad2 part lvl e then .err 9
    else
      let a := bits e 51 16 * 65536
      if bit e 62 then
        .ok ⟨levelShift lvl, a, bit e 61, bit e 60, bit e 59, if bit e 58 then some (bits e 11 0) else none⟩
      else s.walk2From part ia fuel (lvl + 1) a

/-- The number under which the host is asked for the page of an intermediate address: its page number, with the partition, whose
interface asks (R140, R312), above it. -/
def atsKey (part ia : Nat) : Nat := part * 2 ^ 36 + ia / 65536

/-- The second stage for an intermediate address (R312): the partition's tables, or the host through ATS. -/
def State.walk2 (s : State) (part ia : Nat) : Walk Page2 :=
  if 2 ^ 51 ≤ ia then
    match tget none s.pkg.ats (atsKey part ia) with
    | none => .wait (atsKey part ia)
    | some none => .err 10
    | some (some hpa) => .ok ⟨16, 2 ^ 51 + hpa / 65536 * 65536, true, true, false, none⟩
  else s.walk2From part ia 5 0 ((s.part part).ssbase * 65536)

/-- A malformed first-stage entry (R141). -/
def State.bad1 (s : State) (part lvl e : Nat) : Bool :=
  let leaf := bit e 62
  let a := bits e 51 16 * 65536
  !(bits e 56 52 = 0) || !(bits e 15 10 = 0) || (leaf && decide (lvl < 2)) || (!leaf && lvl = 4) ||
    (leaf && !(a % 2 ^ levelShift lvl = 0)) || (!(leaf && bit e 57) && !(bits e 9 0 = 0)) ||
    (leaf && bit e 57 && !(s.part part).slices.contains (bits e 9 0))

/-- The first-stage entry at an intermediate address that the second stage maps to a page. -/
def State.walkEntry (s : State) (part : Nat) (g : Page2) (at_ : Nat) : Nat :=
  let pa := g.pa + at_ % 2 ^ g.size
  if g.remote.isSome then 0
  else if paHost pa then s.rawWord pa
  else ofBytes (s.peek { ownPort part with elide := g.elide } pa 8)

/-- A page of device memory that refuses an access through a leaf: retired, or compressed and asked for its raw image (R376, R381). -/
def State.pageErr (s : State) (elide : Bool) (pa : Nat) : Option Nat :=
  if paHost pa then none
  else if s.pkg.tBits.contains (pageOf pa) then some 12
  else if !elide && s.pkg.cBits.contains (pageOf pa) then some 13
  else none

/-- The two-stage walk from a first-stage level (R140, R141). -/
def State.walk1From (s : State) (part tenant va : Nat) : Nat → Nat → Nat → Walk Trans
  | 0, _, _ => .err 2
  | fuel + 1, lvl, table =>
    let at_ := table + 8 * (va / 2 ^ levelShift lvl % levelSize lvl)
    match s.walk2 part at_ with
    | .err k => .err k
    | .wait p => .wait p
    | .ok g =>
      let e := s.walkEntry part g at_
      match (if g.remote.isSome then none else s.pageErr g.elide (g.pa + at_ % 2 ^ g.size)) with
      | some k => .err k
      | none =>
      if !bit e 63 then .err 1
      else if s.bad1 part lvl e then .err 2
      else
        let a := bits e 51 16 * 65536
        if bit e 62 then
          let sz := levelShift lvl
          match s.walk2 part (a + va % 2 ^ sz / 65536 * 65536) with
          | .err k => .err k
          | .wait p => .wait p
          | .ok h =>
            if h.size < sz && !decide (2 ^ 51 ≤ a) then .err 9
            else
              let sz := min sz h.size
              .ok { part := part, tenant := tenant, size := sz, va := va / 2 ^ sz * 2 ^ sz,
                    pa := h.pa + (a + va % 2 ^ levelShift lvl) % 2 ^ h.size / 2 ^ sz * 2 ^ sz,
                    rd := bit e 61 && h.rd, wr := bit e 60 && h.wr, wr1 := bit e 60, wr2 := h.wr && !paHost h.pa, exec := bit e 59,
                    user := bit e 58, pin := if bit e 57 then some (bits e 9 0) else none, elide := h.elide,
                    remote := h.remote, span := h.size }
        else s.walk1From part tenant va fuel (lvl + 1) a

/-- The walk of a virtual address for a tenant of a partition (R140). -/
def State.walk1 (s : State) (part tenant va : Nat) : Walk Trans :=
  s.walk1From part tenant va 5 0 ((tget {} (s.part part).tenants tenant).tbase * 65536)

/-- The addresses of device memory that a second-stage walk reads its entries at, from a level on. -/
def State.walk2Reads (s : State) (part ia : Nat) : Nat → Nat → Nat → List Nat
  | 0, _, _ => []
  | fuel + 1, lvl, table =>
    let at_ := table + 8 * (ia / 2 ^ levelShift lvl % (if lvl = 0 then 32 else levelSize lvl))
    let e := s.peekWord part at_
    at_ :: (if !bit e 63 || s.bad2 part lvl e || bit e 62 then [] else s.walk2Reads part ia fuel (lvl + 1) (bits e 51 16 * 65536))

/-- Those of the second stage for an intermediate address. -/
def State.stage2Reads (s : State) (part ia : Nat) : List Nat :=
  if 2 ^ 51 ≤ ia then [] else s.walk2Reads part ia 5 0 ((s.part part).ssbase * 65536)

/-- The addresses of device memory that the walk of a virtual address reads its entries at, from a first-stage level on. -/
def State.walk1Reads (s : State) (part va : Nat) : Nat → Nat → Nat → List Nat
  | 0, _, _ => []
  | fuel + 1, lvl, table =>
    let at_ := table + 8 * (va / 2 ^ levelShift lvl % levelSize lvl)
    s.stage2Reads part at_ ++ (match s.walk2 part at_ with
      | .ok g =>
        let pa := g.pa + at_ % 2 ^ g.size
        if g.remote.isSome then []
        else
          let e := s.walkEntry part g at_
          let a := bits e 51 16 * 65536
          (if paHost pa then [] else [pa]) ++ (if !bit e 63 || s.bad1 part lvl e then []
            else if bit e 62 then s.stage2Reads part (a + va % 2 ^ levelShift lvl / 65536 * 65536)
            else s.walk1Reads part va fuel (lvl + 1) a)
      | _ => [])

/-- The addresses that the walk of a virtual address for a tenant reads its entries at. -/
def State.walkReads (s : State) (part tenant va : Nat) : List Nat :=
  s.walk1Reads part va 5 0 ((tget {} (s.part part).tenants tenant).tbase * 65536)

/-- The page that the host is asked for in the second stage, if any. -/
def stage2Asks (part ia : Nat) : List Nat := if 2 ^ 51 ≤ ia then [atsKey part ia] else []

/-- The pages that the walk of a virtual address asks the host for, from a first-stage level on. -/
def State.walk1Asks (s : State) (part va : Nat) : Nat → Nat → Nat → List Nat
  | 0, _, _ => []
  | fuel + 1, lvl, table =>
    let at_ := table + 8 * (va / 2 ^ levelShift lvl % levelSize lvl)
    stage2Asks part at_ ++ (match s.walk2 part at_ with
      | .ok g =>
        let e := s.walkEntry part g at_
        let a := bits e 51 16 * 65536
        if !bit e 63 || s.bad1 part lvl e then []
        else if bit e 62 then stage2Asks part (a + va % 2 ^ levelShift lvl / 65536 * 65536)
        else s.walk1Asks part va fuel (lvl + 1) a
      | _ => [])

/-- The pages that the walk of a virtual address for a tenant asks the host for. -/
def State.walkAsks (s : State) (part tenant va : Nat) : List Nat :=
  s.walk1Asks part va 5 0 ((tget {} (s.part part).tenants tenant).tbase * 65536)

/-- Does a cached translation serve an address? -/
def Trans.covers (t : Trans) (part tenant va : Nat) : Bool :=
  t.part = part && t.tenant = tenant && t.va = va / 2 ^ t.size * 2 ^ t.size

/-- A first-level TLB: the quad and its place there, 0 to 3 for its cores' load pipes, 4 and 5 for its copy engines. -/
structure Tlb where
  quad : Nat
  idx  : Nat
  deriving DecidableEq, Repr

/-- The first-level TLB of a context's core. -/
def tlbOf (c : Nat) : Tlb := ⟨colOf c, coreOf c % 4⟩

/-- The entries of a first-level TLB. -/
def State.tlb1 (s : State) (u : Tlb) : List Trans := tget [] (s.quad u.quad).tlb u.idx

/-- Enters a translation at the head of a first-level TLB of 64 entries; the last one is dropped (log 7). -/
def State.fillTlb1 (s : State) (u : Tlb) (t : Trans) : State :=
  s.updQuad u.quad fun q => { q with tlb := tset [] q.tlb u.idx (t :: (s.tlb1 u).take 63) }

/-- C of every 64 KiB page of this package that a second-stage leaf with ELIDE covers, set when a walk caches it (R376). -/
def State.setC (s : State) (t : Trans) : State :=
  if t.elide && t.remote.isNone then
    let ps := (upto (2 ^ (t.span - 16))).map fun i => t.pa / 2 ^ t.span * 2 ^ (t.span - 16) + i
    s.updPkg fun k => { k with cBits := k.cBits ++ ps.filter fun p => !k.cBits.contains p }
  else s

/-- Asks the host for a page whose translation it has not answered (R312). -/
def State.askHost (s : State) (p : Nat) : State :=
  s.updPkg fun k => if k.atsReq.contains p then k else { k with atsReq := p :: k.atsReq }

/-- Host translations that a walk has used are kept for no walk of a later cycle (R142): a TLB holds what it found. -/
def State.useAsks (s : State) (ks : List Nat) : State :=
  if ks.isEmpty then s else s.updPkg fun k => { k with atsUsed := k.atsUsed ++ ks.filter fun i => !k.atsUsed.contains i }

/-- The refusals of the host that a partition's walks have met go likewise. -/
def State.useRefused (s : State) (part : Nat) : State :=
  s.useAsks ((s.pkg.ats.filter fun (e : Nat × Option (Option Nat)) => e.2 = some none && e.1 / 2 ^ 36 = part).map Prod.fst)

/-- The host translations used in a cycle are gone as the next begins. -/
def State.tickAsks (s : State) : State :=
  if s.pkg.atsUsed.isEmpty then s
  else s.updPkg fun k => { k with ats := k.ats.filter fun e => !k.atsUsed.contains e.1, atsUsed := [] }

/-- A translation of a virtual address through the TLBs of a stack (R142): a miss in both walks the tables. -/
def State.translate (s : State) (u : Tlb) (part tenant va : Nat) : State × Walk Trans :=
  match findFirst (fun t => t.covers part tenant va) (s.tlb1 u) with
  | some t => (s, .ok t)
  | none =>
    let st := u.quad / 8
    match findFirst (fun t => t.covers part tenant va) (s.stack st).tlb with
    | some t => (s.fillTlb1 u t, .ok t)
    | none =>
      match s.walk1 part tenant va with
      | .ok t =>
        let s := (s.useAsks (s.walkAsks part tenant va)).setC t
        let s := s.updStack st fun x => { x with tlb := t :: x.tlb.take 4095 }
        (s.fillTlb1 u t, .ok t)
      | .err k => (s.useAsks (s.walkAsks part tenant va), .err k)
      | .wait p => (s.askHost p, .wait p)

/-- A walk by the device itself for a tenant: a page whose host translation it lacks it takes from a last-level TLB that holds it. -/
def State.walkOwn (s : State) (part tenant va : Nat) : Walk Trans :=
  match s.walk1 part tenant va with
  | .wait p =>
    match (upto 4).findSome? fun st => findFirst (fun t => t.covers part tenant va) (s.stack st).tlb with
    | some t => .ok t
    | none => .wait p
  | w => w

/-- Bytes from a virtual address on, cut at the pages of 64 KiB: each piece's address and length. -/
def pagesOf (va n : Nat) : List (Nat × Nat) :=
  (upto (n / 65536 + 2)).filterMap fun i =>
    let a := if i = 0 then va else (va / 65536 + i) * 65536
    if a < va + n then some (a, min (va + n) ((a / 65536 + 1) * 65536) - a) else none

/-- The host page that the device's reads of a tenant's bytes wait for. -/
def State.peekWants (s : State) (part tenant va n : Nat) : Option Nat :=
  (pagesOf va n).findSome? fun e => match s.walkOwn part tenant e.1 with | .wait p => some p | _ => none

/-- What an access wants of a leaf. -/
inductive Want where
  | read | write | fetch
  deriving DecidableEq, Repr

/-- The causes of Table 25.1 that a translated address meets, in the order of R363 after those of the walk. `remoteOk`:
the access may reach another package (R313). -/
def State.leafErr (s : State) (lvl : Level) (want : Want) (remoteOk : Bool) (t : Trans) (pa : Nat) : Option Nat :=
  if t.remote.isSome && !remoteOk then some 11
  else if lvl = .U && !t.user then some 5
  else if want = .read && !t.rd then some 3
  else if want = .write && !t.wr then some 4
  else if want = .fetch && (!t.exec || t.wr1 || t.wr2) then some 6
  else if t.remote.isSome then none
  else s.pageErr t.elide pa

/-- A translated access: the physical address, the leaf it came through, and the package when it is another one. -/
structure Phys where
  pa     : Nat
  pin    : Option Nat
  elide  : Bool
  remote : Option Nat
  deriving DecidableEq, Repr

/-- Translates one unit of an access and checks it (R363): alignment to `align`, address bits, walk, leaf, page. -/
def State.access (s : State) (u : Tlb) (part tenant : Nat) (lvl : Level) (want : Want) (remoteOk : Bool)
    (va align : Nat) : State × Walk Phys :=
  if 2 ^ 56 ≤ va then (s, .err 8)
  else if !(va % align = 0) then (s, .err 7)
  else
    match s.translate u part tenant va with
    | (s, .err k) => (if k = 13 then s.count part 1 else s, .err k)
    | (s, .wait p) => (s, .wait p)
    | (s, .ok t) =>
      let pa := t.pa + va % 2 ^ t.size
      match s.leafErr lvl want remoteOk t pa with
      | some k => (if k = 13 then s.count part 1 else s, .err k)
      | none => (s, .ok ⟨pa, t.pin, t.elide, t.remote⟩)

/-- The shared range of a partition's tenant that holds an address (R146). -/
def State.rangeAt (s : State) (part tenant va : Nat) : Option Range :=
  (s.part part).ranges.foldl (fun r e => match e.2 with
    | some x => if x.tenant = tenant && decide (x.base ≤ va ∧ va < x.base + x.len) then some x else r
    | none => r) none

/-- The port of an access of a tenant at a virtual address: host lines are cached only in ranges the device holds
(R308). -/
def State.portFor (s : State) (owner part tenant va : Nat) (ph : Phys) : Port :=
  { owner := owner, part := part, pin := ph.pin, elide := ph.elide,
    cache := !paHost ph.pa || (match s.rangeAt part tenant va with | some r => r.device | none => false) }

/-! Sealed code (R165 to R168). -/

/-- The translation through which the device peeks at a page of a tenant; none where there is none of this package. -/
def State.peekLeaf (s : State) (part tenant va : Nat) : Option Trans :=
  match s.walkOwn part tenant (va / 65536 * 65536) with
  | .ok t => if t.remote.isSome || (s.pageErr t.elide (t.pa + va % 2 ^ t.size)).isSome then none else some t
  | _ => none

/-- A byte peeked at through a translation. -/
def State.peekThrough (s : State) (part : Nat) (t : Trans) (va : Nat) : Byte :=
  let pa := t.pa + va % 2 ^ t.size
  if paHost pa then s.rawByte pa else s.peekByte { ownPort part with pin := t.pin, elide := t.elide } pa

/-- Peeks at up to 64 KiB of a tenant's memory, as the device reads code and tables: none where it does not translate. -/
def State.peekVa (s : State) (part tenant va n : Nat) : Option (List Byte) :=
  let last := va + n - 1
  match s.peekLeaf part tenant va with
  | none => none
  | some t0 =>
    match (if va / 65536 = last / 65536 then some t0 else s.peekLeaf part tenant last) with
    | none => none
    | some t1 => some ((upto n).map fun i => s.peekThrough part (if (va + i) / 65536 = va / 65536 then t0 else t1) (va + i))

/-- A 64-bit word of a tenant's memory. -/
def State.peekVaWord (s : State) (part tenant va : Nat) : Option Nat := (s.peekVa part tenant va 8).map ofBytes

/-- Does an object header keep the form of Table 9.29? -/
def headerFits (w : List Nat) : Bool :=
  let h := fun i => w.getD i 0
  bits (h 0) 63 56 = 1 && bits (h 0) 55 32 = 0 && bits (h 2) 63 11 = 0 && bits (h 3) 62 13 = 0 && bits (h 3) 6 0 = 0 &&
    (w.drop 4).all (· = 0) && (bit (h 3) 63 || bits (h 3) 12 7 = 0)

/-- An object header as read from its image. -/
def sealedOf (base : Nat) (w : List Nat) : Sealed :=
  let h := fun i => w.getD i 0
  ⟨base, bits (h 0) 31 0, bits (h 1) 31 0, bits (h 1) 63 32, bits (h 2) 10 0, bit (h 3) 63, bits (h 3) 12 11, bits (h 3) 10 9,
    bits (h 3) 8 7⟩

/-- Do the offsets of an object meet R166 in an image of a size? An empty safe-point table must begin inside it as well
(DESIGN CHOICE, log 98). -/
def Sealed.fits (o : Sealed) (size : Nat) : Bool :=
  o.base % 4096 = 0 && o.codelen % 64 = 0 && decide (64 ≤ o.codelen) && decide (o.nsafe ≤ 1024) &&
    decide (256 + o.codelen ≤ o.mapoff) && o.sptoff % 128 = 0 && decide (o.mapoff + o.codelen / 64 ≤ o.sptoff) &&
    decide (o.sptoff + 128 * o.nsafe ≤ size)

/-- The base and size that an entry of a partition's seal table gives a tenant's object, if it meets R167. -/
def State.sealEntry (s : State) (part tenant i : Nat) : Option (Nat × Nat) :=
  let at_ := devPa part ((s.part part).sealtab * 65536 + 64 * i)
  let w := fun j => s.peekWord part (at_ + 8 * j)
  let size := w 1
  if s.pkg.tBits.contains (pageOf at_) || !bit (w 0) 63 || !(bits (w 0) 62 59 = 0) || !(bits (w 0) 58 56 = tenant) ||
      decide (2 ^ 32 ≤ size) || !(size % 4096 = 0) || (upto 6).any (fun j => !(w (2 + j) = 0)) then none
  else some (bits (w 0) 55 0, size)

/-- The object of a seal-table entry, if the entry and the header meet R166 and R167. -/
def State.sealed1 (s : State) (part tenant i : Nat) : Option Sealed :=
  match s.sealEntry part tenant i with
  | none => none
  | some (base, size) =>
    match s.peekVa part tenant base 256 with
    | none => none
    | some b =>
      let h := (upto 32).map fun j => ofBytes ((b.drop (8 * j)).take 8)
      if headerFits h && (sealedOf base h).fits size then some (sealedOf base h) else none

/-- The sealed object that holds an address for a tenant: the lowest-numbered entry (R167). -/
def State.objectAt (s : State) (part tenant a : Nat) : Option Sealed :=
  (upto (min (s.part part).nseal 64)).foldl (fun r i => match r with
    | some o => some o
    | none =>
      match s.sealed1 part tenant i with
      | some o => if o.base + 256 ≤ a ∧ a < o.base + 256 + o.codelen then some o else none
      | none => none) none

/-- Why an address is no bundle start: the TARGET code of Table 24.1, or none (R165). -/
def State.startErr (s : State) (part tenant a : Nat) : Option Nat :=
  match s.objectAt part tenant a with
  | none => some 2
  | some o =>
    let d := a - (o.base + 256)
    match s.peekVa part tenant (o.base + o.mapoff + d / 64) 1 with
    | some [m] => if d % 8 = 0 && m.getLsbD (d % 64 / 8) then none else some 1
    | _ => some 1

/-- The host page that a look for the object of an address waits for, over entries of the seal table in order (R167, R312). -/
def State.headerWants (s : State) (part tenant a : Nat) : List Nat → Option Nat
  | [] => none
  | i :: l =>
    match s.sealEntry part tenant i with
    | none => s.headerWants part tenant a l
    | some (base, _) =>
      match s.peekWants part tenant base 256 with
      | some p => some p
      | none =>
        match s.sealed1 part tenant i with
        | some o => if o.base + 256 ≤ a ∧ a < o.base + 256 + o.codelen then none else s.headerWants part tenant a l
        | none => s.headerWants part tenant a l

/-- The host page that the checks of code at an address wait for: the headers of the objects, the map byte, the safe-point table,
and the address itself (R165 to R168, R312). A walk that lacks the host's answer finds nothing yet; what it finds is the same (R142). -/
def State.codeWants (s : State) (part tenant a : Nat) : Option Nat :=
  if 2 ^ 56 ≤ a then none
  else
    (s.headerWants part tenant a (upto (min (s.part part).nseal 64))).orElse fun _ =>
    (match s.objectAt part tenant a with
      | none => none
      | some o =>
        (s.peekWants part tenant (o.base + o.mapoff + (a - (o.base + 256)) / 64) 1).orElse fun _ =>
          s.peekWants part tenant (o.base + o.sptoff) (128 * o.nsafe)).orElse fun _ => s.peekWants part tenant a 8

/-- The safe-point table entry of an index in an object, as 16 words (Table 9.30). -/
def State.safeEntry (s : State) (part tenant : Nat) (o : Sealed) (j : Nat) : Option (List Nat) :=
  if j < o.nsafe then
    (s.peekVa part tenant (o.base + o.sptoff + 128 * j) 128).map fun b =>
      (upto 16).map fun i => ofBytes ((b.drop (8 * i)).take 8)
  else none

/-- The bundle addresses that the safe-point table of an object gives, by index (R166). -/
def State.safesOf (s : State) (part tenant : Nat) (o : Sealed) : List Nat :=
  (upto o.nsafe).map fun j => match s.peekVaWord part tenant (o.base + o.sptoff + 128 * j + 96) with
    | some w => bits w 55 0
    | none => 2 ^ 56

/-- Control of context `c` has arrived at its pc by a transfer, a start or a resumption: the checks of what it fetches in
sequence go by the object's header and safe-point table as they stand now (R168). -/
def State.enter (s : State) (c : Nat) : State :=
  let x := s.ctx c
  let o := s.objectAt x.part x.tenant x.pc
  s.setCtx c { x with code := o, safes := match o with | some o => s.safesOf x.part x.tenant o | none => [] }

/-- A translation cached for a core, in its own TLB or its stack's. -/
def State.cached (s : State) (u : Tlb) (part tenant va : Nat) : Option Trans :=
  match findFirst (fun t => t.covers part tenant va) (s.tlb1 u) with
  | some t => some t
  | none => findFirst (fun t => t.covers part tenant va) (s.stack (u.quad / 8)).tlb

/-- The leaf a fetch of context `c` at an address goes through, with its checks (R168). -/
def State.fetchPage (s : State) (c va : Nat) : Walk Trans :=
  let x := s.ctx c
  if 2 ^ 56 ≤ va then .err 8
  else
    let w := match s.cached (tlbOf c) x.part x.tenant va with
      | some t => Walk.ok t
      | none => s.walk1 x.part x.tenant va
    match w with
    | .ok t =>
      match s.leafErr x.level .fetch false t (t.pa + va % 2 ^ t.size) with
      | some k => .err k
      | none => .ok t
    | .err k => .err k
    | .wait p => .wait p

/-- A fetch of bytes at an address of a context (R168): the bytes, or the XLATE code of the first byte that fails. -/
def State.fetchBytes (s : State) (c va n : Nat) : Walk (List Byte) :=
  let last := va + n - 1
  match s.fetchPage c va with
  | .err k => .err k
  | .wait p => .wait p
  | .ok t0 =>
    match (if va / 65536 = last / 65536 then .ok t0 else s.fetchPage c (last / 65536 * 65536)) with
    | .err k => .err k
    | .wait p => .wait p
    | .ok t1 =>
      .ok ((upto n).map fun i =>
        let t := if (va + i) / 65536 = va / 65536 then t0 else t1
        let pa := t.pa + (va + i) % 2 ^ t.size
        if paHost pa then s.rawByte pa
        else s.peekByte { ownPort (s.ctx c).part with pin := t.pin, elide := t.elide } pa)

/-- The fetch of the map byte of a bundle's line in an object, which comes with the line (R165, R168): its XLATE code, or the
host page it waits for. -/
def State.mapFetchIn (s : State) (c a : Nat) (o : Option Sealed) : Walk Unit :=
  match o with
  | none => .ok ()
  | some o =>
    match s.fetchPage c (o.base + o.mapoff + (a - (o.base + 256)) / 64) with
    | .err k => .err k
    | .wait p => .wait p
    | .ok _ => .ok ()

/-- The fetch of the map byte of a bundle that a transfer would reach. -/
def State.mapFetch (s : State) (c a : Nat) : Walk Unit := s.mapFetchIn c a (s.objectAt (s.ctx c).part (s.ctx c).tenant a)

/-- The fetch of a whole bundle at an address, with its map byte in an object (R168): its bytes. -/
def State.fetchAll (s : State) (c a : Nat) (o : Option Sealed) : Walk (List Byte) :=
  match s.fetchBytes c a 8 with
  | .err k => .err k
  | .wait p => .wait p
  | .ok b =>
    match s.fetchBytes c a (bundleSize (BitVec.ofNat 32 (ofBytes (b.take 4)))) with
    | .err k => .err k
    | .wait p => .wait p
    | .ok bs =>
      match s.mapFetchIn c a o with
      | .err k => .err k
      | .wait p => .wait p
      | .ok _ => .ok bs

/-- The translations of a bundle's fetch enter the TLBs as those of any access do (R142, R376). -/
def State.fetchCached (s : State) (c a n : Nat) : State :=
  let x := s.ctx c
  let pages := [a, a + n - 1] ++ (match x.code with | some o => [o.base + o.mapoff + (a - (o.base + 256)) / 64] | none => [])
  pages.foldl (fun s va => (s.translate (tlbOf c) x.part x.tenant va).1) s

end Sys2Proof.Machine
end

