-- ==== Sys2Proof/Machine/Operands.lean ====
section
/-! DEFINITION. Operand forms: the sources of an operation of the bundle being issued, address-generator sets and the
addresses drawn from them (R71 to R73, R197), the addresses of the load and store forms (R220, R222, R224, R245), and
descriptors (R231, R232). -/

namespace Sys2Proof.Machine

open Sys2Proof

/-- An operation of the bundle being issued: its context, bundle and form, and the context as it stood when the bundle
issued, from which every source is read (R54, R352). -/
structure Run where
  c : Nat
  k : Cur
  i : Instr
  f : Form
  x : Ctx
  deriving DecidableEq, Repr

/-- The value of source field `i` of the operation. -/
def Run.src (r : Run) (i : Nat) : Nat := r.x.field r.k.imm r.f.slot (r.f.fld i)
/-- The number in the destination field. -/
def Run.dst (r : Run) : Nat := r.f.dst
/-- The guard value of an element-wise operation. -/
def Run.g (r : Run) : Option PReg := r.x.guardVal r.f.pred
/-- The operand record (R337): the values of the sources, a vector giving its bits [63:0], C its FA, FB and IMM24. -/
def Run.oprec (r : Run) : Nat × Nat × Nat :=
  match r.f.slot with
  | .C =>
    (r.src 0 % 2 ^ 64, r.src 1 % 2 ^ 64, match r.i with
      | .br w | .bri w | .call w | .calli w | .ret w | .loop w | .exit w | .yield w | .wait w | .trap w | .sysrd w
      | .syswr w | .govloadWrite w | .tretpcWrite w | .tstatWrite w | .tret w | .ownset w | .ownlat w | .ownbkt w
      | .ownrd w | .wayset w | .occrd w | .rngset w | .whlset w | .tlbinv w | .mswr w | .rtset w | .partset w
      | .partcol w | .partslc w | .partchn w | .partlnk w | .ownasgn w | .tenset w | .genadv w | .errinj w
      | .selftst w | .ctxstop w | .frmset w => w.imm24.toNat
      | _ => 0)
  | .M => (r.src 0 % 2 ^ 64, r.src 1 % 2 ^ 64, (r.f.fld 3).val)
  | _ => (r.src 0 % 2 ^ 64, (r.f.imm2.getD (r.src 1)) % 2 ^ 64, r.src 2 % 2 ^ 64)

/-- What a fault of an operation says of it (R337). -/
def Run.opInfo (r : Run) : FaultInfo :=
  { cls := 0x10, code := 3, slot := r.f.slot.num, opa := r.oprec.1, opb := r.oprec.2.1, opc := r.oprec.2.2, pc := r.k.h,
    delayed := true }

/-- The K-tile whose window opened last: that of the call's job, while the routine may wait for the next (R107). -/
def Call.tileNo (k : Call) : Nat := match k.jobs with | j :: _ => j.kt | [] => k.kt - 1

/-! Address-generator sets (Table 4.3). -/

/-- BASE. -/
def agBase (a : BitVec 512) : Nat := bits a.toNat 63 0
/-- COUNT[d]; 0 is read as 1. -/
def agCount (a : BitVec 512) (d : Nat) : Nat := max 1 (bits a.toNat (64 + 32 * d + 31) (64 + 32 * d))
/-- STRIDE[d], signed. -/
def agStride (a : BitVec 512) (d : Nat) : Int := sext (bits a.toNat (192 + 32 * d + 31) (192 + 32 * d)) 32
/-- IDX[d]. -/
def agIdx (a : BitVec 512) (d : Nat) : Nat := bits a.toNat (320 + 32 * d + 31) (320 + 32 * d)
/-- IH. -/
def agIH (a : BitVec 512) : Nat := bits a.toNat 455 448
/-- IDIM. -/
def agIDim (a : BitVec 512) : Nat := bits a.toNat 457 456
/-- IEN. -/
def agIEN (a : BitVec 512) : Bool := bit a.toNat 458
/-- IWIDE. -/
def agWide (a : BitVec 512) : Bool := bit a.toNat 459
/-- MODE. -/
def agMode (a : BitVec 512) : Bool := bit a.toNat 460
/-- The handle of a set in MODE 1. -/
def agHandle (a : BitVec 512) : Nat := agBase a % 256

/-- Writes bits [l + n - 1 : l] of an image. -/
def agPut (a : BitVec 512) (l n v : Nat) : BitVec 512 :=
  BitVec.ofNat 512 (a.toNat - a.toNat / 2 ^ l % 2 ^ n * 2 ^ l + v % 2 ^ n * 2 ^ l)

/-- Advances a set, dimension 0 fastest; past the last extent every index is zero again (R72). -/
def agStep (a : BitVec 512) : Nat → Nat → BitVec 512
  | 0, _ => a
  | n + 1, d =>
    if agIdx a d + 1 < agCount a d then agPut a (320 + 32 * d) 32 (agIdx a d + 1)
    else agStep (agPut a (320 + 32 * d) 32 0) n (d + 1)

/-- An entry of a table tile, read as a context sees it, or the OPERAND cause it meets (R72). -/
def State.tableEntry (s : State) (x : Ctx) (y : Eye) (h : Nat) (wide : Bool) (i : Nat) :
    Except (Nat × Nat) Nat :=
  match s.handle x h with
  | none => .error (0x0101, h)
  | some t =>
    let u := if wide then 4 else 2
    if t.imageLen < u * i + u then .error (0x0102, h + 256 * (u * i % 2 ^ 56))
    else
      let bs := (upto u).map fun j =>
        let off := t.imageOff (u * i + j)
        (s.overlay y (.tile t.id off) (t.read off 1)).1.headD 0
      .ok (ofBytes bs)

/-- An unbounded address or offset (R36) as a natural: a negative one lies beyond every bound, with the same low 64 bits. -/
def unboundedN (a : Int) : Nat := if 0 ≤ a then a.toNat else (2 ^ 128 + a).toNat

/-- Draws an address (R72): the address or the OPERAND cause, before the set is advanced. -/
def State.drawOne (s : State) (x : Ctx) (y : Eye) (a : BitVec 512) : Except (Nat × Nat) Nat :=
  let idx := fun d =>
    if agIEN a && agIDim a = d then s.tableEntry x y (agIH a) (agWide a) (agIdx a d) else .ok (agIdx a d)
  match idx 0, idx 1, idx 2, idx 3 with
  | .ok i0, .ok i1, .ok i2, .ok i3 =>
    let off : Int := i0 * agStride a 0 + i1 * agStride a 1 + i2 * agStride a 2 + i3 * agStride a 3
    let base := if agMode a then agBase a / 256 else agBase a % 2 ^ 56
    .ok (unboundedN (base + off))
  | .error e, _, _, _ => .error e
  | _, .error e, _, _ => .error e
  | _, _, .error e, _ => .error e
  | _, _, _, .error e => .error e

/-- Draws `n` addresses, and gives the advanced set. -/
def State.draw (s : State) (x : Ctx) (y : Eye) : Nat → BitVec 512 → Except (Nat × Nat) (List Nat × BitVec 512)
  | 0, a => .ok ([], a)
  | n + 1, a =>
    match s.drawOne x y a with
    | .error e => .error e
    | .ok v =>
      match s.draw x y n (agStep a 4 0) with
      | .error e => .error e
      | .ok (l, b) => .ok (v :: l, b)

/-! Addresses of slots L and W. -/

/-- The fields of a slot L or W word that its accesses share. -/
structure LWForm where
  type : BitVec 5
  off8 : BitVec 8
  kin  : BitVec 7
  deriving DecidableEq, Repr

/-- The access fields of a slot L or W operation. -/
def lwOf (i : Instr) : Option LWForm :=
  match i with
  | .ld w | .ldsc w | .vld w | .vldg w | .tld w | .tldg w | .pld w | .pfh w | .pfhx w => some ⟨w.type, w.off8, w.kin⟩
  | .st w | .stsc w | .vst w | .vsts w | .tst w | .tsts w | .pst w | .stnt w => some ⟨w.type, w.off8, w.kin⟩
  | _ => none

/-- The element type of a type code; a form without a type is given by its unit elsewhere. -/
def tyOr (c : BitVec 5) : Ty := match tyOf c with | some t => t | none => .int false 64

/-- A = v(BASE) + v(INDEX) + u × sext(OFF8, 8), on 64 bits (R220); SC forms have no index (R245). -/
def addrOf (base index u : Nat) (off8 : BitVec 8) : Nat := wrapN ((base + index : Nat) + (u : Int) * sext off8.toNat 8) 64

/-- The unit of an address form: the element size, 64 bytes for PLD and PST, 128 for PFH (R220, R245). -/
def unitOf (i : Instr) : Nat :=
  match i with
  | .pld _ | .pst _ => 64
  | .pfh _ => 128
  | i => match lwOf i with | some w => (tyOr w.type).bytes | none => 1

/-- The address an address form names at issue. -/
def Run.addr (r : Run) : Nat :=
  match r.i with
  | .ldsc w => addrOf (r.src 0) 0 (unitOf r.i) w.off8
  | .stsc w => addrOf (r.src 0) 0 (unitOf r.i) w.off8
  | .pfhx _ => r.src 0
  | i => match lwOf i with | some w => addrOf (r.src 0) (r.src 1) (unitOf i) w.off8 | none => 0

/-- The byte offset of TLD and TST in a tile of pitch `p` (R222). -/
def tileOff (p index : Nat) (off8 : BitVec 8) : Int :=
  ((bits index 31 0 : Nat) + sext off8.toNat 8) * (p : Int) + (1024 * bits index 47 32 : Nat)

/-- The bytes from its offset on that TLD or TST covers: 1,024, or n planes for a plane load (R222, R223). -/
def tileSpan (load : Bool) (t : Ty) : Nat :=
  match t with
  | .plane n _ => if load then 128 * n else 1024
  | _ => 1024

/-! Operand descriptors (Table 12.3). -/

/-- NKT. -/
def dNkt (d : Nat) : Nat := bits d 63 59
/-- TQ. -/
def dTq (d : Nat) : Nat := bits d 57 48
/-- NROW. -/
def dNrow (d : Nat) : Nat := bits d 45 40
/-- NCOL. -/
def dNcol (d : Nat) : Nat := bits d 39 34
/-- TRN. -/
def dTrn (d : Nat) : Bool := bit d 33
/-- SCEN. -/
def dScen (d : Nat) : Bool := bit d 32
/-- SCAG. -/
def dScag (d : Nat) : Nat := bits d 31 28
/-- SCH. -/
def dSch (d : Nat) : Nat := bits d 27 25
/-- TYPE. -/
def dType (d : Nat) : Nat := bits d 20 16
/-- LATCH. -/
def dLatch (d : Nat) : Nat := bits d 11 10
/-- KIND. -/
def dKind (d : Nat) : Bool := bit d 4
/-- AG. -/
def dAg (d : Nat) : Nat := bits d 3 0
/-- The reserved bits are zero. -/
def dReserved (d : Nat) : Bool :=
  !bit d 58 && bits d 47 46 = 0 && bits d 24 21 = 0 && bits d 15 12 = 0 && bits d 9 5 = 0
/-- The type of a descriptor. -/
def dTy (d : Nat) : Option Ty := tyOf (BitVec.ofNat 5 (dType d))

/-- The index of element (row, col) of a grid (R232): byte index for floating and integer types, element index for
plane types, before the base; an indirect dimension reads its table. -/
def State.gridIndex (s : State) (x : Ctx) (y : Eye) (a : BitVec 512) (row col : Nat) :
    Except (Nat × Nat) Int :=
  let idx := fun d n => if agIEN a && agIDim a = d then s.tableEntry x y (agIH a) (agWide a) n else .ok n
  match idx 0 col, idx 1 row with
  | .ok c, .ok r => .ok (c * agStride a 0 + r * agStride a 1)
  | .error e, _ => .error e
  | _, .error e => .error e

/-- The first byte of the space a set names (R71). -/
def agOrigin (a : BitVec 512) : Nat := if agMode a then agBase a / 256 else agBase a % 2 ^ 56

/-- Where an element of a plane tensor keeps bit p (R91): the byte offset from its first byte, and the bit there. Plane
0 holds bit 7 of the codes. -/
def planeBit (i p : Nat) : Nat × Nat := (i / 1024 * 1024 + 128 * p + i % 1024 / 8, i % 8)

end Sys2Proof.Machine
end

