-- ==== Sys2Proof/Machine/SysCheck.lean ====
section
/-! DEFINITION. System registers (R80 to R84, R198, Tables 10.6, 23.3) and the refusals of the system operations (R199 to
R205, R388, R356, Table 24.6). -/

namespace Sys2Proof.Machine

open Sys2Proof

/-! Contract headers (Table 6.2). -/

/-- VALID. -/
def hValid (h : Word) : Bool := h.getLsbD 63
/-- PART. -/
def hPart (h : Word) : Nat := bits h.toNat 58 55
/-- RANK. -/
def hRank (h : Word) : Nat := bits h.toNat 15 13
/-- LADDER. -/
def hLadder (h : Word) : Nat := bits h.toNat 12 11
/-- CEIL. -/
def hCeil (h : Word) : Nat := bits h.toNat 10 9
/-- FLOOR. -/
def hFloor (h : Word) : Nat := bits h.toNat 8 7
/-- RUNG. -/
def hRung (h : Word) : Nat := bits h.toNat 6 5
/-- The header with another RUNG. -/
def hSetRung (h : Word) (r : Nat) : Word := BitVec.ofNat 64 (h.toNat - hRung h * 32 + r % 4 * 32)

/-- A well-formed contract (R104): CEIL ≤ FLOOR and a FLOOR the ladder has. -/
def contractOk (h : Word) : Bool :=
  decide (hCeil h ≤ hFloor h) && !(hLadder h = 3) && !(hLadder h = 1 && hFloor h = 3)

/-- Cores of a partition (R9), ascending. -/
def Part.coreList (p : Part) : List Nat := (upto 128).filter fun k => bit p.cols (k / 4)

/-- Does any context not in EMPTY run under an owner (R199, R204)? -/
def State.ownerRuns (s : State) (o : Nat) : Bool := s.ctxs.any fun e => e.2.owner = o && !(e.2.st = .empty)

/-- ACCMAP or LATMAP from the holders of n resources (R84). -/
def grantMap (n sh : Nat) (h : Nat → Option Nat) : Nat :=
  sumN ((upto n).map fun i => match h i with | some c => 2 ^ (sh + i) + c % 4 * 4 ^ i | none => 0)

/-- ROWPROG of a core (Table 7.6); of several stopped calls, the first (DESIGN CHOICE, log 97). -/
def State.rowprog (s : State) (core : Nat) : Nat :=
  match findFirst (fun k => k.core = core && k.stopped.isSome) s.calls with
  | some k =>
    match k.stopped with
    | some (b, row, _) => 2 ^ 63 + b2n b * 2 ^ 62 + k.acc * 2 ^ 58 + k.ctx % 4 * 2 ^ 56 + k.tileNo % 32 * 2 ^ 48 + row
    | none => 0
  | none => 0

/-- TSTAT (Table 23.3). -/
def Ctx.tstat (x : Ctx) : Nat := b2n x.heldBit * 8 + b2n x.intrap * 4 + x.plevel.num

/-- The value of a system register for context `c` (R80). GOVSTAT ATFLOOR follows its Meaning, so reads 1 at reset
(DESIGN CHOICE, log 94). -/
def State.sysReg (s : State) (c n : Nat) : Nat :=
  let x := s.ctx c
  let o := (s.owner x.owner).hdr
  let k := s.core (coreOf c)
  match n with
  | 0x00 => x.level.num
  | 0x01 => x.part * 2 ^ 40 + x.tenant * 2 ^ 37 + c * 2 ^ 14 + x.member * 2 ^ 8 + x.members
  | 0x02 => x.owner * 2 ^ 24 + hRank o * 2 ^ 21 + hLadder o * 2 ^ 19 + hCeil o * 2 ^ 17 + hFloor o * 2 ^ 15 + hRung o * 2 ^ 13
  | 0x03 => x.breaches * 2 ^ 48 + x.narrows * 2 ^ 32 + x.lastres * 2 ^ 8 + b2n (decide ((s.col (colOf c)).q < 8)) * 8 +
      b2n (hRung o = hFloor o) * 4 + hRung o
  | 0x04 => s.now c % 2 ^ 64
  | 0x05 => k.wheel.toNat
  | 0x06 => grantMap 16 32 fun i => (tget {} k.accs i).holder
  | 0x07 => grantMap 4 8 fun i => (tget {} k.lats i).holder
  | 0x10 => (s.part x.part).govload.toNat
  | 0x11 => s.rowprog (coreOf c)
  | 0x12 => (s.part x.part).lbxdrop
  | 0x13 => s.pkg.tlim
  | 0x14 => (s.tvec x).toNat
  | 0x15 => s.pkg.hflogCount % 4096 * 2 ^ 52 + s.pkg.hflogBase * 2 ^ 12 + s.pkg.hflogNpg
  | 0x16 => x.flt.w0.toNat
  | 0x17 => x.flt.pc.toNat
  | 0x18 => x.flt.adr.toNat
  | 0x19 => x.flt.opa.toNat
  | 0x1A => x.flt.opb.toNat
  | 0x1B => x.flt.opc.toNat
  | 0x1C => x.tretpc.toNat
  | 0x1D => x.tstat
  | 0x1E => x.tscra.toNat
  | 0x1F => x.tscrb.toNat
  | _ => 0

/-- The machine as the scheduler cycle began. -/
def State.atDawn (s : State) : State :=
  match s.dawn with
  | some d => { s with ctxs := d.ctxs, cores := d.cores, calls := d.calls, cols := d.cols, parts := d.parts, owners := d.owners,
                       occ := d.occ, pkg := d.pkg }
  | none => s

/-- What a context holds of a core's tiles and latches now, beside what others held of it before. -/
def Core.withHeld (before now : Core) (c : Nat) : Core :=
  { before with
    accs := (now.accs.filter fun e => e.2.holder = some c).foldl (fun t e => tset {} t e.1 e.2) before.accs
    lats := (now.lats.filter fun e => e.2.holder = some c).foldl (fun t e => tset {} t e.1 e.2) before.lats }

/-- The machine as the cycle began, to a context: one that began in this very cycle, EMPTY or CLAIMED before it, has itself
and its grants as they stand, for it was nothing then. -/
def State.dawnOf (s : State) (c : Nat) : State :=
  let t := s.atDawn
  if (t.ctx c).st = .empty || (t.ctx c).st = .claimed then
    (t.setCtx c (s.ctx c)).setCore (coreOf c) ((t.core (coreOf c)).withHeld (s.core (coreOf c)) c)
  else t

/-- What SYSRD of a register gives (R80, R198): its value at the start of the cycle. The level, identity, cycle count and trap
registers are the context's own, and stand as they are when its bundle issues. -/
def State.sysSeen (s : State) (c n : Nat) : Nat :=
  if n = 0 || n = 1 || n = 4 || decide (0x16 ≤ n) then s.sysReg c n else (s.dawnOf c).sysReg c n

/-- The level that may read a register; none when no chapter assigns it (Tables 4.5, 10.6, 23.3). -/
def regReadLevel (n : Nat) : Option Level :=
  if n < 8 then some .U
  else if n = 0x15 then some .H
  else if 0x10 ≤ n ∧ n ≤ 0x1F then some .S
  else none

/-- The level that may write a register; none when nobody may. -/
def regWriteLevel (n : Nat) : Option Level :=
  match n with
  | 0x10 => some .S | 0x12 => some .S | 0x13 => some .H | 0x14 => some .S | 0x15 => some .H
  | 0x1C => some .S | 0x1D => some .S | 0x1E => some .S | 0x1F => some .S
  | _ => none

/-- Is an instance of a class one of the partition's (R114)? -/
def State.instOk (s : State) (p cls inst : Nat) : Bool :=
  match cls with
  | 0 => decide (inst < 128) && bit (s.part p).cols (inst / 4)
  | 2 => (s.part p).slices.contains inst
  | 3 => (s.part p).chans.contains inst
  | _ => decide (inst < 32) && bit (s.part p).cols inst

/-- The SYSTEM cause of a register read (Table 24.6). -/
def readErr (lv : Level) (n : Nat) : Option (Nat × Nat) :=
  match regReadLevel n with
  | none => some (1, n)
  | some l => if lv.num < l.num then some (2, n) else none

/-- The SYSTEM cause of a register write (Table 24.6): an assigned number, a write level, the level itself, RO fields
that would change, and the limits of GOVLOAD and TRETPC. -/
def State.writeErr (s : State) (x : Ctx) (n v : Nat) : Option (Nat × Nat) :=
  match regReadLevel n, regWriteLevel n with
  | none, _ => some (1, n)
  | some _, none => some (3, n)
  | some _, some l =>
    if x.level.num < l.num then some (2, n)
    else
      match n with
      | 0x10 => if bit v 63 && (decide (4 < bits v 62 60) || !s.instOk x.part (bits v 62 60) (bits v 49 40)) then some (11, 0) else none
      | 0x15 => if v / 2 ^ 52 = s.pkg.hflogCount % 4096 then none else some (3, n)
      | 0x1C => if v / 2 ^ 56 = 0 then none else some (5, 0)
      | 0x1D => if v % 8 = x.tstat % 8 then none else some (3, n)
      | _ => none

/-- Writes a system register (R198): its writable fields (R6, R7). -/
def State.sysWrite (s : State) (c n v : Nat) : State :=
  let x := s.ctx c
  match n with
  | 0x10 => s.updPart x.part fun p => { p with govload := BitVec.ofNat 64 (bits v 63 60 * 2 ^ 60 + bits v 49 40 * 2 ^ 40 + v % 2 ^ 16) }
  | 0x12 => s.updPart x.part fun p => { p with lbxdrop := v % 2 ^ 32 }
  | 0x13 => s.updPkg fun k => { k with tlim := v % 2 ^ 16 }
  | 0x14 =>
    let old : Tenant := tget {} (s.part x.part).tenants x.tenant
    let new : Tenant := { old with tvec := BitVec.ofNat 64 (bits v 63 63 * 2 ^ 63 + v % 2 ^ 56) }
    s.updPart x.part fun p => { p with tenants := tset {} p.tenants x.tenant new }
  | 0x15 => s.updPkg fun k => { k with hflogBase := bits v 51 12, hflogNpg := v % 256 }
  | 0x1C => s.updCtx c fun x => { x with tretpc := BitVec.ofNat 64 v }
  | 0x1E => s.updCtx c fun x => { x with tscra := BitVec.ofNat 64 v }
  | 0x1F => s.updCtx c fun x => { x with tscrb := BitVec.ofNat 64 v }
  | _ => s

/-- Writing 1 to HELD (R338): every held entry is discarded with its tagged result. -/
def Ctx.dropHeld (x : Ctx) : Ctx :=
  match x.snap with
  | some sn =>
    let ids := sn.heldL.map QEntry.id
    let sn' : Snap := { sn with heldL := [], heldW := [], results := sn.results.filter fun l => !ids.contains l.src }
    { x with heldBit := false, snap := some sn' }
  | none => { x with heldBit := false }

/-- A range word (Table 10.11): release, first, count; none when its unused bits are not zero or the range is empty or
runs past `top`. -/
def rangeWord (v top : Nat) : Option (Bool × Nat × Nat) :=
  if bits v 63 32 = 0 && bits v 30 26 = 0 && bits v 15 10 = 0 && decide (0 < bits v 25 16) &&
      decide (bits v 9 0 + bits v 25 16 ≤ top) then some (bit v 31, bits v 9 0, bits v 25 16)
  else none

/-- The units FIRST to FIRST + COUNT − 1. -/
def rangeList (first count : Nat) : List Nat := (upto count).map (first + ·)

/-- Does a partition other than `p` hold a unit? -/
def State.heldElsewhere (s : State) (p : Nat) (get : Part → List Nat) (l : List Nat) : Bool :=
  s.parts.any fun e => !(e.1 = p) && (get e.2).any fun u => l.contains u

/-- The refusal of PARTSLC, PARTCHN or PARTLNK for its range (Table 10.10). -/
def State.unitErr (s : State) (p v top : Nat) (get : Part → List Nat) : Option Nat :=
  match rangeWord v top with
  | none => some 5
  | some (rel, first, count) =>
    let l := rangeList first count
    if rel then (if l.all fun u => (get (s.part p)).contains u then none else some 7)
    else if s.heldElsewhere p get l then some 7 else none

/-- Is a core, by its column, one of the partition's? -/
def State.coreIn (s : State) (p core : Nat) : Bool := decide (core < 128) && bit (s.part p).cols (core / 4)

/-- Does the unit of a descriptor exist (Table 25.8)? -/
def unitOk (v : Nat) : Bool :=
  let u := bits v 59 48
  let loc := v % 2 ^ 48
  match v / 2 ^ 60 with
  | 0 => decide (u < 1024) && decide (loc < 1024)
  | 1 => decide (u < 1024) && decide (loc < 1024)
  | 2 => u = 0 && decide (loc < 2 ^ 45)
  | 3 => decide (u < 128) && decide (loc < 2 ^ 21) && loc % 8 = 0
  | 4 => decide (u < 4) && decide (loc < 480 * 2 ^ 20) && loc % 8 = 0
  | 5 => decide (u < 128) && decide (bits loc 15 8 < 160) && bits loc 47 18 = 0 && bits loc 7 0 = 0
  | 6 => decide (u < 128) && decide (bits loc 15 8 < 64) && bits loc 47 18 = 0 && bits loc 7 0 = 0
  | 7 => decide (u < 128) && decide (loc < 16)
  | 8 => decide (u < 128) && decide (loc < 4)
  | 9 => decide (u < 128) && decide (loc < 1024)
  | 10 => decide (u < 4) && decide (loc < 1024)
  | 11 => decide (u < 4) && decide (loc < 4096)
  | 12 => decide (u < 32) && decide (loc < 16)
  | 13 => decide (u < 32) && decide (loc < 32768)
  | 14 => decide (u < 128) && bits loc 47 18 = 0 && bits loc 7 0 = 0
  | _ => false

/-- The positions of a WHEEL word that are valid (Table 4.11). -/
def wheelPos (w : Nat) : List Nat :=
  (upto 4).filterMap fun j => let f := bits w (10 * j + 9) (10 * j); if 512 ≤ f then some (f % 512) else none

/-- Is the TDI of a partition locked (R309): from CONFIG_LOCKED until CONFIG_UNLOCKED? -/
def State.locked (s : State) (p : Nat) : Bool := !((s.part p).tdi = .unlocked)

/-- Does a column hold a byte of a BASE tile (R126)? -/
def State.holdsBase (s : State) (col : Nat) : Bool :=
  s.tiles.any fun t => t.level = .BASE && t.place.any fun e => e.1 = col

/-- The refusal of PARTCOL (Table 10.10). -/
def State.partcolErr (s : State) (p v : Nat) : Option Nat :=
  let old := (s.part p).cols
  let gained := (upto 32).filter fun c => bit v c && !bit old c
  let lost := (upto 32).filter fun c => !bit v c && bit old c
  if !(v / 2 ^ 32 = 0) then some 5
  else if gained.any fun c => s.parts.any fun e => !(e.1 = p) && bit e.2.cols c then some 7
  else if lost.any fun c => s.holdsBase c || s.ctxs.any fun e => colOf e.1 = c && !(e.2.st = .empty) then some 7
  else none

/-- The owner operand of a level S form: the unused bits, then the partition at level S (R199, R356). -/
def State.ownerErr (s : State) (x : Ctx) (a : Nat) : Option Nat :=
  if 256 ≤ a then some 5
  else if x.level = .S && !((s.owner a).part = some x.part) then some 4
  else none

/-- The slice operand of WAYSET and OCCRD. -/
def State.sliceErr (s : State) (x : Ctx) (sl : Nat) : Option Nat :=
  if x.level = .S && !(s.part x.part).slices.contains sl then some 4 else none

/-- The first of two causes. -/
def orErr (a b : Option Nat) : Option Nat := match a with | some k => some k | none => b

/-- The refusal of OWNSET (R199). -/
def State.ownsetErr (s : State) (x : Ctx) (a v : Nat) : Option Nat :=
  let h := BitVec.ofNat 64 v
  orErr (s.ownerErr x a) <|
    if !(bits v 62 59 = 0) || !(bits v 54 16 = 0) || !(bits v 4 0 = 0) then some 5
    else if !contractOk h || !((s.owner a).part = some (hPart h)) then some 6
    else if !hValid h && s.ownerRuns a then some 7
    else none

/-- The refusal of RNGSET (R388). -/
def State.rngErr (s : State) (x : Ctx) (a b n : Nat) : Option Nat :=
  let e := a % 64
  let t := bits a 10 8
  let r := tget none (s.part x.part).ranges e
  if !(bits a 7 6 = 0) || !(a / 2 ^ 11 = 0) || decide (2 ^ 56 ≤ b) || !(b % 2 ^ 21 = 0) || decide (2 ^ 56 < b + n * 2 ^ 21) then some 5
  else if (match r with | some y => y.device | none => false) then some 5
  else if 0 < n ∧ (s.part x.part).ranges.any (fun z => !(z.1 = e) && (match z.2 with
      | some y => y.tenant = t && decide (b < y.base + y.len ∧ y.base < b + n * 2 ^ 21)
      | none => false)) then some 5
  else none

/-- The refusal of WHLSET (R201). -/
def State.whlErr (s : State) (x : Ctx) (a v : Nat) : Option Nat :=
  if 128 ≤ a || !(v / 2 ^ 40 = 0) then some 5
  else if x.level = .S && !s.coreIn x.part a then some 4
  else
    let holder := findFirst (fun e => bit e.2.cols (a / 4)) s.parts
    let ps := wheelPos v
    let own := match holder with | some e => e.2.coreList | none => []
    if ps.any fun p => !own.contains (p / 4) then some 10
    else if ps.any fun p => s.cores.any fun e => !(e.1 = a) && (wheelPos e.2.wheel.toNat).contains p then some 10
    else none

/-- The refusal of TLBINV's operands (R202). -/
def tlbinvErr (a b kind : Nat) : Option Nat :=
  match kind with
  | 0 => if a < 8 && b = 0 then none else some 5
  | 1 => if a < 2 ^ 56 && b < 8 then none else some 5
  | _ => if a = 0 && b = 0 then none else some 5

/-- The refusal of FRMSET (R205). -/
def State.frmErr (s : State) (p b n : Nat) : Option Nat :=
  if 12 ≤ p then some 5
  else if n = 0 then none
  else if b % 4096 = 0 && !paHost b && b / 2 ^ 47 = p &&
      decide (paOff b + 4096 * n ≤ (s.part p).chans.length * chanBytes) then none
  else some 5

/-- A partition operand of a level H form: sP[63:4] zero and a partition that exists (R204, R205). -/
def partErr (a : Nat) : Option Nat := if a < 12 then none else some 5

/-- CODE 8: the operations that R309 refuses while the TDI is locked. -/
def State.lockErr (s : State) (p : Nat) : Option Nat := if s.locked p then some 8 else none

/-- The SYSTEM cause of a slot C operation (R356), with FLTADR: none when it is carried out. -/
def State.sysErr (s : State) (r : Run) : Option (Nat × Nat) :=
  let a := r.src 0
  let b := r.src 1
  let z := fun (e : Option Nat) => e.map fun k => (k, 0)
  match r.i with
  | .sysrd w => readErr r.x.level w.imm24.toNat
  | .syswr w => s.writeErr r.x w.imm24.toNat b
  | .govloadWrite _ => s.writeErr r.x 0x10 b
  | .tretpcWrite _ => s.writeErr r.x 0x1C b
  | .tstatWrite _ => s.writeErr r.x 0x1D b
  | .tret _ => if r.x.intrap then none else some (9, 0)
  | .ownset _ => z (s.ownsetErr r.x a b)
  | .ownlat _ => z (orErr (s.ownerErr r.x a) (if b < 65536 then none else some 5))
  | .ownbkt _ => z (orErr (s.ownerErr r.x a) (if bits b 63 43 = 0 && bits b 31 15 = 0 && decide (bits b 42 32 ≤ 1024) &&
      bits b 14 0 % 128 = 0 && decide (128 ≤ bits b 14 0 ∧ bits b 14 0 ≤ 16384) then none else some 5))
  | .ownrd _ => z (s.ownerErr r.x b)
  | .wayset _ => z (orErr (s.ownerErr r.x a) (if b < 2 ^ 26 then s.sliceErr r.x (bits b 25 16) else some 5))
  | .occrd _ => z (if b < 2 ^ 26 && bits b 15 8 = 0 then orErr (s.ownerErr r.x (b % 256)) (s.sliceErr r.x (bits b 25 16)) else some 5)
  | .rngset w => z (s.rngErr r.x a b w.imm24.toNat)
  | .whlset _ => z (s.whlErr r.x a b)
  | .tlbinv w => z (tlbinvErr a b w.imm24.toNat)
  | .mswr _ => z (if a < 1024 then none else some 5)
  | .rtset _ => z (if a < 64 then none else some 5)
  | .partset _ => z (orErr (partErr a) (if !(b / 2 = 0) then some 5 else if b = 1 then none
      else orErr (s.lockErr a) (if (s.part a).cols = 0 && (s.part a).slices.isEmpty && (s.part a).chans.isEmpty &&
        (s.part a).lanes.isEmpty && !s.owners.any (fun e => e.2.part = some a) then none else some 7)))
  | .partcol _ => z (orErr (partErr a) (orErr (s.lockErr a) (s.partcolErr a b)))
  | .partslc _ => z (orErr (partErr a) (orErr (s.lockErr a) (s.unitErr a b 1024 Part.slices)))
  | .partchn _ => z (orErr (partErr a) (orErr (s.lockErr a) (s.unitErr a b 256 Part.chans)))
  | .partlnk _ => z (orErr (partErr a) (orErr (s.lockErr a) (s.unitErr a b 64 Part.lanes)))
  | .ownasgn _ => z (if 256 ≤ a || !(bits b 62 4 = 0) || decide (12 ≤ b % 16) then some 5
      else orErr (s.lockErr (b % 16)) (if bit b 63 then
        (if (s.owner a).part = some (b % 16) && !s.ownerRuns a then none else some 7)
      else if (s.owner a).part = none || (s.owner a).part = some (b % 16) then none else some 7))
  | .tenset _ => z (orErr (partErr a) (if bits b 63 40 = 0 && bits b 7 4 = 0 && decide (0 < bits b 39 8) then
      (if bit b 3 && decide (8 ≤ ((s.part a).tenants.filter fun t => t.2.en && !(t.1 = b % 8)).length) then some 7 else none)
      else some 5))
  | .genadv _ => z (partErr a)
  | .errinj _ => z (if unitOk a then none else some 5)
  | .selftst _ => z (if unitOk a then none else some 5)
  | .ctxstop _ => z (if a < 512 then none else some 5)
  | .frmset w => z (s.frmErr a b w.imm24.toNat)
  | _ => none

end Sys2Proof.Machine
end

