-- ==== Sys2Proof/Machine/Check.lean ====
section
/-! DEFINITION. The faults a bundle can meet before it issues (R179, R334, R349 to R356): the registers each operation
reads and writes (R352), its tokens, targets, latches, grants and operand values, and the one fault that is recorded. -/

namespace Sys2Proof.Machine

open Sys2Proof

/-- Is the operation suppressed as a whole by its guard (R30)? -/
def Run.sup (r : Run) : Bool := !r.f.ew && !r.x.guard r.f.pred r.f.sense

/-- The information of a fault of the operation found before issue (R349). -/
def Run.info (r : Run) (cls code adr : Nat) : FaultInfo :=
  let o := r.oprec
  { cls := cls, code := code, slot := r.f.slot.num, adr := adr, opa := o.1, opb := o.2.1, opc := o.2.2, pc := r.k.h }

/-- The consumed token of a slot C, L or W word, with the producer it stands for now. -/
def Ctx.tokRef (x : Ctx) (k : BitVec 7) : Option (Nat × Nat) := (tokNum k).map fun n => (n, (x.token n).prod)

/-! Privilege and tokens. -/

/-- PRIV (Table 24.1). -/
def Run.privErr (r : Run) : Option FaultInfo :=
  if r.x.level.num < r.f.level.num then some (r.info 2 r.f.level.num 0) else none

/-- The record a consumer receives of a failed token (R342): the command's own words, with the consumer's slot. -/
def tokenInfo (slot k : Nat) (r : Rec) : FaultInfo :=
  { cls := 0x0C, code := r.code, sub := r.w0.toNat / 2 ^ 41 % 128, slot := slot, tok := k, adr := r.adr.toNat,
    opa := r.opa.toNat, opb := r.opb.toNat, opc := r.opc.toNat, pc := r.pc.toNat, delayed := true }

/-- TOKEN (R342): the first consumed token that is complete with a failure. -/
def Run.tokenErr (r : Run) : Option FaultInfo :=
  (r.f.kins.filterMap fun k => match tokNum k with
    | some n => (r.x.tokFail (some n)).map (tokenInfo r.f.slot.num n)
    | none => none).head?

/-! Targets of transfers (R165, R188). -/

/-- H + 8 × sext(IMM24, 24), an unbounded integer (R36). -/
def dispInt (h : Nat) (imm : BitVec 24) : Int := (h : Int) + 8 * sext imm.toNat 24

/-- The same as a 64-bit address; one that leaves the 56 bits of an address lies in no object. -/
def dispTarget (h : Nat) (imm : BitVec 24) : Nat := wrapN (dispInt h imm) 64

/-- The SAFE bit of the bundle header at an address. -/
def State.safeAt (s : State) (part tenant a : Nat) : Bool :=
  match s.peekVa part tenant a 4 with
  | some b => bit (ofBytes b) 9
  | none => false

/-- A TARGET cause of an address that control of context `c` would reach (Table 24.1); what a failing fetch hides is left to
XLATE (R168). `reg`: a register gives the address; `calli`: a CALLI goes there. -/
def State.targetErr (s : State) (c a : Nat) (reg calli : Bool) : Option (Nat × Nat) :=
  let x := s.ctx c
  if 2 ^ 56 ≤ a then some (if reg then 4 else 2, a)
  else
    match s.objectAt x.part x.tenant a with
    | none => some (2, a)
    | some o =>
      match s.mapFetchIn c a (some o) with
      | .err _ => none
      | .wait _ => none
      | .ok _ =>
        match s.startErr x.part x.tenant a with
        | some k => some (k, a)
        | none =>
          match s.fetchPage c a with
          | .err _ => none
          | _ => if calli && !s.safeAt x.part x.tenant a then some (3, a) else none

/-- A target of a transfer: the address, whether a register gives it, and whether a CALLI goes there. -/
structure Target where
  addr  : Nat
  reg   : Bool
  calli : Bool
  deriving DecidableEq, Repr

/-- Where an operation would transfer control as its bundle issues (R168, R188, R189). -/
def Run.target (r : Run) : Option Target :=
  match r.i with
  | .br w => some ⟨dispTarget r.k.h w.imm24, false, false⟩
  | .bri _ => some ⟨r.src 0, true, false⟩
  | .call w => some ⟨dispTarget r.k.h w.imm24, false, false⟩
  | .calli _ => some ⟨r.src 1, true, true⟩
  | .ret _ => some ⟨r.src 0, true, false⟩
  | .loop w => if r.src 0 = 0 && decide (((r.k.h + r.k.size : Nat) : Int) < dispInt r.k.h w.imm24) then
      some ⟨dispTarget r.k.h w.imm24, false, false⟩ else none
  | .tret _ => some ⟨r.x.tretpc.toNat, true, false⟩
  | _ => none

/-- The state a transfer's target is checked in: TRET's at the level it returns to. -/
def State.targetView (s : State) (r : Run) : State :=
  match r.i with
  | .tret _ => s.updCtx r.c fun x => { x with level := x.plevel }
  | _ => s

/-- TARGET of an operation. TRET gives CODE 5 for every cause (Table 24.1). -/
def State.targetOf (s : State) (r : Run) : Option (Nat × Nat) :=
  match r.target with
  | none => none
  | some t =>
    match (s.targetView r).targetErr r.c t.addr t.reg t.calli, r.i with
    | some _, .tret _ => some (5, t.addr)
    | e, _ => e

/-- The fetch of a transfer's target (R168), at the level the target would run at. -/
def State.targetFetch (s : State) (r : Run) : Walk Unit :=
  match r.target with
  | none => .ok ()
  | some t =>
    let s := s.targetView r
    let x := s.ctx r.c
    match s.codeWants x.part x.tenant t.addr with
    | some p => .wait p
    | none =>
      match s.fetchAll r.c t.addr (s.objectAt x.part x.tenant t.addr) with
      | .err k => .err k
      | .wait p => .wait p
      | .ok _ => .ok ()

/-- The XLATE cause of that fetch. -/
def State.targetXlate (s : State) (r : Run) : Option (Nat × Nat) :=
  match s.targetFetch r, r.target with
  | .err k, some t => some (k, t.addr)
  | _, _ => none

/-- LOOP (Table 24.1). -/
def Run.loopErr (r : Run) : Option (Nat × Nat) :=
  match r.i with
  | .loop w =>
    if dispInt r.k.h w.imm24 ≤ ((r.k.h + r.k.size : Nat) : Int) then some (1, dispTarget r.k.h w.imm24)
    else if r.src 0 ≠ 0 ∧ 4 ≤ r.x.loops.length then some (2, dispTarget r.k.h w.imm24)
    else none
  | _ => none

/-- The loop-end step of R189 after a bundle ending at `e` that did not transfer: the loop stack and where control goes. -/
def loopEnd (e depth : Nat) : List LoopEnt → List LoopEnt × Nat
  | [] => ([], e)
  | t :: l =>
    if t.depth = depth && t.stop = e then
      if 1 < t.left then ({ t with left := t.left - 1 } :: l, t.start) else loopEnd e depth l
    else (t :: l, e)

/-- Does an operation transfer control, or change the loop stack, as its bundle issues? -/
def Run.turns (r : Run) : Bool :=
  r.target.isSome || (match r.i with | .loop _ => true | .exit _ => true | _ => false)

/-- The TARGET cause of the loop back edge that a bundle would take (R165, R189), with no slot of its own. -/
def State.backErr (s : State) (k : Cur) (live : List Run) : Option FaultInfo :=
  let a := (loopEnd (k.h + k.size) k.before.depth k.before.loops).2
  if live.any Run.turns || a = k.h + k.size then none
  else (s.targetErr k.ctx a false false).map fun e => { cls := 3, code := e.1, adr := e.2, pc := k.h }

/-! Schedule violations (R352). -/

/-- The address-generator sets a descriptor names. -/
def descSets (d : Nat) : List Nat := (if dKind d then [] else [dAg d]) ++ (if dScen d then [dScag d] else [])

/-- The routine table entry of a call. -/
def Run.routine (r : Run) (s : State) : Nat :=
  match r.i with
  | .mcall w => (tget 0 (s.core (coreOf r.c)).routs w.rout.toNat).toNat
  | _ => 0

/-- The latches that the LATA and LATB words of a routine name. -/
def State.routineLatches (s : State) (core entry : Nat) : List Nat :=
  let first := entry % 1024
  let last := bits entry 25 16
  (upto (last + 1 - first)).filterMap fun i =>
    let w := (tget 0 (s.core core).store (first + i)).toNat
    if w % 256 = 4 || w % 256 = 5 then some (bits w 33 32) else none

/-- The latches a call reads (R234), ascending. -/
def State.callLatches (s : State) (r : Run) : List Nat :=
  let d := fun n => if dKind n then [dLatch n] else []
  let l := d (r.src 0) ++ d (r.src 1) ++ s.routineLatches (coreOf r.c) (r.routine s)
  (upto 4).filter fun i => l.contains i

/-- The destinations an operation reads: its guard, its register sources, and what its form reads besides. -/
def State.reads (s : State) (r : Run) : List (Cls × Nat) :=
  let guard := if r.f.pred = 0x7F then [] else [(Cls.p, r.f.pred.toNat)]
  let srcs := r.f.flds.flatMap fun f => match f.role with
    | .src c _ _ => if f.val < c.count then [(c, f.val)] else []
    | .push => [(Cls.v, f.val), (Cls.v, f.val + 1), (Cls.v, f.val + 2)]
    | _ => []
  let more := match r.i with
    | .vins w => [(Cls.v, w.dst.toNat)]
    | .mcall _ => (upto 8).map (fun i => (Cls.m, i)) ++ (descSets (r.src 0) ++ descSets (r.src 1)).map (fun i => (Cls.ag, i)) ++
        (s.callLatches r).map fun i => (Cls.l, i)
    | .latld _ => (descSets (r.src 0)).map fun i => (Cls.ag, i)
    | .accst w => (descSets (r.src 0)).map (fun i => (Cls.ag, i)) ++ [(Cls.a, w.tgt.toNat)]
    | .accmov w => [(Cls.a, w.src1.toNat)]
    | .accrd w => [(Cls.a, w.src1.toNat)]
    | _ => []
  guard ++ srcs ++ more

/-- The destinations an operation writes; one that draws from a set advances it (R197). -/
def Run.writes (r : Run) : List (Cls × Nat) :=
  (r.f.flds.flatMap fun f => match f.role with
    | .dst c => if c = .s && f.val = 0 then [] else [(c, f.val)]
    | .src .ag _ _ => if f.val < 16 then (match r.i with
        | .vldg _ | .tldg _ | .vsts _ | .tsts _ => [(Cls.ag, f.val)]
        | _ => []) else []
    | _ => []) ++
  (match r.i with
    | .mcall w | .accget w | .accput w | .accclr w | .accmov w => [(Cls.a, w.tgt.toNat)]
    | .latget w | .latput w | .latld w => [(Cls.l, w.tgt.toNat)]
    | _ => [])

/-- The FLTADR of a SCHED fault (Table 24.3). -/
def schedAdr (left : Nat) (c : Cls) (n : Nat) : Nat := left * 2 ^ 16 + n % 256 * 256 + c.num

/-- Is a result or window in flight one of an accumulator tile or latch that CODE 4 concerns: of a call, of LATLD, or
ACCST's source window? -/
def Landing.window (l : Landing) : Bool := (l.cls = .a || l.cls = .l) && l.src ≠ 0

/-- The SCHED cause of a read: an ACCST window forbids no read. -/
def State.readErrOf (s : State) (r : Run) (k : Cls × Nat) : Option (Nat × Nat) :=
  let l := findFirst (fun l => l.cls = k.1 && l.idx = k.2 && !(l.cls = .a && l.val.isSome)) r.x.inflight
  match l with
  | some l => if k.1 = .s && k.2 = 0 then none
      else some (if l.window then 4 else 1, schedAdr (l.due - s.now r.c) k.1 k.2)
  | none => none

/-- The SCHED cause of a write. -/
def State.writeErrOf (s : State) (r : Run) (k : Cls × Nat) : Option (Nat × Nat) :=
  match r.x.busy k.1 k.2 with
  | some l => some (if l.window then 4 else 2, schedAdr (l.due - s.now r.c) k.1 k.2)
  | none =>
    if k.1 = .l then
      match findFirst (fun c => c.ctx = r.c && c.latches.contains k.2) s.calls with
      | some c => some (4, schedAdr (c.c0 + c.lat + c.frz - s.now r.c) k.1 k.2)
      | none => none
    else none

/-- Is a landing of the program's that a handler interrupts, no result of the handler (R340)? -/
def Ctx.ofProgram (x : Ctx) (l : Landing) : Bool :=
  match x.snap with
  | some sn => (l.src ≠ 0 && decide (l.src < sn.mark)) || sn.wins.contains l
  | none => false

/-- The SCHED cause of one operation, given what the operations of lower slots write. -/
def State.schedErr (s : State) (r : Run) (earlier : List (Cls × Nat)) : Option (Nat × Nat) :=
  match ((s.reads r).filterMap (s.readErrOf r)).head? with
  | some e => some e
  | none =>
    match (r.writes.filterMap fun k => if earlier.contains k then some (3, schedAdr 0 k.1 k.2) else s.writeErrOf r k).head? with
    | some e => some e
    | none =>
      match r.i with
      | .tret _ =>
        (findFirst (fun l => !(r.x.ofProgram l)) r.x.inflight).map fun l =>
          (5, schedAdr (l.due - s.now r.c) l.cls l.idx)
      | _ => none

/-- The SCHED cause of a suppressed operation: its predicate alone (R352). -/
def State.schedSup (s : State) (r : Run) : Option (Nat × Nat) :=
  if r.f.pred = 0x7F then none else s.readErrOf r (.p, r.f.pred.toNat)

/-! Hold latches and grants. -/

/-- HOLD (Table 24.4). -/
def Run.holdErr (r : Run) : Option (Nat × Nat) :=
  (r.f.flds.filterMap fun f => match f.role with
    | .src c _ true =>
      if f.val = 0xFF then
        match r.x.latch r.f.slot f.idx with
        | none => some (1, r.f.slot.num + 16 * f.idx)
        | some h => if h.cls = c then none else some (2, r.f.slot.num + 16 * f.idx)
      else none
    | _ => none).head?

/-- Does a context hold an accumulator tile (R77)? -/
def State.holdsAcc (s : State) (c a : Nat) : Bool := (tget {} (s.core (coreOf c)).accs a).holder = some c
/-- Does a context hold a latch? -/
def State.holdsLat (s : State) (c l : Nat) : Bool := (tget {} (s.core (coreOf c)).lats l).holder = some c

/-- The first number of a list that a test refuses. -/
def firstBad (ok : Nat → Bool) (code : Nat) (l : List Nat) : Option (Nat × Nat) :=
  (findFirst (fun n => !ok n) l).map fun n => (code, n)

/-- GRANT (Table 24.4). -/
def State.grantErr (s : State) (r : Run) : Option (Nat × Nat) :=
  match r.i with
  | .mcall w =>
    match firstBad (s.holdsAcc r.c) 1 [w.tgt.toNat] with
    | some e => some e
    | none => firstBad (s.holdsLat r.c) 2 (s.callLatches r)
  | .accclr w => firstBad (s.holdsAcc r.c) 1 [w.tgt.toNat]
  | .accmov w => firstBad (s.holdsAcc r.c) 1 [w.tgt.toNat, w.src1.toNat]
  | .accst w => firstBad (s.holdsAcc r.c) 1 [w.tgt.toNat]
  | .accrd w => firstBad (s.holdsAcc r.c) 1 [w.src1.toNat]
  | .accput w => firstBad (s.holdsAcc r.c) 3 [w.tgt.toNat]
  | .latput w => firstBad (s.holdsLat r.c) 3 [w.tgt.toNat]
  | .latld w => firstBad (s.holdsLat r.c) 2 [w.tgt.toNat]
  | _ => none

/-! Operands (Table 24.5). -/

/-- FLTADR of a tile offset: handle in [7:0], offset in [63:8]. -/
def offAdr (h : Nat) (off : Int) : Nat := h % 256 + 256 * wrapN off 56

/-- TLD and TST (R222, R223). -/
def State.tileErr (s : State) (r : Run) (h : Nat) (t : Ty) (off8 : BitVec 8) (load : Bool) : Option (Nat × Nat) :=
  match s.handle r.x h with
  | none => some (0x0101, h)
  | some tl =>
    let ix := r.src 1
    let off := tileOff tl.pitch ix off8
    if !(bits ix 63 48 = 0) then some (0x0104, 0)
    else if t.isP && !(off % 1024 = 0) then some (0x0103, offAdr h off)
    else if off < 0 ∨ (tl.bytesN : Int) < off + tileSpan load t then some (0x0102, offAdr h off)
    else none

/-- The gathers and scatters (R224): MODE, the drawn table entries and, in a tile, the offsets of active elements. -/
def State.drawErr (s : State) (r : Run) (t : Ty) (mode : Bool) : Option (Nat × Nat) :=
  let a := BitVec.ofNat 512 (r.src 0)
  if !(agMode a = mode) then some (0x0105, (r.f.fld 0).val)
  else
    match (if mode then s.handle r.x (agHandle a) else some ⟨0, .LOCAL, 0, 0, 0, 0, 0, 1, 1, 1, [], [], [], false⟩) with
    | none => some (0x0101, agHandle a)
    | some tl =>
      match s.draw r.x (eyeCtx r.c s.serial) t.count a with
      | .error e => some e
      | .ok (l, _) =>
        if !mode then none
        else
          let bad := (l.zipIdx.filter fun e => elemActive r.g r.f.sense t.width e.2 && decide (tl.bytesN < e.1 + t.bytes)).head?
          bad.map fun e => (0x0102, offAdr (agHandle a) e.1)

/-- The handles read through a set (R232): BASE[7:0] in MODE 1, IH with IEN 1. -/
def setHandles (a : BitVec 512) : List Nat := (if agMode a then [agHandle a] else []) ++ (if agIEN a then [agIH a] else [])

/-- The handle causes of a descriptor (Table 24.5, 0x0101). -/
def State.descHandles (s : State) (x : Ctx) (d : Nat) : Option (Nat × Nat) :=
  firstBad (fun h => (s.handle x h).isSome) 0x0101 ((descSets d).flatMap fun n => setHandles (tget 0 x.ag n))

/-- The scale and handle causes of a descriptor of MCALL or LATLD (Table 24.5, 0x0208 and 0x0101). -/
def State.descErr (s : State) (x : Ctx) (d : Nat) : Option (Nat × Nat) :=
  let sb := agOrigin (tget 0 x.ag (dScag d))
  if 6 ≤ dSch d || (dScen d && (!((dTy d).map Ty.isP = some true) || !(sb % 512 = 0))) then some (0x0208, sb)
  else s.descHandles x d

/-- LATLD (R233). -/
def State.latldErr (s : State) (r : Run) (m : Nat) : Option (Nat × Nat) :=
  let d := r.src 0
  let sk := r.src 1
  let n := bits sk 47 32
  match dTy d with
  | none => if dKind d || !(bits sk 63 48 = 0) then some (0x010A, 0)
      else if !dReserved d || !(dNkt d = 0) || !(dTq d = 0) then some (0x0203, m) else some (0x0204, dType d)
  | some t =>
    if dKind d || !(bits sk 63 48 = 0) || decide (n < 1 ∨ 512 / t.bytes < n) then some (0x010A, 0)
    else if !dReserved d || !(dNkt d = 0) || !(dTq d = 0) then some (0x0203, m)
    else s.descErr r.x d

/-- ACCST (R235). -/
def State.accstErr (s : State) (r : Run) (m : Nat) : Option (Nat × Nat) :=
  let d := r.src 0
  if !dReserved d || dKind d || !(dNkt d = 0) || !(dTq d = 0) || dTrn d || dScen d then some (0x0203, m)
  else if !(dType d = 9 || dType d = 3) then some (0x0204, dType d)
  else
    match s.descHandles r.x d with
    | some e => some e
    | none =>
      let a := tget 0 r.x.ag (dAg d)
      if agMode a then
        match s.gridIndex r.x (eyeCtx r.c s.serial) a 0 (dNcol d + 1) with
        | .error _ => none
        | .ok e => let off := (agOrigin a : Int) + e
                   if off % 8 = 0 then none else some (0x010B, offAdr (agHandle a) off)
      else none

/-- May an operand of a type be stored for a ladder (R96)? -/
def ladderTy (ladder d : Nat) : Bool :=
  match dTy d with
  | some t => if ladder = 2 then t.isP else t.isF || t.isE
  | none => false

/-- KCOUNT of a postmark. -/
def pmCount (pm : Word) : Nat := bits pm.toNat 52 48

/-- MCALL (R238). -/
def State.mcallErr (s : State) (r : Run) (w : MW) : Option (Nat × Nat) :=
  let da := r.src 0
  let db := r.src 1
  let o := s.owner r.x.owner
  let lad := hLadder o.hdr
  let n := w.rout.toNat
  let e := r.routine s
  let pm := (tget {} (s.core (coreOf r.c)).accs w.tgt.toNat).pm
  if !bit e 63 || !(bits e 62 26 = 0) || !(bits e 15 10 = 0) || decide (bits e 25 16 < e % 1024) then some (0x0201, n)
  else if tget 0 o.lat n = 0 then some (0x0202, n)
  else if !dReserved da || dTq da = 0 || !(dNcol da = 0) then some (0x0203, w.src1.toNat)
  else if !dReserved db || !(dTq db = 0) || !(dNkt db = 0) || !(dNrow db = 0) then some (0x0203, w.src2.toNat)
  else if !ladderTy lad da then some (0x0204, dType da)
  else if !ladderTy lad db then some (0x0204, dType db)
  else if w.mode ≠ 0 && (!(lad = 2) || dScen da || dScen db) then some (0x0205, 0)
  else if w.cap ≠ 0 && !(lad = 2) then some (0x0206, 0)
  else if !(pmCount pm = 0) && !(pm.toNat % 256 = r.x.owner && bits pm.toNat 9 8 = lad) then some (0x0207, pm.toNat % 65536)
  else
    match s.descErr r.x da with
    | some x => some x
    | none => s.descErr r.x db

/-- A group of 64 elements of u bytes in the packed format of R258: its mask, its kept elements from byte 8 on, and
its length. `at_` gives the bytes of the stream. -/
def packGroup (at_ : Nat → Nat) (u pos : Nat) : Nat × Nat × Nat :=
  let mask := ofBytes ((upto 8).map fun i => BitVec.ofNat 8 (at_ (pos + i)))
  let kept := popcount mask 64
  (mask, kept, 8 + kept * u)

/-- The elements of a group. -/
def packElems (at_ : Nat → Nat) (u pos mask : Nat) : List Nat :=
  ((upto 64).foldl (fun (acc : List Nat × Nat) i =>
    if bit mask i then (acc.1 ++ [ofBytes ((upto u).map fun j => BitVec.ofNat 8 (at_ (acc.2 + j)))], acc.2 + u)
    else (acc.1 ++ [0], acc.2)) ([], pos + 8)).1

/-- The check of R259 on a group: 64u ≤ RATIO × (8 + kept × u). -/
def ratioOk (ratio u kept : Nat) : Bool := decide (0 < ratio ∧ 64 * u ≤ ratio * (8 + kept * u))

/-- The byte j of the stream XEXP reads: vA, then vB. Its groups take at most 1,152 bytes. -/
def xexpByte (a b : Nat) (j : Nat) : Nat :=
  if j < 1024 then a / 256 ^ j % 256 else b / 256 ^ (j - 1024) % 256

/-- The groups of XEXP (R268): the first that fails its check, and the elements of those that pass. -/
def xexpGroups (a b u ratio : Nat) : Nat → Nat → Nat → Option Nat × List Nat
  | 0, _, _ => (none, [])
  | n + 1, g, pos =>
    let (mask, kept, len) := packGroup (xexpByte a b) u pos
    if ratioOk ratio u kept then
      let r := xexpGroups a b u ratio n (g + 1) (pos + len)
      (r.1, packElems (xexpByte a b) u pos mask ++ r.2)
    else (some g, [])

/-- The entry of a shape handle that is sealed by the partition with the handle's seal count (R256). -/
def State.shapeOf (s : State) (part h : Nat) : Option Shape :=
  if 2 ^ 28 ≤ h then none
  else
    match tget none (s.stack (bits h 27 26)).shapes (h % 1024) with
    | some e => if e.part = part && e.count = bits h 25 10 then some e else none
    | none => none

/-- The positions in force of a core (R201): those of WHEEL, or the replaced ones until the next revolution. -/
def Core.wheelNow (k : Core) : Nat := (match k.wheelOld with | some w => w | none => k.wheel).toNat

/-- Position j of a core's WHEEL, if it is valid (Table 4.11). -/
def Core.position (k : Core) (j : Nat) : Option Nat :=
  let f := bits k.wheelNow (10 * j + 9) (10 * j)
  if 512 ≤ f then some (f % 512) else none

/-- OPERAND (Table 24.5), for the causes found before issue. -/
def State.operandErr (s : State) (r : Run) : Option (Nat × Nat) :=
  match r.i with
  | .ldsc w => if ((s.core (coreOf r.c)).position w.index.toNat).isNone then some (0x0106, w.index.toNat) else none
  | .stsc w => if ((s.core (coreOf r.c)).position w.index.toNat).isNone then some (0x0106, w.index.toNat) else none
  | .tld w => s.tileErr r w.base.toNat (tyOr w.type) w.off8 true
  | .tst w => s.tileErr r w.base.toNat (tyOr w.type) w.off8 false
  | .vldg w => s.drawErr r (tyOr w.type) false
  | .tldg w => s.drawErr r (tyOr w.type) true
  | .vsts w => s.drawErr r (tyOr w.type) false
  | .tsts w => s.drawErr r (tyOr w.type) true
  | .accrd _ => if r.src 1 / 32 = 0 then none else some (0x0109, 0)
  | .latld w => s.latldErr r w.src1.toNat
  | .accst w => s.accstErr r w.src1.toNat
  | .mcall w => s.mcallErr r w
  | .xexp w => let u := (tyOr w.type).bytes
               ((xexpGroups (r.src 0) (r.src 1) u r.x.ratio (8192 / (8 * u) / 64) 0 0).1).map fun g => (0x0107, g)
  | .xratio _ => if 1 ≤ r.src 0 ∧ r.src 0 ≤ 32 then none else some (0x0108, r.src 0)
  | .shfree _ => if (s.shapeOf r.x.part (r.src 0)).isNone then some (0x0303, r.src 0) else none
  | _ => none

/-! The fault that is recorded (R334). -/

/-- The first operation of the bundle, in mask order, that meets a fault. -/
def firstFault (l : List Run) (f : Run → Option FaultInfo) : Option FaultInfo := (l.filterMap f).head?

/-- The first operation that meets a cause of a class. -/
def firstCause (cls : Nat) (l : List Run) (f : Run → Option (Nat × Nat)) : Option FaultInfo :=
  firstFault l fun r => (f r).map fun e => r.info cls e.1 e.2

/-- The SCHED cause of the bundle: operations in mask order, each with what the lower ones write. -/
def State.schedOf (s : State) : List Run → List (Cls × Nat) → Option FaultInfo
  | [], _ => none
  | r :: l, w =>
    match (if r.sup then s.schedSup r else s.schedErr r w) with
    | some e => some (r.info 4 e.1 e.2)
    | none => s.schedOf l (if r.sup then w else w ++ r.writes)

/-- The runs of the operations of a bundle that its slots decoded to; a hint of slot L has none (R178). -/
def runsOf (c : Nat) (k : Cur) (x : Ctx) (ops : List (Slot × Instr)) : List Run :=
  ops.filterMap fun o => if isHint o.2 then none else (formOf o.2).map fun f => ⟨c, k, o.2, f, x⟩

/-- The one fault before issue that a bundle records (R334), none when it issues. ILL was found at decode. -/
def State.bundleFault (s : State) (k : Cur) (l : List Run) : Option FaultInfo :=
  let live := l.filter fun r => !r.sup
  (firstFault l Run.privErr).orElse fun _ =>
  (firstFault l Run.tokenErr).orElse fun _ =>
  (firstCause 3 live s.targetOf).orElse fun _ =>
  (s.backErr k live).orElse fun _ =>
  (s.schedOf l []).orElse fun _ =>
  (firstCause 5 l Run.holdErr).orElse fun _ =>
  (firstCause 6 live s.grantErr).orElse fun _ =>
  (firstCause 7 live s.operandErr).orElse fun _ =>
  (firstCause 8 live Run.loopErr).orElse fun _ =>
  (firstCause 0x0E live s.sysErr).orElse fun _ =>
  firstCause 0x0B live s.targetXlate

end Sys2Proof.Machine
end

