-- ==== Sys2Proof/Machine/Letter.lean ====
section
/-! DEFINITION. Launch letters: their fields and the checks they meet at arrival and at placement (R44 to R46, R106, R370,
R371). -/

namespace Sys2Proof.Machine

open Sys2Proof

/-- SEQ. -/
def lSeq (l : BitVec 512) : Nat := bits l.toNat 255 224
/-- TENANT. -/
def lTenant (l : BitVec 512) : Nat := bits l.toNat 215 213
/-- IRQ. -/
def lIrq (l : BitVec 512) : Bool := bit l.toNat 209
/-- KIND. -/
def lKind (l : BitVec 512) : Nat := bits l.toNat 208 207
/-- CPQ. -/
def lCpq (l : BitVec 512) : Nat := bits l.toNat 206 204
/-- PRIO. -/
def lPrio (l : BitVec 512) : Nat := bits l.toNat 202 200
/-- MEMBERS. -/
def lMembers (l : BitVec 512) : Nat := bits l.toNat 199 192
/-- DONE. -/
def lDone (l : BitVec 512) : Nat := bits l.toNat 183 128
/-- ARGS. -/
def lArgs (l : BitVec 512) : Nat := bits l.toNat 119 64
/-- OWNER. -/
def lOwner (l : BitVec 512) : Nat := bits l.toNat 63 56
/-- ENTRY. -/
def lEntry (l : BitVec 512) : Nat := bits l.toNat 55 0

/-- A letter with another TENANT (R45). -/
def lSetTenant (l : BitVec 512) (t : Nat) : BitVec 512 :=
  BitVec.ofNat 512 (l.toNat - lTenant l * 2 ^ 213 + t % 8 * 2 ^ 213)

/-- The quads a letter's quire spans. -/
def lQuads (l : BitVec 512) : Nat := ceilDiv (lMembers l) (lCpq l)

/-- The fields of a letter lie in their ranges (R44). -/
def lFieldsOk (l : BitVec 512) : Bool :=
  let n := l.toNat
  bits n 511 256 = 0 && bits n 223 216 = 0 && bits n 212 210 = 0 && bits n 203 203 = 0 && bits n 191 184 = 0 &&
    bits n 127 120 = 0 &&
    (if lKind l = 2 then lIrq l = false && lCpq l = 0 && lMembers l = 0 && lDone l = 0 && lArgs l = 0 && bits n 63 0 = 0
     else decide (lKind l < 2) && decide (1 ≤ lCpq l ∧ lCpq l ≤ 4) && decide (1 ≤ lMembers l ∧ lMembers l ≤ 32) &&
       decide (lQuads l ≤ 8) && lDone l % 8 = 0 && lArgs l % 8 = 0)

/-- R106 on the sealed object that holds an address, under a contract. -/
def objectAdmits (o : Sealed) (h : Word) : Bool :=
  !o.ownrec || (hLadder h = o.ladder && decide (o.ceil ≤ hCeil h) && decide (hFloor h ≤ o.floor))

/-- Is a letter accepted at its queue (R370)? -/
def State.letterOk (s : State) (part : Nat) (l : BitVec 512) : Bool :=
  lFieldsOk l &&
    (lKind l = 2 ||
      ((s.owner (lOwner l)).part = some part &&
        (s.startErr part (lTenant l) (lEntry l)).isNone &&
        (match s.objectAt part (lTenant l) (lEntry l) with
          | some o => objectAdmits o (s.owner (lOwner l)).hdr
          | none => false)))

/-- The host page that the check of a letter waits for (R312, R370). -/
def State.letterWants (s : State) (part : Nat) (l : BitVec 512) : Option Nat :=
  if !lFieldsOk l || lKind l = 2 || !((s.owner (lOwner l)).part = some part) then none
  else s.codeWants part (lTenant l) (lEntry l)

/-- Is a letter still admitted at the pass that would place it (R371)? -/
def State.letterPlaceable (s : State) (part : Nat) (l : BitVec 512) : Bool :=
  let o := s.owner (lOwner l)
  o.part = some part && hValid o.hdr &&
    (match s.objectAt part (lTenant l) (lEntry l) with
      | some x => objectAdmits x o.hdr
      | none => false)

/-- The level at which a context starts at an address (R332): H in partition 0, S when its first-stage leaf has USER = 0, U
otherwise. -/
def State.startLevel (s : State) (part tenant a : Nat) : Level :=
  if part = 0 then .H
  else match s.walkOwn part tenant a with
    | .ok t => if t.user then .U else .S
    | _ => .U

/-- A launch queue of a partition (R46). -/
def Part.queue (p : Part) (prio : Nat) : List Letter := tget [] p.queues prio

/-- Puts a letter at the tail of its queue. -/
def State.pushLetter (s : State) (part : Nat) (l : BitVec 512) : State :=
  s.updPart part fun p => { p with queues := tset [] p.queues (lPrio l) (p.queue (lPrio l) ++ [⟨l, 0, false⟩]) }

/-- Has a letter's queue a place? -/
def State.hasPlace (s : State) (part : Nat) (l : BitVec 512) : Bool := decide (((s.part part).queue (lPrio l)).length < 64)

end Sys2Proof.Machine
end

