-- ==== Sys2Proof/Machine/Issue.lean ====
section
/-! DEFINITION. Issuing a bundle: its fetch (R168), what holds it back (R53), its faults (R334), its operations one after
another with every source read from the context as it stood (R54, R352), and its end (R164, R184, R188, R189). -/

namespace Sys2Proof.Machine

open Sys2Proof

/-- What a step answers. -/
abbrev Out := Host.Outcome State Fault Refusal

/-! Fetch. -/

/-- What the fetch of a context's next bundle gives. -/
inductive Fetched where
  | xlate (code : Nat)
  /-- It waits for a host page. -/
  | wait (page : Nat)
  /-- A check of R179, its slot, and the operand record of that slot's operation (R337). -/
  | ill (check slot : Nat) (opnds : Nat × Nat × Nat)
  | bundle (h size : Nat) (b : Bundle)
  deriving DecidableEq, Repr

/-- The word of a slot in the bytes of a bundle. -/
def slotWordAt (bs : List Byte) (sl : Slot) : Word :=
  let before := (maskSlots (BitVec.ofNat 32 (ofBytes (bs.take 4)))).takeWhile fun t => !(t = sl)
  BitVec.ofNat 64 (ofBytes ((bs.drop (8 + 8 * before.length)).take 8))

/-- The operations of a bundle as the context stands. -/
def curOf (c h size : Nat) (b : Bundle) (x : Ctx) : Cur :=
  { ctx := c, h := h, size := size, imm := b.imm, todo := b.ops, checked := false, jump := none, branch := false,
    trap := none, before := x }

/-- A context as the bundle of column cycle `now` finds it: the results due have landed, and captured results about to be
replayed are in flight, those of r = 0 landed (R54, R336). -/
def Ctx.resumed (x : Ctx) (now : Nat) : Ctx :=
  let x := x.landDue now
  if x.replay.isEmpty then x else x.replayAt now

/-- The operand record of a slot that fails a check of R179: what its sources hold (R349); zeros for an unassigned opcode. -/
def illOpnds (c h : Nat) (x : Ctx) (bs : List Byte) (slot : Nat) : Nat × Nat × Nat :=
  match Slot.all.find? fun sl => sl.num = slot with
  | none => (0, 0, 0)
  | some sl =>
    match opOfSlot sl (slotWordAt bs sl) with
    | none => (0, 0, 0)
    | some i =>
      match formOf i with
      | none => (0, 0, 0)
      | some f =>
        let b : Bundle := ⟨BitVec.ofNat 32 (ofBytes (bs.take 4)), BitVec.ofNat 32 (ofBytes ((bs.drop 4).take 4)), [(sl, i)]⟩
        Run.oprec ⟨c, curOf c h bs.length b x, i, f, x⟩

/-- Fetches and decodes the bundle at the pc of context `c`, with the checks of R179; its safe point's index is checked by the
table as it stood when control arrived (R168). -/
def State.fetchBundle (s : State) (c : Nat) : Fetched :=
  let x := s.ctx c
  match s.fetchAll c x.pc x.code with
  | .err k => .xlate k
  | .wait p => .wait p
  | .ok bs =>
    let hd := BitVec.ofNat 32 (ofBytes (bs.take 4))
    match headerIll hd with
    | some k => .ill k 15 (0, 0, 0)
    | none =>
      if hd.getLsbD 9 && !(x.safes[bits hd.toNat 19 10]? = some x.pc) then .ill 2 15 (0, 0, 0)
      else
        match decodeBundle bs with
        | .bundle b _ => .bundle x.pc bs.length b
        | .ill k sl => .ill k sl (illOpnds c x.pc (x.resumed (s.now c)) bs sl)
        | .short => .wait 0

/-- The fault of a fetch at the bundle itself (R168). -/
def fetchInfo (h code : Nat) : FaultInfo := { cls := 0x0B, code := code, adr := h, pc := h }
/-- The ILL fault of a bundle (R179). -/
def illInfo (h check slot : Nat) (o : Nat × Nat × Nat) : FaultInfo :=
  { cls := 1, code := check, slot := slot, opa := o.1, opb := o.2.1, opc := o.2.2, pc := h }

/-! What holds a bundle back (R53). -/

/-- Engine commands of a context that have issued and not completed (R250). -/
def State.cmdsOf (s : State) (c : Nat) : List ECmd := s.cmds.filter fun e => e.ctx = c && !e.nop

/-- Is an operation an SC access, and of which position index (R153)? -/
def scIndex (i : Instr) : Option Nat :=
  match i with
  | .ldsc w => some w.index.toNat
  | .stsc w => some w.index.toNat
  | _ => none

/-- Has a call still rows to read, its pipe not standing at a fault? -/
def Call.reading (k : Call) : Bool := k.stopped.isNone && (!k.ended || k.jobs.any fun j => !j.filled)

/-- Does an earlier call of a context still read operands, or wait to (R243)? They are loads that entered the queue before
those issued later, but for those of a pipe that stands at a fault, which the handler's loads pass (R339). -/
def State.callReads (s : State) (c id : Nat) : Bool := s.calls.any fun k => k.ctx = c && decide (k.id < id) && k.reading

/-- Does an SC access wait (R153, R154)? It issues in the cycle of its position, when the accesses before it, a call's reads
among them (R243), are performed at `pkg` and have read and its token is complete. A position that is not valid is no wait (Table 24.5). -/
def State.scWaits (s : State) (r : Run) (j : Nat) : Bool :=
  let k := s.core (coreOf r.c)
  match k.position j with
  | none => false
  | some _ => !(k.scTurn = some (r.c, s.cycle)) || !r.x.loadQ.isEmpty || !r.x.storeQ.isEmpty || s.callReads r.c s.serial ||
      !(r.x.readFrom.all fun i => s.ctxs.all fun cx => cx.2.storeQ.all fun e => !(e.id = i)) ||
      !(r.f.kins.all fun t => r.x.tokDone (tokNum t))

/-- The causes of R53 that the bundle's own operations give. -/
def State.opWaits (s : State) (r : Run) : Bool :=
  match r.f.slot with
  | .C => !(r.f.kins.all fun t => r.x.tokDone (tokNum t))
  | .E => !r.sup && decide (16 ≤ (s.cmdsOf r.c).length)
  | .M =>
    match r.i with
    | .accget w => !r.sup && (match (tget {} (s.core (coreOf r.c)).accs w.tgt.toNat).holder with
        | some h => !(h = r.c) | none => s.zeroing.contains (genAcc (coreOf r.c) w.tgt.toNat))
    | .latget w => !r.sup && (match (tget {} (s.core (coreOf r.c)).lats w.tgt.toNat).holder with
        | some h => !(h = r.c) | none => s.zeroing.contains (genLat (coreOf r.c) w.tgt.toNat))
    | .mcall _ => !r.sup && !(s.core (coreOf r.c)).pend.isEmpty
    | _ => false
  | _ =>
    match scIndex r.i with
    | some j => !r.sup && s.scWaits r j
    | none => false

/-- Does an operation wait for a self-test of a unit it uses: the accumulator tiles, latches and microprogram store of its core, or its
shape-table entry (R382)? -/
def State.opTested (s : State) (r : Run) : Bool :=
  !s.tests.isEmpty && s.testing fun u =>
    (r.f.slot = .M && (u.struct = 7 || u.struct = 8 || u.isStore) && u.unit = coreOf r.c) ||
      (match r.i with
        | .copyMemToTile _ => shape r u
        | .copyTileToMem _ => shape r u
        | _ => false)
where
  shape (r : Run) (u : UnitD) : Bool :=
    r.f.flds.length = 3 && u.struct = 10 && u.unit = bits (r.src 2) 27 26 && u.loc = r.src 2 % 1024

/-- Does a bundle wait: for a cause of R53, for a self-test (R382), for two positions of the slot wheel at once, which no cycle gives (R153, log 88), or
for the host's translation of a page that its transfer would fetch from (R312, log 89)? -/
def State.waits (s : State) (rs : List Run) : Bool :=
  rs.any s.opWaits || (rs.any fun r => !r.sup && s.opTested r) ||
    decide (2 ≤ (rs.filter fun r => !r.sup && (match scIndex r.i with
      | some j => ((s.core (coreOf r.c)).position j).isSome
      | none => false)).length) ||
    rs.any fun r => !r.sup && (match s.targetFetch r with | .wait _ => true | _ => false)

/-- A LAUNCH of the context has read its letter and waits for a place in its queue (R46). -/
def State.launchWaits (s : State) (c : Nat) : Bool :=
  s.cmds.any fun e => e.ctx = c && !e.acted &&
    (match e.letter with | some l => !s.hasPlace (s.ctx c).part l | none => false)

/-- Does an operation that has issued, a LAUNCH, or the self-test of one of its registers (R382) hold the context back (R46, R186)? -/
def State.heldUp (s : State) (c : Nat) : Bool :=
  !((s.ctx c).block = .none) || s.launchWaits c || (!s.tests.isEmpty && s.testing fun u => u.inCtx && u.ctx = c)

/-- What a look at a context's next bundle finds. -/
inductive Look where
  /-- It is no candidate and nothing happens to it. -/
  | idle
  /-- A cause of R53 holds. -/
  | blocked
  /-- The next bundle is a safe point, and a stop is asked for (R59). -/
  | stops
  | fault (f : FaultInfo)
  | ready (mask : Nat) (solo : Bool) (readsFirst : Bool)
  deriving DecidableEq, Repr

/-- Does slot C read a device-wide table (R187)? -/
def readsTable (l : List (Slot × Instr)) : Bool :=
  l.any fun o => match o.2 with | .sysrd _ | .ownrd _ | .occrd _ => true | _ => false

/-- Is the bundle of context `c` at its pc a safe point: header bit 9, or the entry of its letter, a procedure's implicit one
(R58, R59)? -/
def State.safePoint (s : State) (c : Nat) (header : BitVec 32) : Bool :=
  header.getLsbD 9 || (match s.quire (s.ctx c).quire with
    | some q => bits q.letter.toNat 55 0 = (s.ctx c).pc
    | none => false)

/-- A look at the next bundle of context `c` (R53, R59, R179, R334): a stop asked for comes before what holds it back. -/
def State.look (s : State) (c : Nat) : Look :=
  let x := s.ctx c
  if !(x.st = .ready || x.st = .blocked) || x.exiting || x.dying.isSome || decide (s.now c < x.bubble) then .idle
  else if s.heldUp c && x.stop.isNone then .blocked
  else
    match s.fetchBundle c with
    | .wait _ => .blocked
    | .xlate k => if s.heldUp c then .blocked else .fault (fetchInfo x.pc k)
    | .ill k sl o => if s.heldUp c then .blocked else .fault (illInfo x.pc k sl o)
    | .bundle h size b =>
      if x.stop.isSome && s.safePoint c b.header then .stops
      else if s.heldUp c then .blocked
      else
        let x := x.resumed (s.now c)
        let k := curOf c h size b x
        let rs := runsOf c k x b.ops
        if s.waits rs then .blocked
        else
          match s.bundleFault k rs with
          | some f => .fault f
          | none => .ready (b.header.toNat % 512) (b.header.getLsbD 20) (readsTable b.ops)

/-- The host page that the next bundle of a context, or the target of its transfer, waits for (R312). -/
def State.fetchWants (s : State) (c : Nat) : Option Nat :=
  match s.fetchBundle c with
  | .wait p => some p
  | .bundle h size b =>
    let x := (s.ctx c).resumed (s.now c)
    (runsOf c (curOf c h size b x) x b.ops).findSome? fun r =>
      if r.sup then none else match s.targetFetch r with | .wait p => some p | _ => none
  | _ => none

/-! Taking a fault of a bundle. -/

/-- The partition that a level H operation names (R204, R205). -/
def Run.lockPart (r : Run) : Option Nat :=
  let p := match r.i with
    | .ownasgn _ => r.src 1 % 16
    | .partset _ | .partcol _ | .partslc _ | .partchn _ | .partlnk _ | .tenset _ | .genadv _ | .frmset _ => r.src 0
    | _ => 16
  if p < 12 then some p else none

/-- A bundle of context `c` meets a fault before issue: it is dropped whole and the context freezes (R333, R335). A
refusal of an operation on a partition whose TDI is locked moves that TDI to ERROR (R356), a fetch that reaches a page
through a wrong attribute counts in RAWREF (R376), and one that the host refuses is asked for anew by a later walk (R142). -/
def State.faultBundle (s : State) (c : Nat) (f : FaultInfo) (rs : List Run) : State :=
  let s := s.takeFault c f true
  if f.cls = 0x0E then
    match (rs.find? fun r => r.f.slot = .C).bind Run.lockPart with
    | some p => if s.locked p && !((s.part p).tdi = .error) then s.tdiEnterError p else s
    | none => s
  else if f.cls = 0x0B && f.code = 13 then s.count (s.ctx c).part 1
  else if f.cls = 0x0B && f.code = 10 then s.useRefused (s.ctx c).part
  else s

/-! Issue. -/

/-- Begins the issue of the next bundle of context `c`: fetched, replayed results put in flight, age reset (R56). -/
def State.beginBundle (s : State) (c : Nat) : State :=
  let x := s.ctx c
  match s.fetchBundle c with
  | .wait _ => s
  | .xlate k => s.faultBundle c (fetchInfo x.pc k) []
  | .ill k sl o => s.faultBundle c (illInfo x.pc k sl o) []
  | .bundle h size b =>
    let x' := x.resumed (s.now c)
    if s.waits (runsOf c (curOf c h size b x') x' b.ops) then s
    else
      let x' := { x' with age := 0, aged := false }
      { (s.fetchCached c h size).setCtx c x' with cur := some (curOf c h size b x') }

/-- One operation of the bundle acts: its hold latches, then its effect; a suppressed one has none but `sup` (R30, R156),
and leaves the latches as they are (DEDUCED, log 12). -/
def State.act (s : State) (k : Cur) (i : Instr) (f : Form) (eff sup : State → Run → State) : State :=
  let r : Run := ⟨k.ctx, k, i, f, k.before⟩
  let s := { s with cur := some { k with todo := k.todo.tail } }
  if r.sup then sup s r
  else
    eff (s.updCtx k.ctx fun x => { x with holds := holdStep k.before k.imm f x.holds }) r

/-- No effect of a suppressed operation. -/
def noSup (s : State) (_ : Run) : State := s

/-- EVERY SLOT OPERATION RUNS THROUGH HERE: the bundle's faults are looked for before its first operation acts (R333,
R334), then the operation acts with its effect. Outside a bundle being issued it does nothing. -/
def State.runOp (s : State) (i : Instr) (eff : State → Run → State) (sup : State → Run → State := noSup) : Out :=
  match s.cur, formOf i with
  | some k, some f =>
    if k.checked then .next (s.act k i f eff sup)
    else
      let rs := runsOf k.ctx k k.before k.todo
      match s.bundleFault k rs with
      | some e => .next ({ s with cur := none }.faultBundle k.ctx e rs)
      | none => .next (s.act { k with checked := true } i f eff sup)
  | _, _ => .next s

/-- The pops of a taken BR or BRI to `t` (R189). -/
def loopBranch (t depth : Nat) : List LoopEnt → List LoopEnt
  | [] => []
  | e :: l => if e.depth = depth && !(decide (e.start ≤ t ∧ t < e.stop)) then loopBranch t depth l else e :: l

/-- Where control goes after a bundle, with its loop stack (R188, R189): the stack's head is its top. -/
def Ctx.advance (x : Ctx) (k : Cur) (now : Nat) : Ctx :=
  match k.jump with
  | some t => { x with pc := t % 2 ^ 56, bubble := now + 2, loops := if k.branch then loopBranch t x.depth x.loops else x.loops }
  | none =>
    let r := loopEnd (k.h + k.size) x.depth x.loops
    { x with pc := r.2, loops := r.1 }

/-- The end of a bundle whose operations have all acted: control moves on, a transfer or loop back edge enters the object it
reaches (R168), and a TRAP is raised (R193). -/
def State.finishBundle (s : State) (k : Cur) : State :=
  let s := { s with cur := none }
  let s := s.updCtx k.ctx fun x => x.advance k (s.now k.ctx)
  let s := if (s.ctx k.ctx).pc = k.h + k.size then s else s.enter k.ctx
  match k.trap with
  | some n =>
    let s := s.updCtx k.ctx fun x => { x with bubble := s.now k.ctx + 2 }
    s.takeFault k.ctx { cls := 0x0D, code := n, slot := 0, pc := k.h, opc := n, delayed := true, id := k.trapId } false
  | none => s

/-- Sets where control goes after the bundle. -/
def State.jumpTo (s : State) (t : Nat) (branch : Bool) : State :=
  match s.cur with
  | some k => { s with cur := some { k with jump := some t, branch := branch } }
  | none => s

/-- FAULT_FREEZE (R335): a context whose next bundle meets a fault before issue takes it. -/
def execFaultFreeze (c : Nat) (s : State) : Out :=
  match s.look c with
  | .fault f =>
    let rs := match s.fetchBundle c with
      | .bundle h size b =>
        let x := (s.ctx c).resumed (s.now c)
        runsOf c (curOf c h size b x) x b.ops
      | _ => []
    .next (s.faultBundle c f rs)
  | _ => .next s

/-! The merge stage (R55, R56). -/

/-- Does context `a` rank before context `b` in the merge stage (R55)? -/
def State.ranks (s : State) (a b : Nat) : Bool :=
  let x := s.ctx a
  let y := s.ctx b
  let rx := hRank (s.owner x.owner).hdr
  let ry := hRank (s.owner y.owner).hdr
  if x.aged || y.aged then (if x.aged && y.aged then decide (a < b) else x.aged)
  else decide (ry < rx) || (decide (rx = ry) && decide (a < b))

/-- The bundles a core issues: the first ranked, and the first after it that may go with it (R55). -/
def pickTwo : List (Nat × Nat × Bool) → List Nat
  | [] => []
  | (c, m, solo) :: l =>
    match findFirst (fun e => m &&& e.2.1 = 0 && !solo && !e.2.2) l with
    | some e => [c, e.1]
    | none => [c]

/-- The ready contexts of a core in rank order, with mask and solo bit. -/
def State.readyOf (s : State) (core : Nat) : List (Nat × Nat × Bool) :=
  let l := ((upto 4).map (4 * core + ·)).filterMap fun c => match s.look c with
    | .ready m solo _ => some (c, m, solo)
    | _ => none
  sortBy (fun a b => s.ranks a.1 b.1) l

/-- The contexts that may issue in this scheduler cycle: those of the columns that stepped. -/
def State.live (s : State) : List Nat :=
  (s.ctxs.filter fun e => (e.2.st = .ready || e.2.st = .blocked) && (s.col (colOf e.1)).stepped).map Prod.fst

/-- The cores of a list of contexts, each once. -/
def coresOf : List Nat → List Nat
  | [] => []
  | c :: l => let r := coresOf l; if r.contains (coreOf c) then r else coreOf c :: r

/-- A context after the merge stage of a cycle: READY or BLOCKED as its next bundle shows, and one cycle older if it was
READY and does not issue (R53, R56). -/
def Ctx.afterMerge (x : Ctx) (l : Look) (issues : Bool) : Ctx :=
  match l with
  | .blocked => { x with st := .blocked }
  | .stops => { x with st := .blocked }
  | _ =>
    if x.exiting || x.dying.isSome then x
    else { x with st := .ready, age := if issues then x.age else x.age + 1 }

/-- The merge stages of all cores in one scheduler cycle: the contexts that issue, those whose slot C reads a device-wide
table first, each group in ascending number (R55, R187), and every other context one cycle older; a fetch that lacks the
host's translation asks for it (R312). -/
def State.merge (s : State) : State :=
  let live := s.live
  let picks := (coresOf live).flatMap fun k => pickTwo ((s.readyOf k).filter fun e => live.contains e.1)
  let rd := fun c => match s.look c with | .ready _ _ r => r | _ => false
  let asc := sortBy (fun a b => decide (a < b)) picks
  let order := asc.filter rd ++ asc.filter fun c => !rd c
  let s' := live.foldl (fun t c => t.updCtx c fun x => x.afterMerge (s.look c) (picks.contains c)) s
  let s' := live.foldl (fun t c => match (if s.look c = .blocked then s.fetchWants c else none) with
    | some p => t.askHost p
    | none => t) s'
  { s' with phase := .issue, todo := order }

/-- The first context whose next bundle meets a fault before issue. -/
def State.firstFaulty (s : State) : Option Nat :=
  findFirst (fun c => match s.look c with | .fault _ => true | _ => false) s.live

/-- AGE_COUNT_EXPIRY (R56): a READY context whose count has reached 64 is aged. -/
def execAgeCountExpiry (c : Nat) (s : State) : Out :=
  let x := s.ctx c
  if x.st = .ready && decide (64 ≤ x.age) then .next (s.setCtx c { x with aged := true }) else .next s

end Sys2Proof.Machine
end

