-- ==== Sys2Proof/Machine/Control.lean ====
section
/-! DEFINITION. Transfers of control, loops, exit, yield, wait and traps (R188 to R193, R340). -/

namespace Sys2Proof.Machine

open Sys2Proof

/-- The address after the bundle, H + Z: the link of a call and the START of a loop. -/
def Run.after (r : Run) : Nat := r.k.h + r.k.size

/-- A call (R188): the link lands after the call link latency, the depth rises by one modulo 2^16. -/
def State.callTo (s : State) (r : Run) (t : Nat) : State :=
  let s := s.result r.c r.f .s r.after
  (s.updCtx r.c fun x => { x with depth := (x.depth + 1) % 2 ^ 16 }).jumpTo t false

/-- BR (R188). -/
def execBr (w : CW) (s : State) : Out := s.runOp (.br w) fun s r => s.jumpTo (dispTarget r.k.h w.imm24) true

/-- BRI (R188). -/
def execBri (w : CW) (s : State) : Out := s.runOp (.bri w) fun s r => s.jumpTo (r.src 0 % 2 ^ 56) true

/-- CALL (R188). -/
def execCall (w : CW) (s : State) : Out := s.runOp (.call w) fun s r => s.callTo r (dispTarget r.k.h w.imm24)

/-- CALLI (R188): the target is read before the link is written. -/
def execCalli (w : CW) (s : State) : Out := s.runOp (.calli w) fun s r => s.callTo r (r.src 1 % 2 ^ 56)

/-- RET (R188): the depth falls by one modulo 2^16. -/
def execRet (w : CW) (s : State) : Out :=
  s.runOp (.ret w) fun s r =>
    (s.updCtx r.c fun x => { x with depth := (x.depth + (2 ^ 16 - 1)) % 2 ^ 16 }).jumpTo (r.src 0 % 2 ^ 56) false

/-- LOOP (R189): a count of zero transfers to END; otherwise an entry is pushed, the list's head being the top. -/
def execLoop (w : CW) (s : State) : Out :=
  s.runOp (.loop w) fun s r =>
    let e := dispTarget r.k.h w.imm24
    if r.src 0 = 0 then s.jumpTo e false
    else s.updCtx r.c fun x =>
      { x with loops := { start := r.after, stop := e, left := r.src 0, depth := x.depth } :: x.loops }

/-- EXIT (R190): no later bundle issues, and the loop stack is discarded; CONTEXT_RETIRE follows. -/
def execExit (w : CW) (s : State) : Out :=
  s.runOp (.exit w) fun s r => s.updCtx r.c fun x => { x with exiting := true, loops := [] }

/-- YIELD (R191): blocks for n column cycles, counted from the cycle after issue. -/
def execYield (w : CW) (s : State) : Out :=
  s.runOp (.yield w) fun s r =>
    if w.imm24 = 0 then s
    else s.updCtx r.c fun x => { x with block := .yield (s.now r.c + w.imm24.toNat + 1) }

/-- YIELD_EXPIRY (R191): the count has run out, or a stop request ends the wait. -/
def execYieldExpiry (c : Nat) (s : State) : Out :=
  let x := s.ctx c
  .next (match x.block with
    | .yield t =>
      if t ≤ s.now c ∨ x.stop.isSome then
        s.setCtx c { x with block := .none, st := if x.st = .blocked then .ready else x.st }
      else s
    | _ => s)

/-- WAIT (R192): no effect beyond its issue rule. -/
def execWait (w : CW) (s : State) : Out := s.runOp (.wait w) fun s _ => s

/-- TRAP (R193): raised once the bundle's other slots have taken effect and the loop-end step has run. -/
def execTrap (w : CW) (s : State) : Out :=
  s.runOp (.trap w) fun s _ =>
    match s.cur with
    | some k => { s with cur := some { k with trap := some w.imm24.toNat, trapId := s.serial } }
    | none => s

/-- Every load pipe of a context's calls that stopped at a fault retries its walk (R143, R340). -/
def State.retryWalks (s : State) (c : Nat) : State :=
  { s with calls := mapIf (fun k => k.ctx = c) (fun k => { k with stopped := none }) s.calls }

/-- TRET (R340): the return from a trap, a taken transfer to TRETPC. A context whose EXIT is in force again issues no bundle
whose cycle could be F′, and replays its results from the cycle in which it would issue the first one (log 20). -/
def execTret (w : CW) (s : State) : Out :=
  s.runOp (.tret w) fun s r =>
    let t := (s.ctx r.c).tretpc.toNat
    let s := s.updCtx r.c fun x =>
      let y := x.trapReturn
      if y.exiting then y.replayAt (s.now r.c + 2) else y
    (s.retryWalks r.c).jumpTo t false

end Sys2Proof.Machine
end

