-- ==== Sys2Proof/Machine/Cmd.lean ====
section
/-! DEFINITION. Engine commands in common (R250, R155, R156, R342, R359): their issue, failure and end. -/

namespace Sys2Proof.Machine

open Sys2Proof

/-- The command an E-slot operation issues, as it reads its operands (R250): `shape` is what a copy captured. -/
def Run.cmdOf (r : Run) (id : Nat) (nop : Bool) (shape : Option (Option (BitVec 768))) (vecs : List VReg) : ECmd :=
  { id := id, ctx := r.c, quire := r.x.quire, op := r.i, pc := r.k.h, imm := r.k.imm, opa := r.src 0, opb := r.src 1,
    opc := r.src 2, vecs := vecs, shape := shape, owner := r.x.owner, level := r.x.level,
    kins := r.f.kins.filterMap r.x.tokRef, fail := none, kout := tokNum r.f.kout, ready := 0, begun := false, wait := 0,
    tiles := [], todo := [], rest := [], far := [], fails := [], dests := [], letter := none, served := false, held := false,
    acted := false, nop := nop }

/-- A command issues: it waits in its engine's queue, and its produced token is pending (R74, R250). -/
def State.enqueueWith (s : State) (r : Run) (nop : Bool) (shape : Option (Option (BitVec 768))) (vecs : List VReg) : State :=
  let n := s.newSerial
  let s := n.2.updCtx r.c fun x => x.produce (tokNum r.f.kout) n.1
  { s with cmds := s.cmds ++ [r.cmdOf n.1 nop shape vecs] }

/-- A command without a shape issues. -/
def State.enqueue (s : State) (r : Run) : State := s.enqueueWith r false none []
/-- A suppressed command makes no access; its token completes when those it consumes have (R156). -/
def State.enqueueNop (s : State) (r : Run) : State := s.enqueueWith r true none []

/-- Is the production of a token that a consumer waits for still to end? -/
def State.prodBusy (s : State) (c : Nat) (k : Nat × Nat) : Bool :=
  let t := (s.ctx c).token k.1
  if t.prod = k.2 then t.pending
  else s.cmds.any (fun e => e.id = k.2) || (s.ctx c).storeQ.any (fun e => e.id = k.2) ||
    (match (s.ctx c).snap with | some sn => sn.heldW.any fun e => e.id = k.2 | none => false)

/-- The failure record of the production a consumer waited for. -/
def State.prodFail (s : State) (c : Nat) (k : Nat × Nat) : Option Rec :=
  let t := (s.ctx c).token k.1
  if t.prod = k.2 && !t.pending then t.fail else none

/-- Is the command an MCAST? -/
def isMcast (i : Instr) : Bool := match i with | .mcast _ => true | _ => false

/-- Changes a command. -/
def State.updCmd (s : State) (id : Nat) (f : ECmd → ECmd) : State := { s with cmds := mapIf (fun e => e.id = id) f s.cmds }
/-- The command of a serial number. -/
def State.cmd (s : State) (id : Nat) : Option ECmd := findFirst (fun e => e.id = id) s.cmds

/-- The failure record of a command at its agent (R342): SUB XLATE (0x0B), OPERAND (0x07) or MACHINE (0x10), the cause,
the issue PC and the operands captured at issue. -/
def State.failRec (s : State) (e : ECmd) (sub code adr : Nat) : Rec :=
  mkRec e.ctx (s.ctx e.ctx)
    { cls := 0x0C, code := code, sub := sub, slot := Slot.E.num, adr := adr, opa := e.opa % 2 ^ 64,
      opb := e.opb % 2 ^ 64, opc := e.opc % 2 ^ 64, pc := e.pc, delayed := true }

/-- Everything a command does is done: its end follows at a time the manual leaves open. The first failure stands. -/
def State.doneCmd (s : State) (id : Nat) (fail : Option Rec) : State :=
  let w := s.newWait
  w.2.updCmd id fun e => if e.acted then e else { e with begun := true, acted := true, fail := fail, wait := w.1 }

/-- A command fails with an OPERAND cause (Tables 24.8, 24.9, 25.3). -/
def State.failCmd (s : State) (e : ECmd) (code adr : Nat) : State := s.doneCmd e.id (some (s.failRec e 0x07 code adr))
/-- A command fails with an XLATE cause. -/
def State.failXlate (s : State) (e : ECmd) (code adr : Nat) : State := s.doneCmd e.id (some (s.failRec e 0x0B code adr))

/-- Is a command to complete now? A suppressed one follows the tokens it consumes (R156). -/
def State.cmdOver (s : State) (e : ECmd) : Bool :=
  if e.nop then !(e.kins.any (s.prodBusy e.ctx)) else e.acted && decide (e.wait ≤ s.cycle)

/-- ENGINE_COMMAND_COMPLETE (R155): a command whose reads have read and whose writes are performed completes, and its
produced token with it, with its failure record if it failed. -/
def execEngineCommandComplete (cmd : Nat) (s : State) : Out :=
  match s.cmd cmd with
  | some e =>
    if s.cmdOver e then
      let s := s.updCtx e.ctx fun x => x.complete e.kout e.id e.fail
      .next { s with cmds := s.cmds.filter fun f => !(f.id = cmd) }
    else .next s
  | none => .next s

/-- A command whose time has come to complete. -/
def State.cmdDue (s : State) : Option Nat := (findFirst s.cmdOver s.cmds).map ECmd.id

end Sys2Proof.Machine
end

