-- ==== Sys2Proof/Machine/Port.lean ====
section
/-! DEFINITION. The token buckets and spare pools of the L2 slice ports (R139). -/

namespace Sys2Proof.Machine

open Sys2Proof

/-- Depth of a spare pool, in sixteenths of a byte. -/
def poolDepth : Nat := 16384 * 16

/-- The spare pool of a partition at a slice port. -/
def State.pool (s : State) (slice part : Nat) : Nat := tget 0 s.spare (12 * slice + part)
/-- Adds to a spare pool, up to its depth; the excess is lost. -/
def State.addPool (s : State) (slice part n : Nat) : State :=
  { s with spare := tset 0 s.spare (12 * slice + part) (min poolDepth (s.pool slice part + n)) }

/-- How far below full the bucket of a context at a slice is now, and what its refill passed to the spare pool since it
was last looked at. -/
def State.bucketNow (s : State) (x : Ctx) (slice : Nat) : Nat × Nat :=
  let e := tget (0, 0) x.buckets slice
  let gain := (s.owner x.owner).rate * (s.cycle - max e.2 x.born)
  (e.1 - gain, gain - e.1)

/-- Brings the bucket of a context at a slice up to the present cycle. -/
def State.settle (s : State) (slice c : Nat) : State :=
  let x := s.ctx c
  if x.st = .empty then s
  else
    let b := s.bucketNow x slice
    (s.setCtx c { x with buckets := tset (0, 0) x.buckets slice (b.1, s.cycle) }).addPool slice x.part b.2

/-- Brings every bucket of a partition at a slice up to the present cycle. -/
def State.settleAll (s : State) (slice part : Nat) : State :=
  s.ctxs.foldl (fun s e => if e.2.part = part then s.settle slice e.1 else s) s

/-- Brings every bucket of a context up to the present cycle, as it gives them up. -/
def State.settleCtx (s : State) (c : Nat) : State :=
  (s.part (s.ctx c).part).slices.foldl (fun s sl => s.settle sl c) s

/-- How a request of a context is classed at a slice port (R139): true normal, its bucket holding the charge; false borrowing,
the spare pool holding it; none when neither can pay. -/
def State.classOf (s : State) (c slice bytes : Nat) : Option Bool :=
  let x := s.ctx c
  if 16 * bytes + (tget (0, 0) x.buckets slice).1 ≤ 16 * (s.owner x.owner).depth then some true
  else if 16 * bytes ≤ s.pool slice x.part then some false
  else none

/-- A request pays for its service, from the bucket or from the spare pool. -/
def State.payFrom (s : State) (c slice bytes : Nat) (normal : Bool) : State :=
  let x := s.ctx c
  if normal then
    s.setCtx c { x with buckets := tset (0, 0) x.buckets slice ((tget (0, 0) x.buckets slice).1 + 16 * bytes, s.cycle) }
  else { s with spare := tset 0 s.spare (12 * slice + x.part) (s.pool slice x.part - 16 * bytes) }

/-- Port `n` of the slices. -/
def State.port (s : State) (n : Nat) : SlicePort := tget {} s.ports n
/-- Replaces a slice port. -/
def State.setPort (s : State) (n : Nat) (p : SlicePort) : State := { s with ports := tset {} s.ports n p }

/-- Does a waiting request come before one that makes its charge now (R139): an older normal one, or, before a borrowing one,
any normal one and an older one that the pool can pay? -/
def State.portFirst (s : State) (slice : Nat) (older younger : List PortReq) (normal : Bool) : Bool :=
  let is := fun (b : Bool) (r : PortReq) => s.classOf r.ctx slice r.bytes = some b
  older.any (is true) || (!normal && (younger.any (is true) || older.any (is false)))

/-- A request `id` of context `c` for `bytes` at a slice port (R139): served, and paid for, in the cycle when the port is free,
the bucket or the pool can pay, and no waiting request comes first; otherwise it waits and is classed again when it is next
made. A request not made again in the cycle after is no longer waiting. -/
def State.charge (s : State) (c slice bytes id : Nat) : State × Bool :=
  let s := s.settleAll slice (s.ctx c).part
  let p := s.port slice
  let live := p.reqs.filter fun r => decide (s.cycle ≤ r.last + 1)
  let older := live.takeWhile fun r => !(r.id = id)
  let younger := (live.drop older.length).filter fun r => !(r.id = id)
  let me : PortReq := ⟨id, c, bytes, s.cycle⟩
  match s.classOf c slice bytes with
  | some normal =>
    if p.free < 64 * (s.cycle + 1) && !s.portFirst slice older younger normal then
      (((s.payFrom c slice bytes normal).setPort slice
        { free := max p.free (64 * s.cycle) + bytes, reqs := older ++ younger }).addDemand 2 slice bytes, true)
    else (s.setPort slice { p with reqs := older ++ [me] ++ younger }, false)
  | none => (s.setPort slice { p with reqs := older ++ [me] ++ younger }, false)

/-- A new bucket depth and rate of an owner (R199): a bucket that holds more than the new depth passes the excess to its
port's spare pool. -/
def State.setBucket (s : State) (o rate depth : Nat) : State :=
  let old := (s.owner o).depth
  let s := s.ctxs.foldl (fun s e =>
    if e.2.owner = o && !(e.2.st = .empty) then
      (s.part e.2.part).slices.foldl (fun s sl =>
        let s := s.settle sl e.1
        let x := s.ctx e.1
        let level := 16 * old - (tget (0, 0) x.buckets sl).1
        (s.setCtx e.1 { x with buckets := tset (0, 0) x.buckets sl (16 * depth - level, s.cycle) }).addPool sl x.part
          (level - 16 * depth)) s
    else s) s
  s.updOwner o fun w => { w with rate := rate, depth := depth }

end Sys2Proof.Machine
end

