-- ==== Sys2Proof/Machine/Errors.lean ====
section
/-! DEFINITION. Soft errors (R379 to R385): the effect of an error in each structure, who is charged, the self-test that
follows, and the record in HFLOG. -/

namespace Sys2Proof.Machine

open Sys2Proof

/-- Appends a record of eight words to the HFLOG ring (Table 23.5, R348), and raises a vector after it; with no ring the record is
dropped. -/
def State.hflog (s : State) (words : List Nat) (irq : Nat) : State :=
  let k := s.pkg
  if k.hflogNpg = 0 then s.raise irq
  else
    let pa := k.hflogBase * 4096 + 64 * (k.hflogCount % (64 * k.hflogNpg))
    (s.updPkg fun k => { k with hflogCount := (k.hflogCount + 1) % 4096 }).postWrite
      { part := 0, pa := pa, data := words.flatMap (toBytes 8), add := false, irq := some irq }

/-- The partition that holds a slice, a column, or a channel. -/
def State.holderOf (s : State) (has : Part → Bool) : Option Nat := (s.parts.find? fun e => has e.2).map Prod.fst

/-- The column whose region of the base tile level holds an offset of a tile. -/
def regionOf : List (Nat × Nat) → Nat → Option Nat
  | [], _ => none
  | (c, n) :: l, off => if off < n then some c else regionOf l (off - n)

/-- The pieces of tiles in a pool, laid one after another in ascending serial number (log 9): tile memory of a core, or the region
of a column in the base tile level. A piece is a tile, the offset in it, and its bytes. -/
def State.pieces (s : State) (base : Bool) (n : Nat) : List (Tile × Nat × Nat) :=
  if base then
    s.tiles.filterMap fun t =>
      if t.level = .BASE then
        let before := sumN ((t.place.takeWhile fun e => !(e.1 = n)).map Prod.snd)
        (t.place.find? fun e => e.1 = n).map fun e => (t, before, e.2)
      else none
  else (s.tiles.filter fun t => !(t.level = .BASE) && t.core = n).map fun t => (t, 0, t.space)

/-- The tile that holds an offset of a pool, and the offset in it. -/
def pieceAt : List (Tile × Nat × Nat) → Nat → Option (Tile × Nat)
  | [], _ => none
  | (t, before, n) :: l, off => if off < n then some (t, before + off) else pieceAt l (off - n)

/-- The offset in a pool of an offset of a tile. -/
def pieceLoc (id off : Nat) : List (Tile × Nat × Nat) → Nat
  | [] => 0
  | (t, before, n) :: l => if t.id = id ∧ before ≤ off ∧ off < before + n then off - before else n + pieceLoc id off l

/-- Bytes of a column's region of the base tile level (R384, Table 25.8). -/
def regionBytes : Nat := 60 * 2 ^ 20

/-- The tile that holds a byte of tile memory of a core, or of the base tile level of a stack, and the offset in it. -/
def State.tileAt (s : State) (base : Bool) (unit off : Nat) : Option (Tile × Nat) :=
  if base then pieceAt (s.pieces true (8 * unit + off / regionBytes)) (off % regionBytes) else pieceAt (s.pieces false unit) off

/-- The descriptor of a byte of a tile (Table 25.8). -/
def State.tileDesc (s : State) (t : Tile) (off : Nat) : Nat :=
  if t.level = .BASE then
    let col := match regionOf t.place off with | some c => c | none => 0
    4 * 2 ^ 60 + t.stack * 2 ^ 48 + col % 8 * regionBytes + pieceLoc t.id off (s.pieces true col) / 8 * 8
  else 3 * 2 ^ 60 + t.core * 2 ^ 48 + pieceLoc t.id off (s.pieces false t.core) / 8 * 8

/-- The partition that holds a unit (R384); 15 when none does. -/
def State.unitPart (s : State) (u : UnitD) : Nat :=
  let col := fun (c : Nat) => match s.holderOf fun p => bit p.cols c with | some p => p | none => 15
  match u.struct with
  | 0 => match s.holderOf fun p => p.slices.contains u.unit with | some p => p | none => 15
  | 1 => match s.holderOf fun p => p.slices.contains u.unit with | some p => p | none => 15
  | 2 => let p := paPart (128 * u.loc)
         if (s.memKey (128 * u.loc)).isSome && !paHost (128 * u.loc) then p else 15
  | 4 => col (8 * u.unit + u.loc / regionBytes)
  | 10 => match tget none (s.stack u.unit).shapes u.loc with | some e => e.part | none => 15
  | 11 => match (s.stack u.unit).tlb[u.loc]? with | some t => t.part | none => 15
  | 12 => col u.unit
  | 13 => col u.unit
  | _ => col (u.unit / 4)

/-- A context is charged with an error: a MACHINE fault, which nothing keeps from ending it (R341, R379). `op` says of which
of its operations, if the error was found for one; otherwise the record names the context's pc and no slot. -/
def State.kill (s : State) (c code adr : Nat) (op : Option FaultInfo) : State :=
  let x := s.ctx c
  if x.st = .empty || x.st = .retired || x.dying.isSome then s
  else
    let f := op.getD { cls := 0x10, code := code, pc := x.pc }
    let r := mkRec c x { f with cls := 0x10, code := code, adr := adr, delayed := true }
    let x := x.freezeAt r (s.freezeCol c) s.serial false (s.foundIn, 0)
    s.setCtx c { x with st := .frozen, frz := { x.frz with fault := x.frz.fault.map fun f => (r, f.2.1, false), found := some (s.foundIn, 0) } }

/-- Who reads a unit when its error is found: nobody, a context with the operation it reads for, or an engine command. -/
inductive Reader where
  | none
  | ctx (c : Nat) (op : Option FaultInfo)
  | cmd (id : Nat)
  deriving DecidableEq, Repr

/-- The operation that context `c` reads for. -/
def Reader.opOf (r : Reader) (c : Nat) : Option FaultInfo :=
  match r with
  | .ctx c' op => if c' = c then op else Option.none
  | _ => Option.none

/-- The reader is charged (Table 25.5): a context is terminated, a command fails with SUB MACHINE. An MCAST that has begun fails only for
the destination it moved to (R369), which its step knows. -/
def State.chargeReader (s : State) (r : Reader) (code adr : Nat) : State × List Nat :=
  match r with
  | .none => (s, [])
  | .ctx c op => (s.kill c code adr op, [c])
  | .cmd id =>
    match s.cmd id with
    | some e =>
      if isMcast e.op && e.begun then (s.updCmd id fun e => { e with hurt := some (code, adr) }, [])
      else (s.doneCmd id (some (s.failRec e 0x10 code adr)), [])
    | none => (s, [])

/-- Terminates every context of a list for an error that a reader found. -/
def State.killAll (s : State) (l : List Nat) (adr : Nat) (r : Reader) : State :=
  l.foldl (fun s c => s.kill c 3 adr (r.opOf c)) s

/-- The non-EMPTY contexts with a property. -/
def State.ctxsWith (s : State) (f : Ctx → Bool) : List Nat :=
  (s.ctxs.filter fun e => !(e.2.st = .empty) && f e.2).map Prod.fst

/-- Drops entry `n` of a first-level TLB of a quad. -/
def State.dropTlb1 (s : State) (quad idx n : Nat) : State :=
  s.updQuad quad fun q => { q with tlb := tset [] q.tlb idx ((tget [] q.tlb idx).eraseIdx n) }

/-- A core's microprogram store is zeroed, and its routine table with it (R78, Table 25.5): a call in flight ends its context. -/
def State.storeLost (s : State) (core : Nat) : State × List Nat :=
  (s.updCore core fun k => { k with store := [], routs := [] }, ((upto 4).map (4 * core + ·)).filter fun c => s.calls.any fun k => k.ctx = c)

/-- Sets T of the page of a physical address and counts it (R376, R381). -/
def State.retirePage (s : State) (pa : Nat) : State :=
  if s.pkg.tBits.contains (pageOf pa) then s
  else (s.updPkg fun k => { k with tBits := pageOf pa :: k.tBits }).count (paPart pa) 4

/-- Drops a way of a set, with its occupancy charge. -/
def State.dropWay (s : State) (part slice set way : Nat) : State :=
  let x := s.l2set (64 * slice + set)
  let old := tget none x.ways way
  let s := match old with
    | some w => if s.wayLive part old then s.addOcc slice w.owner false else s
    | none => s
  s.setL2 (64 * slice + set) { x with ways := tset none x.ways way none }

/-- Quarantines a frame (R381). -/
def State.quarantine (s : State) (part slice set way : Nat) : State :=
  let s := s.dropWay part slice set way
  let x := s.l2set (64 * slice + set)
  (s.setL2 (64 * slice + set) { x with quar := if x.quar.contains way then x.quar else way :: x.quar }).count part 5

/-- What an uncorrectable error did: the state, the code of its record, whether it struck a dirty line, the owner tag, the
page retired (its number) and the contexts it terminated. -/
structure Struck where
  s       : State
  code    : Nat := 2
  dirty   : Bool := false
  owner   : Nat := 0
  retired : Nat := 0
  killed  : List Nat := []
  deriving DecidableEq, Repr

/-- The map a store entry of a quad holds: the VALID maps of its contexts, in ascending context and map number. -/
def State.mapAt (s : State) (quad n : Nat) : Option (Nat × Nat) :=
  ((s.ctxs.filter fun e => colOf e.1 = quad).flatMap fun e =>
    (e.2.maps.filter fun m => match m.2 with | .valid _ _ _ _ _ _ _ => true | _ => false).map fun m => (e.1, m.1))[n]?

/-- The effect of an uncorrectable error (Table 25.5, R380). -/
def State.uncorrectable (s : State) (u : UnitD) (r : Reader) : Struck :=
  let p := s.unitPart u
  let set := bits u.loc 9 4
  let way := u.loc % 16
  match u.struct with
  | 0 =>
    match tget none (s.l2set (64 * u.unit + set)).ways way with
    | none => { s := s }
    | some w =>
      if !s.wayLive p (some w) then { s := s }
      else if !w.dirty then { s := s.dropWay p u.unit set way, owner := w.owner }
      else
        let s := s.quarantine p u.unit set way
        let pa := 128 * w.line
        let dead := s.ctxsWith fun x => x.part = p && x.owner = w.owner
        let s := if paHost pa then s.updPkg fun k => { k with poison := w.line :: k.poison } else s.retirePage pa
        { s := s.killAll dead pa r, code := 3, dirty := true, owner := w.owner,
          retired := if paHost pa then 0 else pageOf pa, killed := dead }
  | 1 =>
    let dead := s.ctxsWith fun x => x.part = p
    { s := (s.quarantine p u.unit set way).killAll dead u.unit r, code := 3, killed := dead }
  | 2 =>
    let pa := 128 * u.loc
    let c := s.chargeReader r 3 pa
    { s := c.1.retirePage pa, code := if r = .none then 2 else 3, retired := pageOf pa, killed := c.2 }
  | 3 => row s u r false
  | 4 => row s u r true
  | 7 =>
    match (tget {} (s.core u.unit).accs u.loc).holder with
    | some c => { s := s.kill c 3 u.unit (r.opOf c), code := 3, killed := [c] }
    | none => { s := s }
  | 8 =>
    match (tget {} (s.core u.unit).lats u.loc).holder with
    | some c => { s := s.kill c 3 u.unit (r.opOf c), code := 3, killed := [c] }
    | none => { s := s }
  | 9 => store s u r
  | 10 => { s := s.updStack u.unit fun k => { k with shapes := tset none k.shapes u.loc none } }
  | 11 => { s := s.updStack u.unit fun k => { k with tlb := k.tlb.eraseIdx u.loc }, code := 1 }
  | 12 =>
    match s.mapAt u.unit u.loc with
    | some (c, m) => { s := s.updCtx c fun x => { x with maps := tset .empty x.maps m .lost } }
    | none => { s := s }
  | 13 => { s := s.updQuad u.unit fun q => { q with session := q.session.map fun z => { z with broken := true } } }
  | _ =>
    if u.isStore then store s u r
    else if u.isTlb then { s := s.dropTlb1 (u.unit / 4) (u.unit % 4) (bits u.loc 13 8), code := 1 }
    else if (s.ctx u.ctx).st = .empty || (s.ctx u.ctx).st = .retired then { s := s }
    else { s := s.kill u.ctx 3 u.unit (r.opOf u.ctx), code := 3, killed := [u.ctx] }
where
  store (s : State) (u : UnitD) (r : Reader) : Struck :=
    let d := s.storeLost u.unit
    { s := d.1.killAll d.2 u.unit r, code := if d.2.isEmpty then 2 else 3, killed := d.2 }
  row (s : State) (u : UnitD) (r : Reader) (base : Bool) : Struck :=
    match s.tileAt base u.unit u.loc with
    | none => { s := s }
    | some (t, off) =>
      let s := s.updTile t.id fun t => { t with poison := off / t.pitch :: t.poison }
      let c := s.chargeReader r 3 u.unit
      { s := c.1, code := if r = .none then 2 else 3, killed := c.2 }

/-- Word 0 of an error record (Table 25.7). -/
def errorWord (code verdict : Nat) (inj dirty : Bool) (owner part : Nat) : Nat :=
  code * 2 ^ 48 + verdict * 2 ^ 42 + b2n inj * 2 ^ 41 + b2n dirty * 2 ^ 40 + owner % 256 * 2 ^ 32 + part % 16 * 2 ^ 12 + 0x10

/-- Longest self-test of a unit, in cycles of its clock: 2,048 for an SRAM unit, 40 µs for a page (R382). -/
def testLimit (u : UnitD) : Nat := if u.struct = 2 then 56000 else 2048

/-- Starts the self-test of a unit, whose verdict and record follow (R382, R383). -/
def State.startTest (s : State) (desc : Word) (ctx : Option Nat) (w0 retired : Nat) (killed : List Nat) : State :=
  let n := Config.delay s.fresh % testLimit (unitD desc.toNat)
  let t : SelfTest := { desc := desc, ends := s.testNow (unitD desc.toNat) + 1 + n, ctx := ctx, w0 := BitVec.ofNat 64 w0, retired := retired,
                        killed := killed }
  { s with tests := s.tests ++ [t], fresh := s.fresh + 1 }

/-- The owner tag of the line a descriptor of STRUCT 0 names, or zero (Table 25.7). -/
def State.lineOwner (s : State) (u : UnitD) : Nat :=
  if u.struct = 0 then
    match tget none (s.l2set (64 * u.unit + bits u.loc 9 4)).ways (u.loc % 16) with
    | some w => if s.wayLive (s.unitPart u) (some w) then w.owner else 0
    | none => 0
  else 0

/-- AN ERROR STRIKES (R379): corrected in place, or handled and charged as Table 25.5 states; counted; self-tested. -/
def State.strike (s : State) (desc : Word) (unc inj lasting : Bool) (r : Reader) : State :=
  let u := unitD desc.toNat
  let p := s.unitPart u
  let v := if lasting then 2 else 1
  if unc then
    let k := s.uncorrectable u r
    let s := if p = 15 then k.s else k.s.count p (if u.isTlb then 2 else 3)
    s.startTest desc none (errorWord k.code v inj k.dirty k.owner p) k.retired k.killed
  else
    (if p = 15 then s else s.count p 2).startTest desc none (errorWord 1 v inj false (s.lineOwner u) p) 0 []

/-- A reader meets poison (R377, R379): it is charged with CODE 4, the error is counted, and a record follows the test of the unit
that holds the line or row. -/
def State.poisonRead (s : State) (r : Reader) (desc adr : Nat) : State :=
  let p := s.unitPart (unitD desc)
  let c := s.chargeReader r 4 adr
  let s := if p = 15 then c.1 else c.1.count p 3
  let v := if Config.lasting s.fresh then 2 else 1
  { s with fresh := s.fresh + 1 }.startTest (BitVec.ofNat 64 desc) none (errorWord 4 v false false 0 p) 0 c.2

/-- A reader meets a poisoned line (R377). -/
def State.poisonLine (s : State) (r : Reader) (pa : Nat) : State := s.poisonRead r (2 * 2 ^ 60 + pa / 128) pa

/-- Did an error that was armed in `s` strike device memory uncorrectably by the time of `t` (Table 25.5)? Its reader has been
charged. -/
def State.struckMem (s t : State) : Bool :=
  match s.pkg.armed with
  | some (d, true) => t.pkg.armed.isNone && decide ((unitD d.toNat).struct = 2)
  | _ => false

/-- Did an error that was armed in `s` strike uncorrectably by the time of `t`? -/
def State.struckBad (s t : State) : Bool := match s.pkg.armed with | some (_, true) => t.pkg.armed.isNone | _ => false

/-- The injected error strikes at a read of its unit (R385). -/
def State.strikeArmed (s : State) (r : Reader) (hit : UnitD → Bool) : State :=
  match s.pkg.armed with
  | some (d, unc) =>
    if hit (unitD d.toNat) then (s.updPkg fun k => { k with armed := none }).strike d unc true false r else s
  | none => s

/-- A self-test reads its unit, and meets an armed error there (R386); for device memory the unit is the page. -/
def State.strikeTest (s : State) (desc : Word) : State :=
  let v := unitD desc.toNat
  s.strikeArmed .none fun u => u.struct = v.struct && u.unit = v.unit &&
    (if u.struct = 2 then pageOf (128 * u.loc) = pageOf (128 * v.loc) else u.loc = v.loc)

/-- Does a unit exist for an error of the outside: one of Table 25.8, or one that has no number there (log 90)? -/
def unitKnown (v : Nat) : Bool := unitOk v || (v / 2 ^ 60 = 15 && decide (bits v 59 48 < 128) && decide (v % 2 ^ 48 < 2 ^ 18))

/-- ERROR_STRIKE: a storage error of the outside world's making is detected; the test of its unit reads it. -/
def execErrorStrike (desc : BitVec 64) (unc lasting : Bool) (s : State) : Out :=
  if unitKnown desc.toNat then .next ((s.strike desc unc false lasting .none).strikeTest desc) else .next s

/-- Strikes an armed error that a read of bytes of memory, or the merge of a write into them, reads. -/
def State.strikeMem (s : State) (r : Reader) (p : Port) (pa n : Nat) (write : Bool) : State :=
  s.strikeArmed r fun u => (linesOf pa n).any fun l => s.lineHit p l write u

/-- Strikes an armed error at a dirty frame that is written back (R386). -/
def State.strikeFrames (s : State) (part : Nat) (sel : Nat → Way → Bool) : State :=
  s.strikeArmed .none fun u => u.struct = 0 &&
    (match tget none (s.l2set (64 * u.unit + bits u.loc 9 4)).ways (u.loc % 16) with
      | some y => y.dirty && s.wayLive part (some y) && sel u.unit y
      | none => false)

/-- Is a unit that bytes of memory stand in out of service (R382): the frame that holds their line, or their page? -/
def State.outOfService (s : State) (p : Port) (pa n : Nat) : Bool :=
  !s.tests.isEmpty && s.testing fun u => (linesOf pa n).any fun l =>
    (u.struct = 2 && !paHost (128 * u.loc) && pageOf (128 * u.loc) = pageOf (128 * l)) ||
      (match s.home p l with
        | some sl => (match s.findWay p.part (s.l2set (setKey sl l)) l with | some w => u.frame (setKey sl l) w | none => false)
        | none => false)

/-- Does a unit lie in bytes of a tile (STRUCT 3, 4)? -/
def State.inTile (s : State) (t : Tile) (off n : Nat) (u : UnitD) : Bool :=
  (u.struct = 3 && !(t.level = .BASE) || u.struct = 4 && t.level = .BASE) &&
    (match s.tileAt (u.struct = 4) u.unit u.loc with
      | some (t', o) => t'.id = t.id && decide (off < o + 8 ∧ o < off + n)
      | none => false)

/-- Strikes an armed error that a read of a tile's bytes meets (STRUCT 3, 4). -/
def State.strikeTile (s : State) (r : Reader) (t : Tile) (off n : Nat) : State := s.strikeArmed r (s.inTile t off n)

/-- Strikes an armed error in a register that a bundle of context `c` reads, or in its snapshot buffer (STRUCT 5, 6, 14). -/
def State.strikeRegs (s : State) (c : Nat) (reads : List (Cls × Nat)) (snap : Bool) : State :=
  s.strikeArmed (.ctx c none) fun u =>
    decide (u.struct = 5 ∨ u.struct = 6 ∨ u.struct = 14) && u.ctx = c &&
      (if u.struct = 14 then snap
       else reads.contains (if u.struct = 5 then Cls.v else Cls.s, bits u.loc 15 8))

/-- Strikes an armed error in an entry of a core's, stack's or quad's structure. -/
def State.strikeUnit (s : State) (r : Reader) (struct unit loc : Nat) : State :=
  s.strikeArmed r fun u => u.struct = struct && u.unit = unit && u.loc = loc

/-- Strikes an armed error in an entry of a last-level TLB that serves a translation (STRUCT 11). -/
def State.strikeTlb (s : State) (u : Tlb) (part tenant va : Nat) (r : Reader) : State :=
  if s.pkg.armed.isNone || ((s.tlb1 u).any fun t => t.covers part tenant va) then s
  else
    match (s.stack (u.quad / 8)).tlb.findIdx? fun t => t.covers part tenant va with
    | some i => s.strikeUnit r 11 (u.quad / 8) i
    | none => s

/-- Strikes an armed error that the walk of a translation meets as it reads the tables (R385), when no TLB holds it. -/
def State.strikeWalk (s : State) (u : Tlb) (part tenant va : Nat) (r : Reader) : State :=
  if s.pkg.armed.isNone || (s.cached u part tenant va).isSome then s
  else (s.walkReads part tenant va).foldl (fun s pa => s.strikeMem r (ownPort part) pa 8 false) s

/-- Strikes an armed error that the device meets as it reads bytes of a tenant, their tables among them (R385). -/
def State.strikeVa (s : State) (r : Reader) (part tenant va n : Nat) : State :=
  (pagesOf va n).foldl (fun s e =>
    let s := (s.walkReads part tenant e.1).foldl (fun s pa => s.strikeMem r (ownPort part) pa 8 false) s
    match s.walkOwn part tenant e.1 with
    | .ok t => s.strikeMem r { ownPort part with pin := t.pin, elide := t.elide } (t.pa + e.1 % 2 ^ t.size) e.2 false
    | _ => s) s

/-- The entries of a partition's seal table that a look for the object of an address reads (R167). -/
def State.sealsRead (s : State) (part tenant a : Nat) : List Nat :=
  let l := upto (min (s.part part).nseal 64)
  let holds := fun i => match s.sealed1 part tenant i with
    | some o => decide (o.base + 256 ≤ a ∧ a < o.base + 256 + o.codelen)
    | none => false
  l.take ((l.takeWhile fun i => !holds i).length + 1)

/-- Strikes an armed error that the checks of code at an address read: the seal table, the headers, the map byte and the safe-point
table (R165 to R168, R385). -/
def State.strikeCode (s : State) (r : Reader) (part tenant a : Nat) : State :=
  if s.pkg.armed.isNone then s
  else
    let es := s.sealsRead part tenant a
    let heads := (es.filterMap (s.sealEntry part tenant)).map fun e => (e.1, 256)
    let more := match s.objectAt part tenant a with
      | none => []
      | some o => [(o.base + o.mapoff + (a - (o.base + 256)) / 64, 1), (o.base + o.sptoff, 128 * o.nsafe)]
    let s := es.foldl (fun s i => s.strikeMem r (ownPort part) (devPa part ((s.part part).sealtab * 65536 + 64 * i)) 64 false) s
    (heads ++ more).foldl (fun s e => s.strikeVa r part tenant e.1 e.2) s

/-- Strikes an armed error that a write of the device's own merges into (R386). -/
def State.strikePosted (s : State) : State :=
  s.pkg.posted.foldl (fun s q => s.strikeMem .none (ownPort q.part) q.pa q.bytes true) s

/-- The slices keep no line of a page; what they held of it is not written back. -/
def State.dropPage (s : State) (part page : Nat) : State :=
  s.l2.foldl (fun s e =>
    if (s.part part).slices.contains (e.1 / 64) then
      e.2.ways.foldl (fun s w => match w.2 with
        | some y => if y.line / 512 = page then s.dropWay part (e.1 / 64) (e.1 % 64) w.1 else s
        | none => s) s
    else s) s

/-- The page of an address returns to service, written with zeros (R382), unless it is protected (R309). -/
def State.restorePage (s : State) (pa : Nat) : State :=
  match s.guardOf pa with
  | some g => s.guardHit g
  | none =>
    ((s.dropPage (paPart pa) (pageOf pa)).setRawBytes (pageOf pa * 65536) (List.replicate 65536 0)).updPkg fun k =>
      { k with tBits := k.tBits.filter (· ≠ pageOf pa), cBits := k.cBits.filter (· ≠ pageOf pa) }

/-- SELF_TEST_VERDICT (R382, R383): the verdict, its consequences, the record and its vector; the SELFTST that asked for it
completes. -/
def execSelfTestVerdict (test : Nat) (s : State) : Out :=
  match s.tests[test]? with
  | none => .next s
  | some t =>
    let u := unitD t.desc.toNat
    if s.testNow u < t.ends then .next s
    else
      let p := bits t.w0.toNat 15 12
      let good := bits t.w0.toNat 43 42 = 1
      let s := { s with tests := s.tests.eraseIdx test }
      let k := 64 * u.unit + bits u.loc 9 4
      let x := s.l2set k
      let s :=
        if good then
          if decide (u.struct ≤ 1) then
            if x.lasting.contains (u.loc % 16) then s else s.setL2 k { x with quar := x.quar.filter (· ≠ u.loc % 16) }
          else if u.struct = 2 && t.ctx.isSome && s.pkg.tBits.contains (pageOf (128 * u.loc)) &&
              !s.pkg.lastPages.contains (pageOf (128 * u.loc)) then s.restorePage (128 * u.loc)
          else s
        else if decide (u.struct ≤ 1) then
          s.setL2 k { x with lasting := if x.quar.contains (u.loc % 16) then u.loc % 16 :: x.lasting else x.lasting }
        else if u.struct = 2 then s.updPkg fun k => { k with lastPages := pageOf (128 * u.loc) :: k.lastPages }
        else if u.inCore then s.updCore u.unit fun k => { k with lasting := true }
        else s
      let s := s.hflog [t.w0.toNat, t.desc.toNat, t.retired, t.killed.length % 2 ^ 16 + (t.killed.headD 0) * 2 ^ 16, 0, 0, 0, 0]
        (if p = 15 then 48 else 4 * p + 2)
      .next (match t.ctx with
        | some c => s.updCtx c fun x => if x.block = .selftst t.desc then { x with block := .none } else x
        | none => s)

/-- Is a context still being terminated for an error (R341)? -/
def Ctx.ending (x : Ctx) : Bool :=
  x.dying.isSome || (match x.frz.fault with | some (r, _, _) => r.cls = 0x10 | none => false)

/-- The self-test whose verdict is due: its record follows the terminations of its error (R380, log 11). -/
def State.testDue (s : State) : Option Nat :=
  s.tests.findIdx? fun t => decide (t.ends ≤ s.testNow (unitD t.desc.toNat)) && !(t.killed.any fun c => (s.ctx c).ending)

end Sys2Proof.Machine
end

