-- ==== Sys2Proof/Machine/Access.lean ====
section
/-! DEFINITION. Accesses to one unit of memory or of a tile by a context or an engine (R148, R149, R307, R313, R363,
R369, R377, R379): translation and its causes, charge at the port, injected errors, poison, and the bytes. -/

namespace Sys2Proof.Machine

open Sys2Proof

/-- Who makes an access: the context it is made for, its partition, tenant, owner and level, the TLB it goes through, what
it sees, who is charged with an error, and whether it is an engine. -/
structure Who where
  c      : Nat
  part   : Nat
  tenant : Nat
  owner  : Nat
  level  : Level
  tlb    : Tlb
  eye    : Eye
  reader : Reader
  /-- It is an engine's, and may reach another package (R313). -/
  engine : Bool
  far    : Bool := false
  /-- The serial number of the entry, call or command, under which it waits at a port (R139). -/
  req    : Nat := 0
  /-- A matrix call: its serial number (R111, R243). -/
  call   : Nat := 0
  deriving DecidableEq, Repr

/-- What a fault of a queue entry says of it (R337). -/
def QEntry.info (e : QEntry) : FaultInfo :=
  { cls := 0x10, code := 3, slot := e.slot.num, opa := e.base % 2 ^ 64, opb := e.index % 2 ^ 64, opc := e.data % 2 ^ 64,
    pc := e.pc, delayed := true, id := e.id }

/-- What a fault of a matrix call says of it (R333). -/
def Call.info (k : Call) : FaultInfo :=
  { cls := 0x10, code := 3, slot := Slot.M.num, opa := k.opa.toNat, opb := k.opb.toNat, opc := k.acc, pc := k.pc,
    delayed := true, id := k.id }

/-- A context's queue entry as an accessor. -/
def State.whoCtx (s : State) (c id : Nat) (lv : Level) : Who :=
  let x := s.ctx c
  let op := (findFirst (fun (e : QEntry) => e.id = id) (x.loadQ ++ x.storeQ)).map QEntry.info
  { c := c, part := x.part, tenant := x.tenant, owner := x.owner, level := lv, tlb := tlbOf c, eye := eyeCtx c id,
    reader := .ctx c op, engine := false, req := id }

/-- The commands that reach a page of another package (R313): copies, MCAST, COPYH and accumulate-on-writes. -/
def farReach (i : Instr) : Bool :=
  match i with
  | .copyMemToTile _ | .copyTileToMem _ | .copyTileToTile _ | .copyMemToMem _ | .mcast _ | .copyh _ => true
  | .acwAdd _ _ | .acwMin _ _ | .acwMax _ _ | .acwAnd _ _ | .acwOr _ _ | .acwXor _ _ | .acwSwap _ _ | .acwCas _ _ => true
  | .acwfAdd _ _ | .acwfMin _ _ | .acwfMax _ _ | .acwfAnd _ _ | .acwfOr _ _ | .acwfXor _ _ | .acwfSwap _ _ | .acwfCas _ _ => true
  | _ => false

/-- An engine command as an accessor: the copy engine, merge unit or network of its quad (R147). -/
def State.whoCmd (s : State) (e : ECmd) : Who :=
  let x := s.ctx e.ctx
  { c := e.ctx, part := x.part, tenant := x.tenant, owner := e.owner, level := e.level, tlb := ⟨colOf e.ctx, 4 + e.id % 2⟩,
    eye := eyeQuad (colOf e.ctx), reader := .cmd e.id, engine := true, far := farReach e.op, req := e.id }

/-- What an access of one unit gives: its result, a cause of Table 25.1, a wait (ATS, a port, a snoop), a unit whose error
has been charged to the accessor. -/
inductive Got (α : Type) where
  | ok (a : α)
  | err (code adr : Nat)
  | wait
  | dead
  deriving DecidableEq, Repr

/-- May the accessor reach another package (R313)? -/
def State.mayRemote (s : State) (w : Who) : Bool := w.far && !(s.part w.part).lanes.isEmpty

/-- Is the line of an address poisoned as an access would read it (R377)? -/
def State.linePoison (s : State) (p : Port) (pa : Nat) : Bool :=
  let line := pa / 128
  let atMem := match s.memKey (128 * line) with | some k => s.pkg.poison.contains (k / 128) | none => false
  match s.home p line with
  | none => atMem
  | some sl =>
    let x := s.l2set (setKey sl line)
    match s.findWay p.part x line with
    | some v => (match tget none x.ways v with | some y => y.poison | none => false)
    | none => atMem

/-- The address of a poisoned line that the walk of a translation reads, when no TLB holds it (R377). -/
def State.walkPoison (s : State) (u : Tlb) (part tenant va : Nat) : Option Nat :=
  if s.pkg.poison.isEmpty || (s.cached u part tenant va).isSome then none
  else (s.walkReads part tenant va).find? (s.linePoison (ownPort part))

/-- Translates one unit for an accessor, an armed error at the place, or in what translates it, striking first (R385). A write reads
its place when it is performed. A reader charged with an error of device memory gets no bytes (Table 25.5). A unit out of service is
waited for (R382). -/
def State.reach (s : State) (w : Who) (want : Want) (va align : Nat) : State × Got Phys :=
  let s0 := s.strikeTlb w.tlb w.part w.tenant va w.reader
  let s := s0.strikeWalk w.tlb w.part w.tenant va w.reader
  let go := fun (s : State) => s.access w.tlb w.part w.tenant w.level want (s.mayRemote w) va align
  if s0.struckMem s then (s, .dead)
  else
  match s.walkPoison w.tlb w.part w.tenant va with
  | some pa => (s.poisonLine w.reader pa, .dead)
  | none =>
  match go s with
  | (s, .err k) => (s, .err k va)
  | (s, .wait _) => (s, .wait)
  | (s, .ok ph) =>
    if ph.remote.isNone && s.outOfService (s.portFor w.owner w.part w.tenant va ph) ph.pa align then (s, .wait)
    else if s.pkg.armed.isNone || ph.remote.isSome || want = .write then (s, .ok ph)
    else
      let s0 := s
      let s := s.strikeMem w.reader (s.portFor w.owner w.part w.tenant va ph) ph.pa align false
      if s.pkg.armed.isSome then (s, .ok ph)
      else if s0.struckMem s then (s, .dead)
      else
        match go s with
        | (s, .err k) => (s, .err k va)
        | (s, .wait _) => (s, .wait)
        | (s, .ok ph) => (s, .ok ph)

/-- The causes of Table 25.1 in the order in which one access records them (R363). -/
def causeOrder : List Nat := [8, 7, 14, 1, 2, 9, 10, 11, 5, 3, 4, 6, 12, 13]

/-- The cause that an access of several units records, with its FLTADR, of those that its units meet; `d` is one of them. -/
def leastCause (l : List (Nat × Nat)) (d : Nat × Nat) : Nat × Nat :=
  match minBy (fun e => causeOrder.idxOf e.1) l with
  | some e => e
  | none => d

/-- The cause that a unit of an access would meet now, with its address. -/
def State.probe (s : State) (w : Who) (want : Want) (va n : Nat) : Option (Nat × Nat) :=
  match (s.access w.tlb w.part w.tenant w.level want (s.mayRemote w) va n).2 with
  | .err k => some (k, va)
  | _ => none

/-- The bytes a port sends for a read of `n` bytes, or for a write, of a line (R139): a write sends none, and is charged a
line when it makes the slice fill one. -/
def State.portBytes (s : State) (p : Port) (pa n : Nat) (write : Bool) : Nat :=
  if !write then n
  else
    match s.home p (pa / 128) with
    | none => 0
    | some sl =>
      let x := s.l2set (setKey sl (pa / 128))
      if (s.findWay p.part x (pa / 128)).isSome || !p.cache || p.nt ||
          (s.victim p.part (setKey sl (pa / 128)) x (s.maskOf p.owner sl)).isNone then 0 else 128

/-- Pays for a unit at its slice port (R139), an engine's from the bucket of the context whose command it carries out: false when
it must wait, a request that is charged nothing for those that come before it. Host and slice-less accesses pass no port, and a
context that is no longer there has no bucket. -/
def State.pay (s : State) (w : Who) (p : Port) (pa n : Nat) (write : Bool) : State × Bool :=
  let b := s.portBytes p pa n write
  match s.home p (pa / 128) with
  | none => (s, true)
  | some sl =>
    if (s.ctx w.c).st = .empty then (s.addDemand 2 sl b, true)
    else s.charge w.c sl b w.req

/-- Counts an access made in the accessor's column (R111 class 4). -/
def State.accessed (s : State) (w : Who) : State := s.addDemand 5 (colOf w.c) 1

/-- Counts bytes that cross the network of the accessor's column (R111 class 1). -/
def State.cross (s : State) (w : Who) (n : Nat) : State := (s.accessed w).addDemand 1 (colOf w.c) n

/-- What a command reads over the Fareri Link is checked like what it writes there (R372). -/
def State.overLink (s : State) (w : Who) : State :=
  match w.reader with
  | .cmd id => s.updCmd id fun e => if isMcast e.op || e.far.contains 0 then e else { e with far := e.far ++ [0] }
  | _ => s

/-- The key of a byte of another package. -/
def remoteKey (pkg pa : Nat) : Nat := pkg * 2 ^ 52 + pa
/-- A byte of another package's memory as the model knows it. -/
def State.remoteByte (s : State) (k : Nat) : Byte := tget (Config.remoteByte k) s.remote k
/-- Writes a byte of another package's memory. -/
def State.setRemoteByte (s : State) (k : Nat) (b : Byte) : State :=
  { s with remote := tset (Config.remoteByte k) s.remote k b }
/-- The form of the list of other packages' bytes from key `lo` on: keys strictly rising, no entry equal to what an unlisted
key reads as. -/
def Memory.remoteWfFrom (lo : Nat) : List Host.Cell → Bool
  | [] => true
  | (k, v) :: t => decide (lo ≤ k) && !decide (v = Config.remoteByte k) && Memory.remoteWfFrom (k + 1) t
/-- The form of the list of other packages' bytes. -/
def Memory.remoteWf (m : List Host.Cell) : Bool := Memory.remoteWfFrom 0 m
/-- Writes bytes of another package's memory. -/
def State.setRemoteBytes (s : State) (k : Nat) : List Byte → State
  | [] => s
  | b :: l => (s.setRemoteByte k b).setRemoteBytes (k + 1) l

/-- The words held in a Fareri switch that a remote access touches (R160). -/
def State.switchHeld (s : State) (pkg pa n : Nat) : Bool :=
  s.pkg.switchWords.any fun w => w.pkg = pkg && decide (w.pa / 8 * 8 < pa + n ∧ pa < w.pa / 8 * 8 + 8)

/-- A plain access waits for the words of a switch that it touches, which the switch then writes back (R160). -/
def State.wantSwitch (s : State) (pkg pa n : Nat) : State :=
  let l := (s.pkg.switchWords.filter fun w => w.pkg = pkg && decide (w.pa / 8 * 8 < pa + n ∧ pa < w.pa / 8 * 8 + 8)).map fun w =>
    (w.pkg, w.pa)
  s.updPkg fun k => { k with swWant := k.swWant ++ l.filter fun x => !k.swWant.contains x }

/-- Records that a call draws on governed instances (R111). -/
def State.callUses (s : State) (id : Nat) (l : List (Nat × Nat)) : State :=
  { s with calls := mapIf (fun k => k.id = id) (fun k => { k with uses := k.uses ++ l.filter fun u => !k.uses.contains u }) s.calls }

/-- The instances that a read of a line through a port draws on: network, slice, and the channel when the slice lacks a line that
is not elided (R144). -/
def State.drawsOn (s : State) (w : Who) (p : Port) (pa : Nat) : List (Nat × Nat) :=
  let ch := match s.chanOf pa with
    | some (ch, _) => if paHost pa || (p.elide && !s.elideBit (pa / 128 * 128)) then [] else [(3, ch)]
    | none => []
  (1, colOf w.c) :: (match s.home p (pa / 128) with
    | none => ch
    | some sl => (2, sl) :: if (s.findWay p.part (s.l2set (setKey sl (pa / 128))) (pa / 128)).isSome then [] else ch)

/-! Service times (R185, Table 9.28), in cycles of the requesting column. -/

/-- The longest uncontended service of a line of memory for a column. -/
def State.lineService (s : State) (col : Nat) (p : Port) (pa : Nat) : Nat :=
  let hit := match s.home p (pa / 128) with
    | some sl => if (s.findWay p.part (s.l2set (setKey sl (pa / 128))) (pa / 128)).isSome then some sl else none
    | none => none
  match hit with
  | some sl => if sl / 32 = col then 24 else if sl / 256 = col / 8 then 36 else 60
  | none =>
    if paHost pa then (if col / 8 = 0 then 1150 else 1174)
    else match s.chanOf pa with
      | some (ch, _) => if ch / 64 = col / 8 then 310 else 340
      | none => 340

/-- The longest uncontended service of a tile for a column. -/
def Tile.service (t : Tile) (col off : Nat) : Nat :=
  match t.level with
  | .LOCAL => 8
  | .QUIRE => if t.core / 4 = col then 20 else 34
  | .BASE => if regionOf t.place off = some col then 26 else 34

/-- What contention at a network, port or channel adds at most in this window (log 79): none when it has been asked for more than
it supplies. -/
def State.backlog (s : State) (x : Nat × Nat) : Option Nat :=
  let d := tget 0 s.demand (1024 * x.1 + x.2)
  if s.supply x < d then none else some (256 * d / max 1 (s.supply x))

/-- A sum of times, none when one has no bound. -/
def sumMax : List (Option Nat) → Option Nat
  | [] => some 0
  | none :: _ => none
  | some n :: l => (sumMax l).map (n + ·)

/-- The greater of two times, none when one has no bound. -/
def maxMax : List (Option Nat) → Option Nat
  | [] => some 0
  | none :: _ => none
  | some n :: l => (maxMax l).map (max n)

/-- The longest time after which a unit of memory asked for now is served: its source's, what contention adds, and the walk of
a translation that the first-level TLB lacks, 96 cycles for each of its five levels. None when nothing bounds it. -/
def State.unitMax (s : State) (w : Who) (va : Nat) : Option Nat :=
  let walk := if (s.tlb1 w.tlb).any fun t => t.covers w.part w.tenant va then 0 else 480
  match (s.access w.tlb w.part w.tenant w.level .read true va 1).2 with
  | .ok ph =>
    if ph.remote.isSome then none
    else
      let p := s.portFor w.owner w.part w.tenant va ph
      (sumMax ((s.drawsOn w p ph.pa).map s.backlog)).map (walk + s.lineService (colOf w.c) p ph.pa + ·)
  | .err _ => some walk
  | .wait _ => none

/-- The longest time after which a unit of a tile asked for now is served. -/
def State.tileMax (s : State) (w : Who) (id off : Nat) : Option Nat :=
  match s.tile id with
  | some t => if t.level = .LOCAL then some 8 else (s.backlog (1, colOf w.c)).map (t.service (colOf w.c) off + ·)
  | none => some 0

/-- Some cycle of the column of context `c` from cycle `from_` of it on, at most `b` later when that is bounded (R5, R185). -/
def State.within (s : State) (c from_ : Nat) (b : Option Nat) : Nat × State :=
  let d := Config.delay s.fresh
  (max (s.now c) (from_ + (match b with | some n => d % (n + 1) | none => d)), { s with fresh := s.fresh + 1 })

/-- Reads one unit of memory at a virtual address, with the serial numbers of the stores on their way that it read; `sent`
bytes of it leave the port (R109). -/
def State.readVaS (s : State) (w : Who) (va n sent : Nat) : State × Got (List Byte × List Nat) :=
  match s.reach w .read va n with
  | (s, .err k a) => (s, .err k a)
  | (s, .wait) => (s, .wait)
  | (s, .dead) => (s, .dead)
  | (s, .ok ph) =>
    match ph.remote with
    | some pkg =>
      if s.switchHeld pkg ph.pa n then (s.wantSwitch pkg ph.pa n, .wait)
      else ((s.cross w sent).overLink w, .ok ((upto n).map fun i => s.remoteByte (remoteKey pkg ph.pa + i), []))
    | none =>
      let p := s.portFor w.owner w.part w.tenant va ph
      if s.marked ph.pa n then (s, .wait)
      else if s.linePoison p ph.pa then (s.poisonLine w.reader ph.pa, .dead)
      else
        let uses := s.drawsOn w p ph.pa
        match s.pay w p ph.pa sent false with
        | (s, false) => (s, .wait)
        | (s, true) =>
          let s := if w.call = 0 then s else s.callUses w.call uses
          let r := (s.cross w sent).readPlace w.eye p (.mem ph.pa ph.pin) n
          (r.1, .ok r.2)

/-- Reads one unit of memory, all of it sent. -/
def State.readVa (s : State) (w : Who) (va n : Nat) : State × Got (List Byte × List Nat) := s.readVaS w va n n

/-- The unit a store writes at a virtual address (R148): translated and checked, not yet written. -/
def State.unitVa (s : State) (w : Who) (va n : Nat) (d : List Byte) : State × Got WUnit :=
  match s.reach w .write va n with
  | (s, .err k a) => (s, .err k a)
  | (s, .wait) => (s, .wait)
  | (s, .dead) => (s, .dead)
  | (s, .ok ph) =>
    let p := s.portFor w.owner w.part w.tenant va ph
    let pl : Place := match ph.remote with | some k => .remote k ph.pa | none => .mem ph.pa ph.pin
    (s, .ok { place := pl, data := d, elide := ph.elide, cache := p.cache })

/-- Is a store that an engine sees still on its way to bytes that the engine is about to change (R150, R158)? The engine's write
comes after it in coherence order, and waits for it to be performed at its home. -/
def State.behind (s : State) (w : Who) (pl : Place) (n : Nat) : Bool :=
  w.engine && (upto n).any fun i => !(s.onWay w.eye (pl.add i)).isEmpty

/-- Does a unit go to a retired page, which takes no access (R381)? -/
def State.retiredUnit (s : State) (u : WUnit) : Bool :=
  match u.place with
  | .mem pa _ => !paHost pa && s.pkg.tBits.contains (pageOf pa)
  | _ => false

/-- Notes that a writer has written bytes `lo` to `hi` of the `size` bytes at a poisoned place, and says whether it has written them
all by now: one write clears poison when it covers the line or row whole, unit by unit (R377, Table 25.5). -/
def State.noteCover (s : State) (pl : Place) (writer lo hi size : Nat) : State × Bool :=
  let old := match s.pkg.covers.find? fun c => c.place = pl && c.writer = writer with | some c => c.mask | none => 0
  let m := old ||| (2 ^ hi - 2 ^ lo)
  let rest := s.pkg.covers.filter fun c => !(c.place = pl)
  if m = 2 ^ size - 1 then (s.updPkg fun k => { k with covers := rest }, true)
  else (s.updPkg fun k => { k with covers := rest ++ [⟨pl, writer, m⟩] }, false)

/-- A line of memory is no longer poisoned, in memory or in the slice that holds it. -/
def State.healLine (s : State) (p : Port) (line : Nat) : State :=
  let s := s.unpoison line (List.replicate 128 0)
  match s.home p line with
  | none => s
  | some sl =>
    let k := setKey sl line
    let x := s.l2set k
    match s.findWay p.part x line with
    | some v => (match tget none x.ways v with
      | some y => s.setL2 k { x with ways := tset none x.ways v (some { y with poison := false }) }
      | none => s)
    | none => s

/-- The poison that a unit a writer has just written takes away, now that its write covers the line or the rows whole
(R377; units of one entry or command together: DEDUCED, log 99). -/
def State.healBy (s : State) (p : Port) (writer : Nat) (u : WUnit) : State :=
  match u.place with
  | .mem pa pin =>
    let p := { p with pin := pin }
    if s.pkg.poison.isEmpty || !s.linePoison p pa then s
    else
      match s.noteCover (.mem (pa / 128 * 128) none) writer (pa % 128) (min 128 (pa % 128 + u.data.length)) 128 with
      | (s, true) => s.healLine p (pa / 128)
      | (s, false) => s
  | .tile id off =>
    match s.tile id with
    | some t =>
      if u.mask = 0xFF then
        (t.poison.filter fun r => decide (r * t.pitch < off + u.data.length ∧ off < r * t.pitch + t.rowLen)).foldl (fun s r =>
          match s.noteCover (.tile id (r * t.pitch)) writer (off - r * t.pitch) (min t.rowLen (off + u.data.length - r * t.pitch)) t.rowLen with
          | (s, true) => s.updTile id fun t => { t with poison := t.poison.filter (· ≠ r) }
          | (s, false) => s) s
      else s
    | none => s
  | .remote _ _ => s

/-- Performs a unit at its home (R149): false while it waits for an earlier store, a port, a back-invalidation, a switch or a
self-test, and for good when its page is retired, which its next translation finds. An armed error that the merge reads strikes first (R386). -/
def State.perform (s : State) (w : Who) (nt : Bool) (u : WUnit) : State × Bool :=
  if s.behind w u.place u.data.length then (s, false)
  else
  let p : Port := { owner := w.owner, part := w.part, elide := u.elide, cache := u.cache, nt := nt }
  match u.place with
  | .tile id off =>
    let held : Bool := match s.tile id with | some t => s.testing (s.inTile t off u.data.length) | none => false
    let far : Bool := match s.tile id with | some t => !(t.level = .LOCAL) | none => false
    if held then (s, false)
    else (((if far then s.cross w u.data.length else s.accessed w).writeUnit p u).healBy p w.req u, true)
  | .remote k pa =>
    if s.switchHeld k pa u.data.length then (s.wantSwitch k pa u.data.length, false)
    else ((s.cross w u.data.length).setRemoteBytes (remoteKey k pa) u.data, true)
  | .mem pa pin =>
    let p := { p with pin := pin }
    match s.guardOf pa with
    | some q => (s.guardHit q, true)
    | none =>
      if s.marked pa u.data.length || s.outOfService p pa u.data.length then (s, false)
      else
        match s.snoopFirst pa with
        | (s, true) => (s, false)
        | (s, false) =>
          let s := s.strikeMem w.reader p pa u.data.length true
          if s.retiredUnit u then (s, false)
          else
            match s.pay w p pa u.data.length true with
            | (s, false) => (s, false)
            | (s, true) => (((s.cross w u.data.length).writeUnit p u).healBy p w.req u, true)

/-- Reads one unit of a tile, with the poison of its rows (Table 25.5). The holding member of a QUIRE tile must be resident
(Table 25.1, CODE 14). -/
def State.readTileS (s : State) (w : Who) (id h off n sent : Nat) : State × Got (List Byte × List Nat) :=
  match s.tile id with
  | none => (s, .ok (List.replicate n 0, []))
  | some t =>
    if !s.resident t then (s, .err 14 (h % 256 + 256 * (off % 2 ^ 56)))
    else
      if s.testing (s.inTile t off n) then (s, .wait)
      else
      let s0 := s
      let s := s.strikeTile w.reader t off n
      if s0.struckBad s then (s, .dead)
      else
      let bad := match s.tile id with
        | some t => t.poison.find? fun r => decide (r * t.pitch < off + n ∧ off < (r + 1) * t.pitch)
        | none => none
      match bad with
      | some r => (s.poisonRead w.reader (s.tileDesc t (max off (r * t.pitch))) (if t.level = .BASE then t.stack else t.core), .dead)
      | none =>
        let s := if t.level = .LOCAL then s.accessed w else s.cross w sent
        let s := if t.level = .LOCAL || w.call = 0 then s else s.callUses w.call [(1, colOf w.c)]
        let r := s.readPlace w.eye { owner := w.owner, part := w.part } (.tile id off) n
        (r.1, .ok r.2)

/-- Reads one unit of a tile, all of it sent. -/
def State.readTile (s : State) (w : Who) (id h off n : Nat) : State × Got (List Byte × List Nat) := s.readTileS w id h off n n

/-- Reads of several units one after another, `none` at the first that does not give its bytes, with what it gave. -/
def State.readMany (s : State) (get : State → Nat → State × Got (List Byte × List Nat)) :
    List Nat → State × Got (List Byte × List Nat)
  | [] => (s, .ok ([], []))
  | a :: l =>
    match get s a with
    | (s, .ok r) =>
      match s.readMany get l with
      | (s, .ok q) => (s, .ok (r.1 ++ q.1, r.2 ++ q.2))
      | (s, .err k a) => (s, .err k a)
      | (s, .wait) => (s, .wait)
      | (s, .dead) => (s, .dead)
    | (s, .err k a) => (s, .err k a)
    | (s, .wait) => (s, .wait)
    | (s, .dead) => (s, .dead)

end Sys2Proof.Machine
end

