-- ==== Sys2Proof/Machine/Grid.lean ====
section
/-! DEFINITION. Operand grids (R91, R93, R94, R232): where an element lies, and reading the elements and scales of a
descriptor of KIND 0, for matrix calls, LATLD and ACCST. -/

namespace Sys2Proof.Machine

open Sys2Proof

/-- A grid of KIND 0: its set as captured, the tiles that handles named then, and its type. -/
structure Grid where
  ag    : BitVec 512
  tiles : Tbl Nat
  ty    : Ty
  deriving DecidableEq, Repr

/-- What a read of a grid gives: a value, an XLATE cause with its address, an OPERAND cause with its FLTADR, a wait, a unit
whose error ended its reader. -/
inductive Fetch (α : Type) where
  | ok (a : α)
  | xlate (code adr : Nat)
  | operand (code adr : Nat)
  | wait
  | dead
  deriving DecidableEq, Repr

/-- Goes on from a read that gave a value. -/
def fbind {α β : Type} (r : State × Fetch α) (f : State → α → State × Fetch β) : State × Fetch β :=
  match r with
  | (s, .ok a) => f s a
  | (s, .xlate k a) => (s, .xlate k a)
  | (s, .operand k a) => (s, .operand k a)
  | (s, .wait) => (s, .wait)
  | (s, .dead) => (s, .dead)

/-- The result of one access as a read of several gives it. -/
def gotFetch {α : Type} (r : State × Got α) : State × Fetch α :=
  match r with
  | (s, .ok a) => (s, .ok a)
  | (s, .err k a) => (s, .xlate k a)
  | (s, .wait) => (s, .wait)
  | (s, .dead) => (s, .dead)

/-- Reads over a list, one after another. -/
def fmapM {α β : Type} (f : State → α → State × Fetch β) : List α → State → State × Fetch (List β)
  | [], s => (s, .ok [])
  | a :: l, s => fbind (f s a) fun s b => fbind (fmapM f l s) fun s bs => (s, .ok (b :: bs))

/-- The index of grid element (row, col): bytes from the origin, or elements of a plane tensor (R232). -/
def State.gridAt (s : State) (w : Who) (g : Grid) (row col : Nat) : Except (Nat × Nat) Int :=
  s.gridIndex { ({} : Ctx) with tiles := g.tiles } w.eye g.ag row col

/-- Reads bytes at a position of the space a set names (R71): an address, or an offset of the tile that BASE names. -/
def State.spaceRead (s : State) (w : Who) (ag : BitVec 512) (tiles : Tbl Nat) (pos : Int) (n sent : Nat) : State × Fetch Nat :=
  let fin := fun (r : State × Got (List Byte × List Nat)) => match r with
    | (s, .ok d) =>
      (s.updCtx w.c fun x => { x with readFrom := x.readFrom ++ d.2.filter fun i => !x.readFrom.contains i },
        Fetch.ok (ofBytes d.1))
    | (s, .err k a) => (s, .xlate k a)
    | (s, .wait) => (s, .wait)
    | (s, .dead) => (s, .dead)
  if agMode ag then
    let h := agHandle ag
    match s.handle { ({} : Ctx) with tiles := tiles } h with
    | none => (s, .operand 0x0101 h)
    | some t =>
      if pos < 0 ∨ (t.bytesN : Int) < pos + n then (s, .operand 0x0102 (offAdr h pos))
      else fin (s.readTileS w t.id h pos.toNat n sent)
  else fin (s.readVaS w (wrapN pos 64) n sent)

/-- The units of memory that an element of index `e` is read from: position and length; a plane element reads a byte of each
of its first `n` planes (R91, R92). -/
def Grid.unitsOf (g : Grid) (n : Nat) (e : Int) : List (Int × Nat) :=
  let o : Int := agOrigin g.ag
  match g.ty with
  | .plane _ _ => (upto n).map fun p => (o + e / 1024 * 1024 + (128 * p + (e % 1024).toNat / 8 : Nat), 1)
  | t => [(o + e, t.bytes)]

/-- The stored value of an element of index `e` from the bytes read: the code of a plane element has the planes not read
as zero. -/
def Grid.valueOf (g : Grid) (n : Nat) (e : Int) (got : List (Int × Nat)) : Nat :=
  let at_ := fun (p : Int) => match findFirst (fun x => x.1 = p) got with | some x => x.2 | none => 0
  match g.ty with
  | .plane _ _ => sumN ((g.unitsOf n e).zipIdx.map fun u => b2n (bit (at_ u.1.1) ((e % 8).toNat)) * 2 ^ (7 - u.2))
  | _ => at_ ((g.unitsOf n e).headD (0, 0)).1

/-- Reads units one after another, each once and counted as it is stored (R111, log 86), after those in `got`; with what was got, that it may go on from there. -/
def State.readUnitsOf (s : State) (w : Who) (g : Grid) (sent : Nat) : List (Int × Nat) → List (Int × Nat) →
    State × Fetch Unit × List (Int × Nat)
  | [], got => (s, .ok (), got)
  | u :: l, got =>
    if got.any fun x => x.1 = u.1 then s.readUnitsOf w g sent l got
    else
      match s.spaceRead w g.ag g.tiles u.1 u.2 (min sent u.2) with
      | (s, .ok v) => s.readUnitsOf w g sent l (got ++ [(u.1, v)])
      | (s, .xlate k a) => (s, .xlate k a, got)
      | (s, .operand k a) => (s, .operand k a, got)
      | (s, .wait) => (s, .wait, got)
      | (s, .dead) => (s, .dead, got)

/-- The indices of grid elements. -/
def State.gridAll (s : State) (w : Who) (g : Grid) : List (Nat × Nat) → Except (Nat × Nat) (List Int)
  | [] => .ok []
  | (r, c) :: l =>
    match s.gridAt w g r c with
    | .error e => .error e
    | .ok i => match s.gridAll w g l with
      | .error e => .error e
      | .ok is => .ok (i :: is)

/-- The cause that a read of grid elements in memory records, of those its units meet (R363). -/
def State.gridCause (s : State) (w : Who) (g : Grid) (n : Nat) (l : List (Nat × Nat)) (d : Nat × Nat) : Nat × Nat :=
  match agMode g.ag, s.gridAll w g l with
  | false, .ok is => leastCause ((is.flatMap (g.unitsOf n)).filterMap fun u => s.probe w .read (wrapN u.1 64) u.2) d
  | _, _ => d

/-- What a read of units gives, once all have been read, with those read so far. -/
def unitsFetch {α : Type} (r : State × Fetch Unit × List (Int × Nat)) (f : List (Int × Nat) → α) :
    State × Fetch α × List (Int × Nat) :=
  match r with
  | (s, .ok _, got) => (s, .ok (f got), got)
  | (s, .xlate k a, got) => (s, .xlate k a, got)
  | (s, .operand k a, got) => (s, .operand k a, got)
  | (s, .wait, got) => (s, .wait, got)
  | (s, .dead, got) => (s, .dead, got)

/-- The stored values of grid elements, planes read at `n`, with `sent` bytes of each unit leaving its port, after the units
in `got`. -/
def State.gridFrom (s : State) (w : Who) (g : Grid) (n sent : Nat) (l : List (Nat × Nat)) (got : List (Int × Nat)) :
    State × Fetch (List Nat) × List (Int × Nat) :=
  match s.gridAll w g l with
  | .error e => (s, .operand e.1 e.2, got)
  | .ok is => unitsFetch (s.readUnitsOf w g sent (is.flatMap (g.unitsOf n)) got) fun got => is.map fun e => g.valueOf n e got

/-- The stored values of grid elements, all of them read now. -/
def State.gridRead (s : State) (w : Who) (g : Grid) (n sent : Nat) (l : List (Nat × Nat)) : State × Fetch (List Nat) :=
  let r := s.gridFrom w g n sent l []
  (r.1, r.2.1)

/-- The byte of the scale of element (row, col) from its scale base (R93, R94): block height 2^`sch`, element grid
`width` columns wide. -/
def scaleOff (sch width row col : Nat) : Nat :=
  let h := 2 ^ sch
  let w := 32 / h
  let bi := row / h
  let bj := col / w
  let nbj := ceilDiv width w
  let t := bi / 16 * ceilDiv nbj 16 + bj / 16
  512 * t + 2 * (16 * (bi % 16) + (bj % 16 ^^^ bi % 16))

/-- The scales of grid elements (R93 to R95), read through a scale set, after the units in `got`. -/
def State.scaleFrom (s : State) (w : Who) (sg : BitVec 512) (tiles : Tbl Nat) (sch width : Nat) (l : List (Nat × Nat))
    (got : List (Int × Nat)) : State × Fetch (List Nat) × List (Int × Nat) :=
  let g : Grid := ⟨sg, tiles, .flt .bf16⟩
  let offs := l.map fun e => (scaleOff sch width e.1 e.2 : Int)
  unitsFetch (s.readUnitsOf w g 2 (offs.flatMap (g.unitsOf 8)) got) fun got => offs.map fun e => g.valueOf 8 e got

end Sys2Proof.Machine
end

