-- ==== Sys2Proof/Machine/Barrier.lean ====
section
/-! DEFINITION. Barriers (R41, R42, R157, R264, R318, R373, R374). -/

namespace Sys2Proof.Machine

open Sys2Proof

/-- Barriers of an instance of a network, and its largest count (Table 3.1). -/
def netSize : Net → Nat
  | .core _ => 8 | .quad _ => 16 | .stack _ => 64 | .pkg => 64 | .pod _ _ => 256
/-- The largest count of a network. -/
def netCount : Net → Nat
  | .core _ => 4 | .quad _ => 16 | .stack _ => 128 | .pkg => 512 | .pod _ _ => 2097152

/-- The columns within a network's reach. -/
def netCols : Net → List Nat
  | .core k => [k / 4] | .quad q => [q] | .stack t => (upto 8).map (8 * t + ·) | .pkg => upto 32 | .pod _ _ => []

/-- The partitions that own columns within a network's reach, ascending. -/
def State.netParts (s : State) (n : Net) : List Nat := (upto 12).filter fun p => (netCols n).any fun c => bit (s.part p).cols c

/-- The barriers of a network that a partition holds: the first and how many (R42). Each partition has 256 pod barriers. -/
def State.netShare (s : State) (n : Net) (p : Nat) : Nat × Nat :=
  match n with
  | .pod _ _ => (0, 256)
  | n =>
    let l := s.netParts n
    let r := l.idxOf p
    if l.contains p then
      let lo := netSize n * r / l.length
      (lo, netSize n * (r + 1) / l.length - lo)
    else (0, 0)

/-- The pod network of a partition (R318). -/
def State.podNet (s : State) (p : Nat) : Net :=
  let j := (s.part p).podjob
  if j = 0 then .pod 0 p else .pod j 0

/-- The episode of a barrier. -/
def State.episode (s : State) (n : Net) (b : Nat) : Option Episode := findFirst (fun e => e.net = n && e.num = b) s.eps
/-- Replaces or removes the episode of a barrier. -/
def State.setEpisode (s : State) (n : Net) (b : Nat) (e : Option Episode) : State :=
  { s with eps := (s.eps.filter fun x => !(x.net = n && x.num = b)) ++ e.toList }

/-- The failure of an arrival in a poisoned episode. -/
def State.poisonRec (s : State) (e : ECmd) : Rec := s.failRec e 0x07 0x070B e.opa

/-- The partition an episode belongs to: a pod network's, else that of an arrival waiting in it, else the one whose share the
barrier lies in. -/
def State.episodePart (s : State) (ep : Episode) : Nat :=
  match ep.net with
  | .pod 0 p => p
  | .pod j _ => ((upto 12).find? fun p => (s.part p).podjob = j).getD 0
  | n => match ep.cmds.filterMap s.cmd with
    | e :: _ => (s.ctx e.ctx).part
    | [] => ((upto 12).find? fun p => let h := s.netShare n p; decide (h.1 ≤ ep.num ∧ ep.num < h.1 + h.2)).getD 0

/-- Poisons an episode (R373): every arrival already counted completes with the failure, and POISON rises. -/
def State.poison (s : State) (ep : Episode) : State :=
  if ep.poisoned then s
  else
    let part := s.episodePart ep
    let s := ep.cmds.foldl (fun s id => match s.cmd id with
      | some e => s.doneCmd id (some (match e.fail with | some r => r | none => s.poisonRec e))
      | none => s) s
    (s.setEpisode ep.net ep.num (some { ep with poisoned := true, cmds := [] })).count part 6

/-- A barrier becomes idle; POST arrivals that its episode did not take stay held (R373). -/
def State.idleBarrier (s : State) (ep : Episode) : State :=
  s.setEpisode ep.net ep.num (if ep.posts.isEmpty then none
    else some { ep with count := 0, arrived := 0, cmds := [], poisoned := false, quires := [], broke := [] })

/-- A completed episode: its waiting arrivals complete and the barrier is idle. -/
def State.endEpisode (s : State) (ep : Episode) : State :=
  (ep.cmds.foldl (fun s id => s.doneCmd id none) s).idleBarrier ep

/-- Counts one arrival of an episode in progress, of a command (with its context's quire) or of none. -/
def State.countArrival (s : State) (ep : Episode) (cmd : Option ECmd) : State :=
  let ep := { ep with arrived := ep.arrived + 1,
                      quires := match cmd with | some e => if ep.quires.contains e.quire then ep.quires else e.quire :: ep.quires
                                               | none => ep.quires }
  let ep := match cmd with | some e => if ep.poisoned then ep else { ep with cmds := ep.cmds ++ [e.id] } | none => ep
  let s := match cmd with
    | some e => if ep.poisoned then s.doneCmd e.id (some (match e.fail with | some r => r | none => s.poisonRec e)) else s
    | none => s
  if ep.arrived < ep.count then s.setEpisode ep.net ep.num (some ep)
  else if ep.poisoned then s.idleBarrier ep
  else s.endEpisode ep

/-- Held POST arrivals join an episode that has begun, at most `k`; a failed one poisons it (R373). -/
def State.joinPosts (s : State) (n : Net) (b : Nat) : Nat → State
  | 0 => s
  | k + 1 =>
    match s.episode n b with
    | some ep =>
      match ep.posts with
      | [] => s
      | bad :: l =>
        if ep.count = 0 then s
        else
          let ep := { ep with posts := l }
          let s := s.setEpisode n b (some ep)
          let s := if bad then s.poison ep else s
          match s.episode n b with
          | some ep => (s.countArrival ep none).joinPosts n b k
          | none => s
    | none => s

/-- An arrival of a command at a barrier of its network (R264, R373, R374). -/
def State.arrive (s : State) (e : ECmd) (n : Net) (b cnt : Nat) : State :=
  let p := (s.ctx e.ctx).part
  let sh := s.netShare n p
  let broken := match s.quire e.quire with | some q => q.broken | none => false
  if sh.2 ≤ b || cnt = 0 || netCount n < cnt then s.failCmd e 0x070A b
  else if broken then s.failCmd e 0x070C b
  else
    let num := sh.1 + b
    let s := s.updCmd e.id fun f => { f with begun := true }
    let old := s.episode n num
    let posts := match old with | some ep => ep.posts | none => []
    match old.filter fun ep => ep.count ≠ 0 with
    | some ep =>
      if ep.count ≠ cnt then s.failCmd e 0x070A b
      else
        let s := if e.fail.isSome then s.poison ep else s
        match s.episode n num with
        | some ep => s.countArrival ep (some e)
        | none => s
    | none =>
      let ep : Episode := { net := n, num := num, count := cnt, arrived := 0, cmds := [], posts := posts,
                            poisoned := false, quires := [], broke := [] }
      let s := s.setEpisode n num (some ep)
      let s := if e.fail.isSome then s.poison ep else s
      match s.episode n num with
      | some ep => (s.countArrival ep (some e)).joinPosts n num posts.length
      | none => s

/-- A POST arrival of a delivery (R260, R373): counted in the episode in progress, which it poisons when its delivery failed
after writing a row; held at an idle barrier. -/
def State.postArrival (s : State) (part b : Nat) (bad : Bool) : State :=
  let n := s.podNet part
  match s.episode n b with
  | some ep =>
    if ep.count = 0 then s.setEpisode n b (some { ep with posts := ep.posts ++ [bad] })
    else
      let s := if bad then s.poison ep else s
      match s.episode n b with | some ep => s.countArrival ep none | none => s
  | none => s.setEpisode n b (some { net := n, num := b, count := 0, arrived := 0, cmds := [], posts := [bad],
                                     poisoned := false, quires := [], broke := [] })

/-- A POST arrival of a delivery whose rows are written. -/
def State.post (s : State) (part b : Nat) : State := s.postArrival part b false

/-- A POST arrival of a delivery that failed after writing a row. -/
def State.postFailed (s : State) (part b : Nat) : State := s.postArrival part b true

/-- A quire is broken: every episode in progress that counts an arrival of it is poisoned (R374). -/
def State.breakQuire (s : State) (q : Nat) : State :=
  let s := s.updQuire q fun x => { x with broken := true }
  s.eps.foldl (fun s ep => if ep.count ≠ 0 && ep.quires.contains q then
      let s := s.poison ep
      match s.episode ep.net ep.num with
      | some e => s.setEpisode ep.net ep.num (some { e with broke := if e.broke.contains q then e.broke else q :: e.broke })
      | none => s
    else s) s

/-- A broken quire retires: every episode it poisoned and left unfinished returns to idle (R374). -/
def State.idleBroken (s : State) (q : Nat) : State := { s with eps := s.eps.filter fun e => !(e.broke.contains q) }

/-- PARTCOL changed who owns columns (R42): in a network whose set of owning partitions was another in `old`, every episode in
progress is poisoned, and every barrier returns to idle. -/
def State.recomputeNets (s old : State) : State :=
  let hit := fun (e : Episode) => !(s.netParts e.net = old.netParts e.net)
  let s := s.eps.foldl (fun s e => if hit e && e.count ≠ 0 then s.poison e else s) s
  { s with eps := s.eps.filter fun e => !hit e }

end Sys2Proof.Machine
end

