-- ==== Sys2Proof/Machine/Parcel.lean ====
section
/-! DEFINITION. The poste restante ring (R63, R254, R261, R375): parking a write for a member that is not resident, and
replaying it. -/

namespace Sys2Proof.Machine

open Sys2Proof

/-- Units of 64 bytes a parcel takes in the ring: its header and its payload (R261). -/
def Parcel.units (p : Parcel) : Nat := 1 + ceilDiv p.len 64

/-- The header of a parcel (Table 13.5). -/
def Parcel.header (p : Parcel) : List Byte :=
  toBytes 8 (p.seq % 2 ^ 32 * 2 ^ 32 + p.member % 64 * 2 ^ 20 + p.handle % 256 * 2 ^ 12 + p.barn % 256 * 16 +
    b2n p.post * 8 + b2n p.valid) ++
  toBytes 8 (p.len % 2 ^ 32 * 2 ^ 32 + p.offset % 2 ^ 32) ++
  toBytes 8 (p.spkg % 2 ^ 12 * 2 ^ 52 + p.sctx % 512 * 2 ^ 43) ++ List.replicate 40 0

/-- The parcels of a ring without the invalid ones at its oldest end: their space has returned (R261). -/
def trimRing : List Parcel → List Parcel
  | [] => []
  | p :: l => if p.valid then p :: l else trimRing l

/-- The oldest position of a ring still taken. -/
def Part.ringHead (q : Part) : Nat := match q.ring with | p :: _ => p.at_ | [] => q.tail

/-- Writes units of 64 bytes into a partition's ring, which wraps at its end (R314). -/
def State.ringWrite (s : State) (part pos : Nat) : Nat → List Byte → State
  | 0, _ => s
  | n + 1, d =>
    let q := s.part part
    let pa := devPa part (q.prbase * 65536 + 64 * (pos % (1024 * q.prsize)))
    (s.ownWrite part pa (d.take 64)).ringWrite part (pos + 1) n (d.drop 64)

/-- Appends a parcel to its partition's ring; none while the ring has no room for it. -/
def State.appendParcel (s : State) (part : Nat) (p : Parcel) : Option State :=
  let q := s.part part
  if 1024 * q.prsize < q.tail - q.ringHead + p.units then none
  else
    let p := { p with at_ := q.tail, valid := true }
    let pad := List.replicate (64 * (p.units - 1) - p.len) (0 : Byte)
    let s := s.ringWrite part q.tail p.units (p.header ++ p.data ++ pad)
    some (s.updPart part fun q => { q with ring := q.ring ++ [p], tail := q.tail + p.units })

/-- Parks a write: it enters the ring, or waits at the package until there is room (R261). -/
def State.park (s : State) (part : Nat) (p : Parcel) : State :=
  match s.appendParcel part p with
  | some s => s
  | none => s.updPart part fun q => { q with waiting := q.waiting ++ [{ p with since := s.cycle }] }

/-- Waiting parcels of a partition for which there is room enter its ring; none holds another back (R375). -/
def State.unpark (s : State) (part : Nat) : State :=
  (s.part part).waiting.foldl (fun t p =>
    match t.appendParcel part p with
    | some t => t
    | none => t.updPart part fun q => { q with waiting := q.waiting ++ [p] })
    (s.updPart part fun q => { q with waiting := [] })

/-- Is a parcel of a command still waiting for room? -/
def State.parcelWaits (s : State) (cmd : Nat) : Bool := s.parts.any fun e => e.2.waiting.any fun p => p.cmd = cmd

/-- Clears VALID of a parcel of a ring, in memory too. -/
def State.clearParcel (s : State) (part at_ : Nat) : State :=
  let s := match findFirst (fun p => p.at_ = at_) (s.part part).ring with
    | some p => s.ringWrite part at_ 1 ({ p with valid := false }.header)
    | none => s
  s.updPart part fun q => { q with ring := trimRing (mapIf (fun p => p.at_ = at_) (fun p => { p with valid := false }) q.ring) }

/-- Replays one parcel into the tile its member names, and counts its POST arrival (R261). -/
def State.replayParcel (s : State) (part c : Nat) (p : Parcel) : State :=
  let s := match s.handle (s.ctx c) p.handle with
    | some t => s.updTile t.id fun t => t.write p.offset p.data
    | none => s
  let s := if p.post then s.post part p.barn else s
  s.clearParcel part p.at_

/-- A parcel that still waits for room as its member resumes is replayed without having entered the ring (R261). -/
def State.replayWaiting (s : State) (part c : Nat) (p : Parcel) : State :=
  let s := match s.handle (s.ctx c) p.handle with
    | some t => s.updTile t.id fun t => t.write p.offset p.data
    | none => s
  if p.post then s.post part p.barn else s

/-- Replays the parcels of a member at its resumption, in their order (R61, R161, R261): those of the ring, then those that wait for
room in it. -/
def State.replayMember (s : State) (part seq member c : Nat) : State :=
  let mine := fun (p : Parcel) => p.valid && p.seq = seq && p.member = member
  let s := ((s.part part).ring.filter mine).foldl (fun s p => s.replayParcel part c p) s
  let l := (s.part part).waiting.filter mine
  l.foldl (fun s p => s.replayWaiting part c p) (s.updPart part fun q => { q with waiting := q.waiting.filter fun p => !mine p })

/-! Where a member stands. -/

/-- The context of a quire's member, if it is resident (R254): claimed, saving and saved members are not. -/
def State.memberCtx (s : State) (q : Quire) (m : Nat) : Option Nat :=
  match q.st, q.members[m]? with
  | .running, some c =>
    let x := s.ctx c
    if x.quire = q.id && !(x.st = .saving || x.st = .claimed || x.st = .empty) then some c else none
  | _, _ => none

/-- The tile that a handle names in the table of a quire's member, resident or saved. -/
def State.memberTile (s : State) (q : Quire) (m h : Nat) : Option Tile :=
  match findFirst (fun i => i.member = m) q.images with
  | some i =>
    match findFirst (fun t => t.1 = h) (i.tiles ++ (q.images.flatMap Image.tiles).filter fun t => !(t.2.level = .LOCAL)) with
    | some t => some t.2
    | none => s.handle i.ctx h
  | none =>
    match q.members[m]? with
    | some c => if (s.ctx c).quire = q.id then s.handle (s.ctx c) h else none
    | none => none

end Sys2Proof.Machine
end

