-- ==== Sys2Proof/Machine/Acw.lean ====
section
/-! DEFINITION. Accumulate-on-write (R159, R160, R181, R263): the arithmetic of the indices of Table 9.24 and the update of
one unit at its memory port or in a Fareri switch. -/

namespace Sys2Proof.Machine

open Sys2Proof

/-- The type of accumulate-on-write index c (Table 9.24). -/
def acwTy (c : Nat) : Ty :=
  if c < 21 then [.int true 32, .int false 32, .int true 64, .int false 64, .flt .f32, .flt .f16, .flt .bf16].getD (c % 7) (.flt .f32)
  else if c % 2 = 1 then .int false 32 else .int false 64

/-- Addition of two units: integers wrap, floating sums are rounded once (R263). -/
def acwAdd (t : Ty) (a b : Nat) : Nat :=
  match t with
  | .flt f => rne f (exactSum [decodeF f a, decodeF f b])
  | t => (a + b) % 2 ^ t.width

/-- Minimum or maximum of two units (R101, R263). -/
def acwMaxMin (isMax : Bool) (t : Ty) (a b : Nat) : Nat :=
  match t with
  | .flt f => maxMinF f isMax a b
  | .int sg n => if decide (extI sg n a < extI sg n b) == isMax then b else a
  | .plane _ _ => a

/-- The new value of a unit under index c: `v` the value, for `.cas` the expected value and `n` the new one (R263). -/
def acwNew (c old v n : Nat) : Nat :=
  let t := acwTy c
  let old := old % 2 ^ t.width
  let v := v % 2 ^ t.width
  if c < 7 then acwAdd t old v
  else if c < 14 then acwMaxMin false t old v
  else if c < 21 then acwMaxMin true t old v
  else match (c - 21) / 2 with
    | 0 => old &&& v
    | 1 => old ||| v
    | 2 => old ^^^ v
    | 3 => v
    | _ => if old = v then n % 2 ^ t.width else old

/-- The index of an accumulate-on-write type among the seven of Table 9.24. -/
def acwTypeNum : AcwType → Nat
  | .i32 => 0 | .n32 => 1 | .i64 => 2 | .n64 => 3 | .f32 => 4 | .f16 => 5 | .bf16 => 6
/-- The index of a width among the two of Table 9.24. -/
def acwWidthNum : AcwWidth → Nat
  | .n32 => 0 | .n64 => 1

/-- The index of an accumulate-on-write operation, and whether it fetches. -/
def acwOf (i : Instr) : Option (Nat × Bool) :=
  match i with
  | .acwAdd t _ => some (acwTypeNum t, false) | .acwMin t _ => some (7 + acwTypeNum t, false) | .acwMax t _ => some (14 + acwTypeNum t, false)
  | .acwAnd t _ => some (21 + acwWidthNum t, false) | .acwOr t _ => some (23 + acwWidthNum t, false) | .acwXor t _ => some (25 + acwWidthNum t, false)
  | .acwSwap t _ => some (27 + acwWidthNum t, false) | .acwCas t _ => some (29 + acwWidthNum t, false)
  | .acwfAdd t _ => some (acwTypeNum t, true) | .acwfMin t _ => some (7 + acwTypeNum t, true) | .acwfMax t _ => some (14 + acwTypeNum t, true)
  | .acwfAnd t _ => some (21 + acwWidthNum t, true) | .acwfOr t _ => some (23 + acwWidthNum t, true) | .acwfXor t _ => some (25 + acwWidthNum t, true)
  | .acwfSwap t _ => some (27 + acwWidthNum t, true) | .acwfCas t _ => some (29 + acwWidthNum t, true)
  | _ => none

/-! Words in a Fareri switch (R160). -/

/-- The word of a package's memory held in a switch. -/
def State.swWord (s : State) (pkg pa : Nat) : Option SwWord :=
  findFirst (fun w => w.pkg = pkg && w.pa = pa / 8 * 8) s.pkg.switchWords

/-- A switch writes a word back to its home and drops it. -/
def State.swDrop (s : State) (w : SwWord) : State :=
  (s.setRemoteBytes (remoteKey w.pkg w.pa) (toBytes 8 w.word)).updPkg fun k =>
    { k with switchWords := k.switchWords.filter (fun x => !(x = w)), swWant := k.swWant.filter fun x => !(x = (w.pkg, w.pa)) }

/-- Makes room for a word in a switch of 16,384 words: a full one drops the word it has held longest (log 71). -/
def State.swRoom (s : State) (switch : Nat) : State :=
  let l := s.pkg.switchWords.filter fun w => w.switch = switch
  if l.length < 16384 then s else match l with | w :: _ => s.swDrop w | [] => s

/-- An update of a unit of another package in the switch nearest it: the word is fetched if it is not held. -/
def State.swUpdate (s : State) (pkg pa u : Nat) (f : Nat → Nat) : State × Nat :=
  let base := pa / 8 * 8
  let s := if (s.swWord pkg pa).isNone then s.swRoom (Config.switchOf pkg) else s
  let w : SwWord := match s.swWord pkg pa with
    | some w => w
    | none => ⟨Config.switchOf pkg, pkg, base, ofBytes ((upto 8).map fun i => s.remoteByte (remoteKey pkg base + i))⟩
  let sh := 8 * (pa - base)
  let old := w.word / 2 ^ sh % 2 ^ (8 * u)
  let new := w.word - old * 2 ^ sh + f old % 2 ^ (8 * u) * 2 ^ sh
  (s.updPkg fun k => { k with switchWords := (k.switchWords.filter fun x => !(x.pkg = pkg && x.pa = base)) ++ [{ w with word := new }] },
    old)

/-- SWITCH_WRITEBACK (R160): a switch writes a word it holds back to its home, and drops it. -/
def execSwitchWriteback (word : Nat) (s : State) : Out :=
  match s.pkg.switchWords[word]? with
  | some w => .next (s.swDrop w)
  | none => .next s

/-- A word of a switch that a plain access waits for. -/
def State.wantedWord (s : State) : Option Nat := s.pkg.switchWords.findIdx? fun w => s.pkg.swWant.contains (w.pkg, w.pa)

/-! The update of one unit. -/

/-- A command whose accumulate-on-write is on its way to a switch, or answered by one, is marked with the package it names and the
place there (R377). -/
def State.toSwitch (s : State) (w : Who) (pkg pa : Nat) : State :=
  match w.reader with
  | .cmd id => s.updCmd id fun e => if isMcast e.op || e.dests.any (fun d => d.1 = pkg) then e else { e with dests := e.dests ++ [(pkg, pa)] }
  | _ => s

/-- An accumulate-on-write of `u` bytes at a place that its address translates to (R159): the unit is read and written at its port
with nothing between, after the stores on their way that its engine sees (R155, R158); gives the value it read, which the port
`sends` for a fetching form (R139). -/
def State.acwAt (s : State) (w : Who) (va u : Nat) (sends : Bool) (f : Nat → Nat) (ph : Phys) : State × Fetch Nat :=
  match ph.remote with
  | some pkg =>
    let s := s.toSwitch w pkg ph.pa
    if (tget 0 s.pkg.lost (Config.switchOf pkg)) ≠ 0 then (s, .wait)
    else let r := (s.cross w u).swUpdate pkg ph.pa u f; (r.1, .ok r.2)
  | none =>
    let p := s.portFor w.owner w.part w.tenant va ph
    let p := { p with pin := ph.pin }
    if s.marked ph.pa u || s.behind w (.mem ph.pa ph.pin) u then (s, .wait)
    else if s.linePoison p ph.pa then (s.poisonLine w.reader ph.pa, .dead)
    else
      match s.snoopFirst ph.pa with
      | (s, true) => (s, .wait)
      | (s, false) =>
        let s := s.strikeMem w.reader p ph.pa u true
        if !paHost ph.pa && s.pkg.tBits.contains (pageOf ph.pa) then (s, .wait)
        else
        match s.pay w p ph.pa u (!sends) with
        | (s, false) => (s, .wait)
        | (s, true) =>
          let r := (s.cross w u).readPa p ph.pa u
          let old := ofBytes r.2
          match r.1.guardOf ph.pa with
          | some q => (r.1.guardHit q, .ok old)
          | none => (r.1.writePa p ph.pa (toBytes u (f old)), .ok old)

/-- An accumulate-on-write of `u` bytes at a virtual address, whose old value goes back to its tile where it `fetches`. -/
def State.acwUnit (s : State) (w : Who) (va u : Nat) (fetches : Bool) (f : Nat → Nat) : State × Fetch Nat :=
  match s.reach w .write va u with
  | (s, .err k a) => (s, .xlate k a)
  | (s, .wait) => (s, .wait)
  | (s, .dead) => (s, .dead)
  | (s, .ok ph) => s.acwAt w va u fetches f ph

end Sys2Proof.Machine
end

