-- ==== Sys2Proof/Machine/Queue.lean ====
section
/-! DEFINITION. The load and store queues of a context (R150 to R152, R155, R185, R225, R336, R342): what an entry accesses,
how loads read and stores are performed, markers, faults after issue, and the landing of results. -/

namespace Sys2Proof.Machine

open Sys2Proof

/-! What an entry accesses. -/

/-- The element type of an access; PLD and PST move 64 bytes as one unit. -/
def accTy (i : Instr) : Ty := match lwOf i with | some w => tyOr w.type | none => .int false 64

/-- Is the operation a marker? -/
def isMark (i : Instr) : Bool := match i with | .mark _ => true | _ => false

/-- Is the operation a SHSEAL? -/
def isSeal (i : Instr) : Bool := match i with | .shseal _ => true | _ => false

/-- Is an element of an entry active (R206, R221)? -/
def QEntry.active (e : QEntry) (i : Nat) : Bool := elemActive e.guard e.sense (accTy e.op).width i

/-- The planes a plane access touches: n for a load, all eight for a store (R223). -/
def planeCount (load : Bool) (t : Ty) : Nat := match t with | .plane n _ => if load then n else 8 | _ => 0

/-- The bits of byte `j` of a block that active positions own (R91, R223). -/
def QEntry.planeMask (e : QEntry) (j : Nat) : Nat :=
  sumN ((upto 8).map fun b => b2n (e.active (j % 128 * 8 + b)) * 2 ^ b)

/-- The units an entry accesses: element number, address or tile offset, and length (R220 to R224). A plane access
touches single bytes of its block. -/
def QEntry.unitList (e : QEntry) (load : Bool) : List (Nat × Nat × Nat) :=
  let a := e.addrs.headD 0
  let t := accTy e.op
  let n := t.bytes
  match e.op with
  | .ld _ | .ldsc _ | .st _ | .stsc _ | .stnt _ => [(0, a, n)]
  | .pld _ | .pst _ => [(0, a, 64)]
  | .shseal _ => (upto 3).map fun i => (i, a + 32 * i, 32)
  | .vldg _ | .tldg _ | .vsts _ | .tsts _ => (e.addrs.zipIdx.filter fun x => e.active x.2).map fun x => (x.2, x.1, n)
  | .vld _ | .vst _ => ((upto t.count).filter e.active).map fun i => (i, a + i * n, n)
  | .tld _ | .tst _ =>
    if t.isP then ((upto (128 * planeCount load t)).filter fun j => !(e.planeMask j = 0)).map fun j => (j, a + j, 1)
    else ((upto t.count).filter e.active).map fun i => (i, a + i * n, n)
  | _ => []

/-- The handle an entry accesses a tile through, as FLTADR names it. -/
def QEntry.handleNo (e : QEntry) : Nat :=
  match e.op with
  | .tld w => w.base.toNat
  | .tst w => w.base.toNat
  | _ => e.base % 256

/-- The value a load gives its register once every unit has been read (R223, R245, R246): `old` is what the register
holds, which inactive elements keep. -/
def QEntry.value (e : QEntry) (old : Nat) : Nat :=
  let t := accTy e.op
  let vals := ((e.unitList true).map fun u => u.1).zip e.got
  let at_ := fun i => tget 0 vals i
  match e.op with
  | .ld _ | .ldsc _ => (match t with | .int sg n => wrapN (extI sg n (at_ 0)) 64 | _ => at_ 0)
  | .pld _ => at_ 0
  | _ =>
    let o := BitVec.ofNat 8192 old
    match t with
    | .plane n sg =>
      (buildV 8 fun q =>
        if e.active q then
          let c := sumN ((upto n).map fun p => b2n (bit (at_ (128 * p + q / 8)) (q % 8)) * 2 ^ (7 - p))
          wrapN (planeValue (extI sg 8 c) n) 8
        else elem 8 o q).toNat
    | t => (buildV t.width fun i => if e.active i then at_ i else elem t.width o i).toNat

/-- The bytes a store entry writes in a unit, and the bits of them. -/
def QEntry.storeData (e : QEntry) (u : Nat × Nat × Nat) : List Byte × Byte :=
  let t := accTy e.op
  match e.op with
  | .st _ | .stsc _ | .stnt _ | .pst _ => (toBytes u.2.2 e.data, 0xFF)
  | _ =>
    let v := BitVec.ofNat 8192 e.data
    match t with
    | .plane _ _ =>
      let p := u.1 / 128
      ([BitVec.ofNat 8 (sumN ((upto 8).map fun b => b2n (bit (elem 8 v (u.1 % 128 * 8 + b)) (7 - p)) * 2 ^ b))],
        BitVec.ofNat 8 (e.planeMask u.1))
    | t => (toBytes t.bytes (elem t.width v u.1), 0xFF)

/-! Issue. -/

/-- An operation of slot L or W enters its queue, with the values it read (R151, R225). -/
def Run.entry (r : Run) (s : State) (id wait due tile : Nat) (addrs : List Nat) : QEntry :=
  { id := id, pc := r.k.h, slot := r.f.slot, op := r.i, base := r.src 0, index := r.src 1, data := r.src 2,
    guard := r.g, sense := r.f.sense, level := r.x.level, tile := tile, addrs := addrs, got := [],
    tok := (r.f.kins.filterMap r.x.tokRef).head?, due := s.now r.c + due, wait := wait, reach := 0, arr := 0, known := false,
    units := [] }

/-- The places of a list that begin a line other than the one before. -/
def lineStarts (last : Option Nat) : List Nat → List Nat
  | [] => []
  | a :: l => if last = some (a / 128) then lineStarts last l else a :: lineStarts (some (a / 128)) l

/-- Units of a load that are read in one step at least, so that the whole takes eight steps at most. -/
def QEntry.pace (e : QEntry) : Nat := ceilDiv (e.unitList true).length 8

/-- The longest time a load entered now waits for its source, beside the eight steps it may be read in (R185, Table 9.28). -/
def State.loadMax (s : State) (w : Who) (e : QEntry) : Option Nat :=
  let at_ := lineStarts none ((e.unitList true).map fun u => u.2.1)
  (maxMax (at_.map fun a => if e.tile = 0 then s.unitMax w a else s.tileMax w e.tile a)).map (· - 8)

/-- A load enters its queue, its destination in flight for its latency; an SC load may act at once. -/
def State.pushLoad (s : State) (r : Run) (cls : Cls) (tile : Nat) (addrs : List Nat) (more : Nat) : State :=
  let n := s.newSerial
  let e := r.entry s n.1 0 (r.f.lat + more) tile addrs
  let w := n.2.within r.c (s.now r.c) (n.2.loadMax (n.2.whoCtx r.c n.1 r.x.level) e)
  let e := { e with wait := if (scIndex r.i).isSome then 0 else w.1 }
  let s := w.2.updCtx r.c fun x => { x with loadQ := x.loadQ ++ [e] }
  if cls = .s && r.dst = 0 then s else s.land r.c r.f.slot cls r.dst (r.f.lat + more) none n.1

/-- The tile a handle names as the bundle issues, and the offset TLD or TST names in it (R222). -/
def State.tileAccess (s : State) (r : Run) (h : Nat) (off8 : BitVec 8) : Nat × Nat :=
  match s.handle r.x h with
  | some t => (t.id, (tileOff t.pitch (r.src 1) off8).toNat)
  | none => (0, 0)

/-- The addresses a form draws, its advanced set, and the tile (R224). -/
def State.drawAccess (s : State) (r : Run) : List Nat × BitVec 512 × Nat :=
  let a := BitVec.ofNat 512 (r.src 0)
  let tile := if agMode a then (match s.handle r.x (agHandle a) with | some t => t.id | none => 0) else 0
  match s.draw r.x (eyeCtx r.c s.serial) (accTy r.i).count a with
  | .ok (l, b) => (l, b, tile)
  | .error _ => ([], a, tile)

/-- The advance of a set lands one cycle after issue: in the register, or in the latched copy that was drawn from (R197). -/
def State.advanceSet (s : State) (r : Run) (b : BitVec 512) : State :=
  let n := (r.f.fld 0).val
  if n = 0xFF then
    s.updCtx r.c fun x => match x.latch r.f.slot 0 with
      | some h => { x with holds := tset none x.holds (4 * r.f.slot.num) (some { h with val := b.toNat }) }
      | none => x
  else s.land r.c r.f.slot .ag n 1 (some b.toNat) 0

/-! Faults after issue. -/

/-- Splits a queue before the entry of a serial number. -/
def splitAtId (id : Nat) : List QEntry → List QEntry × List QEntry
  | [] => ([], [])
  | e :: l => if e.id = id then ([], e :: l) else let r := splitAtId id l; (e :: r.1, r.2)

/-- Moves an entry and every later one of its queue into the snapshot buffer, a load with its landing tagged by the
freeze cycle `f` (R336). A store that is held has written nothing and is translated anew at its replay (R367). -/
def Ctx.holdQueue (x : Ctx) (load : Bool) (id f : Nat) : Ctx :=
  match x.snap with
  | none => x
  | some sn =>
    if load then
      let q := splitAtId id x.loadQ
      let ids := q.2.map QEntry.id
      let ls := x.inflight.filter fun l => ids.contains l.src
      let sn := { sn with heldL := sn.heldL ++ q.2.map (fun e => { e with got := [], wait := 0 }),
                          results := sn.results ++ ls.map fun l => { l with due := l.due - f, val := none } }
      { x with loadQ := q.1, inflight := x.inflight.filter (fun l => !ids.contains l.src), snap := some sn }
    else
      let q := splitAtId id x.storeQ
      let es := q.2.map fun e => { e with known := false, units := [], reach := 0, arr := 0 }
      { x with storeQ := q.1, snap := some { sn with heldW := sn.heldW ++ es } }

/-- Holds an entry and what its queue, and a marker among them the other queue, has after it. -/
def Ctx.holdFrom (x : Ctx) (load : Bool) (id f : Nat) : Ctx :=
  let q := if load then x.loadQ else x.storeQ
  let m := findFirst (fun e => isMark e.op) (splitAtId id q).2
  let x := x.holdQueue load id f
  match m with
  | some e => x.holdQueue (!load) e.id f
  | none => x

/-- The column cycle a context froze at. -/
def Ctx.freezeCycle (x : Ctx) (now : Nat) : Nat :=
  match x.frz.fault with
  | some (_, f, _) => f
  | none => match x.frz.urgent with | some f => f | none => now

/-- The record of an entry or call that faults during an urgent stop is kept, the first one only, beside a buffer for held
entries; the latches, loops and ratio stay with the context until the record is delivered (R343, R345). -/
def Ctx.keepFault (x : Ctx) (r : Rec) (mark : Nat) : Ctx :=
  { x with snap := some (match x.snap with | some sn => sn | none => { snapOf x mark with holds := [], loops := [], depth := 0, ratio := 0 }),
           pendFault := some (x.pendFault.getD (r, false)) }

/-- The kept record of a context that goes on is delivered first, from freeze cycle `f` (R343). -/
def Ctx.takeKept (x : Ctx) (f : Nat) : Ctx :=
  match x.pendFault with
  | some (r, b) => { x with pendFault := none }.freezeAt r f 0 b (0, 0)
  | none => x

/-- A fault found after issue of an operation that has left the bundle (R333, R334): during an urgent stop its record is kept
in the image (R343). -/
def State.faultLate (s : State) (c : Nat) (f : FaultInfo) : State :=
  if (s.ctx c).frz.urgent.isSome then s.updCtx c fun x => x.keepFault (mkRec c x f) s.serial else s.takeFault c f false

/-- Is a fault of an entry recorded: not of one that issued before the freeze of a fault that has been delivered (R336, R339)? -/
def Ctx.records (x : Ctx) (id : Nat) : Bool :=
  x.frz.fault.isSome || (match x.snap with | some sn => decide (sn.mark ≤ id) | none => true)

/-- A queue entry meets a fault (R334, R336, R343), and is held with what follows it. A TOKEN fault gives the failed command's
own record (R342). -/
def State.queueFault (s : State) (c : Nat) (load : Bool) (e : QEntry) (f : FaultInfo) : State :=
  let f := if f.cls = 0x0C then { f with id := e.id } else { e.info with cls := f.cls, code := f.code, sub := f.sub, tok := f.tok, adr := f.adr }
  let s := if (s.ctx c).records e.id then s.faultLate c f else s
  s.updCtx c fun x => x.holdFrom load e.id (x.freezeCycle (s.now c))

/-- An XLATE fault of an entry (R363). -/
def State.queueXlate (s : State) (c : Nat) (load : Bool) (e : QEntry) (code adr : Nat) : State :=
  s.queueFault c load e { cls := 0x0B, code := code, adr := adr }

/-- Does an entry still wait for its token (R155)? -/
def State.tokenWait (s : State) (c : Nat) (e : QEntry) : Bool :=
  match e.tok with | some k => s.prodBusy c k | none => false

/-- The failure a token brings an entry (R342). -/
def State.tokenFail (s : State) (c : Nat) (e : QEntry) : Option FaultInfo :=
  match e.tok with
  | some k => (s.prodFail c k).map (tokenInfo e.slot.num k.1)
  | none => none

/-! Loads. -/

/-- Is an SC access of lower number still in the other queue (R154)? -/
def scBefore (q : List QEntry) (id : Nat) : Bool := q.any fun e => (scIndex e.op).isSome && decide (e.id < id)

/-- May an SC entry act now: in the cycle of its position (R153)? -/
def State.scNow (s : State) (c : Nat) (e : QEntry) : Bool :=
  match scIndex e.op with
  | some j => (s.core (coreOf c)).position j = some (s.cycle % 512)
  | none => true

/-- Reads one unit of a load entry. -/
def State.readEntry (s : State) (c : Nat) (e : QEntry) (u : Nat × Nat × Nat) : State × Got (List Byte × List Nat) :=
  let w := s.whoCtx c e.id e.level
  let w := { w with eye := if (scIndex e.op).isSome then eyeFar else w.eye }
  if e.tile = 0 then s.readVa w u.2.1 u.2.2 else s.readTile w e.tile e.handleNo u.2.1 u.2.2

/-- The check on the address of an access itself, whatever its guard (R221). -/
def QEntry.addrErr (e : QEntry) (n : Nat) : Option Nat :=
  let a := e.addrs.headD 0
  match e.op with
  | .vld _ | .vst _ => if 2 ^ 56 ≤ a then some 8 else if a % n = 0 then none else some 7
  | _ => none

/-- Gives the value of a load to its landing, wherever it stands (R336): in flight, captured, or about to be replayed. -/
def Ctx.deliverLoad (x : Ctx) (id v : Nat) : Ctx :=
  let put := fun (l : List Landing) => mapIf (fun l => l.src = id && l.val.isNone) (fun l => { l with val := some v }) l
  { x with inflight := put x.inflight, replay := put x.replay,
           snap := x.snap.map fun sn => { sn with results := put sn.results } }

/-- The register a load's landing names, as it stands: what inactive elements keep. -/
def Ctx.oldFor (x : Ctx) (e : QEntry) : Nat :=
  let ls := x.inflight ++ x.replay ++ (match x.snap with | some sn => sn.results | none => [])
  match findFirst (fun l => l.src = e.id) ls with
  | some l => x.reg l.cls l.idx
  | none => 0

/-! Shape records (R255 to R257). -/

/-- The fields of a shape record (Table 13.4). -/
structure ShapeRec where
  scbase : Nat
  mpitch : Nat
  nrows  : Nat
  row0   : Nat
  cols   : Nat
  ratio  : Nat
  acwop  : Nat
  red    : Nat
  sch    : Nat
  scen   : Bool
  pack   : Bool
  trn    : Bool
  half   : Nat
  dst    : Nat
  src    : Nat
  deriving DecidableEq, Repr

/-- A record's fields. -/
def shapeRec (b : Nat) : ShapeRec :=
  { scbase := bits b 247 192, mpitch := bits b 159 128, nrows := bits b 119 100, row0 := bits b 99 80,
    cols := bits b 77 64, ratio := bits b 45 40, acwop := bits b 36 32, red := bits b 31 24, sch := bits b 23 21,
    scen := bit b 20, pack := bit b 19, trn := bit b 18, half := bits b 17 16, dst := bits b 12 8, src := bits b 4 0 }

/-- The reserved bits of a record and the unused ones of CONVERT are zero. -/
def shapeReserved (b : Nat) : Bool :=
  bits b 767 248 = 0 && bits b 191 160 = 0 && bits b 127 120 = 0 && bits b 79 78 = 0 && bits b 63 46 = 0 &&
    bits b 39 37 = 0 && bits b 15 13 = 0 && bits b 7 5 = 0

/-- The type code of accumulate-on-write index c (Table 9.24). -/
def acwTypeCode (c : Nat) : Nat :=
  if c < 21 then [3, 7, 4, 8, 9, 10, 11].getD (c % 7) 0 else if (c - 21) % 2 = 0 then 7 else 8

/-- Is a record valid (R257, Table 13.4)? -/
def shapeValid (b : Nat) : Bool :=
  let z := shapeRec b
  match tyOf (BitVec.ofNat 5 z.src), tyOf (BitVec.ofNat 5 z.dst) with
  | some ts, some td =>
    let pi8 := z.dst = 0x17
    shapeReserved b && decide (z.half < 2) && decide (0 < z.cols) && decide (z.sch ≤ 5) &&
      decide (z.red ∈ [0, 2, 4, 8, 16, 32]) && decide (z.acwop ≤ 27) && convAdmitted td ts &&
      (if z.half = 0 then (ts.isA || ts.isP) && td.isA && z.red = 0 && z.acwop = 0
       else (ts.isF || ts.isI) && (td.isA || pi8 || z.dst = 0x1F) && !z.trn) &&
      (if z.scen then (if z.half = 0 then ts.isP else pi8) && z.scbase % 512 = 0 else z.scbase = 0) &&
      (!(ts.isP || td.isP) || (z.mpitch = 0 && !z.pack)) &&
      (if z.pack then decide (1 ≤ z.ratio ∧ z.ratio ≤ 32) && decide (0 < z.mpitch) && z.acwop = 0 else z.ratio = 0) &&
      (z.acwop = 0 || (z.red = 0 && z.dst = acwTypeCode (z.acwop - 1) && z.mpitch = 0))
  | _, _ => false

/-- The free entries of a stack's shape table. -/
def Stack.freeShapes (t : Stack) : List Nat := (upto 1024).filter fun i => (tget none t.shapes i).isNone

/-- A SHSEAL faults (Table 24.5): held like any entry, it leaves the buffer without its result when its fault is delivered
(`Ctx.dropSeal`). -/
def State.sealFault (s : State) (c : Nat) (e : QEntry) (code adr : Nat) : State :=
  s.queueFault c true e { cls := 7, code := code, adr := adr }

/-- A SHSEAL whose read has returned (R256): the record is validated and sealed in a free entry of the stack, which one
the manual leaves open, and its handle goes to the destination. -/
def State.sealShape (s : State) (c : Nat) (e : QEntry) : State :=
  let rec_ := ofBytes (e.got.flatMap (toBytes 32))
  let st := stackOf c
  if !shapeValid rec_ then s.sealFault c e 0x0301 (e.addrs.headD 0)
  else
    let l := (s.stack st).freeShapes.filter fun i => !s.testing fun u => u.struct = 10 && u.unit = st && u.loc = i
    let n := s.newFree
    match l[n.1 % l.length]? with
    | none => s.sealFault c e 0x0302 0
    | some i =>
      let k := (tget 0 (s.stack st).seals i + 1) % 2 ^ 16
      let s := n.2.updStack st fun t =>
        { t with seals := tset 0 t.seals i k, shapes := tset none t.shapes i (some ⟨(s.ctx c).part, k, BitVec.ofNat 768 rec_⟩) }
      let x := s.ctx c
      s.setCtx c { x.deliverLoad e.id (i + k * 2 ^ 10 + st * 2 ^ 26) with loadQ := x.loadQ.tail }

/-- The cause that an entry's access records, of those its units of memory meet (R363). -/
def State.unitsCause (s : State) (w : Who) (want : Want) (l : List (Nat × Nat × Nat)) (d : Nat × Nat) : Nat × Nat :=
  leastCause (l.filterMap fun u => s.probe w want u.2.1 u.2.2) d

/-- Reads the next units of the head load, at most `n` of them; it leaves the queue when all have been read (R151). -/
def State.readUnits (s : State) (c : Nat) : Nat → State
  | 0 => s
  | n + 1 =>
    match (s.ctx c).loadQ with
    | [] => s
    | e :: _ =>
      match (e.unitList true)[e.got.length]? with
      | none =>
        if isSeal e.op then s.sealShape c e
        else
        let x := s.ctx c
        s.setCtx c { x.deliverLoad e.id (e.value (x.oldFor e)) with loadQ := x.loadQ.tail }
      | some u =>
        match s.readEntry c e u with
        | (s, .err k a) =>
          let f := if e.tile = 0 then s.unitsCause (s.whoCtx c e.id e.level) .read (e.unitList true) (k, a) else (k, a)
          s.queueXlate c true e f.1 f.2
        | (s, .wait) => s
        | (s, .dead) => s.updCtx c fun x => x.holdFrom true e.id (x.freezeCycle (s.now c))
        | (s, .ok r) =>
          let s := s.updCtx c fun x =>
            { x with loadQ := mapIf (fun f => f.id = e.id) (fun f => { f with got := f.got ++ [ofBytes r.1] }) x.loadQ,
                     readFrom := x.readFrom ++ r.2.filter fun i => !x.readFrom.contains i }
          s.readUnits c n

/-- The grid of a LATLD or ACCST entry. -/
def QEntry.grid (e : QEntry) (m : MatEntry) : Grid := ⟨m.ag, m.tiles, match dTy e.base with | some t => t | none => .flt .f32⟩

/-- The elements a LATLD reads, in the order of R233: latch row and place there, and grid row and column. -/
def latldList (d k : Nat) : List ((Nat × Nat) × (Nat × Nat)) :=
  (upto (dNrow d + 1)).flatMap fun r => (upto (bits k 47 32)).map fun j =>
    ((r, j), if dTrn d then (k % 2 ^ 32 + j, r) else (r, k % 2 ^ 32 + j))

/-- Byte of a latch at which its element (r, k) of `u` bytes lies (R232). -/
def latchOff (u r k : Nat) : Nat := 512 * r + k * u

/-- Reads the next elements of a LATLD at the head of the load queue, at most `n`, into its latch (R233). -/
def State.latldStep (s : State) (c : Nat) (m : MatEntry) : Nat → State
  | 0 => s
  | n + 1 =>
    match (s.ctx c).loadQ with
    | [] => s
    | e :: _ =>
      match (latldList e.base e.index)[e.got.length]? with
      | none =>
        let x := s.ctx c
        s.setCtx c { x.deliverLoad e.id 0 with loadQ := x.loadQ.tail }
      | some u =>
        let g := e.grid m
        match s.gridRead (s.whoCtx c e.id e.level) g 8 g.ty.bytes [u.2] with
        | (s, .xlate k a) =>
          let f := s.gridCause (s.whoCtx c e.id e.level) g 8 ((latldList e.base e.index).map Prod.snd) (k, a)
          s.queueXlate c true e f.1 f.2
        | (s, .operand k a) => s.queueFault c true e { cls := 7, code := k, adr := a }
        | (s, .wait) => s
        | (s, .dead) => s.updCtx c fun x => x.holdFrom true e.id (x.freezeCycle (s.now c))
        | (s, .ok v) =>
          let b := toBytes g.ty.bytes (v.headD 0)
          let s := s.updCore (coreOf c) fun k =>
            let l := tget {} k.lats e.data
            let l' : LatchT := { l with bytes := tsets 0 l.bytes (latchOff g.ty.bytes u.1.1 u.1.2) b }
            { k with lats := tset {} k.lats e.data l' }
          let s := s.updCtx c fun x =>
            { x with loadQ := mapIf (fun f => f.id = e.id) (fun f => { f with got := f.got ++ [v.headD 0] }) x.loadQ }
          s.latldStep c m n

/-! Stores. -/

/-- Translates the units of a store entry one after another, all before any is performed (R336). -/
def State.storeUnits (s : State) (w : Who) (e : QEntry) : List (Nat × Nat × Nat) → State × Got (List WUnit)
  | [] => (s, .ok [])
  | u :: l =>
    let d := e.storeData u
    let one : State × Got WUnit :=
      if e.tile ≠ 0 then
        match s.tile e.tile with
        | some t =>
          if s.resident t then (s, .ok { place := .tile e.tile u.2.1, data := d.1, mask := d.2 })
          else (s, .err 14 (e.handleNo % 256 + 256 * (u.2.1 % 2 ^ 56)))
        | none => (s, .ok { place := .tile e.tile u.2.1, data := d.1, mask := d.2 })
      else
        match s.unitVa w u.2.1 u.2.2 d.1 with
        | (s, .ok x) => (s, .ok x)
        | (s, .err k a) => (s, .err k a)
        | (s, .wait) => (s, .wait)
        | (s, .dead) => (s, .dead)
    match one with
    | (s, .ok x) =>
      match s.storeUnits w e l with
      | (s, .ok r) => (s, .ok (x :: r))
      | (s, .err k a) => (s, .err k a)
      | (s, .wait) => (s, .wait)
      | (s, .dead) => (s, .dead)
    | (s, .err k a) => (s, .err k a)
    | (s, .wait) => (s, .wait)
    | (s, .dead) => (s, .dead)

/-- The places ACCST writes, with their bytes: each value in its row and column, then the postmark (R235). -/
def accstList (d : Nat) (m : MatEntry) : List ((Nat × Nat) × List Byte) :=
  ((upto (dNrow d + 1)).flatMap fun i => (upto (dNcol d + 1)).map fun j =>
    ((i, j), toBytes 4 (tget 0 m.vals (64 * i + j)).toNat)) ++ [((0, dNcol d + 1), toBytes 8 m.pm.toNat)]

/-- The units of an ACCST, translated and checked one after another (R236). -/
def State.accstUnits (s : State) (w : Who) (e : QEntry) (m : MatEntry) : List ((Nat × Nat) × List Byte) → State × Fetch (List WUnit)
  | [] => (s, .ok [])
  | (p, d) :: l =>
    let g := e.grid m
    let one : State × Fetch WUnit :=
      match s.gridAt w g p.1 p.2 with
      | .error x => (s, .operand x.1 x.2)
      | .ok i =>
        let pos : Int := agOrigin g.ag + i
        if agMode g.ag then
          let h := agHandle g.ag
          match s.handle { ({} : Ctx) with tiles := g.tiles } h with
          | none => (s, .operand 0x0101 h)
          | some t =>
            if pos < 0 ∨ (t.bytesN : Int) < pos + d.length then (s, .operand 0x0102 (offAdr h pos))
            else if !s.resident t then (s, .xlate 14 (offAdr h pos))
            else (s, .ok { place := .tile t.id pos.toNat, data := d })
        else
          match s.unitVa w (wrapN pos 64) d.length d with
          | (s, .ok x) => (s, .ok x)
          | (s, .err k a) => (s, .xlate k a)
          | (s, .wait) => (s, .wait)
          | (s, .dead) => (s, .dead)
    match one with
    | (s, .ok x) =>
      match s.accstUnits w e m l with
      | (s, .ok r) => (s, .ok (x :: r))
      | (s, .xlate k a) => (s, .xlate k a)
      | (s, .operand k a) => (s, .operand k a)
      | (s, .wait) => (s, .wait)
      | (s, .dead) => (s, .dead)
    | (s, .xlate k a) => (s, .xlate k a)
    | (s, .operand k a) => (s, .operand k a)
    | (s, .wait) => (s, .wait)
    | (s, .dead) => (s, .dead)

/-- The cause that an ACCST records, of those its units of memory meet (R363). -/
def State.accstCause (s : State) (w : Who) (e : QEntry) (m : MatEntry) (d : Nat × Nat) : Nat × Nat :=
  if agMode m.ag then d
  else leastCause ((accstList e.base m).filterMap fun u =>
    match s.gridAt w (e.grid m) u.1.1 u.1.2 with
    | .ok i => s.probe w .write (wrapN (agOrigin m.ag + i) 64) u.2.length
    | .error _ => none) d

/-- The units of a store entry (R148, R236). -/
def State.entryUnits (s : State) (w : Who) (e : QEntry) : State × Fetch (List WUnit) :=
  match e.mat with
  | some m =>
    match s.accstUnits w e m (accstList e.base m) with
    | (s, .xlate k a) => let f := s.accstCause w e m (k, a); (s, .xlate f.1 f.2)
    | r => r
  | none =>
    match s.storeUnits w e (e.unitList false) with
    | (s, .ok r) => (s, .ok r)
    | (s, .err k a) =>
      let f := if e.tile = 0 then s.unitsCause w .write (e.unitList false) (k, a) else (k, a)
      (s, .xlate f.1 f.2)
    | (s, .wait) => (s, .wait)
    | (s, .dead) => (s, .dead)

/-- Changes a store entry of a context. -/
def State.updStore (s : State) (c id : Nat) (f : QEntry → QEntry) : State :=
  s.updCtx c fun x => { x with storeQ := mapIf (fun e => e.id = id) f x.storeQ }

/-- A store to a tile that is there is known as it enters its queue, so that a set drawn from later reads it (R72, R150). -/
def State.knowTile (s : State) (c : Nat) (e : QEntry) : State :=
  match s.entryUnits (s.whoCtx c e.id e.level) e with
  | (_, .ok us) => if us.all (fun u => match u.place with | .tile _ _ => true | _ => false) then
      s.updStore c e.id fun f => { f with known := true, units := us } else s
  | _ => s

/-- A store enters its queue; an SC store may act at once. -/
def State.pushStore (s : State) (r : Run) (tile : Nat) (addrs : List Nat) : State :=
  let n := s.newSerial
  let w := n.2.newWait
  let e := r.entry s n.1 (if (scIndex r.i).isSome then 0 else w.1) 0 tile addrs
  let s := w.2.updCtx r.c fun x => { x with storeQ := x.storeQ ++ [e] }
  if tile = 0 then s else s.knowTile r.c e

/-- Translates a store entry that no reader has asked for yet: false when it cannot be, because it waits or meets a fault,
which is taken. -/
def State.know (s : State) (c : Nat) (e : QEntry) : State × Bool :=
  if e.known then (s, true)
  else
    match e.addrErr (accTy e.op).bytes with
    | some k => (s.queueXlate c false e k (e.addrs.headD 0), false)
    | none =>
      match s.entryUnits (s.whoCtx c e.id e.level) e with
      | (s, .ok us) => (s.updStore c e.id fun f => { f with known := true, units := us }, true)
      | (s, .xlate k a) => (s.queueXlate c false e k a, false)
      | (s, .operand k a) => (s.queueFault c false e { cls := 7, code := k, adr := a }, false)
      | (s, .wait) => (s, false)
      | (s, .dead) => (s.updCtx c fun x => x.holdFrom false e.id (x.freezeCycle (s.now c)), false)

/-- Translates the stores of a list in order, as far as it can. -/
def State.knowList (s : State) (c : Nat) : List QEntry → State × Bool
  | [] => (s, true)
  | e :: l =>
    if isMark e.op then s.knowList c l
    else
      match s.know c e with
      | (s, true) => s.knowList c l
      | (s, false) => (s, false)

/-- A read with a serial number takes the value of an earlier store of its context from the store queue (R150): every such
store is translated first, a token it waits for notwithstanding. -/
def State.knowAll (s : State) (c id : Nat) : State × Bool :=
  s.knowList c ((s.ctx c).storeQ.filter fun e => decide (e.id < id))

/-- One step of the head load of a context: how many units it reads is left open (R148). -/
def State.loadStep (s : State) (c : Nat) : State :=
  let x := s.ctx c
  match x.loadQ with
  | [] => s
  | e :: _ =>
    if isMark e.op || decide (s.now c < e.wait) || s.callReads c e.id || s.tokenWait c e || scBefore x.storeQ e.id ||
        !s.scNow c e then s
    else
      match s.tokenFail c e with
      | some f => s.queueFault c true e f
      | none =>
        match e.addrErr (accTy e.op).bytes with
        | some k => s.queueXlate c true e k (e.addrs.headD 0)
        | none =>
          match s.knowAll c e.id with
          | (s, false) => s
          | (s, true) =>
            let s1 := { s with fresh := s.fresh + 1 }
            match e.mat with
            | some m =>
              let n := (latldList e.base e.index).length - e.got.length
              s1.latldStep c m (Config.delay s.fresh % (n + 1) + 1)
            | none =>
              let n := (e.unitList true).length - e.got.length
              let k := if (scIndex e.op).isSome then n else max e.pace (Config.delay s.fresh % (n + 1))
              s1.readUnits c (k + 1)

/-- Does an earlier store to a common byte still stand at the node a store is about to leave (R150)? -/
def State.nodeOrder (s : State) (c : Nat) (e : QEntry) : Bool :=
  s.ctxs.any fun cx =>
    !(cx.1 = c) && (match e.reach with
      | 1 => coreOf cx.1 = coreOf c
      | 2 => colOf cx.1 = colOf c
      | _ => stackOf cx.1 = stackOf c) &&
    cx.2.storeQ.any fun f => f.reach = e.reach && decide (f.arr < e.arr) && overlap f.units e.units

/-- Places that units of memory, address and length, translate to now; none where a translation waits for the host. -/
def State.placesVa (s : State) (w : Who) : List (Nat × Nat) → Option (List (Place × Nat))
  | [] => some []
  | (a, n) :: l =>
    match (s.access w.tlb w.part w.tenant w.level .read (s.mayRemote w) a n).2 with
    | .wait _ => none
    | .err _ => s.placesVa w l
    | .ok ph => (s.placesVa w l).map ((match ph.remote with | some k => .remote k ph.pa | none => .mem ph.pa ph.pin, n) :: ·)

/-- The places that a load entry of context `c` has still to read; none where a translation waits for the host. -/
def State.toRead (s : State) (c : Nat) (e : QEntry) : Option (List (Place × Nat)) :=
  let w := s.whoCtx c e.id e.level
  match e.mat with
  | some m =>
    let g := e.grid m
    match s.gridAll w g (((latldList e.base e.index).drop e.got.length).map Prod.snd) with
    | .error _ => some []
    | .ok is =>
      let us := is.flatMap (g.unitsOf 8)
      if agMode g.ag then
        some (us.map fun u => (.tile (tget 0 g.tiles (agHandle g.ag)) u.1.toNat, u.2))
      else s.placesVa w (us.map fun u => (wrapN u.1 64, u.2))
  | none =>
    let us := (e.unitList true).drop e.got.length
    if e.tile = 0 then s.placesVa w (us.map fun u => (u.2.1, u.2.2)) else some (us.map fun u => (.tile e.tile u.2.1, u.2.2))

/-- May a call still read bytes that a unit of a store changes: of a tile that its sets name, or of memory where one of its
operands lies there? Which rows its routine asks for next is not known before. -/
def Call.mayRead (k : Call) (u : WUnit) : Bool :=
  let sets := [k.agA, k.agB] ++ (if dScen k.da.toNat then [k.sgA] else []) ++ (if dScen k.db.toNat then [k.sgB] else [])
  let mem := match u.place with | .tile _ _ => false | _ => true
  let names := fun (h : Nat) => match u.place with | .tile t _ => tget 0 k.tiles h = t | _ => false
  sets.any fun a => (if agMode a then names (agHandle a) else mem) || (agIEN a && names (agIH a))

/-- Does a store of a context wait for a load or a call that precedes it and has still to read a byte it changes? No load reads
a store issued after it (R150, R243); held entries and a pipe that stands at a fault keep nothing waiting (R336, R339). -/
def State.readFirst (s : State) (c : Nat) (e : QEntry) : Bool :=
  ((s.ctx c).loadQ.any fun l => decide (l.id < e.id) && !isMark l.op && match s.toRead c l with
    | none => true
    | some ps => ps.any fun p => e.units.any fun u =>
        (u.place.within p.1 p.2).isSome || (p.1.within u.place u.data.length).isSome) ||
    s.calls.any fun k => k.ctx = c && decide (k.id < e.id) && k.reading && e.units.any k.mayRead

/-- Performs units of a store at their homes, at most `n` of them; it leaves the queue when none is left (R149). One whose page has
been retired since it was translated is translated again, and faults (R381). -/
def State.performUnits (s : State) (c : Nat) (e : QEntry) : Nat → List WUnit → State
  | _, [] => s.updCtx c fun x => { x with storeQ := x.storeQ.filter fun f => !(f.id = e.id) }
  | 0, l => s.updStore c e.id fun f => { f with units := l }
  | n + 1, u :: l =>
    let nt := match e.op with | .stnt _ => true | _ => false
    match s.perform (s.whoCtx c e.id e.level) nt u with
    | (s, true) => s.performUnits c e n l
    | (s, false) =>
      if !s.retiredUnit u then s.updStore c e.id fun f => { f with units := u :: l }
      else if (s.ctx c).ending then s.updCtx c fun x => x.holdFrom false e.id (x.freezeCycle (s.now c))
      else s.updStore c e.id fun f => { f with known := false, units := [], reach := 0 }

/-- Moves a store entry on to its next point of performance (R149), not before the reads that precede it at its bytes (R150). -/
def State.storeMove (s : State) (c : Nat) (e : QEntry) : State :=
  if e.reach = 0 then
    match s.tokenFail c e with
    | some f => s.queueFault c false e f
    | none =>
      match s.know c e with
      | (s, true) =>
        if (match findFirst (fun f => f.id = e.id) (s.ctx c).storeQ with | some f => s.readFirst c f | none => true) then s
        else
          let n := s.newSerial
          let w := n.2.newWait
          w.2.updStore c e.id fun f => { f with reach := 1, arr := n.1, wait := w.1 }
      | (s, false) => s
  else if e.reach < 3 then
    let n := s.newSerial
    let w := n.2.newWait
    w.2.updStore c e.id fun f => { f with reach := e.reach + 1, arr := n.1, wait := w.1 }
  else
    let k := Config.delay s.fresh % (e.units.length + 1)
    { s with fresh := s.fresh + 1 }.performUnits c e (k + 1) e.units

/-- The first store of a queue that may move: none before it is nearer, no marker stands before it, it keeps the order of its
node (R150 to R152), and an SC store's position is current (R154). `far` is the least reach of those before it. -/
def State.movable (s : State) (c : Nat) (loads : List QEntry) : Nat → List QEntry → Option QEntry
  | _, [] => none
  | far, e :: l =>
    if isMark e.op then none
    else if e.reach < far && decide (e.wait ≤ s.cycle) && !(e.reach = 0 && s.tokenWait c e) && s.scNow c e &&
        !scBefore loads e.id && (e.reach = 0 || !s.nodeOrder c e) then some e
    else s.movable c loads (min far e.reach) l

/-- One step of the store queue of a context. -/
def State.storeStep (s : State) (c : Nat) : State :=
  let x := s.ctx c
  match s.movable c x.loadQ 4 x.storeQ with
  | some e => s.storeMove c e
  | none => s

/-- An SC store is performed at `pkg` in the cycle of its position (R154). -/
def State.scPerform (s : State) (c id : Nat) : Nat → State
  | 0 => s
  | n + 1 =>
    match findFirst (fun e => e.id = id) (s.ctx c).storeQ with
    | some e => (s.storeMove c e).scPerform c id n
    | none => s

/-- One step of both queues of a context, the older head first (R334). -/
def State.queueStep (s : State) (c : Nat) : State :=
  let x := s.ctx c
  match x.loadQ, x.storeQ with
  | a :: _, b :: _ => if a.id ≤ b.id then (s.loadStep c).storeStep c else (s.storeStep c).loadStep c
  | _, _ => (s.loadStep c).storeStep c

/-! Markers (R152, R249). -/

/-- SCOPE of a marker. -/
def markScope (i : Instr) : Nat := match i with | .mark w => w.base.toNat | _ => 0
/-- The produced token of a marker. -/
def markOut (i : Instr) : Option Nat := match i with | .mark w => tokNum (w.data.setWidth 7) | _ => none

/-- Is a store on its way performed at a scope (Table 8.1)? `core` 1, `quad` 2, `stack` 3; wider scopes need its home. -/
def QEntry.performedAt (e : QEntry) (scope : Nat) : Bool := decide (scope < 3) && decide (scope + 1 ≤ e.reach)

/-- Is the marker at the head of a context's load queue complete (R152)? -/
def State.markReady (s : State) (c : Nat) : Option QEntry :=
  let x := s.ctx c
  match x.loadQ with
  | m :: _ =>
    let sc := markScope m.op
    let before := x.storeQ.takeWhile fun e => !(e.id = m.id)
    let read := x.readFrom.all fun i => s.ctxs.all fun cx => cx.2.storeQ.all fun e => !(e.id = i) || e.performedAt sc
    if isMark m.op && before.all (fun e => e.performedAt sc) && read && !s.tokenWait c m && !s.callReads c m.id then some m else none
  | [] => none

/-- MARKER_COMPLETE (R152): the marker leaves both queues and its token completes; a failed token it names is a fault of
the entry (R342). -/
def execMarkerComplete (c : Nat) (s : State) : Out :=
  match s.markReady c with
  | none => .next s
  | some m =>
    match s.tokenFail c m with
    | some f => .next (s.queueFault c false m f)
    | none =>
      .next (s.updCtx c fun x =>
        { x.complete (markOut m.op) m.id none with
            loadQ := x.loadQ.filter (fun e => !(e.id = m.id)), storeQ := x.storeQ.filter fun e => !(e.id = m.id),
            readFrom := x.readFrom.filter fun i => s.ctxs.any fun cx => cx.2.storeQ.any fun e => e.id = i })

/-! Landings (R54, R185, R336). -/

/-- RESULT_LANDING (R54): every result of context `c` due by now lands, or is captured while a fault or an urgent stop
holds the context (R336). -/
def execResultLanding (c : Nat) (s : State) : Out :=
  let x := s.ctx c
  let now := s.now c
  .next (s.setCtx c (match x.frz.fault, x.frz.urgent with
    | some (_, f, _), _ => x.captureDue now f
    | none, some f => x.captureUrgent now f
    | none, none => x.landDue now))

/-- Has a load or a LATLD of the context passed its landing cycle without its value (R185, R233)? -/
def Ctx.hasLate (x : Ctx) (now : Nat) : Bool :=
  x.inflight.any fun l => !(l.cls = .a) && l.src ≠ 0 && decide (l.due ≤ now) && l.val.isNone

/-- LATE_LOAD_FREEZE (R185): also of a context that a breach has frozen (R118). -/
def execLateLoadFreeze (c : Nat) (s : State) : Out :=
  let x := s.ctx c
  if (x.st = .ready || x.st = .blocked || x.st = .frozen && x.frz.breach) && !x.frz.late && x.hasLate (s.now c) then
    .next (s.setCtx c { x with st := .frozen, frz := { x.frz with late := true } })
  else .next s

/-- Is nothing left that keeps a context FROZEN? -/
def Freeze.clear (f : Freeze) : Bool := !f.late && !f.breach && f.fault.isNone && f.urgent.isNone && !f.tdi

/-- A context returns from FROZEN when no cause is left: to READY, the next look finding what blocks it (R53, R117). -/
def Ctx.thaw (x : Ctx) : Ctx :=
  if x.st = .frozen && x.frz.clear && x.dying.isNone then { x with st := .ready } else x

/-- LATE_LOAD_ARRIVAL (R185): the late value lands and the context returns. During a breach it stays FROZEN (R118). -/
def execLateLoadArrival (c : Nat) (s : State) : Out :=
  let x := s.ctx c
  if x.frz.late && !x.hasLate (s.now c) then
    let x := if x.frz.fault.isNone && x.frz.urgent.isNone then x.landDue (s.now c) else x
    .next (s.setCtx c { x with frz := { x.frz with late := false } }.thaw)
  else .next s

/-! Prefetch hints (R248, R366). -/

/-- A hint asks for the line of an address. -/
def State.hint (s : State) (r : Run) (va : Nat) : State :=
  let w := s.newWait
  let n := w.2.newSerial
  let h : Hint := { id := n.1, ctx := r.c, part := r.x.part, tenant := r.x.tenant, level := r.x.level, owner := r.x.owner, va := va, wait := w.1 }
  { n.2 with hints := n.2.hints ++ [h] }

/-- One line of a hint at its slice: held, it moves to most recent within the mask; absent, it is filled and charged 128,
or waits for the charge. Whether the hint is done. -/
def State.hintLine (s : State) (h : Hint) : State × Bool :=
  let r : Reader := .ctx h.ctx none
  let s := (s.strikeTlb (tlbOf h.ctx) h.part h.tenant h.va r).strikeWalk (tlbOf h.ctx) h.part h.tenant h.va r
  match s.access (tlbOf h.ctx) h.part h.tenant h.level .read false h.va 128 with
  | (s, .wait _) => (s, false)
  | (_, .err 13) => (s.count h.part 0, true)
  | (s, .err _) => (s.count h.part 0, true)
  | (s, .ok ph) =>
    let p := s.portFor h.owner h.part h.tenant h.va ph
    let p := { p with pin := ph.pin }
    let line := ph.pa / 128
    match s.home p line with
    | none => (s, true)
    | some sl =>
      let k := setKey sl line
      let x := s.l2set k
      match s.findWay p.part x line with
      | some w => (if (s.maskOf p.owner sl).testBit w then s.setL2 k (x.touch w) else s, true)
      | none =>
        if !p.cache || (s.victim p.part k x (s.maskOf p.owner sl)).isNone then (s, true)
        else
        let s := s.strikeMem r p ph.pa 128 false
        if !paHost ph.pa && s.pkg.tBits.contains (pageOf ph.pa) then (s.count h.part 0, true)
        else match s.charge h.ctx sl 128 h.id with
          | (s, true) => ((s.fill p sl line).1, true)
          | (s, false) => (s, false)

/-- One step of the waiting hints. -/
def State.hintStep (s : State) : State :=
  s.hints.foldl (fun t h =>
    if s.cycle < h.wait then { t with hints := t.hints ++ [h] }
    else
      match t.hintLine h with
      | (t, true) => t
      | (t, false) => { t with hints := t.hints ++ [h] }) { s with hints := [] }

end Sys2Proof.Machine
end

