-- ==== Sys2Proof/Machine/Scalar.lean ====
section
/-! DEFINITION. Scalar arithmetic of slots A and B (R194, R195, Table 10.3). -/

namespace Sys2Proof.Machine

open Sys2Proof

/-- The signedness and width of a scalar operation's type; codes 0x01 to 0x08 alone pass check 8. -/
def scalarTy (w : ABW) : Bool × Nat :=
  match tyOf w.type with
  | some (.int sg n) => (sg, n)
  | _ => (false, 64)

/-- Operand a (R194). -/
def Run.sA (r : Run) (w : ABW) : Int := extI (scalarTy w).1 (scalarTy w).2 (r.src 0)

/-- Operand b (R194): the immediate when IMMF is 1, else the second source. -/
def Run.sB (r : Run) (w : ABW) : Int :=
  extI (scalarTy w).1 (scalarTy w).2 (if w.immf then wrapN (sext w.imm15.toNat 15) 64 else r.src 1)

/-- DST: the low w bits of an exact result, extended to 64 bits by the type (R194). -/
def scalarResult (sg : Bool) (n : Nat) (x : Int) : Nat := wrapN (extI sg n (wrapN x n)) 64

/-- The effect of a scalar operation whose result on unbounded integers is `g signed width a b`. -/
def State.scalarOp (s : State) (r : Run) (w : ABW) (g : Bool → Nat → Int → Int → Int) : State :=
  s.result r.c r.f .s (scalarResult (scalarTy w).1 (scalarTy w).2 (g (scalarTy w).1 (scalarTy w).2 (r.sA w) (r.sB w)))

/-- DIV: truncated toward zero, 0 for a zero divisor. -/
def divR (a b : Int) : Int := if b = 0 then 0 else Int.tdiv a b
/-- REM: the sign follows a; a for a zero divisor. -/
def remR (a b : Int) : Int := if b = 0 then a else a - b * Int.tdiv a b
/-- SHL: by b mod 128. -/
def shlR (n : Nat) (a b : Int) : Int := let k := (b % 128).toNat; if k < n then a * ((2 ^ k : Nat) : Int) else 0
/-- SHR: by b mod 128, floor; the sign remains of a signed type shifted out. -/
def shrR (sg : Bool) (n : Nat) (a b : Int) : Int :=
  let k := (b % 128).toNat
  if k < n then a / ((2 ^ k : Nat) : Int) else if sg && decide (a < 0) then -1 else 0
/-- A bitwise operation on the w-bit patterns. -/
def bitR (f : Nat → Nat → Nat) (n : Nat) (a b : Int) : Int := (f (wrapN a n) (wrapN b n) : Nat)

/-- EXT: bits [p + w − 1 : p] of the 64-bit first source, with p = b mod 64. -/
def extR (v n : Nat) (b : Int) : Int := ((v / 2 ^ (b % 64).toNat % 2 ^ n : Nat) : Int)

/-- The condition code and the 7-bit immediate of CMP (R195). -/
def cmpCond (w : ABW) : Nat := w.imm15.toNat / 128
/-- Operand b of CMP. -/
def Run.cmpB (r : Run) (w : ABW) : Int :=
  extI (scalarTy w).1 (scalarTy w).2 (if w.immf then wrapN (sext (w.imm15.toNat % 128) 7) 64 else r.src 1)

/-- MOV (Table 10.3). -/
def execMov (w : ABW) (s : State) : Out := s.runOp (.mov w) fun s r => s.scalarOp r w (fun _ _ _ b => b)

/-- ADD (Table 10.3). -/
def execAdd (w : ABW) (s : State) : Out := s.runOp (.add w) fun s r => s.scalarOp r w (fun _ _ a b => a + b)

/-- SUB (Table 10.3). -/
def execSub (w : ABW) (s : State) : Out := s.runOp (.sub w) fun s r => s.scalarOp r w (fun _ _ a b => a - b)

/-- MUL (Table 10.3). -/
def execMul (w : ABW) (s : State) : Out := s.runOp (.mul w) fun s r => s.scalarOp r w (fun _ _ a b => a * b)

/-- MULH (Table 10.3). -/
def execMulh (w : ABW) (s : State) : Out := s.runOp (.mulh w) fun s r => s.scalarOp r w (fun _ n a b => a * b / ((2 ^ n : Nat) : Int))

/-- DIV (Table 10.3). -/
def execDiv (w : ABW) (s : State) : Out := s.runOp (.div w) fun s r => s.scalarOp r w (fun _ _ a b => divR a b)

/-- REM (Table 10.3). -/
def execRem (w : ABW) (s : State) : Out := s.runOp (.rem w) fun s r => s.scalarOp r w (fun _ _ a b => remR a b)

/-- AND (Table 10.3). -/
def execAnd (w : ABW) (s : State) : Out := s.runOp (.and w) fun s r => s.scalarOp r w (fun _ n a b => bitR (· &&& ·) n a b)

/-- OR (Table 10.3). -/
def execOr (w : ABW) (s : State) : Out := s.runOp (.or w) fun s r => s.scalarOp r w (fun _ n a b => bitR (· ||| ·) n a b)

/-- XOR (Table 10.3). -/
def execXor (w : ABW) (s : State) : Out := s.runOp (.xor w) fun s r => s.scalarOp r w (fun _ n a b => bitR (· ^^^ ·) n a b)

/-- SHL (Table 10.3). -/
def execShl (w : ABW) (s : State) : Out := s.runOp (.shl w) fun s r => s.scalarOp r w (fun _ n a b => shlR n a b)

/-- SHR (Table 10.3). -/
def execShr (w : ABW) (s : State) : Out := s.runOp (.shr w) fun s r => s.scalarOp r w (fun sg n a b => shrR sg n a b)

/-- MIN (Table 10.3). -/
def execMin (w : ABW) (s : State) : Out := s.runOp (.min w) fun s r => s.scalarOp r w (fun _ _ a b => if b < a then b else a)

/-- MAX (Table 10.3). -/
def execMax (w : ABW) (s : State) : Out := s.runOp (.max w) fun s r => s.scalarOp r w (fun _ _ a b => if a < b then b else a)

/-- ADDS (Table 10.3). -/
def execAdds (w : ABW) (s : State) : Out := s.runOp (.adds w) fun s r => s.scalarOp r w (fun sg n a b => clampI (loI sg n) (hiI sg n) (a + b))

/-- SUBS (Table 10.3). -/
def execSubs (w : ABW) (s : State) : Out := s.runOp (.subs w) fun s r => s.scalarOp r w (fun sg n a b => clampI (loI sg n) (hiI sg n) (a - b))

/-- CLZ (Table 10.3). -/
def execClz (w : ABW) (s : State) : Out := s.runOp (.clz w) fun s r => s.scalarOp r w (fun _ n _ b => (clz (wrapN b n) n : Nat))

/-- POPC (Table 10.3). -/
def execPopc (w : ABW) (s : State) : Out := s.runOp (.popc w) fun s r => s.scalarOp r w (fun _ n _ b => (popcount (wrapN b n) n : Nat))

/-- EXT (Table 10.3): a is not formed from the type. -/
def execExt (w : ABW) (s : State) : Out :=
  s.runOp (.ext w) fun s r => s.scalarOp r w (fun _ n _ b => extR (r.src 0) n b)

/-- CMP (R195): every bit of the destination predicate is the condition between a and b. -/
def execCmp (w : ABW) (s : State) : Out :=
  s.runOp (.cmp w) fun s r => s.result r.c r.f .p (predAll (condInt (cmpCond w) (r.sA w) (r.cmpB w))).toNat

/-- SEL (R195): PRED and SENSE select a or b, and guard nothing. -/
def execSel (w : ABW) (s : State) : Out :=
  s.runOp (.sel w) fun s r => s.scalarOp r w (fun _ _ a b => if r.x.guard w.pred w.sense then a else b)

end Sys2Proof.Machine
end

