-- ==== Sys2Proof/Machine/Vector.lean ====
section
/-! DEFINITION. Slot V: vector and predicate arithmetic (R206 to R218, R100 to R102). -/

namespace Sys2Proof.Machine

open Sys2Proof

/-- The type of the operation; a code check 8 refuses is never read. -/
def vTy (w : VW) : Ty := tyOr w.type

/-- The value of a vector source. -/
def Run.vsrc (r : Run) (i : Nat) : VReg := BitVec.ofNat 8192 (r.src i)

/-- The effect of an element-wise form: each active element takes what `f` gives it, and the others keep theirs (R206). -/
def State.vecOp (s : State) (r : Run) (t : Ty) (f : Nat → Nat) : State :=
  s.result r.c r.f .v (mergeV r.g r.f.sense t.width (tget 0 r.x.v r.dst) f).toNat

/-- An element computed from elements of a floating or an integer type (R210): the floating result is rounded once, the
integer one taken modulo 2^w. -/
def vElem1 (t : Ty) (ff : Fmt → Ext → Nat) (fi : Bool → Nat → Int → Int) (a : Nat) : Nat :=
  match t with
  | .flt f => ff f (decodeF f a)
  | .int sg n => wrapN (fi sg n (extI sg n a)) n
  | .plane _ _ => 0

/-- An element computed from two elements (R210). -/
def vElem2 (t : Ty) (ff : Fmt → Ext → Ext → Nat) (fi : Bool → Nat → Int → Int → Int) (a b : Nat) : Nat :=
  match t with
  | .flt f => ff f (decodeF f a) (decodeF f b)
  | .int sg n => wrapN (fi sg n (extI sg n a) (extI sg n b)) n
  | .plane _ _ => 0

/-- An element computed from three elements (R210). -/
def vElem3 (t : Ty) (ff : Fmt → Ext → Ext → Ext → Nat) (fi : Int → Int → Int → Int) (a b c : Nat) : Nat :=
  match t with
  | .flt f => ff f (decodeF f a) (decodeF f b) (decodeF f c)
  | .int sg n => wrapN (fi (extI sg n a) (extI sg n b) (extI sg n c)) n
  | .plane _ _ => 0

/-- A form of one source. -/
def State.vec1 (s : State) (r : Run) (w : VW) (f : Ty → Nat → Nat) : State :=
  let t := vTy w
  s.vecOp r t fun i => f t (elem t.width (r.vsrc 0) i)

/-- A form of two sources. -/
def State.vec2 (s : State) (r : Run) (w : VW) (f : Ty → Nat → Nat → Nat) : State :=
  let t := vTy w
  s.vecOp r t fun i => f t (elem t.width (r.vsrc 0) i) (elem t.width (r.vsrc 1) i)

/-- A form of three sources. -/
def State.vec3 (s : State) (r : Run) (w : VW) (f : Ty → Nat → Nat → Nat → Nat) : State :=
  let t := vTy w
  s.vecOp r t fun i => f t (elem t.width (r.vsrc 0) i) (elem t.width (r.vsrc 1) i) (elem t.width (r.vsrc 2) i)

/-- A floating form of one source, an integer form being none. -/
def fOnly (ff : Fmt → Ext → Nat) (t : Ty) (a : Nat) : Nat := vElem1 t ff (fun _ _ x => x) a

/-- An integer form of two sources on unbounded integers. -/
def iOnly (fi : Bool → Nat → Int → Int → Int) (t : Ty) (a b : Nat) : Nat := vElem2 t (fun _ _ _ => 0) fi a b

/-- Maximum or minimum of two elements (R101, R210). -/
def maxMinElem (isMax : Bool) (t : Ty) (a b : Nat) : Nat :=
  match t with
  | .flt f => maxMinF f isMax a b
  | .int sg n => if decide (extI sg n a < extI sg n b) == isMax then b else a
  | .plane _ _ => 0

/-- VSZADD of one element (R212): the logit plus the rounded base-2 logarithm of a size. -/
def szAdd (f : Fmt) (a size : Nat) : Nat :=
  let l := if size = 0 then .inf true else decodeF f (log2Rne f (Ext.ofDyadic size 0))
  rne f (exactSum [decodeF f a, l])

/-- The elements a reduction takes: the active ones, the identity in place of the others (R102, R217). -/
def Run.redSrc (r : Run) (ts : Ty) (ident : Nat) : List Nat :=
  (elems ts.width (r.vsrc 0)).zipIdx.map fun e => if elemActive r.g r.f.sense ts.width e.2 then e.1 else ident

/-- An integer reduction (R217). -/
def redInt (l : List Int) (kind : Nat) (start : Int) : Int :=
  l.foldl (fun a x => match kind with
    | 0 => a + x
    | 1 => if a < x then x else a
    | _ => if x < a then x else a) start

/-- The value a reduction gives: kind 0 the sum, 1 the maximum, 2 the minimum (R102, R217). -/
def Run.reduce (r : Run) (td ts : Ty) (kind : Nat) : Nat :=
  match ts with
  | .flt f =>
    let ident := match kind with | 0 => f.zero true | 1 => f.inf true | _ => f.inf false
    let l := (r.redSrc ts ident).map fun x => rne .f32 (decodeF f x)
    match kind with
    | 0 => treeSum l
    | 1 => (treeReduce (maxMinF .f32 true) 10 l).headD 0
    | _ => (treeReduce (maxMinF .f32 false) 10 l).headD 0
  | .int sg n =>
    let ident : Int := match kind with | 0 => 0 | 1 => loI sg n | _ => hiI sg n
    let l := (r.redSrc ts (wrapN ident n)).map (extI sg n)
    wrapN (redInt l kind ident) td.width
  | .plane _ _ => 0

/-- The effect of a reduction: its value in every element of the destination, whatever the guard (R217). -/
def State.reduceOp (s : State) (r : Run) (w : VW) (kind : Nat) : State :=
  let td := vTy w
  let x := r.reduce td (tyOr w.type2) kind
  s.result r.c r.f .v (buildV td.width fun _ => x).toNat

/-- VCVT (R216): `conv` of the elements of part `h`, by the narrower of the two types. `act` says which elements of the
destination are active. -/
def cvtPart (td ts : Ty) (h : Nat) (a old : VReg) (act : Nat → Bool) : VReg :=
  let ns := 8192 / ts.width
  let nd := 8192 / td.width
  if td.width ≤ ts.width then
    buildV td.width fun j =>
      if h * ns ≤ j ∧ j < h * ns + ns ∧ act j then conv td ts (elem ts.width a (j - h * ns)) else elem td.width old j
  else buildV td.width fun j => if act j then conv td ts (elem ts.width a (h * nd + j)) else elem td.width old j

/-- The effect of a predicate form on all 512 bits (R215). -/
def State.predForm (s : State) (r : Run) (f : Bool → Bool → Bool) : State :=
  s.result r.c r.f .p (predOp r.g r.f.sense f (BitVec.ofNat 512 (r.src 0)) (BitVec.ofNat 512 (r.src 1))
    (r.x.pred r.dst)).toNat

/-- VMOV (R218). -/
def execVmov (w : VW) (s : State) : Out :=
  s.runOp (.vmov w) fun s r =>
    s.vec1 r w fun _ a => a

/-- VBCAST (R218). -/
def execVbcast (w : VW) (s : State) : Out :=
  s.runOp (.vbcast w) fun s r =>
    s.vecOp r (vTy w) fun _ => r.src 0

/-- VADD (R210). -/
def execVadd (w : VW) (s : State) : Out :=
  s.runOp (.vadd w) fun s r =>
    s.vec2 r w fun t => vElem2 t (fun f a b => rne f (exactSum [a, b])) (fun _ _ a b => a + b)

/-- VSUB (R210). -/
def execVsub (w : VW) (s : State) : Out :=
  s.runOp (.vsub w) fun s r =>
    s.vec2 r w fun t => vElem2 t (fun f a b => rne f (exactSum [a, b.neg])) (fun _ _ a b => a - b)

/-- VMUL (R210). -/
def execVmul (w : VW) (s : State) : Out :=
  s.runOp (.vmul w) fun s r =>
    s.vec2 r w fun t => vElem2 t (fun f a b => rne f (a.mul b)) (fun _ _ a b => a * b)

/-- VFMA (R210): rounded once. -/
def execVfma (w : VW) (s : State) : Out :=
  s.runOp (.vfma w) fun s r =>
    s.vec3 r w fun t => vElem3 t (fun f a b c => rne f (exactSum [a.mul b, c])) (fun a b c => a * b + c)

/-- VFMS (R210): rounded once. -/
def execVfms (w : VW) (s : State) : Out :=
  s.runOp (.vfms w) fun s r =>
    s.vec3 r w fun t => vElem3 t (fun f a b c => rne f (exactSum [a.mul b, c.neg])) (fun a b c => a * b - c)

/-- VDIV (R210). -/
def execVdiv (w : VW) (s : State) : Out :=
  s.runOp (.vdiv w) fun s r =>
    s.vec2 r w fun t => vElem2 t divRne (fun _ _ a _ => a)

/-- VMIN (R210). -/
def execVmin (w : VW) (s : State) : Out :=
  s.runOp (.vmin w) fun s r =>
    s.vec2 r w (maxMinElem false)

/-- VMAX (R210). -/
def execVmax (w : VW) (s : State) : Out :=
  s.runOp (.vmax w) fun s r =>
    s.vec2 r w (maxMinElem true)

/-- VABS (R210). -/
def execVabs (w : VW) (s : State) : Out :=
  s.runOp (.vabs w) fun s r =>
    s.vec1 r w fun t => vElem1 t (fun f a => rne f a.abs) (fun _ _ a => if a < 0 then -a else a)

/-- VNEG (R210). -/
def execVneg (w : VW) (s : State) : Out :=
  s.runOp (.vneg w) fun s r =>
    s.vec1 r w fun t => vElem1 t (fun f a => rne f a.neg) (fun _ _ a => -a)

/-- VSQRT (R211). -/
def execVsqrt (w : VW) (s : State) : Out :=
  s.runOp (.vsqrt w) fun s r =>
    s.vec1 r w (fOnly sqrtRne)

/-- VRCP (R211). -/
def execVrcp (w : VW) (s : State) : Out :=
  s.runOp (.vrcp w) fun s r =>
    s.vec1 r w (fOnly rcpRne)

/-- VRSQRT (R211). -/
def execVrsqrt (w : VW) (s : State) : Out :=
  s.runOp (.vrsqrt w) fun s r =>
    s.vec1 r w (fOnly rsqrtRne)

/-- VEXP2 (R211). -/
def execVexp2 (w : VW) (s : State) : Out :=
  s.runOp (.vexp2 w) fun s r =>
    s.vec1 r w (fOnly exp2Rne)

/-- VLOG2 (R211). -/
def execVlog2 (w : VW) (s : State) : Out :=
  s.runOp (.vlog2 w) fun s r =>
    s.vec1 r w (fOnly log2Rne)

/-- VSZADD (R212). -/
def execVszadd (w : VW) (s : State) : Out :=
  s.runOp (.vszadd w) fun s r =>
    let u := tyOr w.type2
    s.vecOp r (vTy w) fun i =>
      match vTy w with
      | .flt f => szAdd f (elem f.width (r.vsrc 0) i) (elem u.width (r.vsrc 1) i)
      | _ => 0

/-- VCMP (R213). -/
def execVcmp (w : VW) (s : State) : Out :=
  s.runOp (.vcmp w) fun s r =>
    s.result r.c r.f .p (predCmp (vTy w) r.g r.f.sense w.src3.toNat (r.vsrc 0) (r.vsrc 1) (r.x.pred r.dst)).toNat

/-- VSEL (R214). -/
def execVsel (w : VW) (s : State) : Out :=
  s.runOp (.vsel w) fun s r =>
    let t := vTy w
    s.vecOp r t fun i =>
      if bit (r.src 2) (govBit t.width i) then elem t.width (r.vsrc 0) i else elem t.width (r.vsrc 1) i

/-- VAND (R210). -/
def execVand (w : VW) (s : State) : Out :=
  s.runOp (.vand w) fun s r =>
    s.vec2 r w fun _ a b => a &&& b

/-- VOR (R210). -/
def execVor (w : VW) (s : State) : Out :=
  s.runOp (.vor w) fun s r =>
    s.vec2 r w fun _ a b => a ||| b

/-- VXOR (R210). -/
def execVxor (w : VW) (s : State) : Out :=
  s.runOp (.vxor w) fun s r =>
    s.vec2 r w fun _ a b => a ^^^ b

/-- VNOT (R210). -/
def execVnot (w : VW) (s : State) : Out :=
  s.runOp (.vnot w) fun s r =>
    s.vec1 r w fun t a => 2 ^ t.width - 1 - a

/-- VSHL (R210): b is read as a natural w-bit value. -/
def execVshl (w : VW) (s : State) : Out :=
  s.runOp (.vshl w) fun s r =>
    s.vec2 r w fun t a b => iOnly (fun _ n x _ => shlR n x (b : Int)) t a b

/-- VSHR (R210): b is read as a natural w-bit value. -/
def execVshr (w : VW) (s : State) : Out :=
  s.runOp (.vshr w) fun s r =>
    s.vec2 r w fun t a b => iOnly (fun sg n x _ => shrR sg n x (b : Int)) t a b

/-- VADDS (R210). -/
def execVadds (w : VW) (s : State) : Out :=
  s.runOp (.vadds w) fun s r =>
    s.vec2 r w (iOnly fun sg n a b => clampI (loI sg n) (hiI sg n) (a + b))

/-- VSUBS (R210). -/
def execVsubs (w : VW) (s : State) : Out :=
  s.runOp (.vsubs w) fun s r =>
    s.vec2 r w (iOnly fun sg n a b => clampI (loI sg n) (hiI sg n) (a - b))

/-- VMULH (R210). -/
def execVmulh (w : VW) (s : State) : Out :=
  s.runOp (.vmulh w) fun s r =>
    s.vec2 r w (iOnly fun _ n a b => a * b / ((2 ^ n : Nat) : Int))

/-- VCVT (R216). -/
def execVcvt (w : VW) (s : State) : Out :=
  s.runOp (.vcvt w) fun s r =>
    let td := vTy w
    s.result r.c r.f .v (cvtPart td (tyOr w.type2) w.src3.toNat (r.vsrc 0) (tget 0 r.x.v r.dst)
      (elemActive r.g r.f.sense td.width)).toNat

/-- VRSUM (R217). -/
def execVrsum (w : VW) (s : State) : Out :=
  s.runOp (.vrsum w) fun s r =>
    s.reduceOp r w 0

/-- VRMAX (R217). -/
def execVrmax (w : VW) (s : State) : Out :=
  s.runOp (.vrmax w) fun s r =>
    s.reduceOp r w 1

/-- VRMIN (R217). -/
def execVrmin (w : VW) (s : State) : Out :=
  s.runOp (.vrmin w) fun s r =>
    s.reduceOp r w 2

/-- VPERM (R218). -/
def execVperm (w : VW) (s : State) : Out :=
  s.runOp (.vperm w) fun s r =>
    let t := vTy w
    s.vecOp r t fun i => elem t.width (r.vsrc 0) (elem t.width (r.vsrc 1) i % t.count)

/-- VROT (R218). -/
def execVrot (w : VW) (s : State) : Out :=
  s.runOp (.vrot w) fun s r =>
    let t := vTy w
    s.vecOp r t fun i => elem t.width (r.vsrc 0) ((i + r.src 1) % t.count)

/-- VEXTR (R218): an integer element is extended by its type, any other zero-extended. -/
def execVextr (w : VW) (s : State) : Out :=
  s.runOp (.vextr w) fun s r =>
    let t := vTy w
    let x := elem t.width (r.vsrc 0) (r.src 1 % t.count)
    s.result r.c r.f .s (match t with | .int sg n => wrapN (extI sg n x) 64 | _ => x)

/-- VINS (R218). -/
def execVins (w : VW) (s : State) : Out :=
  s.runOp (.vins w) fun s r =>
    let t := vTy w
    s.vecOp r t fun i => if i = r.src 1 % t.count then r.src 0 else elem t.width (tget 0 r.x.v r.dst) i

/-- VIOTA (R218). -/
def execViota (w : VW) (s : State) : Out :=
  s.runOp (.viota w) fun s r =>
    s.vecOp r (vTy w) fun i => r.src 0 + i

/-- PAND (R215). -/
def execPand (w : VW) (s : State) : Out :=
  s.runOp (.pand w) fun s r =>
    s.predForm r fun a b => a && b

/-- POR (R215). -/
def execPor (w : VW) (s : State) : Out :=
  s.runOp (.por w) fun s r =>
    s.predForm r fun a b => a || b

/-- PXOR (R215). -/
def execPxor (w : VW) (s : State) : Out :=
  s.runOp (.pxor w) fun s r =>
    s.predForm r fun a b => a != b

/-- PNOT (R215). -/
def execPnot (w : VW) (s : State) : Out :=
  s.runOp (.pnot w) fun s r =>
    s.predForm r fun a _ => !a

/-- PMOV (R215). -/
def execPmov (w : VW) (s : State) : Out :=
  s.runOp (.pmov w) fun s r =>
    s.predForm r fun a _ => a

/-- PCNT (R215). -/
def execPcnt (w : VW) (s : State) : Out :=
  s.runOp (.pcnt w) fun s r =>
    s.result r.c r.f .s (predCount r.g r.f.sense (BitVec.ofNat 512 (r.src 0)))

/-- PFIRST (R215). -/
def execPfirst (w : VW) (s : State) : Out :=
  s.runOp (.pfirst w) fun s r =>
    s.result r.c r.f .s (predFirst r.g r.f.sense (BitVec.ofNat 512 (r.src 0)))

end Sys2Proof.Machine
end

