-- ==== Sys2Proof/Machine/Transform.lean ====
section
/-! DEFINITION. Slot X: the transform units (R256, R267, R268). -/

namespace Sys2Proof.Machine

open Sys2Proof

/-- XEXP (R258, R268): the elements of the packed groups of vA and vB. -/
def execXexp (w : XW) (s : State) : Out :=
  s.runOp (.xexp w) fun s r =>
    let t := tyOr w.type
    let g := xexpGroups (r.src 0) (r.src 1) t.bytes r.x.ratio (t.count / 64) 0 0
    s.result r.c r.f .v (packV t.width g.2).toNat

/-- XTRN (R268): each run of 256 elements is transposed as a 16 × 16 block. -/
def execXtrn (w : XW) (s : State) : Out :=
  s.runOp (.xtrn w) fun s r =>
    let t := tyOr w.type
    let v := r.vsrc 0
    s.result r.c r.f .v (buildV t.width fun i => elem t.width v (i / 256 * 256 + 16 * (i % 16) + i % 256 / 16)).toNat

/-- XCVT (R216, R268): the conversion of a part, every element of it active. -/
def execXcvt (w : XW) (s : State) : Out :=
  s.runOp (.xcvt w) fun s r =>
    let old := tget 0 r.x.v r.dst
    s.result r.c r.f .v (cvtPart (tyOr w.type) (tyOr w.type2) w.src2.toNat (r.vsrc 0) old fun _ => true).toNat

/-- The code XQNT gives an element (R89): x / s rounded and clamped to the range of the destination type. -/
def quantize (td : Ty) (x s : Ext) : Nat :=
  let i := toIntScaled x s
  match td with
  | .int sg n => wrapN (clampI (loI sg n) (hiI sg n) i) 8
  | .plane _ sg => wrapN (clampI (loP sg) (hiP sg) i) 8
  | .flt _ => 0

/-- XQNT (R268): code i in byte i, zero in every other byte. -/
def execXqnt (w : XW) (s : State) : Out :=
  s.runOp (.xqnt w) fun s r =>
    let ts := tyOr w.type2
    let q := fun i =>
      if i < ts.count then
        quantize (tyOr w.type) (ts.value (elem ts.width (r.vsrc 0) i)) (decodeF .bf16 (elem 16 (r.vsrc 1) (i / 32)))
      else 0
    s.result r.c r.f .v (buildV 8 q).toNat

/-- XRATIO (R268): the context's declared ratio. -/
def execXratio (w : XW) (s : State) : Out :=
  s.runOp (.xratio w) fun s r => s.updCtx r.c fun x => { x with ratio := r.src 0 % 64 }

/-- XRED (R102, R268): each row of 64 bytes is summed by the fixed tree into its lane; lanes 16 to 255 are +0. -/
def execXred (w : XW) (s : State) : Out :=
  s.runOp (.xred w) fun s r =>
    let ts := tyOr w.type2
    let n := 64 / ts.bytes
    let row := fun i => treeSum ((upto n).map fun j => rne .f32 (ts.value (elem ts.width (r.vsrc 0) (n * i + j))))
    s.result r.c r.f .v (buildV 32 fun i => if i < 16 then row i else 0).toNat

/-- SHSEAL (R256): one entry of the load queue, which seals when its read returns; its handle lands 24 cycles after issue. -/
def execShseal (w : XW) (s : State) : Out :=
  s.runOp (.shseal w) fun s r => s.pushLoad r .s 0 [r.src 0] 0

/-- SHFREE (R256): the entry falls free two cycles after issue. -/
def execShfree (w : XW) (s : State) : Out :=
  s.runOp (.shfree w) fun s r =>
    let h := r.src 0
    s.updStack (bits h 27 26) fun t =>
      { t with freeing := t.freeing ++ [(h % 1024, bits h 25 10, r.c, s.now r.c + 2)] }

/-- The entries whose SHFREE takes effect now, in a stack (R256). -/
def State.freeShapesDue (s : State) (st : Nat) : State :=
  let due := fun (e : Nat × Nat × Nat × Nat) => decide (e.2.2.2 ≤ s.now e.2.2.1)
  s.updStack st fun t =>
    { t with
      shapes := (t.freeing.filter due).foldl (fun m e => match tget none m e.1 with
        | some z => if z.count = e.2.1 then tset none m e.1 none else m
        | none => m) t.shapes,
      freeing := t.freeing.filter fun e => !due e }

end Sys2Proof.Machine
end

