-- ==== Sys2Proof/Machine/Transfer.lean ====
section
/-! DEFINITION. What copies move (R252, R253, R255 to R260): their checks, the items they read, and the units each item
gives. -/

namespace Sys2Proof.Machine

open Sys2Proof

/-! Reading for an engine. -/

/-- An engine reads bytes of memory as one unit; those that its command has already, of several read as one, it does not ask
for again. -/
def State.engVa (s : State) (w : Who) (va n : Nat) : State × Fetch (List Byte) :=
  match (s.cmd w.req).bind fun e => findFirst (fun p => p.1 = va && p.2.length = n) e.parts with
  | some p => (s, .ok p.2)
  | none =>
    fbind (gotFetch (s.readVa w va n)) fun s r =>
      (s.updCmd w.req fun e => { e with parts := (va, r.1) :: e.parts }, .ok r.1)

/-- A read of several places that command `id` makes as one: it keeps those that have arrived while it waits for the rest, and
none of them once it has its answer. -/
def readAsOne {α : Type} (id : Nat) (r : State × Fetch α) : State × Fetch α :=
  match r with
  | (s, .wait) => (s, .wait)
  | (s, a) => (s.updCmd id fun e => { e with parts := [] }, a)

/-- An engine reads bytes of a tile. -/
def State.engTile (s : State) (w : Who) (t : Tile) (h off n : Nat) : State × Fetch (List Byte) :=
  fbind (gotFetch (s.readTile w t.id h off n)) fun s r => (s, .ok r.1)

/-- An engine reads element (row, col) of a tile. -/
def State.engElem (s : State) (w : Who) (t : Tile) (h row col : Nat) : State × Fetch Nat :=
  fbind (s.engTile w t h (row * t.pitch + col * t.esize) t.esize) fun s d => (s, .ok (ofBytes d))

/-! Half-chains (R255 to R259). -/

/-- A copy under a shape: its record, the memory and tile types, the memory address, the tile with its handle, and the rows
moved. -/
structure Chain where
  z   : ShapeRec
  ts  : Ty
  td  : Ty
  a   : Nat
  t   : Tile
  h   : Nat
  nr  : Nat
  deriving DecidableEq, Repr

/-- The type of the memory side. -/
def Chain.memTy (k : Chain) : Ty := if k.z.half = 0 then k.ts else k.td
/-- The memory element size u (R258). -/
def Chain.u (k : Chain) : Nat := k.memTy.bytes
/-- Tile elements taken into one memory element. -/
def Chain.g (k : Chain) : Nat := max k.z.red 1
/-- Where memory row r begins (R258). -/
def Chain.rowAt (k : Chain) (r : Nat) : Nat := k.a + r * (if k.z.mpitch = 0 then k.z.cols * k.u else k.z.mpitch)
/-- Elements moved. -/
def Chain.count (k : Chain) : Nat := k.nr * k.z.cols
/-- Groups of 64 in a packed row. -/
def Chain.groups (k : Chain) : Nat := ceilDiv k.z.cols 64

/-- The copy breaks R252 or R259. -/
def Chain.bad (k : Chain) : Bool :=
  let z := k.z
  let tt := if z.half = 0 then k.td else k.ts
  !(k.t.esize = tt.bytes) || decide (k.t.rows < z.row0) ||
    (if z.trn then decide (k.t.rows - z.row0 < z.cols ∨ k.t.cols < k.nr)
     else !(z.cols * k.g = k.t.cols) || decide (k.t.rows < z.row0 + k.nr)) ||
    !(z.mpitch % (if z.pack then 8 else k.u) = 0)

/-- The alignment of the memory address under a shape (R252). -/
def Chain.align (k : Chain) : Nat := if k.z.pack then 8 else k.u

/-- Bytes of a unit of the memory side that is single-copy atomic where it is read or written whole (R148). -/
def Chain.unit (k : Chain) : Nat := max k.u k.t.esize
/-- Does each row of the memory side begin where the one before ends? -/
def Chain.dense (k : Chain) : Bool := k.z.mpitch = 0 || k.z.mpitch = k.z.cols * k.u
/-- Elements that stand one after another in memory: the whole grid where rows follow each other without a gap, else a row. -/
def Chain.run (k : Chain) : Nat := if k.dense then k.count else k.z.cols
/-- Aligned blocks of a unit that a run of elements touches, at most. -/
def Chain.blocks (k : Chain) : Nat := ceilDiv (k.run * k.u + k.unit - k.u) k.unit
/-- The elements of block `n`, by number in the grid, with the address of each. -/
def Chain.block (k : Chain) (n : Nat) : List (Nat × Nat) :=
  let r := n / k.blocks
  let a := k.rowAt r
  let lo := (a / k.unit + n % k.blocks) * k.unit
  (upto (k.unit / k.u)).filterMap fun j =>
    let x := lo + j * k.u
    if a ≤ x ∧ x < a + k.run * k.u then some (r * k.run + (x - a) / k.u, x) else none

/-- Aligned blocks of a unit that the 128 bytes of a plane touch. -/
def Chain.planeItems (k : Chain) : Nat := 128 / k.t.esize + (if k.a % k.t.esize = 0 then 0 else 1)
/-- Item `j` of a plane tensor: the block of 1,024 elements, and the first and last bytes of each of its planes, which stand in one
aligned block of a unit. -/
def Chain.planeItem (k : Chain) (j : Nat) : Nat × Nat × Nat :=
  let q := k.t.esize
  let i := j % k.planeItems
  (j / k.planeItems, i * q - k.a % q, min 128 ((i + 1) * q - k.a % q))

/-- Items of a half-chain: bytes of planes, packed rows, or blocks of elements. -/
def Chain.items (k : Chain) : Nat :=
  if k.memTy.isP then k.planeItems * ceilDiv k.count 1024
  else if k.z.pack then k.nr
  else (if k.dense then 1 else k.nr) * k.blocks

/-- The naturally aligned units of at most `whole` bytes that `n` bytes from an address on consist of, `fuel` at most (R148). -/
def cutFrom (whole : Nat) : Nat → Nat → Nat → List (Nat × Nat)
  | 0, _, _ => []
  | fuel + 1, a, n =>
    if n = 0 then []
    else
      let z := (findFirst (fun z => decide (z ≤ whole ∧ z ≤ n) && a % z = 0) [8, 4, 2]).getD 1
      (a, z) :: cutFrom whole fuel (a + z) (n - z)
/-- The units that `n` bytes from an address on are accessed in (R148). -/
def cutUnits (whole a n : Nat) : List (Nat × Nat) := cutFrom whole n a n
/-- The units that write bytes from an address on. -/
def cutWrites (whole a : Nat) (d : List Byte) : List EUnit :=
  (cutUnits whole a d.length).map fun u => { dst := .va u.1 none, data := (d.drop (u.1 - a)).take u.2 }

/-- The scale of element (r, c), if the record carries scales (R93, R94). -/
def State.chainScale (s : State) (w : Who) (k : Chain) (r c : Nat) : State × Fetch (Option Nat) :=
  if k.z.scen then
    fbind (s.engVa w (k.z.scbase + scaleOff k.z.sch k.z.cols r c) 2) fun s d => (s, .ok (some (ofBytes d)))
  else (s, .ok none)

/-- The value a load gives its tile element (R259): the source decoded, scaled, and converted. A scaled plane value is rounded
to an integer ties to even (DESIGN CHOICE, log 96). -/
def loadVal (td ts : Ty) (x : Nat) (scale : Option Nat) : Nat :=
  match scale with
  | none => conv td ts x
  | some q =>
    let v := (decodeF .bf16 q).mul (ts.value x)
    match td with
    | .flt f => rne f v
    | .int sg n => wrapN (clampI (loI sg n) (hiI sg n) (toIntRne v)) n
    | .plane _ sg => wrapN (clampI (loP sg) (hiP sg) (toIntRne v)) 8

/-- The unit a load writes for element (r, c). -/
def Chain.loadUnit (k : Chain) (r c v : Nat) : EUnit :=
  let p := if k.z.trn then (k.z.row0 + c, r) else (k.z.row0 + r, c)
  { dst := .tile k.t.id k.h (p.1 * k.t.pitch + p.2 * k.t.esize), data := toBytes k.t.esize v }

/-- A load's element with its scale. -/
def State.chainLoad (s : State) (w : Who) (k : Chain) (r c x : Nat) : State × Fetch EUnit :=
  fbind (s.chainScale w k r c) fun s q => (s, .ok (k.loadUnit r c (loadVal k.td k.ts x q)))

/-- A store's value of element (r, c) (R259): g tile elements summed, then converted or quantised. -/
def storeVal (td ts : Ty) (xs : List Nat) (scale : Option Nat) : Nat :=
  let p : Ty × Nat :=
    if xs.length ≤ 1 then (ts, xs.headD 0)
    else match ts with
      | .flt f => (.flt .f32, treeSum (xs.map fun x => rne .f32 (decodeF f x)))
      | .int sg n => (ts, wrapN ((xs.map (extI sg n)).foldl (· + ·) 0) n)
      | .plane _ _ => (ts, 0)
  match scale with
  | none => conv td p.1 p.2
  | some q => quantize td (p.1.value p.2) (decodeF .bf16 q)

/-- Reads and converts element (r, c) of a store. -/
def State.chainStore (s : State) (w : Who) (k : Chain) (r c : Nat) : State × Fetch Nat :=
  fbind (fmapM (fun s i => s.engElem w k.t k.h (k.z.row0 + r) (k.g * c + i)) (upto k.g) s) fun s xs =>
    fbind (s.chainScale w k r c) fun s q => (s, .ok (storeVal k.td k.ts xs q))

/-- Bytes at an address that an engine reads in aligned units of at most `whole` bytes (R148). -/
def State.engUnits (s : State) (w : Who) (whole a n : Nat) : State × Fetch (List Byte) :=
  fbind (fmapM (fun s u => s.engVa w u.1 u.2) (cutUnits whole a n) s) fun s l => (s, .ok l.flatten)

/-- The plane codes of an item of a load: its bytes of each of the n planes, each read once (R92). -/
def State.planeLoad (s : State) (w : Who) (k : Chain) (j : Nat) : State × Fetch (List EUnit) :=
  let n := match k.ts with | .plane n _ => n | _ => 8
  let x := k.planeItem j
  let e := 1024 * x.1 + 8 * x.2.1
  let m := min (8 * (x.2.2 - x.2.1)) (k.count - e)
  fbind (fmapM (fun s p => s.engUnits w k.t.esize (k.a + 1024 * x.1 + 128 * p + x.2.1) (ceilDiv m 8)) (upto n) s) fun s bs =>
    let code := fun i => sumN (bs.zipIdx.map fun y => b2n (bit (ofBytes y.1) i) * 2 ^ (7 - y.2))
    fmapM (fun s i => s.chainLoad w k ((e + i) / k.z.cols) ((e + i) % k.z.cols) (code i)) (upto m) s

/-- The plane codes of an item of a store: its bytes of each of the eight planes, code 0 past the last element (R91). -/
def State.planeStore (s : State) (w : Who) (k : Chain) (j : Nat) : State × Fetch (List EUnit) :=
  let x := k.planeItem j
  let e := 1024 * x.1 + 8 * x.2.1
  fbind (fmapM (fun s i => if e + i < k.count then s.chainStore w k ((e + i) / k.z.cols) ((e + i) % k.z.cols) else (s, .ok 0))
    (upto (8 * (x.2.2 - x.2.1))) s) fun s cs =>
    (s, .ok ((upto 8).flatMap fun p =>
      cutWrites k.t.esize (k.a + 1024 * x.1 + 128 * p + x.2.1)
        (toBytes (x.2.2 - x.2.1) (sumN (cs.zipIdx.map fun y => b2n (bit y.1 (7 - p)) * 2 ^ y.2)))))

/-- A block of elements of a load, read in aligned units (R148, R259). -/
def State.blockLoad (s : State) (w : Who) (k : Chain) (n : Nat) : State × Fetch (List EUnit) :=
  let l := k.block n
  fbind (s.engUnits w k.t.esize (l.headD (0, 0)).2 (l.length * k.u)) fun s d =>
    fmapM (fun s (x : (Nat × Nat) × Nat) =>
      s.chainLoad w k (x.1.1 / k.z.cols) (x.1.1 % k.z.cols) (ofBytes ((d.drop (x.2 * k.u)).take k.u))) l.zipIdx s

/-- A block of elements of a store, written in aligned units, or accumulated element by element (R148, R159, R259). -/
def State.blockStore (s : State) (w : Who) (k : Chain) (n : Nat) : State × Fetch (List EUnit) :=
  let l := k.block n
  fbind (fmapM (fun s x => s.chainStore w k (x.1 / k.z.cols) (x.1 % k.z.cols)) l s) fun s ys =>
    if k.z.acwop = 0 then (s, .ok (cutWrites k.t.esize (l.headD (0, 0)).2 (ys.flatMap (toBytes k.u))))
    else (s, .ok ((l.zip ys).map fun x => { dst := .va x.1.2 (some (k.z.acwop - 1)), data := toBytes k.u x.2 }))

/-- The elements of a packed row from group `g` at byte `pos` on, `n` groups left, each group checked first (R258, R259). -/
def State.packLoad (s : State) (w : Who) (k : Chain) (r : Nat) : Nat → Nat → Nat → State × Fetch (List Nat)
  | 0, _, _ => (s, .ok [])
  | n + 1, g, pos =>
    let u := k.u
    let at_ := k.rowAt r + pos
    fbind (s.engUnits w k.t.esize at_ 8) fun s ms =>
      let mask := ofBytes ms
      let kept := popcount mask 64
      if !ratioOk k.z.ratio u kept then (s, .operand 0x0704 (r * k.groups + g))
      else
        fbind (s.engUnits w k.t.esize (at_ + 8) (kept * u)) fun s d =>
          let xs := (upto 64).map fun i => if bit mask i then ofBytes ((d.drop (u * popcount mask i)).take u) else 0
          fbind (s.packLoad w k r n (g + 1) (pos + 8 + kept * u)) fun s ys => (s, .ok (xs ++ ys))

/-- The stream of a packed row: for each group its mask and the elements whose encoding is not all zero (R258). -/
def packStream (u : Nat) : Nat → List Nat → List (List Byte)
  | 0, _ => []
  | n + 1, l =>
    let g := l.take 64
    let mask := sumN (g.zipIdx.map fun x => if x.1 = 0 then 0 else 2 ^ x.2)
    let ms := (upto (8 / u)).map fun i => ((toBytes 8 mask).drop (i * u)).take u
    ms ++ (g.filter fun x => !(x = 0)).map (toBytes u) ++ packStream u n (l.drop 64)

/-- One item of a half-chain. -/
def State.chainItem (s : State) (w : Who) (k : Chain) (n : Nat) : State × Fetch (List EUnit) :=
  if k.z.half = 0 then
    if k.memTy.isP then s.planeLoad w k n
    else if k.z.pack then
      fbind (s.packLoad w k n k.groups 0 0) fun s xs =>
        fmapM (fun s x => s.chainLoad w k n x.2 x.1) (xs.take k.z.cols).zipIdx s
    else s.blockLoad w k n
  else if k.memTy.isP then s.planeStore w k n
  else if k.z.pack then
    fbind (fmapM (fun s c => s.chainStore w k n c) (upto k.z.cols) s) fun s xs =>
      let st := packStream k.u k.groups xs
      if k.z.mpitch < st.length * k.u then (s, .operand 0x0702 k.h)
      else (s, .ok (cutWrites k.t.esize (k.rowAt n) st.flatten))
  else s.blockStore w k n

/-! Plain copies. -/

/-- The shape handle's entry as a copy captures it at issue (R256): of the partition, of the issuing stack. -/
def State.captureShape (s : State) (r : Run) : Option (Option (BitVec 768)) :=
  match r.f.flds with
  | [_, _, _] =>
    let h := r.src 2
    if bits h 27 26 = stackOf r.c then some ((s.shapeOf r.x.part h).map Shape.bits) else some none
  | _ => none

/-- Does a copy run memory to tile, tile to memory, or neither? -/
def halfOf (i : Instr) : Option Nat :=
  match i with
  | .copyMemToTile _ => some 0
  | .copyTileToMem _ => some 1
  | _ => none

/-- The handle and memory address of a copy between a tile and memory. -/
def ECmd.sides (e : ECmd) : Nat × Nat := if halfOf e.op = some 0 then (e.opa, e.opb) else (e.opb, e.opa)

/-- The half-chain of a copy, from its record and its tile. -/
def ECmd.chain (e : ECmd) (b : BitVec 768) (t : Tile) : Option Chain :=
  let z := shapeRec b.toNat
  match tyOf (BitVec.ofNat 5 z.src), tyOf (BitVec.ofNat 5 z.dst) with
  | some ts, some td =>
    some { z := z, ts := ts, td := td, a := e.sides.2, t := t, h := e.sides.1,
           nr := if z.nrows = 0 then (if z.trn then t.cols else t.rows - z.row0) else z.nrows }
  | _, _ => none

/-- Why a command fails at its beginning: SUB, CODE and FLTADR. -/
abbrev Why := Nat × Nat × Nat

/-- What a copy does when it begins: it fails, or it has tiles and a number of items. -/
abbrev Plan := Except Why (List Nat × Nat)

/-- The tile that a handle of a command's context names as the command begins. -/
def State.tileOf (s : State) (e : ECmd) (h : Nat) : Option Tile := s.handle (s.ctx e.ctx) h

/-- The cause of the addresses of a copy that are to be multiples of `n`: none where all are; CODE 8 comes before CODE 7 (R363). -/
def misaligned (n : Nat) (l : List Nat) : Option Why :=
  if l.all (· % n = 0) then none
  else
    let c := leastCause (l.filterMap fun a => if 2 ^ 56 ≤ a then some (8, a) else if a % n = 0 then none else some (7, a)) (7, 0)
    some (0x0B, c.1, c.2)

/-- A copy between a tile and memory (R252, R259). -/
def State.planTile (s : State) (e : ECmd) : Plan :=
  let (h, a) := e.sides
  match s.tileOf e h with
  | none => .error (7, 0x0701, h)
  | some t =>
    match e.shape with
    | none => (match misaligned t.esize [a] with | none => .ok ([t.id], t.rows * t.cols) | some y => .error y)
    | some none => .error (7, 0x0703, e.opc)
    | some (some b) =>
      match e.chain b t with
      | none => .error (7, 0x0703, e.opc)
      | some k =>
        if !(halfOf e.op = some k.z.half) then .error (7, 0x0703, e.opc)
        else if k.bad then .error (7, 0x0702, h)
        else match misaligned k.align [k.a] with | none => .ok ([t.id], k.items) | some y => .error y

/-- A copy between tiles (R252). -/
def State.planTiles (s : State) (e : ECmd) : Plan :=
  match s.tileOf e e.opa, s.tileOf e e.opb with
  | some d, some t =>
    if d.rows = t.rows && d.rowLen = t.rowLen then .ok ([d.id, t.id], t.imageLen / max d.esize t.esize)
    else .error (7, 0x0702, e.opa)
  | none, _ => .error (7, 0x0701, e.opa)
  | _, none => .error (7, 0x0701, e.opb)

/-- The units of four, two and one byte that end a copy between places of memory (R148). -/
def memTail (len : Nat) : List Nat := [4, 2, 1].filter fun z => len / z % 2 = 1
/-- Unit `n` of such a copy: its offset and its bytes, eight but for the last ones. -/
def memUnit (len n : Nat) : Nat × Nat :=
  if n < len / 8 then (8 * n, 8)
  else (len / 8 * 8 + sumN ((memTail len).take (n - len / 8)), (memTail len).getD (n - len / 8) 1)

/-- A copy between places of memory (R252). -/
def planMem (e : ECmd) : Plan :=
  if 2 ^ 32 ≤ e.opc then .error (7, 0x0702, 0)
  else match misaligned 8 [e.opb, e.opa] with
    | none => .ok ([], e.opc / 8 + (memTail e.opc).length)
    | some y => .error y

/-- One item of a plain copy: a unit of the image read, and where it goes. -/
def State.plainItem (s : State) (w : Who) (e : ECmd) (n : Nat) : State × Fetch (List EUnit) :=
  match e.op, e.tiles.map s.tile with
  | .copyMemToTile _, [some t] =>
    fbind (s.engVa w (e.opb + n * t.esize) t.esize) fun s d =>
      (s, .ok [{ dst := .tile t.id e.opa (t.imageOff (n * t.esize)), data := d }])
  | .copyTileToTile _, [some d, some t] =>
    let u := max d.esize t.esize
    fbind (s.engTile w t e.opb (t.imageOff (n * u)) u) fun s x =>
      (s, .ok [{ dst := .tile d.id e.opa (d.imageOff (n * u)), data := x }])
  | .copyMemToMem _, _ =>
    let u := memUnit e.opc n
    fbind (s.engVa w (e.opb + u.1) u.2) fun s d => (s, .ok [{ dst := .va (e.opa + u.1) none, data := d }])
  | .mcast _, _ :: some t :: _ =>
    let k := t.rows * t.cols
    let off := n % k * t.esize
    let d := n / k
    fbind (s.engTile w t e.opb (t.imageOff off) t.esize) fun s x =>
      let w0 := (e.dests.getD d (0, 0)).1
      (s, .ok [{ dst := if bit w0 63 then .deliver off else .va (w0 % 2 ^ 56 + off) none, data := x, dest := d }])
  | _, some t :: _ =>
    fbind (s.engTile w t e.opb (t.imageOff (n * t.esize)) t.esize) fun s d =>
      (s, .ok [{ dst := .va (e.opa + n * t.esize) none, data := d }])
  | _, _ => (s, .dead)

/-- One item of a copy: what is read, and the units it gives. -/
def State.copyItem (s : State) (w : Who) (e : ECmd) (n : Nat) : State × Fetch (List EUnit) :=
  match e.shape, e.tiles.map s.tile with
  | some (some b), [some t] =>
    match e.chain b t with
    | some k => s.chainItem w k n
    | none => s.plainItem w e n
  | _, _ => s.plainItem w e n

end Sys2Proof.Machine
end

