-- ==== Sys2Proof/Machine/Alloc.lean ====
section
/-! DEFINITION. Tile allocation and freeing (R123 to R127, R176, R265). -/

namespace Sys2Proof.Machine

open Sys2Proof

/-- Bytes of the largest tile of a level (Table 7.1). -/
def maxTile : TLevel → Nat
  | .BASE => 64 * 2 ^ 20
  | _ => 2 * 2 ^ 20

/-- Bytes of a core's tile memory, and of a column's region of the base tile level (R123, R126). -/
def corePool : Nat := 2 * 2 ^ 20
/-- Bytes of a column's region of the base tile level. -/
def colPool : Nat := 60 * 2 ^ 20

/-- Bytes of a core's tile memory that tiles take. -/
def State.coreUsed (s : State) (core : Nat) : Nat :=
  sumN ((s.tiles.filter fun t => !(t.level = .BASE) && t.core = core).map Tile.space)

/-- Bytes of a column's region that tiles take. -/
def State.colUsed (s : State) (col : Nat) : Nat :=
  sumN ((s.tiles.filter fun t => t.level = .BASE).map fun t => tget 0 t.place col)

/-- The columns of a partition in a stack: its base pool there (R126). -/
def State.baseCols (s : State) (part stack : Nat) : List Nat :=
  ((upto 8).map (8 * stack + ·)).filter fun c => bit (s.part part).cols c

/-- Free bytes of a partition's base pool in a stack. -/
def State.baseFree (s : State) (part stack : Nat) : Nat :=
  sumN ((s.baseCols part stack).map fun c => colPool - s.colUsed c)

/-- Spreads bytes over columns, filling each in turn. -/
def State.spread (s : State) : Nat → List Nat → List (Nat × Nat)
  | _, [] => []
  | n, c :: l =>
    let k := min n (colPool - s.colUsed c)
    if k = 0 then s.spread n l else (c, k) :: s.spread (n - k) l

/-- Where an allocated tile lies: in its core, or in the regions the device chooses (R126), which nothing shows. -/
def State.placeTile (s : State) (t : Tile) : List (Nat × Nat) :=
  match t.level with
  | .BASE =>
    let l := s.baseCols t.part t.stack
    let k := Config.tilePlace t.id % (l.length + 1)
    s.spread t.space (l.drop k ++ l.take k)
  | _ => [(t.core, t.space)]

/-- The structures whose generation a tile's allocation advances (Table 7.2). -/
def Tile.gens (t : Tile) : List Nat :=
  match t.level with
  | .BASE => t.place.map fun e => genBase e.1
  | _ => [genMem t.core]

/-- The member contexts of a quire, or the allocating context of a LOCAL tile: whose tables hold the tile (R123). -/
def State.holders (s : State) (t : Tile) (c : Nat) : List Nat :=
  match t.level with
  | .LOCAL => [c]
  | _ => match s.quire t.quire with
    | some q => q.members.filter fun m => (s.ctx m).quire = q.id
    | none => [c]

/-- Writes a tile's entry in the tables of its holders. -/
def State.enterTile (s : State) (t : Tile) (c h : Nat) : State :=
  (s.holders t c).foldl (fun s m => s.updCtx m fun x => { x with tiles := tset 0 x.tiles h t.id }) s

/-- Empties a tile's entries, saved ones too (R127). -/
def State.leaveTile (s : State) (t : Tile) : State :=
  let drop := fun (x : Ctx) => { x with tiles := x.tiles.filter fun e => !(e.2 = t.id) }
  let s := s.mapCtxs fun _ x => drop x
  { s with quires := s.quires.map fun q =>
      { q with images := q.images.map fun i => { i with ctx := drop i.ctx, tiles := i.tiles.filter fun x => !(x.2.id = t.id) } } }

/-! TALLOC. -/

/-- The tile a TALLOC asks for, or why it fails (R124, R176, R265). -/
def State.askTile (s : State) (e : ECmd) : Except Why Tile :=
  let w := e.imm.toNat
  let x := s.ctx e.ctx
  let lv := bits w 17 16
  let membf := bit w 24
  let m := bits w 23 18
  let cols := bits w 13 0
  let es := 2 ^ bits w 15 14
  let q := s.quire e.quire
  if !(bits w 31 25 = 0) || lv = 3 || cols = 0 || (membf && !(lv = 1)) || (!membf && !(m = 0)) || (membf && decide (x.members ≤ m)) then
    .error (7, 0x0401, 0)
  else if e.opb = 0 ∨ 1048575 < e.opb then .error (7, 0x0403, 0)
  else
    let level : TLevel := match lv with | 0 => .LOCAL | 1 => .QUIRE | _ => .BASE
    let owner := if membf then (match q with | some q => q.members.getD m e.ctx | none => e.ctx) else e.ctx
    let t : Tile := { id := e.id, level := level, core := coreOf owner, stack := stackOf e.ctx, part := x.part, quire := e.quire,
                      member := if lv = 1 then (if membf then m else x.member) else 0, esize := es, cols := cols, rows := e.opb,
                      place := [], bytes := [], poison := [], freed := false }
    if maxTile level < t.space then .error (7, 0x0402, 0) else .ok t

/-- The number of the allocator a tile's allocation reaches: 0 to 127 a core's, 128 + 12 × stack + partition a base pool's
(R125, R126). -/
def allocOf (t : Tile) : Nat :=
  match t.level with
  | .BASE => 128 + 12 * t.stack + t.part
  | _ => t.core

/-- The commands waiting at an allocator, in order. -/
def State.allocQ (s : State) (a : Nat) : List Nat :=
  if a < 128 then (s.core a).allocQ else tget [] (s.stack ((a - 128) / 12)).allocQ ((a - 128) % 12)

/-- Replaces the commands waiting at an allocator. -/
def State.setAllocQ (s : State) (a : Nat) (l : List Nat) : State :=
  if a < 128 then s.updCore a fun k => { k with allocQ := l }
  else s.updStack ((a - 128) / 12) fun t => { t with allocQ := tset [] t.allocQ ((a - 128) % 12) l }

/-- Does a tile fit now, its structures not being zeroed (R125, R130)? -/
def State.fits (s : State) (t : Tile) : Bool :=
  let t := { t with place := s.placeTile t }
  (match t.level with
    | .BASE => decide (t.space ≤ s.baseFree t.part t.stack)
    | _ => decide (s.coreUsed t.core + t.space ≤ corePool)) && !(t.gens.any s.zeroing.contains)

/-- A TALLOC begins: its request reaches its allocator, or fails. -/
def State.beginTalloc (s : State) (e : ECmd) : State :=
  match s.askTile e with
  | .error (_, k, a) => s.failCmd e k a
  | .ok t =>
    let s := s.updCmd e.id fun e => { e with begun := true }
    s.setAllocQ (allocOf t) (s.allocQ (allocOf t) ++ [e.id])

/-- The head of an allocator, if it can be served now. -/
def State.allocHead (s : State) (a : Nat) : Option (ECmd × Except Why Tile) :=
  match s.allocQ a with
  | [] => none
  | id :: _ =>
    match s.cmd id with
    | none => none
    | some e =>
      match s.askTile e with
      | .error x => some (e, .error x)
      | .ok t => if s.fits t then some (e, .ok t) else none

/-- ALLOCATION_SERVED (R125, R265): the head of an allocator takes its space and writes its entries, or finds one occupied. -/
def execAllocationServed (alloc : Nat) (s : State) : Out :=
  match s.allocHead alloc with
  | none => .next s
  | some (e, ask) =>
    let s := s.setAllocQ alloc (s.allocQ alloc).tail
    match ask with
    | .error (_, k, a) => .next (s.failCmd e k a)
    | .ok t =>
      if (s.holders t e.ctx).any fun c => !(tget 0 (s.ctx c).tiles e.opa = 0) then .next (s.failCmd e 0x0701 e.opa)
      else
        let t := { t with place := s.placeTile t }
        let s := t.gens.foldl State.bumpGen s
        let s := { s with tiles := s.tiles ++ [t] }
        .next ((s.enterTile t e.ctx e.opa).doneCmd e.id none)

/-- An allocator that can serve its head. -/
def State.allocDue (s : State) : Option Nat := findFirst (fun a => (s.allocHead a).isSome) (upto 176)

/-! TFREE. -/

/-- The tiles a set of a captured table names. -/
def setTiles (tiles : Tbl Nat) (a : BitVec 512) : List Nat := (setHandles a).map fun h => tget 0 tiles h

/-- Does a queue entry access a tile? -/
def QEntry.usesTile (e : QEntry) (id : Nat) : Bool :=
  e.tile = id || (match e.mat with | some m => (setTiles m.tiles m.ag).contains id | none => false)

/-- Is an access that began before a tile was freed still under way (R265)? -/
def State.tileInUse (s : State) (id : Nat) : Bool :=
  s.cmds.any (fun e => e.begun && !e.acted && (e.tiles.contains id || (match e.op with
      | .tfree _ => false
      | _ => e.rest.any fun u => match u.dst with | .tile i _ _ => i = id | _ => false))) ||
    s.calls.any (fun k => [k.agA, k.agB, k.sgA, k.sgB].any fun a => (setTiles k.tiles a).contains id) ||
    s.ctxs.any fun cx =>
      cx.2.loadQ.any (fun e => e.usesTile id) || cx.2.storeQ.any (fun e => e.usesTile id) ||
        (match cx.2.snap with
          | some sn => sn.heldL.any (fun e => e.usesTile id) || sn.heldW.any fun e => e.usesTile id
          | none => false)

/-- Returns a tile's space. -/
def State.returnTile (s : State) (id : Nat) : State :=
  match s.tile id with
  | some t => t.gens.foldl State.freeGen { s with tiles := s.tiles.filter fun x => !(x.id = id) }
  | none => s

/-- A TFREE begins: it empties the entries (R127, R265). -/
def State.beginTfree (s : State) (e : ECmd) : State :=
  match s.tileOf e e.opa with
  | none => s.failCmd e 0x0701 e.opa
  | some t =>
    let s := (s.leaveTile t).updTile t.id fun t => { t with freed := true }
    s.updCmd e.id fun f => { f with begun := true, rest := [{ dst := .tile t.id e.opa 0, data := [] }] }

/-- A TFREE ends once no access to its tile is left. -/
def State.stepTfree (s : State) (e : ECmd) : State :=
  match e.rest with
  | [⟨.tile id _ _, _, _⟩] => if s.tileInUse id then s else (s.returnTile id).doneCmd e.id none
  | _ => s

end Sys2Proof.Machine
end

