-- ==== Sys2Proof/Machine/Write.lean ====
section
/-! DEFINITION. The writes of engine commands (R253, R254, R259 to R261, R319, R369, R372): one unit at its place, parked for
a member that is not resident, delivered to a named tile, or sent over the Fareri Link. -/

namespace Sys2Proof.Machine

open Sys2Proof

/-- What a write gives: done, parked with every other unit for its tile, a wait, or a cause with its FLTADR. -/
inductive Wrote where
  | done
  | parked
  | wait
  | fail (sub code adr : Nat)
  | dead
  deriving DecidableEq, Repr

/-- Bytes of a command for one destination that stand in a ring or wait for room: parked, not written. -/
def State.parkedOf (s : State) (cmd d : Nat) : Nat :=
  sumN (s.parts.map fun q =>
    sumN (((q.2.ring.filter Parcel.valid ++ q.2.waiting).filter fun p => p.cmd = cmd && p.dest = d).map Parcel.len))

/-- Fails destination `d` of an MCAST: what it still had to move is dropped, and its POST poisons its episode if a row was
written (R260, R373). -/
def State.failDest (s : State) (e : ECmd) (d sub code : Nat) : State :=
  let (k, u) := match e.tiles.map s.tile with | _ :: some t :: _ => (t.rows * t.cols, t.esize) | _ => (1, 1)
  let mine := e.todo.filter fun n => n / k = d
  let left := mine.length + (e.rest.filter fun x => x.dest = d).length + s.parkedOf e.id d / u
  let w := e.dests.getD d (0, 0)
  let s := s.updCmd e.id fun e =>
    { e with todo := e.todo.filter (fun n => !(n / k = d)), rest := e.rest.filter (fun u => !(u.dest = d)),
             far := e.far.filter (· ≠ d),
             fails := if e.fails.any (fun f => f.1 = d) then e.fails else e.fails ++ [(d, sub, code)] }
  if bit w.1 63 && bit w.1 62 && decide (left < k) && bits w.2 63 52 = s.pkg.pkgid then s.postFailed (bits w.2 51 48) (bits w.1 39 32)
  else s

/-- A command meets a cause after it has begun (R369): its destination alone fails for an MCAST, the command otherwise. -/
def State.failUnit (s : State) (e : ECmd) (d sub code adr : Nat) : State :=
  if isMcast e.op then s.failDest e d sub code else s.doneCmd e.id (some (s.failRec e sub code adr))

/-- An error charged to an MCAST in a step for destination `d` fails that destination (R369). -/
def State.settleHurt (s : State) (id d : Nat) : State :=
  match s.cmd id with
  | some e =>
    match e.hurt with
    | some (k, _) => (s.updCmd id fun e => { e with hurt := none }).failDest { e with hurt := none } d 0x10 k
    | none => s
  | none => s

/-- The parcel of bytes for a tile of a quire's member that is not resident. -/
def State.parcelOf (s : State) (e : ECmd) (q : Quire) (member h off dest : Nat) (data : List Byte) (barn : Nat) (post : Bool) : Parcel :=
  { spkg := s.pkg.pkgid, sctx := e.ctx, len := data.length, offset := off, seq := lSeq q.letter, member := member, handle := h,
    barn := barn, post := post, at_ := 0, data := data, cmd := e.id, dest := dest, since := s.cycle, valid := true }

/-- Do two units go to one tile: by its serial, or as one delivery? -/
def EUnit.sameTile (u v : EUnit) : Bool :=
  match u.dst, v.dst with
  | .tile i _ _, .tile j _ _ => i = j
  | .deliver _, .deliver _ => u.dest = v.dest
  | _, _ => false

/-- Adjoining pieces of a list in ascending order of place, joined, the last first. -/
def joinRuns (l : List (Nat × List Byte)) : List (Nat × List Byte) :=
  l.foldl (fun r p => match r with
    | (o, d) :: r => if o + d.length = p.1 then (o, d ++ p.2) :: r else p :: (o, d) :: r
    | [] => [p]) []

/-- Parks what a command writes to a tile of a member that is not resident (R254, R261): once the command has read all of
it, a parcel for each run of adjoining bytes, the last of a delivery with its POST. `place` is a unit's offset in the
tile. -/
def State.parkAll (s : State) (e : ECmd) (q : Quire) (member h : Nat) (u : EUnit) (place : EUnit → Nat) (barn : Nat) (post : Bool) :
    State × Wrote :=
  let k := match e.tiles.map s.tile with | _ :: some t :: _ => t.rows * t.cols | _ => 1
  if e.todo.any (fun i => !(isMcast e.op) || i / k = u.dest) then (s, .wait)
  else
    let l := (e.rest.filter u.sameTile).map fun v => (place v, v.data)
    let runs := joinRuns (sortBy (fun a b => decide (a.1 < b.1)) l)
    let one := fun (s : State) (r : (Nat × List Byte) × Nat) =>
      s.park q.part (s.parcelOf e q member h r.1.1 u.dest r.1.2 barn (post && decide (r.2 + 1 = runs.length)))
    (runs.reverse.zipIdx.foldl one s, .parked)

/-- Writes a unit into a tile, or parks it while the member that holds it is not resident (R254). -/
def State.writeTile (s : State) (w : Who) (e : ECmd) (id h off : Nat) (u : EUnit) : State × Wrote :=
  match s.tile id with
  | none => (s, .done)
  | some t =>
    if s.resident t then
      match s.perform w false { place := .tile id off, data := u.data } with
      | (s, true) => (s, .done)
      | (s, false) => (s, .wait)
    else
      match s.quire t.quire with
      | some q => s.parkAll e q t.member h u (fun v => match v.dst with | .tile _ _ o => o | _ => 0) 0 false
      | none => (s, .done)

/-- Writes a unit to memory, plainly or by accumulate-on-write; a write over the Fareri Link is remembered. -/
def State.writeVa (s : State) (w : Who) (e : ECmd) (a : Nat) (acw : Option Nat) (u : EUnit) : State × Wrote :=
  match acw with
  | some c =>
    match s.acwUnit w a u.data.length false (fun old => acwNew c old (ofBytes u.data) 0) with
    | (s, .ok _) => (s, .done)
    | (s, .xlate k x) => (s, .fail 0x0B k x)
    | (s, .operand k x) => (s, .fail 7 k x)
    | (s, .wait) => (s, .wait)
    | (s, .dead) => (s, .dead)
  | none =>
    match s.unitVa w a u.data.length u.data with
    | (s, .err k x) => (s, .fail 0x0B k x)
    | (s, .wait) => (s, .wait)
    | (s, .dead) => (s, .dead)
    | (s, .ok x) =>
      match s.perform w false x with
      | (s, false) => (s, .wait)
      | (s, true) =>
        match x.place with
        | .remote _ _ =>
          (s.updCmd e.id fun f => { f with far := if f.far.contains u.dest then f.far else f.far ++ [u.dest] }, .done)
        | _ => (s, .done)

/-- The quire of a partition that a SEQ names (R372). -/
def State.quireSeq (s : State) (part seq : Nat) : Option Quire :=
  findFirst (fun q => q.part = part && lSeq q.letter = seq) s.quires

/-- Writes a unit of a delivery (R260, R372): `last` when it is the destination's last one. -/
def State.writeDeliver (s : State) (w : Who) (e : ECmd) (off : Nat) (u : EUnit) (last : Bool) : State × Wrote :=
  let d := e.dests.getD u.dest (0, 0)
  let part := bits d.2 51 48
  let member := bits d.2 15 10
  let h := d.2 % 256
  let barn := bits d.1 39 32
  let post := bit d.1 62 && last
  if (s.part w.part).lanes.isEmpty then (s, .fail 7 0x0706 0)
  else if !(bits d.2 63 52 = s.pkg.pkgid) then
    (s.updCmd e.id fun f => { f with far := if f.far.contains u.dest then f.far else f.far ++ [u.dest] }, .done)
  else
    match s.quireSeq part (bits d.2 47 16), e.tiles.map s.tile with
    | some q, _ :: some src :: _ =>
      match s.memberTile q member h with
      | none => (s, .fail 7 0x0706 0)
      | some t =>
        let o := d.1 % 2 ^ 32
        let place := fun off => o + off / src.rowLen * t.pitch + off % src.rowLen
        let parks := fun (_ : Unit) =>
          if (s.part part).prsize = 0 then (s, .fail 7 0x0706 0)
          else s.parkAll e q member h u (fun v => match v.dst with | .deliver o => place o | _ => 0) barn (bit d.1 62)
        if !(o % t.pitch = 0) || decide (t.pitch < src.rowLen) || decide (t.rows < o / t.pitch + src.rows) then (s, .fail 7 0x0706 0)
        else
          match s.memberCtx q member with
          | some _ =>
            if s.resident t then
              match s.perform w false { place := .tile t.id (place off), data := u.data } with
              | (s, false) => (s, .wait)
              | (s, true) => (if post then s.post part barn else s, .done)
            else parks ()
          | none => parks ()
    | _, _ => (s, .fail 7 0x0706 0)

/-- Writes one unit that a command has read: which one is left open (R253). It leaves the list unless it waits. -/
def State.writeOne (s : State) (w : Who) (e : ECmd) (n : Nat) : State :=
  match e.rest[n % e.rest.length]? with
  | none => s
  | some u =>
    let k := match e.tiles.map s.tile with | _ :: some t :: _ => t.rows * t.cols | _ => 1
    let last : Bool := (e.rest.filter fun v => v.dest = u.dest).length = 1 && !(e.todo.any fun i => i / k = u.dest)
    let r := match u.dst with
      | .va a acw => s.writeVa w e a acw u
      | .tile id h off => s.writeTile w e id h off u
      | .deliver off => s.writeDeliver w e off u last
    match r with
    | (s, .wait) => s.settleHurt e.id u.dest
    | (s, .dead) => s.settleHurt e.id u.dest
    | (s, .fail sub code adr) => s.failUnit e u.dest sub code adr
    | (s, .done) =>
      s.updCmd e.id fun f => { f with rest := f.rest.eraseIdx (n % e.rest.length) }
    | (s, .parked) => s.updCmd e.id fun f => { f with rest := f.rest.filter fun v => !(u.sameTile v) }

/-- Reads one item of a copy: which one is left open (R253). -/
def State.readOne (s : State) (w : Who) (e : ECmd) (n : Nat) : State :=
  match e.todo[n % e.todo.length]? with
  | none => s
  | some i =>
    let k := match e.tiles.map s.tile with | _ :: some t :: _ => t.rows * t.cols | _ => 1
    match readAsOne e.id (s.copyItem w e i) with
    | (s, .ok us) => s.updCmd e.id fun f => { f with todo := f.todo.eraseIdx (n % e.todo.length), rest := f.rest ++ us }
    | (s, .wait) => s.settleHurt e.id (i / k)
    | (s, .dead) => s.settleHurt e.id (i / k)
    | (s, .xlate c a) => s.failUnit e (i / k) 0x0B c a
    | (s, .operand c a) => s.failUnit e 0 7 c a

/-- Steps of a command that reads items and writes units, at most `n`, the order left open (R253). -/
def State.move (s : State) (id : Nat) : Nat → State
  | 0 => s
  | n + 1 =>
    match s.cmd id with
    | none => s
    | some e =>
      if e.acted then s
      else
        let k := s.newFree
        let w := k.2.whoCmd e
        let s := match e.todo, e.rest with
          | [], [] => k.2
          | [], _ => k.2.writeOne w e k.1
          | _, [] => k.2.readOne w e k.1
          | _, _ => if Config.choose s.fresh then k.2.readOne w e k.1 else k.2.writeOne w e k.1
        s.move id n

/-- The steps of one cycle: how many is left open. -/
def State.moveSome (s : State) (e : ECmd) : State :=
  let n := Config.delay s.fresh % (2 * (e.todo.length + e.rest.length) + 1) + 1
  { s with fresh := s.fresh + 1 }.move e.id n

/-- Has a command read and written everything, its deliveries checked and its parcels in their ring? -/
def State.moved (s : State) (e : ECmd) : Bool :=
  e.todo.isEmpty && e.rest.isEmpty && e.far.isEmpty && !(s.dlv.any fun d => d.cmd = e.id) && !s.parcelWaits e.id

/-- Every row of a command's transfers over the link is sent: their verdicts follow (R319, R372). -/
def State.sendOff (s : State) (e : ECmd) : State :=
  if e.todo.isEmpty && e.rest.isEmpty && !e.far.isEmpty then
    e.far.foldl (fun s d =>
      let n := s.newSerial
      let w := n.2.newWait
      { w.2 with dlv := w.2.dlv ++ [{ id := n.1, cmd := e.id, dest := d, wait := w.1 }] })
      (s.updCmd e.id fun f => { f with far := [] })
  else s

/-- The failure mask of an MCAST (R260). -/
def ECmd.mask (e : ECmd) : Nat := sumN (e.fails.map fun f => 2 ^ f.1)

/-- The failure record of destinations: SUB and CODE of the lowest, the mask in FLTADR (R369). -/
def State.maskRec (s : State) (e : ECmd) : Option Rec :=
  (minBy (fun f => f.1) e.fails).map fun f => s.failRec e f.2.1 f.2.2 e.mask

/-- The code a transfer over the link fails with (R372): 0x0706 where the other package could not take a tile delivery, 0x0707 where
the checksum of its payload differs. -/
def State.dlvCode (s : State) (d : Delivery) (good : Bool) : Option Nat :=
  let tile : Bool := match s.cmd d.cmd with | some e => isMcast e.op && bit (e.dests.getD d.dest (0, 0)).1 63 | none => false
  if tile && !Config.remoteTakes d.id then some 0x0706 else if good then none else some 0x0707

/-- DELIVERY_CHECK (R372): the verdict of a transfer over the link. -/
def execDeliveryCheck (delivery : Nat) (good : Bool) (s : State) : Out :=
  match findFirst (fun d => d.id = delivery) s.dlv with
  | none => .next s
  | some d =>
    if s.cycle < d.wait then .next s
    else
      .next (match s.dlvCode d good with
        | none => { s with dlv := s.dlv.filter fun x => !(x.id = delivery) }
        | some k => { s with dlv := s.dlv.filter fun x => !(x.id = delivery) }.updCmd d.cmd fun e =>
            { e with fails := if e.fails.any (fun f => f.1 = d.dest) then e.fails else e.fails ++ [(d.dest, 7, k)] })

/-- A delivery whose verdict is due. -/
def State.deliveryDue (s : State) : Option Nat := (findFirst (fun d => decide (d.wait ≤ s.cycle)) s.dlv).map Delivery.id

/-- A parcel that has waited 2^24 scheduler cycles for room (R375). -/
def State.lateParcel (s : State) (part : Nat) : Option Parcel :=
  findFirst (fun p => decide (p.since + 2 ^ 24 ≤ s.cycle)) (s.part part).waiting

/-- PARCEL_TIMEOUT (R375): the parcel is dropped unwritten, and its destination fails with 0x0708. -/
def execParcelTimeout (part : Nat) (s : State) : Out :=
  match s.lateParcel part with
  | none => .next s
  | some p =>
    let drop := fun s : State => s.updPart part fun q => { q with waiting := q.waiting.filter fun x => !(x = p) }
    match s.cmd p.cmd with
    | none => .next (drop s)
    | some e =>
      .next (drop (if e.fails.any (fun f => f.1 = p.dest) then s
        else if isMcast e.op then s.failDest e p.dest 7 0x0708
        else s.updCmd p.cmd fun e => { e with fails := e.fails ++ [(p.dest, 7, 0x0708)] }))

end Sys2Proof.Machine
end

