-- ==== Sys2Proof/Machine/Tm.lean ====
section
/-! DEFINITION. The token-merging unit of a quad (14): matching, merging, unmerging, sizes and composition, each command
served whole in its turn (R280), its tile writes following. -/

namespace Sys2Proof.Machine

open Sys2Proof

/-- Map `n` of a context. -/
def Ctx.map (x : Ctx) (n : Nat) : MapEnt := tget .empty x.maps n
/-- Replaces map `n` of a context. -/
def Ctx.setMap (x : Ctx) (n : Nat) (m : MapEnt) : Ctx := { x with maps := tset .empty x.maps n m }

/-- Is an entry VALID? -/
def MapEnt.isValid (m : MapEnt) : Bool := match m with | .valid _ _ _ _ _ _ _ => true | _ => false

/-- Map-store entries of a quad in use (R270). -/
def State.mapsUsed (s : State) (quad : Nat) : Nat :=
  sumN ((s.ctxs.filter fun e => colOf e.1 = quad).map fun e => (e.2.maps.filter fun m => m.2.isValid).length)

/-- Is a unit the store entry of a map? -/
def State.mapUnit (s : State) (c n : Nat) (u : UnitD) : Bool :=
  u.struct = 12 && u.unit = colOf c && s.mapAt (colOf c) u.loc = some (c, n)

/-- A read of a map meets an armed error in its store entry (R385). -/
def State.strikeMap (s : State) (c n : Nat) : State := s.strikeArmed .none (s.mapUnit c n)

/-- What serving a command gives: the map it sets, and the units it writes. -/
structure Served where
  map   : Option (Nat × MapEnt) := none
  units : List EUnit := []
  deriving DecidableEq, Repr

/-- Refuses with a cause of Table 24.8. -/
def tmFail {α : Type} (s : State) (code adr : Nat) : State × Fetch α := (s, .operand code adr)

/-- A map a command names (Table 24.8): EMPTY is refused with `empty`, LOST is the map loss. -/
def State.needMap (s : State) (c n empty : Nat) : State × Fetch MapEnt :=
  if s.testing (s.mapUnit c n) then (s, .wait)
  else
  let s := s.strikeMap c n
  match (s.ctx c).map n with
  | .empty => tmFail s empty n
  | .lost => tmFail s 0x0505 n
  | m => (s, .ok m)

/-- The handles that a command of the unit names, looked up when it begins (R250, R369). -/
def ECmd.tmHandles (e : ECmd) : List Nat :=
  match e.op with
  | .tmmatch _ => [e.opb]
  | .tmmerge _ => [e.opa, e.opb]
  | .tmunmrg _ => [e.opa, e.opb]
  | .tmsize _ => [e.opa]
  | _ => []

/-- The tile that a command looked up under a handle as it began. -/
def State.needTile (s : State) (e : ECmd) (h : Nat) : State × Fetch Tile :=
  match ((e.tmHandles.zip e.tiles).find? fun x => x.1 = h).bind fun x => s.tile x.2 with
  | some t => (s, .ok t)
  | none => tmFail s 0x0701 h

/-- The floating type of a type code: `.f32`, `.f16` or `.bf16`. -/
def tmFmt (c : Nat) : Option Fmt :=
  match c with
  | 0x09 => some .f32 | 0x0A => some .f16 | 0x0B => some .bf16 | _ => none

/-- `above` of R274. -/
def above (x y : Ext) : Bool := !(x == .nan) && (y == .nan || y.lt x)

/-! Matching (R273, R274). -/

/-- The score of two keys. -/
def tmScore (a b : List Ext) : Ext := decodeF .f32 (rne .f32 (exactSum ((a.zip b).map fun p => p.1.mul p.2)))

/-- The best partner of a key among those of odd tokens: its token and score, the lowest on a tie. -/
def tmBest (a : List Ext) : List (Nat × List Ext) → Option (Nat × Ext) → Option (Nat × Ext)
  | [], r => r
  | (t, b) :: l, r =>
    let sc := tmScore a b
    match r with
    | none => tmBest a l (some (t, sc))
    | some (u, x) => tmBest a l (if above sc x then some (t, sc) else some (u, x))

/-- The even or odd members of a list of numbered keys. -/
def ofParity (p : Nat) (l : List (List Ext)) : List (Nat × List Ext) :=
  (l.zipIdx.filter fun x => x.2 % 2 = p).map fun x => (x.2, x.1)

/-- The map that keys and input sizes give (R274, R275). -/
def tmMatch (keys : List (List Ext)) (ins : List Nat) (merge : Nat) (keep : Bool) : MapEnt :=
  let n := keys.length
  let odd := ofParity 1 keys
  let best := (ofParity 0 keys).map fun a => (a.1, match tmBest a.2 odd none with | some r => r | none => (0, .nan))
  let rank := sortBy (fun a b => above a.2.2 b.2.2 || (!above b.2.2 a.2.2 && decide (a.1 < b.1))) best
  let merged := rank.take merge
  let surv := (upto n).filter fun t => !(merged.any fun m => m.1 = t)
  let u := (upto n).map fun t =>
    match findFirst (fun m => m.1 = t) merged with
    | some m => surv.idxOf m.2.1
    | none => surv.idxOf t
  let sz := (upto surv.length).map fun j => sumN ((u.zip ins).map fun p => if p.1 = j then p.2 else 0)
  .valid n surv.length u ins sz surv keep

/-- Reads the keys of rows 0 to n − 1, columns 0 to d − 1, narrowed to F16 (R274). -/
def State.readKeys (s : State) (w : Who) (t : Tile) (h : Nat) (f : Fmt) (n d : Nat) : State × Fetch (List (List Ext)) :=
  fmapM (fun s r => fmapM (fun s c => fbind (s.engElem w t h r c) fun s x =>
    (s, .ok (decodeF .f16 (rne .f16 (decodeF f x))))) (upto d) s) (upto n) s

/-- TMMATCH as the unit serves it. -/
def State.serveMatch (s : State) (w : Who) (e : ECmd) : State × Fetch Served :=
  let k := e.opc
  let n := bits k 13 0
  let d := bits k 23 16 + 1
  let merge := bits k 45 32
  let smap := bits k 51 48
  if !(bits k 63 58 = 0 && bits k 47 46 = 0 && bits k 31 24 = 0 && !bit k 14) || (!bit k 52 && !(smap = 0)) then tmFail s 0x0501 k
  else
    match tmFmt (bits k 57 53) with
    | none => tmFail s 0x0502 k
    | some f =>
      if n < 2 ∨ 8192 < n ∨ (n + 1) / 2 < merge then tmFail s 0x0502 k
      else
        fbind (s.needTile e e.opb) fun s t =>
          if !(t.esize = f.width / 8) || decide (t.cols < d ∨ t.rows < n) then tmFail s 0x0502 k
          else if ((s.ctx e.ctx).map e.opa).isValid then tmFail s 0x0503 e.opa
          else
            let ins : State × Fetch (List Nat) :=
              if bit k 52 then
                fbind (s.needMap e.ctx smap 0x0504) fun s m => match m with
                  | .valid _ m _ _ sz _ _ => if m = n then (s, .ok sz) else tmFail s 0x0504 smap
                  | _ => tmFail s 0x0504 smap
              else (s, .ok (List.replicate n 1))
            fbind ins fun s ins =>
              fbind (s.readKeys w t e.opb f n d) fun s keys =>
                (s, .ok { map := some (e.opa, tmMatch keys ins merge (bit k 15)) })

/-! Merging, unmerging and sizes (R276 to R278). -/

/-- The exact value of a natural number. -/
def Ext.ofNat (n : Nat) : Ext := Ext.ofDyadic n 0

/-- Element of a merged row (R276): the B partner first, then the others, each product added with one rounding. -/
def mergeElem (f : Fmt) (b : Nat × Nat) (g : List (Nat × Nat)) (size : Nat) : Nat :=
  let first := rne .f32 ((Ext.ofNat b.1).mul (decodeF f b.2))
  let num := g.foldl (fun num a => rne .f32 (exactSum [decodeF .f32 num, (Ext.ofNat a.1).mul (decodeF f a.2)])) first
  divRne f (decodeF .f32 num) (Ext.ofNat size)

/-- TMMERGE as the unit serves it. -/
def State.serveMerge (s : State) (w : Who) (e : ECmd) : State × Fetch Served :=
  let k := e.opc
  if !(bits k 63 13 = 0 && bits k 7 4 = 0) then tmFail s 0x0501 k
  else
    match tmFmt (bits k 12 8) with
    | none => tmFail s 0x0502 k
    | some f =>
      fbind (s.needMap e.ctx (k % 16) 0x0503) fun s m =>
        fbind (s.needTile e e.opa) fun s d =>
          fbind (s.needTile e e.opb) fun s t =>
            match m with
            | .valid n m u ins sz sv _ =>
              if !(d.esize = f.width / 8 && t.esize = f.width / 8 && d.cols = t.cols) || decide (t.rows < n ∨ d.rows < m) then
                tmFail s 0x0502 k
              else
                fbind (fmapM (fun s j =>
                  let b := sv.getD j 0
                  let g := (upto n).filter fun t => !(t = b) && u.getD t 0 = j
                  fmapM (fun s c =>
                    fbind (s.engElem w t e.opb b c) fun s x =>
                      fbind (fmapM (fun s a => fbind (s.engElem w t e.opb a c) fun s y => (s, .ok (ins.getD a 0, y))) g s) fun s ys =>
                        let v := if g.isEmpty then x else mergeElem f (ins.getD b 0, x) ys (sz.getD j 0)
                        (s, .ok { dst := .tile d.id e.opa (j * d.pitch + c * d.esize), data := toBytes d.esize v : EUnit }))
                    (upto d.cols) s) (upto m) s) fun s rows => (s, .ok { units := rows.flatten })
            | _ => tmFail s 0x0503 (k % 16)

/-- TMUNMRG as the unit serves it. -/
def State.serveUnmerge (s : State) (w : Who) (e : ECmd) : State × Fetch Served :=
  let k := e.opc
  if !(bits k 63 4 = 0) then tmFail s 0x0501 k
  else
    fbind (s.needMap e.ctx k 0x0503) fun s m =>
      fbind (s.needTile e e.opa) fun s d =>
        fbind (s.needTile e e.opb) fun s t =>
          match m with
          | .valid n m u _ _ _ _ =>
            if !(d.rowLen = t.rowLen) || decide (t.rows < m ∨ d.rows < n) then tmFail s 0x0502 k
            else
              let z := min d.esize t.esize
              fbind (fmapM (fun s r =>
                fmapM (fun s i =>
                  fbind (s.engTile w t e.opb (u.getD r 0 * t.pitch + i * z) z) fun s x =>
                    (s, .ok { dst := .tile d.id e.opa (r * d.pitch + i * z), data := x : EUnit })) (upto (d.rowLen / z)) s)
                (upto n) s) fun s rows => (s, .ok { units := rows.flatten })
          | _ => tmFail s 0x0503 k

/-- TMSIZE as the unit serves it. -/
def State.serveSize (s : State) (e : ECmd) : State × Fetch Served :=
  fbind (s.needMap e.ctx (e.opb % 16) 0x0503) fun s m =>
    fbind (s.needTile e e.opa) fun s d =>
      match m with
      | .valid _ _ u _ sz _ _ =>
        let l := if bit e.opb 4 then u else sz
        if !(d.esize = 2) || decide (d.rows * d.cols < l.length) then tmFail s 0x0502 e.opb
        else (s, .ok { units := (upto (d.rows * d.cols)).map fun i =>
          { dst := .tile d.id e.opa (d.imageOff (2 * i)), data := toBytes 2 (l.getD i 0) } })
      | _ => tmFail s 0x0503 (e.opb % 16)

/-! Composition and freeing (R278, R279). -/

/-- The composite of two maps of successive layers. -/
def compose (f g : MapEnt) (keep : Bool) : MapEnt :=
  match f, g with
  | .valid n _ u ins _ sv _, .valid _ m v _ sz sw _ =>
    .valid n m (u.map fun i => v.getD i 0) ins sz (sw.map fun j => sv.getD j 0) keep
  | f, _ => f

/-- TMCOMP as the unit serves it. -/
def State.serveComp (s : State) (e : ECmd) : State × Fetch Served :=
  let k := e.opa
  let d := k % 16
  let fn := bits k 11 8
  let gn := bits k 19 16
  if !(bits k 63 25 = 0 && bits k 23 20 = 0 && bits k 15 12 = 0 && bits k 7 4 = 0) then tmFail s 0x0501 k
  else
    fbind (s.needMap e.ctx fn 0x0503) fun s f =>
      fbind (s.needMap e.ctx gn 0x0503) fun s g =>
        if ((s.ctx e.ctx).map d).isValid && !(d = fn) && !(d = gn) then tmFail s 0x0503 d
        else
          match f, g with
          | .valid _ m _ _ _ _ _, .valid n _ _ _ _ _ _ =>
            if m = n then (s, .ok { map := some (d, compose f g (bit k 24)) }) else tmFail s 0x0504 fn
          | _, _ => tmFail s 0x0503 fn

/-- A command as the unit serves it: every cause is met before anything is written (R359). -/
def State.tmServe (s : State) (e : ECmd) : State × Fetch Served :=
  let w := s.whoCmd e
  match e.op with
  | .tmmatch _ => s.serveMatch w e
  | .tmmerge _ => s.serveMerge w e
  | .tmunmrg _ => s.serveUnmerge w e
  | .tmsize _ => s.serveSize e
  | .tmcomp _ => s.serveComp e
  | _ => (s, .ok { map := some (e.opa, .empty) })

/-- Does a command need a free map-store entry (R280)? -/
def ECmd.needsEntry (e : ECmd) : Bool :=
  match e.op with
  | .tmmatch _ => true
  | .tmcomp _ => !(e.opa % 16 = bits e.opa 11 8) && !(e.opa % 16 = bits e.opa 19 16)
  | _ => false

/-- Serves a command of the unit. -/
def State.tmRun (s : State) (e : ECmd) : State :=
  match s.tmServe e with
  | (s, .operand k a) => s.failCmd e k a
  | (s, .xlate k a) => s.failXlate e k a
  | (s, .wait) => s
  | (s, .dead) => s
  | (s, .ok r) =>
    let s := match r.map with
      | some m => s.updCtx e.ctx fun x => x.setMap m.1 m.2
      | none => s
    s.updCmd e.id fun f => { f with served := true, held := false, rest := r.units }

/-- Is the store of a quad full for a command? -/
def State.storeFull (s : State) (e : ECmd) : Bool := e.needsEntry && decide (16 ≤ s.mapsUsed (colOf e.ctx))

/-- One cycle of a quad's token-merging unit: its head is served, its rows are written, and it ends (R280). -/
def State.tmStep (s : State) (quad : Nat) : State :=
  match (s.quad quad).tmQ with
  | [] => s
  | id :: l =>
    match s.cmd id with
    | none => s.updQuad quad fun q => { q with tmQ := l }
    | some e =>
      if e.acted then s.updQuad quad fun q => { q with tmQ := l }
      else if s.cycle < e.wait || e.held then s
      else if !e.served then
        if s.storeFull e then s.updCmd id fun f => { f with held := true } else s.tmRun e
      else
        let s := s.moveSome e
        match s.cmd id with
        | some e => if e.rest.isEmpty && !s.parcelWaits id && !e.acted then s.doneCmd id (s.maskRec e) else s
        | none => s

/-- MAP_STORE_WAIT_SERVED (R280): the waiting head of a quad's unit is served when a store entry is free. -/
def execMapStoreWaitServed (quad : Nat) (s : State) : Out :=
  match (s.quad quad).tmQ with
  | [] => .next s
  | id :: _ =>
    match s.cmd id with
    | some e =>
      if e.held && !s.storeFull e then .next ((s.updCmd id fun f => { f with held := false }).tmRun { e with held := false })
      else .next s
    | none => .next s

/-- A quad whose waiting head can be served. -/
def State.mapDue (s : State) : Option Nat :=
  (findFirst (fun q => match q.2.tmQ with
    | id :: _ => (match s.cmd id with | some e => e.held && !s.storeFull e | none => false)
    | [] => false) s.quads).map Prod.fst

/-- TMMATCH (R272). -/
def execTmmatch (w : EW) (s : State) : Out := s.runOp (.tmmatch w) State.enqueue State.enqueueNop
/-- TMMERGE (R272). -/
def execTmmerge (w : EW) (s : State) : Out := s.runOp (.tmmerge w) State.enqueue State.enqueueNop
/-- TMUNMRG (R272). -/
def execTmunmrg (w : EW) (s : State) : Out := s.runOp (.tmunmrg w) State.enqueue State.enqueueNop
/-- TMCOMP (R272). -/
def execTmcomp (w : EW) (s : State) : Out := s.runOp (.tmcomp w) State.enqueue State.enqueueNop
/-- TMFREE (R272). -/
def execTmfree (w : EW) (s : State) : Out := s.runOp (.tmfree w) State.enqueue State.enqueueNop
/-- TMSIZE (R272). -/
def execTmsize (w : EW) (s : State) : Out := s.runOp (.tmsize w) State.enqueue State.enqueueNop

end Sys2Proof.Machine
end

