-- ==== Sys2Proof/Machine/Sparse.lean ====
section
/-! DEFINITION. The sparse merge network of a quad (15): sessions, acceptance, spills and the drain, its commands served one
at a time in the order they began (R287). -/

namespace Sys2Proof.Machine

open Sys2Proof

/-! The descriptor (Table 15.2). -/

/-- SPILL. -/
def dSpill (d : BitVec 512) : Nat := bits d.toNat 55 0
/-- SPILLSZ. -/
def dSpillSz (d : BitVec 512) : Nat := bits d.toNat 95 64
/-- ROWP. -/
def dRowp (d : BitVec 512) : Nat := bits d.toNat 183 128
/-- COLA. -/
def dCola (d : BitVec 512) : Nat := bits d.toNat 247 192
/-- VALA. -/
def dVala (d : BitVec 512) : Nat := bits d.toNat 311 256
/-- NROWS. -/
def dNrows (d : BitVec 512) : Nat := bits d.toNat 351 320
/-- CAP. -/
def dCap (d : BitVec 512) : Nat := bits d.toNat 383 352

/-- The checks of Table 24.9, CODE 0x0603. -/
def dOk (d : BitVec 512) : Bool :=
  let n := d.toNat
  bits n 511 384 = 0 && bits n 319 312 = 0 && bits n 255 248 = 0 && bits n 191 184 = 0 && bits n 127 96 = 0 &&
    bits n 63 56 = 0 && dSpillSz d % 128 = 0 && !(dNrows d = 0)

/-! Entries and runs. -/

/-- The order of a run: row, column, stream, sequence (R294). -/
def SmEnt.before (a b : SmEnt) : Bool :=
  decide (a.row < b.row) || (a.row = b.row && (decide (a.col < b.col) || (a.col = b.col &&
    (decide (a.stream < b.stream) || (a.stream = b.stream && decide (a.seq < b.seq))))))

/-- The record of an entry (Table 15.3). -/
def SmEnt.record (e : SmEnt) : List Byte :=
  toBytes 4 e.row ++ toBytes 4 e.col ++ toBytes 4 e.val ++ toBytes 4 (e.stream % 16 * 2 ^ 28 + e.seq % 2 ^ 28)

/-- The entry of a record. -/
def recordEnt (b : List Byte) : SmEnt :=
  let n := ofBytes b
  ⟨bits n 31 0, bits n 63 32, bits n 95 64, bits n 127 124, bits n 123 96⟩

/-- Bytes of a run of `n` records (R294). -/
def runBytes (n : Nat) : Nat := 128 * ceilDiv (16 + 16 * n) 128

/-- The units of a run at an address: its header, its sorted records, and zeros up to a multiple of 128 (R294). -/
def Session.runUnits (z : Session) : List EUnit :=
  let head := toBytes 4 z.buf.length ++ toBytes 12 (z.runs % 2 ^ 16)
  let recs := head :: (sortBy SmEnt.before z.buf).map SmEnt.record
  let pad := runBytes z.buf.length / 16 - recs.length
  (recs ++ List.replicate pad (List.replicate 16 (0 : Byte))).zipIdx.map fun (u : List Byte × Nat) => { dst := .va (z.cursor + 16 * u.2) none, data := u.1 }

/-- Does a run of the buffer pass the end of the spill area (R294)? -/
def Session.exhausted (z : Session) : Bool :=
  decide (dSpill z.desc + dSpillSz z.desc < z.cursor + runBytes z.buf.length)

/-- The session once its run is written. -/
def Session.spilled (z : Session) : Session :=
  { z with cursor := z.cursor + runBytes z.buf.length, runs := z.runs + 1, buf := [] }

/-- Stream `n` of a session. -/
def Session.stream (z : Session) (n : Nat) : SmStream := tget {} z.streams n

/-- Why an entry of stream `n` is not accepted, in the order of R289 (Table 24.9). -/
def Session.refuses (z : Session) (n row col : Nat) : Option Nat :=
  let t := z.stream n
  let unsorted := match t.last with
    | some k => decide (row < k.1) || (row = k.1 && decide (col < k.2))
    | none => false
  if t.closed then some 0x0608
  else if unsorted then some 0x0605
  else if dNrows z.desc ≤ row then some 0x0606
  else if t.seq = 2 ^ 28 - 1 then some 0x0607
  else none

/-- An entry of stream `n` enters the buffer (R289). -/
def Session.add (z : Session) (n row col val : Nat) : Session :=
  let t := z.stream n
  { z with buf := z.buf ++ [⟨row, col, val, n, t.seq⟩],
           streams := tset {} z.streams n { t with last := some (row, col), seq := t.seq + 1 } }

/-! The drain (R295). -/

/-- The result of the drain: each distinct key with its value, of entries in the order of a run. -/
def drainKeys : List SmEnt → List (Nat × Nat × Nat)
  | [] => []
  | e :: l => go (e.row, e.col) (decodeF .f32 e.val) l
where
  go (k : Nat × Nat) (acc : Ext) : List SmEnt → List (Nat × Nat × Nat)
    | [] => [(k.1, k.2, rne .f32 acc)]
    | e :: l =>
      if e.row = k.1 ∧ e.col = k.2 then go k (decodeF .f32 (rne .f32 (exactSum [acc, decodeF .f32 e.val]))) l
      else (k.1, k.2, rne .f32 acc) :: go (e.row, e.col) (decodeF .f32 e.val) l

/-- The output units of a drain: 4 bytes each (R295). -/
def drainUnits (d : BitVec 512) (ks : List (Nat × Nat × Nat)) : List EUnit :=
  let put := fun (a n : Nat) => ({ dst := .va a none, data := toBytes 4 n } : EUnit)
  ((upto (dNrows d + 1)).map fun r => put (dRowp d + 4 * r) ((ks.filter fun k => decide (k.1 < r)).length)) ++
    ks.zipIdx.map (fun k => put (dCola d + 4 * k.2) k.1.2.1) ++ ks.zipIdx.map fun k => put (dVala d + 4 * k.2) k.1.2.2

/-- The records of `n` runs, read from the spill area one after another. -/
def State.readRuns (s : State) (w : Who) : Nat → Nat → State × Fetch (List SmEnt)
  | 0, _ => (s, .ok [])
  | n + 1, a =>
    fbind (s.engVa w a 16) fun s h =>
      let c := ofBytes (h.take 4)
      fbind (fmapM (fun s i => s.engVa w (a + 16 + 16 * i) 16) (upto c) s) fun s rs =>
        fbind (s.readRuns w n (a + runBytes c)) fun s l => (s, .ok (rs.map recordEnt ++ l))

/-! Serving. -/

/-- The session of a quad. -/
def State.session (s : State) (quad : Nat) : Option Session := (s.quad quad).session
/-- Replaces the session of a quad. -/
def State.setSession (s : State) (quad : Nat) (z : Option Session) : State := s.updQuad quad fun q => { q with session := z }

/-- A read of the buffer meets an armed error in one of its entries (R385). -/
def State.strikeBuf (s : State) (e : ECmd) (quad n : Nat) : State :=
  s.strikeArmed (.cmd e.id) fun u => u.struct = 13 && u.unit = quad && decide (u.loc < n)

/-- Is the session of a quad struck (Table 25.5)? -/
def State.struck (s : State) (quad : Nat) : Bool := match s.session quad with | some z => z.broken | none => false

/-- A command of a struck session fails with SUB MACHINE; its drain closes it (Table 25.5). -/
def State.failStruck (s : State) (quad : Nat) (e : ECmd) : State :=
  let s := s.doneCmd e.id (some (s.failRec e 0x10 3 quad))
  match e.op with
  | .smdrain _ => s.setSession quad none
  | _ => s

/-- SMOPEN is served: the descriptor is read and the session opens (R288); or it is set aside, one taken from there before the others,
so that they are served in the order they began (R287). -/
def State.smOpen (s : State) (quad : Nat) (e : ECmd) : State :=
  match s.session quad with
  | some z =>
    if z.quire = e.quire then (if z.broken then s.failStruck quad e else s.failCmd e 0x0602 0)
    else s.updQuad quad fun q => { q with smQ := q.smQ.filter (· ≠ e.id), aside := if e.held then e.id :: q.aside else q.aside ++ [e.id] }
  | none =>
    match s.engVa (s.whoCmd e) e.opa 64 with
    | (s, .ok b) =>
      let d := BitVec.ofNat 512 (ofBytes b)
      if !dOk d then s.failCmd e 0x0603 e.opa
      else
        let x := s.ctx e.ctx
        let z : Session := { quire := e.quire, home := x.member, ctx := e.ctx, part := x.part, tenant := x.tenant,
                             owner := e.owner, level := e.level, desc := d, limit := 32768, buf := [], streams := [], runs := 0,
                             cursor := dSpill d, broken := false }
        (s.setSession quad (some z)).doneCmd e.id none
    | (s, .xlate k a) => s.failXlate e k a
    | (s, .operand k a) => s.failCmd e k a
    | (s, .wait) => s
    | (s, .dead) => s

/-- Entry `i` of a push or feed: row, column and value (R290, R291). -/
def State.smEntry (s : State) (e : ECmd) (i : Nat) : State × Fetch (Nat × Nat × Nat) :=
  match e.op, e.vecs with
  | .smpush _, [r, c, v] => (s, .ok (elem 32 r i, elem 32 c i, elem 32 v i))
  | _, _ =>
    fbind (fmapM (fun s k => s.engVa (s.whoCmd e) (e.opb + 12 * i + 4 * k) 4) [0, 1, 2] s) fun s l =>
      let n := l.map ofBytes
      (s, .ok (n.getD 0 0, n.getD 1 0, n.getD 2 0))

/-- Writes one unit of a run, or counts the run once it is written (R294). -/
def State.smSpill (s : State) (quad : Nat) (e : ECmd) (z : Session) : State :=
  match e.rest with
  | [] => (s.setSession quad (some z.spilled)).updCmd e.id fun f => { f with held := false }
  | _ => s.writeOne (s.whoCmd e) e 0

/-- The next entry of a push or feed, `i`, is accepted, refused, or makes the buffer spill first (R289): it is read and checked once. The
spill area must be aligned to 128 bytes (Table 15.2). -/
def State.smAccept (s : State) (quad : Nat) (e : ECmd) (z : Session) (i : Nat) : State :=
  let got : State × Fetch (Nat × Nat × Nat) := match e.entry with | some x => (s, .ok x) | none => readAsOne e.id (s.smEntry e i)
  match got with
  | (s, .ok (row, col, val)) =>
    let n := e.opa % 16
    match (if e.entry.isSome then none else z.refuses n row col) with
    | some k => s.failCmd e k i
    | none =>
      if z.limit ≤ z.buf.length then
        if z.exhausted then s.failCmd e 0x0609 i
        else if !(dSpill z.desc % 128 = 0) then s.failXlate e 7 z.cursor
        else
          let s := s.strikeBuf e quad z.buf.length
          if s.struck quad then s.failStruck quad e
          else s.updCmd e.id fun f => { f with held := true, rest := z.runUnits, entry := some (row, col, val) }
      else (s.setSession quad (some (z.add n row col val))).updCmd e.id fun f => { f with todo := [i + 1], entry := none }
  | (s, .xlate k a) => s.failXlate e k a
  | (s, .operand k a) => s.failCmd e k a
  | (s, .wait) => s
  | (s, .dead) => s

/-- Every unit of a command has been written: those sent over the link await their verdict, and it ends. -/
def State.finishUnits (s : State) (e : ECmd) : State :=
  let s := s.sendOff e
  match s.cmd e.id with
  | some e => if s.moved e && !e.acted then s.doneCmd e.id (s.maskRec e) else s
  | none => s

/-- Steps of a push or feed, at most so many. -/
def State.smTake (s : State) (quad id : Nat) : Nat → State
  | 0 => s
  | n + 1 =>
    match s.cmd id, s.session quad with
    | some e, some z =>
      if e.acted then s
      else if z.broken then s.failStruck quad e
      else if e.held then (s.smSpill quad e z).smTake quad id n
      else match e.todo with
        | i :: _ =>
          if i < e.opc then (s.smAccept quad e z i).smTake quad id n
          else s.updCmd id fun f => { f with todo := [] }
        | [] => s.finishUnits e
    | _, _ => s

/-- SMPUSH or SMFEED as the network serves it: its checks when it comes to the head, then its entries. -/
def State.smEntries (s : State) (quad : Nat) (e : ECmd) (most : Nat) : State :=
  if e.served then
    let n := Config.delay s.fresh % (e.opc + e.rest.length + 1) + 1
    { s with fresh := s.fresh + 1 }.smTake quad e.id n
  else if e.opc = 0 ∨ most < e.opc then s.failCmd e 0x0604 e.opc
  else
    match e.op with
    | .smfeed _ =>
      if 2 ^ 56 ≤ e.opb then s.failXlate e 8 e.opb
      else if e.opb % 4 = 0 then s.updCmd e.id fun f => { f with served := true, todo := [0] } else s.failXlate e 7 e.opb
    | _ => s.updCmd e.id fun f => { f with served := true, todo := [0] }

/-- The lowest stream that holds entries and is not closed. -/
def Session.openStream (z : Session) : Option Nat := findFirst (fun n => !(z.stream n).closed && !((z.stream n).seq = 0)) (upto 16)

/-- SMDRAIN as the network serves it (R295): the runs are read and the units formed, then written; then the session closes. -/
def State.smDrain (s : State) (quad : Nat) (e : ECmd) (z : Session) : State :=
  if e.served then
    let s := s.moveSome e
    match s.cmd e.id with
    | none => s
    | some e =>
      if e.acted || !e.rest.isEmpty then s
      else
        let s := s.finishUnits e
        match s.cmd e.id with
        | some f => if f.acted then s.setSession quad none else s
        | none => s
  else
    match z.openStream with
    | some n => s.failCmd e 0x060A n
    | none =>
      let s := s.strikeBuf e quad z.buf.length
      if s.struck quad then s.failStruck quad e
      else
        match readAsOne e.id (s.readRuns (s.whoCmd e) z.runs (dSpill z.desc)) with
        | (s, .ok l) =>
          let ks := drainKeys (sortBy SmEnt.before (l ++ z.buf))
          if dCap z.desc < ks.length then (s.failCmd e 0x060B ks.length).setSession quad none
          else s.updCmd e.id fun f => { f with served := true, rest := drainUnits z.desc ks }
        | (s, .xlate k a) => s.failXlate e k a
        | (s, .operand k a) => s.failCmd e k a
        | (s, .wait) => s
        | (s, .dead) => s

/-- A command at the head of the network (R284, R287). -/
def State.smServe (s : State) (quad : Nat) (e : ECmd) : State :=
  match e.op with
  | .smopen _ => s.smOpen quad e
  | _ =>
    match s.session quad with
    | none => s.failCmd e 0x0601 0
    | some z =>
      if !(z.quire = e.quire) then s.failCmd e 0x0601 0
      else if z.broken then s.failStruck quad e
      else
        match e.op with
        | .smpush _ => s.smEntries quad e 256
        | .smfeed _ => s.smEntries quad e (2 ^ 24)
        | .smlimit _ =>
          if e.opa = 0 ∨ 32768 < e.opa then s.failCmd e 0x0604 e.opa
          else (s.setSession quad (some { z with limit := e.opa })).doneCmd e.id none
        | .smend _ =>
          let n := e.opa % 16
          (s.setSession quad (some { z with streams := tset {} z.streams n { z.stream n with closed := true } })).doneCmd e.id none
        | .smdrain _ => s.smDrain quad e z
        | _ => s

/-- One cycle of a quad's sparse merge network (R287). -/
def State.smStep (s : State) (quad : Nat) : State :=
  match (s.quad quad).smQ with
  | [] => s
  | id :: l =>
    match s.cmd id with
    | none => s.updQuad quad fun q => { q with smQ := l }
    | some e =>
      if e.acted then s.updQuad quad fun q => { q with smQ := l }
      else if decide (s.cycle < e.wait) || s.testing (fun u => u.struct = 13 && u.unit = quad) then s
      else s.smServe quad e

/-- Does a set-aside SMOPEN of a quad already stand at its network's queue? -/
def State.asideServed (s : State) (quad : Nat) : Bool :=
  (s.quad quad).smQ.any fun id => match s.cmd id with
    | some e => e.held && (match e.op with | .smopen _ => true | _ => false)
    | none => false

/-- Can a quad serve a set-aside SMOPEN: is no session open (R287)? -/
def State.asideFree (s : State) (quad : Nat) : Bool :=
  (s.session quad).isNone && !(s.quad quad).aside.isEmpty && !s.asideServed quad

/-- SMOPEN_SET_ASIDE_SERVED (R287): the first command set aside goes to the head of its network. -/
def execSmopenSetAsideServed (quad : Nat) (s : State) : Out :=
  if s.asideFree quad then
    match (s.quad quad).aside with
    | id :: l =>
      .next ((s.updQuad quad fun q => { q with aside := l, smQ := id :: q.smQ }).updCmd id fun f => { f with held := true })
    | [] => .next s
  else .next s

/-- A quad that can serve a set-aside SMOPEN. -/
def State.asideDue (s : State) : Option Nat := (findFirst (fun q => s.asideFree q.1) s.quads).map Prod.fst

/-! Saving a session (R296). -/

/-- Writes the units of a save's spill: true when all are written, false at a fault, none while one waits. -/
def State.saveUnits (s : State) (w : Who) : List EUnit → State × Option Bool
  | [] => (s, some true)
  | u :: l =>
    match u.dst with
    | .va a _ =>
      match s.unitVa w a u.data.length u.data with
      | (s, .ok x) =>
        match s.perform w false x with
        | (s, true) => s.saveUnits w l
        | (s, false) => (s, none)
      | (s, .err _ _) => (s, some false)
      | (s, .wait) => (s, none)
      | (s, .dead) => (s, some false)
    | _ => s.saveUnits w l

/-- The accessor of a session's save spill: its quad's engine, for the context that opened it. -/
def Session.who (z : Session) : Who :=
  { c := z.ctx, part := z.part, tenant := z.tenant, owner := z.owner, level := z.level, tlb := ⟨colOf z.ctx, 4⟩,
    eye := eyeQuad (colOf z.ctx), reader := .none, engine := true }

/-- A session as its quire is saved: spilled when its buffer holds anything and the run can be written (R296); none while
a write waits. -/
def State.saveSession (s : State) (z : Session) : State × Option Session :=
  if z.buf.isEmpty || z.exhausted || z.broken || !(dSpill z.desc % 128 = 0) then (s, some z)
  else
    match s.saveUnits z.who z.runUnits with
    | (s, some true) => (s, some z.spilled)
    | (s, some false) => (s, some z)
    | (s, none) => (s, none)

/-! The commands. -/

/-- SMOPEN (R286, R288). -/
def execSmopen (w : EW) (s : State) : Out := s.runOp (.smopen w) State.enqueue State.enqueueNop
/-- SMPUSH (R290): its three registers are read as it issues. -/
def execSmpush (w : EW) (s : State) : Out :=
  s.runOp (.smpush w) (fun s r =>
    let n := (r.f.fld 1).val
    s.enqueueWith r false none [tget 0 r.x.v n, tget 0 r.x.v (n + 1), tget 0 r.x.v (n + 2)]) State.enqueueNop
/-- SMFEED (R291). -/
def execSmfeed (w : EW) (s : State) : Out := s.runOp (.smfeed w) State.enqueue State.enqueueNop
/-- SMLIMIT (R292). -/
def execSmlimit (w : EW) (s : State) : Out := s.runOp (.smlimit w) State.enqueue State.enqueueNop
/-- SMEND (R293). -/
def execSmend (w : EW) (s : State) : Out := s.runOp (.smend w) State.enqueue State.enqueueNop
/-- SMDRAIN (R295). -/
def execSmdrain (w : EW) (s : State) : Out := s.runOp (.smdrain w) State.enqueue State.enqueueNop

end Sys2Proof.Machine
end

