-- ==== Sys2Proof/Machine/Engine.lean ====
section
/-! DEFINITION. The engine commands of chapter 13 (R250 to R266): when each becomes ready, begins, goes on and ends, and the
arrivals of COPYH at handlers (R65). -/

namespace Sys2Proof.Machine

open Sys2Proof

/-! Which unit serves a command. -/

/-- Does a copy engine of the quad carry the command out? -/
def isCopy (i : Instr) : Bool :=
  match i with
  | .copyMemToTile _ | .copyTileToMem _ | .copyTileToTile _ | .copyMemToMem _ | .mcast _ | .copyh _ => true
  | _ => false

/-- Does the token-merging unit of the quad serve it? -/
def isTm (i : Instr) : Bool :=
  match i with
  | .tmmatch _ | .tmmerge _ | .tmunmrg _ | .tmcomp _ | .tmfree _ | .tmsize _ => true
  | _ => false

/-- Does the sparse merge network of the quad serve it? -/
def isSm (i : Instr) : Bool :=
  match i with
  | .smopen _ | .smpush _ | .smfeed _ | .smlimit _ | .smend _ | .smdrain _ => true
  | _ => false

/-- The network of a barrier arrival (R264), and whether its count is the third operand. -/
def State.barNet (s : State) (e : ECmd) : Option (Net × Bool) :=
  match e.op with
  | .barCore w => some (.core (coreOf e.ctx), w.extf)
  | .barQuad w => some (.quad (colOf e.ctx), w.extf)
  | .barStack w => some (.stack (stackOf e.ctx), w.extf)
  | .barPkg w => some (.pkg, w.extf)
  | .barPod w => some (s.podNet (s.ctx e.ctx).part, w.extf)
  | _ => none

/-! Copies. -/

/-- Words 0 and 1 of list entry `i` (R260), read from the image of the list tile. -/
def State.listEntry (s : State) (w : Who) (t : Tile) (h i : Nat) : State × Fetch (Nat × Nat) :=
  if t.imageLen < 16 * i + 16 then (s, .operand 0x0705 i)
  else
    fbind (fmapM (fun s k => s.engTile w t h (t.imageOff (16 * i + k)) 1) (upto 16) s) fun s bs =>
      let n := ofBytes bs.flatten
      let w0 := n % 2 ^ 64
      let w1 := n / 2 ^ 64
      let ok : Bool := if bit w0 63 then bits w0 61 40 = 0 && bits w1 9 8 = 0 else bits w0 62 56 = 0 && w1 = 0
      if ok then (s, .ok (w0, w1)) else (s, .operand 0x0705 i)

/-- A copy begins with its tiles and items, or fails as its check says (R369). -/
def State.beginPlan (s : State) (e : ECmd) (p : Plan) : State :=
  match p with
  | .error (sub, k, a) => s.doneCmd e.id (some (s.failRec e sub k a))
  | .ok (ts, n) =>
    let w := s.newWait
    w.2.updCmd e.id fun f => { f with begun := true, wait := w.1, tiles := ts, todo := upto n }

/-- An MCAST begins: its list is read (R260). -/
def State.beginMcast (s : State) (e : ECmd) : State :=
  if e.opc = 0 ∨ 64 < e.opc then s.failCmd e 0x0705 0
  else
    match s.tileOf e e.opa, s.tileOf e e.opb with
    | some l, some t =>
      match fmapM (fun s i => s.listEntry (s.whoCmd e) l e.opa i) (upto e.opc) s with
      | (s, .ok ds) =>
        let w := s.newWait
        w.2.updCmd e.id fun f =>
          { f with begun := true, wait := w.1, tiles := [l.id, t.id], dests := ds, todo := upto (e.opc * (t.rows * t.cols)) }
      | (s, .xlate k a) => s.failXlate e k a
      | (s, .operand k a) => s.failCmd e k a
      | (s, .wait) => s
      | (s, .dead) => s
    | none, _ => s.failCmd e 0x0701 e.opa
    | _, none => s.failCmd e 0x0701 e.opb

/-- The contexts of a core reserved for a handler address in a partition (R65). -/
def State.handlersAt (s : State) (part core addr : Nat) : List Nat :=
  ((upto 4).map (4 * core + ·)).filter fun c =>
    let x := s.ctx c
    x.part = part && !(x.st = .empty || x.st = .retired || x.st = .claimed || x.st = .saving) &&
      (match s.quire x.quire with
        | some q => lKind q.letter = 1 && lEntry q.letter = addr && q.st = .running
        | none => false)

/-- The one that takes an arrival: one that is DORMANT with nothing waiting, else one with a place in its queue, of several the
lowest-numbered (log 83). -/
def State.handlerAt (s : State) (part core addr : Nat) : Option Nat :=
  let l := s.handlersAt part core addr
  let idle := fun c => (s.ctx c).st = .dormant && (s.ctx c).arrivals.isEmpty
  let room := fun c => decide ((s.ctx c).arrivals.length < 16)
  (findFirst idle l).orElse fun _ => (findFirst room l).orElse fun _ => l.head?

/-- The arrival a COPYH presents once its copy is written (R65, R262): accepted, refused, or waiting for a place. A dismissed
handler that is still busy accepts it, and drops it when it retires (DESIGN CHOICE, log 95). -/
def State.present (s : State) (e : ECmd) : State :=
  let w := s.whoCmd e
  match fmapM (fun s k => s.engVa w (e.opc + 8 * k) 8) [0, 1] s with
  | (s, .xlate k a) => s.failXlate e k a
  | (s, .operand k a) => s.failCmd e k a
  | (s, .wait) => s
  | (s, .dead) => s
  | (s, .ok ws) =>
    let w0 := ofBytes (ws.getD 0 [])
    let core := bits w0 62 56
    let part := (s.ctx e.ctx).part
    if bit w0 63 || !bit (s.part part).cols (core / 4) then s.failCmd e 0x0709 e.opc
    else
      match s.handlerAt part core (w0 % 2 ^ 56) with
      | none => s.failCmd e 0x0709 e.opc
      | some c =>
        let x := s.ctx c
        let room := if x.st = .dormant then 17 else 16
        if room ≤ x.arrivals.length then s
        else
          let len := match e.tiles.map s.tile with | some t :: _ => t.imageLen | _ => 0
          let a : Arrival := { arg := ofBytes (ws.getD 1 []), len := len, sender := e.ctx, cmd := e.id }
          (s.updCtx c fun x => { x with arrivals := x.arrivals ++ [a] }).doneCmd e.id none

/-- A copy, MCAST or COPYH goes on: it moves units, and ends when all are written (R253, R260, R262). -/
def State.stepCopy (s : State) (e : ECmd) : State :=
  let s := s.moveSome e
  match s.cmd e.id with
  | none => s
  | some e =>
    if e.acted then s
    else
      match e.op with
      | .copyh _ =>
        let s := s.sendOff e
        match s.cmd e.id with
        | some e =>
          if !s.moved e then s
          else if e.fails.isEmpty then s.present e
          else s.doneCmd e.id (s.maskRec e)
        | none => s
      | _ => s.finishUnits e

/-- A waiting handler starts on the first arrival of its queue (R65): its state is that of a claim (R50), with the
argument, the length and the sender, at the level its address gives (R332). -/
def Ctx.startHandler (x : Ctx) (entry : Nat) (lvl : Level) (a : Arrival) : Ctx :=
  { st := .ready, pc := entry, level := lvl,
    s := tset 0 (tset 0 (tset 0 [] 1 (BitVec.ofNat 64 a.arg)) 2 (BitVec.ofNat 64 a.len)) 3 (BitVec.ofNat 64 a.sender),
    owner := x.owner, quire := x.quire, member := x.member, members := x.members, part := x.part, tenant := x.tenant,
    stop := x.stop, breaches := x.breaches, narrows := x.narrows, lastres := x.lastres, buckets := x.buckets, born := x.born,
    arrivals := x.arrivals.tail, dismissed := x.dismissed }

/-- Gives up every accumulator tile and latch that a context holds. -/
def State.dropGrants (s : State) (c : Nat) : State :=
  let k := s.core (coreOf c)
  let s := (k.accs.filter fun a => a.2.holder = some c).foldl (fun s a => s.freeGen (genAcc (coreOf c) a.1)) s
  let s := (k.lats.filter fun l => l.2.holder = some c).foldl (fun s l => s.freeGen (genLat (coreOf c) l.1)) s
  s.updCore (coreOf c) fun k =>
    { k with accs := k.accs.filter (fun a => !(a.2.holder = some c)), lats := k.lats.filter fun l => !(l.2.holder = some c) }

/-- A context that starts enters the object at its address (R168), and takes a TARGET fault where no bundle of a sealed object
begins (R165). -/
def State.checkStart (s : State) (c : Nat) : State :=
  let s := (s.strikeCode (.ctx c none) (s.ctx c).part (s.ctx c).tenant (s.ctx c).pc).enter c
  let x := s.ctx c
  match (if x.st = .ready then s.targetErr c x.pc false false else none) with
  | some k => s.takeFault c { cls := 3, code := k.1, adr := x.pc, pc := x.pc } true
  | none => s

/-- ENTRY of the letter of a context's quire. -/
def State.entryOf (s : State) (c : Nat) : Nat :=
  match s.quire (s.ctx c).quire with | some q => lEntry q.letter | none => 0

/-- Is a handler waiting with an arrival, and its core in no breach freeze (R65, R118)? -/
def State.wakeable (s : State) (c : Nat) : Bool :=
  let x := s.ctx c
  x.st = .dormant && !x.dismissed && !x.arrivals.isEmpty && (s.core (coreOf c)).breach.isNone

/-- The host page that the checks of a handler's entry wait for (R312). -/
def State.wakeWants (s : State) (c : Nat) : Option Nat := s.codeWants (s.ctx c).part (s.ctx c).tenant (s.entryOf c)

/-- HANDLER_ARRIVAL (R65): a DORMANT handler with an arrival enters READY. -/
def execHandlerArrival (c : Nat) (s : State) : Out :=
  let x := s.ctx c
  match x.arrivals with
  | [] => .next s
  | a :: _ =>
    if x.st = .dormant && !x.dismissed then
      let entry := s.entryOf c
      .next (((s.dropGrants c).setCtx c (x.startHandler entry (s.startLevel x.part x.tenant entry) a)).checkStart c)
    else .next s

/-- A DORMANT handler with an arrival. -/
def State.arrivalDue (s : State) : Option Nat :=
  (findFirst (fun e => e.2.st = .dormant && !e.2.dismissed && !e.2.arrivals.isEmpty) s.ctxs).map Prod.fst

/-! Accumulate-on-write. -/

/-- An accumulate-on-write begins (R263): a fetching form looks its tile and row up first. -/
def State.beginAcw (s : State) (e : ECmd) (fetches : Bool) : State :=
  let start := fun (s : State) (ts : List Nat) =>
    let w := s.newWait
    w.2.updCmd e.id fun f => { f with begun := true, wait := w.1, tiles := ts }
  if !fetches then start s []
  else
    let h := e.imm.toNat % 256
    let r := e.imm.toNat / 256
    match s.tileOf e h with
    | none => s.failCmd e 0x0701 h
    | some t => if r < t.rows then start s [t.id] else s.failCmd e 0x0102 h

/-- An accumulate-on-write goes on (R159, R160, R263): its unit is updated, then a fetching form writes the old value. -/
def State.stepAcw (s : State) (e : ECmd) (c : Nat) (fetches : Bool) : State :=
  let w := s.whoCmd e
  let u := (acwTy c).bytes
  if !e.served then
    match s.acwUnit w e.opa u fetches (fun old => acwNew c old e.opb e.opc) with
    | (s, .ok old) =>
      match e.tiles with
      | id :: _ =>
        let r := e.imm.toNat / 256
        let p := match s.tile id with | some t => t.pitch | none => 0
        s.updCmd e.id fun f =>
          { f with served := true, rest := [{ dst := .tile id (e.imm.toNat % 256) (r * p), data := toBytes u old }] }
      | [] => s.doneCmd e.id none
    | (s, .xlate k a) => s.failXlate e k a
    | (s, .operand k a) => s.failCmd e k a
    | (s, .wait) => s
    | (s, .dead) => s
  else if fetches && !e.rest.isEmpty then s.writeOne w e 0
  else s.finishUnits e

/-! LAUNCH, RACQ, RREL. -/

/-- A LAUNCH goes on (R45, R46, R266): it reads its letter, which is checked, and enters it when its queue has a place.
Of several that wait for one queue, the first of the command list takes the place that frees (log 92). -/
def State.stepLaunch (s : State) (e : ECmd) : State :=
  let x := s.ctx e.ctx
  match e.letter with
  | some l => if s.hasPlace x.part l then (s.pushLetter x.part l).doneCmd e.id none else s
  | none =>
    match s.engVa (s.whoCmd e) e.opa 64 with
    | (s, .ok b) =>
      let l := lSetTenant (BitVec.ofNat 512 (ofBytes b)) x.tenant
      match s.letterWants x.part l with
      | some p => s.askHost p
      | none =>
      let s := s.strikeCode (.cmd e.id) x.part (lTenant l) (lEntry l)
      if (s.cmd e.id).isNone then s
      else if s.letterOk x.part l then s.updCmd e.id fun f => { f with letter := some l }
      else (s.count x.part 7).failCmd e 0x070D e.opa
    | (s, .xlate k a) => s.failXlate e k a
    | (s, .operand k a) => s.failCmd e k a
    | (s, .wait) => s
    | (s, .dead) => s

/-- The entry of a range that a command names by base and length, among those of its tenant (R266, R388). -/
def State.namedRange (s : State) (e : ECmd) : Option (Nat × Range) :=
  let x := s.ctx e.ctx
  (s.part x.part).ranges.findSome? fun r => match r.2 with
    | some z => if z.tenant = x.tenant && z.base = e.opa && z.len = e.opb then some (r.1, z) else none
    | none => none

/-- The virtual pages of 64 KiB of a range. -/
def Range.pages (z : Range) : List Nat := (upto (z.len / 65536)).map fun i => z.base + 65536 * i

/-- The first lines of the 64 KiB pages that a tenant's range maps, or the host page that their walk waits for (R312). -/
def State.rangePages (s : State) (part : Nat) (z : Range) : List Nat → Walk (List Nat)
  | [] => .ok []
  | va :: l =>
    match s.walkOwn part z.tenant va, s.rangePages part z l with
    | .wait p, _ => .wait p
    | .ok t, .ok ps => .ok (if t.remote.isSome then ps else (t.pa + va % 2 ^ t.size) / 128 :: ps)
    | _, r => r

/-- Does a line lie in one of the pages? -/
def inPages (ps : List Nat) (line : Nat) : Bool := ps.any fun p => decide (p ≤ line ∧ line < p + 512)

/-- Sets the holder of a range. -/
def State.setHolder (s : State) (part i : Nat) (z : Range) (device : Bool) : State :=
  s.updPart part fun q => { q with ranges := tset none q.ranges i (some { z with device := device }) }

/-- Writes back the dirty lines of pages from a partition's slices, which keep them clean (R266). -/
def State.cleanPages (s : State) (part : Nat) (ps : List Nat) : State :=
  let s := s.strikeFrames part fun sl y => (s.part part).slices.contains sl && inPages ps y.line
  s.l2.foldl (fun s e =>
    if (s.part part).slices.contains (e.1 / 64) then
      e.2.ways.foldl (fun s w => match w.2 with
        | some y =>
          if y.dirty && s.wayLive part (some y) && inPages ps y.line then
            let s := s.writeBack part (some y)
            let x := s.l2set e.1
            s.setL2 e.1 { x with ways := tset none x.ways w.1 (some { y with dirty := false }) }
          else s
        | none => s) s
    else s) s

/-- RACQ or RREL begins with the entry that names its range then (R266, R388). -/
def State.beginRange (s : State) (e : ECmd) : State :=
  match s.namedRange e with
  | none => s.failCmd e 0x070E e.opa
  | some r =>
    let w := s.newWait
    w.2.updCmd e.id fun f => { f with begun := true, wait := w.1, range := some r }

/-- The entry a begun RACQ or RREL named, as the table holds it now, or as it stood if an RNGSET has replaced it since (R388). -/
def State.begunRange (s : State) (part i : Nat) (z : Range) : Range :=
  match tget none (s.part part).ranges i with
  | some y => if { y with device := z.device } = z then y else z
  | none => z

/-- RACQ and RREL go on (R266): the host's copies of the range, or the slices' dirty lines, go, and the holder changes if the table
still holds the entry. -/
def State.stepRange (s : State) (e : ECmd) (acquire : Bool) : State :=
  let part := (s.ctx e.ctx).part
  match e.range with
  | none => s
  | some (i, z0) =>
    let z := s.begunRange part i z0
    if z.device == acquire then s.doneCmd e.id none
    else
      match s.rangePages part z z.pages with
      | .wait p => s.askHost p
      | .err _ => s
      | .ok ps =>
        let fin := fun (s : State) =>
          let s := s.useAsks (z.pages.flatMap (s.walkAsks part z.tenant))
          (if tget none (s.part part).ranges i = some z then s.setHolder part i z acquire else s).doneCmd e.id none
        if acquire then
          let l := s.pkg.hostHas.filter (inPages ps)
          if l.isEmpty then fin s
          else s.updPkg fun k => { k with snoops := k.snoops ++ l.filter fun x => !k.snoops.contains x }
        else fin (s.cleanPages part ps)

/-! Becoming ready, beginning, going on. -/

/-- The failure that a command inherits from the tokens it consumes, in the order of its fields (R342). -/
def State.inherited (s : State) (e : ECmd) : Option Rec := e.kins.findSome? (s.prodFail e.ctx)

/-- Commands whose last consumed token has completed become ready, in ascending context number (R250). -/
def State.readyCmds (s : State) : State :=
  let l := s.cmds.filter fun e => !e.nop && e.ready = 0 && !(e.kins.any (s.prodBusy e.ctx))
  let l := sortBy (fun a b => decide (a.ctx < b.ctx) || (a.ctx = b.ctx && decide (a.id < b.id))) l
  l.foldl (fun s e =>
    let n := s.newSerial
    let f := s.inherited e
    n.2.updCmd e.id fun g => { g with ready := n.1, fail := f }) s

/-- Copy engines of a quad that are taken. -/
def State.copiesOf (s : State) (quad : Nat) : Nat :=
  (s.cmds.filter fun e => isCopy e.op && e.begun && !e.acted && colOf e.ctx = quad).length

/-- A command begins at its engine (R250, R369). -/
def State.beginCmd (s : State) (e : ECmd) : State :=
  let go := fun (_ : Unit) =>
    let w := s.newWait
    w.2.updCmd e.id fun f => { f with begun := true, wait := w.1 }
  match s.barNet e with
  | some (n, ext) => s.arrive e n e.opa (if ext then e.opc else e.opb)
  | none =>
    match e.fail with
    | some r => s.doneCmd e.id (some r)
    | none =>
      if isTm e.op then
        match e.tmHandles.find? fun h => (s.tileOf e h).isNone with
        | some h => s.failCmd e 0x0701 h
        | none =>
          let ts := e.tmHandles.filterMap fun h => (s.tileOf e h).map Tile.id
          ((go ()).updCmd e.id fun f => { f with tiles := ts }).updQuad (colOf e.ctx) fun q => { q with tmQ := q.tmQ ++ [e.id] }
      else if isSm e.op then (go ()).updQuad (colOf e.ctx) fun q => { q with smQ := q.smQ ++ [e.id] }
      else
        match acwOf e.op with
        | some (_, f) => s.beginAcw e f
        | none =>
          match e.op with
          | .copyMemToTile _ => s.beginPlan e (s.planTile e)
          | .copyTileToMem _ => s.beginPlan e (s.planTile e)
          | .copyh _ => s.beginPlan e (s.planTile e)
          | .copyTileToTile _ => s.beginPlan e (s.planTiles e)
          | .copyMemToMem _ => s.beginPlan e (planMem e)
          | .mcast _ => s.beginMcast e
          | .talloc _ => s.beginTalloc e
          | .tfree _ => s.beginTfree e
          | .racq _ => s.beginRange e
          | .rrel _ => s.beginRange e
          | _ => go ()

/-- Begins the commands that are ready, in order; a copy waits for one of its quad's two engines (R250). -/
def State.beginCmds (s : State) : State :=
  let l := sortBy (fun a b => decide (a.ready < b.ready)) (s.cmds.filter fun e => !(e.ready = 0) && !e.begun)
  l.foldl (fun s e => if isCopy e.op && e.fail.isNone && decide (2 ≤ s.copiesOf (colOf e.ctx)) then s else s.beginCmd e) s

/-- A command that has begun goes on. -/
def State.stepCmd (s : State) (id : Nat) : State :=
  match s.cmd id with
  | none => s
  | some e =>
    if !e.begun || e.acted || decide (s.cycle < e.wait) then s
    else
      match acwOf e.op with
      | some (c, f) => s.stepAcw e c f
      | none =>
        if isCopy e.op then s.stepCopy e
        else
          match e.op with
          | .tfree _ => s.stepTfree e
          | .launch _ => s.stepLaunch e
          | .racq _ => s.stepRange e true
          | .rrel _ => s.stepRange e false
          | _ => s

/-- One scheduler cycle of every engine: commands step in their order of issue, so the first takes a place that several wait
for (DESIGN CHOICE, log 92). -/
def State.engines (s : State) : State :=
  let s := s.readyCmds.beginCmds
  let s := (s.cmds.map ECmd.id).foldl State.stepCmd s
  let s := (s.quads.map Prod.fst).foldl (fun s q => (s.tmStep q).smStep q) s
  (s.parts.map Prod.fst).foldl State.unpark s

/-! The commands. -/

/-- A copy under a shape handle captures its record as it issues, an armed error in the entry striking first (R256, R385). -/
def State.enqueueCopy (s : State) (r : Run) : State :=
  let s := match r.f.flds with
    | [_, _, _] => s.strikeUnit (.ctx r.c (some r.opInfo)) 10 (bits (r.src 2) 27 26) (r.src 2 % 1024)
    | _ => s
  s.enqueueWith r false (s.captureShape r) []

/-- COPY hD, [sS] (R252, R259). -/
def execCopyMemToTile (w : EW) (s : State) : Out := s.runOp (.copyMemToTile w) State.enqueueCopy State.enqueueNop
/-- COPY [sD], hS (R252, R259). -/
def execCopyTileToMem (w : EW) (s : State) : Out := s.runOp (.copyTileToMem w) State.enqueueCopy State.enqueueNop
/-- COPY hD, hS (R252). -/
def execCopyTileToTile (w : EW) (s : State) : Out := s.runOp (.copyTileToTile w) State.enqueue State.enqueueNop
/-- COPY [sD], [sS], sN (R252). -/
def execCopyMemToMem (w : EW) (s : State) : Out := s.runOp (.copyMemToMem w) State.enqueue State.enqueueNop
/-- MCAST (R260). -/
def execMcast (w : EW) (s : State) : Out := s.runOp (.mcast w) State.enqueue State.enqueueNop
/-- COPYH (R262). -/
def execCopyh (w : EW) (s : State) : Out := s.runOp (.copyh w) State.enqueue State.enqueueNop
/-- TALLOC (R265). -/
def execTalloc (w : EW) (s : State) : Out := s.runOp (.talloc w) State.enqueue State.enqueueNop
/-- TFREE (R265). -/
def execTfree (w : EW) (s : State) : Out := s.runOp (.tfree w) State.enqueue State.enqueueNop
/-- LAUNCH (R266). -/
def execLaunch (w : EW) (s : State) : Out := s.runOp (.launch w) State.enqueue State.enqueueNop
/-- RACQ (R266). -/
def execRacq (w : EW) (s : State) : Out := s.runOp (.racq w) State.enqueue State.enqueueNop
/-- RREL (R266). -/
def execRrel (w : EW) (s : State) : Out := s.runOp (.rrel w) State.enqueue State.enqueueNop
/-- BAR.core (R264). -/
def execBarCore (w : EW) (s : State) : Out := s.runOp (.barCore w) State.enqueue State.enqueueNop
/-- BAR.quad (R264). -/
def execBarQuad (w : EW) (s : State) : Out := s.runOp (.barQuad w) State.enqueue State.enqueueNop
/-- BAR.stack (R264). -/
def execBarStack (w : EW) (s : State) : Out := s.runOp (.barStack w) State.enqueue State.enqueueNop
/-- BAR.pkg (R264). -/
def execBarPkg (w : EW) (s : State) : Out := s.runOp (.barPkg w) State.enqueue State.enqueueNop
/-- BAR.pod (R264). -/
def execBarPod (w : EW) (s : State) : Out := s.runOp (.barPod w) State.enqueue State.enqueueNop
/-- ACW.add (R263). -/
def execAcwAdd (t : AcwType) (w : EW) (s : State) : Out := s.runOp (.acwAdd t w) State.enqueue State.enqueueNop
/-- ACW.min (R263). -/
def execAcwMin (t : AcwType) (w : EW) (s : State) : Out := s.runOp (.acwMin t w) State.enqueue State.enqueueNop
/-- ACW.max (R263). -/
def execAcwMax (t : AcwType) (w : EW) (s : State) : Out := s.runOp (.acwMax t w) State.enqueue State.enqueueNop
/-- ACW.and (R263). -/
def execAcwAnd (t : AcwWidth) (w : EW) (s : State) : Out := s.runOp (.acwAnd t w) State.enqueue State.enqueueNop
/-- ACW.or (R263). -/
def execAcwOr (t : AcwWidth) (w : EW) (s : State) : Out := s.runOp (.acwOr t w) State.enqueue State.enqueueNop
/-- ACW.xor (R263). -/
def execAcwXor (t : AcwWidth) (w : EW) (s : State) : Out := s.runOp (.acwXor t w) State.enqueue State.enqueueNop
/-- ACW.swap (R263). -/
def execAcwSwap (t : AcwWidth) (w : EW) (s : State) : Out := s.runOp (.acwSwap t w) State.enqueue State.enqueueNop
/-- ACW.cas (R263). -/
def execAcwCas (t : AcwWidth) (w : EW) (s : State) : Out := s.runOp (.acwCas t w) State.enqueue State.enqueueNop
/-- ACWF.add (R263). -/
def execAcwfAdd (t : AcwType) (w : EW) (s : State) : Out := s.runOp (.acwfAdd t w) State.enqueue State.enqueueNop
/-- ACWF.min (R263). -/
def execAcwfMin (t : AcwType) (w : EW) (s : State) : Out := s.runOp (.acwfMin t w) State.enqueue State.enqueueNop
/-- ACWF.max (R263). -/
def execAcwfMax (t : AcwType) (w : EW) (s : State) : Out := s.runOp (.acwfMax t w) State.enqueue State.enqueueNop
/-- ACWF.and (R263). -/
def execAcwfAnd (t : AcwWidth) (w : EW) (s : State) : Out := s.runOp (.acwfAnd t w) State.enqueue State.enqueueNop
/-- ACWF.or (R263). -/
def execAcwfOr (t : AcwWidth) (w : EW) (s : State) : Out := s.runOp (.acwfOr t w) State.enqueue State.enqueueNop
/-- ACWF.xor (R263). -/
def execAcwfXor (t : AcwWidth) (w : EW) (s : State) : Out := s.runOp (.acwfXor t w) State.enqueue State.enqueueNop
/-- ACWF.swap (R263). -/
def execAcwfSwap (t : AcwWidth) (w : EW) (s : State) : Out := s.runOp (.acwfSwap t w) State.enqueue State.enqueueNop
/-- ACWF.cas (R263). -/
def execAcwfCas (t : AcwWidth) (w : EW) (s : State) : Out := s.runOp (.acwfCas t w) State.enqueue State.enqueueNop

end Sys2Proof.Machine
end

