-- ==== Sys2Proof/Machine/Boot.lean ====
section
/-! DEFINITION. What the firmware enables when it sets BOOT to running (R325). -/

namespace Sys2Proof.Machine

open Sys2Proof

/-- Partition 0 as the firmware enables it (R325): column 0, slices 0 to 31, channels 0 to 7, owner 0 with the header
0x8000_0000_0000_E000, and tenant 0. -/
def State.bootPart0 (s : State) : State :=
  let s := s.updPart 0 fun p =>
    let t : Tenant := { tget ({} : Tenant) p.tenants 0 with en := true, slice := 0xFFFFFFFF }
    { p with en := true, cols := 1, slices := List.range 32, chans := List.range 8, tenants := tset {} p.tenants 0 t }
  s.setOwner 0 { hdr := 0x800000000000E000, part := some 0 }

end Sys2Proof.Machine
end

