-- ==== Sys2Proof/Machine/Matrix.lean ====
section
/-! DEFINITION. The forms of slot M (R227 to R243): grants, accumulator tiles and latches, the issue of a matrix call, the
rows and groups of its K-tiles (R98, R143, R241), its windows (R107), breaches (R117, R118, R358) and completion (R122). -/

namespace Sys2Proof.Machine

open Sys2Proof

/-! Accumulator tiles and latches. -/

/-- Accumulator tile `a` of a core. -/
def State.acc (s : State) (core a : Nat) : AccTile := tget {} (s.core core).accs a
/-- Replaces an accumulator tile. -/
def State.setAcc (s : State) (core a : Nat) (x : AccTile) : State :=
  s.updCore core fun k => { k with accs := tset {} k.accs a x }
/-- Latch `l` of a core. -/
def State.latchT (s : State) (core l : Nat) : LatchT := tget {} (s.core core).lats l
/-- Replaces a latch. -/
def State.setLatch (s : State) (core l : Nat) (x : LatchT) : State :=
  s.updCore core fun k => { k with lats := tset {} k.lats l x }

/-- An accumulator tile is granted, and reads as zero (R76, R121). -/
def State.grantAcc (s : State) (c a : Nat) : State :=
  (s.setAcc (coreOf c) a { holder := some c }).bumpGen (genAcc (coreOf c) a)
/-- An accumulator tile is released. -/
def State.releaseAcc (s : State) (core a : Nat) : State := (s.setAcc core a {}).freeGen (genAcc core a)
/-- A latch is granted. -/
def State.grantLat (s : State) (c l : Nat) : State :=
  (s.setLatch (coreOf c) l { holder := some c }).bumpGen (genLat (coreOf c) l)
/-- A latch is released. -/
def State.releaseLat (s : State) (core l : Nat) : State := (s.setLatch core l {}).freeGen (genLat core l)

/-- The window of a form that writes an accumulator tile or latch (R228). -/
def State.window (s : State) (r : Run) (cls : Cls) (n : Nat) : State := s.land r.c r.f.slot cls n r.f.lat none 0

/-- ACCGET (R228): a tile the context holds already stays as it is. -/
def execAccget (w : MW) (s : State) : Out :=
  s.runOp (.accget w) fun s r =>
    if s.holdsAcc r.c w.tgt.toNat then s else (s.grantAcc r.c w.tgt.toNat).window r .a w.tgt.toNat

/-- ACCPUT (R228). -/
def execAccput (w : MW) (s : State) : Out :=
  s.runOp (.accput w) fun s r => (s.releaseAcc (coreOf r.c) w.tgt.toNat).window r .a w.tgt.toNat

/-- ACCCLR (R229): every value and the postmark become zero. -/
def execAccclr (w : MW) (s : State) : Out :=
  s.runOp (.accclr w) fun s r =>
    (s.setAcc (coreOf r.c) w.tgt.toNat { holder := some r.c }).window r .a w.tgt.toNat

/-- A read of an accumulator tile meets an armed error in it (R385). -/
def State.strikeAcc (s : State) (r : Run) (a : Nat) : State := s.strikeUnit (.ctx r.c (some r.opInfo)) 7 (coreOf r.c) a

/-- ACCMOV (R229): values and postmark. -/
def execAccmov (w : MW) (s : State) : Out :=
  s.runOp (.accmov w) fun s r =>
    let s := s.strikeAcc r w.src1.toNat
    (s.setAcc (coreOf r.c) w.tgt.toNat { s.acc (coreOf r.c) w.src1.toNat with holder := some r.c }).window r .a w.tgt.toNat

/-- LATGET (R228). -/
def execLatget (w : MW) (s : State) : Out :=
  s.runOp (.latget w) fun s r =>
    if s.holdsLat r.c w.tgt.toNat then s else (s.grantLat r.c w.tgt.toNat).window r .l w.tgt.toNat

/-- LATPUT (R228). -/
def execLatput (w : MW) (s : State) : Out :=
  s.runOp (.latput w) fun s r => (s.releaseLat (coreOf r.c) w.tgt.toNat).window r .l w.tgt.toNat

/-- The lanes ACCRD reads (R230): four rows from 4q on, or the postmark. -/
def accLanes (t : AccTile) (q : Nat) : VReg :=
  buildV 32 fun i =>
    if bit q 4 then (if i = 0 then t.pm.toNat % 2 ^ 32 else if i = 1 then t.pm.toNat / 2 ^ 32 else 0)
    else (tget 0 t.vals (64 * (4 * (q % 16)) + i)).toNat

/-- ACCRD (R230). -/
def execAccrd (w : MW) (s : State) : Out :=
  s.runOp (.accrd w) fun s r =>
    let s := s.strikeAcc r w.src1.toNat
    s.result r.c r.f .v (accLanes (s.acc (coreOf r.c) w.src1.toNat) (r.src 1)).toNat

/-- What a LATLD or ACCST captures of its descriptor's set (R232). -/
def Run.matEntry (r : Run) (d : Nat) (t : AccTile) : MatEntry :=
  { ag := tget 0 r.x.ag (dAg d), tiles := r.x.tiles, vals := t.vals, pm := t.pm }

/-- ACCST (R235, R236): one entry of the store queue; the tile is a source for 16 cycles. -/
def execAccst (w : MW) (s : State) : Out :=
  s.runOp (.accst w) fun s r =>
    let s := s.strikeAcc r w.tgt.toNat
    let n := s.newSerial
    let t := n.2.newWait
    let m := r.matEntry (r.src 0) (s.acc (coreOf r.c) w.tgt.toNat)
    let e := { r.entry s n.1 t.1 0 0 [] with data := w.tgt.toNat, mat := some m }
    let s := t.2.updCtx r.c fun x => { x with storeQ := x.storeQ ++ [e] }
    (if agMode m.ag then s.knowTile r.c e else s).land r.c r.f.slot .a w.tgt.toNat r.f.lat (some 0) n.1

/-- LATLD (R233, R234): one entry of the load queue; the latch is its destination. -/
def execLatld (w : MW) (s : State) : Out :=
  s.runOp (.latld w) fun s r =>
    let n := s.newSerial
    let t := n.2.newWait
    let e := { r.entry s n.1 t.1 r.f.lat 0 [] with data := w.tgt.toNat, mat := some (r.matEntry (r.src 0) {}) }
    (t.2.updCtx r.c fun x => { x with loadQ := x.loadQ ++ [e] }).land r.c r.f.slot .l w.tgt.toNat r.f.lat none n.1

/-! The postmark (R121, R122). -/

/-- Replaces bits [l + n - 1 : l] of a word. -/
def putBits (x l n v : Nat) : Nat := x - x / 2 ^ l % 2 ^ n * 2 ^ l + v % 2 ^ n * 2 ^ l

/-- The postmark at the issue of a call under owner `o` with header `h`. -/
def pmIssue (pm : Word) (o : Nat) (h : Word) : Word :=
  let p := pm.toNat
  BitVec.ofNat 64 <|
    if pmCount pm = 0 then putBits (putBits (putBits (putBits p 0 8 o) 8 2 (hLadder h)) 10 2 (hCeil h)) 12 2 (hFloor h)
    else putBits (putBits p 10 2 (min (bits p 11 10) (hCeil h))) 12 2 (max (bits p 13 12) (hFloor h))

/-- The postmark as a K-tile window opens at a rung. -/
def pmWindow (pm : Word) (r : Nat) : Word :=
  let p := pm.toNat
  let n := pmCount pm
  let p := if n < 16 then putBits p (16 + 2 * n) 2 r
    else if !bit p 53 then putBits (putBits p 54 2 r) 53 1 1
    else putBits p 54 2 (max (bits p 55 54) r)
  BitVec.ofNat 64 (putBits p 48 5 (min (n + 1) 31))

/-- The postmark as a call completes. -/
def pmDone (pm : Word) (late exhaust therm : Bool) : Word :=
  pm ||| BitVec.ofNat 64 (b2n late * 2 ^ 56 + b2n exhaust * 2 ^ 57 + b2n therm * 2 ^ 58)

/-! Issue (R238). -/

/-- Changes a call. -/
def State.updCall (s : State) (id : Nat) (f : Call → Call) : State := { s with calls := mapIf (fun k => k.id = id) f s.calls }
/-- The call of a serial number. -/
def State.call (s : State) (id : Nat) : Option Call := findFirst (fun k => k.id = id) s.calls

/-- MCALL (R238): the call issues and its routine begins. In the cycle of a tick it takes the contract the tick leaves (log 85). -/
def execMcall (w : MW) (s : State) : Out :=
  s.runOp (.mcall w) fun s r =>
    let core := coreOf r.c
    let s := (s.callLatches r).foldl (fun s l => s.strikeUnit (.ctx r.c (some r.opInfo)) 8 core l) (s.strikeAcc r w.tgt.toNat)
    let da := r.src 0
    let db := r.src 1
    let o := s.owner r.x.owner
    let e := r.routine s
    let t := s.acc core w.tgt.toNat
    let lc := tget 0 o.lat w.rout.toNat
    let n := s.newSerial
    let set := fun i => tget 0 r.x.ag i
    let k : Call :=
      { id := n.1, core := core, ctx := r.c, pc := r.k.h, opa := BitVec.ofNat 64 da, opb := BitVec.ofNat 64 db,
        acc := w.tgt.toNat, owner := r.x.owner, ladder := hLadder o.hdr, da := BitVec.ofNat 64 da,
        db := BitVec.ofNat 64 db, mp := (upto 8).map fun i => tget 0 r.x.m i, agA := set (dAg da), agB := set (dAg db),
        sgA := set (dScag da), sgB := set (dScag db), tiles := r.x.tiles, level := r.x.level, mode := w.mode.toNat,
        cap := w.cap.toNat, lat := lc, n := dNkt da + 1, depth := 4 * dTq da, c0 := s.now r.c, frz := 0, frzAt := 0,
        first := e % 1024, last := bits e 25 16, upc := e % 1024, words := 0, cnt := [dNkt da + 1, 0, 0, 0], kt := 0,
        kA := 0, kB := 0, trn := false, scA := dScen da, scB := dScen db, srcA := none, srcB := none, isOpen := false,
        waiting := false, ended := false, rung := 0, vals := t.vals, pm := pmIssue t.pm r.x.owner o.hdr, jobs := [],
        stopped := none, uses := [(0, core), (4, colOf r.c)], late := false, exhaust := false,
        therm := decide ((s.col (colOf r.c)).q < 8), latches := s.callLatches r }
    let s := { n.2 with calls := n.2.calls ++ [k], micro := some n.1 }
    s.land r.c r.f.slot .a w.tgt.toNat lc none n.1

/-! The end of a call. -/

/-- A call leaves: its tile's in-flight bit and its hold on latches end, and what it drew on stays counted for the window
(R111). -/
def State.dropCall (s : State) (k : Call) : State :=
  let us := k.uses.map fun u => (u.1, u.2, k.owner)
  let s := { s with calls := s.calls.filter fun j => !(j.id = k.id), micro := if s.micro = some k.id then none else s.micro,
                    users := s.users ++ us.filter fun u => !s.users.contains u }
  s.updCtx k.ctx fun x => { x with inflight := x.inflight.filter fun l => !(l.cls = .a && l.src = k.id) }

/-- A fault after issue of a call's context (R333, R343). -/
def State.callFault (s : State) (k : Call) (f : FaultInfo) : State :=
  s.faultLate k.ctx { k.info with cls := f.cls, code := f.code, adr := f.adr, sub := f.sub, tok := f.tok }

/-- A fault of a call's load pipe, which stops until TRET (R143, R365). An urgent stop that waits for the call gives way to it,
and stays pending (R344): the fault is taken at the cycle the context stopped in, with what was captured since. The call's reads
are loads that entered the queue at its issue (R243), so the loads and markers issued after it are held with them (R336). While the
handler of an earlier fault runs, the fault of a call issued before that one is not recorded; the pipe takes it afresh after TRET. -/
def State.pipeFault (s : State) (k : Call) (f : FaultInfo) : State :=
  if !(s.ctx k.ctx).records k.id then s
  else
    let s := s.callFault k f
    s.updCtx k.ctx fun x =>
      let x := match x.frz.urgent with
        | some u => { x with frz := { x.frz with urgent := none }, replay := x.replay ++ x.ucap, ucap := [] }.takeKept u
        | none => x
      match findFirst (fun e => decide (k.id < e.id)) x.loadQ with
      | some e => x.holdFrom true e.id (x.freezeCycle (s.now k.ctx))
      | none => x

/-- A call ends without effect, with a fault after issue (R357, R358). -/
def State.endCall (s : State) (k : Call) (f : FaultInfo) : State := (s.dropCall k).callFault k f

/-- The column cycle at which window `j` of a call opens, with the freezes so far (R107). -/
def Call.opens (k : Call) (j : Nat) : Nat := k.c0 + j * (k.lat / k.n) + k.frz

/-- The column cycle at which the window that opened last ends (R107). -/
def Call.closes (k : Call) : Nat :=
  if k.tileNo + 1 = k.n then k.c0 + k.lat + k.frz else k.c0 + (k.tileNo + 1) * (k.lat / k.n) + k.frzAt

/-- MATRIX_CALL_COMPLETE (R122, R242): at c0 + Lc + F the working values and the postmark reach the tile together. -/
def execMatrixCallComplete (call : Nat) (s : State) : Out :=
  match s.call call with
  | none => .next s
  | some k =>
    if k.ended && k.jobs.isEmpty && decide (k.c0 + k.lat + k.frz ≤ s.now k.ctx) then
      let t : AccTile := { s.acc k.core k.acc with vals := k.vals, pm := pmDone k.pm k.late k.exhaust k.therm }
      .next ((s.setAcc k.core k.acc t).dropCall k)
    else .next s

/-- The call whose completion cycle has come. -/
def State.callDue (s : State) : Option Nat :=
  (findFirst (fun k => k.ended && k.jobs.isEmpty && decide (k.c0 + k.lat + k.frz ≤ s.now k.ctx)) s.calls).map Call.id

/-! Values and groups (R96, R98, R109). -/

/-- `fmt_of(ladder, rung)` of Table 6.1, on ladder I under a plane cap (R96). -/
def inForce (ladder rung cap : Nat) (signed : Bool) : Ty :=
  match ladder with
  | 0 => .flt (match rung with | 0 => .f32 | 1 => .f16 | 2 => .e4m3 | _ => .e5m2)
  | 1 => .flt (match rung with | 0 => .f32 | 1 => .bf16 | _ => .e5m2)
  | _ =>
    let n := match rung with | 0 => 8 | 1 => 6 | 2 => 4 | _ => 2
    let m := match cap with | 0 => 8 | 1 => 6 | 2 => 4 | 3 => 3 | _ => 2
    .plane (min n m) signed

/-- The K-step of a format in force (Table 5.4). -/
def kStep : Ty → Nat
  | .flt .f32 => 1
  | .flt .f16 => 4
  | .flt .bf16 => 4
  | .flt _ => 8
  | .plane n _ => if 6 ≤ n then 8 else if 3 ≤ n then 16 else 32
  | .int _ _ => 1

/-- `narrow` (R40, R109): a stored element of a type as the array takes it in the format in force. -/
def narrow (force stored : Ty) (x : Nat) : Ext :=
  match force, stored with
  | .plane n _, .plane _ sg => Ext.ofDyadic (planeValue (extI sg 8 x) n) 0
  | .flt f, .flt g => decodeF f (rne f (decodeF g x))
  | _, _ => .zero false

/-- The products of a cell over a K-tile, padded with +0 to whole groups of `S` (R98). -/
def products (S : Nat) (a b : List Ext) : List Ext :=
  let p := (a.zip b).map fun e => e.1.mul e.2
  p ++ List.replicate (ceilDiv p.length S * S - p.length) (.zero false)

/-- The groups of a list. -/
def chunks (S : Nat) : Nat → List Ext → List (List Ext)
  | 0, _ => []
  | n + 1, l => l.take S :: chunks S n (l.drop S)

/-- `ktile` of R98 for one cell, in a mode: 0 F32, 1 SAT, 2 WRAP. -/
def ktile (mode S : Nat) (acc : BitVec 32) (a b : List Ext) : BitVec 32 :=
  let p := products S a b
  (chunks S (p.length / S) p).foldl (fun acc g =>
    if mode = 0 then BitVec.ofNat 32 (rne .f32 (exactSum (decodeF .f32 acc.toNat :: g)))
    else
      let sum := acc.toInt + (g.map toIntRne).foldl (· + ·) 0
      BitVec.ofInt 32 (if mode = 1 then satI32 sum else wrapI32 sum)) acc

/-- Column `j` of a list of rows. -/
def column (j : Nat) (rows : List (List Ext)) : List Ext := rows.map fun r => r.getD j .nan

/-- GROUPS on every active cell (R241). -/
def Job.apply (j : Job) (mode S : Nat) (vals : Tbl (BitVec 32)) : Tbl (BitVec 32) :=
  let cols := match j.rowsB with | r :: _ => r.length | [] => 0
  j.rowsA.zipIdx.foldl (fun vals a =>
    (upto cols).foldl (fun vals c =>
      let at_ := if j.trn then 64 * c + a.2 else 64 * a.2 + c
      tset 0 vals at_ (ktile mode S (tget 0 vals at_) a.1 (column c j.rowsB))) vals) vals

/-! Operand rows (R143). -/

/-- What one operand of a job needs: its descriptor, set, scale set, first index, source, and whether scales apply. -/
structure Opnd where
  b   : Bool
  d   : Nat
  ag  : BitVec 512
  sg  : BitVec 512
  k0  : Nat
  src : Source
  sc  : Bool
  deriving DecidableEq, Repr

/-- Operand A or B of a job. -/
def Call.opnd (k : Call) (j : Job) (b : Bool) : Opnd :=
  if b then ⟨true, k.db.toNat, k.agB, k.sgB, j.kB, j.srcB, j.scB⟩ else ⟨false, k.da.toNat, k.agA, k.sgA, j.kA, j.srcA, j.scA⟩

/-- Rows of an operand in a K-tile: A has NROW + 1 of T elements, B has T of NCOL + 1. -/
def Call.rowCount (k : Call) (b : Bool) : Nat := if b then k.depth else dNrow k.da.toNat + 1

/-- The grid elements of row `i` of an operand. -/
def Call.rowElems (k : Call) (o : Opnd) (i : Nat) : List (Nat × Nat) :=
  if o.b then (upto (dNcol o.d + 1)).map fun c => (o.k0 + i, c) else (upto k.depth).map fun c => (i, o.k0 + c)

/-- The latch an operand is read from, if it is. -/
def Opnd.latch (o : Opnd) : Option Nat :=
  match o.src with
  | .latch l => some l
  | .desc => if dKind o.d then some (dLatch o.d) else none
  | .fill _ => none

/-- The bytes of a stored element that leave its place after `narrow` (R109, R110). -/
def sentBytes (force : Ty) : Nat := match force with | .plane _ _ => 1 | t => t.bytes

/-- The accessor of a call's load pipes (R143, R243). -/
def State.whoCall (s : State) (k : Call) : Who :=
  { s.whoCtx k.ctx k.id k.level with reader := .ctx k.ctx (some k.info), owner := k.owner, call := k.id }

/-- The type that an operand is stored in. -/
def Opnd.ty (o : Opnd) : Ty := match dTy o.d with | some t => t | none => .flt .f32

/-- The format in force for an operand of a job (R96). -/
def Call.force (k : Call) (j : Job) (o : Opnd) : Ty :=
  inForce k.ladder j.rung k.cap (match o.ty with | .plane _ sg => sg | _ => false)

/-- The stored elements of row `i` of an operand, from its latch, or through its set after the units in `got` (R109, R111). -/
def State.rowVals (s : State) (k : Call) (j : Job) (o : Opnd) (i : Nat) (got : List (Int × Nat)) :
    State × Fetch (List Nat) × List (Int × Nat) :=
  let es := k.rowElems o i
  let u := o.ty.bytes
  match o.latch with
  | some l =>
    let bs := (s.latchT k.core l).bytes
    (s, .ok (es.map fun e => ofBytes (tgets 0 bs (if o.b then latchOff u e.2 e.1 else latchOff u e.1 e.2) u)), got)
  | none =>
    let f := k.force j o
    let n := match f with | .plane n _ => n | _ => 0
    s.gridFrom (s.whoCall k) ⟨o.ag, k.tiles, o.ty⟩ n (sentBytes f) es got

/-- Goes on from a read of units that gave its value. -/
def unitsBind {α β : Type} (r : State × Fetch α × List (Int × Nat)) (f : State → α → List (Int × Nat) → State × Fetch β × Job)
    (j : Job) (put : List (Int × Nat) → Job) : State × Fetch β × Job :=
  match r with
  | (s, .ok a, got) => f s a got
  | (s, .xlate c a, _) => (s, .xlate c a, j)
  | (s, .operand c a, _) => (s, .operand c a, j)
  | (s, .wait, got) => (s, .wait, put got)
  | (s, .dead, _) => (s, .dead, j)

/-- Reads row `i` of an operand as the array takes it, with its scales (R95, R109). A row whose bytes do not all arrive keeps
those that have, and none is asked for twice (R111, R143). -/
def State.readRow (s : State) (k : Call) (j : Job) (o : Opnd) (i : Nat) : State × Fetch (List Ext) × Job :=
  let force := k.force j o
  let es := k.rowElems o i
  match o.src with
  | .fill imm =>
    let x := match force with
      | .plane _ _ => narrow force o.ty (imm % 256)
      | f => narrow f (.flt .bf16) imm
    (s, .ok (es.map fun _ => x), j)
  | _ =>
    unitsBind (s.rowVals k j o i j.part) (fun s v got =>
      if o.sc then
        let width := if o.b then dNcol o.d + 1 else k.n * k.depth
        unitsBind (s.scaleFrom (s.whoCall k) o.sg k.tiles (dSch o.d) width es j.scales)
          (fun s q _ => (s, .ok ((v.zip q).map fun e => (decodeF .bf16 e.2).mul (narrow force o.ty e.1)), j)) j
          fun qs => { j with part := got, scales := qs }
      else (s, .ok (v.map (narrow force o.ty)), j)) j fun got => { j with part := got }

/-- Does an earlier load or marker of a call's context hold its reads back (R152, R243)? -/
def State.callHeld (s : State) (k : Call) : Bool := (s.ctx k.ctx).loadQ.any fun e => decide (e.id < k.id)

/-- The next row that a job's pipes fetch (R143): of A, then of B (DESIGN CHOICE, log 97). -/
def Call.nextRow (k : Call) (j : Job) : Option (Bool × Nat) :=
  if j.rowsA.length < k.rowCount false then some (false, j.rowsA.length)
  else if j.rowsB.length < k.rowCount true then some (true, j.rowsB.length)
  else none

/-- The longest time a row of an operand takes from when the pipes ask for it (R185, Table 9.28), an indirect dimension adding 12
cycles (R232). -/
def State.rowMax (s : State) (k : Call) (o : Opnd) (i : Nat) : Option Nat :=
  let w := s.whoCall k
  let g : Grid := ⟨o.ag, k.tiles, o.ty⟩
  match o.src, o.latch with
  | .fill _, _ => some 0
  | _, some _ => some 0
  | _, none =>
    match s.gridAll w g (k.rowElems o i) with
    | .error _ => some 0
    | .ok is =>
      let ps := is.flatMap fun e => (g.unitsOf 1 e).map Prod.fst
      let m :=
        if agMode o.ag then
          match s.handle { ({} : Ctx) with tiles := k.tiles } (agHandle o.ag) with
          | none => some 0
          | some t => maxMax ((lineStarts none (ps.map Int.toNat)).map fun p => s.tileMax w t.id p)
        else maxMax ((lineStarts none (ps.map fun p => wrapN p 64)).map fun p => s.unitMax w p)
      m.map (· + if agIEN o.ag then 12 else 0)

/-- The pipes ask for a job's next row, as for all of its rows when it begins: the column cycle before which it does not
arrive. -/
def State.askRow (s : State) (k : Call) (j : Job) : Nat × State :=
  match k.nextRow j with
  | some (b, i) => s.within k.ctx j.start (s.rowMax k (k.opnd j b) i)
  | none => (s.now k.ctx, s)

/-- The K-step of a job's format in force (Table 5.4). -/
def Call.step (k : Call) (j : Job) : Nat := kStep (inForce k.ladder j.rung k.cap false)

/-- A row of a job has arrived. With the last one its values are formed. -/
def Call.addRow (k : Call) (b : Bool) (r : List Ext) (wait : Nat) : Call :=
  match k.jobs with
  | j :: l =>
    let j : Job := { j with rowsA := if b then j.rowsA else j.rowsA ++ [r], rowsB := if b then j.rowsB ++ [r] else j.rowsB,
                            part := [], scales := [], wait := wait }
    if (k.nextRow j).isSome then { k with jobs := j :: l }
    else { k with vals := j.apply k.mode (k.step j) k.vals, jobs := { j with filled := true } :: l }
  | [] => k

/-- The load pipes of a call fetch the next row of its first job, A's rows before B's, when it has arrived. -/
def State.rowStep (s : State) (id : Nat) : State :=
  match s.call id with
  | none => s
  | some k =>
    match k.jobs with
    | [] => s
    | j :: l =>
      if k.stopped.isSome || decide (s.now k.ctx < j.wait) || s.callHeld k then s
      else
        match k.nextRow j with
        | none => s
        | some (b, i) =>
          match s.knowAll k.ctx k.id with
          | (s, false) => s
          | (s, true) =>
            match s.readRow k j (k.opnd j b) i with
            | (s, .ok r, _) =>
              let j' : Job := { j with rowsA := if b then j.rowsA else j.rowsA ++ [r], rowsB := if b then j.rowsB ++ [r] else j.rowsB }
              let w := s.askRow k j'
              w.2.updCall id fun k => k.addRow b r w.1
            | (s, .xlate c a, _) =>
              let o := k.opnd j b
              let z := s.gridCause (s.whoCall k) ⟨o.ag, k.tiles, o.ty⟩ 8 (k.rowElems o i) (c, a)
              let f : FaultInfo := { cls := 0x0B, code := z.1, adr := z.2 }
              let s := s.pipeFault k f
              s.updCall id fun q => { q with stopped := some (b, i, mkRec k.ctx (s.ctx k.ctx) f) }
            | (s, .operand c a, _) => s.endCall k { cls := 7, code := c, adr := a }
            | (s, .wait, j') => s.updCall id fun q => { q with jobs := j' :: l }
            | (s, .dead, _) => s.dropCall k

/-- Rows of a call that arrive in one cycle, at most `n` and no more than the open times let. -/
def State.rowSteps (s : State) (id : Nat) : Nat → State
  | 0 => s
  | n + 1 => (s.rowStep id).rowSteps id n

/-- The load pipes of every call in one cycle. -/
def State.pipes (s : State) : State :=
  s.calls.foldl (fun s k => s.rowSteps k.id (k.rowCount false + k.rowCount true)) s

/-! The array of a core (R117, R242). -/

/-- Does call `a` come before call `b` at the array? -/
def State.arrayBefore (s : State) (a b : Call) : Bool :=
  let ra := hRank (s.owner a.owner).hdr
  let rb := hRank (s.owner b.owner).hdr
  decide (a.closes < b.closes) || (a.closes = b.closes && (decide (rb < ra) || (ra = rb && decide (a.ctx < b.ctx))))

/-- Have the operands of the next group of a call's first job arrived (R242)? A group of K indices needs every row of A and
its own rows of B. -/
def Call.groupReady (k : Call) : Bool :=
  match k.jobs with
  | j :: _ =>
    let g := ceilDiv k.depth (k.step j) - j.left
    decide (0 < j.left) && decide (k.rowCount false ≤ j.rowsA.length) &&
      decide (min ((g + 1) * k.step j) k.depth ≤ j.rowsB.length)
  | [] => false

/-- The array of a core takes one group in a cycle of its column. -/
def State.arrayTake (s : State) (core : Nat) : State :=
  match sortBy s.arrayBefore (s.calls.filter fun k => k.core = core && k.groupReady) with
  | [] => s
  | k :: _ =>
    let s := (s.addDemand 0 core 1).addDemand 6 (core / 4) 1
    s.updCall k.id fun k => match k.jobs with
      | j :: l => { k with jobs := if j.left ≤ 1 then l else { j with left := j.left - 1 } :: l }
      | [] => k

/-- Has a group of a call missed its window (R117)? -/
def State.isLate (s : State) (k : Call) : Bool := !k.jobs.isEmpty && decide (k.closes ≤ s.now k.ctx)

/-- Is a breach's cause a pipe stopped at a fault of context `c` (R339)? That context is not frozen. -/
def State.spared (s : State) (core c : Nat) : Bool :=
  s.calls.any fun k => k.core = core && k.ctx = c && k.stopped.isSome && s.isLate k

/-- Freezes the contexts of a core that a breach freezes (R117, R118): those READY or BLOCKED, and one that is FROZEN already
stays so to its end. The context that runs its handler under R339 goes on. -/
def State.breachFreeze (s : State) (core : Nat) : State :=
  ((upto 4).map (4 * core + ·)).foldl (fun s c =>
    let x := s.ctx c
    if !(x.st = .ready || x.st = .blocked || x.st = .frozen) then s
    else if s.spared core c then s.setCtx c { x with frz := { x.frz with breach := false } }.thaw
    else s.setCtx c { x with st := .frozen, frz := { x.frz with breach := true } }) s

/-- Each call of a core suffers the freeze of a breach: its late bit, and one in BREACHES of its context, once for a call (R118). -/
def State.suffer (s : State) (core : Nat) : State :=
  s.calls.foldl (fun s k =>
    if k.core = core && !k.late then
      (s.updCall k.id fun k => { k with late := true }).updCtx k.ctx fun x => { x with breaches := min (x.breaches + 1) 65535 }
    else s) s

/-- BREACH_BEGIN (R117, R118): the core freezes; each call in flight there suffers it. -/
def execBreachBegin (core : Nat) (s : State) : Out :=
  if (s.core core).breach.isNone && s.calls.any (fun k => k.core = core && s.isLate k) then
    let s := s.updCore core fun k => { k with breach := some ⟨s.now (4 * core)⟩ }
    .next ((s.suffer core).breachFreeze core)
  else .next s

/-- The contexts a breach froze return (R117). -/
def State.breachThaw (s : State) (core : Nat) : State :=
  let s := s.updCore core fun k => { k with breach := none }
  ((upto 4).map (4 * core + ·)).foldl (fun s c =>
    let x := s.ctx c
    if x.frz.breach then s.setCtx c { x with frz := { x.frz with breach := false } }.thaw else s) s

/-- BREACH_END (R117): the late groups have entered. -/
def execBreachEnd (core : Nat) (s : State) : Out :=
  if (s.core core).breach.isSome && !s.calls.any (fun k => k.core = core && s.isLate k) then .next (s.breachThaw core)
  else .next s

/-- BREACH_TIMEOUT (R358): a freeze of 65,536 cycles ends the late calls, and the contexts return. -/
def execBreachTimeout (core : Nat) (s : State) : Out :=
  match (s.core core).breach with
  | none => .next s
  | some b =>
    if s.now (4 * core) < b.since + 65536 then .next s
    else
      let late := s.calls.filter fun k => k.core = core && s.isLate k
      let s := late.foldl (fun s k => s.endCall k { cls := 0x0A, code := 1, adr := k.tileNo % 32 + k.acc % 16 * 256 }) s
      .next (s.breachThaw core)

/-- One cycle of a breach freeze (R107, R111, R118): every call of the core is put off by it, one that
the handler of R339 issued among them, and it counts as demand. -/
def State.breachCycle (s : State) (core : Nat) : State :=
  if (s.core core).breach.isNone then s
  else
    let ids := (s.calls.filter fun k => k.core = core).map Call.id
    let s := s.suffer core
    let s := { s with calls := mapIf (fun k => k.core = core) (fun k => { k with frz := k.frz + 1 }) s.calls }
    let s := ((upto 4).map (4 * core + ·)).foldl (fun s c => s.updCtx c fun x =>
      { x with inflight := mapIf (fun l => l.cls = .a && ids.contains l.src) (fun l => { l with due := l.due + 1 }) x.inflight }) s
    s.addDemand 0 core 1

/-- A cycle of the cores of the columns that step: groups enter the array, and breaches grow. -/
def State.arrayCycle (s : State) (cores : List Nat) : State :=
  cores.foldl (fun s n => (s.breachCycle n).arrayTake n) s

end Sys2Proof.Machine
end

