-- ==== Sys2Proof/Machine/Governor.lean ====
section
/-! DEFINITION. The fidelity governor and the power budget (R105, R108, R111 to R116, R119, R321). -/

namespace Sys2Proof.Machine

open Sys2Proof

/-! Sensors (R10). -/

/-- A reading of a thermal sensor, in hundredths of a degree, that the manual leaves open. -/
def State.sense (s : State) : Int × State :=
  let a := s.newFree
  let b := a.2.newFree
  ((a.1 : Int) - (b.1 : Int), b.2)

/-- Every sensor takes a new reading. -/
def State.senseAll (s : State) : State :=
  (upto 32).foldl (fun s c =>
    let a := s.sense
    let b := a.2.sense
    b.2.setCol c { b.2.col c with t0 := a.1, t1 := b.1 }) s

/-- The temperature of a column (R10). -/
def State.temp (s : State) (c : Nat) : Int := max (s.col c).t0 (s.col c).t1

/-- Is a column at or above TLIM (R112)? -/
def State.hot (s : State) (c : Nat) : Bool := decide ((s.pkg.tlim : Int) ≤ s.temp c)

/-! Contract writes (R104, R105). -/

/-- A rung moved to the nearer bound of a contract that excludes it. -/
def clampRung (ceil floor r : Nat) : Nat := if r < ceil then ceil else if floor < r then floor else r

/-- The writes waiting for the tick take effect (R105): a contract that becomes valid, or changes its ladder, takes RUNG from
CEIL, and one that becomes valid has every way mask 0xFFFF (R136). -/
def Owner.applyPend (o : Owner) : Owner :=
  let lat := o.pendLat.foldl (fun t e => tset 0 t e.1 e.2) o.lat
  match o.pendHdr with
  | none => { o with lat := lat, pendLat := [] }
  | some h =>
    let r := if !hValid o.hdr || !(hLadder o.hdr = hLadder h) then hCeil h else clampRung (hCeil h) (hFloor h) (hRung o.hdr)
    let mask := 2 ^ 63 + 15 * 2 ^ 55 + 0xFF80
    { o with lat := lat, masks := if hValid o.hdr || !hValid h then o.masks else [], pendLat := [], pendHdr := none, hdr := hSetRung (BitVec.ofNat 64 (h.toNat &&& mask)) r }

/-! Instances (R111, R112, R114). -/

/-- The governed instances of a partition, by class and number (Table 6.5). -/
def Part.instances (p : Part) : List (Nat × Nat) :=
  let cols := (upto 32).filter fun c => bit p.cols c
  p.coreList.map (fun k => (0, k)) ++ cols.map (fun c => (1, c)) ++ p.slices.map (fun l => (2, l)) ++
    p.chans.map (fun h => (3, h)) ++ cols.map fun c => (4, c)

/-- The activity-counter estimate of a column in the window, in nJ (R111, class 4): its groups, bytes moved and accesses,
weighted by the coefficients of the part, in pJ (log 80). It never falls when a count grows. -/
def State.energy (s : State) (col : Nat) : Nat :=
  (Config.energyOf 0 * tget 0 s.demand (6 * 1024 + col) +
    Config.energyOf 1 * tget 0 s.demand (1024 + col) + Config.energyOf 2 * tget 0 s.demand (5 * 1024 + col)) / 1000

/-- Demand of an instance counted in the window. -/
def State.demandOf (s : State) (x : Nat × Nat) : Nat :=
  if x.1 = 4 then s.energy x.2 else tget 0 s.demand (1024 * x.1 + x.2)

/-- 256 times the demand of an instance with the synthetic demand of its partition's GOVLOAD (R114, Table 6.6). -/
def State.load256 (s : State) (part : Nat) (x : Nat × Nat) : Nat :=
  let g := (s.part part).govload.toNat
  256 * s.demandOf x + (if bit g 63 && bits g 62 60 = x.1 && bits g 49 40 = x.2 then g % 2 ^ 16 * s.supply x else 0)

/-- Is an instance over-demanded (R112)? -/
def State.isOver (s : State) (part : Nat) (x : Nat × Nat) : Bool :=
  decide (256 * s.supply x < s.load256 part x) || (x.1 = 4 && s.hot x.2)

/-- Is an instance quiet (R112)? -/
def State.isQuiet (s : State) (part : Nat) (x : Nat × Nat) : Bool :=
  decide (5 * s.load256 part x < 4 * (256 * s.supply x)) && !(x.1 = 4 && s.hot x.2)

/-- The owners that used instances in the window: those of calls that ended in it and of calls in flight (R111). -/
def State.windowUsers (s : State) : List (Nat × Nat × Nat) :=
  s.users ++ s.calls.flatMap fun k => k.uses.map fun u => (u.1, u.2, k.owner)

/-- The users of one instance among those of the window, each once, ascending. -/
def usersOf (us : List (Nat × Nat × Nat)) (x : Nat × Nat) : List Nat :=
  (upto 256).filter fun o => us.contains (x.1, x.2, o)

/-! Narrowing and widening (R115, R116). -/

/-- The contract header of an owner. -/
def State.hdr (s : State) (o : Nat) : Word := (s.owner o).hdr

/-- The owner an over-demanded instance narrows: lowest RANK, then lowest RUNG, then lowest number, of those above their floor. -/
def State.narrowPick (s : State) (us : List Nat) : Option Nat :=
  minBy (fun o => (hRank (s.hdr o) * 4 + hRung (s.hdr o)) * 256 + o) (us.filter fun o => decide (hRung (s.hdr o) < hFloor (s.hdr o)))

/-- The owner a quiet instance widens: highest RANK, then highest RUNG, then lowest number. -/
def State.widenPick (s : State) (us : List Nat) : Option Nat :=
  minBy (fun o => ((7 - hRank (s.hdr o)) * 4 + (3 - hRung (s.hdr o))) * 256 + o) us

/-- What a tick decides: owners narrowed with the lowest class that chose them, owners widened, instances exhausted, and
instances whose quiet count a widening used. -/
structure Tick where
  narrow : List (Nat × Nat) := []
  widen  : List Nat := []
  exhaust : List (Nat × Nat) := []
  used   : List (Nat × Nat) := []
  deriving DecidableEq, Repr

/-- Adds an owner to those narrowed, with a class. -/
def addNarrow (l : List (Nat × Nat)) (o cls : Nat) : List (Nat × Nat) :=
  if l.any fun e => e.1 = o then mapIf (fun e => e.1 = o) (fun e => (o, min e.2 cls)) l else l ++ [(o, cls)]

/-- The narrowings of a partition's instances (R115). -/
def State.narrowAll (s : State) (us : List (Nat × Nat × Nat)) (hot : List (Nat × Nat)) : Tick :=
  hot.foldl (fun t x => match s.narrowPick (usersOf us x) with
    | some o => { t with narrow := addNarrow t.narrow o x.1 }
    | none => { t with exhaust := t.exhaust ++ [x] }) {}

/-- The columns of the instances an owner used. -/
def usedCols (us : List (Nat × Nat × Nat)) (o : Nat) : List Nat :=
  us.filterMap fun u => if u.2.2 = o then (match u.1 with | 0 => some (u.2.1 / 4) | 1 => some u.2.1 | 4 => some u.2.1 | _ => none) else none

/-- The widenings of a partition's instances whose quiet count is four or more (R116). -/
def State.widenAll (s : State) (us : List (Nat × Nat × Nat)) (hot ready : List (Nat × Nat)) (t : Tick) : Tick :=
  ready.foldl (fun t x =>
    let ok := fun (o : Nat) => decide (hCeil (s.hdr o) < hRung (s.hdr o)) && !(t.narrow.any fun e => e.1 = o) &&
      !(hot.any fun y => us.contains (y.1, y.2, o)) && (usedCols us o).all fun c => (s.col c).q = 8
    match s.widenPick ((usersOf us x).filter ok) with
    | some o => { t with widen := if t.widen.contains o then t.widen else t.widen ++ [o], used := t.used ++ [x] }
    | none => t) t

/-- Moves an owner's RUNG. -/
def State.moveRung (s : State) (o r : Nat) : State := s.updOwner o fun w => { w with hdr := hSetRung w.hdr r }

/-- A narrowing in GOVSTAT of every resident context of the owner (R82, R115). -/
def State.markNarrow (s : State) (o cls : Nat) : State :=
  s.mapCtxs fun _ x =>
    if x.owner = o && !(x.st = .empty) then { x with narrows := min (x.narrows + 1) 65535, lastres := cls } else x

/-- The quiet counts of a partition's instances after a tick (R112). -/
def State.countQuiet (s : State) (part : Nat) (xs : List (Nat × Nat)) : Tbl Nat :=
  xs.foldl (fun q x => tset 0 q (1024 * x.1 + x.2) (if s.isQuiet part x then tget 0 q (1024 * x.1 + x.2) + 1 else 0)) s.quiet

/-- A tick of one partition's governor (R115, R116). Its selections use the rungs as they stand in `s`. -/
def State.tickPart (s : State) (us : List (Nat × Nat × Nat)) (part : Nat) : State × Tick :=
  let xs := (s.part part).instances
  let hot := xs.filter (s.isOver part)
  let q := s.countQuiet part xs
  let t := s.narrowAll us hot
  let t := s.widenAll us hot (xs.filter fun x => decide (4 ≤ tget 0 q (1024 * x.1 + x.2))) t
  ({ s with quiet := t.used.foldl (fun q x => tset 0 q (1024 * x.1 + x.2) 0) q }, t)

/-- What a tick decided takes effect. -/
def State.applyTick (s : State) (t : Tick) : State :=
  let s := t.narrow.foldl (fun s e => (s.moveRung e.1 (hRung (s.hdr e.1) + 1)).markNarrow e.1 e.2) s
  let s := t.widen.foldl (fun s o => s.moveRung o (hRung (s.hdr o) - 1)) s
  { s with calls := s.calls.map fun k => if k.uses.any t.exhaust.contains then { k with exhaust := true } else k }

/-! Clock steps (R119). -/

/-- Does a column step down at a tick: hot, with every owner that used its class 4 instance at its floor? -/
def State.stepsDown (s : State) (us : List (Nat × Nat × Nat)) (c : Nat) : Bool :=
  s.hot c && decide (4 < (s.col c).q) && (usersOf us (4, c)).all fun o => decide (hFloor (s.hdr o) ≤ hRung (s.hdr o))

/-- A column at a tick: its step down if it makes one, its counts of cool ticks and of ticks since a step, its energy demand. -/
def State.tickCol (s : State) (us : List (Nat × Nat × Nat)) (c : Nat) : Col :=
  let x := s.col c
  let down := s.stepsDown us c
  { x with q := if down then x.q - 1 else x.q, since := if down then 0 else min (x.since + 1) 16,
           cool := if s.temp c + 300 ≤ (s.pkg.tlim : Int) then min (x.cool + 1) 16 else 0, d16 := x.d16 + s.demandOf (4, c) }

/-- GOVERNOR_TICK (R105, R111 to R116, R119): every 256 scheduler cycles. -/
def execGovernorTick (s : State) : Out :=
  if s.cycle % 256 ≠ 0 then .next s
  else
    let old := s.owners
    let s := { s with owners := s.owners.map fun (e : Nat × Owner) => (e.1, e.2.applyPend) }
    let us := s.windowUsers
    let cols : List (Nat × Col) := (upto 32).map fun c => (c, s.tickCol us c)
    let down := cols.any fun e => decide (e.2.q < (s.col e.1).q)
    let parts := (s.parts.filter fun e => e.2.en).map Prod.fst
    let (s, ts) := parts.foldl (fun (a : State × List Tick) p =>
      let r := a.1.tickPart us p
      (r.1, a.2 ++ [r.2])) (s, [])
    let s := ts.foldl State.applyTick s
    let s := { s with owners := s.owners.map fun (e : Nat × Owner) =>
      let r := hRung (tget ({} : Owner) old e.1).hdr
      (e.1, if hRung e.2.hdr = r then e.2 else { e.2 with was := some (s.cycle, r) }) }
    let s := cols.foldl (fun s e => s.setCol e.1 e.2) s
    let s := { s with demand := [], users := [] }
    .next (if down then s.raise 50 else s)

/-- Does a column step up now (R119)? -/
def State.stepsUp (s : State) (c : Nat) : Bool :=
  s.cycle % 256 = 0 && decide ((s.col c).q < 8) && decide (16 ≤ (s.col c).cool) && decide (16 ≤ (s.col c).since)

/-- COLUMN_STEP_UP (R119, R317). -/
def execColumnStepUp (col : Nat) (s : State) : Out :=
  if s.stepsUp col then
    .next ((s.setCol col { s.col col with q := (s.col col).q + 1, since := 0 }).raise 50)
  else .next s

/-! The budget arbiter (R321). -/

/-- The energy to share, in nJ: floor((W − Pna) × 256 / 1.4), Pna in thousandths of a watt; 0 when W − Pna is not positive. -/
def energyShare (watts pna : Nat) : Nat := (1000 * watts - pna) * 256 / 1400

/-- BUDGET_ARBITER (R113, R321): the class 4 share of every column, every 16 ticks. -/
def execBudgetArbiter (s : State) : Out :=
  if s.cycle % 4096 ≠ 0 then .next s
  else
    let e := energyShare s.pkg.pbudget (Config.nonArrayWatts s.fresh)
    let f := e / 64
    let r := e - 32 * f
    let sum := sumN ((upto 32).map fun c => (s.col c).d16)
    let s := (upto 32).foldl (fun s c =>
      let x := s.col c
      s.setCol c { x with share := f + (if sum = 0 then r / 32 else r * x.d16 / sum), d16 := 0 }) s
    .next { s with fresh := s.fresh + 1 }

end Sys2Proof.Machine
end

