-- ==== Sys2Proof/Machine/Micro.lean ====
section
/-! DEFINITION. The routine of a matrix call: its words one after another (R239), the micro-ops (R240, R241), the opening
of K-tile windows (R107, R108, R122) and micro-op faults (R357). -/

namespace Sys2Proof.Machine

open Sys2Proof

/-- A micro-op fault (Table 24.7): the call ends; FLTADR is the store word. -/
def State.microFault (s : State) (k : Call) (code word : Nat) : State := s.endCall k { cls := 9, code := code, adr := word }

/-- The next word of the call whose routine runs (R239): the micro-op it decodes to, or the state its fault leaves. -/
def State.microNext (s : State) (id : Nat) : Except State Instr :=
  match s.call id with
  | none => .error { s with micro := none }
  | some k =>
    if k.upc < k.first ∨ k.last < k.upc then .error (s.microFault k 1 k.upc)
    else if 4096 ≤ k.words then .error (s.microFault k 3 k.upc)
    else
      match decodeMop (tget 0 (s.core k.core).store k.upc) with
      | none => .error (s.microFault k 2 k.upc)
      | some i => .ok i

/-- EVERY MICRO-OP RUNS THROUGH HERE: the word counts, the next word is the one that follows, and `eff` acts with the
number of the word. Outside a running routine it does nothing. -/
def State.mop (s : State) (eff : State → Call → Nat → State) : Out :=
  match s.micro with
  | none => .next s
  | some id =>
    match s.call id with
    | none => .next { s with micro := none }
    | some k =>
      let s := s.strikeUnit (.ctx k.ctx (some k.info)) 9 k.core k.upc
      let k' : Call := { k with upc := k.upc + 1, words := k.words + 1 }
      .next (eff (s.updCall id fun _ => k') k' k.upc)

/-- The owner's RUNG as a window that opens now takes it (R108): the one held before a tick of this cycle. -/
def State.rungFor (s : State) (o : Nat) : Nat :=
  let w := s.owner o
  match w.was with
  | some (t, r) => if t = s.cycle then r else hRung w.hdr
  | none => hRung w.hdr

/-- Opens the window of the K-tile begun last: its rung is taken and recorded, its sources are cleared, and the routine
goes on (R108, R122, R240). -/
def State.openWindow (s : State) (k : Call) : State :=
  let r := s.rungFor k.owner
  { s.updCall k.id fun q => { q with rung := r, pm := pmWindow q.pm r, srcA := none, srcB := none, isOpen := true,
                                     waiting := false, frzAt := q.frz } with micro := some k.id }

/-- KTILE (R240). -/
def execKtile (w : MopW) (s : State) : Out :=
  s.mop fun s k a =>
    if w.imm16 ≠ 0 then s.microFault k 2 a
    else if k.n < k.kt + 1 then s.microFault k 4 a
    else
      let s := s.updCall k.id fun q => { q with kt := q.kt + 1 }
      if k.jobs.isEmpty && decide (k.opens k.kt ≤ s.now k.ctx) then s.openWindow k
      else { s.updCall k.id fun q => { q with waiting := true } with micro := none }

/-- May a waiting call's window open (R107)? -/
def State.mayOpen (s : State) (k : Call) : Bool :=
  k.waiting && k.jobs.isEmpty && decide (k.opens (k.kt - 1) ≤ s.now k.ctx)

/-- K_TILE_WINDOW_OPEN (R107, R108): the window the routine waits for opens. -/
def execKTileWindowOpen (call : Nat) (s : State) : Out :=
  match s.call call with
  | none => .next s
  | some k => if s.mayOpen k then .next (s.openWindow k) else .next s

/-- A call whose window opens now. -/
def State.windowDue (s : State) : Option Nat := (findFirst s.mayOpen s.calls).map Call.id

/-- Chooses a source of the K-tile; twice is a fault (R240). -/
def State.chooseSource (s : State) (k : Call) (a : Nat) (b : Bool) (x : Source) : State :=
  if (if b then k.srcB else k.srcA).isSome then s.microFault k 4 a
  else s.updCall k.id fun q => if b then { q with srcB := some x } else { q with srcA := some x }

/-- FETCHA (R240). -/
def execFetcha (_w : MopW) (s : State) : Out := s.mop fun s k a => s.chooseSource k a false .desc
/-- FETCHB (R240). -/
def execFetchb (_w : MopW) (s : State) : Out := s.mop fun s k a => s.chooseSource k a true .desc
/-- LATA (R240). -/
def execLata (w : MopW) (s : State) : Out := s.mop fun s k a => s.chooseSource k a false (.latch (w.imm16.toNat % 4))
/-- LATB (R240). -/
def execLatb (w : MopW) (s : State) : Out := s.mop fun s k a => s.chooseSource k a true (.latch (w.imm16.toNat % 4))

/-- A constant source: on ladder I the high byte must be 0 (R240). -/
def State.chooseFill (s : State) (k : Call) (a : Nat) (b : Bool) (imm : Nat) : State :=
  if k.ladder = 2 && 256 ≤ imm then s.microFault k 2 a else s.chooseSource k a b (.fill imm)

/-- FILLA (R240). -/
def execFilla (w : MopW) (s : State) : Out := s.mop fun s k a => s.chooseFill k a false w.imm16.toNat
/-- FILLB (R240). -/
def execFillb (w : MopW) (s : State) : Out := s.mop fun s k a => s.chooseFill k a true w.imm16.toNat

/-- Does an operand of the job name latch elements at or beyond 512 / u (R241)? -/
def Call.latchOver (k : Call) (o : Opnd) : Bool :=
  let u := match dTy o.d with | some t => t.bytes | none => 1
  o.latch.isSome && decide (512 / u < o.k0 + k.depth)

/-- GROUPS (R241): the K-tile's rows are asked for, and its groups follow. -/
def execGroups (_w : MopW) (s : State) : Out :=
  s.mop fun s k a =>
    match k.srcA, k.srcB with
    | some x, some y =>
      if k.kt = 0 then s.microFault k 4 a
      else
        let j : Job := { kt := k.kt - 1, rung := k.rung, kA := k.kA, kB := k.kB, srcA := x, srcB := y, scA := k.scA,
                         scB := k.scB, trn := k.trn, rowsA := [], rowsB := [], start := s.now k.ctx, wait := 0, filled := false,
                         left := 0 }
        if k.latchOver (k.opnd j false) || k.latchOver (k.opnd j true) then s.microFault k 5 a
        else
          let t := s.askRow k j
          let j := { j with wait := t.1, left := ceilDiv k.depth (k.step j) }
          t.2.updCall k.id fun q =>
            { q with jobs := q.jobs ++ [j], isOpen := false, kA := q.kA + q.depth, kB := q.kB + q.depth }
    | _, _ => s.microFault k 4 a

/-- An index moved by a signed immediate, or the fault of a negative one (R240). -/
def State.stepIndex (s : State) (k : Call) (a : Nat) (b : Bool) (imm : BitVec 16) : State :=
  let v : Int := (if b then k.kB else k.kA : Nat) + sext imm.toNat 16
  if v < 0 then s.microFault k 4 a
  else s.updCall k.id fun q => if b then { q with kB := v.toNat } else { q with kA := v.toNat }

/-- STEPA (R240). -/
def execStepa (w : MopW) (s : State) : Out := s.mop fun s k a => s.stepIndex k a false w.imm16
/-- STEPB (R240). -/
def execStepb (w : MopW) (s : State) : Out := s.mop fun s k a => s.stepIndex k a true w.imm16

/-- SCALEA (R240). -/
def execScalea (w : MopW) (s : State) : Out :=
  s.mop fun s k _ => s.updCall k.id fun q => { q with scA := w.imm16.getLsbD 0 && dScen k.da.toNat }
/-- SCALEB (R240). -/
def execScaleb (w : MopW) (s : State) : Out :=
  s.mop fun s k _ => s.updCall k.id fun q => { q with scB := w.imm16.getLsbD 0 && dScen k.db.toNat }
/-- ACCSEL (R240). -/
def execAccsel (w : MopW) (s : State) : Out :=
  s.mop fun s k _ => s.updCall k.id fun q => { q with trn := w.imm16.getLsbD 0 }

/-- Counter `i` of a routine. -/
def Call.ctr (k : Call) (i : BitVec 2) : Nat := k.cnt.getD i.toNat 0
/-- Sets a counter of a routine. -/
def State.setCtr (s : State) (k : Call) (i : BitVec 2) (v : Nat) : State :=
  s.updCall k.id fun q => { q with cnt := q.cnt.set i.toNat v }

/-- CNTSET (R240). -/
def execCntset (w : MopW) (s : State) : Out := s.mop fun s k _ => s.setCtr k w.ctr w.imm16.toNat
/-- CNTDEC (R240). -/
def execCntdec (w : MopW) (s : State) : Out := s.mop fun s k _ => s.setCtr k w.ctr (k.ctr w.ctr - 1)
/-- JNZ (R240). -/
def execJnz (w : MopW) (s : State) : Out :=
  s.mop fun s k _ => if k.ctr w.ctr = 0 then s else s.updCall k.id fun q => { q with upc := w.target.toNat }
/-- JMP (R240). -/
def execJmp (w : MopW) (s : State) : Out := s.mop fun s k _ => s.updCall k.id fun q => { q with upc := w.target.toNat }
/-- PARMRD (R240). -/
def execParmrd (w : MopW) (s : State) : Out :=
  s.mop fun s k _ =>
    let q := w.imm16.toNat % 4
    s.setCtr k w.ctr (bits ((k.mp.getD w.parm.toNat 0).toNat) (16 * q + 15) (16 * q))

/-- DONE (R240): the routine ends. -/
def execDone (_w : MopW) (s : State) : Out :=
  s.mop fun s k a =>
    if k.kt = k.n && !k.isOpen then { s.updCall k.id fun q => { q with ended := true } with micro := none }
    else s.microFault k 4 a

/-- NOPM (R240). -/
def execNopm (_w : MopW) (s : State) : Out := s.mop fun s _ _ => s

end Sys2Proof.Machine
end

