-- ==== Sys2Proof/Machine/Save.lean ====
section
/-! DEFINITION. Stops and saves (R59, R60, R281, R296, R343 to R348): live lists, images and their frames, the saving of a
context and of a quire. -/

namespace Sys2Proof.Machine

open Sys2Proof

/-! Live lists (R59, Table 9.30). -/

/-- The live list of the safe point at an address: the 16 words of its entry; `s1`, `s2` and `s3` at an implicit one.
The table is the one that stands at the save (DESIGN CHOICE, log 98). -/
def State.liveList (s : State) (part tenant pc : Nat) : List Nat :=
  let implicit := [14]
  match s.peekVaWord part tenant pc, s.objectAt part tenant pc with
  | some h, some o =>
    if bit h 9 then (match s.safeEntry part tenant o (bits h 19 10) with | some e => e | none => implicit) else implicit
  | _, _ => implicit

/-- The mask of a class in a live list. -/
def liveMask (l : List Nat) (c : Cls) : Nat :=
  let w := fun i => l.getD i 0
  match c with
  | .s => w 0
  | .v => w 1 + 2 ^ 64 * w 2 + 2 ^ 128 * (w 3 % 2 ^ 32)
  | .p => w 4 + 2 ^ 64 * (w 5 % 2 ^ 32)
  | .ag => bits (w 5) 47 32
  | .m => bits (w 5) 55 48
  | .a => w 11 % 2 ^ 16
  | .l => 0

/-- The handles a live list names. -/
def liveHandles (l : List Nat) : Nat := sumN ((upto 4).map fun i => l.getD (7 + i) 0 * 2 ^ (64 * i))

/-- The entries of a table that a mask names. -/
def keep {α : Type} (mask : Nat) (t : Tbl α) : Tbl α := t.filter fun e => mask.testBit e.1

/-- A map table after a stop (R281): VALID maps without KEEP become LOST. -/
def stopMaps (t : Tbl MapEnt) : Tbl MapEnt :=
  t.map fun (e : Nat × MapEnt) => (e.1, match e.2 with
    | .valid n m u i z v k => if k then MapEnt.valid n m u i z v k else .lost
    | x => x)

/-- What of a context a safe-point save keeps (R59): the live registers, failed tokens, loops, depth, ratio and trap
registers, and its maps. -/
def Ctx.safeImage (x : Ctx) (l : List Nat) : Ctx :=
  { st := .ready, pc := x.pc, s := keep (liveMask l .s) x.s, v := keep (liveMask l .v) x.v, p := keep (liveMask l .p) x.p,
    ag := keep (liveMask l .ag) x.ag, m := keep (liveMask l .m) x.m,
    tok := (x.tok.filter fun t => t.2.fail.isSome).map fun t => (t.1, { t.2 with prod := 0 }),
    loops := x.loops, depth := x.depth, ratio := x.ratio, level := x.level, owner := x.owner, quire := x.quire,
    member := x.member, members := x.members, part := x.part, tenant := x.tenant, flt := x.flt, tretpc := x.tretpc,
    intrap := x.intrap, plevel := x.plevel, heldBit := x.heldBit, tscra := x.tscra, tscrb := x.tscrb,
    exitHeld := x.exitHeld, maps := stopMaps x.maps, arrivals := x.arrivals, dismissed := x.dismissed }

/-- What of a context an urgent save keeps (R343): its whole state, the results captured since the stop to be replayed. Its
tokens keep their producers: a marker held in the buffer has still to complete its own (R32, R342). A
fault kept in the image is delivered before the first bundle (`Image.restored`). LASTRES starts again with the counts (log 84). -/
def Ctx.urgentImage (x : Ctx) : Ctx :=
  { x with st := .ready, frz := {}, stop := none, inflight := [], block := .none, bubble := 0, age := 0, aged := false,
           breaches := 0, narrows := 0, lastres := 7, buckets := [], born := 0, frames := [], frameWait := false,
           saveUrgent := false, readFrom := [], tiles := [], maps := stopMaps x.maps,
           replay := x.replay ++ x.ucap, ucap := [] }

/-- What of a RETIRED or DORMANT member an image of KIND 2 keeps (R347). -/
def Ctx.restImage (x : Ctx) : Ctx :=
  { st := x.st, level := x.level, owner := x.owner, quire := x.quire, member := x.member, members := x.members, part := x.part,
    tenant := x.tenant, arrivals := x.arrivals, dismissed := x.dismissed, exiting := x.st = .retired }

/-! Sections (R346, Tables 23.8 and 23.9). -/

/-- Bytes padded to a multiple of `n`. -/
def padTo (n : Nat) (l : List Byte) : List Byte := l ++ List.replicate (n * ceilDiv l.length n - l.length) 0

/-- A section: its header and its payloads; empty when it has no element. -/
def sect (kind : Nat) (els : List (Nat × List Byte)) : List Byte :=
  if els.isEmpty then []
  else
    let pay := els.flatMap fun e => padTo 16 e.2
    let map := fun i => sumN (els.map fun e => if e.1 / 64 = i then 2 ^ (e.1 % 64) else 0)
    toBytes 8 (kind + els.length * 2 ^ 16 + pay.length * 2 ^ 32) ++ (upto 4).flatMap (fun i => toBytes 8 (map i)) ++
      List.replicate 24 0 ++ pay

/-- The bytes of a source of a class. -/
def clsBytes : Cls → Nat
  | .v => 1024 | .p => 64 | .ag => 64 | _ => 8

/-- The number of a class in a section's tag. -/
def clsNum : Cls → Nat
  | .s => 0 | .v => 1 | .p => 2 | .ag => 3 | _ => 4

/-- Registers of a class that a mask names, with their bytes. -/
def Ctx.regEls (x : Ctx) (c : Cls) (mask : Nat) : List (Nat × List Byte) :=
  ((upto c.count).filter mask.testBit).map fun i => (i, toBytes (clsBytes c) (x.reg c i))

/-- The 64 bytes of a failure record. -/
def Rec.bytes (r : Rec) : List Byte :=
  ([r.w0, r.pc, r.adr, r.opa, r.opb, r.opc].flatMap fun w => toBytes 8 w.toNat) ++ List.replicate 16 0

/-- The image of a map (R271, Table 14.1). -/
def MapEnt.image (m : MapEnt) : List Byte :=
  match m with
  | .empty => []
  | .lost => padTo 64 (toBytes 8 (2 * 2 ^ 48))
  | .valid n k u i z v keep =>
    padTo 64 (toBytes 8 (n + k * 2 ^ 32 + 2 ^ 48 + b2n keep * 2 ^ 50) ++ (u ++ i ++ z ++ v).flatMap (toBytes 2))

/-- A saved session (Table 23.9). -/
def Session.image (z : Session) : List Byte :=
  let stream := fun n =>
    let t := z.stream n
    let k := match t.last with | some k => k | none => (0, 0)
    toBytes 8 (k.1 * 2 ^ 32 + k.2) ++ toBytes 8 (b2n t.last.isNone * 2 ^ 63 + b2n t.closed * 2 ^ 62 + t.seq)
  toBytes 64 z.desc.toNat ++ toBytes 8 (z.runs * 2 ^ 16 + z.limit % 2 ^ 15) ++ toBytes 8 z.cursor ++ (upto 16).flatMap stream ++
    toBytes 8 z.buf.length ++ toBytes 8 0 ++ z.buf.flatMap SmEnt.record

/-- The word of a queue entry's operation. -/
def QEntry.word (e : QEntry) : Nat := match encode e.op with | some w => w.toNat | none => 0

/-- A held entry (section 14), with its tag r. -/
def QEntry.image (e : QEntry) (r : Nat) : List Byte :=
  toBytes 16 (e.slot.num + r % 2 ^ 32 * 2 ^ 16) ++ toBytes 8 e.word ++ toBytes 8 e.base ++ toBytes 8 e.index ++ toBytes 8 e.data ++
    (match e.op with | .vst _ | .vsts _ | .tst _ | .tsts _ => toBytes 1024 e.data | _ => [])

/-- The section stream of an image, with the sessions it carries (R346). -/
def Image.stream (i : Image) (live : List Nat) (zs : List Session) : List Byte :=
  let x := i.ctx
  let full := i.kind = 1
  let mask := fun c => if full then 2 ^ c.count - 1 else liveMask live c
  let regs := if i.kind = 2 then [] else
    sect 1 (x.regEls .s (mask .s)) ++ sect 2 (x.regEls .v (mask .v)) ++ sect 3 (x.regEls .p (mask .p)) ++
    sect 4 (x.regEls .ag (mask .ag)) ++ sect 5 (x.regEls .m (mask .m)) ++
    sect 6 (x.tok.filterMap fun t => t.2.fail.map fun r => (t.1, r.bytes))
  let tiles := sect 7 (i.tiles.map fun t => (t.1, padTo 16 (toBytes 8 t.2.entry) ++ t.2.read 0 t.2.bytesN))
  let accs := sect 8 (i.accs.map fun a =>
    (a.1, ((upto 4096).flatMap fun j => toBytes 4 (tget 0 a.2.vals j).toNat) ++ toBytes 8 a.2.pm.toNat))
  let lats := sect 9 (i.lats.map fun l => (l.1, tgets 0 l.2.bytes 0 32768))
  let holds := if full then sect 10 (x.holds.filterMap fun h => h.2.map fun v =>
    (h.1, toBytes 16 (h.1 / 4 + h.1 % 4 * 16) ++ toBytes (clsBytes v.cls) v.val)) else []
  let maps := if i.kind = 2 then [] else sect 11 ((x.maps.filter fun m => !(m.2 = .empty)).map fun m => (m.1, m.2.image))
  let sess := sect 12 (zs.zipIdx.map fun z => (z.2, z.1.image))
  let res := x.replay ++ (match x.snap with | some sn => sn.results.filter fun l => l.val.isSome | none => [])
  let held := match x.snap with | some sn => sn.heldL ++ sn.heldW | none => []
  let tag := fun (e : QEntry) => match x.snap with
    | some sn => (match findFirst (fun l => l.src = e.id) sn.results with | some l => l.due | none => 0)
    | none => 0
  let last := if full then
    sect 13 (res.zipIdx.map fun l => (l.2, toBytes 16 (clsNum l.1.cls + l.1.idx * 2 ^ 8 + l.1.due % 2 ^ 32 * 2 ^ 16) ++
      toBytes (clsBytes l.1.cls) (l.1.val.getD 0))) ++
    sect 14 (held.zipIdx.map fun e => (e.2, e.1.image (tag e.1))) else []
  regs ++ tiles ++ accs ++ lats ++ holds ++ maps ++ sess ++ last

/-! Frames (R345, Table 23.7). -/

/-- Table frames that hold the list of `n` data frames beyond FTAB's (R345). -/
def tableFrames (n : Nat) : Nat := if n ≤ 448 then 0 else ceilDiv (n - 448) 511

/-- Frames an image of `n` stream bytes takes. -/
def framesFor (n : Nat) : Nat := 1 + ceilDiv n 4096 + tableFrames (ceilDiv n 4096)

/-- Frame 0 without its frame table (Table 23.7). -/
def Image.head (i : Image) (n bytes : Nat) : List Byte :=
  let x := i.ctx
  let two := i.kind = 2
  let w0 := 2 ^ 56 + i.kind * 2 ^ 54 + x.level.num * 2 ^ 52 + x.tenant * 2 ^ 49 + b2n x.intrap * 2 ^ 48 + x.owner * 2 ^ 40 +
    i.num * 2 ^ 31 + x.member * 2 ^ 25 + b2n (two && i.dormant) * 2 ^ 24
  let loops := if two then [] else x.loops.reverse
  let loop := (upto 4).flatMap fun e => match loops[e]? with
    | some l => [l.start, l.stop, l.left]
    | none => [0, 0, 0]
  let traps := if two then List.replicate 10 0 else
    [x.flt.w0.toNat, x.flt.pc.toNat, x.flt.adr.toNat, x.flt.opa.toNat, x.flt.opb.toNat, x.flt.opc.toNat, x.tretpc.toNat,
      b2n x.heldBit * 8 + b2n x.intrap * 4 + x.plevel.num, x.tscra.toNat, x.tscrb.toNat]
  ([w0, if two then 0 else x.pc, n * 2 ^ 32 + bytes, x.ratio * 2 ^ 24 + loops.length * 2 ^ 16 + x.depth] ++ loop ++
    [sumN (loops.zipIdx.map fun (l : LoopEnt × Nat) => l.1.depth * 2 ^ (16 * l.2))] ++ traps ++ List.replicate 37 0).flatMap (toBytes 8)

/-- The table frames of a list of data frames, each naming the next in its last entry. -/
def tableData : Nat → List Nat → List Nat → List (Nat × List Byte)
  | 0, _, _ => []
  | _, _, [] => []
  | fuel + 1, ds, t :: ts =>
    if ts.isEmpty then [(t, padTo 4096 (ds.flatMap (toBytes 8)))]
    else (t, (ds.take 511 ++ ts.take 1).flatMap (toBytes 8)) :: tableData fuel (ds.drop 511) ts

/-- The frames of an image with their bytes: frame 0, the data frames, and the table frames last. -/
def Image.pages (i : Image) (stream : List Byte) : List (Nat × List Byte) :=
  let nd := ceilDiv stream.length 4096
  let data := (i.frames.drop 1).take nd
  let tabs := i.frames.drop (1 + nd)
  let ftab := if tabs.isEmpty then data else data.take 447 ++ tabs.take 1
  let f0 := padTo 4096 (i.head i.frames.length stream.length ++ ftab.flatMap (toBytes 8))
  (i.frames.headD 0, f0) ::
    (data.zipIdx.map fun d => (d.1, padTo 4096 ((stream.drop (4096 * d.2)).take 4096))) ++ tableData tabs.length (data.drop 447) tabs

/-- Writes an image to its frames. -/
def State.writeImage (s : State) (part : Nat) (i : Image) (stream : List Byte) : State :=
  (i.pages stream).foldl (fun s f => s.ownWrite part f.1 f.2) s

/-! Maps as they are restored (R271). -/

/-- Bytes of the data frames of an image from an offset of its stream on, as the device reads them from a partition's memory. -/
def State.streamBytes (s : State) (part : Nat) (frames : List Nat) (off n : Nat) : List Byte :=
  (upto n).map fun i => match (frames.drop 1)[(off + i) / 4096]? with
    | some f => s.peekByte (ownPort part) (f + (off + i) % 4096)
    | none => 0

/-- Where the section of a kind begins in an image's stream, which is read section by section (R346). -/
def State.sectAt (s : State) (part : Nat) (frames : List Nat) (kind : Nat) : Nat → Nat → Option Nat
  | 0, _ => none
  | n + 1, off =>
    let w := ofBytes (s.streamBytes part frames off 8)
    if w % 256 = kind then some off
    else if w % 256 = 0 then none
    else s.sectAt part frames kind n (off + 64 + bits w 63 32)

/-- The map whose image stands at an offset of a stream, and the bytes of that image (R271, Table 14.1). -/
def State.mapImage (s : State) (part : Nat) (frames : List Nat) (off : Nat) : MapEnt × Nat :=
  let w := ofBytes (s.streamBytes part frames off 8)
  let n := bits w 13 0
  let m := bits w 45 32
  let vals := fun (k l : Nat) => (upto l).map fun i => ofBytes (s.streamBytes part frames (off + 8 + 2 * (k + i)) 2)
  match bits w 49 48 with
  | 1 => (.valid n m (vals 0 n) (vals n n) (vals (2 * n) m) (vals (2 * n + m) m) (bit w 50), 64 * ceilDiv (8 + 4 * (n + m)) 64)
  | 2 => (.lost, 64)
  | _ => (.empty, 64)

/-- The maps that a list names, read one after another from an offset of a stream. -/
def State.mapImages (s : State) (part : Nat) (frames : List Nat) : List Nat → Nat → Tbl MapEnt → Tbl MapEnt
  | [], _, t => t
  | i :: l, off, t =>
    let m := s.mapImage part frames off
    s.mapImages part frames l (off + m.2) (tset .empty t i m.1)

/-- Strikes an armed error that the restoration of an image reads in its frames (R385). -/
def State.strikeFramesOf (s : State) (part : Nat) (i : Image) : State :=
  i.frames.foldl (fun s f => s.strikeMem .none (ownPort part) f 4096 false) s

/-- The maps of a saved member as its frames hold them; LOST where a frame stands on a retired page, which gives no bytes (R281, R381,
log 93). -/
def State.mapsOf (s : State) (part : Nat) (i : Image) : Tbl MapEnt :=
  if i.frames.any fun f => s.pkg.tBits.contains (pageOf f) then
    i.ctx.maps.map fun (m : Nat × MapEnt) => (m.1, match m.2 with | .empty => .empty | _ => .lost)
  else
  match s.sectAt part i.frames 11 16 0 with
  | none => []
  | some off =>
    let present := ofBytes (s.streamBytes part i.frames (off + 8) 32)
    s.mapImages part i.frames ((upto 256).filter present.testBit) (off + 64) []

/-! Stop requests. -/

/-- A stop request goes to a context, if it needs one (R59). -/
def State.requestStop (s : State) (c : Nat) : State :=
  s.updCtx c fun x =>
    if x.st = .empty || x.st = .retired || x.st = .dormant || x.stop.isSome then x else { x with stop := some ⟨s.now c, false⟩ }

/-- What still blocks a context once it stops: the waits that a stop ends are over (R191, R205). -/
def Block.afterStop : Block → Block
  | .yield _ => .none
  | .ctxstop _ => .none
  | b => b

/-- May a context be stopped urgently now: at a bundle boundary, with no instruction of its own under way but a wait that the
stop ends (R343)? A fault being delivered comes first, a breach, and the freeze of a late load (R118, R185, R344). -/
def Ctx.urgentReady (x : Ctx) : Bool :=
  (match x.stop with | some q => q.urgent | none => false) &&
    (x.st = .ready || x.st = .blocked || x.st = .frozen) && x.frz.fault.isNone && x.frz.urgent.isNone &&
    x.dying.isNone && !x.frz.tdi && !x.frz.breach && !x.frz.late && !x.exiting &&
    x.block.afterStop = .none

/-- May a context be stopped urgently now? A load pipe of its calls that stands at a fault would keep the stop waiting for ever:
its fault, and the handler that answers it, come first (R344). -/
def State.urgentReady (s : State) (c : Nat) : Bool :=
  (s.ctx c).urgentReady && !(s.calls.any fun k => k.ctx = c && k.stopped.isSome)

/-- URGENT_STOP (R343): the context freezes at the bundle boundary; results are captured from the first cycle of its column on
in which it has issued no bundle. -/
def execUrgentStop (c : Nat) (s : State) : Out :=
  let x := s.ctx c
  if s.urgentReady c then
    .next (s.setCtx c { x with st := .frozen, frz := { x.frz with urgent := some (s.freezeCol c) }, block := .none })
  else .next s

/-- STOP_TIMEOUT (R59): a stop that has not reached a safe point after 65,536 cycles becomes urgent. -/
def execStopTimeout (c : Nat) (s : State) : Out :=
  let x := s.ctx c
  match x.stop with
  | some q =>
    if !q.urgent && decide (q.since + 65536 ≤ s.now c) && !(x.st = .saving) && !x.st.atRest then
      .next (s.setCtx c { x with stop := some { q with urgent := true } })
    else .next s
  | none => .next s

/-- Is nothing of a context left to wait for: results, queue entries, commands and calls (R59, R343)? -/
def State.drained (s : State) (c : Nat) : Bool :=
  let x := s.ctx c
  x.inflight.isEmpty && x.loadQ.isEmpty && x.storeQ.isEmpty && !(s.cmds.any fun e => e.ctx = c) && !(s.calls.any fun k => k.ctx = c)

/-- A context whose save can go on: SAVING, or stopped urgently, with nothing left to wait for, an operation that still blocks it
among that. -/
def State.savable (s : State) (c : Nat) : Bool :=
  let x := s.ctx c
  s.drained c && x.block = .none && x.frz.fault.isNone && x.dying.isNone && (x.st = .saving || (x.st = .frozen && x.frz.urgent.isSome))

/-! What a save writes. -/

/-- Is a member of a quire saved or at rest? -/
def State.memberAtRest (s : State) (q : Quire) (m : Nat) : Bool :=
  q.images.any (fun i => i.member = m) ||
    (match q.members[m]? with
      | some c => (s.ctx c).quire = q.id && ((s.ctx c).st = .retired || (s.ctx c).st = .dormant)
      | none => false)

/-- The shared tiles that member `m`'s image holds (R347): the quire's named QUIRE tiles of its own tile memory, and for
member 0 the named BASE tiles, each under its handle. -/
def State.sharedOf (s : State) (q : Quire) (m : Nat) (handle : Nat → Nat) : List (Nat × Tile) :=
  (s.tiles.filter fun t => t.quire = q.id && q.named.contains t.id &&
    (match t.level with | .LOCAL => false | .QUIRE => t.member = m | .BASE => m = 0)).map fun t => (handle t.id, t)

/-- The handle under which a quire names a shared tile: that of any member's table, resident or in an image. -/
def State.handleOf (s : State) (q : Quire) (id : Nat) : Nat :=
  let here := (q.members.filter fun c => (s.ctx c).quire = q.id).map fun c => (s.ctx c).tiles
  let saved := q.images.map fun i => i.ctx.tiles
  match ((here ++ saved).flatMap fun t => t).find? fun e => e.2 = id with
  | some e => e.1
  | none => 0

/-- The tiles a stopping context names (R347): those of its live list, or of its table when stopped urgently; none of a member
at rest. -/
def State.namedBy (s : State) (c : Nat) (live : List Nat) (urgent : Bool) : List (Nat × Tile) :=
  let x := s.ctx c
  (x.tiles.filter fun e => urgent || (liveHandles live).testBit e.1).filterMap fun e => (s.tile e.2).map fun t => (e.1, t)

/-- The image of a context of a quire as it stands, without frames. -/
def State.imageOf (s : State) (q : Quire) (c : Nat) : Quire × Image × List Nat :=
  let x := s.ctx c
  let rest := x.st = .retired || x.st = .dormant
  let urgent := !rest && (x.saveUrgent || x.frz.urgent.isSome)
  let live := s.liveList x.part x.tenant x.pc
  let names := if rest then [] else s.namedBy c live urgent
  let q := { q with named := q.named ++ (names.map fun t => t.2.id).filter fun i => !q.named.contains i }
  let k := s.core (coreOf c)
  let held := k.accs.filter fun a => a.2.holder = some c && !rest && (urgent || (liveMask live .a).testBit a.1)
  let lats := k.lats.filter fun l => l.2.holder = some c && urgent
  let y := if rest then x.restImage else if urgent then x.urgentImage else x.safeImage live
  let table := (if rest then x.tiles else names.map fun t => (t.1, t.2.id))
  let local_ := names.filter fun t => t.2.level = .LOCAL
  (q, { member := x.member, kind := if rest then 2 else if urgent then 1 else 0, dormant := x.st = .dormant, num := c,
        ctx := { y with tiles := table }, accs := held, lats := lats,
        tiles := local_ ++ s.sharedOf q x.member (s.handleOf q), frames := [] }, live)

/-- A saved member's image with the quire's shared tiles as they stand now. -/
def State.reshare (s : State) (q : Quire) (i : Image) : Image :=
  { i with tiles := (i.tiles.filter fun t => t.2.level = .LOCAL) ++ s.sharedOf q i.member (s.handleOf q) }

/-- The sessions of a quire, saved as the network gives them up (R296): none while a write waits. -/
def State.saveSessions (s : State) (q : Nat) : List Nat → State × Option (List Session)
  | [] => (s, some [])
  | n :: l =>
    match s.session n with
    | some z =>
      if z.quire = q then
        match s.saveSession z with
        | (s, none) => (s, none)
        | (s, some z) =>
          match s.saveSessions q l with
          | (s, some zs) => (s, some (z :: zs))
          | (s, none) => (s, none)
      else s.saveSessions q l
    | none => s.saveSessions q l

/-- What saving a context writes: its own image and, when it is the last of its quire, every other with the shared tiles as
they stand, each with its stream. -/
structure SavePlan where
  q     : Quire
  own   : Image
  bytes : List Byte
  last  : Bool
  others : List (Image × List Byte)
  deriving DecidableEq, Repr

/-- The plan of a context's save, with the sessions that go with the images. -/
def State.savePlan (s : State) (c : Nat) (zs : List Session) : Option SavePlan :=
  let x := s.ctx c
  match s.quire x.quire with
  | none => none
  | some q =>
    let (q, own, live) := s.imageOf q c
    let last := (upto q.size).all fun m => m = x.member || q.images.any fun i => i.member = m
    let mine := fun (i : Image) => if i.kind = 2 then [] else zs.filter fun z => z.home = i.member
    let others := if last then q.images.map (fun i => let i := s.reshare q i
        (i, i.stream (s.liveList i.ctx.part i.ctx.tenant i.ctx.pc) (mine i))) else []
    some { q := q, own := own, bytes := own.stream live (mine own), last := last, others := others }

/-- Frames a save still needs beyond those that its context has taken. -/
def SavePlan.need (p : SavePlan) (taken : Nat) : Nat :=
  framesFor p.bytes.length + sumN (p.others.map fun o => framesFor o.2.length - o.1.frames.length) - taken

/-- Gives frames from a list to the images of a save, in order. -/
def dealFrames : List Nat → List (Image × List Byte) → List (Image × List Byte)
  | _, [] => []
  | fs, (i, b) :: l =>
    let n := framesFor b.length - i.frames.length
    ({ i with frames := i.frames ++ fs.take n }, b) :: dealFrames (fs.drop n) l

/-- The context becomes EMPTY, its structures falling free; what its buckets gained beyond their depth has gone to the spare
pools (R139). -/
def State.emptyCtx (s : State) (c : Nat) : State := (((s.settleCtx c).dropGrants c).setCtx c {}).freeGen c

/-- The plan of a save once the sessions that go with it are saved, with the state and sessions after that; no plan while a
write of theirs waits. -/
def State.saveReady (s : State) (c : Nat) : State × Option (SavePlan × List Session) :=
  match s.savePlan c [] with
  | none => (s, none)
  | some p =>
    if !p.last then (s, some (p, []))
    else
      match s.saveSessions p.q.id (upto 32) with
      | (s, none) => (s, none)
      | (s, some zs) => (s, (s.savePlan c zs).map fun p => (p, zs))

/-- A quire becomes saved (R60): its tiles leave their pools and its sessions their networks. -/
def State.finishSave (s : State) (q : Quire) (images : List Image) (zs : List Session) : State :=
  let ids := (s.tiles.filter fun t => t.quire = q.id).map Tile.id
  let s := ids.foldl State.returnTile s
  let s := (upto 32).foldl (fun s n => match s.session n with
    | some z => if z.quire = q.id then s.setSession n none else s
    | none => s) s
  let q := { q with st := .saved, members := [], images := images, sessions := q.sessions ++ zs, stopping := false }
  { s with quires := s.quires.filter (fun x => !(x.id = q.id)) ++ [q] }

/-- The first member of a quire at rest whose image is due: every member is saved or at rest, and the quire is being saved
(R60, R347). A quire whose members are all RETIRED retires instead. -/
def State.restDue (s : State) (q : Quire) : Option Nat :=
  let ms := upto q.size
  if q.st = .running && (q.stopping || !q.images.isEmpty) && ms.all (s.memberAtRest q) &&
      !(ms.all fun m => match q.members[m]? with | some c => (s.ctx c).quire = q.id && (s.ctx c).st = .retired | none => false) then
    (ms.filterMap fun m => if q.images.any fun i => i.member = m then none else q.members[m]?).head?
  else none

/-- Is a context's image to be written: it has nothing left to wait for, or is a member at rest whose turn has come? -/
def State.imageReady (s : State) (c : Nat) : Bool :=
  let x := s.ctx c
  (x.st = .saving && s.savable c) ||
    ((x.st = .retired || x.st = .dormant) && (match s.quire x.quire with | some q => s.restDue q = some c | none => false))

/-- The host page that the live lists of a save wait for (R312): its own, and those of its quire's images. -/
def State.liveWants (s : State) (c : Nat) : Option Nat :=
  let x := s.ctx c
  let is := match s.quire x.quire with | some q => q.images | none => []
  (x.pc :: is.map fun i => i.ctx.pc).findSome? (s.codeWants x.part x.tenant)

/-- Can a context's image be written now? -/
def State.imageDue (s : State) (c : Nat) : Bool := s.imageReady c && (s.liveWants c).isNone

/-- Does a save of a context read a unit: what its image holds, and the sessions that go with it (R346, R385)? -/
def State.saveReads (s : State) (c : Nat) (p : SavePlan) (zs : List Session) (live : List Nat) (u : UnitD) : Bool :=
  let i := p.own
  let mask := fun k => if i.kind = 1 then 2 ^ k.count - 1 else if i.kind = 0 then liveMask live k else 0
  match u.struct with
  | 3 => i.tiles.any fun t => s.inTile t.2 0 t.2.space u
  | 4 => i.tiles.any fun t => s.inTile t.2 0 t.2.space u
  | 5 => u.ctx = c && (mask .v).testBit (bits u.loc 15 8)
  | 6 => u.ctx = c && (mask .s).testBit (bits u.loc 15 8)
  | 7 => u.unit = coreOf c && i.accs.any fun a => a.1 = u.loc
  | 8 => u.unit = coreOf c && i.lats.any fun l => l.1 = u.loc
  | 12 => i.kind ≠ 2 && i.ctx.maps.any fun m => s.mapUnit c m.1 u
  | 13 => match s.session u.unit with | some z => zs.any (fun y => y.home = z.home) && z.quire = p.q.id && decide (u.loc < z.buf.length) | none => false
  | 14 => u.ctx = c && i.kind = 1 && (!i.ctx.replay.isEmpty || i.ctx.snap.isSome)
  | _ => false

/-- Strikes an armed error that a save reads: in the code its live list stands in, or in what it writes out (R385). -/
def State.strikeSave (s : State) (c : Nat) (p : SavePlan) (zs : List Session) : State :=
  if s.pkg.armed.isNone then s
  else
    let x := s.ctx c
    let live := s.liveList x.part x.tenant x.pc
    let s := if p.own.kind = 0 then s.strikeCode (.ctx c none) x.part x.tenant x.pc else s
    s.strikeArmed (.ctx c none) (s.saveReads c p zs live)

/-- CONTEXT_SAVE (R59, R343, R345 to R347): a context with nothing left to wait for enters SAVING, its image is written to
frames from the head of the free list, and it becomes EMPTY; the last member of its quire saves the quire. With too few frames
it waits (R348). -/
def execContextSave (c : Nat) (s : State) : Out :=
  let x := s.ctx c
  if x.st = .frozen && s.savable c then
    .next (s.setCtx c { x with st := .saving, saveUrgent := true, frz := { x.frz with late := false } })
  else if s.imageDue c then
    match s.saveReady c with
    | (s, none) => .next s
    | (s1, some (p, zs)) =>
      let s2 := s.strikeSave c p zs
      if s.pkg.armed.isSome && s2.pkg.armed.isNone then .next s2
      else
      let s := s1
      let n := p.need x.frames.length
      let fs := (s.part x.part).frames
      if fs.length < n then .next s
      else
        let s := s.updPart x.part fun q => { q with frames := q.frames.drop n }
        let l := dealFrames (x.frames ++ fs.take n) ((p.own, p.bytes) :: p.others)
        let s := l.foldl (fun s i => s.writeImage x.part i.1 i.2) s
        let gone := (s.tiles.filter fun t => t.level = .LOCAL && (x.tiles.any fun e => e.2 = t.id)).map Tile.id
        let s := (gone.foldl State.returnTile s).emptyCtx c
        let images := if p.last then l.map Prod.fst else p.q.images ++ (l.map Prod.fst).take 1
        let images := sortBy (fun a b => decide (a.member < b.member)) images
        let s := s.updQuire p.q.id fun q => { q with named := p.q.named, images := images }
        .next (if p.last then s.finishSave p.q images zs else s)
  else .next s

/-- What CONTEXT_SAVE would do now: enter SAVING, write, or ask for what a write of a session waits for. -/
def State.saveDue (s : State) (c : Nat) : Bool :=
  let x := s.ctx c
  (x.st = .frozen && s.savable c) ||
    (s.imageDue c && (match s.saveReady c with
      | (t, none) => !(t.pkg.snoops = s.pkg.snoops && t.pkg.atsReq = s.pkg.atsReq)
      | (_, some (p, _)) => decide (p.need x.frames.length ≤ (s.part x.part).frames.length)))

/-- Does a save find fewer frames on the list than it needs (R348): at first, and again when those that FRMSET added run out? -/
def State.framesShort (s : State) (c : Nat) : Bool :=
  let x := s.ctx c
  let fs := (s.part x.part).frames
  s.imageDue c && (!x.frameWait || !fs.isEmpty) && (match s.saveReady c with
    | (_, some (p, _)) => decide (fs.length < p.need x.frames.length)
    | _ => false)

/-- FRAME_EXHAUSTION (R348): a save that finds too few frames takes those there are and waits; a FRAME record is logged and
vector 4p + 2 raised. -/
def execFrameExhaustion (c : Nat) (s : State) : Out :=
  let x := s.ctx c
  if s.framesShort c then
    let fs := (s.part x.part).frames
    let s := s.updPart x.part fun q => { q with frames := [] }
    let s := s.setCtx c { x with frames := x.frames ++ fs, frameWait := true }
    let r := mkRec c x { cls := 0x0F, code := 1 }
    let rest := x.st = .retired || x.st = .dormant
    .next (s.hflog [r.w0.toNat, if rest then 0 else x.pc, x.frames.length + fs.length, 0, 0, 0, 0, 0] (4 * x.part + 2))
  else .next s

end Sys2Proof.Machine
end

