-- ==== Sys2Proof/Machine/Sched.lean ====
section
/-! DEFINITION. The partition scheduler (R48 to R51, R58 to R66, R190, R316, R370, R371): passes and placement, claims, the
start signal, stops at safe points, retirement, slices; and the delivery of faults and terminations (R338, R341). -/

namespace Sys2Proof.Machine

open Sys2Proof

/-! Placement (R48, R62). -/

/-- The EMPTY contexts of a core that can be claimed, lowest first. -/
def State.emptyOn (s : State) (core : Nat) : List Nat :=
  ((upto 4).map (4 * core + ·)).filter fun c => (s.ctx c).st = .empty && !s.zeroing.contains c

/-- Contexts of a core not in state EMPTY. -/
def State.fullness (s : State) (core : Nat) : Nat :=
  (((upto 4).map (4 * core + ·)).filter fun c => !((s.ctx c).st = .empty)).length

/-- The cores of a column that placement may use, in order of choice: fewest contexts not EMPTY, then lower number. -/
def State.coreOrder (s : State) (col : Nat) : List Nat :=
  sortBy (fun a b => decide (s.fullness a < s.fullness b))
    (((upto 4).map (4 * col + ·)).filter fun k => !(s.core k).lasting && !(s.emptyOn k).isEmpty)

/-- The sublists of `k` elements, the earlier elements preferred. -/
def chooseK {α : Type} : Nat → List α → List (List α)
  | 0, _ => [[]]
  | _ + 1, [] => []
  | k + 1, a :: l => (chooseK k l).map (a :: ·) ++ chooseK (k + 1) l

/-- The image of a member of a saved quire. -/
def Quire.image (q : Quire) (m : Nat) : Option Image := findFirst (fun i => i.member = m) q.images

/-- Has a core room for what a saved member brings (R62)? -/
def State.memberFits (s : State) (q : Quire) (m core : Nat) : Bool :=
  match q.image m with
  | none => true
  | some i =>
    let need := sumN ((i.tiles.filter fun t => !(t.2.level = .BASE)).map fun t => t.2.space)
    decide (s.coreUsed core + need ≤ corePool) && (need = 0 || !s.zeroing.contains (genMem core)) &&
      i.accs.all (fun a => (tget {} (s.core core).accs a.1).holder.isNone && !s.zeroing.contains (genAcc core a.1)) &&
      i.lats.all fun l => (tget {} (s.core core).lats l.1).holder.isNone && !s.zeroing.contains (genLat core l.1)

/-- Has a quad room for the kept maps and the saved session of the members it would take (R281, R296)? -/
def State.quadFits (s : State) (q : Quire) (quad : Nat) (ms : List Nat) : Bool :=
  let maps := sumN (ms.map fun m => match q.image m with
    | some i => (i.ctx.maps.filter fun e => e.2.isValid).length
    | none => 0)
  let zs := q.sessions.filter fun z => ms.contains z.home
  decide (s.mapsUsed quad + maps ≤ 16) && (zs.isEmpty || (zs.length = 1 && (s.session quad).isNone))

/-- Has a partition's base pool in a stack room for a saved quire's BASE tiles (R62)? -/
def State.baseFits (s : State) (q : Quire) (stack : Nat) : Bool :=
  let need := sumN (q.images.map fun i => sumN ((i.tiles.filter fun t => t.2.level = .BASE).map fun t => t.2.space))
  decide (need ≤ s.baseFree q.part stack) && (need = 0 || !((s.baseCols q.part stack).any fun c => s.zeroing.contains (genBase c)))

/-- The contexts of `k` cores of a column for the members from `m` on: the first cores in order that have room. -/
def State.placeCol (s : State) (q : Option Quire) (col k m : Nat) : Option (List Nat) :=
  (chooseK k (s.coreOrder col)).findSome? fun l =>
    let l := sortBy (fun a b => decide (a < b)) l
    let ok : Bool := match q with
      | none => true
      | some q => l.zipIdx.all (fun e => s.memberFits q (m + e.2) e.1) && s.quadFits q col ((upto k).map (m + ·))
    if ok then some (l.map fun core => (s.emptyOn core).headD 0) else none

/-- The contexts of several columns, in ascending number, each with the cores it takes. -/
def State.placeCols (s : State) (q : Option Quire) : List (Nat × Nat) → Nat → Option (List Nat)
  | [], _ => some []
  | (col, k) :: l, m =>
    match s.placeCol q col k m, s.placeCols q l (m + k) with
    | some a, some b => some (a ++ b)
    | _, _ => none

/-- Is column `a` cooler than column `b`, the lower number first among equals (R48)? -/
def State.cooler (s : State) (a b : Nat) : Bool := decide (s.temp a < s.temp b) || (decide (s.temp a = s.temp b) && decide (a < b))

/-- The eligible columns of a partition in a stack, coolest first (R48). -/
def State.eligible (s : State) (part stack cpq : Nat) : List Nat :=
  sortBy s.cooler (((upto 8).map (8 * stack + ·)).filter fun c => bit (s.part part).cols c && decide (cpq ≤ (s.coreOrder c).length))

/-- PLACEMENT (R48, R62): the contexts of the members in order, none when no stack has room. A saved quire tries every choice
of columns and cores in order of preference. -/
def State.place (s : State) (part : Nat) (l : BitVec 512) (q : Option Quire) : Option (List Nat) :=
  let n := lQuads l
  let cands := (upto 4).filterMap fun t =>
    let e := s.eligible part t (lCpq l)
    if e.length < n then none else some (t, e, s.temp ((e.take n).getLastD 0))
  let order := sortBy (fun (a b : Nat × List Nat × Int) => decide (a.2.2 < b.2.2)) cands
  order.findSome? fun (t : Nat × List Nat × Int) =>
    let room : Bool := match q with | some q => s.baseFits q t.1 | none => true
    if !room then none
    else
      (match q with | none => [t.2.1.take n] | some _ => chooseK n t.2.1).findSome? fun (cols : List Nat) =>
        let hot := cols.getLastD 0
        let asc := sortBy (fun a b => decide (a < b)) cols
        s.placeCols q (asc.map fun c => (c, if c = hot then lMembers l - lCpq l * (n - 1) else lCpq l)) 0

/-- Could a quire fit the partition's columns if they were empty (R49)? -/
def State.couldFit (s : State) (part : Nat) (l : BitVec 512) : Bool :=
  (upto 4).any fun t =>
    decide (lQuads l ≤ (((upto 8).map (8 * t + ·)).filter fun c => bit (s.part part).cols c &&
      decide (lCpq l ≤ (((upto 4).map (4 * c + ·)).filter fun k => !(s.core k).lasting).length)).length)

/-! Claims (R50, R61). -/

/-- A member as it is claimed for a letter (R50, R332). -/
def claimedCtx (l : BitVec 512) (part quire m : Nat) (lvl : Level) (cycle : Nat) : Ctx :=
  { st := .claimed, pc := lEntry l,
    s := tset 0 (tset 0 (tset 0 [] 1 (BitVec.ofNat 64 (lArgs l))) 2 (BitVec.ofNat 64 m)) 3 (BitVec.ofNat 64 (lMembers l)),
    level := lvl, owner := lOwner l, quire := quire, member := m, members := lMembers l, part := part, tenant := lTenant l,
    born := cycle }

/-- Claims contexts for a letter: all of them in one step (R48, R50). -/
def State.claim (s : State) (part : Nat) (l : BitVec 512) (cs : List Nat) : State :=
  let n := s.newSerial
  let w := n.2.newWait
  let s := w.2
  let lvl := s.startLevel part (lTenant l) (lEntry l)
  let s := cs.zipIdx.foldl (fun s e => (s.setCtx e.1 (claimedCtx l part n.1 e.2 lvl s.cycle)).bumpGen e.1) s
  let q : Quire := { id := n.1, part := part, letter := l, st := .claimed, members := cs, quads := lQuads l, size := lMembers l,
                     broken := false, recorded := false, dismissed := false, resuming := false, stopping := false, named := [],
                     wait := w.1, images := [], sessions := [] }
  { s with quires := s.quires ++ [q] }

/-- A saved tile where its quire resumes. -/
def State.movedTile (s : State) (q : Quire) (cs : List Nat) (m : Nat) (t : Tile) : Tile :=
  let home := match t.level with | .LOCAL => m | .QUIRE => t.member | .BASE => 0
  let t := { t with core := coreOf (cs.getD home 0), stack := stackOf (cs.headD 0), part := q.part }
  { t with place := s.placeTile t }

/-- Takes the room that a saved member needs, with its claim (R62, R281). -/
def State.takeRoom (s : State) (q : Quire) (cs : List Nat) (i : Image) : State :=
  let c := cs.getD i.member 0
  let k := coreOf c
  let s := i.tiles.foldl (fun (s : State) (t : Nat × Tile) =>
    let t := s.movedTile q cs i.member t.2
    t.gens.foldl State.bumpGen { s with tiles := s.tiles ++ [t] }) s
  let s := i.accs.foldl (fun (s : State) (a : Nat × AccTile) =>
    (s.setAcc k a.1 { a.2 with holder := some c }).bumpGen (genAcc k a.1)) s
  let s := i.lats.foldl (fun (s : State) (l : Nat × LatchT) =>
    (s.setLatch k l.1 { l.2 with holder := some c }).bumpGen (genLat k l.1)) s
  let x : Ctx := { st := .claimed, pc := i.ctx.pc, level := i.ctx.level, owner := i.ctx.owner, quire := q.id, member := i.member,
                   members := q.size, part := q.part, tenant := i.ctx.tenant, maps := i.ctx.maps, dismissed := q.dismissed,
                   born := s.cycle }
  (s.setCtx c x).bumpGen c

/-- Claims contexts for a saved quire, with the room its members need and the networks of its sessions (R61, R62, R296). -/
def State.reclaim (s : State) (q : Quire) (cs : List Nat) : State :=
  let w := s.newWait
  let s := q.images.foldl (fun s i => s.takeRoom q cs i) w.2
  let s := q.sessions.foldl (fun (s : State) (z : Session) =>
    let c := cs.getD z.home 0
    s.setSession (colOf c) (some { z with ctx := c })) s
  s.updQuire q.id fun q => { q with st := .claimed, members := cs, resuming := true, wait := w.1, sessions := [] }

/-- The sessions of a quire in the networks. -/
def State.openSessions (s : State) (q : Nat) : List (Nat × Session) :=
  (upto 32).filterMap fun n => match s.session n with
    | some z => if z.quire = q then some (n, z) else none
    | none => none

/-- A quire stopped before its start signal releases its claims (R60): its letter returns to the head of its queue, unplaced for no
pass and not reserving (log 82), or it is saved as before. -/
def State.release (s : State) (q : Quire) : State :=
  let zs := s.openSessions q.id
  let s := zs.foldl (fun s z => s.setSession z.1 none) s
  let ids := (s.tiles.filter fun t => t.quire = q.id).map Tile.id
  let s := ids.foldl State.returnTile s
  let s := (q.members.filter fun c => (s.ctx c).quire = q.id).foldl State.emptyCtx s
  if q.resuming then
    s.updQuire q.id fun q => { q with st := .saved, members := [], resuming := false, stopping := false, sessions := zs.map Prod.snd }
  else
    let s := { s with quires := s.quires.filter fun x => !(x.id = q.id) }
    s.updPart q.part fun p => { p with queues := tset [] p.queues (lPrio q.letter) (⟨q.letter, 0, false⟩ :: p.queue (lPrio q.letter)) }

/-! Completion words and fault records (R47, R341). -/

/-- Writes a word through a tenant's translation, as a member's store would: none yet while a translation, a snoop or a switch
is awaited. It is dropped where it does not translate to a writable leaf, or reaches a retired page (R47). -/
def State.writeDone (s : State) (part tenant owner va v : Nat) : State × Bool :=
  if 2 ^ 56 ≤ va then (s, true)
  else
    match s.walkOwn part tenant va with
    | .wait p => (s.askHost p, false)
    | .err e =>
      let s := s.useAsks (s.walkAsks part tenant va)
      (if e = 13 then s.count part 1 else s, true)
    | .ok t =>
      let pa := t.pa + va % 2 ^ t.size
      if (s.leafErr .S .write false t pa).isSome then
        (if s.leafErr .S .write false t pa = some 13 then s.count part 1 else s, true)
      else if (s.guardOf pa).isSome then (match s.guardOf pa with | some q => s.guardHit q | none => s, true)
      else if s.marked pa 8 then (s, false)
      else
        match s.snoopFirst pa with
        | (s, true) => (s, false)
        | (s, false) =>
          let p := s.portFor owner part tenant va ⟨pa, t.pin, t.elide, none⟩
          let s := (s.useAsks (s.walkAsks part tenant va)).strikeMem .none p pa 8 true
          if (s.pageErr t.elide pa).isSome then (s, true) else ((s.setC t).writePa p pa (toBytes 8 v), true)

/-- Writes words one after another. -/
def State.writeDones (s : State) (part tenant owner va : Nat) : List Nat → State × Bool
  | [] => (s, true)
  | v :: l =>
    match s.writeDone part tenant owner va v with
    | (s, true) => s.writeDones part tenant owner (va + 8) l
    | (s, false) => (s, false)

/-- Has a write that did not end asked for something it had not asked for? -/
def State.asks (t s : State) : Bool := !(t.pkg.snoops = s.pkg.snoops && t.pkg.atsReq = s.pkg.atsReq)

/-- The completion word of a letter (Table 3.3), and its interrupt (R47, R317). -/
def State.complete (s : State) (part : Nat) (l : BitVec 512) (status : Nat) : State × Bool :=
  match s.writeDone part (lTenant l) (lOwner l) (lDone l) (status * 2 ^ 32 + lSeq l) with
  | (s, true) => (if lIrq l then s.raise (4 * part) else s, true)
  | (s, false) => (s, false)

/-! Passes (R48, R49, R62, R66, R371). -/

/-- The saved quires of a partition that wait at the head of a queue, in the order they were saved (R62). -/
def State.savedAt (s : State) (part prio : Nat) : List Quire :=
  s.quires.filter fun q => q.part = part && q.st = .saved && lPrio q.letter = prio

/-- A KIND 2 letter dismisses the handler quires it names, or counts in LETREF (R66). -/
def State.dismiss (s : State) (part : Nat) (l : BitVec 512) : State :=
  let hit := fun (q : Quire) => q.part = part && lKind q.letter = 1 && lTenant q.letter = lTenant l && lSeq q.letter = lSeq l
  if s.quires.any hit then
    (s.quires.filter hit).foldl (fun s q =>
      let s := s.updQuire q.id fun q => { q with dismissed := true,
                                                 images := q.images.map fun i => { i with ctx := { i.ctx with dismissed := true } } }
      (q.members.filter fun c => (s.ctx c).quire = q.id).foldl (fun s c => s.updCtx c fun x => { x with dismissed := true }) s) s
  else s.count part 7

/-- The first letter of a queue leaves it; its reserving state ends with it (R49). -/
def State.leaveQueue (s : State) (part prio : Nat) : State :=
  s.updPart part fun p =>
    { p with queues := tset [] p.queues prio (p.queue prio).tail,
             reserving := match p.queue prio with | l :: _ => if l.holds then none else p.reserving | [] => p.reserving }

/-- One more pass leaves a queue's head unplaced (R49). -/
def State.leftLetter (s : State) (part prio : Nat) (l : Letter) : State :=
  let n := if s.couldFit part l.bits then l.passes + 1 else 0
  s.updPart part fun p => { p with queues := tset [] p.queues prio ({ l with passes := n } :: (p.queue prio).tail) }

/-- One more pass leaves a saved quire unplaced. -/
def State.leftSaved (s : State) (part : Nat) (q : Quire) : State :=
  s.updPart part fun p =>
    { p with savedPass := tset 0 p.savedPass q.id (if s.couldFit part q.letter then tget 0 p.savedPass q.id + 1 else 0) }

/-- A pass over one queue: its head is placed, refused, acted on, or stays. While a saved quire stands at the head, the
letters behind it keep their passes (DESIGN CHOICE, log 82). -/
def State.passQueue (s : State) (part prio : Nat) : State :=
  let p := s.part part
  let may := fun (l : BitVec 512) =>
    (match p.run with | some r => r.tenant = lTenant l | none => false) &&
      (match p.reserving with | some k => decide (k ≤ prio) | none => true)
  match s.savedAt part prio with
  | q :: _ =>
    match (if may q.letter then s.place part q.letter (some q) else none) with
    | some cs =>
      ((s.reclaim q cs).updQuire q.id fun q => { q with holds := false }).updPart part fun p =>
        { p with savedPass := tset 0 p.savedPass q.id 0, reserving := if q.holds then none else p.reserving }
    | none => s.leftSaved part q
  | [] =>
    match p.queue prio with
    | [] => s
    | l :: _ =>
      if lKind l.bits = 2 then (s.dismiss part l.bits).leaveQueue part prio
      else
        match (if may l.bits then s.place part l.bits none else none) with
        | some cs =>
          match s.letterWants part l.bits with
          | some k => (s.askHost k).leftLetter part prio l
          | none =>
          let s := s.strikeCode .none part (lTenant l.bits) (lEntry l.bits)
          if s.letterPlaceable part l.bits then (s.leaveQueue part prio).claim part l.bits cs
          else
            match s.complete part l.bits 3 with
            | (s, true) => (s.leaveQueue part prio).count part 7
            | (s, false) => s
        | none => s.leftLetter part prio l

/-- SCHEDULER_PASS (R48): every 64 cycles, the queues from priority 7 down to 0. While the TDI is in ERROR, whose contexts are
all frozen, none is claimed (R378). -/
def execSchedulerPass (part : Nat) (s : State) : Out :=
  if (s.part part).en && s.cycle % 64 = 0 && !((s.part part).tdi = .error) then .next ([7, 6, 5, 4, 3, 2, 1, 0].foldl (fun s k => s.passQueue part k) s)
  else .next s

/-- The passes for which the head of a queue has stayed unplaced (R49). -/
def State.headPasses (s : State) (part prio : Nat) : Nat :=
  match s.savedAt part prio with
  | q :: _ => tget 0 (s.part part).savedPass q.id
  | [] => match (s.part part).queue prio with | l :: _ => l.passes | [] => 0

/-- Does the head of a queue become reserving now: unplaced for 1,024 passes, and no head of this or a higher priority is
reserving? -/
def State.reserves (s : State) (part prio : Nat) : Bool :=
  decide (1024 ≤ s.headPasses part prio) && (match (s.part part).reserving with | some k => decide (k < prio) | none => true)

/-- The head of a queue becomes reserving, and no other letter or quire of the partition is (R49). -/
def State.setHolds (s : State) (part prio : Nat) : State :=
  let saved := (s.savedAt part prio).head?.map Quire.id
  let s := { s with quires := mapIf (fun q => q.part = part) (fun q => { q with holds := saved = some q.id }) s.quires }
  s.updPart part fun p =>
    { p with reserving := some prio,
             queues := p.queues.map fun (e : Nat × List Letter) => (e.1, e.2.zipIdx.map fun l =>
               { l.1 with holds := saved.isNone && e.1 = prio && l.2 = 0 }) }

/-- LETTER_RESERVING (R49). -/
def execLetterReserving (part prio : Nat) (s : State) : Out :=
  if s.reserves part prio then .next (s.setHolds part prio) else .next s

/-! The start signal (R51, R61). -/

/-- A saved member as it starts again (R61, R343): READY at its saved bundle, or with its kept fault to be delivered. -/
def Image.restored (i : Image) (q : Quire) (tiles : Tbl Nat) (now cycle : Nat) : Ctx :=
  let x := { i.ctx with quire := q.id, tiles := tiles, born := cycle, buckets := [], dismissed := q.dismissed }
  if i.kind = 2 then { x with st := if i.dormant then .dormant else .retired }
  else
    { x with st := .ready }.takeKept now

/-- The tile table of a resuming member: its LOCAL tiles and every shared tile of the quire (R347). -/
def Quire.tableOf (q : Quire) (i : Image) : Tbl Nat :=
  let own := i.tiles.filter fun t => t.2.level = .LOCAL
  let shared := (q.images.flatMap Image.tiles).filter fun t => !(t.2.level = .LOCAL)
  (own ++ shared).foldl (fun (t : Tbl Nat) (e : Nat × Tile) => tset 0 t e.1 e.2.id) []

/-- One member starts, its first bundle not before the signal reaches its core (R51). -/
def State.startMember (s : State) (q : Quire) (m : Nat) : State :=
  let c := q.members.getD m 0
  let x := s.ctx c
  if !(x.st = .claimed) || !(x.quire = q.id) then s
  else
    let w := s.newFree
    let s := w.2
    let at_ := s.now c + w.1
    match (if q.resuming then q.image m else none) with
    | some i =>
      let s := s.strikeFramesOf q.part i
      let y := { i.restored q (q.tableOf i) (s.now c) s.cycle with bubble := at_ }
      let s := s.setCtx c (if i.ctx.maps.isEmpty then y else { y with maps := s.mapsOf q.part i })
      ((s.updPart q.part fun p => { p with frames := p.frames ++ i.frames }).replayMember q.part (lSeq q.letter) m c).checkStart c
    | none =>
      (s.setCtx c { x with st := if lKind q.letter = 1 then .dormant else .ready, bubble := at_ }).checkStart c

/-- The host page that the start of a quire's members waits for (R312). -/
def State.startWants (s : State) (q : Quire) : Option Nat :=
  q.members.findSome? fun c => s.codeWants q.part (lTenant q.letter) (s.ctx c).pc

/-- Are frames of a saved quire's images still to be written (R60, R281)? -/
def State.framesBusy (s : State) (q : Quire) : Bool :=
  !s.pkg.posted.isEmpty && q.images.any fun i => i.frames.any fun f => s.pkg.posted.any fun w => w.pa / 4096 = f / 4096

/-- May the start signal of a quire go out: every member claimed and written, none asked to stop (R51, R60), and none frozen with
its TDI (R378)? -/
def State.startReady (s : State) (q : Quire) : Bool :=
  q.st = .claimed && !((s.part q.part).tdi = .error) && decide (q.wait ≤ s.cycle) &&
    q.members.all (fun c => (s.ctx c).stop.isNone) && !s.framesBusy q && (s.startWants q).isNone

/-- The contexts of a core in a breach that have just started stand still with it (R117). -/
def State.freezeStarted (s : State) (q : Quire) : State :=
  q.members.foldl (fun s c => if (s.core (coreOf c)).breach.isSome then s.breachFreeze (coreOf c) else s) s

/-- START_SIGNAL (R51, R61). -/
def execStartSignal (quire : Nat) (s : State) : Out :=
  match s.quire quire with
  | none => .next s
  | some q =>
    if s.startReady q then
      let s := ((upto q.size).foldl (fun s m => s.startMember q m) s).freezeStarted q
      .next (s.updQuire quire fun q => { q with st := .running, resuming := false, images := [], named := [] })
    else .next s

/-! Safe-point stops (R59, R60). -/

/-- Is a context at the point where its stop takes it to SAVING, or claimed with a stop? -/
def State.stopsNow (s : State) (c : Nat) : Bool :=
  ((s.ctx c).st = .claimed && (s.ctx c).stop.isSome) || s.look c = .stops

/-- SAFE_POINT_STOP (R59): a stopping context whose next bundle is a safe point enters SAVING; a quire not yet started
releases its claims (R60). -/
def execSafePointStop (c : Nat) (s : State) : Out :=
  let x := s.ctx c
  if x.st = .claimed && x.stop.isSome then
    match s.quire x.quire with
    | some q => .next (s.release q)
    | none => .next s
  else if s.look c = .stops then
    .next (s.setCtx c { x.resumed (s.now c) with st := .saving, saveUrgent := false, block := x.block.afterStop })
  else .next s

/-! Retirement (R64, R66, R190). -/

/-- May a context retire: it has executed EXIT and nothing of its own is left, or is a dismissed handler that waits?
Results that a TRET after EXIT replays land first (log 20). -/
def State.retireDue (s : State) (c : Nat) : Bool :=
  let x := s.ctx c
  (x.exiting && (x.st = .ready || x.st = .blocked) && s.drained c && x.replay.isEmpty) || (x.st = .dormant && x.dismissed)

/-- CONTEXT_RETIRE (R190, R282): grants, maps, hold latches and loops go; a handler not dismissed waits DORMANT again (R65). -/
def execContextRetire (c : Nat) (s : State) : Out :=
  if s.retireDue c then
    let x := s.ctx c
    let kind := match s.quire x.quire with | some q => lKind q.letter | none => 0
    let st : CtxState := if kind = 1 && !x.dismissed then .dormant else .retired
    .next ((s.dropGrants c).setCtx c
      { x with st := st, exiting := false, holds := [], loops := [], depth := 0, maps := [], block := .none,
               stop := none, age := 0, aged := false })
  else .next s

/-- Have all members of a quire retired? -/
def State.allRetired (s : State) (q : Quire) : Bool :=
  q.st = .running && q.images.isEmpty && q.members.all fun c => (s.ctx c).quire = q.id && (s.ctx c).st = .retired

/-- STATUS of a quire's completion word (Table 3.3). -/
def Quire.status (q : Quire) : Nat := if q.broken then 1 else if q.dismissed then 2 else 0

/-- Frees the tiles and sessions of a quire, and with its last tiles the generations they used (R64 steps 1 and 2, R296). -/
def State.freeThings (s : State) (q : Quire) : State :=
  let s := ((s.tiles.filter fun t => t.quire = q.id).map Tile.id).foldl State.returnTile s
  (s.openSessions q.id).foldl (fun s z => s.setSession z.1 none) s

/-- The contexts of a quire return to EMPTY, and it is no more (R47, R374). -/
def State.endQuire (s : State) (q : Quire) : State :=
  let s := (q.members.filter fun c => (s.ctx c).quire = q.id).foldl State.emptyCtx (s.idleBroken q.id)
  let s := s.updPart q.part fun p => { p with savedPass := tset 0 p.savedPass q.id 0 }
  { s with quires := s.quires.filter fun x => !(x.id = q.id) }

/-- QUIRE_RETIRE (R47, R64): everything of the quire is freed, then its completion word is written, which may have to wait, then
its contexts are EMPTY. -/
def execQuireRetire (quire : Nat) (s : State) : Out :=
  match s.quire quire with
  | none => .next s
  | some q =>
    if s.allRetired q then
      match (s.freeThings q).complete q.part q.letter q.status with
      | (s, true) => .next (s.endQuire q)
      | (s, false) => .next s
    else .next s

/-- Would QUIRE_RETIRE do anything now? -/
def State.quireDue (s : State) (q : Quire) : Bool :=
  s.allRetired q && ((s.tiles.any fun t => t.quire = q.id) || !(s.openSessions q.id).isEmpty ||
    (match (s.freeThings q).complete q.part q.letter q.status with
      | (_, true) => true
      | (t, false) => t.asks s))

/-! Slices (R59, R120, R316). -/

/-- Does a quire give its tenant work: saved, or with a member neither RETIRED nor DORMANT (R316)? -/
def State.quireWorks (s : State) (q : Quire) : Bool :=
  !(q.st = .running) || !q.images.isEmpty ||
    q.members.any fun c => (s.ctx c).quire = q.id && !((s.ctx c).st = .retired || (s.ctx c).st = .dormant)

/-- Has an enabled tenant work (R316)? -/
def State.hasWork (s : State) (part t : Nat) : Bool :=
  (tget {} (s.part part).tenants t).en &&
    (s.quires.any (fun q => q.part = part && lTenant q.letter = t && s.quireWorks q) ||
      (s.part part).queues.any fun e => e.2.any fun l => lTenant l.bits = t)

/-- The next tenant with work in the rotation after `t`. -/
def State.nextTenant (s : State) (part t : Nat) : Option Nat :=
  findFirst (s.hasWork part) ((upto 8).map fun i => (t + 1 + i) % 8)

/-- Grants a slice to a tenant, with its repayment (R120). -/
def State.grantSlice (s : State) (part t : Nat) : State :=
  s.updPart part fun p =>
    let x := tget ({} : Tenant) p.tenants t
    let more := min (x.repay / 8) x.slice
    { p with tenants := tset {} p.tenants t { x with repay := x.repay - 8 * more },
             run := some ⟨t, s.cycle + x.slice + more, s.cycle⟩ }

/-- Starts a slice where none runs and a tenant has work. -/
def State.firstSlice (s : State) (part : Nat) : State :=
  if (s.part part).en && (s.part part).run.isNone then
    match findFirst (s.hasWork part) (upto 8) with
    | some t => s.grantSlice part t
    | none => s
  else s

/-- Sends stop requests to every context of a tenant's resident quires (R59). -/
def State.stopTenant (s : State) (part t : Nat) : State :=
  (s.quires.filter fun q => q.part = part && lTenant q.letter = t && !(q.st = .saved)).foldl (fun s q =>
    let s := s.updQuire q.id fun q => { q with stopping := true }
    (q.members.filter fun c => (s.ctx c).quire = q.id).foldl State.requestStop s) s

/-- Does the slice of a partition end now (R316)? -/
def State.sliceOver (s : State) (part : Nat) : Bool :=
  match (s.part part).run with
  | none => false
  | some r =>
    decide (r.since < s.cycle) && (decide (r.stop ≤ s.cycle) || !s.hasWork part r.tenant)

/-- SLICE_END (R59, R316). -/
def execSliceEnd (part : Nat) (s : State) : Out :=
  match (s.part part).run with
  | none => .next s
  | some r =>
    if s.sliceOver part then
      match s.nextTenant part r.tenant with
      | none => .next (s.updPart part fun p => { p with run := none })
      | some t => .next (if t = r.tenant then s.grantSlice part t else (s.stopTenant part r.tenant).grantSlice part t)
    else .next s

/-! Delivery of faults (R338, R341, R364). -/

/-- The words of a context's fault record, TRETPC and TSTAT last (R337). -/
def Ctx.recordWords (x : Ctx) (r : Rec) : List Nat :=
  [r.w0.toNat, r.pc.toNat, r.adr.toNat, r.opa.toNat, r.opb.toNat, r.opc.toNat, x.tretpc.toNat, x.tstat]

/-- The host page that the checks of a context's trap handler wait for (R312, R351). -/
def State.handlerWants (s : State) (c : Nat) : Option Nat :=
  let x := s.ctx c
  if x.level = .U && (s.tvec x).getLsbD 63 then s.codeWants x.part x.tenant ((s.tvec x).toNat % 2 ^ 56) else none

/-- Does the snapshot of a context that takes a fault hold every result (R338)? -/
def Ctx.captured (x : Ctx) : Bool := x.frz.fault.isSome && x.dying.isNone && x.inflight.all fun l => !l.isReg

/-- Is a fault to be delivered (R338)? -/
def State.trapDue (s : State) (c : Nat) : Bool := (s.ctx c).captured && (s.handlerWants c).isNone

/-- May a trap handler begin at an address: a bundle start that can be fetched at level S (R165, R168, R351)? -/
def State.handlerOk (s : State) (c a : Nat) : Bool :=
  let x := s.ctx c
  let s := s.setCtx c { x with level := .S }
  (s.startErr x.part x.tenant a).isNone &&
    (match s.fetchAll c a (s.objectAt x.part x.tenant a) with | .err _ => false | _ => true)

/-- Is a fault delivered to the handler of the context's tenant (R338, R364, R165)? -/
def State.handled (s : State) (c : Nat) (r : Rec) : Bool :=
  let x := s.ctx c
  let v := s.tvec x
  x.level = .U && v.getLsbD 63 && !(r.cls = 0x10) && !(r.cls = 0x0B && r.code = 9) && s.handlerOk c (v.toNat % 2 ^ 56)

/-- TRAP_DELIVERY (R338): to the trap handler, or the context begins to end. A second-stage fault is told to the hypervisor too
(R364). -/
def execTrapDelivery (c : Nat) (s : State) : Out :=
  let x := s.ctx c
  match x.frz.fault with
  | none => .next s
  | some (r, _, _) =>
    let s0 := s
    let s := if s.trapDue c && s.handled c r then s.strikeCode (.ctx c none) x.part x.tenant ((s.tvec x).toNat % 2 ^ 56) else s
    if s0.struckBad s then .next s
    else if s.trapDue c then
      if s.handled c r then
        let y := x.enterTrap r (s.tvec x)
        .next ((s.setCtx c (if y.frz.clear then y else { y with st := .frozen })).enter c)
      else
        let y := x.beginDeath r
        let s := s.setCtx c y
        .next (if r.cls = 0x0B && r.code = 9 then
            s.hflog (y.recordWords (match y.dying with | some d => d | none => r)) (4 * x.part + 2)
          else s)
    else .next s

/-- A terminated context with nothing left to wait for: its commands and calls have completed, but for calls whose load pipe
stands at a fault, which end with it (R341, R365). -/
def State.deathDue (s : State) (c : Nat) : Bool :=
  let x := s.ctx c
  x.dying.isSome && x.loadQ.isEmpty && x.storeQ.isEmpty && x.inflight.all (fun l => !l.isReg) && !(s.cmds.any fun e => e.ctx = c) &&
    s.calls.all fun k => !(k.ctx = c) || k.stopped.isSome

/-- Writes the fault record of a quire's first terminated member at DONE + 8 (R341). -/
def State.writeRecord (s : State) (c : Nat) (r : Rec) : State × Bool :=
  let x := s.ctx c
  match s.quire x.quire with
  | some q =>
    if q.recorded then (s, true)
    else
      match s.writeDones q.part (lTenant q.letter) (lOwner q.letter) (lDone q.letter + 8) (x.recordWords r) with
      | (s, true) => (s.updQuire q.id fun q => { q with recorded := true }, true)
      | (s, false) => (s, false)
  | none => (s, true)

/-- The context enters RETIRED by termination, and its quire is broken (R341, R374). -/
def State.endContext (s : State) (c : Nat) : State :=
  let s := (s.calls.filter fun k => k.ctx = c).foldl State.dropCall s
  let s := s.dropGrants c
  let x := s.ctx c
  let s := s.updPart x.part fun p => { p with frames := p.frames ++ x.frames }
  let s := s.setCtx c
    { x with st := .retired, frames := [], frameWait := false, dying := none, snap := none, frz := {}, holds := [], loops := [], depth := 0, maps := [], stop := none,
             block := .none, inflight := [], replay := [], ucap := [], exiting := false, pendFault := none, age := 0, aged := false }
  s.breakQuire x.quire

/-- CONTEXT_TERMINATE (R341). -/
def execContextTerminate (c : Nat) (s : State) : Out :=
  match (s.ctx c).dying with
  | none => .next s
  | some r =>
    if s.deathDue c then
      match s.writeRecord c r with
      | (s, true) => .next ((s.raise (4 * (s.ctx c).part + 1)).endContext c)
      | (s, false) => .next s
    else .next s

/-- Would CONTEXT_TERMINATE do anything now? -/
def State.endDue (s : State) (c : Nat) : Bool :=
  match (s.ctx c).dying with
  | none => false
  | some r => s.deathDue c && (match s.writeRecord c r with
    | (_, true) => true
    | (t, false) => t.asks s)

end Sys2Proof.Machine
end

