-- ==== Sys2Proof/Machine/System.lean ====
section
/-! DEFINITION. The system operations of slot C (R198 to R205, R337, R338, R385, R388) and the events that complete the
blocking ones. Their refusals stand in Machine/SysCheck.lean. -/

namespace Sys2Proof.Machine

open Sys2Proof

/-! System registers. -/

/-- SYSRD (R198): the value as the cycle began (R80). -/
def execSysrd (w : CW) (s : State) : Out :=
  s.runOp (.sysrd w) fun s r => s.result r.c r.f .s (s.sysSeen r.c w.imm24.toNat)

/-- SYSWR (R198). -/
def execSyswr (w : CW) (s : State) : Out :=
  s.runOp (.syswr w) fun s r => s.sysWrite r.c w.imm24.toNat (r.src 1)

/-- GOVLOAD_WRITE (R114). -/
def execGovloadWrite (w : CW) (s : State) : Out := s.runOp (.govloadWrite w) fun s r => s.sysWrite r.c 0x10 (r.src 1)

/-- TRETPC_WRITE (R337). -/
def execTretpcWrite (w : CW) (s : State) : Out := s.runOp (.tretpcWrite w) fun s r => s.sysWrite r.c 0x1C (r.src 1)

/-- TSTAT_WRITE (R338): 1 to HELD discards the held entries. -/
def execTstatWrite (w : CW) (s : State) : Out :=
  s.runOp (.tstatWrite w) fun s r => if bit (r.src 1) 3 then s.updCtx r.c Ctx.dropHeld else s

/-! Contracts, ways, ranges and the wheel. -/

/-- OWNSET (R199): applied at the next tick (R105); RUNG is ignored. -/
def execOwnset (w : CW) (s : State) : Out :=
  s.runOp (.ownset w) fun s r =>
    s.updOwner (r.src 0) fun o => { o with pendHdr := some (hSetRung (BitVec.ofNat 64 (r.src 1)) 0) }

/-- OWNLAT (R199): applied at the next tick. -/
def execOwnlat (w : CW) (s : State) : Out :=
  s.runOp (.ownlat w) fun s r =>
    s.updOwner (r.src 0) fun o => { o with pendLat := o.pendLat ++ [(w.imm24.toNat, r.src 1 % 65536)] }

/-- OWNBKT (R199, Table 10.9). -/
def execOwnbkt (w : CW) (s : State) : Out :=
  s.runOp (.ownbkt w) fun s r => s.setBucket (r.src 0) (bits (r.src 1) 42 32) (bits (r.src 1) 14 0)

/-- What OWNRD reads under a selector. -/
def Owner.read (o : Owner) (sel : Nat) : Nat :=
  if sel = 0 then o.hdr.toNat
  else if sel ≤ 16 then sumN ((upto 4).map fun j => tget 0 o.lat (4 * (sel - 1) + j) * 2 ^ (16 * j))
  else o.rate * 2 ^ 32 + o.depth

/-- OWNRD (R199): the record as the cycle began (R187). -/
def execOwnrd (w : CW) (s : State) : Out :=
  s.runOp (.ownrd w) fun s r => s.result r.c r.f .s ((s.atDawn.owner (r.src 1)).read w.imm24.toNat)

/-- WAYSET (R200). -/
def execWayset (w : CW) (s : State) : Out :=
  s.runOp (.wayset w) fun s r =>
    s.updOwner (r.src 0) fun o => { o with masks := tset 0xFFFF o.masks (bits (r.src 1) 25 16) (r.src 1 % 65536) }

/-- OCCRD (R200): the count as the cycle began (R187). -/
def execOccrd (w : CW) (s : State) : Out :=
  s.runOp (.occrd w) fun s r =>
    s.result r.c r.f .s (tget 0 s.atDawn.occ (256 * bits (r.src 1) 25 16 + r.src 1 % 256) % 2 ^ 11)

/-- RNGSET (R388). -/
def execRngset (w : CW) (s : State) : Out :=
  s.runOp (.rngset w) fun s r =>
    let n := w.imm24.toNat
    let e : Option Range :=
      if n = 0 then none
      else some { tenant := bits (r.src 0) 10 8, base := r.src 1, len := n * 2 ^ 21, device := false }
    s.updPart r.x.part fun p => { p with ranges := tset none p.ranges (r.src 0 % 64) e }

/-- WHLSET (R201): the new positions are in force from the next revolution on. -/
def execWhlset (w : CW) (s : State) : Out :=
  s.runOp (.whlset w) fun s r =>
    s.updCore (r.src 0) fun k =>
      { k with wheel := BitVec.ofNat 64 (r.src 1), wheelOld := match k.wheelOld with | some o => some o | none => some k.wheel }

/-! Translation and stores. -/

/-- Does TLBINV remove a translation (R202)? -/
def tlbDrops (part a b kind : Nat) (t : Trans) : Bool :=
  t.part = part &&
    (match kind with
     | 0 => t.tenant = a % 8
     | 1 => t.covers part (b % 8) a
     | _ => true)

/-- Removes translations from every list of a table. -/
def keepTrans (drop : Trans → Bool) (l : Tbl (List Trans)) : Tbl (List Trans) :=
  l.foldl (fun u e => tset [] u e.1 ((tget [] u e.1).filter fun t => !drop t)) l

/-- Removes translations from every TLB of the package. -/
def State.dropTrans (s : State) (drop : Trans → Bool) : State :=
  let s := s.quads.foldl (fun s e => s.updQuad e.1 fun q => { q with tlb := keepTrans drop q.tlb }) s
  s.stackTab.foldl (fun s e => s.updStack e.1 fun k => { k with tlb := k.tlb.filter fun t => !drop t }) s

/-- Stores of a partition that were translated ahead of their turn are to be translated again (R367). -/
def State.forgetStores (s : State) (part : Nat) : State :=
  s.mapCtxs fun _ x =>
    if x.part = part then
      { x with storeQ := x.storeQ.map fun e => if e.reach = 0 && e.tile = 0 then { e with known := false, units := [] } else e }
    else x

/-- Has a store of a partition that issued before a serial number been translated and not yet performed (R367)? -/
def State.translatedBefore (s : State) (part mark : Nat) : Bool :=
  s.ctxs.any fun e => e.2.part = part && e.2.storeQ.any fun f => !(f.reach = 0) && f.tile = 0 && decide (f.id < mark)

/-- The host's answers to a partition, and what it was asked for it, are forgotten: later walks ask again (R142, R202). -/
def State.forgetAsks (s : State) (part : Nat) : State :=
  s.updPkg fun k => { k with ats := k.ats.filter fun e => !(e.1 / 2 ^ 36 = part), atsReq := k.atsReq.filter fun e => !(e / 2 ^ 36 = part) }

/-- TLBINV (R202): the entries are dropped, with every answer of the host that walks keep (R142), and the context waits for the
acknowledgements. -/
def execTlbinv (w : CW) (s : State) : Out :=
  s.runOp (.tlbinv w) fun s r =>
    let s := (s.dropTrans (tlbDrops r.x.part (r.src 0) (r.src 1) w.imm24.toNat)).forgetStores r.x.part
    let s := s.forgetAsks r.x.part
    let t := s.newWait
    t.2.updCtx r.c fun x => { x with block := .tlbinv t.1 s.serial }

/-- TLBINV_COMPLETE (R202): every access that had translated is performed (R367). -/
def execTlbinvComplete (c : Nat) (s : State) : Out :=
  .next (match (s.ctx c).block with
    | .tlbinv t m =>
      if t ≤ s.cycle && !s.translatedBefore (s.ctx c).part m then s.updCtx c fun x => { x with block := .none } else s
    | _ => s)

/-- The cores a store write reaches (R203). -/
def State.storeCores (s : State) (r : Run) (w : CW) : List Nat :=
  if w.imm24 = 0 then [coreOf r.c] else (s.part r.x.part).coreList

/-- A store write issues: it waits on each core it reaches until that core's calls have ended (R78, R203). -/
def State.storeWrite (s : State) (r : Run) (w : CW) (routine : Bool) : State :=
  let p : PendWrite := { ctx := r.c, routine := routine, idx := r.src 0, word := BitVec.ofNat 64 (r.src 1) }
  let s := (s.storeCores r w).foldl (fun s n => s.updCore n fun k => { k with pend := k.pend ++ [p] }) s
  s.updCtx r.c fun x => { x with block := .storeWrite }

/-- MSWR (R203). -/
def execMswr (w : CW) (s : State) : Out := s.runOp (.mswr w) fun s r => s.storeWrite r w false

/-- RTSET (R203, R237). -/
def execRtset (w : CW) (s : State) : Out := s.runOp (.rtset w) fun s r => s.storeWrite r w true

/-- A pending write on a core. -/
def Core.applyWrite (k : Core) (p : PendWrite) : Core :=
  if p.routine then { k with routs := tset 0 k.routs p.idx p.word } else { k with store := tset 0 k.store p.idx p.word }

/-- A context whose store write every core it reaches has taken is no longer blocked by it. -/
def State.storeWaits (s : State) (c : Nat) : Bool := s.cores.any fun e => e.2.pend.any fun p => p.ctx = c

/-- STORE_WRITE_APPLY (R78): the pending writes of a core none of whose calls is in flight take effect. -/
def execStoreWriteApply (core : Nat) (s : State) : Out :=
  if s.calls.any fun k => k.core = core then .next s
  else
    let ps := (s.core core).pend
    let s := s.updCore core fun k => { ps.foldl Core.applyWrite k with pend := [] }
    .next (ps.foldl (fun s p =>
      if s.storeWaits p.ctx then s
      else s.updCtx p.ctx fun x => if x.block = .storeWrite then { x with block := .none } else x) s)

/-! Partitions (R204). -/

/-- The units of a range joined to a list or taken from it, in ascending order. -/
def rangeApply (v : Nat) (l : List Nat) : List Nat :=
  let r := rangeList (bits v 9 0) (bits v 25 16)
  if bit v 31 then l.filter fun u => !r.contains u
  else sortBy (fun a b => decide (a < b)) (l.filter (fun u => !r.contains u) ++ r)

/-- The quiet counts of instances that a partition gains are zero (R112). -/
def State.freshQuiet (s : State) (cls : Nat) (l : List Nat) : State :=
  { s with quiet := l.foldl (fun q i => tset 0 q (1024 * cls + i) 0) s.quiet }

/-- PARTSET. -/
def execPartset (w : CW) (s : State) : Out :=
  s.runOp (.partset w) fun s r => s.updPart (r.src 0) fun p => { p with en := bit (r.src 1) 0 }

/-- A core handed over to a partition: its default wheel positions, its store and routine table zeroed (R78). -/
def Core.handOver (k : Core) (n : Nat) : Core :=
  { k with wheel := BitVec.ofNat 64 (sumN ((upto 4).map fun j => (512 + 4 * n + j) * 2 ^ (10 * j))), wheelOld := none,
           store := [], routs := [] }

/-- The cores of a column. -/
def colCores (c : Nat) : List Nat := (upto 4).map (4 * c + ·)

/-- A WHEEL word without the positions of columns, 16 to a column. -/
def dropPositions (cols : List Nat) (w : Word) : Word :=
  (upto 4).foldl (fun (w : Word) j =>
    let f := bits w.toNat (10 * j + 9) (10 * j)
    if 512 ≤ f && cols.contains (f % 512 / 16) then w &&& ~~~(BitVec.ofNat 64 (1023 * 2 ^ (10 * j))) else w) w

/-- Columns lost give up their wheel positions, whichever cores WHLSET gave them to (R204). -/
def State.givePositions (s : State) (cols : List Nat) : State :=
  { s with cores := s.cores.map fun (e : Nat × Core) =>
      (e.1, { e.2 with wheel := dropPositions cols e.2.wheel, wheelOld := e.2.wheelOld.map (dropPositions cols) }) }

/-- PARTCOL: gained columns are handed over, lost ones given up, and the barrier networks shared out anew (R42). -/
def execPartcol (w : CW) (s : State) : Out :=
  s.runOp (.partcol w) fun s0 r =>
    let s := s0
    let old := (s.part (r.src 0)).cols
    let v := r.src 1 % 2 ^ 32
    let gained := (upto 32).filter fun c => bit v c && !bit old c
    let lost := (upto 32).filter fun c => !bit v c && bit old c
    let s := s.updPart (r.src 0) fun p => { p with cols := v }
    let s := (gained.flatMap colCores).foldl (fun s n => s.updCore n fun k => k.handOver n) s
    let s := s.givePositions lost
    let s := (lost.flatMap colCores).foldl (fun s n => s.updCore n fun k => { k with wheel := 0, wheelOld := none }) s
    let s := ((s.freshQuiet 0 (gained.flatMap colCores)).freshQuiet 1 gained).freshQuiet 4 gained
    s.recomputeNets s0

/-- PARTSLC: a release blocks until the slices are written back and invalidated. -/
def execPartslc (w : CW) (s : State) : Out :=
  s.runOp (.partslc w) fun s r =>
    let v := r.src 1
    if bit v 31 then
      let t := s.newWait
      t.2.updCtx r.c fun x => { x with block := .partslc (r.src 0) (bits v 9 0) (bits v 25 16) t.1 }
    else
      let s := s.freshQuiet 2 ((rangeApply v (s.part (r.src 0)).slices).filter fun u => !(s.part (r.src 0)).slices.contains u)
      s.updPart (r.src 0) fun p => { p with slices := rangeApply v p.slices }

/-- Writes back every dirty line of a slice and invalidates it. -/
def State.flushSlice (s : State) (part slice : Nat) : State :=
  let s := s.strikeFrames part fun sl _ => sl = slice
  (upto 64).foldl (fun s j =>
    let k := 64 * slice + j
    let x := s.l2set k
    let s := x.ways.foldl (fun s w =>
      let s := s.writeBack part w.2
      match w.2 with
      | some y => if s.wayLive part w.2 then s.addOcc slice y.owner false else s
      | none => s) s
    s.setL2 k { x with ways := [] }) s

/-- SLICE_RELEASE_WRITEBACK_END (R204). -/
def execSliceReleaseWritebackEnd (c : Nat) (s : State) : Out :=
  .next (match (s.ctx c).block with
    | .partslc p first count t =>
      if s.cycle < t then s
      else
        let l := rangeList first count
        let s := l.foldl (fun s sl => s.flushSlice p sl) s
        let s := s.updPart p fun q => { q with slices := q.slices.filter fun u => !l.contains u }
        s.updCtx c fun x => { x with block := .none }
    | _ => s)

/-- PARTCHN: the interleave changes at once; no data moves. -/
def execPartchn (w : CW) (s : State) : Out :=
  s.runOp (.partchn w) fun s r =>
    let s := s.freshQuiet 3 ((rangeApply (r.src 1) (s.part (r.src 0)).chans).filter fun u => !(s.part (r.src 0)).chans.contains u)
    s.updPart (r.src 0) fun p => { p with chans := rangeApply (r.src 1) p.chans }

/-- PARTLNK. -/
def execPartlnk (w : CW) (s : State) : Out :=
  s.runOp (.partlnk w) fun s r => s.updPart (r.src 0) fun p => { p with lanes := rangeApply (r.src 1) p.lanes }

/-- OWNASGN: assignment gives the reset contract, way masks and bucket; UNASSIGN removes the owner, whose record is
reset (DESIGN CHOICE, log 78). -/
def execOwnasgn (w : CW) (s : State) : Out :=
  s.runOp (.ownasgn w) fun s r =>
    let v := r.src 1
    if bit v 63 then s.setOwner (r.src 0) {}
    else
      let s := s.setBucket (r.src 0) 1024 16384
      s.setOwner (r.src 0) { hdr := BitVec.ofNat 64 (v % 16 * 2 ^ 55), part := some (v % 16) }

/-- TENSET (Table 10.12). -/
def execTenset (w : CW) (s : State) : Out :=
  s.runOp (.tenset w) fun s r =>
    let v := r.src 1
    s.updPart (r.src 0) fun p =>
      let t : Tenant := tget {} p.tenants (v % 8)
      let t' : Tenant := { t with en := bit v 3, slice := bits v 39 8 }
      { p with tenants := tset {} p.tenants (v % 8) t' }

/-! The remaining forms (R205). -/

/-- The structure number of a partition's L2 slices among the generations (R128). -/
def genL2 (p : Nat) : Nat := 5300 + p

/-- The advance of a partition's L2 generation (R131, R376): every line of its slices is stale, no owner occupies a
frame, and no page is marked compressed. -/
def State.advanceL2 (s : State) (p g : Nat) : State :=
  let sl := (s.part p).slices
  let s := s.updPart p fun q => { q with l2gen := g }
  let s := { s with occ := s.occ.filter fun e => !sl.contains (e.1 / 256) }
  s.updPkg fun k => { k with cBits := k.cBits.filter fun pg => !(paPart (pg * 65536) = p) }

/-- GENADV (R205, R130, R131): the advance, after the zeroing it needs when the generation would come round. -/
def execGenadv (w : CW) (s : State) : Out :=
  s.runOp (.genadv w) fun s r =>
    let p := r.src 0
    let g := (s.part p).l2gen + 1
    if g < 2 ^ 16 then s.advanceL2 p g
    else
      let t := s.newWait
      let s := { t.2 with zeroing := t.2.zeroing ++ [genL2 p] }
      s.updCtx r.c fun x => { x with block := .genadv p }

/-- GENERATION_ZEROING_END (R130): the structure is zeroed, its generation begins anew, and what waited proceeds. -/
def execGenerationZeroingEnd (struct : Nat) (s : State) : Out :=
  if !s.zeroing.contains struct then .next s
  else
    let s := { s with zeroing := s.zeroing.filter (· ≠ struct), gens := tset 0 s.gens struct 0 }
    if genL2 0 ≤ struct then
      let p := struct - genL2 0
      let s := (s.part p).slices.foldl (fun s sl =>
        (upto 64).foldl (fun s j => s.setL2 (64 * sl + j) { s.l2set (64 * sl + j) with ways := [] }) s) s
      let s := s.advanceL2 p 0
      .next (s.mapCtxs fun _ x => if x.block = .genadv p then { x with block := .none } else x)
    else .next s

/-- ERRINJ (R385): one injected error is armed. -/
def execErrinj (w : CW) (s : State) : Out :=
  s.runOp (.errinj w) fun s r =>
    s.updPkg fun k => { k with armed := some (BitVec.ofNat 64 (r.src 0), w.imm24 = 1) }

/-- SELFTST (R205, R382). -/
def execSelftst (w : CW) (s : State) : Out :=
  s.runOp (.selftst w) fun s r =>
    let d := BitVec.ofNat 64 (r.src 0)
    let s := s.strikeTest d
    let u := unitD d.toNat
    let v := if Config.lasting s.fresh then 2 else 1
    let s := { s with fresh := s.fresh + 1 }
    let s := s.startTest d (some r.c) (errorWord 6 v false false 0 (s.unitPart u)) 0 []
    s.updCtx r.c fun x => { x with block := .selftst d }

/-- CTXSTOP (R205): a stop request goes to the context. -/
def execCtxstop (w : CW) (s : State) : Out :=
  s.runOp (.ctxstop w) fun s r =>
    let t := r.src 0
    if (s.ctx t).st.atRest then s
    else
      let s := s.updCtx t fun x => { x with stop := match x.stop with
        | some q => some { q with urgent := q.urgent || decide (w.imm24 = 1) }
        | none => some ⟨s.now t, decide (w.imm24 = 1)⟩ }
      s.updCtx r.c fun x => { x with block := .ctxstop t }

/-- FRMSET (R205). -/
def execFrmset (w : CW) (s : State) : Out :=
  s.runOp (.frmset w) fun s r =>
    s.updPart (r.src 0) fun p =>
      { p with frames := p.frames ++ (upto w.imm24.toNat).map fun i => r.src 1 + 4096 * i }

end Sys2Proof.Machine
end

