-- ==== Sys2Proof/Machine/Fabric.lean ====
section
/-! DEFINITION. The host and the fabric: windows and partition records (R43, R303, R311), TDISP and SPDM (R309, R310, R378),
host memory accesses and snoops (R306 to R308), ATS (R312), firmware, boot and resets (R323 to R325), the Fareri Link
(R318, R319, R377). -/

namespace Sys2Proof.Machine

open Sys2Proof

/-- Is the device running (Table 20.2)? -/
def State.runs (s : State) : Bool := s.pkg.boot = .running

/-- An act of the outside that must wait comes again in the next scheduler cycle. -/
def State.later (s : State) (i : Instr) : State := { s with inputs := (s.cycle + 1, i) :: s.inputs }

/-! The management window (R303, Tables 20.1 to 20.5). -/

/-- The number a TDISP state has in a record. -/
def Tdi.num : Tdi → Nat
  | .unlocked => 0 | .locked => 1 | .run => 2 | .error => 3

/-- Word `w` of a partition's record (Table 20.5). -/
def State.recordWord (s : State) (part w : Nat) : Nat :=
  let p := s.part part
  match w with
  | 0 => b2n p.en * 2 ^ 63 + p.tdi.num * 2 ^ 61 + p.cols
  | 1 => p.slices.length * 2 ^ 48 + p.chans.length * 2 ^ 32 + p.lanes.length * 2 ^ 16 +
      ((upto 256).filter fun o => (s.owner o).part = some part).length
  | 2 => p.ssbase * 2 ^ 16
  | 3 => p.meta_ * 2 ^ 16
  | 4 => p.prbase * 2 ^ 16
  | 5 => p.frames.length * 2 ^ 32 + p.prsize
  | 6 => p.podjob
  | 7 => p.sealtab * 2 ^ 16 + p.nseal
  | _ =>
    if 24 ≤ w then 0
    else
      let t := tget ({} : Tenant) p.tenants ((w - 8) / 2)
      if w % 2 = 0 then b2n t.en * 2 ^ 63 + t.tbase * 2 ^ 16 else t.repay * 2 ^ 32 + t.slice

/-- The number of a boot state (Table 20.2). -/
def Boot.num : Boot → Nat
  | .booting => 0 | .running => 1 | .recovery => 2 | .selfTest => 3

/-- A host read of the management window: 8 aligned bytes; any other reads as ones and sets BADACC. While BOOT is 0, only
DEVSTAT and PKGID are there (R303, R324). -/
def State.bar0Read (s : State) (off len : Nat) : State × Nat :=
  if len ≠ 8 ∨ off % 8 ≠ 0 then (s.updPkg fun k => { k with badacc := true }, 2 ^ (8 * len) - 1)
  else
    let k := s.pkg
    (s,
      if off = 0 then b2n k.badacc * 128 + b2n k.lockwr * 64 + k.boot.num * 16
      else if off = 8 then k.pkgid
      else if k.boot = .booting then 0
      else if off = 0x10 then k.pbudget
      else if off = 0x18 then (if s.runs then k.fwver.toNat else 0)
      else if 0x8000 ≤ off ∧ off < 0x8400 then (tget 0 k.msixTab ((off - 0x8000) / 8)).toNat
      else if off = 0x9000 then k.pending % 2 ^ 64
      else if 0x10000 ≤ off ∧ off < 0x10C00 then s.recordWord ((off - 0x10000) / 256) (off % 256 / 8)
      else if 0x20000 ≤ off ∧ off < 0x20800 then (s.owner ((off - 0x20000) / 8)).hdr.toNat
      else 0)

/-- A host read of the letterbox window: zero at every offset (R43, R303). -/
def State.bar2Read (s : State) (_off _len : Nat) : State × Nat := (s, 0)

/-- A write of a word of the MSI-X table; the message of a vector that it unmasks goes, and is pending no more (R303, log 65). -/
def State.writeMsix (s : State) (i : Nat) (data : Word) : State :=
  s.updPkg fun k =>
    let k := { k with msixTab := tset 0 k.msixTab i data }
    if k.masked (i / 2) then k else { k with pending := k.pending - k.pending / 2 ^ (i / 2) % 2 * 2 ^ (i / 2) }

/-- A write of the power budget (Table 20.4). -/
def State.writeBudget (s : State) (v : Nat) : State :=
  let w := v % 65536
  if s.pkg.boot ≠ .booting ∧ 400 ≤ w ∧ w ≤ 1600 then s.updPkg fun k => { k with pbudget := w } else s

/-- PBUDGET_WRITE (R321): outside 400 to 1,600 it is ignored. -/
def execPbudgetWrite (data : BitVec 64) (s : State) : Out := .next (s.writeBudget data.toNat)

/-- The RW fields of word `w` of a record, written. -/
def Part.writeWord (p : Part) (w v : Nat) : Part :=
  match w with
  | 2 => { p with ssbase := bits v 51 16 }
  | 3 => { p with meta_ := bits v 46 16 }
  | 4 => { p with prbase := bits v 46 16 }
  | 5 => { p with prsize := v % 2 ^ 32 }
  | 6 => { p with podjob := v % 2 ^ 16 }
  | 7 => { p with sealtab := bits v 46 16, nseal := v % 128 }
  | _ =>
    if 8 ≤ w ∧ w < 24 ∧ w % 2 = 0 then
      let t := tget ({} : Tenant) p.tenants ((w - 8) / 2)
      { p with tenants := tset {} p.tenants ((w - 8) / 2) { t with tbase := bits v 51 16 } }
    else p

/-- A write of a word of a record (R309, R311): the locked fields of a locked partition ignore it, set LOCKWR and move the TDI
to ERROR. -/
def State.writeRecWord (s : State) (part w v : Nat) : State :=
  if s.pkg.boot = .booting ∨ 12 ≤ part ∨ 32 ≤ w then s
  else if decide (2 ≤ w ∧ w ≤ 7) && s.locked part then (s.updPkg fun k => { k with lockwr := true }).guardHit part
  else s.updPart part fun p => p.writeWord w v

/-- PARTITION_RECORD_WRITE (R311). -/
def execPartitionRecordWrite (part word : Nat) (data : BitVec 64) (s : State) : Out :=
  .next (s.writeRecWord part word data.toNat)

/-- BAR0_WRITE (R303): 8 aligned bytes; any other write is ignored and sets BADACC. DEVSTAT's bits are cleared by ones. -/
def execBar0Write (off len : Nat) (data : BitVec 64) (s : State) : Out :=
  let v := data.toNat
  if len ≠ 8 ∨ off % 8 ≠ 0 then .next (s.updPkg fun k => { k with badacc := true })
  else if off = 0 then
    .next (s.updPkg fun k => { k with badacc := k.badacc && !bit v 7, lockwr := k.lockwr && !bit v 6 })
  else if s.pkg.boot = .booting then .next s
  else if off = 0x10 then .next (s.writeBudget v)
  else if 0x8000 ≤ off ∧ off < 0x8400 then .next (s.writeMsix ((off - 0x8000) / 8) data)
  else if 0x10000 ≤ off ∧ off < 0x10C00 then .next (s.writeRecWord ((off - 0x10000) / 256) (off % 256 / 8) v)
  else .next s

/-! The letterbox (R43, R46, R303, R370, R378). -/

/-- A discarded letter counts in LBXDROP, which saturates; vector 4p + 3 when it rises from zero (Tables 10.7, 20.10). -/
def State.dropLetter (s : State) (part : Nat) : State :=
  let n := (s.part part).lbxdrop
  let s := s.updPart part fun p => { p with lbxdrop := min (n + 1) (2 ^ 32 - 1) }
  if n = 0 then s.raise (4 * part + 3) else s

/-- A letter is queued, refused, or dropped at a full queue. -/
def State.takeChecked (s : State) (part : Nat) (l : BitVec 512) : State :=
  if !s.letterOk part l then s.count part 7
  else if s.hasPlace part l then s.pushLetter part l
  else s.dropLetter part

/-- A letter that has reached a partition's letterbox, checked: false while its check, or one before it, waits for the host's
translation of a page (R142, R370). -/
def State.checkLetter (s : State) (part : Nat) (l : BitVec 512) : State × Bool :=
  let p := s.part part
  if !p.en || p.tdi = .error then (s, true)
  else
    match s.letterWants part l with
    | some k => (s.askHost k, false)
    | none => ((s.strikeCode .none part (lTenant l) (lEntry l)).takeChecked part l, true)

/-- A letter reaches a partition's letterbox: it is checked, after those before it. -/
def State.takeLetter (s : State) (part : Nat) (l : BitVec 512) : State :=
  let p := s.part part
  let keep := fun (s : State) => s.updPart part fun p => { p with arriving := p.arriving ++ [l] }
  if !p.en || p.tdi = .error then s
  else if !p.arriving.isEmpty then keep s
  else
    match s.checkLetter part l with
    | (s, true) => s
    | (s, false) => keep s

/-- The letters of a partition whose check waited go on, in order. -/
def State.arriveLetters (s : State) (part : Nat) : List (BitVec 512) → State
  | [] => s.updPart part fun p => { p with arriving := [] }
  | l :: ls =>
    match s.checkLetter part l with
    | (s, true) => s.arriveLetters part ls
    | (s, false) => s.updPart part fun p => { p with arriving := l :: ls }
/-- LETTERBOX_WRITE (R43): one aligned write of 64 bytes, all enabled, is a letter; any other sets BADACC. -/
def execLetterboxWrite (off : Nat) (full : Bool) (data : List Byte) (s : State) : Out :=
  if !full || data.length ≠ 64 || off % 64 ≠ 0 then .next (s.updPkg fun k => { k with badacc := true })
  else if !s.runs || decide (12 ≤ off / 4096) then .next s
  else .next (s.takeLetter (off / 4096) (BitVec.ofNat 512 (ofBytes data)))

/-! Second-stage tables and TDISP (R309, R310, R378). -/

/-- The 64 KiB pages of a partition's second-stage tables, in walk order: a table, then those its entries name. -/
def State.tablePages (s : State) (part : Nat) : Nat → Nat → Nat → List Nat
  | 0, _, _ => []
  | fuel + 1, lvl, table =>
    pageOf table :: (upto (if lvl = 0 then 32 else levelSize lvl)).flatMap fun i =>
      let e := s.peekWord part (table + 8 * i)
      if bit e 63 && !bit e 62 && !s.bad2 part lvl e then s.tablePages part fuel (lvl + 1) (bits e 51 16 * 65536) else []

/-- The configuration of a partition that its digest covers (R310). -/
def State.configBytes (s : State) (part : Nat) (pages : List Nat) : List Byte :=
  let owners := (upto 256).filter fun o => (s.owner o).part = some part
  let col := findFirst (fun c => bit (s.part part).cols c) (upto 32)
  (upto 24).flatMap (fun w => toBytes 8 (s.recordWord part w)) ++
    owners.flatMap (fun o => toBytes 8 (s.owner o).hdr.toNat ++ (upto 64).flatMap fun i => toBytes 2 (tget 0 (s.owner o).lat i)) ++
    (match col with
      | some c => (colCores c).flatMap fun k =>
          (upto 1024).flatMap (fun i => toBytes 8 (tget 0 (s.core k).store i).toNat) ++
          (upto 64).flatMap fun i => toBytes 8 (tget 0 (s.core k).routs i).toNat
      | none => []) ++
    pages.flatMap fun p => s.peek (ownPort part) (p * 65536) 65536

/-- TDISP_LOCK (R309, R310): only with link IDE and an enabled partition, from CONFIG_UNLOCKED. -/
def execTdispLock (part : Nat) (s : State) : Out :=
  let p := s.part part
  if s.pkg.ide && p.en && p.tdi = .unlocked then
    let pages := s.tablePages part 5 0 (p.ssbase * 65536)
    let d := Config.digest (s.configBytes part pages)
    .next (s.updPart part fun p => { p with tdi := .locked, digest := some d, tables := pages })
  else .next s

/-- TDISP_RUN (R309). -/
def execTdispRun (part : Nat) (s : State) : Out :=
  if (s.part part).tdi = .locked then .next (s.updPart part fun p => { p with tdi := .run }) else .next s

/-- The L2 generation of a partition advances (R131), after the zeroing it needs when it would come round (R130). -/
def State.genadv (s : State) (p : Nat) : State :=
  let g := (s.part p).l2gen + 1
  if g < 2 ^ 16 then s.advanceL2 p g else { s with zeroing := s.zeroing ++ [genL2 p] }

/-- Every context of a partition is terminated, its quires completing with STATUS 0x01 and no fault record (R378). -/
def State.endPart (s : State) (part : Nat) : State :=
  let s := { s with quires := s.quires.map fun (q : Quire) => if q.part = part then { q with recorded := true, broken := true } else q }
  s.mapCtxs fun _ x =>
    if x.part = part && !(x.st = .empty) then
      { x with frz := { x.frz with tdi := false } }.beginDeath (match x.dying with | some r => r | none => {})
    else x

/-- TDISP_UNLOCK (R309, R378): from ERROR, every context of the partition is terminated and its L2 generation advances. -/
def execTdispUnlock (part : Nat) (s : State) : Out :=
  let t := (s.part part).tdi
  if t = .unlocked then .next s
  else
    let s := if t = .error then (s.endPart part).genadv part else s
    .next (s.updPart part fun p => { p with tdi := .unlocked, digest := none, tables := [] })

/-- TDI_ERROR (R378): a locked TDI enters ERROR. -/
def execTdiError (part : Nat) (s : State) : Out :=
  let t := (s.part part).tdi
  if t = .locked || t = .run then .next (s.tdiEnterError part) else .next s

/-- IDE_LOSS (R309): every locked TDI enters ERROR. -/
def execIdeLoss (s : State) : Out :=
  let l := (s.parts.filter fun e => e.2.tdi = .locked || e.2.tdi = .run).map Prod.fst
  .next (l.foldl State.tdiEnterError (s.updPkg fun k => { k with ide := false }))

/-- The measurement block of an index (R310); in recovery only the ROM's is offered (R324). -/
def State.measure (s : State) (i : Nat) : Option (BitVec 512) :=
  if i = 1 then some Config.romDigest
  else if !s.runs then none
  else if i = 2 then some (Config.digest (match s.pkg.flash with | some f => f.1 | none => []))
  else if 16 ≤ i ∧ i < 28 then some (match (s.part (i - 16)).digest with | some d => d | none => 0)
  else none

/-- SPDM_REQUEST (R305, R310, R317): a measurement block is answered, signed; IDE key management establishes link IDE. -/
def execSpdmRequest (req : SpdmReq) (s : State) : Out :=
  let answer := fun (a : Option (BitVec 512)) =>
    ({ s with fresh := s.fresh + 1 }.updPkg fun k => { k with doe := k.doe ++ [a] }).raise 49
  match req with
  | .measure i => .next (answer ((s.measure i).map fun b => Config.signed b s.fresh))
  | .ideKeys => if s.runs then .next ((answer (some (Config.signed 0 s.fresh))).updPkg fun k => { k with ide := true }) else .next (answer none)

/-! HDM ranges and host accesses (R306 to R308, R376, R378, R381). -/

/-- HDM_DECODER_COMMIT (R306, R309): only for an enabled partition that is not locked, within its memory. -/
def execHdmDecoderCommit (part base size : Nat) (s : State) : Out :=
  let p := s.part part
  if p.en && p.tdi = .unlocked && decide (size ≤ p.chans.length * chanBytes) then
    .next (s.updPart part fun p => { p with hdm := some (base, size) })
  else .next s

/-- The partition and physical address that a host physical address names through an HDM decoder. -/
def State.hdmOf (s : State) (hpa : Nat) : Option (Nat × Nat) :=
  s.parts.findSome? fun e => match e.2.hdm with
    | some (b, n) => if b ≤ hpa ∧ hpa < b + n then some (e.1, devPa e.1 (hpa - b)) else none
    | none => none

/-- The slice of a partition that holds a line, wherever a leaf pins it: the home slice that a host access of it passes through
(R134, R306). -/
def State.holdingSlice (s : State) (part line : Nat) : Option Nat :=
  findFirst (fun sl => (s.findWay part (s.l2set (setKey sl line)) line).isSome) (s.part part).slices

/-- The port of a host access to a line of device memory: it allocates nothing, and decodes the page under R144 exactly when
C = 1 (R306, R376). -/
def State.hostPort (s : State) (part pa : Nat) : Port :=
  { owner := 0, part := part, pin := s.holdingSlice part (pa / 128), elide := s.pkg.cBits.contains (pageOf pa), cache := false, nt := true }

/-- A byte as a host read gets it: poison from a TDI in ERROR, a retired page or a poisoned line (R377, R378, R381). -/
def State.hostByte (s : State) (part pa : Nat) : Option Byte :=
  let p := s.hostPort part pa
  if (s.part part).tdi = .error || s.pkg.tBits.contains (pageOf pa) || s.linePoison p pa then none else some (s.peekByte p pa)

/-- Strikes an armed error that a host access to bytes of device memory meets, line by line (R386). -/
def State.strikeHost (s : State) (part pa n : Nat) (write : Bool) : State :=
  (linesOf pa n).foldl (fun s l => s.strikeMem .none (s.hostPort part (128 * l)) (128 * l) 1 write) s

/-- Does a host access to bytes of device memory wait, for a switch or a self-test (R160, R382)? -/
def State.hostWaits (s : State) (part pa n : Nat) : Bool :=
  s.marked pa n || (linesOf pa n).any fun l => s.outOfService (s.hostPort part (128 * l)) (128 * l) 1

/-- HOST_MEM_READ (R306, R307): the host may keep a copy of each line it reads. An address that maps nothing answers what the
manual leaves open. -/
def execHostMemRead (hpa len : Nat) (s : State) : Out :=
  match s.hdmOf hpa with
  | none => .next s
  | some (part, pa) =>
    if s.hostWaits part pa len then .next (s.later (.hostMemRead hpa len))
    else
      let s := s.strikeHost part pa len false
      let bytes := (upto len).map fun i =>
        if (s.memKey (pa + i)).isSome then s.hostByte part (pa + i) else some (BitVec.ofNat 8 (Config.freeValue (s.fresh + i)))
      .next ({ s with fresh := s.fresh + len }.updPkg fun k =>
        { k with answer := bytes, hostHas := k.hostHas ++ (linesOf pa len).filter fun l => !k.hostHas.contains l })

/-- The line of host memory that a host line number names. -/
def hostLine (line : Nat) : Nat := 2 ^ 44 + line

/-- Writes back a line of host memory that slices hold, and drops it too when the host asks (R308). -/
def State.snoopLine (s : State) (line : Nat) (inv : Bool) : State :=
  let s := s.parts.foldl (fun s e => s.strikeFrames e.1 fun sl y => e.2.slices.contains sl && y.line = line) s
  s.l2.foldl (fun s e =>
    e.2.ways.foldl (fun s w => match w.2 with
      | some y =>
        if y.line = line then
          match s.holderOf fun p => p.slices.contains (e.1 / 64) with
          | some part =>
            if s.wayLive part (some y) then
              let s := s.writeBack part (some y)
              if inv then s.dropWay part (e.1 / 64) (e.1 % 64) w.1
              else
                let x := s.l2set e.1
                s.setL2 e.1 { x with ways := tset none x.ways w.1 (some { y with dirty := false }) }
            else s
          | none => s
        else s
      | none => s) s) s

/-- HOST_SNOOP (R308). -/
def execHostSnoop (line : Nat) (inv : Bool) (s : State) : Out := .next (s.snoopLine (hostLine line) inv)

/-- A write of the host to device memory, line by line, each at the slice that holds it. A TDI in ERROR and a retired page discard what
goes to them (R378, R381); a protected page takes nothing, and moves the TDI to ERROR (R309). An armed error that the merge reads
strikes first. -/
def State.hostWrite (s : State) (part pa : Nat) (d : List Byte) : State :=
  (linesOf pa d.length).foldl (fun s l =>
    if (s.part part).tdi = .error then s
    else
    match s.guardOf (128 * l) with
    | some q => s.guardHit q
    | none =>
    let s := s.strikeHost part (128 * l) 1 true
    let from_ := 128 * l - pa
    let bytes := (d.drop from_).take (128 - (pa + from_) % 128)
    if s.pkg.tBits.contains (pageOf (128 * l)) || (s.memKey (pa + from_)).isNone then s
    else s.writePa (s.hostPort part (128 * l)) (pa + from_) bytes) s

/-- HOST_MEM_WRITE (R304, R306): device memory of an HDM range, through the home slice; or the host's own memory, whose lines
the slices give up first. -/
def execHostMemWrite (hpa : Nat) (data : List Byte) (s : State) : Out :=
  match s.hdmOf hpa with
  | some (part, pa) =>
    if !((s.part part).tdi = .error) && s.hostWaits part pa data.length then .next (s.later (.hostMemWrite hpa data))
    else .next (s.hostWrite part pa data)
  | none =>
    let pa := 2 ^ 51 + hpa
    .next (((linesOf pa data.length).foldl (fun s l => s.snoopLine l true) s).setRawBytes pa data)

/-- BACK_INVALIDATION_RESPONSE (R307): the host gives up its copy of a line, with its bytes when it had changed them. -/
def execBackInvalidationResponse (line : Nat) (dirty : Option (List Byte)) (s : State) : Out :=
  if !s.pkg.snoops.contains line then .next s
  else
    let s := s.updPkg fun k => { k with snoops := k.snoops.filter (· ≠ line), hostHas := k.hostHas.filter (· ≠ line) }
    .next (match dirty with
      | some d => s.hostWrite (paPart (128 * line)) (128 * line) (d.take 128)
      | none => s)

/-- ATS_TRANSLATION_RESPONSE (R312): a translation asked for comes, or is refused. -/
def execAtsTranslationResponse (hpaPage : Nat) (answer : Option Nat) (s : State) : Out :=
  if !s.pkg.atsReq.contains hpaPage then .next s
  else .next (s.updPkg fun k => { k with atsReq := k.atsReq.filter (· ≠ hpaPage), ats := tset none k.ats hpaPage (some answer) })

/-! Firmware, boot and resets (R323 to R325). -/

/-- FIRMWARE_STAGE (R324): an image waits for the next reset; in recovery none is taken. -/
def execFirmwareStage (image : List Byte) (version : BitVec 64) (keySlot : Nat) (sigGood raise : Bool) (s : State) : Out :=
  if s.pkg.boot = .recovery || s.pkg.boot = .selfTest then .next s
  else .next (s.updPkg fun k => { k with staged := some (image, version, keySlot, sigGood, raise) })

/-- Does an image pass the checks of R324: signature, key slot, rollback minimum? -/
def imageOk (rollback : Nat) (i : List Byte × Word × Nat × Bool × Bool) : Bool :=
  i.2.2.2.1 && decide (i.2.2.1 < 2) && decide (rollback ≤ i.2.1.toNat)

/-- BOOT_COMPLETE (R324, R325): the image is checked, the self-test ends, BOOT is set, and partition 0 is enabled. -/
def execBootComplete (selfTest : Bool) (s : State) : Out :=
  if !(s.pkg.boot = .booting) then .next s
  else
    let k := s.pkg
    let i : List Byte × Word × Nat × Bool × Bool := match k.staged, k.flash with
      | some i, _ => i
      | none, some i => i
      | none, none => ([], Config.firstVersion, 0, true, false)
    if (k.staged.isSome || k.flash.isSome) && !imageOk k.rollback i then .next (s.updPkg fun k => { k with boot := .recovery })
    else
      let s := s.updPkg fun k =>
        { k with flash := if k.staged.isSome then k.staged else k.flash, staged := none,
                 rollback := if i.2.2.2.2 then max k.rollback i.2.1.toNat else k.rollback }
      if !selfTest then .next (s.updPkg fun k => { k with boot := .selfTest })
      else .next ((s.updPkg fun k => { k with boot := .running, fwver := i.2.1 }).bootPart0)

/-- Every structure of Table 7.2 advances its generation (R323), and begins anew where that would come round (R130). -/
def advanceGens (g : Tbl Nat) : Tbl Nat := (upto (genL2 0)).foldl (fun (t : Tbl Nat) i => tset 0 t i ((tget 0 g i + 1) % 2 ^ 16)) []

/-- The state a reset leaves (R323): every field at its reset value, the generations advanced, and device memory undefined; what lies
outside the device, the firmware images and the fused minimum stay. -/
def State.afterReset (s : State) : State :=
  { State.reset with
      mem := s.mem.filter (fun c => decide (2 ^ 51 ≤ c.1)), remote := s.remote, fresh := s.fresh,
      inputs := s.inputs.map fun e => (e.1 - s.cycle, e.2), gens := advanceGens s.gens,
      parts := (upto 12).foldl (fun (t : Tbl Part) p => tset {} t p { l2gen := ((s.part p).l2gen + 1) % 2 ^ 16 }) [],
      pkg := { staged := s.pkg.staged, flash := s.pkg.flash, rollback := s.pkg.rollback,
               poison := s.pkg.poison.filter fun l => decide (2 ^ 44 ≤ l) } }

/-- COLD_RESET (R323). -/
def execColdReset (s : State) : Out := .next s.afterReset

/-- WARM_RESET (R323): what only a cold reset clears stays: the page bits, the pages, frames and cores that a self-test found LASTING,
and quarantined frames (R376, R381, R382). -/
def execWarmReset (s : State) : Out :=
  let t := s.afterReset.updPkg fun k => { k with cBits := s.pkg.cBits, tBits := s.pkg.tBits, lastPages := s.pkg.lastPages }
  .next { t with
    l2 := s.l2.foldl (fun (l : Tbl L2Set) e => tset {} l e.1 { quar := e.2.quar, lasting := e.2.lasting }) []
    cores := s.cores.foldl (fun (l : Tbl Core) e => tset {} l e.1 { lasting := e.2.lasting }) [] }

/-! The Fareri Link (R303, R318, R319, R377). -/

/-- LINK_TRAINING (R303): a link trains, and its switch assigns the package number (Table 20.3). -/
def execLinkTraining (switch pkg : Nat) (s : State) : Out :=
  .next (s.updPkg fun k =>
    { k with links := tset false k.links switch true, lost := tset 0 k.lost switch 0, pkgid := pkg % 4096 })

/-- Scheduler cycles of the 1 ms in which a lost link must retrain (R377). -/
def retrainLimit : Nat := 1400000

/-- FARERI_LINK_LOSS (R377): a trained link goes down; a package with no trained link has number 0 (Table 20.3). -/
def execFareriLinkLoss (switch : Nat) (s : State) : Out :=
  if tget false s.pkg.links switch then
    .next (s.updPkg fun k =>
      let l := tset false k.links switch false
      { k with links := l, lost := tset 0 k.lost switch (s.cycle + retrainLimit), pkgid := if l.isEmpty then 0 else k.pkgid })
  else .next s

/-- A switch whose link has not retrained in time. -/
def State.switchDue (s : State) : Option Nat := (findFirst (fun e => decide (e.2 ≤ s.cycle)) s.pkg.lost).map Prod.fst

/-- Poisons home lines, in memory and in the frames that hold them (R377). -/
def State.poisonLines (s : State) (keys : List Nat) : State :=
  let hit := fun (w : Way) => match s.memKey (128 * w.line) with | some k => keys.contains (k / 128) | none => false
  let ways := fun (l : Tbl (Option Way)) => l.map fun (e : Nat × Option Way) =>
    (e.1, e.2.map fun w => if hit w then { w with poison := true } else w)
  { s with l2 := s.l2.map fun (e : Nat × L2Set) => (e.1, { e.2 with ways := ways e.2.ways }) }.updPkg fun k =>
    { k with poison := k.poison ++ keys.filter fun l => !k.poison.contains l }

/-- Do a partition's lanes pass through a switch (R377)? -/
def Part.through (p : Part) (switch : Nat) : Bool := p.lanes.any fun l => Config.laneSwitch l = switch

/-- SWITCH_FAILURE (R377): a switch whose link has not retrained in time, or that reports an uncorrectable error in its cache. The
words it held are lost, their home lines poisoned; accumulate-on-writes in flight to it fail, applied or not; every partition whose
lanes pass through it gets a record and its vector. -/
def execSwitchFailure (switch : Nat) (s : State) : Out :=
  let mine := s.pkg.marks.filter fun m => m.2 = switch
  let s := (s.updPkg fun k =>
    { k with lost := tset 0 k.lost switch 0, marks := k.marks.filter (fun m => !(m.2 = switch)),
             switchWords := k.switchWords.filter fun w => !(w.switch = switch) }).poisonLines (mine.map fun m => m.1 / 16)
  let hit := s.cmds.filter fun e => !isMcast e.op && e.begun && e.dests.any fun d => Config.switchOf d.1 = switch
  let s := hit.foldl (fun s e =>
    let r := some (s.failRec e 0x07 0x070F e.opa)
    if e.acted then s.updCmd e.id fun f => { f with fail := r } else s.doneCmd e.id r) s
  let parts := (s.parts.filter fun e => e.2.through switch).map Prod.fst
  .next (parts.foldl (fun s p => s.hflog [errorWord 5 0 false false 0 p, 0, 0, 0, 0, 0, 0, 0] (4 * p + 2)) s)

/-- A write of remote payload at its home (R319, R376): false while it waits for a switch or a back-invalidation. -/
def State.remoteWrite (s : State) (pa : Nat) (d : List Byte) (elide : Bool) : State × Bool :=
  if s.pkg.tBits.contains (pageOf pa) || (s.memKey pa).isNone then (s, true)
  else if !elide && s.pkg.cBits.contains (pageOf pa) then (s.count (paPart pa) 1, true)
  else
    match s.guardOf pa with
    | some q => (s.guardHit q, true)
    | none =>
      if s.marked pa d.length then (s, false)
      else
        match s.snoopFirst pa with
        | (s, true) => (s, false)
        | (s, false) =>
          let p := { ownPort (paPart pa) with elide := elide, nt := true }
          let s := s.strikeMem .none p pa d.length true
          (if s.pkg.tBits.contains (pageOf pa) then s else s.writePa p pa d, true)

/-- The rows of a tile delivery from another package (R260, R261, R372): written in the tile, or parked for a member that is
not resident; then its POST arrival, or the poison of a failed one that wrote a row (R373). -/
def State.takeDelivery (s : State) (spkg sctx part seq member h off : Nat) (rows : List (List Byte)) (post : Bool) (barn : Nat)
    (good : Bool) : State :=
  match s.quireSeq part seq with
  | none => s
  | some q =>
    match s.memberTile q member h with
    | none => s
    | some t =>
      if !(off % t.pitch = 0) || rows.any (fun r => decide (t.pitch < r.length)) || decide (t.rows < off / t.pitch + rows.length) then s
      else
        let count := fun (s : State) => if !post then s else if good then s.post part barn else s.postFailed part barn
        if rows.isEmpty then s
        else if (s.memberCtx q member).isSome && s.resident t then
          count (s.updTile t.id fun t => rows.zipIdx.foldl (fun t r => t.write (off + r.2 * t.pitch) r.1) t)
        else if (s.part part).prsize = 0 then s
        else
          let one := fun (s : State) (r : List Byte × Nat) =>
            let p : Parcel := { spkg := spkg, sctx := sctx, len := r.1.length, offset := off + r.2 * t.pitch, seq := seq, member := member,
                                handle := h, barn := barn, post := post && good && decide (r.2 + 1 = rows.length), at_ := 0, data := r.1,
                                cmd := 0, dest := 0, since := 0, valid := true }
            s.park part p
          rows.zipIdx.foldl one s

/-- A barrier arrival from another package of a pod job (R318). -/
def State.podArrive (s : State) (job b cnt : Nat) : State :=
  let n : Net := .pod job 0
  match (s.episode n b).filter fun ep => ep.count ≠ 0 with
  | some ep => if ep.count = cnt then s.countArrival ep none else s
  | none =>
    let posts := match s.episode n b with | some ep => ep.posts | none => []
    let ep : Episode := { net := n, num := b, count := cnt, arrived := 0, cmds := [], posts := posts, poisoned := false,
                          quires := [], broke := [] }
    ((s.setEpisode n b (some ep)).countArrival ep none).joinPosts n b posts.length

/-- FARERI_FLIT_ARRIVAL (R318): a flit delivers what it brings, once; one whose CRC failed is retransmitted and delivers
nothing. -/
def execFareriFlitArrival (flit : Flit) (s : State) : Out :=
  match flit with
  | .badCrc => .next s
  | .write pa d elide =>
    match s.remoteWrite pa d elide with
    | (s, true) => .next s
    | (s, false) => .next (s.later (.fareriFlitArrival flit))
  | .read pa n elide =>
    if s.marked pa n then .next (s.later (.fareriFlitArrival flit))
    else if !elide && s.pkg.cBits.contains (pageOf pa) then .next (s.count (paPart pa) 1)
    else .next (s.strikeMem .none { ownPort (paPart pa) with elide := elide } pa n false)
  | .deliver k c p q m h o rows post b good => .next (s.takeDelivery k c p q m h o rows post b good)
  | .remote pkg pa d =>
    if s.switchHeld pkg pa d.length then .next ((s.wantSwitch pkg pa d.length).later (.fareriFlitArrival flit))
    else .next (s.setRemoteBytes (remoteKey pkg pa) d)
  | .ack cmd => .next { s with dlv := mapIf (fun d => d.cmd = cmd) (fun d => { d with wait := min d.wait s.cycle }) s.dlv }
  | .podArrival job b cnt =>
    if job = 0 || cnt = 0 || decide (netCount (.pod job 0) < cnt) || decide (256 ≤ b) then .next s else .next (s.podArrive job b cnt)
  | .hold switch pa =>
    match s.memKey pa with
    | some k => .next (s.updPkg fun p => { p with marks := if p.marks.contains (k / 8, switch) then p.marks else p.marks ++ [(k / 8, switch)] })
    | none => .next s
  | .back switch pa d =>
    match s.memKey pa with
    | some k =>
      if s.pkg.marks.contains (k / 8, switch) then
        let t := s.updPkg fun p => { p with marks := p.marks.filter fun m => !(m = (k / 8, switch)) }
        match t.guardOf pa with
        | some q => .next (t.guardHit q)
        | none =>
          if t.pkg.tBits.contains (pageOf pa) then .next t
          else
            match t.snoopFirst pa with
            | (t, true) => .next ((t.updPkg fun p => { p with marks := s.pkg.marks }).later (.fareriFlitArrival flit))
            | (t, false) =>
              let port := { ownPort (paPart pa) with elide := s.pkg.cBits.contains (pageOf pa), nt := true }
              let t := t.strikeMem .none port (pa / 8 * 8) 8 true
              .next (if t.pkg.tBits.contains (pageOf pa) then t else t.writePa port (pa / 8 * 8) (toBytes 8 d.toNat))
      else .next s
    | none => .next s

end Sys2Proof.Machine
end

