-- ==== Sys2Proof/Machine/LoadStore.lean ====
section
/-! DEFINITION. The operations of slots L and W (R219 to R225, R245 to R249, Tables 11.6 and 13.1). -/

namespace Sys2Proof.Machine

open Sys2Proof

/-- Indirection lengthens the latency of a gather by 12 cycles (R73). -/
def drawMore (r : Run) : Nat := if agIEN (BitVec.ofNat 512 (r.src 0)) then 12 else 0

/-- A gather: its addresses are drawn and its set advanced (R224). -/
def State.gather (s : State) (r : Run) : State :=
  let d := s.drawAccess r
  (s.pushLoad r .v d.2.2 d.1 (drawMore r)).advanceSet r d.2.1

/-- A scatter. -/
def State.scatter (s : State) (r : Run) : State :=
  let d := s.drawAccess r
  (s.pushStore r d.2.2 d.1).advanceSet r d.2.1

/-- An SC access acts (R153, R154): it enters its queue, and takes its step, or is performed at `pkg`, in the cycle of its
position. -/
def State.scAct (s : State) (r : Run) : State :=
  match r.i with
  | .ldsc _ => (s.pushLoad r .s 0 [r.addr] 0).loadStep r.c
  | _ => (s.pushStore r 0 [r.addr]).scPerform r.c s.serial 5

/-- LD (R246). -/
def execLd (w : LW) (s : State) : Out := s.runOp (.ld w) fun s r => s.pushLoad r .s 0 [r.addr] 0

/-- LDSC (R153, R154, R246): it reads in the cycle of its position. -/
def execLdsc (w : LW) (s : State) : Out :=
  s.runOp (.ldsc w) State.scAct

/-- VLD (R220, R221). -/
def execVld (w : LW) (s : State) : Out := s.runOp (.vld w) fun s r => s.pushLoad r .v 0 [r.addr] 0

/-- VLDG (R224). -/
def execVldg (w : LW) (s : State) : Out := s.runOp (.vldg w) fun s r => s.gather r

/-- TLD (R222, R223). -/
def execTld (w : LW) (s : State) : Out :=
  s.runOp (.tld w) fun s r =>
    let a := s.tileAccess r w.base.toNat w.off8
    s.pushLoad r .v a.1 [a.2] 0

/-- TLDG (R224). -/
def execTldg (w : LW) (s : State) : Out := s.runOp (.tldg w) fun s r => s.gather r

/-- PLD (R220). -/
def execPld (w : LW) (s : State) : Out := s.runOp (.pld w) fun s r => s.pushLoad r .p 0 [r.addr] 0

/-- PFH (R248). -/
def execPfh (w : LW) (s : State) : Out := s.runOp (.pfh w) fun s r => s.hint r r.addr

/-- PFHX (R248): count[7:0] consecutive lines. -/
def execPfhx (w : LW) (s : State) : Out :=
  s.runOp (.pfhx w) fun s r =>
    (upto (r.src 1 % 256)).foldl (fun s i => s.hint r (r.src 0 / 128 * 128 + 128 * i)) s

/-- The hints 0xF0 to 0xFE of slot L do nothing (R178, R248). -/
def execLSlotHint (op : BitVec 4) (rest : BitVec 56) (s : State) : Out :=
  s.runOp (.lSlotHint op rest) fun s _ => s

/-- ST (R246). -/
def execSt (w : WW) (s : State) : Out := s.runOp (.st w) fun s r => s.pushStore r 0 [r.addr]

/-- STSC (R153, R154, R246): it is performed at `pkg` in the cycle of its position. -/
def execStsc (w : WW) (s : State) : Out :=
  s.runOp (.stsc w) State.scAct

/-- VST (R220, R221). -/
def execVst (w : WW) (s : State) : Out := s.runOp (.vst w) fun s r => s.pushStore r 0 [r.addr]

/-- VSTS (R224). -/
def execVsts (w : WW) (s : State) : Out := s.runOp (.vsts w) fun s r => s.scatter r

/-- TST (R222, R223). -/
def execTst (w : WW) (s : State) : Out :=
  s.runOp (.tst w) fun s r =>
    let a := s.tileAccess r w.base.toNat w.off8
    s.pushStore r a.1 [a.2]

/-- TSTS (R224). -/
def execTsts (w : WW) (s : State) : Out := s.runOp (.tsts w) fun s r => s.scatter r

/-- PST (R220). -/
def execPst (w : WW) (s : State) : Out := s.runOp (.pst w) fun s r => s.pushStore r 0 [r.addr]

/-- STNT (R247). -/
def execStnt (w : WW) (s : State) : Out := s.runOp (.stnt w) fun s r => s.pushStore r 0 [r.addr]

/-- MARK (R152, R249): it enters both queues under one serial number; its token is pending. A suppressed one makes no
access (R156). -/
def execMark (w : WW) (s : State) : Out :=
  s.runOp (.mark w) (fun s r =>
    let n := s.newSerial
    let e := r.entry s n.1 0 0 0 []
    n.2.updCtx r.c fun x =>
      { x.produce (tokNum r.f.kout) n.1 with loadQ := x.loadQ ++ [e], storeQ := x.storeQ ++ [e] }) State.enqueueNop

/-- A core's position given to one of its contexts in this cycle. -/
def State.withTurn (s : State) (core c : Nat) : State := s.updCore core fun k => { k with scTurn := some (c, s.cycle) }

/-- The SC operations of the next bundle of a context that name the current position. -/
def State.scOps (s : State) (core c : Nat) : List Run :=
  match s.fetchBundle c with
  | .bundle h size b =>
    let y := (s.ctx c).resumed (s.now c)
    (runsOf c (curOf c h size b y) y b.ops).filter fun r => match scIndex r.i with
      | some j => !r.sup && (s.core core).position j = some (s.cycle % 512)
      | none => false
  | _ => []

/-- Would an SC access, acting now, be left in its queue: held up by a translation, a port, a back-invalidation or a switch? -/
def State.scStays (s : State) (r : Run) : Bool :=
  let x := (s.scAct r).ctx r.c
  (x.loadQ ++ x.storeQ).any fun e => e.id = s.serial

/-- May a context take the current position (R153, R154): with it its next bundle waits for nothing else, and its access is
performed before the wheel leaves the position, or the bundle meets a fault before issue? -/
def State.takesTurn (s : State) (core c : Nat) : Bool :=
  let t := s.withTurn core c
  !(s.scOps core c).isEmpty && (match t.look c with
    | .ready _ _ _ => !((s.scOps core c).any t.scStays)
    | .fault _ => true
    | _ => false)

/-- What the SC access of a context's next bundle needs of the host or a switch is asked for, that a later revolution finds it
done. -/
def State.scAsks (s : State) (core c : Nat) : State :=
  let t := s.withTurn core c
  match t.look c with
  | .ready _ _ _ =>
    (s.scOps core c).foldl (fun s r =>
      let u := (t.scAct r).pkg
      s.updPkg fun k => { k with snoops := u.snoops, swWant := u.swWant, atsReq := u.atsReq }) s
  | _ => s

/-- Does an SC access that names the current position still stand in a queue of the core? It takes the position. -/
def State.scQueued (s : State) (core : Nat) : Bool :=
  ((upto 4).map (4 * core + ·)).any fun c => ((s.ctx c).loadQ ++ (s.ctx c).storeQ).any fun e => (scIndex e.op).isSome && s.scNow c e

/-- SLOT_WHEEL_POSITION (R153): the core's position is current, and the context that the merge stage ranks first among
those that wait for it and can act takes it. -/
def execSlotWheelPosition (core : Nat) (s : State) : Out :=
  let l := (upto 4).map (4 * core + ·)
  .next (match sortBy s.ranks (if s.scQueued core then [] else l.filter (s.takesTurn core)) with
    | c :: _ => s.withTurn core c
    | [] => l.foldl (fun t c => t.scAsks core c) s)

/-- The first core whose position is current and not yet given in this cycle, with a context that takes it or that has something
to ask for. -/
def State.wheelDue (s : State) : Option Nat :=
  findFirst (fun n =>
    let k := s.core n
    (match k.scTurn with | some (_, t) => !(t = s.cycle) | none => true) &&
      (upto 4).any (fun j => k.position j = some (s.cycle % 512)) &&
      (match execSlotWheelPosition n s with
        | .next t => (match (t.core n).scTurn with | some (_, u) => u = s.cycle | none => false) ||
            !(t.pkg.snoops = s.pkg.snoops && t.pkg.swWant = s.pkg.swWant && t.pkg.atsReq = s.pkg.atsReq)
        | _ => false)) ((s.cores.map Prod.fst))

end Sys2Proof.Machine
end

