-- ==== Sys2Proof/Machine/Clock.lean ====
section
/-! DEFINITION. The clocks (R5, R119) and the order of a scheduler cycle (log 4): what goes on as a cycle ends, what begins with
the next one, and the events that are due in it. -/

namespace Sys2Proof.Machine

open Sys2Proof

/-! The end of a cycle. -/

/-- The cores with a call or a breach, each once. -/
def State.busyCores (s : State) : List Nat :=
  (upto 128).filter fun n => (s.core n).breach.isSome || s.calls.any fun k => k.core = n

/-- What goes on while a cycle ends: arrays take groups, queues and pipes read and write, engines move. -/
def State.endCycle (s : State) : State :=
  let s := s.arrayCycle (s.busyCores.filter fun n => (s.col (n / 4)).stepped)
  let s := (s.ctxs.map Prod.fst).foldl (fun s c =>
    if (s.ctx c).loadQ.isEmpty && (s.ctx c).storeQ.isEmpty then s else s.queueStep c) s
  s.hintStep.pipes.engines.strikePosted.drainPosted

/-! The beginning of a cycle. -/

/-- A column as a scheduler cycle begins: it steps in q of eight cycles (R119). -/
def Col.tick (x : Col) : Col :=
  let f := (x.frac + x.q) % 8
  { x with frac := f, cycles := x.cycles + b2n (decide (f < x.q)) }

/-- Eighths of a cycle that a tenant's count grows by in a cycle of its slice (R120). -/
def State.repayFor (s : State) (part t : Nat) : Nat :=
  s.ctxs.foldl (fun m e =>
    let q := (s.col (colOf e.1)).q
    if e.2.part = part && e.2.tenant = t && !(e.2.st = .empty) && decide (q < 8) then max m (8 - q) else m) 0

/-- The repayment of the tenant whose slice runs, saturating (R120, Table 20.5). -/
def State.repay (s : State) (part : Nat) : State :=
  match (s.part part).run with
  | none => s
  | some r =>
    s.updPart part fun p =>
      let t := tget ({} : Tenant) p.tenants r.tenant
      { p with tenants := tset {} p.tenants r.tenant { t with repay := min (t.repay + s.repayFor part r.tenant) (2 ^ 32 - 1) } }

/-- A context that waits for another to stop goes on once it has (R205). -/
def State.stopDone (s : State) (x : Ctx) : Bool :=
  match x.block with
  | .ctxstop t => (s.ctx t).st.atRest
  | _ => false

/-- The periodic events of a cycle: the governor's tick, the budget arbiter, the passes. -/
def State.periodic (s : State) : List Periodic :=
  (if s.cycle % 256 = 0 then [.governorTick] else []) ++ (if s.cycle % 4096 = 0 then [.budgetArbiter] else []) ++
    (if s.cycle % 64 = 0 then (s.parts.filter fun e => e.2.en).map fun e => .schedulerPass e.1 else [])

/-- What a periodic event does. -/
def Periodic.act : Periodic → State → Out
  | .governorTick => execGovernorTick
  | .budgetArbiter => execBudgetArbiter
  | .schedulerPass p => execSchedulerPass p

/-- Each column as a scheduler cycle begins, and the slot wheels of half a thousand cycles ago forgotten. -/
def State.tickCols (s : State) : State :=
  let s := (upto 32).foldl (fun t c => t.setCol c (t.col c).tick) s
  if s.cycle % 512 = 0 then { s with cores := s.cores.map fun (e : Nat × Core) => (e.1, { e.2 with wheelOld := none }) } else s

/-- Shape entries whose SHFREE takes effect in this cycle fall free before anything of it (R256). -/
def State.tickShapes (s : State) : State := (upto 4).foldl State.freeShapesDue s

/-- A call in flight while its column runs below the full speed carries the thermal mark. -/
def State.tickCalls (s : State) : State :=
  { s with calls := mapIf (fun (k : Call) => decide ((s.col (k.core / 4)).q < 8)) (fun k => { k with therm := true }) s.calls }

/-- Contexts at the beginning of a cycle: those of a core in a breach stand still, those that waited for a stop go on. -/
def State.tickCtxs (s : State) : State :=
  let s := (s.busyCores.filter fun n => (s.core n).breach.isSome).foldl State.breachFreeze s
  s.mapCtxs fun _ x => if s.stopDone x then { x with block := .none } else x

/-- Partitions at the beginning of a cycle: repayment, a slice where none runs, and letters whose check waited. -/
def State.tickParts (s : State) : State :=
  let ps := (s.parts.filter fun (e : Nat × Part) => e.2.en).map Prod.fst
  let s := ps.foldl (fun t p => (t.repay p).firstSlice p) s
  (s.parts.filter fun (e : Nat × Part) => !e.2.arriving.isEmpty).foldl (fun s e => s.arriveLetters e.1 e.2.arriving) s

/-- The host pages that starts, handlers and saves wait for are asked for (R312). -/
def State.tickWants (s : State) : State :=
  let starts := (s.quires.filter fun q => q.st = .claimed && decide (q.wait ≤ s.cycle)).filterMap s.startWants
  let ctxs := (s.ctxs.map Prod.fst).filterMap fun c =>
    if (s.ctx c).captured then s.handlerWants c
    else if s.wakeable c then s.wakeWants c
    else if s.imageReady c then s.liveWants c
    else none
  (starts ++ ctxs).foldl State.askHost s

/-- One scheduler cycle. -/
def State.tick (s : State) : State :=
  let s := s.endCycle
  let s := { s with cycle := s.cycle + 1 }
  let s := s.tickAsks.tickCols.tickShapes.tickCalls.tickCtxs.tickParts.tickWants
  let s := if s.cycle % 64 = 0 then s.senseAll else s
  { s with phase := .events, agenda := s.periodic,
           dawn := some ⟨s.ctxs, s.cores, s.calls, s.cols, s.parts, s.owners, s.occ, s.pkg⟩ }

/-! Events. -/

/-- The act of the outside that is due. -/
def State.dueInput (s : State) : Option (Instr × State) :=
  match s.inputs with
  | (t, i) :: l => if t ≤ s.cycle then some (i, { s with inputs := l }) else none
  | [] => none

/-- The first context with a property. -/
def State.firstCtx (s : State) (f : Nat → Bool) : Option Nat := findFirst f (s.ctxs.map Prod.fst)
/-- The first partition with a property. -/
def State.firstPart (s : State) (f : Nat → Bool) : Option Nat := findFirst f (s.parts.map Prod.fst)

/-- Has a stop request waited 65,536 cycles of the context's column (R5, R59)? -/
def State.stopLate (s : State) (c : Nat) : Bool :=
  match (s.ctx c).stop with
  | some q => !q.urgent && decide (q.since + 65536 ≤ s.now c) && !((s.ctx c).st = .saving) && !(s.ctx c).st.atRest
  | none => false

/-- Does the YIELD of a context end now (R191)? -/
def State.yieldOver (s : State) (c : Nat) : Bool :=
  match (s.ctx c).block with
  | .yield t => decide (t ≤ s.now c) || (s.ctx c).stop.isSome
  | _ => false

/-- Does a TLBINV, or the release of slices, of a context end now? -/
def State.blockOver (s : State) (c : Nat) : Option (State → Out) :=
  match (s.ctx c).block with
  | .tlbinv t m => if t ≤ s.cycle && !s.translatedBefore (s.ctx c).part m then some (execTlbinvComplete c) else none
  | .partslc _ _ _ t => if t ≤ s.cycle then some (execSliceReleaseWritebackEnd c) else none
  | _ => none

/-- Do pending store writes of a core take effect now (R78)? -/
def State.storeApplies (s : State) (core : Nat) : Bool := !(s.core core).pend.isEmpty && !(s.calls.any fun k => k.core = core)

/-- Does a breach begin, or end, or time out, on a core (R117, R358)? -/
def State.breachEvent (s : State) (core : Nat) : Option (State → Out) :=
  let late := s.calls.any fun k => k.core = core && s.isLate k
  match (s.core core).breach with
  | none => if late then some (execBreachBegin core) else none
  | some b =>
    if !late then some (execBreachEnd core)
    else if b.since + 65536 ≤ s.now (4 * core) then some (execBreachTimeout core) else none

/-- A handler that an arrival wakes. -/
def State.wakes (s : State) (c : Nat) : Bool := s.wakeable c && (s.wakeWants c).isNone

/-- Does a load of a context that has no late load yet pass its landing cycle without its value (R185)? -/
def State.freezesLate (s : State) (c : Nat) : Bool :=
  let x := s.ctx c
  (x.st = .ready || x.st = .blocked || x.st = .frozen && x.frz.breach) && !x.frz.late && x.hasLate (s.now c)

/-- Does boot end now, at a time the manual bounds and leaves open (R324)? -/
def State.bootDue (s : State) : Bool := s.pkg.boot = .booting && decide (Config.delay 0 ≤ s.cycle)

/-- The first of several events that is due. -/
def firstDue : List (Option (State → Out)) → Option (State → Out)
  | [] => none
  | some i :: _ => some i
  | none :: l => firstDue l

/-- The events of engines and calls that are due, in order. -/
def State.workEvents (s : State) : List (Option (State → Out)) :=
  [ s.cmdDue.map execEngineCommandComplete,
    s.callDue.map execMatrixCallComplete,
    s.windowDue.map execKTileWindowOpen,
    (upto 128).findSome? s.breachEvent,
    (findFirst s.storeApplies (upto 128)).map execStoreWriteApply,
    s.deliveryDue.map (fun d => execDeliveryCheck d (Config.choose (2 ^ 64 + d))),
    (s.firstPart fun p => (s.lateParcel p).isSome).map execParcelTimeout,
    s.allocDue.map execAllocationServed,
    s.mapDue.map execMapStoreWaitServed,
    s.asideDue.map execSmopenSetAsideServed,
    s.wantedWord.map execSwitchWriteback,
    s.switchDue.map execSwitchFailure,
    s.testDue.map execSelfTestVerdict,
    (findFirst (fun g => Config.choose (s.cycle + g)) s.zeroing).map execGenerationZeroingEnd ]

/-- The events of contexts that are due, in order. -/
def State.ctxEvents (s : State) : List (Option (State → Out)) :=
  [ (s.firstCtx fun c => (s.markReady c).isSome).map execMarkerComplete,
    (s.firstCtx fun c => (s.ctx c).frz.late && !(s.ctx c).hasLate (s.now c)).map execLateLoadArrival,
    (s.firstCtx s.trapDue).map execTrapDelivery,
    (s.firstCtx s.endDue).map execContextTerminate,
    (s.firstCtx s.freezesLate).map execLateLoadFreeze,
    (s.firstCtx s.wakes).map execHandlerArrival,
    (s.firstCtx s.yieldOver).map execYieldExpiry,
    (s.ctxs.map Prod.fst).findSome? s.blockOver,
    (s.firstCtx s.retireDue).map execContextRetire,
    (s.firstCtx s.stopLate).map execStopTimeout,
    (s.firstCtx s.urgentReady).map execUrgentStop,
    (s.firstCtx s.stopsNow).map execSafePointStop,
    (s.firstCtx s.saveDue).map execContextSave,
    (s.firstCtx s.framesShort).map execFrameExhaustion,
    (s.firstCtx fun c => (s.ctx c).st = .ready && decide (64 ≤ (s.ctx c).age) && !(s.ctx c).aged).map execAgeCountExpiry,
    s.wheelDue.map execSlotWheelPosition ]

/-- The events of quires and partitions that are due, in order. -/
def State.partEvents (s : State) : List (Option (State → Out)) :=
  [ ((findFirst s.startReady s.quires).map Quire.id).map execStartSignal,
    ((findFirst s.quireDue s.quires).map Quire.id).map execQuireRetire,
    (s.firstPart s.sliceOver).map execSliceEnd,
    (s.parts.map Prod.fst).findSome? (fun p => (findFirst (s.reserves p) [7, 6, 5, 4, 3, 2, 1, 0]).map fun k => execLetterReserving p k) ]

/-- The next event of the cycle, and the state it acts on: boot first, the events of engines and calls, the periodic ones,
then the others. -/
def State.nextEvent (s : State) : Option ((State → Out) × State) :=
  if s.bootDue then some (execBootComplete (Config.choose 0), s)
  else
    match firstDue s.workEvents with
    | some f => some (f, s)
    | none =>
      match s.agenda with
      | i :: l => some (i.act, { s with agenda := l })
      | [] =>
        match (if s.cycle % 256 = 0 then findFirst s.stepsUp (upto 32) else none) with
        | some c => some (execColumnStepUp c, s)
        | none => (firstDue (s.ctxEvents ++ s.partEvents)).map fun f => (f, s)

/-! Before a bundle issues. -/

/-- What the fetch of a bundle reads: its bytes, and the map byte of its line (R165, R168). -/
def State.fetchReads (s : State) (c a n : Nat) : List (Nat × Nat) :=
  pagesOf a n ++ (match (s.ctx c).code with
    | some o => [(o.base + o.mapoff + (a - (o.base + 256)) / 64, 1)]
    | none => [])

/-- An armed error in what the fetch of a bundle reads strikes: a TLB entry, a table, a line. -/
def State.strikeFetch (s : State) (c a n : Nat) : State :=
  let x := s.ctx c
  let r : Reader := .ctx c none
  (s.fetchReads c a n).foldl (fun s e =>
    let s := (s.strikeTlb (tlbOf c) x.part x.tenant e.1 r).strikeWalk (tlbOf c) x.part x.tenant e.1 r
    match s.fetchPage c e.1 with
    | .ok t => s.strikeMem r { ownPort x.part with pin := t.pin, elide := t.elide } (t.pa + e.1 % 2 ^ t.size) e.2 false
    | _ => s) s

/-- A poisoned line in what the fetch of a bundle reads, its tables among it (R377). -/
def State.fetchPoison (s : State) (c a n : Nat) : Option Nat :=
  if s.pkg.poison.isEmpty then none
  else
    let x := s.ctx c
    (s.fetchReads c a n).findSome? fun e =>
      (s.walkPoison (tlbOf c) x.part x.tenant e.1).orElse fun _ =>
        match s.fetchPage c e.1 with
        | .ok t =>
          let pa := t.pa + e.1 % 2 ^ t.size
          ((linesOf pa e.2).find? fun l => s.linePoison { ownPort x.part with pin := t.pin, elide := t.elide } (128 * l)).map (128 * ·)
        | _ => none

/-- An armed error in a register that the next bundle of a context reads, in the buffer it replays, in what its fetch reads, or in
what the checks of its transfer's target read, strikes as the bundle issues (R385), and a poisoned line that the fetch reads is
charged to the context (R377). -/
def State.strikeBundle (s : State) (c : Nat) : State :=
  if s.pkg.armed.isNone && s.pkg.poison.isEmpty then s
  else
    match s.fetchBundle c with
    | .bundle h size b =>
      let x := (s.ctx c).resumed (s.now c)
      let rs := runsOf c (curOf c h size b x) x b.ops
      if s.waits rs then s
      else
        let s := (s.strikeFetch c h size).strikeRegs c (rs.flatMap s.reads) (!(s.ctx c).replay.isEmpty)
        let s := rs.foldl (fun s r => match (if r.sup then none else r.target) with
          | some t => s.strikeCode (.ctx c none) x.part x.tenant t.addr
          | none => s) s
        match s.fetchPoison c h size with
        | some pa => s.poisonLine (.ctx c none) pa
        | none => s
    | _ => s

/-- A context with a result whose landing cycle has come. -/
def State.landing (s : State) : Option Nat :=
  s.firstCtx fun c => (s.ctx c).inflight.any fun l => l.isDue (s.now c) || l.isOver (s.now c)

end Sys2Proof.Machine
end

