-- ==== Sys2Proof/Machine/Setup.lean ====
section
/-! DEFINITION. The slot B address and set-up forms (R196, R197, Table 10.5). -/

namespace Sys2Proof.Machine

open Sys2Proof

/-- The effect of a form that rewrites part of the address-generator set DST names and leaves the rest. The set carries an
in-flight bit until it lands, so that nothing else writes it meanwhile (R197, R352). -/
def State.setSet (s : State) (r : Run) (f : BitVec 512 → BitVec 512) : State :=
  s.result r.c r.f .ag (f (tget 0 r.x.ag r.dst)).toNat

/-- ADR: H + sext(long-immediate word, 32). -/
def execAdr (w : ABW) (s : State) : Out :=
  s.runOp (.adr w) fun s r => s.result r.c r.f .s (wrapN ((r.k.h : Int) + sext r.k.imm.toNat 32) 64)

/-- AGBASE: BASE := v(SRC1). -/
def execAgbase (w : ABW) (s : State) : Out := s.runOp (.agbase w) fun s r => s.setSet r fun a => agPut a 0 64 (r.src 0)

/-- AGDIM: COUNT[d] and STRIDE[d] from the low words of the sources. -/
def execAgdim (w : ABW) (s : State) : Out :=
  s.runOp (.agdim w) fun s r => s.setSet r fun a =>
    let d := w.imm15.toNat % 4
    agPut (agPut a (64 + 32 * d) 32 (r.src 0)) (192 + 32 * d) 32 (r.src 1)

/-- AGIDX: IDX[d] from the low word of SRC1. -/
def execAgidx (w : ABW) (s : State) : Out :=
  s.runOp (.agidx w) fun s r => s.setSet r fun a => agPut a (320 + 32 * (w.imm15.toNat % 4)) 32 (r.src 0)

/-- AGIND: IH := the handle, IEN := f[3], IWIDE := f[2], IDIM := f[1:0]. -/
def execAgind (w : ABW) (s : State) : Out :=
  s.runOp (.agind w) fun s r => s.setSet r fun a =>
    let f := w.imm15.toNat
    agPut (agPut (agPut (agPut a 448 8 w.src1.toNat) 456 2 (f % 4)) 458 1 (bits f 3 3)) 459 1 (bits f 2 2)

/-- AGMODE: MODE := m. -/
def execAgmode (w : ABW) (s : State) : Out :=
  s.runOp (.agmode w) fun s r => s.setSet r fun a => agPut a 460 1 (w.imm15.toNat % 2)

/-- AGRD: sD := image[64i + 63 : 64i]. -/
def execAgrd (w : ABW) (s : State) : Out :=
  s.runOp (.agrd w) fun s r =>
    let i := w.imm15.toNat % 8
    s.result r.c r.f .s (bits (r.src 0) (64 * i + 63) (64 * i))

/-- AGCLR: every field := 0. -/
def execAgclr (w : ABW) (s : State) : Out := s.runOp (.agclr w) fun s r => s.setSet r fun _ => 0

/-- MPSET: mD := v(SRC1). -/
def execMpset (w : ABW) (s : State) : Out := s.runOp (.mpset w) fun s r => s.result r.c r.f .m (r.src 0)

/-- MPRD: sD := mA. -/
def execMprd (w : ABW) (s : State) : Out := s.runOp (.mprd w) fun s r => s.result r.c r.f .s (r.src 0)

end Sys2Proof.Machine
end

