-- ==== Sys2Proof/Machine/Dispatch.lean ====
section
/-! DEFINITION. The meaning of every instruction, one arm per constructor. -/

namespace Sys2Proof.Machine

open Sys2Proof

def exec (i : Instr) (s : State) : Host.Outcome State Fault Refusal :=
  match i with
  | .br w => Sys2Proof.Machine.execBr w s
  | .bri w => Sys2Proof.Machine.execBri w s
  | .call w => Sys2Proof.Machine.execCall w s
  | .calli w => Sys2Proof.Machine.execCalli w s
  | .ret w => Sys2Proof.Machine.execRet w s
  | .loop w => Sys2Proof.Machine.execLoop w s
  | .exit w => Sys2Proof.Machine.execExit w s
  | .yield w => Sys2Proof.Machine.execYield w s
  | .yieldExpiry c => Sys2Proof.Machine.execYieldExpiry c s
  | .wait w => Sys2Proof.Machine.execWait w s
  | .trap w => Sys2Proof.Machine.execTrap w s
  | .sysrd w => Sys2Proof.Machine.execSysrd w s
  | .syswr w => Sys2Proof.Machine.execSyswr w s
  | .govloadWrite w => Sys2Proof.Machine.execGovloadWrite w s
  | .tretpcWrite w => Sys2Proof.Machine.execTretpcWrite w s
  | .tstatWrite w => Sys2Proof.Machine.execTstatWrite w s
  | .tret w => Sys2Proof.Machine.execTret w s
  | .ownset w => Sys2Proof.Machine.execOwnset w s
  | .ownlat w => Sys2Proof.Machine.execOwnlat w s
  | .ownbkt w => Sys2Proof.Machine.execOwnbkt w s
  | .ownrd w => Sys2Proof.Machine.execOwnrd w s
  | .wayset w => Sys2Proof.Machine.execWayset w s
  | .occrd w => Sys2Proof.Machine.execOccrd w s
  | .rngset w => Sys2Proof.Machine.execRngset w s
  | .whlset w => Sys2Proof.Machine.execWhlset w s
  | .tlbinv w => Sys2Proof.Machine.execTlbinv w s
  | .mswr w => Sys2Proof.Machine.execMswr w s
  | .rtset w => Sys2Proof.Machine.execRtset w s
  | .storeWriteApply core => Sys2Proof.Machine.execStoreWriteApply core s
  | .partset w => Sys2Proof.Machine.execPartset w s
  | .partcol w => Sys2Proof.Machine.execPartcol w s
  | .partslc w => Sys2Proof.Machine.execPartslc w s
  | .partchn w => Sys2Proof.Machine.execPartchn w s
  | .partlnk w => Sys2Proof.Machine.execPartlnk w s
  | .ownasgn w => Sys2Proof.Machine.execOwnasgn w s
  | .tenset w => Sys2Proof.Machine.execTenset w s
  | .genadv w => Sys2Proof.Machine.execGenadv w s
  | .errinj w => Sys2Proof.Machine.execErrinj w s
  | .selftst w => Sys2Proof.Machine.execSelftst w s
  | .ctxstop w => Sys2Proof.Machine.execCtxstop w s
  | .frmset w => Sys2Proof.Machine.execFrmset w s
  | .mov w => Sys2Proof.Machine.execMov w s
  | .add w => Sys2Proof.Machine.execAdd w s
  | .sub w => Sys2Proof.Machine.execSub w s
  | .mul w => Sys2Proof.Machine.execMul w s
  | .mulh w => Sys2Proof.Machine.execMulh w s
  | .div w => Sys2Proof.Machine.execDiv w s
  | .rem w => Sys2Proof.Machine.execRem w s
  | .and w => Sys2Proof.Machine.execAnd w s
  | .or w => Sys2Proof.Machine.execOr w s
  | .xor w => Sys2Proof.Machine.execXor w s
  | .shl w => Sys2Proof.Machine.execShl w s
  | .shr w => Sys2Proof.Machine.execShr w s
  | .min w => Sys2Proof.Machine.execMin w s
  | .max w => Sys2Proof.Machine.execMax w s
  | .adds w => Sys2Proof.Machine.execAdds w s
  | .subs w => Sys2Proof.Machine.execSubs w s
  | .cmp w => Sys2Proof.Machine.execCmp w s
  | .sel w => Sys2Proof.Machine.execSel w s
  | .clz w => Sys2Proof.Machine.execClz w s
  | .popc w => Sys2Proof.Machine.execPopc w s
  | .ext w => Sys2Proof.Machine.execExt w s
  | .adr w => Sys2Proof.Machine.execAdr w s
  | .agbase w => Sys2Proof.Machine.execAgbase w s
  | .agdim w => Sys2Proof.Machine.execAgdim w s
  | .agidx w => Sys2Proof.Machine.execAgidx w s
  | .agind w => Sys2Proof.Machine.execAgind w s
  | .agmode w => Sys2Proof.Machine.execAgmode w s
  | .agrd w => Sys2Proof.Machine.execAgrd w s
  | .agclr w => Sys2Proof.Machine.execAgclr w s
  | .mpset w => Sys2Proof.Machine.execMpset w s
  | .mprd w => Sys2Proof.Machine.execMprd w s
  | .vmov w => Sys2Proof.Machine.execVmov w s
  | .vbcast w => Sys2Proof.Machine.execVbcast w s
  | .vadd w => Sys2Proof.Machine.execVadd w s
  | .vsub w => Sys2Proof.Machine.execVsub w s
  | .vmul w => Sys2Proof.Machine.execVmul w s
  | .vfma w => Sys2Proof.Machine.execVfma w s
  | .vfms w => Sys2Proof.Machine.execVfms w s
  | .vdiv w => Sys2Proof.Machine.execVdiv w s
  | .vmin w => Sys2Proof.Machine.execVmin w s
  | .vmax w => Sys2Proof.Machine.execVmax w s
  | .vabs w => Sys2Proof.Machine.execVabs w s
  | .vneg w => Sys2Proof.Machine.execVneg w s
  | .vsqrt w => Sys2Proof.Machine.execVsqrt w s
  | .vrcp w => Sys2Proof.Machine.execVrcp w s
  | .vrsqrt w => Sys2Proof.Machine.execVrsqrt w s
  | .vexp2 w => Sys2Proof.Machine.execVexp2 w s
  | .vlog2 w => Sys2Proof.Machine.execVlog2 w s
  | .vszadd w => Sys2Proof.Machine.execVszadd w s
  | .vcmp w => Sys2Proof.Machine.execVcmp w s
  | .vsel w => Sys2Proof.Machine.execVsel w s
  | .vand w => Sys2Proof.Machine.execVand w s
  | .vor w => Sys2Proof.Machine.execVor w s
  | .vxor w => Sys2Proof.Machine.execVxor w s
  | .vnot w => Sys2Proof.Machine.execVnot w s
  | .vshl w => Sys2Proof.Machine.execVshl w s
  | .vshr w => Sys2Proof.Machine.execVshr w s
  | .vadds w => Sys2Proof.Machine.execVadds w s
  | .vsubs w => Sys2Proof.Machine.execVsubs w s
  | .vmulh w => Sys2Proof.Machine.execVmulh w s
  | .vcvt w => Sys2Proof.Machine.execVcvt w s
  | .vrsum w => Sys2Proof.Machine.execVrsum w s
  | .vrmax w => Sys2Proof.Machine.execVrmax w s
  | .vrmin w => Sys2Proof.Machine.execVrmin w s
  | .vperm w => Sys2Proof.Machine.execVperm w s
  | .vrot w => Sys2Proof.Machine.execVrot w s
  | .vextr w => Sys2Proof.Machine.execVextr w s
  | .vins w => Sys2Proof.Machine.execVins w s
  | .viota w => Sys2Proof.Machine.execViota w s
  | .pand w => Sys2Proof.Machine.execPand w s
  | .por w => Sys2Proof.Machine.execPor w s
  | .pxor w => Sys2Proof.Machine.execPxor w s
  | .pnot w => Sys2Proof.Machine.execPnot w s
  | .pmov w => Sys2Proof.Machine.execPmov w s
  | .pcnt w => Sys2Proof.Machine.execPcnt w s
  | .pfirst w => Sys2Proof.Machine.execPfirst w s
  | .ld w => Sys2Proof.Machine.execLd w s
  | .ldsc w => Sys2Proof.Machine.execLdsc w s
  | .vld w => Sys2Proof.Machine.execVld w s
  | .vldg w => Sys2Proof.Machine.execVldg w s
  | .tld w => Sys2Proof.Machine.execTld w s
  | .tldg w => Sys2Proof.Machine.execTldg w s
  | .pld w => Sys2Proof.Machine.execPld w s
  | .pfh w => Sys2Proof.Machine.execPfh w s
  | .pfhx w => Sys2Proof.Machine.execPfhx w s
  | .lSlotHint op rest => Sys2Proof.Machine.execLSlotHint op rest s
  | .st w => Sys2Proof.Machine.execSt w s
  | .stsc w => Sys2Proof.Machine.execStsc w s
  | .vst w => Sys2Proof.Machine.execVst w s
  | .vsts w => Sys2Proof.Machine.execVsts w s
  | .tst w => Sys2Proof.Machine.execTst w s
  | .tsts w => Sys2Proof.Machine.execTsts w s
  | .pst w => Sys2Proof.Machine.execPst w s
  | .mark w => Sys2Proof.Machine.execMark w s
  | .stnt w => Sys2Proof.Machine.execStnt w s
  | .mcall w => Sys2Proof.Machine.execMcall w s
  | .matrixCallComplete call => Sys2Proof.Machine.execMatrixCallComplete call s
  | .accget w => Sys2Proof.Machine.execAccget w s
  | .accput w => Sys2Proof.Machine.execAccput w s
  | .accclr w => Sys2Proof.Machine.execAccclr w s
  | .accmov w => Sys2Proof.Machine.execAccmov w s
  | .accst w => Sys2Proof.Machine.execAccst w s
  | .latget w => Sys2Proof.Machine.execLatget w s
  | .latput w => Sys2Proof.Machine.execLatput w s
  | .latld w => Sys2Proof.Machine.execLatld w s
  | .accrd w => Sys2Proof.Machine.execAccrd w s
  | .ktile w => Sys2Proof.Machine.execKtile w s
  | .fetcha w => Sys2Proof.Machine.execFetcha w s
  | .fetchb w => Sys2Proof.Machine.execFetchb w s
  | .lata w => Sys2Proof.Machine.execLata w s
  | .latb w => Sys2Proof.Machine.execLatb w s
  | .groups w => Sys2Proof.Machine.execGroups w s
  | .stepa w => Sys2Proof.Machine.execStepa w s
  | .stepb w => Sys2Proof.Machine.execStepb w s
  | .scalea w => Sys2Proof.Machine.execScalea w s
  | .scaleb w => Sys2Proof.Machine.execScaleb w s
  | .accsel w => Sys2Proof.Machine.execAccsel w s
  | .filla w => Sys2Proof.Machine.execFilla w s
  | .fillb w => Sys2Proof.Machine.execFillb w s
  | .cntset w => Sys2Proof.Machine.execCntset w s
  | .cntdec w => Sys2Proof.Machine.execCntdec w s
  | .jnz w => Sys2Proof.Machine.execJnz w s
  | .jmp w => Sys2Proof.Machine.execJmp w s
  | .parmrd w => Sys2Proof.Machine.execParmrd w s
  | .done w => Sys2Proof.Machine.execDone w s
  | .nopm w => Sys2Proof.Machine.execNopm w s
  | .copyMemToTile w => Sys2Proof.Machine.execCopyMemToTile w s
  | .copyTileToMem w => Sys2Proof.Machine.execCopyTileToMem w s
  | .copyTileToTile w => Sys2Proof.Machine.execCopyTileToTile w s
  | .copyMemToMem w => Sys2Proof.Machine.execCopyMemToMem w s
  | .mcast w => Sys2Proof.Machine.execMcast w s
  | .copyh w => Sys2Proof.Machine.execCopyh w s
  | .handlerArrival c => Sys2Proof.Machine.execHandlerArrival c s
  | .talloc w => Sys2Proof.Machine.execTalloc w s
  | .allocationServed alloc => Sys2Proof.Machine.execAllocationServed alloc s
  | .tfree w => Sys2Proof.Machine.execTfree w s
  | .launch w => Sys2Proof.Machine.execLaunch w s
  | .racq w => Sys2Proof.Machine.execRacq w s
  | .rrel w => Sys2Proof.Machine.execRrel w s
  | .barCore w => Sys2Proof.Machine.execBarCore w s
  | .barQuad w => Sys2Proof.Machine.execBarQuad w s
  | .barStack w => Sys2Proof.Machine.execBarStack w s
  | .barPkg w => Sys2Proof.Machine.execBarPkg w s
  | .barPod w => Sys2Proof.Machine.execBarPod w s
  | .acwAdd t w => Sys2Proof.Machine.execAcwAdd t w s
  | .acwMin t w => Sys2Proof.Machine.execAcwMin t w s
  | .acwMax t w => Sys2Proof.Machine.execAcwMax t w s
  | .acwAnd t w => Sys2Proof.Machine.execAcwAnd t w s
  | .acwOr t w => Sys2Proof.Machine.execAcwOr t w s
  | .acwXor t w => Sys2Proof.Machine.execAcwXor t w s
  | .acwSwap t w => Sys2Proof.Machine.execAcwSwap t w s
  | .acwCas t w => Sys2Proof.Machine.execAcwCas t w s
  | .acwfAdd t w => Sys2Proof.Machine.execAcwfAdd t w s
  | .acwfMin t w => Sys2Proof.Machine.execAcwfMin t w s
  | .acwfMax t w => Sys2Proof.Machine.execAcwfMax t w s
  | .acwfAnd t w => Sys2Proof.Machine.execAcwfAnd t w s
  | .acwfOr t w => Sys2Proof.Machine.execAcwfOr t w s
  | .acwfXor t w => Sys2Proof.Machine.execAcwfXor t w s
  | .acwfSwap t w => Sys2Proof.Machine.execAcwfSwap t w s
  | .acwfCas t w => Sys2Proof.Machine.execAcwfCas t w s
  | .switchWriteback word => Sys2Proof.Machine.execSwitchWriteback word s
  | .xexp w => Sys2Proof.Machine.execXexp w s
  | .xtrn w => Sys2Proof.Machine.execXtrn w s
  | .xcvt w => Sys2Proof.Machine.execXcvt w s
  | .xqnt w => Sys2Proof.Machine.execXqnt w s
  | .shseal w => Sys2Proof.Machine.execShseal w s
  | .shfree w => Sys2Proof.Machine.execShfree w s
  | .xratio w => Sys2Proof.Machine.execXratio w s
  | .xred w => Sys2Proof.Machine.execXred w s
  | .tmmatch w => Sys2Proof.Machine.execTmmatch w s
  | .mapStoreWaitServed quad => Sys2Proof.Machine.execMapStoreWaitServed quad s
  | .tmmerge w => Sys2Proof.Machine.execTmmerge w s
  | .tmunmrg w => Sys2Proof.Machine.execTmunmrg w s
  | .tmcomp w => Sys2Proof.Machine.execTmcomp w s
  | .tmfree w => Sys2Proof.Machine.execTmfree w s
  | .tmsize w => Sys2Proof.Machine.execTmsize w s
  | .smopen w => Sys2Proof.Machine.execSmopen w s
  | .smopenSetAsideServed quad => Sys2Proof.Machine.execSmopenSetAsideServed quad s
  | .smpush w => Sys2Proof.Machine.execSmpush w s
  | .smfeed w => Sys2Proof.Machine.execSmfeed w s
  | .smlimit w => Sys2Proof.Machine.execSmlimit w s
  | .smend w => Sys2Proof.Machine.execSmend w s
  | .smdrain w => Sys2Proof.Machine.execSmdrain w s
  | .letterboxWrite off full data => Sys2Proof.Machine.execLetterboxWrite off full data s
  | .schedulerPass part => Sys2Proof.Machine.execSchedulerPass part s
  | .letterReserving part prio => Sys2Proof.Machine.execLetterReserving part prio s
  | .startSignal quire => Sys2Proof.Machine.execStartSignal quire s
  | .contextRetire c => Sys2Proof.Machine.execContextRetire c s
  | .quireRetire quire => Sys2Proof.Machine.execQuireRetire quire s
  | .ageCountExpiry c => Sys2Proof.Machine.execAgeCountExpiry c s
  | .resultLanding c => Sys2Proof.Machine.execResultLanding c s
  | .lateLoadFreeze c => Sys2Proof.Machine.execLateLoadFreeze c s
  | .lateLoadArrival c => Sys2Proof.Machine.execLateLoadArrival c s
  | .sliceEnd part => Sys2Proof.Machine.execSliceEnd part s
  | .safePointStop c => Sys2Proof.Machine.execSafePointStop c s
  | .contextSave c => Sys2Proof.Machine.execContextSave c s
  | .stopTimeout c => Sys2Proof.Machine.execStopTimeout c s
  | .urgentStop c => Sys2Proof.Machine.execUrgentStop c s
  | .frameExhaustion c => Sys2Proof.Machine.execFrameExhaustion c s
  | .parcelTimeout part => Sys2Proof.Machine.execParcelTimeout part s
  | .deliveryCheck delivery good => Sys2Proof.Machine.execDeliveryCheck delivery good s
  | .governorTick => Sys2Proof.Machine.execGovernorTick s
  | .columnStepUp col => Sys2Proof.Machine.execColumnStepUp col s
  | .budgetArbiter => Sys2Proof.Machine.execBudgetArbiter s
  | .breachBegin core => Sys2Proof.Machine.execBreachBegin core s
  | .breachEnd core => Sys2Proof.Machine.execBreachEnd core s
  | .breachTimeout core => Sys2Proof.Machine.execBreachTimeout core s
  | .faultFreeze c => Sys2Proof.Machine.execFaultFreeze c s
  | .trapDelivery c => Sys2Proof.Machine.execTrapDelivery c s
  | .contextTerminate c => Sys2Proof.Machine.execContextTerminate c s
  | .errorStrike desc unc lasting => Sys2Proof.Machine.execErrorStrike desc unc lasting s
  | .selfTestVerdict test => Sys2Proof.Machine.execSelfTestVerdict test s
  | .switchFailure switch => Sys2Proof.Machine.execSwitchFailure switch s
  | .tdiError part => Sys2Proof.Machine.execTdiError part s
  | .tdispLock part => Sys2Proof.Machine.execTdispLock part s
  | .tdispRun part => Sys2Proof.Machine.execTdispRun part s
  | .tdispUnlock part => Sys2Proof.Machine.execTdispUnlock part s
  | .ideLoss => Sys2Proof.Machine.execIdeLoss s
  | .spdmRequest index => Sys2Proof.Machine.execSpdmRequest index s
  | .firmwareStage image version keySlot sigGood raise => Sys2Proof.Machine.execFirmwareStage image version keySlot sigGood raise s
  | .bar0Write off len data => Sys2Proof.Machine.execBar0Write off len data s
  | .pbudgetWrite data => Sys2Proof.Machine.execPbudgetWrite data s
  | .partitionRecordWrite part word data => Sys2Proof.Machine.execPartitionRecordWrite part word data s
  | .hdmDecoderCommit part base size => Sys2Proof.Machine.execHdmDecoderCommit part base size s
  | .hostMemRead hpa len => Sys2Proof.Machine.execHostMemRead hpa len s
  | .hostMemWrite hpa data => Sys2Proof.Machine.execHostMemWrite hpa data s
  | .hostSnoop line inv => Sys2Proof.Machine.execHostSnoop line inv s
  | .linkTraining switch pkg => Sys2Proof.Machine.execLinkTraining switch pkg s
  | .coldReset => Sys2Proof.Machine.execColdReset s
  | .warmReset => Sys2Proof.Machine.execWarmReset s
  | .bootComplete selfTest => Sys2Proof.Machine.execBootComplete selfTest s
  | .engineCommandComplete cmd => Sys2Proof.Machine.execEngineCommandComplete cmd s
  | .markerComplete c => Sys2Proof.Machine.execMarkerComplete c s
  | .slotWheelPosition core => Sys2Proof.Machine.execSlotWheelPosition core s
  | .kTileWindowOpen call => Sys2Proof.Machine.execKTileWindowOpen call s
  | .tlbinvComplete c => Sys2Proof.Machine.execTlbinvComplete c s
  | .generationZeroingEnd struct => Sys2Proof.Machine.execGenerationZeroingEnd struct s
  | .sliceReleaseWritebackEnd c => Sys2Proof.Machine.execSliceReleaseWritebackEnd c s
  | .backInvalidationResponse line dirty => Sys2Proof.Machine.execBackInvalidationResponse line dirty s
  | .atsTranslationResponse hpaPage answer => Sys2Proof.Machine.execAtsTranslationResponse hpaPage answer s
  | .fareriFlitArrival flit => Sys2Proof.Machine.execFareriFlitArrival flit s
  | .fareriLinkLoss switch => Sys2Proof.Machine.execFareriLinkLoss switch s

end Sys2Proof.Machine
end

