-- ==== Sys2Proof/Machine/Step.lean ====
section
/-! DEFINITION. One step of the machine: the phases of a scheduler cycle (log 4), and the placing of one instruction word
where the next step fetches (log 8). -/

namespace Sys2Proof.Machine

open Sys2Proof

/-- The issue phase: the next operation of the bundle being issued, the end of that bundle, or the beginning of the next
context's bundle with its first operation. -/
def stepIssue (s : State) : Out :=
  match s.cur with
  | some k =>
    match k.todo with
    | [] => .next (s.finishBundle k)
    | (_, i) :: _ => exec i s
  | none =>
    match s.todo with
    | [] => .next { s with phase := .clock }
    | c :: l =>
      let s0 := { s with todo := l }.strikeBundle c
      if !((s0.ctx c).st = .ready) then .next s0
      else
        let s1 := s0.beginBundle c
        match s1.cur with
        | none => .next s1
        | some k =>
          match k.todo with
          | [] => .next s1
          | (_, i) :: _ => exec i s1

/-- The events of a scheduler cycle, one a step: what the outside brings, then what the machine does of itself. -/
def stepEvents (s : State) : Out :=
  match s.dueInput with
  | some (i, s') => exec i s'
  | none =>
    match s.nextEvent with
    | some (f, s') => f s'
    | none => .next { s with phase := .scan }

/-- The look at each context's next bundle: faults before issue are taken, results land, then the merge stages choose. -/
def stepScan (s : State) : Out :=
  match s.firstFaulty with
  | some c => execFaultFreeze c s
  | none =>
    match s.landing with
    | some c => execResultLanding c s
    | none => .next s.merge

/-- One word of a running routine (R239). -/
def stepMicro (id : Nat) (s : State) : Out :=
  match s.microNext id with
  | .ok i => exec i s
  | .error s' => .next s'

/-- One step. A routine runs between bundles. -/
def step (s : State) : Host.Outcome State Fault Refusal :=
  match s.cur, s.micro with
  | none, some id => stepMicro id s
  | _, _ =>
    match s.phase with
    | .clock => .next s.tick
    | .events => stepEvents s
    | .scan => stepScan s
    | .issue => stepIssue s

/-- The virtual address at which `withFetchWord` places a bundle. -/
def fetchVa : Nat := 0x10000

/-- A call in flight on core 0 about to execute store word 0. -/
def fetchCall : Call :=
  { id := 1, core := 0, ctx := 0, pc := 0, opa := 0, opb := 0, acc := 0, owner := 0, ladder := 0,
    da := 0x0001000000090000, db := 0x0000000000090000, mp := List.replicate 8 0, agA := 0, agB := 0, sgA := 0, sgB := 0,
    tiles := [], level := .U, mode := 0, cap := 0, lat := 1, n := 1, depth := 4, c0 := 0, frz := 0, frzAt := 0, first := 0,
    last := 1023, upc := 0, words := 0, cnt := [1, 0, 0, 0], kt := 0, kA := 0, kB := 0, trn := false, scA := false,
    scB := false, srcA := none, srcB := none, isOpen := false, waiting := false, ended := false, rung := 0, vals := [],
    pm := 0, jobs := [], stopped := none, uses := [], late := false, exhaust := false, therm := false,
    latches := [] }

/-- The state with one instruction placed where the next step fetches (log 8): a micro-op word (at most 64 bits) as store
word 0 of a call in flight on core 0, a bundle at the program counter of context 0, which is READY to issue it at
level H in partition 0, through a translation already cached. -/
def State.withFetchWord (s : State) (nbits w : Nat) : State :=
  if nbits ≤ 64 then
    let s := s.updCore 0 fun k => { k with store := tset 0 k.store 0 (BitVec.ofNat 64 w) }
    { s with calls := [fetchCall], micro := some 1, serial := s.serial + 1 }
  else
    let s := s.bootPart0
    let t : Trans := { part := 0, tenant := 0, size := 16, va := fetchVa, pa := 0, rd := true, wr := false, wr1 := false,
                       wr2 := false, exec := true, user := false, pin := none, elide := false, remote := none, span := 16 }
    let s := s.fillTlb1 (tlbOf 0) t
    let s := s.setRawBytes 0 (tableBytes nbits w)
    let s := s.updCtx 0 fun x => { x with st := .ready, level := .H, pc := fetchVa }
    { s with phase := .issue, todo := [0], cur := none, micro := none }

end Sys2Proof.Machine
end

