-- ==== Sys2Proof/Safety.lean ====
section
/-! DEFINITION. What counts as a safe run of the N9, and the terms statements use: the machine never stops, its memory keeps its
canonical form, and what one operation of a bundle may change. -/

namespace Sys2Proof.Safety

open Sys2Proof.Machine

/-- The step answers a next state. -/
def Goes (s : State) : Prop := ∃ t, step s = .next t

/-- Memory, of the device and host and of other packages, is in canonical form. -/
def MemWf (s : State) : Prop := Memory.wf s.mem = true ∧ Memory.remoteWf s.remote = true

/-! One operation of the bundle being issued. -/

/-- Operation `i`, of form `f`, of the bundle `k` being issued, whose faults before issue have been looked for (R333). -/
structure Acts (s : State) (k : Cur) (i : Instr) (f : Form) : Prop where
  cur     : s.cur = some k
  checked : k.checked = true
  form    : formOf i = some f

/-- The operation as it reads its sources: from the context as the bundle found it (R54). -/
def opOf (k : Cur) (i : Instr) (f : Form) : Run := ⟨k.ctx, k, i, f, k.before⟩

/-- The operation acts, and its guard does not suppress it as a whole (R30). -/
def Performs (s : State) (k : Cur) (i : Instr) (f : Form) : Prop := Acts s k i f ∧ (opOf k i f).sup = false

/-- Its guard suppresses it as a whole. -/
def Suppressed (s : State) (k : Cur) (i : Instr) (f : Form) : Prop := Acts s k i f ∧ (opOf k i f).sup = true

/-- The bundle once its next operation has acted. -/
def acted (k : Cur) : Cur := { k with todo := k.todo.tail }

/-- The context of the bundle once the hold latches of the operation are set (R31). -/
def latched (s : State) (k : Cur) (f : Form) : Ctx :=
  { s.ctx k.ctx with holds := holdStep k.before k.imm f (s.ctx k.ctx).holds }

/-- The state that an operation's own effect finds: the operation taken off its bundle, its hold latches set. -/
def opened (s : State) (k : Cur) (f : Form) : State := { s with cur := some (acted k) }.setCtx k.ctx (latched s k f)

/-- Nothing but context `c` and the bundle being issued differs. -/
structure OnlyCtx (s t : State) (c : Nat) : Prop where
  rest   : t = { s with ctxs := t.ctxs, cur := t.cur }
  others : ∀ d, d ≠ c → t.ctx d = s.ctx d

/-- Nothing but context `c`, the bundle being issued and the counters of serial numbers and free values differs. -/
structure OnlyQueue (s t : State) (c : Nat) : Prop where
  rest   : t = { s with ctxs := t.ctxs, cur := t.cur, serial := s.serial + 1, fresh := s.fresh + 1 }
  others : ∀ d, d ≠ c → t.ctx d = s.ctx d

/-- The result in flight for the destination of a form; none for `s0` (R68). -/
def newLanding (s : State) (k : Cur) (f : Form) (cls : Cls) (lat : Nat) (v : Option Nat) (src : Nat) : List Landing :=
  if cls = .s ∧ f.dst = 0 then [] else [⟨cls, f.dst, s.now k.ctx + lat, v, src, f.slot⟩]

/-- The operation's whole effect is a result: `v`, in flight for the register of class `cls` that the form names, to land after
the form's latency. Every register, token, tile and byte of memory is as it was. -/
def ResultLands (s : State) (k : Cur) (i : Instr) (f : Form) (cls : Cls) (v : Nat) : Prop :=
  ∃ t, exec i s = .next t ∧ OnlyCtx s t k.ctx ∧ t.cur = some (acted k) ∧
    t.ctx k.ctx = { latched s k f with inflight := (s.ctx k.ctx).inflight ++ newLanding s k f cls f.lat (some v) 0 }

/-- The result is a vector whose element `j` is `e j` where it is active under the guard, and the old element where it is not
(R206). -/
def LanesLand (s : State) (k : Cur) (i : Instr) (f : Form) (ty : Ty) (e : Nat → Nat) : Prop :=
  ∃ v : VReg, ResultLands s k i f .v v.toNat ∧ ∀ j, j < ty.count → elem ty.width v j =
    if elemActive (opOf k i f).g f.sense ty.width j then e j % 2 ^ ty.width else elem ty.width (tget 0 k.before.v f.dst) j

/-- An operation that changes its context alone, by `g` after its hold latches. -/
def CtxBecomes (s : State) (k : Cur) (i : Instr) (f : Form) (g : Ctx → Ctx) : Prop :=
  ∃ t, exec i s = .next t ∧ OnlyCtx s t k.ctx ∧ t.cur = some (acted k) ∧ t.ctx k.ctx = g (latched s k f)

/-- A transfer: control goes to `a` once the bundle ends, and the context changes by `g`. -/
def Transfers (s : State) (k : Cur) (i : Instr) (f : Form) (a : Nat) (branch : Bool) (g : Ctx → Ctx) : Prop :=
  ∃ t, exec i s = .next t ∧ OnlyCtx s t k.ctx ∧ t.cur = some { acted k with jump := some a, branch := branch } ∧
    t.ctx k.ctx = g (latched s k f)

/-- A queue entry without what its translation has found. -/
def bare (e : QEntry) : QEntry := { e with known := false, units := [] }

/-- What an operation of slots L and W brings into a queue: itself, the values it read, and where it goes. -/
structure EntryOf (e : QEntry) (s : State) (k : Cur) (i : Instr) (f : Form) (tile : Nat) (addrs : List Nat) : Prop where
  id    : e.id = s.serial
  op    : e.op = i
  pc    : e.pc = k.h
  base  : e.base = (opOf k i f).src 0
  index : e.index = (opOf k i f).src 1
  tile  : e.tile = tile
  addrs : e.addrs = addrs
  level : e.level = k.before.level
  guard : e.guard = (opOf k i f).g ∧ e.sense = f.sense
  tok   : e.tok = (f.kins.filterMap k.before.tokRef).head?
  new   : e.got = [] ∧ e.reach = 0

/-- The state in which a load stands last in the load queue under the next serial number, its result in flight without a value,
its context changed by `g` besides. -/
def QueuedLoad (s : State) (k : Cur) (f : Form) (cls : Cls) (lat : Nat) (g : Ctx → Ctx) (t : State) (e : QEntry) : Prop :=
  OnlyQueue s t k.ctx ∧ t.cur = some (acted k) ∧
    t.ctx k.ctx = g { latched s k f with
      loadQ := (s.ctx k.ctx).loadQ ++ [e], inflight := (s.ctx k.ctx).inflight ++ newLanding s k f cls lat none s.serial }

/-- A load enters the load queue. -/
def LoadQueues (s : State) (k : Cur) (i : Instr) (f : Form) (cls : Cls) (lat tile : Nat) (addrs : List Nat) : Prop :=
  ∃ t e, exec i s = .next t ∧ QueuedLoad s k f cls lat (fun x => x) t e ∧ EntryOf e s k i f tile addrs

/-- The advance of the set that a form drew from (R197): in flight for one cycle, or in the latched copy it was read from. -/
def advanced (s : State) (k : Cur) (f : Form) (b : BitVec 512) (x : Ctx) : Ctx :=
  if (f.fld 0).val = 0xFF then
    match x.latch f.slot 0 with
    | some h => { x with holds := tset none x.holds (4 * f.slot.num) (some { h with val := b.toNat }) }
    | none => x
  else { x with inflight := x.inflight ++ [⟨.ag, (f.fld 0).val, s.now k.ctx + 1, some b.toNat, 0, f.slot⟩] }

/-- A gather enters the load queue with the addresses its set draws, and the set advances (R224). -/
def GatherQueues (s : State) (k : Cur) (i : Instr) (f : Form) : Prop :=
  let d := (opened s k f).drawAccess (opOf k i f)
  ∃ t e, exec i s = .next t ∧
    QueuedLoad s k f .v (f.lat + if agIEN (BitVec.ofNat 512 ((opOf k i f).src 0)) then 12 else 0) (advanced s k f d.2.1) t e ∧
    EntryOf e s k i f d.2.2 d.1

/-- The state in which a store stands last in the store queue under the next serial number, and nothing is written yet; what is
known of the translation of entries may have grown. Its context is changed by `g` besides. -/
def QueuedStore (s : State) (k : Cur) (f : Form) (g : Ctx → Ctx) (t : State) (e : QEntry) : Prop :=
  ∃ q, OnlyQueue s t k.ctx ∧ t.cur = some (acted k) ∧ t.ctx k.ctx = g { latched s k f with storeQ := q } ∧
    q.map bare = ((s.ctx k.ctx).storeQ ++ [e]).map bare

/-- A store enters the store queue with the value it read. -/
def StoreQueues (s : State) (k : Cur) (i : Instr) (f : Form) (tile : Nat) (addrs : List Nat) : Prop :=
  ∃ t e, exec i s = .next t ∧ QueuedStore s k f (fun x => x) t e ∧ EntryOf e s k i f tile addrs ∧ e.data = (opOf k i f).src 2

/-- A scatter enters the store queue with the addresses its set draws, and the set advances (R224). -/
def ScatterQueues (s : State) (k : Cur) (i : Instr) (f : Form) : Prop :=
  let d := (opened s k f).drawAccess (opOf k i f)
  ∃ t e, exec i s = .next t ∧ QueuedStore s k f (advanced s k f d.2.1) t e ∧ EntryOf e s k i f d.2.2 d.1 ∧
    e.data = (opOf k i f).src 2

/-- An access of context `c` to `n` aligned bytes at `va` that goes straight to physical address `pa`: its first-level TLB translates
it, the leaf allows it at level `lv`, no slice of its partition and no PIN stands between, the page is not elided, and no error,
self-test, poison or switch mark is about (R136, R142, R363). -/
structure Straight (s : State) (c : Nat) (want : Want) (lv : Level) (va n pa : Nat) : Prop where
  low     : va < 2 ^ 56
  aligned : va % n = 0 ∧ pa % n = 0
  leaf    : ∃ t, findFirst (fun t => t.covers (s.ctx c).part (s.ctx c).tenant va) (s.tlb1 (tlbOf c)) = some t ∧
    pa = t.pa + va % 2 ^ t.size ∧ s.leafErr lv want false t pa = none ∧ t.pin = none ∧ t.elide = false
  slices  : (s.part (s.ctx c).part).slices = []
  calm    : s.pkg.armed = none ∧ s.tests = [] ∧ s.pkg.poison = [] ∧ s.pkg.marks = []

/-- A hint asks for the lines of addresses and changes nothing else (R248). -/
def HintsAsk (s : State) (k : Cur) (i : Instr) (f : Form) (vas : List Nat) : Prop :=
  ∃ t hs, exec i s = .next t ∧
    t = { s with ctxs := t.ctxs, cur := some (acted k), fresh := s.fresh + vas.length, hints := s.hints ++ hs } ∧
    (∀ d, d ≠ k.ctx → t.ctx d = s.ctx d) ∧ t.ctx k.ctx = latched s k f ∧ hs.map Hint.va = vas ∧
    ∀ h ∈ hs, h.ctx = k.ctx ∧ h.part = k.before.part ∧ h.tenant = k.before.tenant ∧ h.level = k.before.level ∧
      h.owner = k.before.owner

/-! One part of the machine changes beside the context of the bundle. -/

/-- The context of the bundle is `g` of itself after its hold latches, every other context is as it was, and the operation is
taken off the bundle. -/
structure Also (s t : State) (k : Cur) (f : Form) (g : Ctx → Ctx) : Prop where
  cur    : t.cur = some (acted k)
  own    : t.ctx k.ctx = g (latched s k f)
  others : ∀ d, d ≠ k.ctx → t.ctx d = s.ctx d

/-- An operation that changes core `n` by `h`, and its context by `g`. -/
def CoreBecomes (s : State) (k : Cur) (i : Instr) (f : Form) (n : Nat) (h : Core → Core) (g : Ctx → Ctx) : Prop :=
  ∃ t, exec i s = .next t ∧ Also s t k f g ∧ t = { s with ctxs := t.ctxs, cur := t.cur, cores := t.cores } ∧
    t.core n = h (s.core n) ∧ ∀ m, m ≠ n → t.core m = s.core m

/-- An operation that changes partition `p` by `h`. -/
def PartBecomes (s : State) (k : Cur) (i : Instr) (f : Form) (p : Nat) (h : Part → Part) : Prop :=
  ∃ t, exec i s = .next t ∧ Also s t k f (fun x => x) ∧ t = { s with ctxs := t.ctxs, cur := t.cur, parts := t.parts } ∧
    t.part p = h (s.part p) ∧ ∀ q, q ≠ p → t.part q = s.part q

/-- An operation that changes owner `o` by `h`. -/
def OwnerBecomes (s : State) (k : Cur) (i : Instr) (f : Form) (o : Nat) (h : Owner → Owner) : Prop :=
  ∃ t, exec i s = .next t ∧ Also s t k f (fun x => x) ∧ t = { s with ctxs := t.ctxs, cur := t.cur, owners := t.owners } ∧
    t.owner o = h (s.owner o) ∧ ∀ q, q ≠ o → t.owner q = s.owner q

/-- An operation that changes the package record by `h`. -/
def PkgBecomes (s : State) (k : Cur) (i : Instr) (f : Form) (h : Pkg → Pkg) : Prop :=
  ∃ t, exec i s = .next t ∧ Also s t k f (fun x => x) ∧ t = { s with ctxs := t.ctxs, cur := t.cur, pkg := h s.pkg }

/-- A form of slot M that rewrites accumulator tiles or latches of its core by `h`, with the generations and the structures being
zeroed of `u`, and whose own tile or latch `n` of class `cls` is being written for the form's latency (R228). -/
def GrantForm (s : State) (k : Cur) (i : Instr) (f : Form) (cls : Cls) (n : Nat) (h : Core → Core) (u : State) : Prop :=
  ∃ t, exec i s = .next t ∧
    Also s t k f (fun x => { x with inflight := x.inflight ++ [⟨cls, n, s.now k.ctx + f.lat, none, 0, f.slot⟩] }) ∧
    t = { s with ctxs := t.ctxs, cur := t.cur, cores := t.cores, gens := u.gens, zeroing := u.zeroing } ∧
    t.core (coreOf k.ctx) = h (s.core (coreOf k.ctx)) ∧ ∀ m, m ≠ coreOf k.ctx → t.core m = s.core m

/-- One word of a running routine: the call `id` after it is `g` of the call that has counted the word, the routine that runs is
`m`, and nothing else differs. -/
def WordRuns (s : State) (id : Nat) (k : Call) (i : Instr) (g : Call → Call) (m : Option Nat) : Prop :=
  ∃ t, exec i s = .next t ∧ t = { s with calls := t.calls, micro := m } ∧
    t.call id = some (g { k with upc := k.upc + 1, words := k.words + 1 }) ∧ ∀ d, d ≠ id → t.call d = s.call d

/-- The routine of call `id` runs, and no injected error waits for a read. -/
structure Runs (s : State) (id : Nat) (k : Call) : Prop where
  micro : s.micro = some id
  call  : s.call id = some k
  calm  : s.pkg.armed = none

/-- An engine command issues (R250): it stands last among the commands with its operands as read and the tokens it waits for, its
produced token is pending (R74), and it has done nothing yet. -/
def CommandIssues (s : State) (k : Cur) (i : Instr) (f : Form) (nop : Bool) (x : Ctx) : Prop :=
  ∃ t e, exec i s = .next t ∧
    t = { s with cur := some (acted k), ctxs := t.ctxs, serial := s.serial + 1, cmds := s.cmds ++ [e] } ∧
    (∀ d, d ≠ k.ctx → t.ctx d = s.ctx d) ∧ t.ctx k.ctx = x.produce (tokNum f.kout) s.serial ∧
    e.id = s.serial ∧ e.ctx = k.ctx ∧ e.op = i ∧ e.opa = (opOf k i f).src 0 ∧ e.opb = (opOf k i f).src 1 ∧
    e.opc = (opOf k i f).src 2 ∧ e.kins = f.kins.filterMap k.before.tokRef ∧ e.kout = tokNum f.kout ∧ e.owner = k.before.owner ∧
    e.level = k.before.level ∧ e.begun = false ∧ e.acted = false ∧ e.fail = none ∧ e.nop = nop

/-! Events. -/

/-- The partition is told by vector `v`: it is raised, or goes with a record in HFLOG that a write of the device's own still waits to
make (R317, R348). -/
def Told (s : State) (v : Nat) : Prop := v ∈ s.pkg.raised ∨ ∃ q ∈ s.pkg.posted, q.irq = some v

/-- A group of a call is late (R117): groups of a K-tile are left, and its window has ended. -/
def Late (s : State) (k : Call) : Prop :=
  ∃ j l, k.jobs = j :: l ∧
    (if j.kt + 1 = k.n then k.c0 + k.lat + k.frz else k.c0 + (j.kt + 1) * (k.lat / k.n) + k.frzAt) ≤ s.now k.ctx

/-- A load or latch load of a context has passed its landing cycle without its value (R185). -/
def Overdue (s : State) (c : Nat) : Prop :=
  ∃ l ∈ (s.ctx c).inflight, l.cls ≠ .a ∧ l.src ≠ 0 ∧ l.due ≤ s.now c ∧ l.val = none

/-- Nothing of a context is left to wait for (R59, R190): results, queue entries, commands and calls. -/
structure Drained (s : State) (c : Nat) : Prop where
  landed : (s.ctx c).inflight = []
  queues : (s.ctx c).loadQ = [] ∧ (s.ctx c).storeQ = []
  cmds   : ∀ e ∈ s.cmds, e.ctx ≠ c
  calls  : ∀ k ∈ s.calls, k.ctx ≠ c

/-- An enabled tenant of a partition has work (R316): a quire that is saved, or has a member neither RETIRED nor DORMANT, or a
letter that waits. -/
def HasWork (s : State) (p n : Nat) : Prop :=
  (tget {} (s.part p).tenants n).en = true ∧
    ((∃ q ∈ s.quires, q.part = p ∧ lTenant q.letter = n ∧ (q.st ≠ .running ∨ q.images ≠ [] ∨
        ∃ c ∈ q.members, (s.ctx c).quire = q.id ∧ (s.ctx c).st ≠ .retired ∧ (s.ctx c).st ≠ .dormant)) ∨
      ∃ e ∈ (s.part p).queues, ∃ l ∈ e.2, lTenant l.bits = n)

/-- The fields of a letter lie in their ranges (R44): bits that must be zero, and by KIND the others. -/
structure LetterFields (l : BitVec 512) : Prop where
  zero  : bits l.toNat 511 256 = 0 ∧ bits l.toNat 223 216 = 0 ∧ bits l.toNat 212 210 = 0 ∧ bits l.toNat 203 203 = 0 ∧
    bits l.toNat 191 184 = 0 ∧ bits l.toNat 127 120 = 0
  kind  : lKind l ≤ 2
  two   : lKind l = 2 → lIrq l = false ∧ lCpq l = 0 ∧ lMembers l = 0 ∧ lDone l = 0 ∧ lArgs l = 0 ∧ bits l.toNat 63 0 = 0
  quire : lKind l < 2 → 1 ≤ lCpq l ∧ lCpq l ≤ 4 ∧ 1 ≤ lMembers l ∧ lMembers l ≤ 32 ∧ lQuads l ≤ 8 ∧ lDone l % 8 = 0 ∧
    lArgs l % 8 = 0

/-- A letter finds its owner assigned to the partition, a bundle start at its entry, and the object there admitted by the contract
(R106, R370). -/
def Admitted (s : State) (p : Nat) (l : BitVec 512) : Prop :=
  (s.owner (lOwner l)).part = some p ∧ s.startErr p (lTenant l) (lEntry l) = none ∧
    ∃ o, s.objectAt p (lTenant l) (lEntry l) = some o ∧ (o.ownrec = false ∨
      hLadder (s.owner (lOwner l)).hdr = o.ladder ∧ o.ceil ≤ hCeil (s.owner (lOwner l)).hdr ∧ hFloor (s.owner (lOwner l)).hdr ≤ o.floor)

/-- Tenant `n` is the next of the rotation after `r` that has work (R316). -/
def NextWork (s : State) (p r n : Nat) : Prop :=
  HasWork s p n ∧ ∃ i, i < 8 ∧ n = (r + 1 + i) % 8 ∧ ∀ j, j < i → ¬ HasWork s p ((r + 1 + j) % 8)

/-- A write for partition `p` goes straight to memory: no slices, no page or line protected, retired, held in a switch or kept in the
host, and no write of the device's own waits. -/
structure Clear (s : State) (p : Nat) : Prop where
  slices : (s.part p).slices = []
  calm   : s.pkg.posted = [] ∧ s.pkg.hostHas = [] ∧ s.pkg.marks = [] ∧ s.pkg.poison = [] ∧ s.pkg.tBits = []
  guard  : ∀ e ∈ s.parts, e.2.tables = []

/-- Owner `o` used instance `x` in the window (R111): a call of its own drew on it. -/
def Used (s : State) (x : Nat × Nat) (o : Nat) : Prop := (x.1, x.2, o) ∈ s.users ∨ ∃ k ∈ s.calls, k.owner = o ∧ x ∈ k.uses

/-- The header of an owner once the writes that wait for the tick have been made (R105). -/
def ticked (s : State) (o : Nat) : Word := (s.owner o).applyPend.hdr

/-- The owner that an over-demanded instance narrows (R115): among its users above their floor, the one of the lowest RANK, then the
lowest RUNG, then the lowest number. -/
def Narrows (s : State) (x : Nat × Nat) (o : Nat) : Prop :=
  let may := fun n => n < 256 ∧ Used s x n ∧ hRung (ticked s n) < hFloor (ticked s n)
  may o ∧ ∀ n, may n → hRank (ticked s o) < hRank (ticked s n) ∨ (hRank (ticked s o) = hRank (ticked s n) ∧
    (hRung (ticked s o) < hRung (ticked s n) ∨ (hRung (ticked s o) = hRung (ticked s n) ∧ o ≤ n)))

/-- Context `c` is charged with an error where it still runs (R341, R379): FROZEN with a MACHINE record of CODE 3. -/
def Charged (s t : State) (c : Nat) : Prop :=
  (s.ctx c).st ≠ .empty → (s.ctx c).st ≠ .retired → (s.ctx c).dying = none →
    (t.ctx c).st = .frozen ∧ ∃ r f, (t.ctx c).frz.fault = some (r, f, false) ∧ r.cls = 0x10 ∧ r.code = 3

/-- What a context holds once control has entered what its pc names (`code`, `safes`: log 91) is left to the object it reaches. -/
def sameButEntry (x y : Ctx) : Prop := x = { y with code := x.code, safes := x.safes }

/-! Rounding (R39). -/

/-- `q × 2^t` is a magnitude of a format with its exponent range unbounded above and its own subnormal spacing below, in the one way
it is written: `q` is its significand (R39 case 4). -/
def Grid (g : Fmt) (q : Nat) (t : Int) : Prop :=
  q < 2 ^ (g.frac + 1) ∧ 1 - (g.bias : Int) - g.frac ≤ t ∧ (q < 2 ^ g.frac → t = 1 - (g.bias : Int) - g.frac)

/-- Encoding `r` is the magnitude `x` with its sign, rounded (R39 cases 4 to 6): to the nearest magnitude of the format, a tie going to
the one whose significand ends in 0; zero keeps the sign; one larger than every finite encoding gives the infinity of the sign (±448
in E4M3), and any other the encoding of that value. -/
def RoundsTo (g : Fmt) (neg : Bool) (x : ℝ) (r : Nat) : Prop :=
  ∃ (q : Nat) (t : Int), Grid g q t ∧
    (∀ (p : Nat) (u : Int), Grid g p u → |x - q * 2 ^ t| < |x - p * 2 ^ u| ∨
      (|x - q * 2 ^ t| = |x - p * 2 ^ u| ∧ (q % 2 = 0 ∨ (p = q ∧ u = t)))) ∧
    (q = 0 → r = g.zero neg) ∧
    (0 < q → (∀ (c : Nat) (m e : Int), decodeF g c = .fin m e → (m : ℝ) * 2 ^ e < q * 2 ^ t) → r = g.inf neg) ∧
    (0 < q → (∃ (c : Nat) (m e : Int), decodeF g c = .fin m e ∧ (q : ℝ) * 2 ^ t ≤ m * 2 ^ e) →
      r < 2 ^ g.width ∧ ∃ m e : Int, decodeF g r = .fin m e ∧ (m : ℝ) * 2 ^ e = (if neg then -1 else 1) * (q * 2 ^ t))

/-- A real with its sign, rounded; zero gives +0. -/
def RoundsReal (g : Fmt) (v : ℝ) (r : Nat) : Prop :=
  (0 < v → RoundsTo g false v r) ∧ (v < 0 → RoundsTo g true (-v) r) ∧ (v = 0 → r = g.zero false)

/-- `i` is the integer nearest to `x`, a tie going to the even one (R89 case 3). -/
def Nearest (x : ℝ) (i : Int) : Prop := |x - i| ≤ 1 / 2 ∧ (|x - i| = 1 / 2 → i % 2 = 0)

/-! Frames. -/

/-- What no operation of a register form changes, whether it acts or its bundle is dropped: memory byte by byte, the registers,
tokens, trap registers, level and owner of every context, tiles, cores, owners, calls, commands and the L2. -/
structure RegisterFrame (s t : State) : Prop where
  memory : ∀ a, t.rawByte a = s.rawByte a
  regs   : ∀ c cls n, (t.ctx c).reg cls n = (s.ctx c).reg cls n
  tokens : ∀ c n, (t.ctx c).token n = (s.ctx c).token n
  traps  : ∀ c, (t.ctx c).flt = (s.ctx c).flt ∧ (t.ctx c).tretpc = (s.ctx c).tretpc ∧ (t.ctx c).tstat = (s.ctx c).tstat ∧
    (t.ctx c).tscra = (s.ctx c).tscra ∧ (t.ctx c).tscrb = (s.ctx c).tscrb
  levels : ∀ c, (t.ctx c).level = (s.ctx c).level ∧ (t.ctx c).owner = (s.ctx c).owner
  queues : ∀ c, (t.ctx c).loadQ = (s.ctx c).loadQ ∧ (t.ctx c).storeQ = (s.ctx c).storeQ
  shared : t.tiles = s.tiles ∧ t.cores = s.cores ∧ t.owners = s.owners ∧ t.calls = s.calls ∧ t.cmds = s.cmds ∧ t.l2 = s.l2 ∧
    t.remote = s.remote

/-- The operations whose whole effect is a result in a register of their context. -/
def registerForm (i : Instr) : Bool :=
  match i with
  | .mov _ | .add _ | .sub _ | .mul _ | .mulh _ | .div _ | .rem _ | .and _ | .or _ | .xor _ | .shl _ | .shr _ | .min _ | .max _
  | .adds _ | .subs _ | .cmp _ | .sel _ | .clz _ | .popc _ | .ext _ | .adr _ | .agbase _ | .agdim _ | .agidx _ | .agind _
  | .agmode _ | .agrd _ | .agclr _ | .mpset _ | .mprd _ | .vmov _ | .vbcast _ | .vadd _ | .vsub _ | .vmul _ | .vfma _ | .vfms _
  | .vdiv _ | .vmin _ | .vmax _ | .vabs _ | .vneg _ | .vsqrt _ | .vrcp _ | .vrsqrt _ | .vexp2 _ | .vlog2 _ | .vszadd _ | .vcmp _
  | .vsel _ | .vand _ | .vor _ | .vxor _ | .vnot _ | .vshl _ | .vshr _ | .vadds _ | .vsubs _ | .vmulh _ | .vcvt _ | .vrsum _
  | .vrmax _ | .vrmin _ | .vperm _ | .vrot _ | .vextr _ | .vins _ | .viota _ | .pand _ | .por _ | .pxor _ | .pnot _ | .pmov _
  | .pcnt _ | .pfirst _ | .xexp _ | .xtrn _ | .xcvt _ | .xqnt _ | .xred _ => true
  | _ => false

end Sys2Proof.Safety
end

