-- ==== Sys2Proof/Certificates/Slice0/Obligations.lean ====
section
/-! DEFINITION. The statements for the provers. -/

open Sys2Proof Sys2Proof.Machine Sys2Proof.Safety

/-! Encoding. -/

/-- Words written out from the tables of the manual decode to the operations they stand for: the bundle of Table 9.16, line N32
(`TST.f32 tout, s8, v13 <- k2 | A:ADD.n64 s4, s4, 2 | B:ADD.n64 s8, s8, 2`), Table 12.2 (`MCALL a0, 0, m0, m1`, `ACCST a0, m2`), a
KTILE word (Table 9.26), and the words 0 that no slot assigns. -/
def Obligations.ManualWordsDecode : Prop :=
  decodeBundle [0x46, 0, 0, 0, 0, 0, 0, 0, 0x02, 0x7F, 0x04, 0x04, 0x00, 0x88, 0x04, 0x00, 0x02, 0x7F, 0x08, 0x08, 0x00, 0x88, 0x04, 0x00,
    0x05, 0x7F, 0x0D, 0x04, 0x08, 0x02, 0x48, 0x00] =
    .bundle ⟨0x46, 0, [(.A, .add ⟨false, 0x7F, false, 4, 4, 0, false, false, false, true, 8, 2⟩),
      (.B, .add ⟨true, 0x7F, false, 8, 8, 0, false, false, false, true, 8, 2⟩),
      (.W, .tst ⟨0x7F, false, 13, 4, 8, 2, false, false, false, false, 9, 0⟩)]⟩ [] ∧
  decodeSlot .M 0x0000000100007F01 = .ok (.mcall ⟨0x7F, false, 0, 0, 1, false, false, false, 0, 0, 0⟩) ∧
  decodeSlot .M 0x0000000002007F06 = .ok (.accst ⟨0x7F, false, 0, 2, 0, false, false, false, 0, 0, 0⟩) ∧
  decodeSlot .A 0 = .ill 3 ∧
  decodeMop 0x0000000000000001 = some (.ktile ⟨0, 0, 0, 0⟩) ∧
  decodeMop 0 = none

/-- DECODE AFTER ENCODE, for every well-formed slot operation with every operand at every value the encoding admits. -/
def Obligations.SlotWordRoundTrip : Prop :=
  ∀ (i : Instr) (sl : Slot) (w : Word), i.WellFormed → slotWord i = some (sl, w) → decodeSlot sl w = .ok i

/-- ENCODE AFTER DECODE: a slot word that decodes is the word of the operation it decodes to, so each word has one meaning. -/
def Obligations.SlotWordUnique : Prop :=
  ∀ (i : Instr) (sl : Slot) (w : Word), decodeSlot sl w = .ok i → slotWord i = some (sl, w) ∧ i.WellFormed

/-- Every micro-op decodes from its word, and a store word that decodes is that micro-op's word (Tables 9.15, 9.26). -/
def Obligations.MicroWordRoundTrip : Prop :=
  ∀ (i : Instr) (w : Word), mopWord i = some w ↔ decodeMop w = some i

/-- A bundle of one well-formed operation, followed by anything, decodes to it and leaves what follows (R162). -/
def Obligations.BundleRoundTrip : Prop :=
  ∀ (i : Instr) (sl : Slot) (w : Word) (imm : BitVec 32) (rest : List Byte), i.WellFormed → slotWord i = some (sl, w) →
    decodeBundle (encodeBundle sl imm w ++ rest) = .bundle ⟨BitVec.ofNat 32 (2 ^ sl.num), imm, [(sl, i)]⟩ rest

/-! The step. -/

/-- A STEP RUNS THE DECODED INSTRUCTION. In the issue phase, the next operation of the bundle being issued is executed; a context
whose turn it is, READY, with no error armed and no poison in what its fetch reads, whose bundle at its pc decodes to operations and
waits for nothing, begins its bundle, which executes the first of them; a bundle whose operations have all acted ends; and a running routine executes the
micro-op that its next store word decodes to. That a step is one operation, and the order of steps in a cycle, are the
model's (log 4). -/
def Obligations.StepRunsDecoded : Prop :=
  (∀ (s : State) (k : Cur) (sl : Slot) (i : Instr) (l : List (Slot × Instr)),
    s.phase = .issue → s.cur = some k → k.todo = (sl, i) :: l → step s = exec i s) ∧
  (∀ (s : State) (k : Cur), s.phase = .issue → s.cur = some k → k.todo = [] → step s = .next (s.finishBundle k)) ∧
  (∀ (s : State) (c h size : Nat) (l : List Nat) (b : Bundle) (sl : Slot) (i : Instr) (ops : List (Slot × Instr)),
    s.phase = .issue → s.cur = none → s.micro = none → s.todo = c :: l → s.pkg.armed = none → (s.ctx c).st = .ready →
    State.fetchBundle { s with todo := l } c = .bundle h size b → State.fetchPoison { s with todo := l } c h size = none →
    b.ops = (sl, i) :: ops → State.waits { s with todo := l }
      (runsOf c (curOf c h size b ((s.ctx c).resumed (s.now c))) ((s.ctx c).resumed (s.now c)) b.ops) = false →
    ∃ t k, step s = exec i t ∧ t.cur = some k ∧ k.ctx = c ∧ k.h = h ∧ k.size = size ∧ k.imm = b.imm ∧ k.todo = b.ops ∧
      k.checked = false ∧ k.before = t.ctx c ∧ (t.ctx c).age = 0 ∧ (∀ d, d ≠ c → t.ctx d = s.ctx d)) ∧
  (∀ (s : State) (id : Nat) (k : Call) (i : Instr), s.cur = none → s.micro = some id → s.call id = some k → k.first ≤ k.upc →
    k.upc ≤ k.last → k.words < 4096 → decodeMop (tget 0 (s.core k.core).store k.upc) = some i → step s = exec i s)

/-- WHERE CONTROL GOES WHEN A BUNDLE ENDS (R164, R184, R188, R189). Without a transfer, the loop stack and the pc are what the
loop-end step makes of them: while the top entry is of the present depth and ends where the bundle ends, control goes back to
its START with one fewer left while more than one is left, and it is popped otherwise; control stays in sequence where no
entry takes it back. A taken transfer goes to the low 56 bits of its target and costs one empty issue cycle; a taken BR or
BRI pops every entry of the present depth, from the top, whose body does not hold the target, and any other transfer leaves
the stack alone. What a transfer or back edge enters (`code`, `safes`: log 91) is found anew. -/
def Obligations.BundleEnds : Prop :=
  ((∀ (s : State) (k : Cur), s.phase = .issue → s.cur = some k → k.todo = [] → k.jump = none → k.trap = none →
    let x := s.ctx k.ctx
    let e := loopEnd (k.h + k.size) x.depth x.loops
    ∃ t, step s = .next t ∧ OnlyCtx s t k.ctx ∧ t.cur = none ∧
      t.ctx k.ctx = { x with pc := e.2, loops := e.1, code := (t.ctx k.ctx).code, safes := (t.ctx k.ctx).safes } ∧
      (e.2 = k.h + k.size → (t.ctx k.ctx).code = x.code ∧ (t.ctx k.ctx).safes = x.safes)) ∧
  (∀ (s : State) (k : Cur) (a : Nat), s.phase = .issue → s.cur = some k → k.todo = [] → k.jump = some a → k.trap = none →
    let x := s.ctx k.ctx
    ∃ t, step s = .next t ∧ OnlyCtx s t k.ctx ∧ t.cur = none ∧
      t.ctx k.ctx = { x with
        pc := a % 2 ^ 56, bubble := s.now k.ctx + 2, loops := if k.branch = true then loopBranch a x.depth x.loops else x.loops,
        code := (t.ctx k.ctx).code, safes := (t.ctx k.ctx).safes })) ∧
  (∀ (e depth : Nat) (x : LoopEnt) (l : List LoopEnt),
    (x.depth = depth → x.stop = e → 1 < x.left → loopEnd e depth (x :: l) = ({ x with left := x.left - 1 } :: l, x.start)) ∧
    (x.depth = depth → x.stop = e → x.left ≤ 1 → loopEnd e depth (x :: l) = loopEnd e depth l) ∧
    (x.depth ≠ depth ∨ x.stop ≠ e → loopEnd e depth (x :: l) = (x :: l, e)) ∧ loopEnd e depth [] = ([], e)) ∧
  (∀ (t depth : Nat) (x : LoopEnt) (l : List LoopEnt),
    (x.depth = depth → t < x.start ∨ x.stop ≤ t → loopBranch t depth (x :: l) = loopBranch t depth l) ∧
    (x.depth ≠ depth ∨ (x.start ≤ t ∧ t < x.stop) → loopBranch t depth (x :: l) = x :: l) ∧ loopBranch t depth [] = [])

/-- THE MACHINE NEVER STOPS: no state, reached or not, makes a step fault or be refused. Every fault of the manual is a state the
machine goes on from. Every instruction, whatever its operands and whatever the state, answers a next state. -/
def Obligations.MachineNeverStops : Prop :=
  (∀ s : State, Goes s) ∧
  (∀ (i : Instr) (s : State), ∃ t, exec i s = .next t)

/-! Invariants. -/

/-- EVERY STEP KEEPS the canonical form of memory: addresses strictly rising, no entry equal to what an unlisted address reads as
(the form and the value are the model's, log 3). -/
def Obligations.StepKeepsMemoryForm : Prop := ∀ s t : State, MemWf s → step s = .next t → MemWf t

/-- What reset leaves (R323): memory in canonical form with nothing listed, so that device memory, which the manual leaves undefined,
reads as zero (the model's choice, log 3), every context EMPTY, every partition disabled, every
column at full speed (R119), TLIM 95.00 °C (R112), the power budget 1,600 W, and no command, call, quire or tile. -/
def Obligations.ResetState : Prop :=
  MemWf State.reset ∧ State.reset.mem = [] ∧ (∀ c, (State.reset.ctx c).st = .empty) ∧ (∀ p, (State.reset.part p).en = false) ∧
  (∀ n, (State.reset.col n).q = 8) ∧ State.reset.pkg.tlim = 9500 ∧ State.reset.pkg.pbudget = 1600 ∧ State.reset.cmds = [] ∧
  State.reset.calls = [] ∧ State.reset.quires = [] ∧ State.reset.tiles = []

/-- THE INTERLEAVE (R133): of a partition whose channels C0 < C1 < … are listed in order, the byte at offset O of its memory lies
in channel C((O div 512) mod NC), at channel address (O div (512 × NC)) × 512 + (O mod 512), a line of 128 bytes being two
bursts of one channel. So two addresses of a partition that memory keeps at one place are the same address. -/
def Obligations.ChannelInterleave : Prop :=
  ∀ (s : State) (p : Nat), p < 12 → (s.part p).chans.Pairwise (fun a b => a < b) →
    let l := (s.part p).chans
    (∀ o, o < l.length * chanBytes → o < 2 ^ 47 →
      s.chanOf (devPa p o) = (l[o / 512 % l.length]?).map fun c => (c, o / (512 * l.length) * 512 + o % 512)) ∧
    (∀ o, o < l.length * chanBytes → o < 2 ^ 47 → (l[o / 512 % l.length]?).isSome) ∧
    (∀ o i, o % 128 = 0 → o + 127 < l.length * chanBytes → o + 127 < 2 ^ 47 → i < 128 →
      s.chanOf (devPa p (o + i)) = (s.chanOf (devPa p o)).map fun c => (c.1, c.2 + i)) ∧
    (∀ a b k, a < 2 ^ 51 → b < 2 ^ 51 → paPart a = p → paPart b = p → s.memKey a = some k → s.memKey b = some k → a = b)

/-! Arithmetic. -/

/-- A dyadic value in units of 2^E, for E at or below its exponent. -/
def Sys2Proof.Safety.dyadicIn (E : Int) : Ext → Int
  | .fin m e => m * ((2 ^ (e - E).toNat : Nat) : Int)
  | _ => 0

/-- EXTENDED REALS: the product of two (R97) and the exact sum of a list (R38), each by the first case that applies and never
rounded; `rne` (R39): a NaN gives the canonical one, an infinity and a zero keep their sign (±448 for an infinity in E4M3), and any other
value is rounded to the nearest, a tie going to the even significand, past the largest to infinity; and the selections of floating
maximum and minimum (R101). -/
def Obligations.ExtendedReals : Prop :=
  (∀ x y : Ext, (x = .nan ∨ y = .nan ∨ (∃ a b, x = .zero a ∧ y = .inf b) ∨ (∃ a b, x = .inf a ∧ y = .zero b) → x.mul y = .nan) ∧
    (∀ a, x = .inf a → y ≠ .nan → (∀ b, y ≠ .zero b) → x.mul y = .inf (a != y.sign) ∧ y.mul x = .inf (y.sign != a)) ∧
    (∀ a, x = .zero a → y ≠ .nan → (∀ b, y ≠ .inf b) → x.mul y = .zero (a != y.sign) ∧ y.mul x = .zero (y.sign != a)) ∧
    (∀ m e n g, x = .fin m e → y = .fin n g → x.mul y = .fin (m * n) (e + g))) ∧
  (∀ l : List Ext, (.nan ∈ l ∨ (.inf false ∈ l ∧ .inf true ∈ l) → exactSum l = .nan) ∧
    (∀ a, .nan ∉ l → .inf a ∈ l → .inf (!a) ∉ l → exactSum l = .inf a) ∧
    (∀ E : Int, .nan ∉ l → (∀ a, .inf a ∉ l) → (∀ m e, .fin m e ∈ l → E ≤ e) →
      ((l.map (dyadicIn E)).sum ≠ 0 → ∃ m e, exactSum l = .fin m e ∧ E ≤ e ∧ dyadicIn E (exactSum l) = (l.map (dyadicIn E)).sum) ∧
      ((l.map (dyadicIn E)).sum = 0 → exactSum l = .zero (l.all fun x => x == .zero true)))) ∧
  exactSum [.zero false, .zero true] = .zero false ∧ exactSum [.zero true, .zero true, .zero true] = .zero true ∧
  exactSum [.fin 1 0, .fin (-1) 0] = .zero false ∧
  (∀ g : Fmt, rne g .nan = g.nan ∧ (∀ b, rne g (.inf b) = g.inf b ∧ rne g (.zero b) = g.zero b) ∧
    ∀ m e : Int, m ≠ 0 → RoundsTo g (decide (m < 0)) |(m : ℝ) * 2 ^ e| (rne g (.fin m e))) ∧
  [Fmt.f32, .f16, .bf16, .e4m3, .e5m2].map (fun g => (g.nan, g.inf false, g.inf true, g.zero true)) =
    [(0x7FC00000, 0x7F800000, 0xFF800000, 0x80000000), (0x7E00, 0x7C00, 0xFC00, 0x8000), (0x7FC0, 0x7F80, 0xFF80, 0x8000),
      (0x7F, 0x7E, 0xFE, 0x80), (0x7E, 0x7C, 0xFC, 0x80)] ∧
  (∀ (g : Fmt) (mx : Bool) (a b : Nat), (decodeF g a = .nan ∨ decodeF g b = .nan → maxMinF g mx a b = g.nan) ∧
    (decodeF g a ≠ .nan → decodeF g b ≠ .nan → (maxMinF g mx a b = a ∨ maxMinF g mx a b = b) ∧
      ((decodeF g a).lt (decodeF g b) = true → maxMinF g mx a b = if mx then b else a) ∧
      ((decodeF g b).lt (decodeF g a) = true → maxMinF g mx a b = if mx then a else b) ∧
      (decodeF g a = .zero false → decodeF g b = .zero true → maxMinF g mx a b = if mx then a else b) ∧
      (decodeF g a = .zero true → decodeF g b = .zero false → maxMinF g mx a b = if mx then b else a) ∧
      (a = b → maxMinF g mx a b = a)))

/-! Registers. -/

/-- `s0` reads as zero, and a write of it is discarded (R68); a write of any other register is read back, and every other
register keeps its value. -/
def Obligations.RegisterReadAfterWrite : Prop :=
  (∀ x : Ctx, x.reg .s 0 = 0) ∧ (∀ (x : Ctx) (v : Nat), x.setReg .s 0 v = x) ∧
  (∀ (x : Ctx) (n v : Nat), n ≠ 0 → v < 2 ^ 64 → (x.setReg .s n v).reg .s n = v) ∧
  (∀ (x : Ctx) (n v : Nat), v < 2 ^ 8192 → (x.setReg .v n v).reg .v n = v) ∧
  (∀ (x : Ctx) (n v : Nat), v < 2 ^ 512 → (x.setReg .p n v).reg .p n = v ∧ (x.setReg .ag n v).reg .ag n = v) ∧
  (∀ (x : Ctx) (n v : Nat), v < 2 ^ 64 → (x.setReg .m n v).reg .m n = v) ∧
  (∀ (x : Ctx) (c d : Cls) (n m v : Nat), (c, n) ≠ (d, m) → (x.setReg c n v).reg d m = x.reg d m)

/-- RESULT_LANDING (R54): of a context that is not frozen, every result due lands in its register, in order, and leaves flight;
every register that no due result names keeps its value. -/
def Obligations.ResultsLand : Prop :=
  ∀ (s : State) (c : Nat), (s.ctx c).frz.fault = none → (s.ctx c).frz.urgent = none →
    ∃ t, exec (.resultLanding c) s = .next t ∧ OnlyCtx s t c ∧ t.cur = s.cur ∧
      (∀ (l : Landing) (v : Nat) (a b : List Landing), (s.ctx c).inflight = a ++ l :: b → l.isDue (s.now c) = true →
        (∀ m ∈ b, ¬ (m.isDue (s.now c) = true ∧ m.cls = l.cls ∧ m.idx = l.idx)) → l.val = some v →
        (t.ctx c).reg l.cls l.idx = ((s.ctx c).setReg l.cls l.idx v).reg l.cls l.idx) ∧
      (∀ cls n, (∀ l ∈ (s.ctx c).inflight, ¬ (l.isDue (s.now c) = true ∧ l.cls = cls ∧ l.idx = n)) →
        (t.ctx c).reg cls n = (s.ctx c).reg cls n) ∧
      (∀ l ∈ (t.ctx c).inflight, l ∈ (s.ctx c).inflight ∧ l.isDue (s.now c) = false)

/-- THE FRAME OF THE REGISTER FORMS: of the operation that is next in its bundle, whose slots stand in mask order (R162), whether it
acts, is suppressed, or its bundle is dropped for a fault before issue, no byte of memory, no register, token or trap register of
any context, no tile, accumulator or latch changes at issue. -/
def Obligations.RegisterFormsFrame : Prop :=
  ∀ (i : Instr) (s t : State) (k : Cur) (sl : Slot) (l : List (Slot × Instr)), registerForm i = true → s.cur = some k →
    k.todo = (sl, i) :: l → ((k.todo.filterMap fun o => formOf o.2).map fun f => f.slot.num).Pairwise (fun a b => a < b) →
    exec i s = .next t → RegisterFrame s t

/-! Faults before issue, guards, holds. -/

/-- The windows of accumulator tiles and latches that no queue entry or call has opened (R340). -/
def Sys2Proof.Safety.windows (x : Ctx) : List Landing :=
  x.inflight.filter fun l => (l.cls = .a ∨ l.cls = .l) ∧ l.src = 0

/-- The context that a fault before issue leaves (R335, R336): FROZEN with the record, its latches, loop stack, depth and ratio in
the snapshot buffer behind what the buffer holds, and with the results still to be replayed; all else of it as it was. -/
def Sys2Proof.Safety.frozenFor (c : Nat) (x : Ctx) (e : FaultInfo) (now mark : Nat) : Ctx :=
  { x with
    st := .frozen, block := .none, holds := [], loops := [], depth := 0, ratio := 0, replay := [],
    frz := { x.frz with fault := some (mkRec c x e, now, true) },
    snap := some (match x.snap with
      | none => ⟨x.replay, [], [], x.holds, x.loops, x.depth, x.ratio, mark, windows x⟩
      | some sn => ⟨sn.results ++ x.replay, sn.heldL, sn.heldW, x.holds, x.loops, x.depth, x.ratio, sn.mark, windows x⟩) }

/-- A FAULT BEFORE ISSUE (R333, R335, R336): the first operation of a bundle that meets a fault freezes its context with the
record, moves its latches, loop stack, depth and ratio to the snapshot buffer, and has no effect: no operation of the bundle
acts, and the pc and the registers of every context stay. Nothing else changes at all, but where a refusal moves a locked TDI
to ERROR (R356), a wrong attribute counts in RAWREF (R376), or a refused host page is forgotten (R142). A bundle that meets no
fault issues: its first operation acts as one whose bundle has been looked at. -/
def Obligations.FaultBeforeIssue : Prop :=
  (∀ (s : State) (k : Cur) (i : Instr) (f : Form) (e : FaultInfo), s.cur = some k → k.checked = false → formOf i = some f →
    s.bundleFault k (runsOf k.ctx k k.before k.todo) = some e → (s.ctx k.ctx).st = .ready → (s.ctx k.ctx).dying = none →
    (s.ctx k.ctx).frz.fault = none →
    let y := frozenFor k.ctx (s.ctx k.ctx) e (s.now k.ctx) s.serial
    ∃ t, exec i s = .next t ∧ t.cur = none ∧ (∃ b, t.ctx k.ctx = { y with frz := { y.frz with tdi := b } }) ∧
      (∀ d cls n, (t.ctx d).reg cls n = (s.ctx d).reg cls n) ∧
      ((e.cls = 0x0E → ∀ p, (s.part p).tdi = .unlocked) → ¬ (e.cls = 0x0B ∧ (e.code = 10 ∨ e.code = 13)) →
        OnlyCtx s t k.ctx ∧ t.ctx k.ctx = y)) ∧
  (∀ (s : State) (k : Cur) (i : Instr) (f : Form), s.cur = some k → k.checked = false → formOf i = some f →
    s.bundleFault k (runsOf k.ctx k k.before k.todo) = none → exec i s = exec i { s with cur := some { k with checked := true } })

/-- An operation below its level is refused before anything else of it (R81, Table 24.1): a bundle of one operation whose form
needs a higher level than its context runs at meets PRIV, with the level needed as CODE, whatever else holds; a suppressed one too
(log 12). -/
def Obligations.PrivilegeComesFirst : Prop :=
  ∀ (s : State) (k : Cur) (sl : Slot) (i : Instr) (f : Form), formOf i = some f → isHint i = false →
    k.before.level.num < f.level.num →
    ∃ e, s.bundleFault k (runsOf k.ctx k k.before [(sl, i)]) = some e ∧ e.cls = 2 ∧ e.code = f.level.num ∧ e.slot = f.slot.num ∧
      e.pc = k.h

/-- Which operations need which level (Tables 9.18, 10.10): the system forms of slot C and no others. -/
def Obligations.LevelsOfForms : Prop :=
  ∀ (i : Instr) (f : Form), formOf i = some f →
    (f.level = .H ↔ (match i with
      | .partset _ | .partcol _ | .partslc _ | .partchn _ | .partlnk _ | .ownasgn _ | .tenset _ | .genadv _ | .errinj _
      | .selftst _ | .ctxstop _ | .frmset _ => True
      | _ => False)) ∧
    (f.level = .S ↔ (match i with
      | .syswr _ | .govloadWrite _ | .tretpcWrite _ | .tstatWrite _ | .tret _ | .ownset _ | .ownlat _ | .ownbkt _ | .ownrd _
      | .wayset _ | .occrd _ | .rngset _ | .whlset _ | .tlbinv _ | .mswr _ | .rtset _ => True
      | _ => False))

/-- A guard that suppresses an operation of slots C, A, B, V, M, L, W (but MARK) or X leaves everything but the bundle as it is:
no latch, register, token or memory changes (R30). A suppressed engine command or marker issues as one that makes no access,
with the tokens it consumes to wait for and the token it produces pending (R156). -/
def Obligations.SuppressedOperations : Prop :=
  (∀ (s : State) (k : Cur) (i : Instr) (f : Form), Suppressed s k i f → f.slot ≠ .E → isMark i = false →
    exec i s = .next { s with cur := some (acted k) }) ∧
  (∀ (s : State) (k : Cur) (i : Instr) (f : Form), Suppressed s k i f → (f.slot = .E ∨ isMark i = true) →
    CommandIssues s k i f true (s.ctx k.ctx))

/-! Slots A and B. -/

/-- The result of a scalar form on unbounded integers is `g signed width a b`, and DST takes its low bits, extended by the type. -/
def Sys2Proof.Safety.ScalarResult (mk : ABW → Instr) (g : Bool → Nat → Int → Int → Int) : Prop :=
  ∀ (s : State) (k : Cur) (w : ABW) (f : Form), Performs s k (mk w) f →
    ResultLands s k (mk w) f .s (scalarResult (scalarTy w).1 (scalarTy w).2
      (g (scalarTy w).1 (scalarTy w).2 ((opOf k (mk w) f).sA w) ((opOf k (mk w) f).sB w)))

/-- MOV, ADD, SUB, MUL, MULH, DIV, REM, MIN, MAX, ADDS and SUBS complete with the results of Table 10.3. -/
def Obligations.ScalarArithmetic : Prop :=
  ScalarResult .mov (fun _ _ _ b => b) ∧ ScalarResult .add (fun _ _ a b => a + b) ∧ ScalarResult .sub (fun _ _ a b => a - b) ∧
  ScalarResult .mul (fun _ _ a b => a * b) ∧ ScalarResult .mulh (fun _ n a b => a * b / ((2 ^ n : Nat) : Int)) ∧
  ScalarResult .div (fun _ _ a b => if b = 0 then 0 else Int.tdiv a b) ∧
  ScalarResult .rem (fun _ _ a b => if b = 0 then a else a - b * Int.tdiv a b) ∧
  ScalarResult .min (fun _ _ a b => min a b) ∧ ScalarResult .max (fun _ _ a b => max a b) ∧
  ScalarResult .adds (fun sg n a b => max (loI sg n) (min (hiI sg n) (a + b))) ∧
  ScalarResult .subs (fun sg n a b => max (loI sg n) (min (hiI sg n) (a - b)))

/-- AND, OR, XOR, SHL, SHR, CLZ, POPC and EXT complete with the results of Table 10.3: bitwise on the patterns, shifts by b mod
128, the count of leading zeros and of ones, and the field of v(SRC1) from bit b mod 64 on. -/
def Obligations.ScalarBits : Prop :=
  ScalarResult .and (fun _ n a b => ((wrapN a n &&& wrapN b n : Nat) : Int)) ∧
  ScalarResult .or (fun _ n a b => ((wrapN a n ||| wrapN b n : Nat) : Int)) ∧
  ScalarResult .xor (fun _ n a b => ((wrapN a n ^^^ wrapN b n : Nat) : Int)) ∧
  ScalarResult .shl (fun _ n a b => if (b % 128).toNat < n then a * ((2 ^ (b % 128).toNat : Nat) : Int) else 0) ∧
  ScalarResult .shr (fun sg n a b => if (b % 128).toNat < n then a / ((2 ^ (b % 128).toNat : Nat) : Int)
    else if sg = true ∧ a < 0 then -1 else 0) ∧
  ScalarResult .clz (fun _ n _ b => (clz (wrapN b n) n : Nat)) ∧ ScalarResult .popc (fun _ n _ b => (popcount (wrapN b n) n : Nat)) ∧
  (∀ (s : State) (k : Cur) (w : ABW) (f : Form), Performs s k (.ext w) f →
    ResultLands s k (.ext w) f .s (scalarResult (scalarTy w).1 (scalarTy w).2
      (((opOf k (.ext w) f).src 0 / 2 ^ ((opOf k (.ext w) f).sB w % 64).toNat % 2 ^ (scalarTy w).2 : Nat) : Int)))

/-- What a scalar source field reads (R68, R171, R194): 0xFE the long-immediate word sign-extended, 0xFF the value held in the
slot for source field `i`, any other number a register, `s0` being zero. -/
def Sys2Proof.Safety.scalarSource (k : Cur) (sl : Slot) (v : BitVec 8) (i : Nat) : Nat :=
  if v = 0xFE then (k.imm.signExtend 64).toNat
  else if v = 0xFF then (match k.before.latch sl i with | some e => e.val | none => 0)
  else if v = 0 then 0
  else (tget 0 k.before.s v.toNat).toNat

/-- The operands of a scalar form (R194, R195): a is SRC1 read in the type, b is SRC2, or with IMMF the sign-extended immediate
(the low 7 bits of IMM15 for CMP), read in the type; a unary form has b alone. The types are those of codes 1 to 8 (Table
9.4). What DST holds: 64 bits, whose low w bits are those of the exact result, and which extend the type. -/
def Obligations.ScalarOperandsAndResults : Prop :=
  (∀ (sg : Bool) (n : Nat) (x : Int), 1 ≤ n → n ≤ 64 →
    scalarResult sg n x < 2 ^ 64 ∧ ((scalarResult sg n x : Nat) : Int) % ((2 ^ n : Nat) : Int) = x % ((2 ^ n : Nat) : Int) ∧
    extI sg n (scalarResult sg n x) = extI sg 64 (scalarResult sg n x)) ∧
  (∀ (n x : Nat), 1 ≤ n → extI false n x = ((x % 2 ^ n : Nat) : Int) ∧
    extI true n x = if x % 2 ^ n < 2 ^ (n - 1) then ((x % 2 ^ n : Nat) : Int) else ((x % 2 ^ n : Nat) : Int) - ((2 ^ n : Nat) : Int)) ∧
  (∀ w : ABW, (w.type = 1 → scalarTy w = (true, 8)) ∧ (w.type = 2 → scalarTy w = (true, 16)) ∧ (w.type = 3 → scalarTy w = (true, 32)) ∧
    (w.type = 4 → scalarTy w = (true, 64)) ∧ (w.type = 5 → scalarTy w = (false, 8)) ∧ (w.type = 6 → scalarTy w = (false, 16)) ∧
    (w.type = 7 → scalarTy w = (false, 32)) ∧ (w.type = 8 → scalarTy w = (false, 64))) ∧
  (∀ (k : Cur) (w : ABW) (f : Form) (i : Instr),
    let sl : Slot := if w.slotB = true then .B else .A
    let b : Nat := if w.immf = true then (w.imm15.toInt % ((2 ^ 64 : Nat) : Int)).toNat else scalarSource k sl w.src2 1
    i ∈ [.add w, .sub w, .mul w, .mulh w, .div w, .rem w, .and w, .or w, .xor w, .shl w, .shr w, .min w, .max w, .adds w, .subs w,
      .ext w, .sel w, .mov w, .clz w, .popc w, .cmp w] → formOf i = some f →
    (i ≠ .mov w → i ≠ .clz w → i ≠ .popc w →
      (opOf k i f).src 0 = scalarSource k sl w.src1 0 ∧
      (opOf k i f).sA w = extI (scalarTy w).1 (scalarTy w).2 (scalarSource k sl w.src1 0)) ∧
    (opOf k i f).sB w = extI (scalarTy w).1 (scalarTy w).2 b ∧
    (opOf k i f).cmpB w = extI (scalarTy w).1 (scalarTy w).2
      (if w.immf = true then ((w.imm15.setWidth 7).toInt % ((2 ^ 64 : Nat) : Int)).toNat else scalarSource k sl w.src2 1))

/-- CMP writes every one of the 512 bits of its predicate with the condition between a and b (R195, Table 9.5). SEL is never
suppressed: bit 0 of its predicate, read under SENSE, selects a or b, and PRED 0x7F selects a (R195). -/
def Obligations.CompareAndSelect : Prop :=
  (∀ (s : State) (k : Cur) (w : ABW) (f : Form), Performs s k (.cmp w) f →
    ResultLands s k (.cmp w) f .p (if (match w.imm15.toNat / 128 with
      | 0 => decide ((opOf k (.cmp w) f).sA w = (opOf k (.cmp w) f).cmpB w)
      | 1 => decide ((opOf k (.cmp w) f).sA w ≠ (opOf k (.cmp w) f).cmpB w)
      | 2 => decide ((opOf k (.cmp w) f).sA w < (opOf k (.cmp w) f).cmpB w)
      | 3 => decide ((opOf k (.cmp w) f).sA w ≤ (opOf k (.cmp w) f).cmpB w)
      | 4 => decide ((opOf k (.cmp w) f).cmpB w < (opOf k (.cmp w) f).sA w)
      | _ => decide ((opOf k (.cmp w) f).cmpB w ≤ (opOf k (.cmp w) f).sA w)) then 2 ^ 512 - 1 else 0)) ∧
  (∀ (s : State) (k : Cur) (w : ABW) (f : Form), Acts s k (.sel w) f →
    ResultLands s k (.sel w) f .s (scalarResult (scalarTy w).1 (scalarTy w).2
      (if w.pred = 0x7F ∨ (k.before.pred w.pred.toNat).getLsbD 0 ≠ w.sense then (opOf k (.sel w) f).sA w
       else (opOf k (.sel w) f).sB w)))

/-- The fields of a set's image (Table 4.3), each as bits [l + n − 1 : l]. -/
def Sys2Proof.Safety.agFields : List (Nat × Nat) :=
  [(0, 64), (64, 32), (96, 32), (128, 32), (160, 32), (192, 32), (224, 32), (256, 32), (288, 32), (320, 32), (352, 32), (384, 32),
   (416, 32), (448, 8), (456, 2), (458, 1), (459, 1), (460, 1)]

/-- A set-up form writes the fields `ws` of the set that DST names, with their values cut to the fields, and leaves every other
field of Table 4.3 as it was. -/
def Sys2Proof.Safety.SetsFields (s : State) (k : Cur) (i : Instr) (f : Form) (ws : List (Nat × Nat × Nat)) : Prop :=
  ∃ a : BitVec 512, ResultLands s k i f .ag a.toNat ∧
    (∀ l n v, (l, n, v) ∈ ws → a.toNat / 2 ^ l % 2 ^ n = v % 2 ^ n) ∧
    (∀ l n, (l, n) ∈ agFields → (∀ e ∈ ws, e.1 ≠ l) → a.toNat / 2 ^ l % 2 ^ n = (tget 0 k.before.ag f.dst).toNat / 2 ^ l % 2 ^ n)

/-- AGBASE, AGDIM, AGIDX, AGIND, AGMODE and AGCLR rewrite the fields of Table 10.5 and leave the rest of the set (R197). ADR,
AGRD, MPSET and MPRD (Table 10.5): the header address plus the long-immediate word, a word of a set's image, and a matrix
parameter register written and read. -/
def Obligations.SetUpAndParameterForms : Prop :=
  ((∀ (s : State) (k : Cur) (w : ABW) (f : Form), Performs s k (.agbase w) f →
    SetsFields s k (.agbase w) f [(0, 64, (opOf k (.agbase w) f).src 0)]) ∧
  (∀ (s : State) (k : Cur) (w : ABW) (f : Form), Performs s k (.agdim w) f →
    SetsFields s k (.agdim w) f [(64 + 32 * (w.imm15.toNat % 4), 32, (opOf k (.agdim w) f).src 0),
      (192 + 32 * (w.imm15.toNat % 4), 32, (opOf k (.agdim w) f).src 1)]) ∧
  (∀ (s : State) (k : Cur) (w : ABW) (f : Form), Performs s k (.agidx w) f →
    SetsFields s k (.agidx w) f [(320 + 32 * (w.imm15.toNat % 4), 32, (opOf k (.agidx w) f).src 0)]) ∧
  (∀ (s : State) (k : Cur) (w : ABW) (f : Form), Performs s k (.agind w) f →
    SetsFields s k (.agind w) f [(448, 8, w.src1.toNat), (456, 2, w.imm15.toNat), (458, 1, w.imm15.toNat / 8),
      (459, 1, w.imm15.toNat / 4)]) ∧
  (∀ (s : State) (k : Cur) (w : ABW) (f : Form), Performs s k (.agmode w) f →
    SetsFields s k (.agmode w) f [(460, 1, w.imm15.toNat)]) ∧
  (∀ (s : State) (k : Cur) (w : ABW) (f : Form), Performs s k (.agclr w) f → ResultLands s k (.agclr w) f .ag 0)) ∧
  ((∀ (s : State) (k : Cur) (w : ABW) (f : Form), Performs s k (.adr w) f →
    ResultLands s k (.adr w) f .s (((k.h : Int) + k.imm.toInt) % ((2 ^ 64 : Nat) : Int)).toNat) ∧
  (∀ (s : State) (k : Cur) (w : ABW) (f : Form), Performs s k (.agrd w) f →
    ResultLands s k (.agrd w) f .s ((opOf k (.agrd w) f).src 0 / 2 ^ (64 * (w.imm15.toNat % 8)) % 2 ^ 64)) ∧
  (∀ (s : State) (k : Cur) (w : ABW) (f : Form), Performs s k (.mpset w) f →
    ResultLands s k (.mpset w) f .m ((opOf k (.mpset w) f).src 0)) ∧
  (∀ (s : State) (k : Cur) (w : ABW) (f : Form), Performs s k (.mprd w) f →
    ResultLands s k (.mprd w) f .s ((opOf k (.mprd w) f).src 0)))

/-! Slot V. -/

/-- Element `j` of source `n` of a vector form. -/
def Sys2Proof.Safety.vEl (k : Cur) (i : Instr) (f : Form) (ty : Ty) (n j : Nat) : Nat := elem ty.width ((opOf k i f).vsrc n) j

/-- An element-wise form of one source: the element is `ff` of a decoded floating element, rounded by `ff` itself, or `fi` of an
integer element modulo 2^w. -/
def Sys2Proof.Safety.VecOne (mk : VW → Instr) (ff : Fmt → Ext → Nat) (fi : Int → Int) : Prop :=
  ∀ (s : State) (k : Cur) (w : VW) (f : Form), Performs s k (mk w) f →
    (∀ g, vTy w = .flt g → LanesLand s k (mk w) f (vTy w) fun j => ff g (decodeF g (vEl k (mk w) f (vTy w) 0 j))) ∧
    (∀ sg n, vTy w = .int sg n → LanesLand s k (mk w) f (vTy w) fun j => wrapN (fi (extI sg n (vEl k (mk w) f (vTy w) 0 j))) n)

/-- An element-wise form of one floating source. -/
def Sys2Proof.Safety.VecFloat (mk : VW → Instr) (ff : Fmt → Ext → Nat) : Prop :=
  ∀ (s : State) (k : Cur) (w : VW) (f : Form) (g : Fmt), vTy w = .flt g → Performs s k (mk w) f →
    LanesLand s k (mk w) f (vTy w) fun j => ff g (decodeF g (vEl k (mk w) f (vTy w) 0 j))

/-- An element-wise form of two sources. -/
def Sys2Proof.Safety.VecTwo (mk : VW → Instr) (ff : Fmt → Ext → Ext → Nat) (fi : Bool → Nat → Int → Int → Int) : Prop :=
  ∀ (s : State) (k : Cur) (w : VW) (f : Form), Performs s k (mk w) f →
    (∀ g, vTy w = .flt g → LanesLand s k (mk w) f (vTy w) fun j =>
      ff g (decodeF g (vEl k (mk w) f (vTy w) 0 j)) (decodeF g (vEl k (mk w) f (vTy w) 1 j))) ∧
    (∀ sg n, vTy w = .int sg n → LanesLand s k (mk w) f (vTy w) fun j =>
      wrapN (fi sg n (extI sg n (vEl k (mk w) f (vTy w) 0 j)) (extI sg n (vEl k (mk w) f (vTy w) 1 j))) n)

/-- An element-wise form of three sources. -/
def Sys2Proof.Safety.VecThree (mk : VW → Instr) (ff : Fmt → Ext → Ext → Ext → Nat) (fi : Int → Int → Int → Int) : Prop :=
  ∀ (s : State) (k : Cur) (w : VW) (f : Form), Performs s k (mk w) f →
    (∀ g, vTy w = .flt g → LanesLand s k (mk w) f (vTy w) fun j => ff g (decodeF g (vEl k (mk w) f (vTy w) 0 j))
      (decodeF g (vEl k (mk w) f (vTy w) 1 j)) (decodeF g (vEl k (mk w) f (vTy w) 2 j))) ∧
    (∀ sg n, vTy w = .int sg n → LanesLand s k (mk w) f (vTy w) fun j => wrapN (fi (extI sg n (vEl k (mk w) f (vTy w) 0 j))
      (extI sg n (vEl k (mk w) f (vTy w) 1 j)) (extI sg n (vEl k (mk w) f (vTy w) 2 j))) n)

/-- VADD, VSUB, VMUL, VFMA and VFMS complete element by element: floating results are the exact one rounded once, integer results
are taken modulo 2^w, and inactive elements keep their values (R206, R210). -/
def Obligations.VectorArithmetic : Prop :=
  VecTwo .vadd (fun g a b => rne g (exactSum [a, b])) (fun _ _ a b => a + b) ∧
  VecTwo .vsub (fun g a b => rne g (exactSum [a, b.neg])) (fun _ _ a b => a - b) ∧
  VecTwo .vmul (fun g a b => rne g (a.mul b)) (fun _ _ a b => a * b) ∧
  VecThree .vfma (fun g a b c => rne g (exactSum [a.mul b, c])) (fun a b c => a * b + c) ∧
  VecThree .vfms (fun g a b c => rne g (exactSum [a.mul b, c.neg])) (fun a b c => a * b - c)

/-- The quotient (R100): its special cases, and the exact quotient rounded once. -/
def Sys2Proof.Safety.QuotientRounds : Prop :=
  ∀ (g : Fmt) (x y : Ext),
    (x = .nan ∨ y = .nan ∨ (∃ a b, x = .zero a ∧ y = .zero b) ∨ (∃ a b, x = .inf a ∧ y = .inf b) → divRne g x y = g.nan) ∧
    (∀ a, x = .inf a → y ≠ .nan → (∀ b, y ≠ .inf b) → divRne g x y = g.inf (a != y.sign)) ∧
    (∀ b, y = .zero b → x ≠ .nan → (∀ a, x ≠ .zero a) → divRne g x y = g.inf (x.sign != b)) ∧
    (∀ b, y = .inf b → x ≠ .nan → (∀ a, x ≠ .inf a) → divRne g x y = g.zero (x.sign != b)) ∧
    (∀ a, x = .zero a → y ≠ .nan → (∀ b, y ≠ .zero b) → divRne g x y = g.zero (a != y.sign)) ∧
    (∀ m e n h : Int, m ≠ 0 → n ≠ 0 → x = .fin m e → y = .fin n h →
      RoundsTo g (decide (m < 0) != decide (n < 0)) |(m : ℝ) * 2 ^ e / (n * 2 ^ h)| (divRne g x y))

/-- The square root, the reciprocal and the reciprocal square root (R100, Table 11.3): special values, and the exact value rounded
once. -/
def Sys2Proof.Safety.RootsRound : Prop :=
  ∀ g : Fmt, (∀ x : Ext, rcpRne g x = divRne g (.fin 1 0) x) ∧
    sqrtRne g .nan = g.nan ∧ sqrtRne g (.inf true) = g.nan ∧ sqrtRne g (.inf false) = g.inf false ∧
    (∀ b, sqrtRne g (.zero b) = g.zero b) ∧
    rsqrtRne g .nan = g.nan ∧ rsqrtRne g (.inf true) = g.nan ∧ rsqrtRne g (.inf false) = g.zero false ∧
    (∀ b, rsqrtRne g (.zero b) = g.inf b) ∧
    ∀ m e : Int, (m < 0 → sqrtRne g (.fin m e) = g.nan ∧ rsqrtRne g (.fin m e) = g.nan) ∧
      (0 < m → RoundsTo g false √((m : ℝ) * 2 ^ e) (sqrtRne g (.fin m e)) ∧
        RoundsTo g false (1 / √((m : ℝ) * 2 ^ e)) (rsqrtRne g (.fin m e)))

/-- 2^x and log2 x (Table 11.3): special values; an exact value exactly; and otherwise a value within one part in 2^200, or within
2^-190, of the exact one, rounded once, which log 75 takes for the exact one's rounding. -/
def Sys2Proof.Safety.PowersRound : Prop :=
  ∀ g : Fmt, exp2Rne g .nan = g.nan ∧ exp2Rne g (.inf true) = g.zero false ∧ exp2Rne g (.inf false) = g.inf false ∧
    (∀ b, exp2Rne g (.zero b) = rne g (.fin 1 0)) ∧
    (∀ m e : Int, ∃ v : ℝ, RoundsTo g false v (exp2Rne g (.fin m e)) ∧
      |v - 2 ^ ((m : ℝ) * 2 ^ e)| ≤ 2 ^ ((m : ℝ) * 2 ^ e) / 2 ^ 200 ∧ ∀ i : Int, (m : ℝ) * 2 ^ e = i → v = 2 ^ i) ∧
    log2Rne g .nan = g.nan ∧ log2Rne g (.inf true) = g.nan ∧ log2Rne g (.inf false) = g.inf false ∧
    (∀ b, log2Rne g (.zero b) = g.inf true) ∧ (∀ m e : Int, m < 0 → log2Rne g (.fin m e) = g.nan) ∧
    ∀ m e : Int, 0 < m → m < 2 ^ 64 → ∃ v : ℝ, RoundsReal g v (log2Rne g (.fin m e)) ∧
      |v - Real.logb 2 ((m : ℝ) * 2 ^ e)| ≤ 1 / 2 ^ 190 ∧ ∀ i : Int, (m : ℝ) * 2 ^ e = 2 ^ i → v = i

/-- VDIV, VSQRT, VRCP, VRSQRT, VEXP2, VLOG2 and VSZADD complete element by element in floating types, each element rounded once: the
quotient, root, reciprocal and reciprocal root the exact ones, with their special values (R100, Table 11.3); the power and the logarithm,
and with it VSZADD's size correction, exact where the value is, and else by a series and constant that log 75 (PRESUMED) takes to round as
the exact value does; what is stated of them is how near the value rounded stands to it, and the worked values of R211. VABS, VNEG, VMIN and VMAX complete in floating
and integer types; VADDS, VSUBS and VMULH in integer types (R101, R210 to R212). -/
def Obligations.VectorFunctions : Prop :=
  QuotientRounds ∧ RootsRound ∧ PowersRound ∧
  exp2Rne .f16 (decodeF .f16 0x4900) = 0x6400 ∧ exp2Rne .f16 (decodeF .f16 0x4C00) = 0x7C00 ∧
  exp2Rne .f16 (decodeF .f16 0xCE40) = 0 ∧ exp2Rne .f32 (decodeF .f32 0x3F000000) = 0x3FB504F3 ∧
  log2Rne .f32 (decodeF .f32 0x3E000000) = 0xC0400000 ∧ rsqrtRne .f32 (decodeF .f32 0x40800000) = 0x3F000000 ∧
  (∀ (s : State) (k : Cur) (w : VW) (f : Form) (g : Fmt), vTy w = .flt g → Performs s k (.vdiv w) f →
    LanesLand s k (.vdiv w) f (vTy w) fun j =>
      divRne g (decodeF g (vEl k (.vdiv w) f (vTy w) 0 j)) (decodeF g (vEl k (.vdiv w) f (vTy w) 1 j))) ∧
  VecFloat .vsqrt sqrtRne ∧ VecFloat .vrcp rcpRne ∧ VecFloat .vrsqrt rsqrtRne ∧ VecFloat .vexp2 exp2Rne ∧ VecFloat .vlog2 log2Rne ∧
  (∀ (s : State) (k : Cur) (w : VW) (f : Form) (g : Fmt), vTy w = .flt g → Performs s k (.vszadd w) f →
    LanesLand s k (.vszadd w) f (vTy w) fun j =>
      let n := elem (tyOr w.type2).width ((opOf k (.vszadd w) f).vsrc 1) j
      rne g (exactSum [decodeF g (vEl k (.vszadd w) f (vTy w) 0 j),
        if n = 0 then .inf true else decodeF g (log2Rne g (Ext.ofDyadic n 0))])) ∧
  VecOne .vabs (fun g a => rne g a.abs) (fun a => (a.natAbs : Int)) ∧ VecOne .vneg (fun g a => rne g a.neg) (fun a => -a) ∧
  (∀ (s : State) (k : Cur) (w : VW) (f : Form) (sg : Bool) (n : Nat), vTy w = .int sg n →
    (Performs s k (.vmin w) f → LanesLand s k (.vmin w) f (vTy w) fun j =>
      wrapN (min (extI sg n (vEl k (.vmin w) f (vTy w) 0 j)) (extI sg n (vEl k (.vmin w) f (vTy w) 1 j))) n) ∧
    (Performs s k (.vmax w) f → LanesLand s k (.vmax w) f (vTy w) fun j =>
      wrapN (max (extI sg n (vEl k (.vmax w) f (vTy w) 0 j)) (extI sg n (vEl k (.vmax w) f (vTy w) 1 j))) n) ∧
    (Performs s k (.vadds w) f → LanesLand s k (.vadds w) f (vTy w) fun j => wrapN (max (loI sg n) (min (hiI sg n)
      (extI sg n (vEl k (.vadds w) f (vTy w) 0 j) + extI sg n (vEl k (.vadds w) f (vTy w) 1 j)))) n) ∧
    (Performs s k (.vsubs w) f → LanesLand s k (.vsubs w) f (vTy w) fun j => wrapN (max (loI sg n) (min (hiI sg n)
      (extI sg n (vEl k (.vsubs w) f (vTy w) 0 j) - extI sg n (vEl k (.vsubs w) f (vTy w) 1 j)))) n) ∧
    (Performs s k (.vmulh w) f → LanesLand s k (.vmulh w) f (vTy w) fun j =>
      wrapN (extI sg n (vEl k (.vmulh w) f (vTy w) 0 j) * extI sg n (vEl k (.vmulh w) f (vTy w) 1 j) / ((2 ^ n : Nat) : Int)) n)) ∧
  (∀ (s : State) (k : Cur) (w : VW) (f : Form) (g : Fmt), vTy w = .flt g →
    (Performs s k (.vmin w) f → LanesLand s k (.vmin w) f (vTy w) fun j =>
      maxMinF g false (vEl k (.vmin w) f (vTy w) 0 j) (vEl k (.vmin w) f (vTy w) 1 j)) ∧
    (Performs s k (.vmax w) f → LanesLand s k (.vmax w) f (vTy w) fun j =>
      maxMinF g true (vEl k (.vmax w) f (vTy w) 0 j) (vEl k (.vmax w) f (vTy w) 1 j)))

/-- VAND, VOR, VXOR, VNOT, VSHL, VSHR, VMOV, VBCAST, VSEL, VPERM, VROT, VINS and VIOTA complete element by element, and VEXTR
with one element extended by its type. VSEL is R214 whole; the other forms follow R210 and R218. -/
def Obligations.VectorBitsAndMoves : Prop :=
  ∀ (s : State) (k : Cur) (w : VW) (f : Form),
    (Performs s k (.vand w) f → LanesLand s k (.vand w) f (vTy w) fun j =>
      vEl k (.vand w) f (vTy w) 0 j &&& vEl k (.vand w) f (vTy w) 1 j) ∧
    (Performs s k (.vor w) f → LanesLand s k (.vor w) f (vTy w) fun j =>
      vEl k (.vor w) f (vTy w) 0 j ||| vEl k (.vor w) f (vTy w) 1 j) ∧
    (Performs s k (.vxor w) f → LanesLand s k (.vxor w) f (vTy w) fun j =>
      vEl k (.vxor w) f (vTy w) 0 j ^^^ vEl k (.vxor w) f (vTy w) 1 j) ∧
    (Performs s k (.vnot w) f → LanesLand s k (.vnot w) f (vTy w) fun j =>
      vEl k (.vnot w) f (vTy w) 0 j ^^^ (2 ^ (vTy w).width - 1)) ∧
    (∀ sg n, vTy w = .int sg n → Performs s k (.vshl w) f → LanesLand s k (.vshl w) f (vTy w) fun j =>
      if vEl k (.vshl w) f (vTy w) 1 j % 128 < n then
        vEl k (.vshl w) f (vTy w) 0 j * 2 ^ (vEl k (.vshl w) f (vTy w) 1 j % 128) else 0) ∧
    (∀ sg n, vTy w = .int sg n → Performs s k (.vshr w) f → LanesLand s k (.vshr w) f (vTy w) fun j =>
      wrapN (shrR sg n (extI sg n (vEl k (.vshr w) f (vTy w) 0 j)) (vEl k (.vshr w) f (vTy w) 1 j : Int)) n) ∧
    (Performs s k (.vmov w) f → LanesLand s k (.vmov w) f (vTy w) fun j => vEl k (.vmov w) f (vTy w) 0 j) ∧
    (Performs s k (.vbcast w) f → LanesLand s k (.vbcast w) f (vTy w) fun _ => (opOf k (.vbcast w) f).src 0) ∧
    (Performs s k (.vsel w) f → LanesLand s k (.vsel w) f (vTy w) fun j =>
      if ((opOf k (.vsel w) f).src 2).testBit (if (vTy w).width = 8 then j / 2 else j) then vEl k (.vsel w) f (vTy w) 0 j
      else vEl k (.vsel w) f (vTy w) 1 j) ∧
    (Performs s k (.vperm w) f → LanesLand s k (.vperm w) f (vTy w) fun j =>
      vEl k (.vperm w) f (vTy w) 0 (vEl k (.vperm w) f (vTy w) 1 j % (vTy w).count)) ∧
    (Performs s k (.vrot w) f → LanesLand s k (.vrot w) f (vTy w) fun j =>
      vEl k (.vrot w) f (vTy w) 0 ((j + (opOf k (.vrot w) f).src 1) % (vTy w).count)) ∧
    (Performs s k (.vins w) f → LanesLand s k (.vins w) f (vTy w) fun j =>
      if j = (opOf k (.vins w) f).src 1 % (vTy w).count then (opOf k (.vins w) f).src 0
      else elem (vTy w).width (tget 0 k.before.v f.dst) j) ∧
    (Performs s k (.viota w) f → LanesLand s k (.viota w) f (vTy w) fun j => (opOf k (.viota w) f).src 0 + j) ∧
    (Performs s k (.vextr w) f → ResultLands s k (.vextr w) f .s (match vTy w with
      | .int sg n => wrapN (extI sg n (vEl k (.vextr w) f (vTy w) 0 ((opOf k (.vextr w) f).src 1 % (vTy w).count))) 64
      | _ => vEl k (.vextr w) f (vTy w) 0 ((opOf k (.vextr w) f).src 1 % (vTy w).count)))

/-- `conv` of Table 11.5: into a floating type, `rne` of the decoded source, the integer or the plane value (R88, R90, R92); into an
integer type or an 8-plane code, the integer or plane value, or the integer nearest to a floating one, a tie going to the even one, an
infinity beyond every bound and a NaN 0 (R89), clamped to the range of the destination. -/
def Sys2Proof.Safety.ConvRounds : Prop :=
  (∀ (g h : Fmt) (sg : Bool) (w n x : Nat), conv (.flt g) (.flt h) x = rne g (decodeF h x) ∧
    conv (.flt g) (.int sg w) x = rne g (Ext.ofDyadic (extI sg w x) 0) ∧
    conv (.flt g) (.plane n sg) x = rne g (Ext.ofDyadic (planeValue (extI sg 8 x) n) 0)) ∧
  (∀ (td : Ty) (w : Nat) (lo hi : Int),
    (∃ sg, td = .int sg w ∧ lo = (if sg then -((2 ^ (w - 1) : Nat) : Int) else 0) ∧
      hi = (if sg then ((2 ^ (w - 1) : Nat) : Int) - 1 else ((2 ^ w : Nat) : Int) - 1)) ∨
    (∃ n sg, td = .plane n sg ∧ w = 8 ∧ lo = (if sg then -128 else 0) ∧ hi = if sg then 127 else 255) →
    let out := fun i : Int => wrapN (max lo (min hi i)) w
    ∀ (x : Nat), w ≤ 64 → 0 < w → (∀ sg n, conv td (.int sg n) x = out (extI sg n x)) ∧
      (∀ sg n, conv td (.plane n sg) x = out (planeValue (extI sg 8 x) n)) ∧
      ∀ h, (decodeF h x = .nan → conv td (.flt h) x = 0) ∧ (∀ b, decodeF h x = .zero b → conv td (.flt h) x = 0) ∧
        (decodeF h x = .inf true → conv td (.flt h) x = out lo) ∧ (decodeF h x = .inf false → conv td (.flt h) x = out hi) ∧
        ∀ m e, decodeF h x = .fin m e → ∃ i, Nearest ((m : ℝ) * 2 ^ e) i ∧ conv td (.flt h) x = out i)

/-- VCVT and XCVT complete: a narrowing conversion writes part h of the destination and leaves the other elements, a widening one
reads part h of the source; each active element is converted by Table 11.5 (R88 to R90, R92, R216, R268), whose roundings are stated. -/
def Obligations.Conversions : Prop :=
  ConvRounds ∧
  ∀ (s : State) (k : Cur) (f : Form),
    (∀ w : VW, Performs s k (.vcvt w) f → ∃ v : VReg, ResultLands s k (.vcvt w) f .v v.toNat ∧ ∀ j, j < (vTy w).count →
      elem (vTy w).width v j =
        let ts := tyOr w.type2
        let h := w.src3.toNat
        let a := (opOf k (.vcvt w) f).vsrc 0
        let at_ := if (vTy w).width ≤ ts.width then j - h * ts.count else h * (vTy w).count + j
        if elemActive (opOf k (.vcvt w) f).g f.sense (vTy w).width j = true ∧
            ((vTy w).width ≤ ts.width → h * ts.count ≤ j ∧ j < h * ts.count + ts.count) then
          conv (vTy w) ts (elem ts.width a at_) % 2 ^ (vTy w).width
        else elem (vTy w).width (tget 0 k.before.v f.dst) j) ∧
    (∀ w : XW, Performs s k (.xcvt w) f → ∃ v : VReg, ResultLands s k (.xcvt w) f .v v.toNat ∧ ∀ j, j < (tyOr w.type).count →
      elem (tyOr w.type).width v j =
        let ts := tyOr w.type2
        let h := w.src2.toNat
        let a := (opOf k (.xcvt w) f).vsrc 0
        let at_ := if (tyOr w.type).width ≤ ts.width then j - h * ts.count else h * (tyOr w.type).count + j
        if (tyOr w.type).width ≤ ts.width → h * ts.count ≤ j ∧ j < h * ts.count + ts.count then
          conv (tyOr w.type) ts (elem ts.width a at_) % 2 ^ (tyOr w.type).width
        else elem (tyOr w.type).width (tget 0 k.before.v f.dst) j)

/-- Node `i` of level `n` of a fixed binary tree over leaves `y` (R102): at each level, position i combines 2i and 2i + 1. -/
def Sys2Proof.Safety.treeAt (node : Nat → Nat → Nat) (y : Nat → Nat) : Nat → Nat → Nat
  | 0, i => y i
  | n + 1, i => node (treeAt node y n (2 * i)) (treeAt node y n (2 * i + 1))

/-- VRSUM, VRMAX and VRMIN write one value in every element of the destination whatever the guard (R217). Of a floating source
type it is the root of the fixed tree of R102 over the 2^n elements, each converted to F32, an inactive one standing for −0, −∞
or +∞, whose nodes are rounded F32 sums, maxima or minima; of an integer source type it is the exact sum, maximum or minimum,
an inactive element standing for 0, the smallest or the largest value, wrapped to the width of the destination. -/
def Obligations.Reductions : Prop :=
  ∀ (s : State) (k : Cur) (w : VW) (f : Form),
    let ts := tyOr w.type2
    let x := fun (i : Instr) (j : Nat) => elem ts.width ((opOf k i f).vsrc 0) j
    let on := fun (i : Instr) (j : Nat) => elemActive (opOf k i f).g f.sense ts.width j
    let lands := fun (i : Instr) (a : Nat) => ∃ v : VReg, ResultLands s k i f .v v.toNat ∧
      ∀ j, j < (vTy w).count → elem (vTy w).width v j = a % 2 ^ (vTy w).width
    (∀ (g : Fmt) (n : Nat), ts = .flt g → g = .f32 ∨ g = .f16 ∨ g = .bf16 → ts.count = 2 ^ n →
      let y := fun (i : Instr) (ident : Ext) (j : Nat) => rne .f32 (if on i j then decodeF g (x i j) else ident)
      (Performs s k (.vrsum w) f → lands (.vrsum w)
        (treeAt (fun a b => rne .f32 (exactSum [decodeF .f32 a, decodeF .f32 b])) (y (.vrsum w) (.zero true)) n 0)) ∧
      (Performs s k (.vrmax w) f → lands (.vrmax w) (treeAt (maxMinF .f32 true) (y (.vrmax w) (.inf true)) n 0)) ∧
      (Performs s k (.vrmin w) f → lands (.vrmin w) (treeAt (maxMinF .f32 false) (y (.vrmin w) (.inf false)) n 0))) ∧
    (∀ (sg : Bool) (n : Nat), ts = .int sg n →
      let y := fun (i : Instr) (ident : Int) => (List.range ts.count).map fun j => if on i j then extI sg n (x i j) else ident
      (Performs s k (.vrsum w) f → lands (.vrsum w) (wrapN (y (.vrsum w) 0).sum (vTy w).width)) ∧
      (Performs s k (.vrmax w) f → lands (.vrmax w) (wrapN ((y (.vrmax w) (loI sg n)).foldl max (loI sg n)) (vTy w).width)) ∧
      (Performs s k (.vrmin w) f → lands (.vrmin w) (wrapN ((y (.vrmin w) (hiI sg n)).foldl min (hiI sg n)) (vTy w).width)))

/-- VCMP writes, in the mapping of Table 4.2, the comparison of the elements its active bits govern: for 8-bit types the AND over
the pair a bit governs; bits that govern no element become 0, and bits that govern only inactive ones keep their value
(R213). PAND, POR, PXOR, PNOT and PMOV act bit by bit under the guard, an inactive bit keeping its value; PCNT counts the
active bits that are 1, and PFIRST gives the lowest of them or 512 (R215). -/
def Obligations.PredicateAndCompare : Prop :=
  (∀ (s : State) (k : Cur) (w : VW) (f : Form), Performs s k (.vcmp w) f →
    ∃ p : PReg, ResultLands s k (.vcmp w) f .p p.toNat ∧ ∀ b, b < 512 → p.getLsbD b =
      (let test := fun j => condElem (vTy w) w.src3.toNat (vEl k (.vcmp w) f (vTy w) 0 j) (vEl k (.vcmp w) f (vTy w) 1 j)
       let act := fun j => elemActive (opOf k (.vcmp w) f).g f.sense (vTy w).width j
       if (vTy w).width = 8 then (if act (2 * b) then test (2 * b) && test (2 * b + 1) else (k.before.pred f.dst).getLsbD b)
       else if (vTy w).count ≤ b then false
       else if act b then test b else (k.before.pred f.dst).getLsbD b)) ∧
  (∀ (s : State) (k : Cur) (w : VW) (f : Form),
    let bitsOf := fun (i : Instr) (g : Bool → Bool → Bool) => ∃ p : PReg, ResultLands s k i f .p p.toNat ∧ ∀ j, j < 512 →
      p.getLsbD j = if bitActive (opOf k i f).g f.sense j then g (((opOf k i f).src 0).testBit j) (((opOf k i f).src 1).testBit j)
        else (k.before.pred f.dst).getLsbD j
    let ones := fun (i : Instr) => (List.range 512).filter fun j => bitActive (opOf k i f).g f.sense j && ((opOf k i f).src 0).testBit j
    (Performs s k (.pand w) f → bitsOf (.pand w) (fun a b => a && b)) ∧ (Performs s k (.por w) f → bitsOf (.por w) (fun a b => a || b)) ∧
    (Performs s k (.pxor w) f → bitsOf (.pxor w) (fun a b => Bool.xor a b)) ∧ (Performs s k (.pnot w) f → bitsOf (.pnot w) (fun a _ => !a)) ∧
    (Performs s k (.pmov w) f → bitsOf (.pmov w) (fun a _ => a)) ∧
    (Performs s k (.pcnt w) f → ResultLands s k (.pcnt w) f .s (ones (.pcnt w)).length) ∧
    (Performs s k (.pfirst w) f → ResultLands s k (.pfirst w) f .s ((ones (.pfirst w)).headD 512)))

/-! Slots L and W. -/

/-- LD, VLD, PLD, TLD, VLDG, TLDG and SHSEAL enter the load queue with the address they name (R220 to R224, R246, R256), their
results in flight for the form's latency; a gather advances its set, and 12 cycles more when it draws through an index (R73).
At issue nothing is read but the index tile that a gather draws its addresses through (log 17), and no byte of memory changes. -/
def Obligations.LoadsQueue : Prop :=
  ∀ (s : State) (k : Cur) (f : Form),
    (∀ w : LW, Performs s k (.ld w) f → LoadQueues s k (.ld w) f .s f.lat 0 [(opOf k (.ld w) f).addr]) ∧
    (∀ w : LW, Performs s k (.vld w) f → LoadQueues s k (.vld w) f .v f.lat 0 [(opOf k (.vld w) f).addr]) ∧
    (∀ w : LW, Performs s k (.pld w) f → LoadQueues s k (.pld w) f .p f.lat 0 [(opOf k (.pld w) f).addr]) ∧
    (∀ w : LW, Performs s k (.tld w) f →
      let a := s.tileAccess (opOf k (.tld w) f) w.base.toNat w.off8
      LoadQueues s k (.tld w) f .v f.lat a.1 [a.2]) ∧
    (∀ w : LW, Performs s k (.vldg w) f → GatherQueues s k (.vldg w) f) ∧
    (∀ w : LW, Performs s k (.tldg w) f → GatherQueues s k (.tldg w) f) ∧
    (∀ w : XW, Performs s k (.shseal w) f → LoadQueues s k (.shseal w) f .s f.lat 0 [(opOf k (.shseal w) f).src 0])

/-- ST, STNT, VST, PST, TST, VSTS and TSTS enter the store queue with the address they name and the value they read (R220 to
R225, R246, R247), a scatter with those its set draws, an index tile read at issue (log 17): at issue NO BYTE of memory or tile
changes, whatever the address. -/
def Obligations.StoresQueue : Prop :=
  ∀ (s : State) (k : Cur) (f : Form) (w : WW),
    (Performs s k (.st w) f → StoreQueues s k (.st w) f 0 [(opOf k (.st w) f).addr]) ∧
    (Performs s k (.stnt w) f → StoreQueues s k (.stnt w) f 0 [(opOf k (.stnt w) f).addr]) ∧
    (Performs s k (.vst w) f → StoreQueues s k (.vst w) f 0 [(opOf k (.vst w) f).addr]) ∧
    (Performs s k (.pst w) f → StoreQueues s k (.pst w) f 0 [(opOf k (.pst w) f).addr]) ∧
    (Performs s k (.tst w) f →
      let a := s.tileAccess (opOf k (.tst w) f) w.base.toNat w.off8
      StoreQueues s k (.tst w) f a.1 [a.2]) ∧
    (Performs s k (.vsts w) f → ScatterQueues s k (.vsts w) f) ∧ (Performs s k (.tsts w) f → ScatterQueues s k (.tsts w) f)

/-- The sequentially consistent forms act in the cycle of their position (R153, R154): LDSC enters the load queue as LD does and
takes its step at once; STSC enters the store queue and moves from point to point to `pkg` at once. In a context with nothing
before it in its queues, and an access that nothing stands in the way of, LDSC leaves its queue with the bytes at its address,
read in its type and extended, in flight for its destination; STSC leaves its queue with the bytes of its value at its address
on, every other byte of memory as it was. -/
def Obligations.SlotWheelForms : Prop :=
  (∀ (s : State) (k : Cur) (f : Form),
    (∀ w : LW, Performs s k (.ldsc w) f → ∃ t e, exec (.ldsc w) s = .next (t.loadStep k.ctx) ∧
      QueuedLoad s k f .s f.lat (fun x => x) t e ∧ EntryOf e s k (.ldsc w) f 0 [(opOf k (.ldsc w) f).addr] ∧ e.wait = 0 ∧
      e.unitList true = [(0, (opOf k (.ldsc w) f).addr, (accTy (.ldsc w)).bytes)]) ∧
    (∀ w : WW, Performs s k (.stsc w) f → ∃ t e, exec (.stsc w) s = .next (t.scPerform k.ctx s.serial 5) ∧
      QueuedStore s k f (fun x => x) t e ∧ EntryOf e s k (.stsc w) f 0 [(opOf k (.stsc w) f).addr] ∧
      e.data = (opOf k (.stsc w) f).src 2 ∧ e.wait = 0 ∧
      e.unitList false = [(0, (opOf k (.stsc w) f).addr, (accTy (.stsc w)).bytes)] ∧
      ∀ u, e.storeData u = (toBytes u.2.2 e.data, 0xFF))) ∧
  (∀ (s : State) (k : Cur) (f : Form) (w : LW) (sg : Bool) (n pa : Nat), Performs s k (.ldsc w) f → f.dst ≠ 0 →
    f.kins.filterMap k.before.tokRef = [] → (s.ctx k.ctx).loadQ = [] → (s.ctx k.ctx).storeQ = [] → s.calls = [] →
    (∀ l ∈ (s.ctx k.ctx).inflight, l.src ≠ s.serial) → (s.core (coreOf k.ctx)).position w.index.toNat = some (s.cycle % 512) →
    tyOr w.type = .int sg (8 * n) → n = 1 ∨ n = 2 ∨ n = 4 ∨ n = 8 →
    Straight s k.ctx .read k.before.level (opOf k (.ldsc w) f).addr n pa → ∃ t, exec (.ldsc w) s = .next t ∧
      (t.ctx k.ctx).loadQ = [] ∧
      (t.ctx k.ctx).inflight = (s.ctx k.ctx).inflight ++ [⟨.s, f.dst, s.now k.ctx + f.lat,
        some (wrapN (extI sg (8 * n) (ofBytes ((List.range n).map fun i => s.rawByte (pa + i)))) 64), s.serial, f.slot⟩] ∧
      (∀ cls m, (t.ctx k.ctx).reg cls m = (s.ctx k.ctx).reg cls m) ∧ (∀ a, t.rawByte a = s.rawByte a) ∧
      ∀ d, d ≠ k.ctx → t.ctx d = s.ctx d) ∧
  (∀ (s : State) (k : Cur) (f : Form) (w : WW) (sg : Bool) (n pa : Nat), Performs s k (.stsc w) f →
    f.kins.filterMap k.before.tokRef = [] → (s.ctx k.ctx).loadQ = [] → (s.ctx k.ctx).storeQ = [] → (s.ctx k.ctx).snap = none →
    s.calls = [] → (s.core (coreOf k.ctx)).position w.index.toNat = some (s.cycle % 512) →
    tyOr w.type = .int sg (8 * n) → n = 1 ∨ n = 2 ∨ n = 4 ∨ n = 8 → s.guardOf pa = none → s.pkg.hostHas = [] →
    Straight s k.ctx .write k.before.level (opOf k (.stsc w) f).addr n pa →
    (∀ i, i < n → (s.memKey (pa + i)).isSome = true) → ∃ t, exec (.stsc w) s = .next t ∧ (t.ctx k.ctx).storeQ = [] ∧
      (∀ i, i < n → t.rawByte (pa + i) = BitVec.ofNat 8 ((opOf k (.stsc w) f).src 2 / 256 ^ i)) ∧
      (∀ a, (∀ i, i < n → s.memKey a ≠ s.memKey (pa + i)) → t.rawByte a = s.rawByte a) ∧
      (∀ cls m, (t.ctx k.ctx).reg cls m = (s.ctx k.ctx).reg cls m) ∧ ∀ d, d ≠ k.ctx → t.ctx d = s.ctx d)

/-- Memory: a byte written where memory is reads back, every other byte of mapped memory stays, and the form is kept. A store
reaches a tile: its bytes stand from its offset on, every other byte of the tile is as it was, and nothing of its shape
changes. -/
def Obligations.StorageReadAfterWrite : Prop :=
  (∀ (s : State) (pa : Nat) (b : Byte),
    ((s.memKey pa).isSome → (s.setRawByte pa b).rawByte pa = b) ∧
    (∀ a, s.memKey a ≠ s.memKey pa → (s.setRawByte pa b).rawByte a = s.rawByte a) ∧ (MemWf s → MemWf (s.setRawByte pa b))) ∧
  (∀ (t : Tile) (off : Nat) (d : List Byte),
    (∀ i, i < d.length → tget 0 (t.write off d).bytes (off + i) = d.getD i 0) ∧
    (∀ a, a < off ∨ off + d.length ≤ a → tget 0 (t.write off d).bytes a = tget 0 t.bytes a) ∧
    (t.write off d).pitch = t.pitch ∧ (t.write off d).rows = t.rows ∧ (t.write off d).cols = t.cols ∧ (t.write off d).id = t.id)

/-- MARK enters both queues under one serial number, its produced token pending (R152, R249); PFH and PFHX ask for lines and
touch no register or memory (R248); a hint of slot L does nothing (R178). -/
def Obligations.MarkersAndHints : Prop :=
  ∀ (s : State) (k : Cur) (f : Form),
    (∀ w : WW, Performs s k (.mark w) f → ∃ t e, exec (.mark w) s = .next t ∧ EntryOf e s k (.mark w) f 0 [] ∧
      t = { s with ctxs := t.ctxs, cur := some (acted k), serial := s.serial + 1 } ∧ (∀ d, d ≠ k.ctx → t.ctx d = s.ctx d) ∧
      t.ctx k.ctx = { (latched s k f).produce (tokNum f.kout) s.serial with
        loadQ := (s.ctx k.ctx).loadQ ++ [e], storeQ := (s.ctx k.ctx).storeQ ++ [e] }) ∧
    (∀ w : LW, Performs s k (.pfh w) f → HintsAsk s k (.pfh w) f [(opOf k (.pfh w) f).addr]) ∧
    (∀ w : LW, Performs s k (.pfhx w) f → HintsAsk s k (.pfhx w) f
      ((List.range ((opOf k (.pfhx w) f).src 1 % 256)).map fun i => (opOf k (.pfhx w) f).src 0 / 128 * 128 + 128 * i)) ∧
    (∀ op rest, Performs s k (.lSlotHint op rest) f → CtxBecomes s k (.lSlotHint op rest) f fun x => x)

/-! Slot M. -/

/-- ACCGET, ACCPUT, ACCCLR, ACCMOV, LATGET and LATPUT change their own tile or latch alone (R228, R229): a tile granted or
cleared is all zero and the context's; a grant of one it holds already changes nothing; a release leaves it free; a move
copies values and postmark. ACCRD reads four rows or the postmark (R230). No memory changes. LATLD enters the load queue with
its latch as destination, and ACCST the store queue with the tile's values and postmark as they stand, its tile a source for
16 cycles (R232 to R236). At issue no byte of memory, tile or latch changes. -/
def Obligations.AccumulatorAndLatchForms : Prop :=
  (∀ (s : State) (k : Cur) (f : Form) (w : MW), s.pkg.armed = none →
    let c := k.ctx
    let n := w.tgt.toNat
    let acc := fun (a : AccTile) (x : Core) => { x with accs := tset {} x.accs n a }
    let lat := fun (a : LatchT) (x : Core) => { x with lats := tset {} x.lats n a }
    (Performs s k (.accget w) f → if s.holdsAcc c n then CtxBecomes s k (.accget w) f (fun x => x)
      else GrantForm s k (.accget w) f .a n (acc { holder := some c }) (s.bumpGen (genAcc (coreOf c) n))) ∧
    (Performs s k (.accput w) f → GrantForm s k (.accput w) f .a n (acc {}) (s.freeGen (genAcc (coreOf c) n))) ∧
    (Performs s k (.accclr w) f → GrantForm s k (.accclr w) f .a n (acc { holder := some c }) s) ∧
    (Performs s k (.accmov w) f → GrantForm s k (.accmov w) f .a n
      (acc { s.acc (coreOf c) w.src1.toNat with holder := some c }) s) ∧
    (Performs s k (.latget w) f → if s.holdsLat c n then CtxBecomes s k (.latget w) f (fun x => x)
      else GrantForm s k (.latget w) f .l n (lat { holder := some c }) (s.bumpGen (genLat (coreOf c) n))) ∧
    (Performs s k (.latput w) f → GrantForm s k (.latput w) f .l n (lat {}) (s.freeGen (genLat (coreOf c) n))) ∧
    (Performs s k (.accrd w) f → ∃ v : VReg, ResultLands s k (.accrd w) f .v v.toNat ∧ ∀ j, j < 256 → elem 32 v j =
      if bit ((opOf k (.accrd w) f).src 1) 4 then
        (if j = 0 then (s.acc (coreOf c) w.src1.toNat).pm.toNat % 2 ^ 32
         else if j = 1 then (s.acc (coreOf c) w.src1.toNat).pm.toNat / 2 ^ 32 else 0)
      else (tget 0 (s.acc (coreOf c) w.src1.toNat).vals (64 * (4 * ((opOf k (.accrd w) f).src 1 % 16)) + j)).toNat)) ∧
  (∀ (s : State) (k : Cur) (f : Form) (w : MW),
    (Performs s k (.latld w) f → ∃ t e, exec (.latld w) s = .next t ∧ EntryOf e s k (.latld w) f 0 [] ∧ e.data = w.tgt.toNat ∧
      OnlyQueue s t k.ctx ∧ t.cur = some (acted k) ∧
      t.ctx k.ctx = { latched s k f with
        loadQ := (s.ctx k.ctx).loadQ ++ [e],
        inflight := (s.ctx k.ctx).inflight ++ [⟨.l, w.tgt.toNat, s.now k.ctx + f.lat, none, s.serial, f.slot⟩] }) ∧
    (s.pkg.armed = none → Performs s k (.accst w) f → ∃ t e m, exec (.accst w) s = .next t ∧ EntryOf e s k (.accst w) f 0 [] ∧
      e.mat = some m ∧ m.vals = (s.acc (coreOf k.ctx) w.tgt.toNat).vals ∧ m.pm = (s.acc (coreOf k.ctx) w.tgt.toNat).pm ∧
      QueuedStore s k f (fun x =>
        { x with inflight := x.inflight ++ [⟨.a, w.tgt.toNat, s.now k.ctx + f.lat, some 0, s.serial, f.slot⟩] }) t e))

/-- Field [l + n − 1 : l] of a word. -/
def Sys2Proof.Safety.fieldAt (w : Word) (l n : Nat) : Nat := w.toNat / 2 ^ l % 2 ^ n

/-- MCALL issues a call with everything it captures (R238): the descriptors, the address-generator sets they name, the matrix
parameters, the tiles, level, owner and contract, the latency of its routine, FIRST and LAST of entry n of its core's routine
table, CAP and MODE, the K-tiles of its descriptor, and the tile's values and postmark, its own tile in flight; its routine
begins at FIRST. At issue no accumulator value, register or byte of memory changes. A K-tile window opens at its cycle at the
owner's rung, which the postmark records, and the routine goes on (R107, R108, R122); a call completes at c0 + Lc + F, its
values and postmark reaching the tile together while every other tile and every byte of memory stay (R122, R242). What the
postmark records: at a first call owner, ladder, ceiling and floor, later the widest bounds; at a window the rung and the count;
at completion the marks of breach, exhaustion and heat (R121, R122). -/
def Obligations.MatrixCalls : Prop :=
  (∀ (s : State) (k : Cur) (f : Form) (w : MW), s.pkg.armed = none → Performs s k (.mcall w) f →
    let a := (opOf k (.mcall w) f).src 0
    let b := (opOf k (.mcall w) f).src 1
    let o := s.owner k.before.owner
    let e := (tget 0 (s.core (coreOf k.ctx)).routs w.rout.toNat).toNat
    let set := fun (n : Nat) => tget 0 k.before.ag n
    ∃ t c, exec (.mcall w) s = .next t ∧
      t = { s with ctxs := t.ctxs, cur := some (acted k), serial := s.serial + 1, calls := s.calls ++ [c], micro := some s.serial } ∧
      (∀ d, d ≠ k.ctx → t.ctx d = s.ctx d) ∧
      t.ctx k.ctx = { latched s k f with inflight := (s.ctx k.ctx).inflight ++
        [⟨.a, w.tgt.toNat, s.now k.ctx + tget 0 o.lat w.rout.toNat, none, s.serial, f.slot⟩] } ∧
      c = { id := s.serial, core := coreOf k.ctx, ctx := k.ctx, pc := k.h, opa := BitVec.ofNat 64 a, opb := BitVec.ofNat 64 b,
            acc := w.tgt.toNat, owner := k.before.owner, ladder := fieldAt o.hdr 11 2, da := BitVec.ofNat 64 a,
            db := BitVec.ofNat 64 b, mp := (List.range 8).map fun i => tget 0 k.before.m i,
            agA := set (a % 16), agB := set (b % 16), sgA := set (a / 2 ^ 28 % 16), sgB := set (b / 2 ^ 28 % 16),
            tiles := k.before.tiles, level := k.before.level, mode := w.mode.toNat, cap := w.cap.toNat,
            lat := tget 0 o.lat w.rout.toNat, n := a / 2 ^ 59 % 32 + 1, depth := 4 * (a / 2 ^ 48 % 1024), c0 := s.now k.ctx,
            frz := 0, frzAt := 0, first := e % 1024, last := e / 2 ^ 16 % 1024, upc := e % 1024, words := 0,
            cnt := [a / 2 ^ 59 % 32 + 1, 0, 0, 0], kt := 0, kA := 0, kB := 0, trn := false, scA := a.testBit 32, scB := b.testBit 32,
            srcA := none, srcB := none, isOpen := false, waiting := false, ended := false, rung := 0,
            vals := (s.acc (coreOf k.ctx) w.tgt.toNat).vals,
            pm := pmIssue (s.acc (coreOf k.ctx) w.tgt.toNat).pm k.before.owner o.hdr, jobs := [], stopped := none,
            uses := [(0, coreOf k.ctx), (4, colOf k.ctx)], late := false, exhaust := false,
            therm := decide ((s.col (colOf k.ctx)).q < 8), latches := c.latches }) ∧
  (∀ (s : State) (id : Nat) (k : Call), s.call id = some k → k.jobs = [] →
    (k.waiting = true → k.c0 + (k.kt - 1) * (k.lat / k.n) + k.frz ≤ s.now k.ctx → ∃ t, exec (.kTileWindowOpen id) s = .next t ∧
      t = { s with micro := some id, calls := t.calls } ∧ (∀ d, d ≠ id → t.call d = s.call d) ∧
      t.call id = some { k with rung := s.rungFor k.owner, pm := pmWindow k.pm (s.rungFor k.owner), srcA := none, srcB := none,
                                isOpen := true, waiting := false, frzAt := k.frz }) ∧
    (k.ended = true → k.c0 + k.lat + k.frz ≤ s.now k.ctx → ∃ t, exec (.matrixCallComplete id) s = .next t ∧
      t = { s with calls := s.calls.filter (fun c => !(c.id = id)), micro := if s.micro = some id then none else s.micro,
                   users := t.users, cores := t.cores, ctxs := t.ctxs } ∧
      t.acc k.core k.acc = { s.acc k.core k.acc with vals := k.vals, pm := (t.acc k.core k.acc).pm } ∧
      (∀ b, b < 64 → (t.acc k.core k.acc).pm.getLsbD b =
        (k.pm.getLsbD b || (b = 56 && k.late) || (b = 57 && k.exhaust) || (b = 58 && k.therm))) ∧
      (∀ n a, (n, a) ≠ (k.core, k.acc) → t.acc n a = s.acc n a) ∧ (∀ n l, t.latchT n l = s.latchT n l) ∧
      (∀ u ∈ t.users, u ∈ s.users ∨ u.2.2 = k.owner) ∧ (∀ u ∈ k.uses, (u.1, u.2, k.owner) ∈ t.users) ∧
      (∀ d, d ≠ k.ctx → t.ctx d = s.ctx d) ∧
      t.ctx k.ctx = { s.ctx k.ctx with inflight := (s.ctx k.ctx).inflight.filter fun l => !(l.cls = .a && l.src = id) })) ∧
  (∀ (pm h : Word) (o : Nat),
    let p := pmIssue pm o h
    p.toNat / 2 ^ 14 = pm.toNat / 2 ^ 14 ∧
    (fieldAt pm 48 5 = 0 → fieldAt p 0 8 = o % 256 ∧ fieldAt p 8 2 = fieldAt h 11 2 ∧ fieldAt p 10 2 = fieldAt h 9 2 ∧
      fieldAt p 12 2 = fieldAt h 7 2) ∧
    (fieldAt pm 48 5 ≠ 0 → fieldAt p 0 8 = fieldAt pm 0 8 ∧ fieldAt p 8 2 = fieldAt pm 8 2 ∧
      fieldAt p 10 2 = min (fieldAt pm 10 2) (fieldAt h 9 2) ∧ fieldAt p 12 2 = max (fieldAt pm 12 2) (fieldAt h 7 2))) ∧
  (∀ (pm : Word) (r : Nat), r < 4 →
    let p := pmWindow pm r
    let n := fieldAt pm 48 5
    fieldAt p 48 5 = min (n + 1) 31 ∧
    (n < 16 → fieldAt p (16 + 2 * n) 2 = r ∧ ∀ b, b < 48 ∨ 53 ≤ b → b ≠ 16 + 2 * n → b ≠ 17 + 2 * n → p.getLsbD b = pm.getLsbD b) ∧
    (16 ≤ n → p.getLsbD 53 = true ∧ fieldAt p 54 2 = (if pm.getLsbD 53 = true then max (fieldAt pm 54 2) r else r) ∧
      ∀ b, b < 48 ∨ 56 ≤ b → p.getLsbD b = pm.getLsbD b))

/-- The micro-ops that do not begin K-tiles or groups, each in the cycle of its word, with what they change in their call (Table
12.6, R240): the word is counted and the next one follows, but for a taken jump; sources are chosen once a K-tile; indices
stay at or above zero; a counter at zero stays there. KTILE begins the next K-tile: its window opens at once when its cycle
has come and no group is left, and the routine waits for it otherwise; GROUPS asks for the rows of the K-tile under the
sources chosen, and moves both indices on by its depth (R240, R241), also a second one of a K-tile (log 30). -/
def Obligations.MicroOps : Prop :=
  (∀ (s : State) (id : Nat) (k : Call) (w : MopW), Runs s id k →
    let keep := fun (i : Instr) (g : Call → Call) => WordRuns s id k i g (some id)
    let part := (k.mp.getD w.parm.toNat 0).toNat / 2 ^ (16 * (w.imm16.toNat % 4)) % 2 ^ 16
    (k.srcA = none → keep (.fetcha w) (fun c => { c with srcA := some .desc })) ∧
    (k.srcB = none → keep (.fetchb w) (fun c => { c with srcB := some .desc })) ∧
    (k.srcA = none → keep (.lata w) (fun c => { c with srcA := some (.latch (w.imm16.toNat % 4)) })) ∧
    (k.srcB = none → keep (.latb w) (fun c => { c with srcB := some (.latch (w.imm16.toNat % 4)) })) ∧
    (k.srcA = none → (k.ladder = 2 → w.imm16.toNat < 256) → keep (.filla w) (fun c => { c with srcA := some (.fill w.imm16.toNat) })) ∧
    (k.srcB = none → (k.ladder = 2 → w.imm16.toNat < 256) → keep (.fillb w) (fun c => { c with srcB := some (.fill w.imm16.toNat) })) ∧
    (0 ≤ (k.kA : Int) + w.imm16.toInt → keep (.stepa w) (fun c => { c with kA := ((k.kA : Int) + w.imm16.toInt).toNat })) ∧
    (0 ≤ (k.kB : Int) + w.imm16.toInt → keep (.stepb w) (fun c => { c with kB := ((k.kB : Int) + w.imm16.toInt).toNat })) ∧
    keep (.scalea w) (fun c => { c with scA := w.imm16.getLsbD 0 && dScen k.da.toNat }) ∧
    keep (.scaleb w) (fun c => { c with scB := w.imm16.getLsbD 0 && dScen k.db.toNat }) ∧
    keep (.accsel w) (fun c => { c with trn := w.imm16.getLsbD 0 }) ∧
    keep (.cntset w) (fun c => { c with cnt := c.cnt.set w.ctr.toNat w.imm16.toNat }) ∧
    keep (.cntdec w) (fun c => { c with cnt := c.cnt.set w.ctr.toNat (k.cnt.getD w.ctr.toNat 0 - 1) }) ∧
    keep (.jnz w) (fun c => if k.cnt.getD w.ctr.toNat 0 = 0 then c else { c with upc := w.target.toNat }) ∧
    keep (.jmp w) (fun c => { c with upc := w.target.toNat }) ∧
    keep (.parmrd w) (fun c => { c with cnt := c.cnt.set w.ctr.toNat part }) ∧
    keep (.nopm w) (fun c => c) ∧
    (k.kt = k.n → k.isOpen = false → WordRuns s id k (.done w) (fun c => { c with ended := true }) none)) ∧
  (∀ (s : State) (id : Nat) (k : Call) (w : MopW), Runs s id k →
    (w.imm16 = 0 → k.kt < k.n →
      if k.jobs = [] ∧ k.c0 + k.kt * (k.lat / k.n) + k.frz ≤ s.now k.ctx then
        WordRuns s id k (.ktile w) (fun c => { c with
          kt := k.kt + 1, rung := s.rungFor k.owner, pm := pmWindow k.pm (s.rungFor k.owner), srcA := none, srcB := none, isOpen := true,
          waiting := false, frzAt := k.frz }) (some id)
      else WordRuns s id k (.ktile w) (fun c => { c with kt := k.kt + 1, waiting := true }) none) ∧
    (∀ x y, k.srcA = some x → k.srcB = some y → k.kt ≠ 0 →
      k.latchOver ⟨false, k.da.toNat, k.agA, k.sgA, k.kA, x, k.scA⟩ = false →
      k.latchOver ⟨true, k.db.toNat, k.agB, k.sgB, k.kB, y, k.scB⟩ = false →
      ∃ t j, exec (.groups w) s = .next t ∧ t = { s with calls := t.calls, fresh := s.fresh + 1 } ∧
        (∀ d, d ≠ id → t.call d = s.call d) ∧
        t.call id = some { k with upc := k.upc + 1, words := k.words + 1, jobs := k.jobs ++ [j], isOpen := false,
                                  kA := k.kA + k.depth, kB := k.kB + k.depth } ∧
        j.kt = k.kt - 1 ∧ j.rung = k.rung ∧ j.kA = k.kA ∧ j.kB = k.kB ∧ j.srcA = x ∧ j.srcB = y ∧ j.trn = k.trn ∧
        j.scA = k.scA ∧ j.scB = k.scB ∧ j.rowsA = [] ∧ j.rowsB = [] ∧ j.part = [] ∧ j.scales = [] ∧ j.start = s.now k.ctx ∧
        s.now k.ctx ≤ j.wait ∧ j.filled = false))

/-! Slot E. -/

/-- Every engine command issues (R250): with the values its fields name, waiting for the tokens it consumes, the token it
produces pending, and nothing of its effect done; no byte of memory or tile changes at issue. An engine command whose work is
done, or a suppressed one that waits for nothing, completes: it leaves the commands and its token completes with its failure,
if it has one (R155, R156, R342). -/
def Obligations.EngineCommands : Prop :=
  (∀ (s : State) (k : Cur) (f : Form), s.pkg.armed = none →
    (∀ mk ∈ ([.copyMemToTile, .copyTileToMem, .copyTileToTile, .copyMemToMem, .mcast, .copyh, .talloc, .tfree, .launch, .racq, .rrel,
        .barCore, .barQuad, .barStack, .barPkg, .barPod, .tmmatch, .tmmerge, .tmunmrg, .tmcomp, .tmfree, .tmsize, .smopen, .smpush,
        .smfeed, .smlimit, .smend, .smdrain] : List (EW → Instr)), ∀ w : EW, Performs s k (mk w) f →
      CommandIssues s k (mk w) f false (latched s k f)) ∧
    (∀ mk ∈ ([.acwAdd, .acwMin, .acwMax, .acwfAdd, .acwfMin, .acwfMax] : List (AcwType → EW → Instr)), ∀ (ty : AcwType) (w : EW),
      Performs s k (mk ty w) f → CommandIssues s k (mk ty w) f false (latched s k f)) ∧
    (∀ mk ∈ ([.acwAnd, .acwOr, .acwXor, .acwSwap, .acwCas, .acwfAnd, .acwfOr, .acwfXor, .acwfSwap, .acwfCas] :
        List (AcwWidth → EW → Instr)), ∀ (ty : AcwWidth) (w : EW),
      Performs s k (mk ty w) f → CommandIssues s k (mk ty w) f false (latched s k f))) ∧
  (∀ (s : State) (id : Nat) (e : ECmd), s.cmd id = some e →
    ((e.nop = false ∧ e.acted = true ∧ e.wait ≤ s.cycle) ∨ (e.nop = true ∧ ∀ x ∈ e.kins, s.prodBusy e.ctx x = false)) →
    ∃ t, exec (.engineCommandComplete id) s = .next t ∧ t = { s with ctxs := t.ctxs, cmds := t.cmds } ∧
      t.cmds = s.cmds.filter (fun x => !(x.id = id)) ∧ (∀ d, d ≠ e.ctx → t.ctx d = s.ctx d) ∧
      t.ctx e.ctx = (s.ctx e.ctx).complete e.kout id e.fail)

/-! Slot C: control. -/

/-- Transfers (R188): BR and CALL to H plus the displacement, BRI, CALLI and RET to the low 56 bits of a register read before the
link is written; a call's link H + Z lands after its latency and the depth moves by one modulo 2^16. No memory changes. -/
def Obligations.ControlTransfers : Prop :=
  ∀ (s : State) (k : Cur) (f : Form) (w : CW),
    let call := fun (x : Ctx) => { x with
      inflight := x.inflight ++ newLanding s k f .s f.lat (some (k.h + k.size)) 0, depth := (x.depth + 1) % 2 ^ 16 }
    (Performs s k (.br w) f → Transfers s k (.br w) f (dispTarget k.h w.imm24) true fun x => x) ∧
    (Performs s k (.bri w) f → Transfers s k (.bri w) f ((opOf k (.bri w) f).src 0 % 2 ^ 56) true fun x => x) ∧
    (Performs s k (.call w) f → Transfers s k (.call w) f (dispTarget k.h w.imm24) false call) ∧
    (Performs s k (.calli w) f → Transfers s k (.calli w) f ((opOf k (.calli w) f).src 1 % 2 ^ 56) false call) ∧
    (Performs s k (.ret w) f → Transfers s k (.ret w) f ((opOf k (.ret w) f).src 0 % 2 ^ 56) false fun x =>
      { x with depth := (x.depth + (2 ^ 16 - 1)) % 2 ^ 16 })

/-- The address that a load, store or hint names (R220, R245, R246): base plus index plus the signed offset in units of the
access, on 64 bits; LDSC and STSC have no index. The target of a displacement (R188): H plus 8 times the signed displacement. -/
def Obligations.AddressArithmetic : Prop :=
  ((∀ (base index u : Nat) (off8 : BitVec 8),
    addrOf base index u off8 < 2 ^ 64 ∧
    ((addrOf base index u off8 : Nat) : Int) = ((base : Int) + (index : Int) + (u : Int) * off8.toInt) % ((2 ^ 64 : Nat) : Int)) ∧
  (∀ (k : Cur) (f : Form) (w : LW),
    (opOf k (.ldsc w) f).addr = addrOf ((opOf k (.ldsc w) f).src 0) 0 (tyOr w.type).bytes w.off8 ∧
    (opOf k (.ld w) f).addr = addrOf ((opOf k (.ld w) f).src 0) ((opOf k (.ld w) f).src 1) (tyOr w.type).bytes w.off8 ∧
    (opOf k (.vld w) f).addr = addrOf ((opOf k (.vld w) f).src 0) ((opOf k (.vld w) f).src 1) (tyOr w.type).bytes w.off8 ∧
    (opOf k (.pld w) f).addr = addrOf ((opOf k (.pld w) f).src 0) ((opOf k (.pld w) f).src 1) 64 w.off8 ∧
    (opOf k (.pfh w) f).addr = addrOf ((opOf k (.pfh w) f).src 0) ((opOf k (.pfh w) f).src 1) 128 w.off8) ∧
  (∀ (k : Cur) (f : Form) (w : WW),
    (opOf k (.stsc w) f).addr = addrOf ((opOf k (.stsc w) f).src 0) 0 (tyOr w.type).bytes w.off8 ∧
    (opOf k (.st w) f).addr = addrOf ((opOf k (.st w) f).src 0) ((opOf k (.st w) f).src 1) (tyOr w.type).bytes w.off8 ∧
    (opOf k (.stnt w) f).addr = addrOf ((opOf k (.stnt w) f).src 0) ((opOf k (.stnt w) f).src 1) (tyOr w.type).bytes w.off8 ∧
    (opOf k (.vst w) f).addr = addrOf ((opOf k (.vst w) f).src 0) ((opOf k (.vst w) f).src 1) (tyOr w.type).bytes w.off8 ∧
    (opOf k (.pst w) f).addr = addrOf ((opOf k (.pst w) f).src 0) ((opOf k (.pst w) f).src 1) 64 w.off8)) ∧
  (∀ (h : Nat) (d : BitVec 24), dispTarget h d < 2 ^ 64 ∧
    ((dispTarget h d : Nat) : Int) = ((h : Int) + 8 * d.toInt) % ((2 ^ 64 : Nat) : Int))

/-- LOOP pushes an entry, or transfers to END when its count is zero (R189); EXIT lets no later bundle issue and empties the loop
stack (R190); YIELD blocks for n cycles counted from the next, and ends when they are over or a stop asks (R191); WAIT does
nothing more than wait (R192). -/
def Obligations.LoopsAndWaits : Prop :=
  ∀ (s : State) (k : Cur) (f : Form) (w : CW),
    (Performs s k (.loop w) f → if (opOf k (.loop w) f).src 0 = 0
      then Transfers s k (.loop w) f (dispTarget k.h w.imm24) false (fun x => x)
      else CtxBecomes s k (.loop w) f fun x =>
        { x with loops := ⟨k.h + k.size, dispTarget k.h w.imm24, (opOf k (.loop w) f).src 0, x.depth⟩ :: x.loops }) ∧
    (Performs s k (.exit w) f → CtxBecomes s k (.exit w) f fun x => { x with exiting := true, loops := [] }) ∧
    (Performs s k (.yield w) f → CtxBecomes s k (.yield w) f fun x =>
      if w.imm24 = 0 then x else { x with block := .yield (s.now k.ctx + w.imm24.toNat + 1) }) ∧
    (Performs s k (.wait w) f → CtxBecomes s k (.wait w) f fun x => x) ∧
    (∀ c n, (s.ctx c).block = .yield n → n ≤ s.now c ∨ (s.ctx c).stop.isSome → ∃ t, exec (.yieldExpiry c) s = .next t ∧
      OnlyCtx s t c ∧ t.cur = s.cur ∧
      t.ctx c = { s.ctx c with block := .none, st := if (s.ctx c).st = .blocked then .ready else (s.ctx c).st })

/-- TRAP n acts with its bundle, and the bundle's end, which runs its loop-end step, freezes the context with a fault of class
0x0D and CODE n (R193); TRET returns control, level and what the snapshot buffer holds (R340). An EXIT that the fault held is in
force again, and then its results are replayed from the next cycle that could issue (log 20). -/
def Obligations.TrapAndReturn : Prop :=
  ∀ (s : State) (k : Cur) (f : Form) (w : CW),
    (Performs s k (.trap w) f → ∃ t, exec (.trap w) s = .next t ∧ OnlyCtx s t k.ctx ∧ t.ctx k.ctx = latched s k f ∧
      t.cur = some { acted k with trap := some w.imm24.toNat, trapId := s.serial }) ∧
    (∀ n, s.phase = .issue → s.cur = some k → k.todo = [] → k.trap = some n → (s.ctx k.ctx).st = .ready →
      (s.ctx k.ctx).dying = none → (s.ctx k.ctx).frz.fault = none → ∃ t r, step s = .next t ∧ OnlyCtx s t k.ctx ∧ t.cur = none ∧
        (t.ctx k.ctx).st = .frozen ∧ (t.ctx k.ctx).frz.fault = some (r, s.now k.ctx + 1, false) ∧ r.cls = 0x0D ∧ r.code = n % 2 ^ 16 ∧
        r.pc = BitVec.ofNat 64 k.h ∧ (t.ctx k.ctx).pc = ((s.ctx k.ctx).advance k (s.now k.ctx)).pc) ∧
    (Performs s k (.tret w) f → ∃ t, exec (.tret w) s = .next t ∧ t = { s with ctxs := t.ctxs, cur := t.cur, calls := t.calls } ∧
      t.cur = some { acted k with jump := some (s.ctx k.ctx).tretpc.toNat, branch := false } ∧ (∀ d, d ≠ k.ctx → t.ctx d = s.ctx d) ∧
      (t.ctx k.ctx).level = (s.ctx k.ctx).plevel ∧ (t.ctx k.ctx).intrap = false ∧ (t.ctx k.ctx).heldBit = false ∧
      t.calls = s.calls.map (fun c => if c.ctx = k.ctx then { c with stopped := none } else c) ∧
      (t.ctx k.ctx).exiting = ((s.ctx k.ctx).exiting || (s.ctx k.ctx).exitHeld) ∧
      ((t.ctx k.ctx).exiting = false → ∀ cls n, (t.ctx k.ctx).reg cls n = (s.ctx k.ctx).reg cls n) ∧
      (∀ sn, (s.ctx k.ctx).snap = some sn → (t.ctx k.ctx).snap = none ∧ (t.ctx k.ctx).holds = sn.holds ∧
        (t.ctx k.ctx).loops = sn.loops ∧ (t.ctx k.ctx).depth = sn.depth ∧ (t.ctx k.ctx).ratio = sn.ratio ∧
        (t.ctx k.ctx).loadQ = sn.heldL ++ (s.ctx k.ctx).loadQ ∧ (t.ctx k.ctx).storeQ = sn.heldW ++ (s.ctx k.ctx).storeQ ∧
        ((t.ctx k.ctx).exiting = false → (t.ctx k.ctx).replay = sn.results ∧ (t.ctx k.ctx).inflight = (s.ctx k.ctx).inflight)))

/-! Slot C: the system forms. -/

/-- SYSRD, OWNRD and OCCRD read into a register (R198 to R200), as the cycle began (R80, R187), but for the grants and the
state of a context that began in that very cycle, which are its own as they stand (log 18), and what the system registers read as (Table 10.7): level, cycle count, wheel positions, TLIM,
LBXDROP, and the trap registers of the reading context. Writes of the system registers (R114, R198, R337, R338): each changes
its own register, with the bits Table 10.7 gives it, and nothing else; writing 1 to HELD discards the held entries with their
tagged results. -/
def Obligations.SystemRegisters : Prop :=
  ((∀ (s : State) (k : Cur) (f : Form) (w : CW),
    (Performs s k (.sysrd w) f → ResultLands s k (.sysrd w) f .s (s.sysSeen k.ctx w.imm24.toNat)) ∧
    (Performs s k (.ownrd w) f → ResultLands s k (.ownrd w) f .s
      ((s.atDawn.owner ((opOf k (.ownrd w) f).src 1)).read w.imm24.toNat)) ∧
    (Performs s k (.occrd w) f → ResultLands s k (.occrd w) f .s
      (tget 0 s.atDawn.occ (256 * bits ((opOf k (.occrd w) f).src 1) 25 16 + (opOf k (.occrd w) f).src 1 % 256) % 2 ^ 11))) ∧
  (∀ (s : State) (c n : Nat),
    (n = 0 ∨ n = 1 ∨ n = 4 ∨ 0x16 ≤ n → s.sysSeen c n = s.sysReg c n) ∧
    (2 ≤ n → n ≠ 4 → n < 0x16 → s.sysSeen c n = (s.dawnOf c).sysReg c n) ∧
    ((s.atDawn.ctx c).st ≠ .empty → (s.atDawn.ctx c).st ≠ .claimed → s.dawnOf c = s.atDawn) ∧
    ((s.atDawn.ctx c).st = .empty ∨ (s.atDawn.ctx c).st = .claimed →
      s.dawnOf c = (s.atDawn.setCtx c (s.ctx c)).setCore (coreOf c)
        ((s.atDawn.core (coreOf c)).withHeld (s.core (coreOf c)) c)) ∧
    (∀ (x y : Core) (n : Nat),
      ((∀ e ∈ y.accs, e.1 = n → e.2.holder ≠ some c) → tget {} (x.withHeld y c).accs n = tget {} x.accs n) ∧
      ((∀ e ∈ y.lats, e.1 = n → e.2.holder ≠ some c) → tget {} (x.withHeld y c).lats n = tget {} x.lats n) ∧
      ((∃ e ∈ y.accs, e.1 = n ∧ e.2.holder = some c) → (tget {} (x.withHeld y c).accs n).holder = some c) ∧
      ((∃ e ∈ y.lats, e.1 = n ∧ e.2.holder = some c) → (tget {} (x.withHeld y c).lats n).holder = some c)) ∧
    (s.dawn = none → s.atDawn = s) ∧
    (∀ d, s.dawn = some d → s.atDawn = { s with
      ctxs := d.ctxs, cores := d.cores, calls := d.calls, cols := d.cols, parts := d.parts, owners := d.owners, occ := d.occ,
      pkg := d.pkg })) ∧
  (∀ (o : Owner), o.read 0 = o.hdr.toNat ∧ o.read 17 = o.rate * 2 ^ 32 + o.depth ∧ ∀ n, n < 16 → o.read (n + 1) =
    tget 0 o.lat (4 * n) + tget 0 o.lat (4 * n + 1) * 2 ^ 16 + tget 0 o.lat (4 * n + 2) * 2 ^ 32 + tget 0 o.lat (4 * n + 3) * 2 ^ 48) ∧
  (∀ (s : State) (c : Nat), s.sysReg c 0x00 = (s.ctx c).level.num ∧ s.sysReg c 0x04 = s.now c % 2 ^ 64 ∧
    s.sysReg c 0x05 = (s.core (coreOf c)).wheel.toNat ∧ s.sysReg c 0x12 = (s.part (s.ctx c).part).lbxdrop ∧
    s.sysReg c 0x13 = s.pkg.tlim ∧ s.sysReg c 0x16 = (s.ctx c).flt.w0.toNat ∧ s.sysReg c 0x17 = (s.ctx c).flt.pc.toNat ∧
    s.sysReg c 0x18 = (s.ctx c).flt.adr.toNat ∧ s.sysReg c 0x1C = (s.ctx c).tretpc.toNat ∧ s.sysReg c 0x1E = (s.ctx c).tscra.toNat ∧
    s.sysReg c 0x1F = (s.ctx c).tscrb.toNat)) ∧
  (∀ (s : State) (k : Cur) (f : Form) (w : CW),
    let p := (s.ctx k.ctx).part
    let v := fun (i : Instr) => (opOf k i f).src 1
    (Performs s k (.syswr w) f →
      (w.imm24 = 0x12 → PartBecomes s k (.syswr w) f p fun x => { x with lbxdrop := v (.syswr w) % 2 ^ 32 }) ∧
      (w.imm24 = 0x13 → PkgBecomes s k (.syswr w) f fun x => { x with tlim := v (.syswr w) % 2 ^ 16 }) ∧
      (w.imm24 = 0x14 → PartBecomes s k (.syswr w) f p fun x =>
        let n := (s.ctx k.ctx).tenant
        let d : Tenant := tget {} x.tenants n
        let e : Tenant := { d with tvec := BitVec.ofNat 64 (bits (v (.syswr w)) 63 63 * 2 ^ 63 + v (.syswr w) % 2 ^ 56) }
        { x with tenants := tset {} x.tenants n e }) ∧
      (w.imm24 = 0x15 → PkgBecomes s k (.syswr w) f fun x =>
        { x with hflogBase := bits (v (.syswr w)) 51 12, hflogNpg := v (.syswr w) % 256 }) ∧
      (w.imm24 = 0x1E → CtxBecomes s k (.syswr w) f fun x => { x with tscra := BitVec.ofNat 64 (v (.syswr w)) }) ∧
      (w.imm24 = 0x1F → CtxBecomes s k (.syswr w) f fun x => { x with tscrb := BitVec.ofNat 64 (v (.syswr w)) })) ∧
    (Performs s k (.govloadWrite w) f → PartBecomes s k (.govloadWrite w) f p fun x =>
      let n := v (.govloadWrite w)
      { x with govload := BitVec.ofNat 64 (bits n 63 60 * 2 ^ 60 + bits n 49 40 * 2 ^ 40 + n % 2 ^ 16) }) ∧
    (Performs s k (.tretpcWrite w) f → CtxBecomes s k (.tretpcWrite w) f fun x =>
      { x with tretpc := BitVec.ofNat 64 (v (.tretpcWrite w)) }) ∧
    (Performs s k (.tstatWrite w) f → CtxBecomes s k (.tstatWrite w) f fun x =>
      if (v (.tstatWrite w)).testBit 3 then x.dropHeld else x))

/-- OWNSET and OWNLAT write what the next tick applies, RUNG ignored (R105, R199); OWNBKT sets rate and depth (R199); WAYSET a
mask (R200); RNGSET an entry of the range table, a length of zero emptying it (R388); WHLSET the positions of a core (R201). -/
def Obligations.ContractsAndTables : Prop :=
  ∀ (s : State) (k : Cur) (f : Form) (w : CW),
    let a := fun (i : Instr) => (opOf k i f).src 0
    let b := fun (i : Instr) => (opOf k i f).src 1
    (Performs s k (.ownset w) f → OwnerBecomes s k (.ownset w) f (a (.ownset w)) fun o =>
      { o with pendHdr := some (hSetRung (BitVec.ofNat 64 (b (.ownset w))) 0) }) ∧
    (Performs s k (.ownlat w) f → OwnerBecomes s k (.ownlat w) f (a (.ownlat w)) fun o =>
      { o with pendLat := o.pendLat ++ [(w.imm24.toNat, b (.ownlat w) % 65536)] }) ∧
    (Performs s k (.ownbkt w) f → ∃ t, exec (.ownbkt w) s = .next t ∧ t.cur = some (acted k) ∧
      t = { s with ctxs := t.ctxs, cur := t.cur, owners := t.owners, spare := t.spare } ∧
      t.owner (a (.ownbkt w)) =
        { s.owner (a (.ownbkt w)) with rate := bits (b (.ownbkt w)) 42 32, depth := bits (b (.ownbkt w)) 14 0 } ∧
      (∀ q, q ≠ a (.ownbkt w) → t.owner q = s.owner q) ∧
      (∀ d, t.ctx d = { (opened s k f).ctx d with buckets := (t.ctx d).buckets })) ∧
    (Performs s k (.wayset w) f → OwnerBecomes s k (.wayset w) f (a (.wayset w)) fun o =>
      { o with masks := tset 0xFFFF o.masks (bits (b (.wayset w)) 25 16) (b (.wayset w) % 65536) }) ∧
    (Performs s k (.rngset w) f → PartBecomes s k (.rngset w) f k.before.part fun p =>
      let e : Option Range := if w.imm24 = 0 then none
        else some ⟨bits (a (.rngset w)) 10 8, b (.rngset w), w.imm24.toNat * 2 ^ 21, false⟩
      { p with ranges := tset none p.ranges (a (.rngset w) % 64) e }) ∧
    (Performs s k (.whlset w) f → CoreBecomes s k (.whlset w) f (a (.whlset w)) (fun c =>
      { c with wheel := BitVec.ofNat 64 (b (.whlset w)),
               wheelOld := match c.wheelOld with | some o => some o | none => some c.wheel }) fun x => x)

/-- TLBINV drops from every TLB the entries it selects, and no other, and waits for the acknowledgements, which end the wait (R202).
That it also forgets the host's answers to the partition, which walks take, and what the host is asked for it, is the
model's (logs 67, 89). MSWR and RTSET wait in the cores they
reach (R78, R203), and take effect on a core once none of its calls is in flight. -/
def Obligations.InvalidationsAndStoreWrites : Prop :=
  ∀ (s : State) (k : Cur) (f : Form) (w : CW),
    (Performs s k (.tlbinv w) f → ∃ t n, exec (.tlbinv w) s = .next t ∧ s.cycle ≤ n ∧ t.cur = some (acted k) ∧
      t = { s with ctxs := t.ctxs, cur := t.cur, quads := t.quads, stackTab := t.stackTab, fresh := s.fresh + 1,
                   pkg := { s.pkg with ats := s.pkg.ats.filter (fun e => !(e.1 / 2 ^ 36 = k.before.part)),
                                       atsReq := s.pkg.atsReq.filter (fun e => !(e / 2 ^ 36 = k.before.part)) } } ∧
      (t.ctx k.ctx).block = .tlbinv n s.serial ∧
      (∀ d, t.ctx d = { (opened s k f).ctx d with block := (t.ctx d).block, storeQ := (t.ctx d).storeQ } ∧
        (t.ctx d).storeQ.map bare = ((s.ctx d).storeQ).map bare ∧ (d ≠ k.ctx → (t.ctx d).block = (s.ctx d).block)) ∧
      (let keeps := fun (x : Trans) =>
         !tlbDrops k.before.part ((opOf k (.tlbinv w) f).src 0) ((opOf k (.tlbinv w) f).src 1) w.imm24.toNat x
       (∀ q, t.quad q = { s.quad q with tlb := (t.quad q).tlb } ∧
         ∀ u, tget [] (t.quad q).tlb u = (tget [] (s.quad q).tlb u).filter keeps) ∧
       ∀ q, t.stack q = { s.stack q with tlb := (s.stack q).tlb.filter keeps })) ∧
    (∀ (p a b kind : Nat) (x : Trans), tlbDrops p a b kind x = true ↔ x.part = p ∧ ((kind = 0 ∧ x.tenant = a % 8) ∨
      (kind = 1 ∧ x.tenant = b % 8 ∧ x.va = a / 2 ^ x.size * 2 ^ x.size) ∨ 2 ≤ kind)) ∧
    (∀ c n m, (s.ctx c).block = .tlbinv n m → n ≤ s.cycle →
      (∀ d ∈ s.ctxs, d.2.part = (s.ctx c).part → ∀ e ∈ d.2.storeQ, e.reach = 0 ∨ e.tile ≠ 0 ∨ m ≤ e.id) → ∃ t,
      exec (.tlbinvComplete c) s = .next t ∧ OnlyCtx s t c ∧ t.cur = s.cur ∧ t.ctx c = { s.ctx c with block := .none }) ∧
    (Performs s k (.mswr w) f → ∃ t, exec (.mswr w) s = .next t ∧ t = { s with ctxs := t.ctxs, cur := t.cur, cores := t.cores } ∧
      Also s t k f (fun x => { x with block := .storeWrite }) ∧
      let p : PendWrite := ⟨k.ctx, false, (opOf k (.mswr w) f).src 0, BitVec.ofNat 64 ((opOf k (.mswr w) f).src 1)⟩
      ∀ n, t.core n = if (if w.imm24 = 0 then [coreOf k.ctx] else (s.part k.before.part).coreList).contains n
        then { s.core n with pend := (s.core n).pend ++ [p] } else s.core n) ∧
    (Performs s k (.rtset w) f → ∃ t, exec (.rtset w) s = .next t ∧ t = { s with ctxs := t.ctxs, cur := t.cur, cores := t.cores } ∧
      Also s t k f (fun x => { x with block := .storeWrite }) ∧
      let p : PendWrite := ⟨k.ctx, true, (opOf k (.rtset w) f).src 0, BitVec.ofNat 64 ((opOf k (.rtset w) f).src 1)⟩
      ∀ n, t.core n = if (if w.imm24 = 0 then [coreOf k.ctx] else (s.part k.before.part).coreList).contains n
        then { s.core n with pend := (s.core n).pend ++ [p] } else s.core n) ∧
    (∀ n, (∀ c ∈ s.calls, c.core ≠ n) → ∃ t, exec (.storeWriteApply n) s = .next t ∧
      t = { s with ctxs := t.ctxs, cores := t.cores } ∧ t.core n = { (s.core n).pend.foldl Core.applyWrite (s.core n) with pend := [] } ∧
      (∀ m, m ≠ n → t.core m = s.core m) ∧ ∀ c, t.ctx c = s.ctx c ∨ t.ctx c = { s.ctx c with block := .none })

/-- The partition forms (R204, Tables 10.11 and 10.12): PARTSET enables, PARTSLC, PARTCHN and PARTLNK add units to a list or take
them from it in ascending order, a release of slices blocking until they are written back; OWNASGN gives the reset contract
or removes the owner; TENSET a tenant's entry; FRMSET frames at the tail of the free list (R205); PARTCOL the columns, whose
gained cores get their default positions and zeroed stores (R78) and whose lost ones give up theirs on every core, while no episode is
in progress. -/
def Obligations.PartitionForms : Prop :=
  (∀ (s : State) (k : Cur) (f : Form) (w : CW),
    let a := fun (i : Instr) => (opOf k i f).src 0
    let b := fun (i : Instr) => (opOf k i f).src 1
    (Performs s k (.partset w) f → PartBecomes s k (.partset w) f (a (.partset w)) fun p => { p with en := bit (b (.partset w)) 0 }) ∧
    (Performs s k (.partslc w) f → bit (b (.partslc w)) 31 = true → ∃ t n, exec (.partslc w) s = .next t ∧ s.cycle ≤ n ∧
      Also s t k f (fun x =>
        { x with block := .partslc (a (.partslc w)) (bits (b (.partslc w)) 9 0) (bits (b (.partslc w)) 25 16) n }) ∧
      t = { s with ctxs := t.ctxs, cur := t.cur, fresh := s.fresh + 1 }) ∧
    (Performs s k (.partslc w) f → bit (b (.partslc w)) 31 = false → ∃ t, exec (.partslc w) s = .next t ∧
      Also s t k f (fun x => x) ∧ t = { s with ctxs := t.ctxs, cur := t.cur, parts := t.parts, quiet := t.quiet } ∧
      t.part (a (.partslc w)) =
        { s.part (a (.partslc w)) with slices := rangeApply (b (.partslc w)) (s.part (a (.partslc w))).slices }) ∧
    (Performs s k (.partchn w) f → ∃ t, exec (.partchn w) s = .next t ∧ Also s t k f (fun x => x) ∧
      t = { s with ctxs := t.ctxs, cur := t.cur, parts := t.parts, quiet := t.quiet } ∧
      t.part (a (.partchn w)) =
        { s.part (a (.partchn w)) with chans := rangeApply (b (.partchn w)) (s.part (a (.partchn w))).chans }) ∧
    (Performs s k (.partlnk w) f → PartBecomes s k (.partlnk w) f (a (.partlnk w)) fun p =>
      { p with lanes := rangeApply (b (.partlnk w)) p.lanes }) ∧
    (Performs s k (.ownasgn w) f → bit (b (.ownasgn w)) 63 = true →
      OwnerBecomes s k (.ownasgn w) f (a (.ownasgn w)) fun _ => {}) ∧
    (Performs s k (.ownasgn w) f → bit (b (.ownasgn w)) 63 = false → ∃ t, exec (.ownasgn w) s = .next t ∧
      t = { s with ctxs := t.ctxs, cur := some (acted k), owners := t.owners, spare := t.spare } ∧
      t.owner (a (.ownasgn w)) =
        { hdr := BitVec.ofNat 64 (b (.ownasgn w) % 16 * 2 ^ 55), part := some (b (.ownasgn w) % 16) } ∧
      ∀ q, q ≠ a (.ownasgn w) → t.owner q = s.owner q) ∧
    (Performs s k (.tenset w) f → PartBecomes s k (.tenset w) f (a (.tenset w)) fun p =>
      let n := b (.tenset w) % 8
      let d : Tenant := tget {} p.tenants n
      let e : Tenant := { d with en := bit (b (.tenset w)) 3, slice := bits (b (.tenset w)) 39 8 }
      { p with tenants := tset {} p.tenants n e }) ∧
    (Performs s k (.frmset w) f → PartBecomes s k (.frmset w) f (a (.frmset w)) fun p =>
      { p with frames := p.frames ++ (List.range w.imm24.toNat).map fun i => b (.frmset w) + 4096 * i }) ∧
    (Performs s k (.partcol w) f → s.eps = [] → ∃ t, exec (.partcol w) s = .next t ∧ Also s t k f (fun x => x) ∧
      t = { s with ctxs := t.ctxs, cur := t.cur, parts := t.parts, cores := t.cores, quiet := t.quiet } ∧
      t.part (a (.partcol w)) = { s.part (a (.partcol w)) with cols := b (.partcol w) % 2 ^ 32 } ∧
      (∀ q, q ≠ a (.partcol w) → t.part q = s.part q) ∧
      ∀ n, n < 128 →
        let now := (b (.partcol w) % 2 ^ 32).testBit (n / 4)
        let was := (s.part (a (.partcol w))).cols.testBit (n / 4)
        (now = true → was = false → t.core n = (s.core n).handOver n) ∧
        (now = false → was = true → t.core n = { s.core n with wheel := 0, wheelOld := none }) ∧
        (now = was → t.core n = { s.core n with wheel := (t.core n).wheel, wheelOld := (t.core n).wheelOld } ∧
          ∀ j, j < 4 →
            let p := bits (s.core n).wheel.toNat (10 * j + 9) (10 * j)
            let gone := (s.part (a (.partcol w))).cols.testBit (p % 512 / 16) = true ∧
              (b (.partcol w) % 2 ^ 32).testBit (p % 512 / 16) = false
            bits (t.core n).wheel.toNat (10 * j + 9) (10 * j) = if 512 ≤ p ∧ gone then 0 else p))) ∧
  (∀ (n : Nat) (x : Core), n < 128 → (x.handOver n).store = [] ∧ (x.handOver n).routs = [] ∧ (x.handOver n).wheelOld = none ∧
    ∀ j, j < 4 → (x.handOver n).position j = some (4 * n + j))

/-- The stop request that CTXSTOP leaves: one pending already stays, urgent when either is; a new one counts from now (R205). -/
def Sys2Proof.Safety.StopAsked (s : State) (c : Nat) (w : CW) (q : StopReq) : Prop :=
  (∀ o, (s.ctx c).stop = some o → q.since = o.since ∧ (q.urgent = true ↔ o.urgent = true ∨ w.imm24 = 1)) ∧
    ((s.ctx c).stop = none → q.since = s.now c ∧ (q.urgent = true ↔ w.imm24 = 1))

/-- GENADV advances the L2 generation of a partition: its slices count no line of any owner (R138), and no page of it is marked
compressed (R376); or it waits for the zeroing (R205, R130, R131). ERRINJ arms one error (R385);
SELFTST starts a test that ends within its limit, a page's in 56,000 cycles (log 76), and waits for it (R205, R382); CTXSTOP asks a
context that is not at rest, itself too, to stop, and waits for it (R205). A release of slices ends when they are written back: the slices have left the partition and
the context goes on (R204); a structure whose generation would come round is zeroed and begins anew (R130). -/
def Obligations.TestsStopsAndGenerations : Prop :=
  (∀ (s : State) (k : Cur) (f : Form) (w : CW),
    let a := fun (i : Instr) => (opOf k i f).src 0
    (Performs s k (.genadv w) f → (s.part (a (.genadv w))).l2gen + 1 < 2 ^ 16 → ∃ t, exec (.genadv w) s = .next t ∧
      Also s t k f (fun x => x) ∧
      t = { s with ctxs := t.ctxs, cur := t.cur, parts := t.parts, occ := t.occ, pkg := { s.pkg with cBits := t.pkg.cBits } } ∧
      t.part (a (.genadv w)) = { s.part (a (.genadv w)) with l2gen := (s.part (a (.genadv w))).l2gen + 1 } ∧
      (∀ q, q ≠ a (.genadv w) → t.part q = s.part q) ∧
      (∀ sl o, o < 256 → tget 0 t.occ (256 * sl + o) =
        if sl ∈ (s.part (a (.genadv w))).slices then 0 else tget 0 s.occ (256 * sl + o)) ∧
      ∀ pg, pg ∈ t.pkg.cBits ↔ pg ∈ s.pkg.cBits ∧ paPart (pg * 65536) ≠ a (.genadv w)) ∧
    (Performs s k (.genadv w) f → 2 ^ 16 ≤ (s.part (a (.genadv w))).l2gen + 1 → ∃ t, exec (.genadv w) s = .next t ∧
      Also s t k f (fun x => { x with block := .genadv (a (.genadv w)) }) ∧
      t = { s with ctxs := t.ctxs, cur := t.cur, zeroing := s.zeroing ++ [genL2 (a (.genadv w))], fresh := s.fresh + 1 }) ∧
    (Performs s k (.errinj w) f → PkgBecomes s k (.errinj w) f fun p =>
      { p with armed := some (BitVec.ofNat 64 (a (.errinj w)), w.imm24 = 1) }) ∧
    (Performs s k (.selftst w) f → s.pkg.armed = none → ∃ t x, exec (.selftst w) s = .next t ∧
      Also s t k f (fun y => { y with block := .selftst (BitVec.ofNat 64 (a (.selftst w))) }) ∧
      t = { s with ctxs := t.ctxs, cur := t.cur, tests := s.tests ++ [x], fresh := s.fresh + 2 } ∧
      x.desc = BitVec.ofNat 64 (a (.selftst w)) ∧ x.ctx = some k.ctx ∧ s.testNow (unitD x.desc.toNat) < x.ends ∧
      x.ends ≤ s.testNow (unitD x.desc.toNat) + (if (unitD x.desc.toNat).struct = 2 then 56000 else 2048) ∧
      bits x.w0.toNat 63 48 = 6 ∧ bits x.w0.toNat 15 12 = s.unitPart (unitD x.desc.toNat) % 16) ∧
    (Performs s k (.ctxstop w) f → (s.ctx (a (.ctxstop w))).st.atRest = true → CtxBecomes s k (.ctxstop w) f fun x => x) ∧
    (Performs s k (.ctxstop w) f → (s.ctx (a (.ctxstop w))).st.atRest = false → a (.ctxstop w) ≠ k.ctx → ∃ t q,
      exec (.ctxstop w) s = .next t ∧ t = { s with ctxs := t.ctxs, cur := some (acted k) } ∧
      t.ctx k.ctx = { latched s k f with block := .ctxstop (a (.ctxstop w)) } ∧ StopAsked s (a (.ctxstop w)) w q ∧
      t.ctx (a (.ctxstop w)) = { s.ctx (a (.ctxstop w)) with stop := some q } ∧
      ∀ d, d ≠ k.ctx → d ≠ a (.ctxstop w) → t.ctx d = s.ctx d) ∧
    (Performs s k (.ctxstop w) f → (s.ctx k.ctx).st.atRest = false → a (.ctxstop w) = k.ctx → ∃ t q,
      exec (.ctxstop w) s = .next t ∧ t = { s with ctxs := t.ctxs, cur := some (acted k) } ∧
      t.ctx k.ctx = { latched s k f with block := .ctxstop k.ctx, stop := some q } ∧ StopAsked s k.ctx w q ∧
      ∀ d, d ≠ k.ctx → t.ctx d = s.ctx d)) ∧
  (∀ (s : State) (c : Nat),
    (∀ p first count n, (s.ctx c).block = .partslc p first count n → n ≤ s.cycle → ∃ t,
      exec (.sliceReleaseWritebackEnd c) s = .next t ∧ (t.ctx c).block = .none ∧
      ∀ u ∈ (t.part p).slices, u ∈ (s.part p).slices ∧ u ∉ rangeList first count) ∧
    (∀ g, s.zeroing.contains g = true → g < genL2 0 → exec (.generationZeroingEnd g) s = .next
      { s with zeroing := s.zeroing.filter (· ≠ g), gens := tset 0 s.gens g 0 }) ∧
    (∀ p, s.zeroing.contains (genL2 p) = true → ∃ t, exec (.generationZeroingEnd (genL2 p)) s = .next t ∧
      (t.part p).l2gen = 0 ∧ genL2 p ∉ t.zeroing ∧ tget 0 t.gens (genL2 p) = 0))

/-! Slot X. -/

/-- XEXP, XTRN, XQNT and XRED write every element of their destination (R258, R268): the expanded groups, the transposed blocks,
the quantised codes with zero elsewhere, and the sum of each row by the fixed tree in lanes 0 to 15; XRATIO declares the
ratio; SHFREE frees its entry two cycles later (R256). No byte of memory changes. -/
def Obligations.TransformForms : Prop :=
  ∀ (s : State) (k : Cur) (f : Form) (w : XW),
    (Performs s k (.xexp w) f → ResultLands s k (.xexp w) f .v (packV (tyOr w.type).width
      (xexpGroups ((opOf k (.xexp w) f).src 0) ((opOf k (.xexp w) f).src 1) (tyOr w.type).bytes k.before.ratio
        ((tyOr w.type).count / 64) 0 0).2).toNat) ∧
    (Performs s k (.xtrn w) f → ∃ v : VReg, ResultLands s k (.xtrn w) f .v v.toNat ∧ ∀ j, j < (tyOr w.type).count →
      elem (tyOr w.type).width v j =
        elem (tyOr w.type).width ((opOf k (.xtrn w) f).vsrc 0) (j / 256 * 256 + 16 * (j % 16) + j % 256 / 16)) ∧
    (Performs s k (.xqnt w) f → ∃ v : VReg, ResultLands s k (.xqnt w) f .v v.toNat ∧ ∀ j, j < 1024 → elem 8 v j =
      if j < (tyOr w.type2).count then quantize (tyOr w.type)
        ((tyOr w.type2).value (elem (tyOr w.type2).width ((opOf k (.xqnt w) f).vsrc 0) j))
        (decodeF .bf16 (elem 16 ((opOf k (.xqnt w) f).vsrc 1) (j / 32))) % 2 ^ 8
      else 0) ∧
    (Performs s k (.xred w) f → ∃ v : VReg, ResultLands s k (.xred w) f .v v.toNat ∧ ∀ j, j < 256 → elem 32 v j =
      if j < 16 then treeSum ((List.range (64 / (tyOr w.type2).bytes)).map fun n => rne .f32 ((tyOr w.type2).value
        (elem (tyOr w.type2).width ((opOf k (.xred w) f).vsrc 0) (64 / (tyOr w.type2).bytes * j + n)))) % 2 ^ 32
      else 0) ∧
    (Performs s k (.xratio w) f → CtxBecomes s k (.xratio w) f fun x => { x with ratio := (opOf k (.xratio w) f).src 0 % 64 }) ∧
    (Performs s k (.shfree w) f → ∃ t, exec (.shfree w) s = .next t ∧ Also s t k f (fun x => x) ∧
      t = { s with ctxs := t.ctxs, cur := t.cur, stackTab := t.stackTab } ∧
      let h := (opOf k (.shfree w) f).src 0
      t.stack (bits h 27 26) = { s.stack (bits h 27 26) with
        freeing := (s.stack (bits h 27 26)).freeing ++ [(h % 1024, bits h 25 10, k.ctx, s.now k.ctx + 2)] } ∧
      ∀ q, q ≠ bits h 27 26 → t.stack q = s.stack q)

/-! Faults, traps, freezes. -/

/-- A fault found before issue freezes its context with the record and touches no register, token, tile or byte (FAULT_FREEZE,
R333, R335): in the fetch of its next bundle, in its encoding, or in an operation of it. TRAP_DELIVERY (R338): once no result
is in flight, a fault of a level U context whose tenant has a handler that can be entered (R168, R351) writes the fault record, TRETPC
and TSTAT, and enters the handler at level S; any other, also one whose handler is no place to start (log 29), begins the context's
end, a second-stage fault told to the hypervisor too (R364); a delivery waits for the host pages of its handler (R312, log 89). CONTEXT_TERMINATE (R341): once its commands and calls are over, the context retires with nothing left of it, its quire
broken, and vector 4p + 1 is raised. -/
def Obligations.FaultDelivery : Prop :=
  ∀ (s : State) (c : Nat),
    (∀ e : FaultInfo, ((s.ctx c).st = .ready ∨ (s.ctx c).st = .blocked) → (s.ctx c).exiting = false → (s.ctx c).dying = none →
      (s.ctx c).bubble ≤ s.now c → (s.ctx c).block = .none → (s.ctx c).stop = none → (s.ctx c).frz.fault = none →
      s.launchWaits c = false → s.tests = [] →
      ((∃ n, s.fetchBundle c = .xlate n ∧ n ≠ 10 ∧ n ≠ 13 ∧ e = { cls := 0x0B, code := n, adr := (s.ctx c).pc, pc := (s.ctx c).pc }) ∨
        (∃ n sl o, s.fetchBundle c = .ill n sl o ∧
          e = { cls := 1, code := n, slot := sl, opa := o.1, opb := o.2.1, opc := o.2.2, pc := (s.ctx c).pc }) ∨
        (∃ h size b, s.fetchBundle c = .bundle h size b ∧ e.cls ≠ 0x0E ∧ e.cls ≠ 0x0B ∧
          let k := curOf c h size b ((s.ctx c).resumed (s.now c))
          s.waits (runsOf c k k.before b.ops) = false ∧ s.bundleFault k (runsOf c k k.before b.ops) = some e)) → ∃ t,
      exec (.faultFreeze c) s = .next t ∧ OnlyCtx s t c ∧ t.ctx c = frozenFor c (s.ctx c) e (s.now c) s.serial) ∧
    (∀ (r : Rec) (a : Nat) (b : Bool), (s.ctx c).frz.fault = some (r, a, b) → (s.ctx c).dying = none →
      (∀ l ∈ (s.ctx c).inflight, l.cls = .a ∨ l.cls = .l) → s.pkg.armed = none → s.handlerWants c = none →
      ((s.ctx c).level = .U → (s.tvec (s.ctx c)).getLsbD 63 = true → r.cls ≠ 0x10 → ¬ (r.cls = 0x0B ∧ r.code = 9) →
        s.handlerOk c ((s.tvec (s.ctx c)).toNat % 2 ^ 56) = true → ∃ t h, exec (.trapDelivery c) s = .next t ∧ OnlyCtx s t c ∧
          t.cur = s.cur ∧ (t.ctx c).flt = r.withHeld h ∧ (t.ctx c).tretpc = BitVec.ofNat 64 (s.ctx c).pc ∧ (t.ctx c).level = .S ∧
          (t.ctx c).plevel = .U ∧ (t.ctx c).intrap = true ∧ (t.ctx c).heldBit = h ∧
          (t.ctx c).pc = (s.tvec (s.ctx c)).toNat % 2 ^ 56 ∧
          (t.ctx c).frz = { (s.ctx c).frz with fault := none } ∧
          ((s.ctx c).frz.late = false → (s.ctx c).frz.breach = false → (s.ctx c).frz.urgent = none → (s.ctx c).frz.tdi = false →
            (t.ctx c).st = .ready) ∧
          ((s.ctx c).frz.late = true ∨ (s.ctx c).frz.breach = true ∨ (s.ctx c).frz.tdi = true → (t.ctx c).st = .frozen) ∧
          (∀ cls n, (t.ctx c).reg cls n = (s.ctx c).reg cls n) ∧
          (∀ n, ¬ (r.cls = 0x0C ∧ r.tokenNum = n) → (t.ctx c).token n = (s.ctx c).token n) ∧
          (t.ctx c).loadQ = (s.ctx c).loadQ ∧ (t.ctx c).storeQ = (s.ctx c).storeQ ∧ (t.ctx c).inflight = (s.ctx c).inflight ∧
          (r.cls ≠ 7 → (t.ctx c).snap = (s.ctx c).snap ∧
            (h = true ↔ ∃ sn, (s.ctx c).snap = some sn ∧ (sn.heldL ≠ [] ∨ sn.heldW ≠ [])))) ∧
      ((s.ctx c).level ≠ .U ∨ (s.tvec (s.ctx c)).getLsbD 63 = false ∨ r.cls = 0x10 ∨
          s.handlerOk c ((s.tvec (s.ctx c)).toNat % 2 ^ 56) = false → ¬ (r.cls = 0x0B ∧ r.code = 9) → ∃ t h,
        exec (.trapDelivery c) s = .next t ∧ OnlyCtx s t c ∧ t.cur = s.cur ∧
        t.ctx c = { s.ctx c with dying := some (r.withHeld h), st := .frozen, frz := { (s.ctx c).frz with fault := none } }) ∧
      (r.cls = 0x0B → r.code = 9 → ∃ t h, exec (.trapDelivery c) s = .next t ∧ Told t (4 * (s.ctx c).part + 2) ∧
        (t.ctx c).dying = some (r.withHeld h) ∧ (t.ctx c).st = .frozen ∧ (t.ctx c).frz.fault = none ∧
        ∀ cls n, (t.ctx c).reg cls n = (s.ctx c).reg cls n)) ∧
    (∀ p, s.handlerWants c = some p → exec (.trapDelivery c) s = .next s) ∧
    (∀ r, (s.ctx c).dying = some r → (s.ctx c).loadQ = [] → (s.ctx c).storeQ = [] →
      (∀ l ∈ (s.ctx c).inflight, l.cls = .a ∨ l.cls = .l) → (∀ e ∈ s.cmds, e.ctx ≠ c) →
      (∀ k ∈ s.calls, k.ctx = c → k.stopped.isSome = true) → (∀ q, s.quire (s.ctx c).quire = some q → q.recorded = true) →
      (∀ ep ∈ s.eps, ep.count = 0 ∨ (s.ctx c).quire ∉ ep.quires) → ∃ t, exec (.contextTerminate c) s = .next t ∧
      4 * (s.ctx c).part + 1 ∈ t.pkg.raised ∧
      t.ctx c = { s.ctx c with
        st := .retired, frames := [], frameWait := false, dying := none, snap := none, frz := {}, holds := [], loops := [],
        depth := 0, maps := [], stop := none, block := .none, inflight := [], replay := [], ucap := [], exiting := false,
        pendFault := none, age := 0, aged := false } ∧
      (∀ d, d ≠ c → t.ctx d = s.ctx d) ∧ (∀ k ∈ t.calls, k.ctx ≠ c) ∧
      (∀ a, s.holdsAcc c a = true → t.holdsAcc c a = false) ∧ (∀ l, s.holdsLat c l = true → t.holdsLat c l = false) ∧
      (t.part (s.ctx c).part).frames = (s.part (s.ctx c).part).frames ++ (s.ctx c).frames ∧
      (∀ q, t.quire (s.ctx c).quire = some q → q.broken = true) ∧ ∀ a, t.rawByte a = s.rawByte a)

/-- A late load freezes its context, also one that a breach has frozen, and its arrival lands it and lets the context go on, but
for a breach (R118, R185). A breach begins when a group is late: its core freezes, every context there that runs, waits or
stands frozen but the one whose stopped load pipe is its cause, and every call in flight there is marked and counted (R117,
R118, R339); it ends when no group is late, and after 65,536 cycles it ends the late calls, each a GOVERN fault, CODE 1, of its
context with the K-tile and the accumulator tile (R358). -/
def Obligations.FreezesAndBreaches : Prop :=
  (∀ (s : State) (c : Nat), ((s.ctx c).st = .ready ∨ (s.ctx c).st = .blocked ∨ ((s.ctx c).st = .frozen ∧ (s.ctx c).frz.breach = true)) →
    (s.ctx c).frz.late = false → Overdue s c → ∃ t, exec (.lateLoadFreeze c) s = .next t ∧ OnlyCtx s t c ∧ t.cur = s.cur ∧
      t.ctx c = { s.ctx c with st := .frozen, frz := { (s.ctx c).frz with late := true } }) ∧
  (∀ (s : State) (c : Nat), (s.ctx c).frz.late = true → ¬ Overdue s c → (s.ctx c).frz.fault = none → (s.ctx c).frz.urgent = none → ∃ t u,
    exec (.lateLoadArrival c) s = .next t ∧ OnlyCtx s t c ∧ t.cur = s.cur ∧ exec (.resultLanding c) s = .next u ∧
      t.ctx c = { u.ctx c with
        frz := { (s.ctx c).frz with late := false },
        st := if (s.ctx c).st = .frozen ∧ (s.ctx c).frz.breach = false ∧ (s.ctx c).frz.tdi = false ∧ (s.ctx c).dying = none
          then .ready else (s.ctx c).st }) ∧
  (∀ (s : State) (n : Nat), (s.core n).breach = none → (∃ k ∈ s.calls, k.core = n ∧ Late s k) → ∃ t,
    exec (.breachBegin n) s = .next t ∧ t = { s with ctxs := t.ctxs, cores := t.cores, calls := t.calls } ∧
      t.core n = { s.core n with breach := some ⟨s.now (4 * n)⟩ } ∧ (∀ m, m ≠ n → t.core m = s.core m) ∧
      (∀ k ∈ t.calls, k.core = n → k.late = true) ∧
      t.calls.map (fun k => { k with late := false }) = s.calls.map (fun k => { k with late := false }) ∧
      (∀ c, coreOf c = n → (¬ ∃ k ∈ s.calls, k.core = n ∧ k.ctx = c ∧ k.stopped.isSome = true ∧ Late s k) →
        (s.ctx c).breaches ≤ 65535 → (s.ctx c).st = .ready ∨ (s.ctx c).st = .blocked ∨ (s.ctx c).st = .frozen →
        t.ctx c = { s.ctx c with
          st := .frozen, frz := { (s.ctx c).frz with breach := true },
          breaches := min 65535 ((s.ctx c).breaches + (s.calls.filter fun k => k.core = n && !k.late && k.ctx = c).length) }) ∧
      (∀ c cls m, (t.ctx c).reg cls m = (s.ctx c).reg cls m) ∧
      ∀ c, coreOf c ≠ n → (∀ k ∈ s.calls, k.core = n → k.ctx ≠ c) → t.ctx c = s.ctx c) ∧
  (∀ (s : State) (n : Nat), (s.core n).breach.isSome = true → (∀ k ∈ s.calls, k.core = n → ¬ Late s k) → ∃ t,
    exec (.breachEnd n) s = .next t ∧ t = { s with ctxs := t.ctxs, cores := t.cores } ∧
      t.core n = { s.core n with breach := none } ∧ (∀ m, m ≠ n → t.core m = s.core m) ∧
      (∀ c, coreOf c ≠ n ∨ (s.ctx c).frz.breach = false → t.ctx c = s.ctx c) ∧
      ∀ c, coreOf c = n → (s.ctx c).frz.breach = true → t.ctx c = { s.ctx c with
        frz := { (s.ctx c).frz with breach := false },
        st := if (s.ctx c).st = .frozen ∧ (s.ctx c).frz.late = false ∧ (s.ctx c).frz.fault = none ∧ (s.ctx c).frz.urgent = none ∧
          (s.ctx c).frz.tdi = false ∧ (s.ctx c).dying = none then .ready else (s.ctx c).st }) ∧
  (∀ (s : State) (n : Nat) (b : Breach), (s.core n).breach = some b → b.since + 65536 ≤ s.now (4 * n) → ∃ t,
    exec (.breachTimeout n) s = .next t ∧ (t.core n).breach = none ∧ (∀ k ∈ t.calls, ¬ (k.core = n ∧ Late s k)) ∧
      (∀ c, coreOf c = n → (t.ctx c).frz.breach = false) ∧
      ∀ k j l, k ∈ s.calls → k.core = n → Late s k → k.jobs = j :: l →
        (∀ m ∈ s.calls, m.core = n → Late s m → m.ctx = k.ctx → m = k) → (s.ctx k.ctx).st ≠ .empty →
        (s.ctx k.ctx).st ≠ .retired → (s.ctx k.ctx).st ≠ .dormant → (s.ctx k.ctx).dying = none → (s.ctx k.ctx).frz.fault = none →
        (s.ctx k.ctx).frz.urgent = none → ∃ r f, (t.ctx k.ctx).frz.fault = some (r, f, false) ∧ (t.ctx k.ctx).st = .frozen ∧
          r.cls = 0x0A ∧ r.code = 1 ∧ r.pc = BitVec.ofNat 64 k.pc ∧ r.adr = BitVec.ofNat 64 (j.kt % 32 + k.acc % 16 * 256))

/-! Stops and saves. -/

/-- A stop that has not ended after 65,536 cycles of the context's column becomes urgent (R5, R59); an urgent stop freezes its
context at a bundle boundary, nothing but a wait that the stop ends holding it (R343; of a CTXSTOP too: log 54), and no freeze of a late
load (R185); a context whose next bundle is a safe point (header bit 9, or the entry of its letter: log 22) enters SAVING, and one that was claimed and not started gives its quire's
claims back, the letter to the head of its queue (R58 to R60; what that letter has counted: log 82); one that is drained is
saved to frames from the head of the free list and becomes EMPTY (R59, R345 to R347); a save that finds too few frames takes
those there are, and says so (R348). -/
def Obligations.StopsAndSaves : Prop :=
  ∀ (s : State) (c : Nat),
    (∀ q, (s.ctx c).stop = some q → q.urgent = false → q.since + 65536 ≤ s.now c → (s.ctx c).st ≠ .saving →
      (s.ctx c).st ≠ .empty → (s.ctx c).st ≠ .retired → (s.ctx c).st ≠ .dormant → ∃ t, exec (.stopTimeout c) s = .next t ∧
        OnlyCtx s t c ∧ t.cur = s.cur ∧ t.ctx c = { s.ctx c with stop := some { q with urgent := true } }) ∧
    (∀ q, (s.ctx c).stop = some q → q.urgent = true →
      ((s.ctx c).st = .ready ∨ (s.ctx c).st = .blocked ∨ (s.ctx c).st = .frozen) → (s.ctx c).frz.fault = none →
      (s.ctx c).frz.urgent = none → (s.ctx c).frz.tdi = false → (s.ctx c).frz.breach = false → (s.ctx c).frz.late = false →
      (s.ctx c).dying = none → (s.ctx c).exiting = false →
      ((s.ctx c).block = .none ∨ (∃ n, (s.ctx c).block = .yield n) ∨ ∃ d, (s.ctx c).block = .ctxstop d) →
      (∀ k ∈ s.calls, k.ctx = c → k.stopped = none) → ∃ t, exec (.urgentStop c) s = .next t ∧ OnlyCtx s t c ∧ t.cur = s.cur ∧
      t.ctx c = { s.ctx c with st := .frozen, frz := { (s.ctx c).frz with urgent := some (s.freezeCol c) }, block := .none }) ∧
    (s.phase = .events → s.freezeCol c = if (s.col (colOf c)).stepped = true then s.now c else s.now c + 1) ∧
    ((s.ctx c).frz.late = true → exec (.urgentStop c) s = .next s) ∧
    (∀ h size b, (s.ctx c).stop.isSome = true → ((s.ctx c).st = .ready ∨ (s.ctx c).st = .blocked) → (s.ctx c).exiting = false →
      (s.ctx c).dying = none → (s.ctx c).bubble ≤ s.now c → s.fetchBundle c = .bundle h size b →
      (b.header.getLsbD 9 = true ∨ ∃ q, s.quire (s.ctx c).quire = some q ∧ lEntry q.letter = (s.ctx c).pc) → ∃ t,
      exec (.safePointStop c) s = .next t ∧ OnlyCtx s t c ∧ t.cur = s.cur ∧
      t.ctx c = { (s.ctx c).resumed (s.now c) with
        st := .saving, saveUrgent := false, block := match (s.ctx c).block with
          | .yield _ => .none | .ctxstop _ => .none | b => b }) ∧
    (∀ q, (s.ctx c).st = .claimed → (s.ctx c).stop.isSome = true → s.quire (s.ctx c).quire = some q → q.resuming = false → ∃ t,
      exec (.safePointStop c) s = .next t ∧ (∀ d ∈ q.members, (s.ctx d).quire = q.id → t.ctx d = {}) ∧ t.quire q.id = none ∧
      (t.part q.part).queue (lPrio q.letter) = ⟨q.letter, 0, false⟩ :: (s.part q.part).queue (lPrio q.letter) ∧
      ∀ a, t.rawByte a = s.rawByte a) ∧
    ((s.ctx c).st = .frozen → (s.ctx c).frz.urgent.isSome = true → (s.ctx c).frz.fault = none → (s.ctx c).dying = none →
      (s.ctx c).block = .none → Drained s c → ∃ t, exec (.contextSave c) s = .next t ∧ OnlyCtx s t c ∧ t.cur = s.cur ∧
      t.ctx c = { s.ctx c with st := .saving, saveUrgent := true, frz := { (s.ctx c).frz with late := false } }) ∧
    ((s.ctx c).st = .saving → (s.ctx c).frz.fault = none → (s.ctx c).dying = none → (s.ctx c).block = .none → Drained s c →
      s.pkg.armed = none → s.liveWants c = none →
      ∀ q m p, s.quire (s.ctx c).quire = some q → m < q.size → m ≠ (s.ctx c).member → (∀ i ∈ q.images, i.member ≠ m) →
      s.savePlan c [] = some p → (s.ctx c).frames.length ≤ framesFor p.bytes.length →
      let need := framesFor p.bytes.length - (s.ctx c).frames.length
      let fs := (s.part (s.ctx c).part).frames
      (need ≤ fs.length → ∃ t r i, exec (.contextSave c) s = .next t ∧ t.ctx c = {} ∧
        (t.part (s.ctx c).part).frames = fs.drop need ∧ t.quire (s.ctx c).quire = some r ∧ i ∈ r.images ∧
        i = { p.own with frames := (s.ctx c).frames ++ fs.take need } ∧ p.own.member = (s.ctx c).member ∧
        (∀ j ∈ q.images, j ∈ r.images)) ∧
      (fs.length < need → (s.ctx c).frameWait = false ∨ fs ≠ [] → ∃ t, exec (.frameExhaustion c) s = .next t ∧
        (t.part (s.ctx c).part).frames = [] ∧ (t.ctx c).frames = (s.ctx c).frames ++ fs ∧ (t.ctx c).frameWait = true ∧
        Told t (4 * (s.ctx c).part + 2) ∧ ∀ cls n, (t.ctx c).reg cls n = (s.ctx c).reg cls n))

/-! The scheduler. -/

/-- A pass every 64 cycles goes through the queues from priority 7 down (R48), none while the TDI is in ERROR (R378), one head of each
(log 55): it leaves for EMPTY contexts of the partition in one stack, all claimed at once, with entry, arguments, member number, size and
level (R50, R332), or stays one pass longer (R49), as it does while a host page of its check is unanswered (log 89). A head unplaced for
1,024 passes reserves, and no other of the partition does (R49, R62). A letter of one whole aligned write enters its queue's tail when
its fields and its object allow (R43, R44, R46, R370), or waits for the host's page, those after it too; another write sets BADACC, a letter
refused is counted, a full queue drops it (R46, R303); one for a disabled partition is not counted (log 64). The start signal lets the
claimed members run (R51, R65), not those of a core in a breach (R117); a drained context that has executed EXIT, and a dismissed
handler, retires with nothing left of it (R66, R190); a quire whose members have all retired frees everything, and its completion word is
written, at level S, where it can be (R47, R64), with STATUS 1 for one both broken and dismissed (log 59); a slice that is over goes to
the next tenant with work, for its length and a part of its repayment, and the contexts of the last get stop requests (R59, R120, R316), or
ends where none has work (log 58); a READY context that has waited 64 cycles is aged (R56). -/
def Obligations.Scheduling : Prop :=
  ∀ (s : State),
    (∀ p, (s.part p).en = true → (s.part p).tdi ≠ .error → s.cycle % 64 = 0 →
      exec (.schedulerPass p) s = .next ([7, 6, 5, 4, 3, 2, 1, 0].foldl (fun s k => s.passQueue p k) s)) ∧
    (∀ p k, s.savedAt p k = [] → (s.part p).queue k = [] → s.passQueue p k = s) ∧
    (∀ p k x l r cs, s.savedAt p k = [] → (s.part p).queue k = x :: l → lKind x.bits ≠ 2 → (s.part p).run = some r →
      r.tenant = lTenant x.bits → (∀ j, (s.part p).reserving = some j → j ≤ k) → s.place p x.bits none = some cs →
      s.pkg.armed = none → s.letterWants p x.bits = none →
      (s.owner (lOwner x.bits)).hdr.getLsbD 63 = true → Admitted s p x.bits → ∃ u : State, u = { s with parts := u.parts } ∧
        (u.part p).queue k = l ∧ (∀ j, j ≠ k → (u.part p).queue j = (s.part p).queue j) ∧
        s.passQueue p k = u.claim p x.bits cs) ∧
    (∀ p k x l, s.savedAt p k = [] → (s.part p).queue k = x :: l → lKind x.bits ≠ 2 →
      ((s.part p).run = none ∨ (∃ r, (s.part p).run = some r ∧ r.tenant ≠ lTenant x.bits) ∨
        (∃ j, (s.part p).reserving = some j ∧ k < j) ∨ s.place p x.bits none = none) →
      let t := s.passQueue p k
      t = { s with parts := t.parts } ∧
        (t.part p).queue k = { x with passes := if s.couldFit p x.bits = true then x.passes + 1 else 0 } :: l ∧
        ∀ j, j ≠ k → (t.part p).queue j = (s.part p).queue j) ∧
    (∀ p k x l r cs g, s.savedAt p k = [] → (s.part p).queue k = x :: l → lKind x.bits ≠ 2 → (s.part p).run = some r →
      r.tenant = lTenant x.bits → (∀ j, (s.part p).reserving = some j → j ≤ k) → s.place p x.bits none = some cs →
      s.letterWants p x.bits = some g →
      let t := s.passQueue p k
      t = { s with parts := t.parts, pkg := { s.pkg with atsReq := t.pkg.atsReq } } ∧ g ∈ t.pkg.atsReq ∧
        (∀ n ∈ s.pkg.atsReq, n ∈ t.pkg.atsReq) ∧
        (t.part p).queue k = { x with passes := if s.couldFit p x.bits = true then x.passes + 1 else 0 } :: l ∧
        ∀ j, j ≠ k → (t.part p).queue j = (s.part p).queue j) ∧
    (∀ p l cs, s.place p l none = some cs → ∃ st, ∀ c ∈ cs, (s.ctx c).st = .empty ∧ c / 128 = st ∧
      (s.part p).cols.testBit (colOf c) = true ∧ (s.core (coreOf c)).lasting = false) ∧
    (∀ p l cs m c, cs.Nodup → cs[m]? = some c → ((s.claim p l cs).ctx c).st = .claimed ∧ ((s.claim p l cs).ctx c).pc = lEntry l ∧
      ((s.claim p l cs).ctx c).reg .s 1 = lArgs l ∧ ((s.claim p l cs).ctx c).reg .s 2 = m % 2 ^ 64 ∧
      ((s.claim p l cs).ctx c).reg .s 3 = lMembers l ∧ ((s.claim p l cs).ctx c).owner = lOwner l ∧
      ((s.claim p l cs).ctx c).part = p ∧ ((s.claim p l cs).ctx c).tenant = lTenant l ∧ ((s.claim p l cs).ctx c).member = m ∧
      ((s.claim p l cs).ctx c).level = (if p = 0 then .H else match s.walkOwn p (lTenant l) (lEntry l) with
        | .ok t => if t.user = true then .U else .S
        | _ => .U) ∧
      ∀ n, 3 < n → ((s.claim p l cs).ctx c).reg .s n = 0) ∧
    (∀ p l cs, (∀ d, d ∉ cs → (s.claim p l cs).ctx d = s.ctx d) ∧ ∃ q, (s.claim p l cs).quires = s.quires ++ [q] ∧
      q.id = s.serial ∧ q.part = p ∧ q.letter = l ∧ q.st = .claimed ∧ q.members = cs ∧ q.broken = false) ∧
    (∀ p k x l, s.savedAt p k = [] → (s.part p).queue k = x :: l → 1024 ≤ x.passes →
      (∀ j, (s.part p).reserving = some j → j < k) → ∃ t, exec (.letterReserving p k) s = .next t ∧
        t = { s with parts := t.parts, quires := t.quires } ∧ (t.part p).reserving = some k ∧
        (t.part p).queue k = { x with holds := true } :: l.map (fun y => { y with holds := false }) ∧
        (∀ j, j ≠ k → (t.part p).queue j = ((s.part p).queue j).map fun y => { y with holds := false }) ∧
        (∀ q, q ≠ p → t.part q = s.part q) ∧ ∀ q ∈ t.quires, q.part = p → q.holds = false) ∧
    (∀ p k q l, s.savedAt p k = q :: l → 1024 ≤ tget 0 (s.part p).savedPass q.id →
      (∀ j, (s.part p).reserving = some j → j < k) → ∃ t, exec (.letterReserving p k) s = .next t ∧
        t = { s with parts := t.parts, quires := t.quires } ∧ (t.part p).reserving = some k ∧
        (∀ x ∈ t.quires, x.part = p → (x.holds = true ↔ x.id = q.id)) ∧
        ∀ j, (t.part p).queue j = ((s.part p).queue j).map fun y => { y with holds := false }) ∧
    (∀ off full data, full = false ∨ data.length ≠ 64 ∨ off % 64 ≠ 0 → exec (.letterboxWrite off full data) s =
      .next { s with pkg := { s.pkg with badacc := true } }) ∧
    (∀ off data, data.length = 64 → off % 64 = 0 →
      let p := off / 4096
      let l := BitVec.ofNat 512 (ofBytes data)
      (s.pkg.boot ≠ .running ∨ 12 ≤ p ∨ (s.part p).en = false ∨ (s.part p).tdi = .error →
        exec (.letterboxWrite off true data) s = .next s) ∧
      (s.pkg.boot = .running → p < 12 → (s.part p).en = true → (s.part p).tdi ≠ .error →
        (s.part p).arriving ≠ [] ∨ (s.letterWants p l).isSome = true → ∃ t, exec (.letterboxWrite off true data) s = .next t ∧
          t = { s with parts := t.parts, pkg := { s.pkg with atsReq := t.pkg.atsReq } } ∧
          t.part p = { s.part p with arriving := (s.part p).arriving ++ [l] } ∧ (∀ q, q ≠ p → t.part q = s.part q) ∧
          ∀ g, (s.part p).arriving = [] → s.letterWants p l = some g → g ∈ t.pkg.atsReq) ∧
      (s.pkg.boot = .running → p < 12 → (s.part p).en = true → (s.part p).tdi ≠ .error → (s.part p).arriving = [] →
        s.letterWants p l = none → s.pkg.armed = none →
        (LetterFields l → lKind l = 2 ∨ Admitted s p l →
          (((s.part p).queue (lPrio l)).length < 64 → ∃ t, exec (.letterboxWrite off true data) s = .next t ∧
            t = { s with parts := t.parts } ∧ (t.part p).queue (lPrio l) = (s.part p).queue (lPrio l) ++ [⟨l, 0, false⟩] ∧
            (∀ k, k ≠ lPrio l → (t.part p).queue k = (s.part p).queue k) ∧ ∀ q, q ≠ p → t.part q = s.part q) ∧
          (64 ≤ ((s.part p).queue (lPrio l)).length → ∃ t, exec (.letterboxWrite off true data) s = .next t ∧
            t = { s with parts := t.parts, pkg := t.pkg } ∧
            t.part p = { s.part p with lbxdrop := min ((s.part p).lbxdrop + 1) (2 ^ 32 - 1) } ∧
            (∀ q, q ≠ p → t.part q = s.part q) ∧ ((s.part p).lbxdrop = 0 → 4 * p + 3 ∈ t.pkg.raised) ∧
            ((s.part p).lbxdrop ≠ 0 → t.pkg = s.pkg))) ∧
        (¬ (LetterFields l ∧ (lKind l = 2 ∨ Admitted s p l)) → exec (.letterboxWrite off true data) s = .next (s.count p 7)))) ∧
    (∀ p w, let pa := devPa p ((s.part p).meta_ * 65536 + (s.part p).chans.length * 3 * 2 ^ 19 + 8 * w)
      Clear s p → pa % 8 = 0 → s.l2 = [] → (∀ i, i < 8 → (s.memKey (pa + i)).isSome = true) → ∀ i, i < 8 →
        (s.count p w).rawByte (pa + i) =
          BitVec.ofNat 8 ((ofBytes ((List.range 8).map fun j => s.rawByte (pa + j)) + 1) % 2 ^ 64 / 256 ^ i)) ∧
    (∀ id q, s.quire id = some q → q.st = .claimed → (s.part q.part).tdi ≠ .error → q.wait ≤ s.cycle →
      (∀ c ∈ q.members, (s.ctx c).stop = none) → q.resuming = false → q.members.length = q.size → s.pkg.armed = none →
      s.framesBusy q = false → s.startWants q = none → ∃ t, exec (.startSignal id) s = .next t ∧
        t.quire id = some { q with st := .running, resuming := false, images := [], named := [] } ∧
        (∀ c cls n, (t.ctx c).reg cls n = (s.ctx c).reg cls n) ∧
        (∀ c, c ∉ q.members → (s.core (coreOf c)).breach = none → t.ctx c = s.ctx c) ∧
        ∀ c ∈ q.members, (s.ctx c).st = .claimed → (s.ctx c).quire = q.id →
          (lKind q.letter = 1 → (t.ctx c).st = .dormant) ∧
          (lKind q.letter ≠ 1 → (t.ctx c).st = .ready ∨ ((t.ctx c).st = .frozen ∧
            ((s.core (coreOf c)).breach.isSome = true ∨
              ∃ r a b, (t.ctx c).frz.fault = some (r, a, b) ∧ ((s.ctx c).frz.fault = none → r.cls = 3)))) ∧
          (lKind q.letter ≠ 1 → (s.core (coreOf c)).breach.isSome = true → s.spared (coreOf c) c = false →
            (t.ctx c).st = .frozen)) ∧
    (∀ c, ((s.ctx c).exiting = true ∧ ((s.ctx c).st = .ready ∨ (s.ctx c).st = .blocked) ∧ Drained s c ∧ (s.ctx c).replay = []) ∨
        ((s.ctx c).st = .dormant ∧ (s.ctx c).dismissed = true) → ∃ t, exec (.contextRetire c) s = .next t ∧
      t.ctx c = { s.ctx c with
        st := if (s.ctx c).dismissed = false ∧ ∃ q, s.quire (s.ctx c).quire = some q ∧ lKind q.letter = 1 then .dormant
          else .retired,
        exiting := false, holds := [], loops := [], depth := 0, maps := [], block := .none, stop := none, age := 0,
        aged := false } ∧
      (∀ d, d ≠ c → t.ctx d = s.ctx d) ∧ (∀ a, t.rawByte a = s.rawByte a) ∧
      (∀ a, s.holdsAcc c a = true → t.holdsAcc c a = false) ∧ ∀ l, s.holdsLat c l = true → t.holdsLat c l = false) ∧
    (∀ id q, s.quire id = some q → q.st = .running → q.images = [] →
      (∀ c ∈ q.members, (s.ctx c).quire = q.id ∧ (s.ctx c).st = .retired) →
      let st := if q.broken = true then 1 else if q.dismissed = true then 2 else 0
      let gone := fun (t : State) => t.quire id = none ∧ (∀ c ∈ q.members, (t.ctx c).st = .empty) ∧
        (∀ x ∈ t.tiles, x.quire ≠ q.id) ∧ (lIrq q.letter = true → 4 * q.part ∈ t.pkg.raised)
      ((∃ n, n ≠ 13 ∧ s.walkOwn q.part (lTenant q.letter) (lDone q.letter) = .err n) → ∃ t,
        exec (.quireRetire id) s = .next t ∧ gone t ∧ ∀ a, t.rawByte a = s.rawByte a) ∧
      ∀ x, s.pkg.armed = none → s.walkOwn q.part (lTenant q.letter) (lDone q.letter) = .ok x →
        let pa := x.pa + lDone q.letter % 2 ^ x.size
        s.leafErr .S .write false x pa = none → x.pin = none → x.elide = false → Clear s q.part → pa % 8 = 0 →
        (∀ i, i < 8 → (s.memKey (pa + i)).isSome = true) → ∃ t, exec (.quireRetire id) s = .next t ∧ gone t ∧
          (∀ i, i < 8 → t.rawByte (pa + i) = BitVec.ofNat 8 ((st * 2 ^ 32 + lSeq q.letter) / 256 ^ i)) ∧
          ∀ a, (∀ i, i < 8 → s.memKey a ≠ s.memKey (pa + i)) → t.rawByte a = s.rawByte a) ∧
    (∀ p r, (s.part p).run = some r → r.since < s.cycle → r.stop ≤ s.cycle ∨ ¬ HasWork s p r.tenant →
      ((∀ i, i < 8 → ¬ HasWork s p i) → ∃ t, exec (.sliceEnd p) s = .next t ∧ t = { s with parts := t.parts } ∧
        t.part p = { s.part p with run := none } ∧ ∀ q, q ≠ p → t.part q = s.part q) ∧
      ∀ n, NextWork s p r.tenant n → ∃ t, exec (.sliceEnd p) s = .next t ∧
        (let x := tget {} (s.part p).tenants n
         let more := min (x.repay / 8) x.slice
         (t.part p).run = some ⟨n, s.cycle + x.slice + more, s.cycle⟩ ∧
         tget {} (t.part p).tenants n = { x with repay := x.repay - 8 * more }) ∧
        (∀ m, m ≠ n → tget {} (t.part p).tenants m = tget {} (s.part p).tenants m) ∧
        (n = r.tenant → t.ctxs = s.ctxs) ∧
        (n ≠ r.tenant → ∀ q ∈ s.quires, q.part = p → lTenant q.letter = r.tenant → q.st ≠ .saved → ∀ c ∈ q.members,
          (s.ctx c).quire = q.id → (s.ctx c).st ≠ .empty → (s.ctx c).st ≠ .retired → (s.ctx c).st ≠ .dormant →
          (s.ctx c).stop = none → t.ctx c = { s.ctx c with stop := some ⟨s.now c, false⟩ })) ∧
    (∀ c, (s.ctx c).st = .ready → 64 ≤ (s.ctx c).age → ∃ t, exec (.ageCountExpiry c) s = .next t ∧ OnlyCtx s t c ∧
      t.cur = s.cur ∧ t.ctx c = { s.ctx c with aged := true })

/-! The governor. -/

/-- A tick applies the contracts that wait for it, before it decides anything (R104, R105), and begins a new window (R111). An
over-demanded instance of an enabled partition narrows the user of the lowest RANK, RUNG and number above its floor by one rung, once
however many instances choose it, which its contexts count with the lowest class (R82, R115); no other owner narrows, and one that
widens stands below its ceiling (R116): each record having its own partition, and no owner uses the instances of two.
A column at TLIM or above whose users all stand at their floor steps down and raises vector 50 (R119); a column that was cool for
16 ticks steps up and raises it too (R119, R317); the budget arbiter gives every column its share (R321). No byte of memory and no
register changes. -/
def Obligations.Governing : Prop :=
  (∀ o : Owner, (o.applyPend).pendHdr = none ∧ (o.applyPend).pendLat = [] ∧
    (∀ i, (∀ e ∈ o.pendLat, e.1 ≠ i) → tget 0 (o.applyPend).lat i = tget 0 o.lat i) ∧
    (∀ l i v, o.pendLat = l ++ [(i, v)] → tget 0 (o.applyPend).lat i = v) ∧
    (o.pendHdr = none → (o.applyPend).hdr = o.hdr ∧ (o.applyPend).masks = o.masks) ∧
    ∀ h, o.pendHdr = some h →
      (let r := if hValid o.hdr = false ∨ hLadder o.hdr ≠ hLadder h then hCeil h
         else if hRung o.hdr < hCeil h then hCeil h else if hFloor h < hRung o.hdr then hFloor h else hRung o.hdr
       (o.applyPend).hdr.toNat = (h.toNat &&& 0x878000000000FF80) + 32 * r) ∧
      (hValid o.hdr = false → hValid h = true → ∀ sl, tget 0xFFFF (o.applyPend).masks sl = 0xFFFF) ∧
      (hValid o.hdr = true → (o.applyPend).masks = o.masks)) ∧
  (∀ (s : State), s.cycle % 256 = 0 → ∃ t, exec .governorTick s = .next t ∧
    t = { s with owners := t.owners, quiet := t.quiet, calls := t.calls, cols := t.cols, demand := [], users := [], pkg := t.pkg,
                 ctxs := t.ctxs } ∧
    t.calls.map (fun k => { k with exhaust := false }) = s.calls.map (fun k => { k with exhaust := false }) ∧
    (∀ o, (t.owner o).pendHdr = none ∧ (t.owner o).pendLat = [] ∧ (t.owner o).lat = (s.owner o).applyPend.lat ∧
      (t.owner o).masks = (s.owner o).applyPend.masks ∧
      (t.owner o).was = if hRung (t.owner o).hdr = hRung (s.owner o).hdr then (s.owner o).was
        else some (s.cycle, hRung (s.owner o).hdr)) ∧
    (∀ c, c < 32 →
      let x := s.col c
      let hot := (s.pkg.tlim : Int) ≤ max x.t0 x.t1
      let down := hot ∧ 4 < x.q ∧ ∀ o, o < 256 → Used s (4, c) o → hFloor (ticked s o) ≤ hRung (ticked s o)
      let cool := if max x.t0 x.t1 + 300 ≤ (s.pkg.tlim : Int) then min (x.cool + 1) 16 else 0
      (down → t.col c = { x with q := x.q - 1, since := 0, cool := cool, d16 := x.d16 + s.energy c } ∧ 50 ∈ t.pkg.raised) ∧
      (¬ down → t.col c = { x with since := min (x.since + 1) 16, cool := cool, d16 := x.d16 + s.energy c })) ∧
    (∀ c, ∃ n l, t.ctx c = { s.ctx c with narrows := n, lastres := l }) ∧
    ((s.parts.map Prod.fst).Nodup → (∀ p q x y o, p ≠ q → (s.part p).en = true → (s.part q).en = true → x ∈ (s.part p).instances →
        y ∈ (s.part q).instances → Used s x o → ¬ Used s y o) →
      let heavy := fun x => ∃ p, (s.part p).en = true ∧ x ∈ (s.part p).instances ∧ s.isOver p x = true
      let cut := fun o => ∃ x, heavy x ∧ Narrows s x o
      (∀ o, cut o → hRung (t.owner o).hdr = hRung (ticked s o) + 1) ∧
      (∀ o, ¬ cut o → hRung (t.owner o).hdr = hRung (ticked s o) ∨
        (hCeil (ticked s o) < hRung (ticked s o) ∧ hRung (t.owner o).hdr + 1 = hRung (ticked s o))) ∧
      (∀ c, ¬ cut (s.ctx c).owner ∨ (s.ctx c).st = .empty → t.ctx c = s.ctx c) ∧
      ∀ c, cut (s.ctx c).owner → (s.ctx c).st ≠ .empty → (t.ctx c).narrows = min ((s.ctx c).narrows + 1) 65535 ∧
        (∃ x, heavy x ∧ Narrows s x (s.ctx c).owner ∧ (t.ctx c).lastres = x.1) ∧
        ∀ x, heavy x → Narrows s x (s.ctx c).owner → (t.ctx c).lastres ≤ x.1)) ∧
  (∀ (s : State) (p : Nat) (x : Nat × Nat),
    let g := (s.part p).govload.toNat
    let d := if x.1 = 4 then s.energy x.2 else tget 0 s.demand (1024 * x.1 + x.2)
    let n := 256 * d + (if g.testBit 63 = true ∧ bits g 62 60 = x.1 ∧ bits g 49 40 = x.2 then g % 65536 * s.supply x else 0)
    s.isOver p x = true ↔ 256 * s.supply x < n ∨ (x.1 = 4 ∧ (s.pkg.tlim : Int) ≤ max (s.col x.2).t0 (s.col x.2).t1)) ∧
  (∀ (s : State) (c : Nat), s.cycle % 256 = 0 → (s.col c).q < 8 → 16 ≤ (s.col c).cool → 16 ≤ (s.col c).since → ∃ t,
    exec (.columnStepUp c) s = .next t ∧ t = { s with cols := t.cols, pkg := t.pkg } ∧
      t.col c = { s.col c with q := (s.col c).q + 1, since := 0 } ∧ (∀ d, d ≠ c → t.col d = s.col d) ∧ 50 ∈ t.pkg.raised) ∧
  (∀ (s : State), s.cycle % 4096 = 0 → ∃ t e, exec .budgetArbiter s = .next t ∧ t = { s with cols := t.cols, fresh := s.fresh + 1 } ∧
    e = (1000 * s.pkg.pbudget - Config.nonArrayWatts s.fresh) * 256 / 1400 ∧
    ∀ c, c < 32 → t.col c = { s.col c with
      d16 := 0,
      share := e / 64 + (if sumN ((List.range 32).map fun n => (s.col n).d16) = 0 then (e - 32 * (e / 64)) / 32
        else (e - 32 * (e / 64)) * (s.col c).d16 / sumN ((List.range 32).map fun n => (s.col n).d16)) })

/-! Events of engines. -/

/-- A marker at the head of its queue whose earlier stores are performed at its scope, and that waits for nothing else, leaves both
queues and its token completes (R152). A position of a slot wheel goes to the context that ranks first among those whose next
bundle waits for it and whose access would be performed at it, to none while an access that names it is queued (log 88) or when no
position is current (R153). An arrival starts a DORMANT handler at its letter's entry
with its argument, length and sender (R65). An allocator serves its head where there is room: the tile stands in the tables of
its holders, and one whose handle is taken fails (R123 to R126, R265). A switch writes a word back to its home (R160). A set-aside
SMOPEN goes to the head once no session is open (R287). A parcel that waited 2^24 cycles is dropped and its destination fails with
0x0708 (R375). A delivery's verdict ends it, a bad one failing its destination (R372). A unit's waiting head is served once a
store entry is free (R280). -/
def Obligations.EngineEvents : Prop :=
  ∀ (s : State),
    (∀ c m l, (s.ctx c).loadQ = m :: l → isMark m.op = true →
      (∀ e ∈ (s.ctx c).storeQ.takeWhile (fun e => !(e.id = m.id)), markScope m.op < 3 ∧ markScope m.op + 1 ≤ e.reach) →
      (∀ i ∈ (s.ctx c).readFrom, ∀ x ∈ s.ctxs, ∀ e ∈ x.2.storeQ, e.id = i → markScope m.op < 3 ∧ markScope m.op + 1 ≤ e.reach) →
      (∀ k, m.tok = some k → s.prodBusy c k = false ∧ s.prodFail c k = none) → (∀ k ∈ s.calls, k.ctx = c → k.id < m.id → k.reading = false) → ∃ t,
      exec (.markerComplete c) s = .next t ∧ OnlyCtx s t c ∧
      t.cur = s.cur ∧ (t.ctx c).loadQ = (s.ctx c).loadQ.filter (fun e => !(e.id = m.id)) ∧
      (t.ctx c).storeQ = (s.ctx c).storeQ.filter (fun e => !(e.id = m.id)) ∧
      (∀ n, markOut m.op = some n → ((s.ctx c).token n).prod = m.id → ((t.ctx c).token n).pending = false) ∧
      (∀ n, markOut m.op ≠ some n → (t.ctx c).token n = (s.ctx c).token n) ∧
      ∀ cls n, (t.ctx c).reg cls n = (s.ctx c).reg cls n) ∧
    (∀ n, ∃ t, exec (.slotWheelPosition n) s = .next t ∧ (∀ m, m ≠ n → t.core m = s.core m) ∧
      t = { s with cores := t.cores,
                   pkg := { s.pkg with snoops := t.pkg.snoops, swWant := t.pkg.swWant, atsReq := t.pkg.atsReq } } ∧
      t.core n = { s.core n with scTurn := (t.core n).scTurn } ∧
      ((∀ j, (s.core n).position j ≠ some (s.cycle % 512)) → t = s) ∧
      (s.scQueued n = true ∨ (∀ c, coreOf c = n → s.takesTurn n c = false) → t.core n = s.core n) ∧
      ((∃ c, coreOf c = n ∧ s.takesTurn n c = true) → s.scQueued n = false → ∃ d, coreOf d = n ∧ s.takesTurn n d = true ∧
        (∀ c, coreOf c = n → s.takesTurn n c = true → c = d ∨ s.ranks d c = true) ∧
        t = { s with cores := t.cores } ∧ (t.core n).scTurn = some (d, s.cycle)) ∧
      ∀ c x h size b o f j l g r, coreOf c = n → s.fetchBundle c = .bundle h size b → x = (s.ctx c).resumed (s.now c) → o ∈ b.ops →
        isHint o.2 = false → formOf o.2 = some f → scIndex o.2 = some j → (⟨c, curOf c h size b x, o.2, f, x⟩ : Run).sup = false →
        (s.core n).position j = some (s.cycle % 512) → (s.withTurn n c).look c = .ready l g r →
        (∀ y ∈ s.scOps n c, (s.withTurn n c).scStays y = false) → s.takesTurn n c = true) ∧
    (∀ c a l q, (s.ctx c).arrivals = a :: l → (s.ctx c).st = .dormant → (s.ctx c).dismissed = false →
      s.quire (s.ctx c).quire = some q → s.pkg.armed = none → ∃ t, exec (.handlerArrival c) s = .next t ∧ (t.ctx c).arrivals = l ∧
      (t.ctx c).pc = lEntry q.letter ∧ (t.ctx c).reg .s 1 = a.arg % 2 ^ 64 ∧ (t.ctx c).reg .s 2 = a.len % 2 ^ 64 ∧
      (t.ctx c).reg .s 3 = a.sender % 2 ^ 64 ∧ (∀ n, 3 < n → (t.ctx c).reg .s n = 0) ∧
      ((t.ctx c).st = .ready ∨ ((t.ctx c).st = .frozen ∧ ∃ r m b, (t.ctx c).frz.fault = some (r, m, b) ∧ r.cls = 3)) ∧
      (t.ctx c).level = (if (s.ctx c).part = 0 then .H else match s.walkOwn (s.ctx c).part (s.ctx c).tenant (lEntry q.letter) with
        | .ok t => if t.user = true then .U else .S
        | _ => .U) ∧ ∀ d, d ≠ c → t.ctx d = s.ctx d) ∧
    (∀ n id rest e cols es lv m mf owner, s.allocQ n = id :: rest → s.cmd id = some e → e.acted = false →
      e.imm.toNat = cols + es * 2 ^ 14 + lv * 2 ^ 16 + m * 2 ^ 18 + mf * 2 ^ 24 → 1 ≤ cols → cols < 2 ^ 14 → es < 4 → lv < 3 →
      ((mf = 0 ∧ m = 0 ∧ owner = e.ctx) ∨ (mf = 1 ∧ lv = 1 ∧ m < 64 ∧ m < (s.ctx e.ctx).members ∧
        ∃ q, s.quire e.quire = some q ∧ q.members[m]? = some owner)) → 1 ≤ e.opb → e.opb < 2 ^ 20 → s.zeroing = [] →
      let x := s.ctx e.ctx
      let b : Tile := { id := e.id, level := if lv = 0 then .LOCAL else if lv = 1 then .QUIRE else .BASE, core := coreOf owner,
                        stack := stackOf e.ctx, part := x.part, quire := e.quire, member := if mf = 1 then m else if lv = 1 then x.member else 0,
                        esize := 2 ^ es, cols := cols, rows := e.opb, place := [], bytes := [], poison := [], freed := false }
      let holds := fun (c : Nat) => (lv = 0 ∧ c = e.ctx) ∨
        (0 < lv ∧ ∃ q, s.quire e.quire = some q ∧ c ∈ q.members ∧ (s.ctx c).quire = q.id)
      (lv < 2 → b.space ≤ 2 * 2 ^ 20 ∧ s.coreUsed (coreOf owner) + b.space ≤ 2 * 2 ^ 20) →
      (lv = 2 → b.space ≤ 64 * 2 ^ 20 ∧ b.space ≤ s.baseFree x.part (stackOf e.ctx)) → (0 < lv → (s.quire e.quire).isSome = true) →
      ((∀ c, holds c → tget 0 (s.ctx c).tiles e.opa = 0) → ∃ t pl w, exec (.allocationServed n) s = .next t ∧
        t.tiles = s.tiles ++ [{ b with place := pl }] ∧
        (∀ c, holds c → t.ctx c = { s.ctx c with tiles := tset 0 (s.ctx c).tiles e.opa e.id }) ∧
        (∀ c, ¬ holds c → t.ctx c = s.ctx c) ∧ t.cmd id = some { e with begun := true, acted := true, fail := none, wait := w }) ∧
      ((∃ c, holds c ∧ tget 0 (s.ctx c).tiles e.opa ≠ 0) → ∃ t f r, exec (.allocationServed n) s = .next t ∧ t.tiles = s.tiles ∧
        t.ctxs = s.ctxs ∧ t.cmd id = some f ∧ f.acted = true ∧ f.fail = some r ∧ r.cls = 12 ∧ bits r.w0.toNat 47 41 = 7 ∧
        r.code = 0x0701)) ∧
    (∀ n w, s.pkg.switchWords[n]? = some w → ∃ t, exec (.switchWriteback n) s = .next t ∧
      t = { s with remote := t.remote, pkg := t.pkg } ∧ w ∉ t.pkg.switchWords ∧ (w.pkg, w.pa) ∉ t.pkg.swWant ∧
      (∀ a, a < remoteKey w.pkg w.pa ∨ remoteKey w.pkg w.pa + 8 ≤ a → t.remoteByte a = s.remoteByte a) ∧
      ∀ i, i < 8 → t.remoteByte (remoteKey w.pkg w.pa + i) = BitVec.ofNat 8 (w.word / 2 ^ (8 * i))) ∧
    (∀ n id l, (s.quad n).session = none → (s.quad n).aside = id :: l →
      (∀ i ∈ (s.quad n).smQ, ∀ e, s.cmd i = some e → e.held = false) → ∃ t, exec (.smopenSetAsideServed n) s = .next t ∧
      t = { s with quads := t.quads, cmds := t.cmds } ∧ t.quad n = { s.quad n with aside := l, smQ := id :: (s.quad n).smQ } ∧
      ∀ e, s.cmd id = some e → t.cmd id = some { e with held := true }) ∧
    (∀ p x l r, (s.part p).waiting = l ++ x :: r → (∀ y ∈ l, s.cycle < y.since + 2 ^ 24) → x.since + 2 ^ 24 ≤ s.cycle → ∃ t,
      exec (.parcelTimeout p) s = .next t ∧ (t.part p).waiting = (s.part p).waiting.filter (fun y => !(y = x)) ∧
      (t.part p).ring = (s.part p).ring ∧
      ∀ e, s.cmd x.cmd = some e → ∃ e', t.cmd x.cmd = some e' ∧ (∃ y ∈ e'.fails, y.1 = x.dest) ∧
        ((∀ y ∈ e.fails, y.1 ≠ x.dest) → e'.fails = e.fails ++ [(x.dest, 7, 0x0708)])) ∧
    (∀ id d good, findFirst (fun d => d.id = id) s.dlv = some d → d.wait ≤ s.cycle → ∃ t, exec (.deliveryCheck id good) s = .next t ∧
      t = { s with dlv := s.dlv.filter (fun x => !(x.id = id)), cmds := t.cmds } ∧
      ∀ e, s.cmd d.cmd = some e →
        let tile := isMcast e.op = true ∧ (e.dests.getD d.dest (0, 0)).1.testBit 63 = true
        (good = true → ¬ (tile ∧ Config.remoteTakes d.id = false) → t.cmds = s.cmds) ∧
        ((∀ y ∈ e.fails, y.1 ≠ d.dest) →
          (tile → Config.remoteTakes d.id = false →
            t.cmd d.cmd = some { e with fails := e.fails ++ [(d.dest, 7, 0x0706)] }) ∧
          (good = false → ¬ (tile ∧ Config.remoteTakes d.id = false) →
            t.cmd d.cmd = some { e with fails := e.fails ++ [(d.dest, 7, 0x0707)] }))) ∧
    (∀ n id l e, (s.quad n).tmQ = id :: l → s.cmd id = some e → e.held = true →
      e.needsEntry = false ∨ s.mapsUsed (colOf e.ctx) < 16 →
      exec (.mapStoreWaitServed n) s = .next ((s.updCmd id fun f => { f with held := false }).tmRun { e with held := false }))

/-! Errors. -/

/-- A corrected error is counted and starts the self-test of its unit, to end within the unit's limit in its own clock, and changes
nothing else (R379, R382). An uncorrectable one loses what Table 25.5 says, at the time it is detected (log 11): a clean line goes, with
nobody charged; a dirty one goes with its frame quarantined, and ends the contexts of its owner; a tag does so to its frame, and ends those
of the partition; a page is retired; a row is poisoned; an accumulator tile, a latch, a register or a snapshot ends the context it belongs
to, a microprogram store the contexts with calls there; a shape and a TLB entry are freed, a map is lost, a session is broken; and its
unit is tested too, a page's within 56,000 cycles (log 76), one without a number of Table 25.8 as well (log 90). A verdict ends a test (R382, R383): a TRANSIENT one returns its frame,
or the page a SELFTST asked for, to service, a LASTING one keeps it out, and its core too; the partition of the record is told, and a
SELFTST goes on. The loss of a switch loses the words it held, poisons their lines, fails the updates in flight to it and
tells the partitions whose lanes pass through it (R377). -/
def Obligations.ErrorsAndTests : Prop :=
  ∀ (s : State),
    (∀ d l, unitKnown d.toNat = true → s.pkg.armed = none →
      let u := unitD d.toNat
      ∃ t x, exec (.errorStrike d false l) s = .next t ∧
        t = { (if s.unitPart u = 15 then s else s.count (s.unitPart u) 2) with tests := t.tests, fresh := t.fresh } ∧
        t.tests = s.tests ++ [x] ∧ x.desc = d ∧ x.ctx = none ∧ s.testNow u < x.ends ∧
        x.ends ≤ s.testNow u + (if u.struct = 2 then 56000 else 2048) ∧ bits x.w0.toNat 63 48 = 1 ∧
        bits x.w0.toNat 43 42 = (if l = true then 2 else 1) ∧ bits x.w0.toNat 15 12 = s.unitPart u % 16) ∧
    (∀ d l, unitKnown d.toNat = true → s.pkg.armed = none →
      let u := unitD d.toNat
      let way := tget none (s.l2set (64 * u.unit + bits u.loc 9 4)).ways (u.loc % 16)
      ∃ t x, exec (.errorStrike d true l) s = .next t ∧ t.tests = s.tests ++ [x] ∧ x.desc = d ∧ x.ctx = none ∧ s.testNow u < x.ends ∧
        bits x.w0.toNat 43 42 = (if l = true then 2 else 1) ∧ bits x.w0.toNat 15 12 = s.unitPart u % 16 ∧
        (∀ c cls n, (t.ctx c).reg cls n = (s.ctx c).reg cls n) ∧
        (∀ w, u.struct = 0 → way = some w → w.gen = (s.part (s.unitPart u)).l2gen → w.dirty = true → ∀ e ∈ s.ctxs,
          (s.ctx e.1).part = s.unitPart u → (s.ctx e.1).owner = w.owner → e.2 = s.ctx e.1 → Charged s t e.1) ∧
        (∀ w, u.struct = 0 → way = some w → w.gen = (s.part (s.unitPart u)).l2gen → w.dirty = true →
          (if paHost (128 * w.line) = true then w.line ∈ t.pkg.poison else pageOf (128 * w.line) ∈ t.pkg.tBits)) ∧
        (∀ w, u.struct = 0 → way = some w → w.gen = (s.part (s.unitPart u)).l2gen → w.dirty = true →
          tget none (t.l2set (64 * u.unit + bits u.loc 9 4)).ways (u.loc % 16) = none ∧
          u.loc % 16 ∈ (t.l2set (64 * u.unit + bits u.loc 9 4)).quar) ∧
        (∀ w, u.struct = 0 → way = some w → w.gen = (s.part (s.unitPart u)).l2gen → w.dirty = false →
          (∀ e ∈ s.parts, e.2.tables = []) →
          tget none (t.l2set (64 * u.unit + bits u.loc 9 4)).ways (u.loc % 16) = none ∧
          (t.l2set (64 * u.unit + bits u.loc 9 4)).quar = (s.l2set (64 * u.unit + bits u.loc 9 4)).quar ∧
          t.pkg.tBits = s.pkg.tBits ∧ t.pkg.poison = s.pkg.poison ∧ ∀ c, t.ctx c = s.ctx c) ∧
        (u.struct = 1 → tget none (t.l2set (64 * u.unit + bits u.loc 9 4)).ways (u.loc % 16) = none ∧
          u.loc % 16 ∈ (t.l2set (64 * u.unit + bits u.loc 9 4)).quar) ∧
        (u.struct = 1 → ∀ e ∈ s.ctxs, e.2 = s.ctx e.1 → (s.ctx e.1).part = s.unitPart u → Charged s t e.1) ∧
        (u.struct = 2 → pageOf (128 * u.loc) ∈ t.pkg.tBits) ∧
        (∀ b y off, u.struct = (if b = true then 4 else 3) → s.tileAt b u.unit u.loc = some (y, off) →
          ∀ z, s.tile y.id = some z → ∃ z', t.tile y.id = some z' ∧ off / z.pitch ∈ z'.poison ∧ z'.bytes = z.bytes) ∧
        (∀ c, u.struct = 7 → (tget {} (s.core u.unit).accs u.loc).holder = some c → Charged s t c) ∧
        (∀ c, u.struct = 8 → (tget {} (s.core u.unit).lats u.loc).holder = some c → Charged s t c) ∧
        (u.struct = 9 → (t.core u.unit).store = [] ∧ (t.core u.unit).routs = [] ∧
          ∀ k ∈ s.calls, coreOf k.ctx = u.unit → Charged s t k.ctx) ∧
        (u.struct = 10 → tget none (t.stack u.unit).shapes u.loc = none) ∧
        (u.struct = 11 → (t.stack u.unit).tlb = (s.stack u.unit).tlb.eraseIdx u.loc) ∧
        (∀ c m, u.struct = 12 → s.mapAt u.unit u.loc = some (c, m) → tget .empty (t.ctx c).maps m = .lost) ∧
        (∀ z, u.struct = 13 → (s.quad u.unit).session = some z → (t.quad u.unit).session = some { z with broken := true }) ∧
        (u.struct = 5 ∨ u.struct = 6 ∨ u.struct = 14 → Charged s t (4 * u.unit + bits u.loc 17 16))) ∧
    (∀ n x, s.tests[n]? = some x → x.ends ≤ s.testNow (unitD x.desc.toNat) →
      let u := unitD x.desc.toNat
      let p := bits x.w0.toNat 15 12
      let key := 64 * u.unit + bits u.loc 9 4
      let good := bits x.w0.toNat 43 42 = 1
      ∃ t, exec (.selfTestVerdict n) s = .next t ∧ t.tests = s.tests.eraseIdx n ∧ Told t (if p = 15 then 48 else 4 * p + 2) ∧
        (∀ c, x.ctx = some c → (t.ctx c).block ≠ .selftst x.desc) ∧
        (∀ c cls m, (t.ctx c).reg cls m = (s.ctx c).reg cls m) ∧
        (good → u.struct ≤ 1 → u.loc % 16 ∉ (s.l2set key).lasting → u.loc % 16 ∉ (t.l2set key).quar) ∧
        (good → u.struct ≤ 1 → u.loc % 16 ∈ (s.l2set key).lasting → (t.l2set key).quar = (s.l2set key).quar) ∧
        (good → u.struct = 2 → x.ctx.isSome = true → pageOf (128 * u.loc) ∉ s.pkg.lastPages → s.guardOf (128 * u.loc) = none →
          pageOf (128 * u.loc) ∉ t.pkg.tBits) ∧
        (¬ good → u.struct ≤ 1 → (t.l2set key).quar = (s.l2set key).quar ∧
          (u.loc % 16 ∈ (s.l2set key).quar → u.loc % 16 ∈ (t.l2set key).lasting)) ∧
        (¬ good → u.struct = 2 → pageOf (128 * u.loc) ∈ t.pkg.lastPages ∧ t.pkg.tBits = s.pkg.tBits) ∧
        (¬ good → u.inCore = true → (t.core u.unit).lasting = true)) ∧
    (∀ n, ∃ t, exec (.switchFailure n) s = .next t ∧ (∀ m ∈ t.pkg.marks, m.2 ≠ n) ∧ (∀ w ∈ t.pkg.switchWords, w.switch ≠ n) ∧
      tget 0 t.pkg.lost n = 0 ∧
      (s.pkg.hflogNpg = 0 → ∀ m ∈ s.pkg.marks, m.2 = n → m.1 / 16 ∈ t.pkg.poison) ∧
      (∀ p, (∃ e ∈ s.parts, e.1 = p ∧ e.2.through n = true) → Told t (4 * p + 2)) ∧
      ∀ id e d, s.cmd id = some e → isMcast e.op = false → e.begun = true → d ∈ e.dests → Config.switchOf d.1 = n →
        ∃ f r, t.cmd id = some f ∧ f.fail = some r ∧ r.cls = 12 ∧ r.code = 0x070F)

/-! Outside the machine. -/

/-- TDISP (R309, R310, R378): a lock needs link IDE and an enabled, unlocked partition; it takes the digest and protects the pages of
the second-stage tables; RUN follows LOCKED; an error freezes every context of the partition and raises vector 49; an unlock returns
to CONFIG_UNLOCKED and protects nothing, and from ERROR every context of the partition begins to end, its quires broken with no
record (log 72), and the L2 generation advances. The loss of IDE is an error of every locked TDI. An SPDM request is answered, signed, under
vector 49: the ROM always, the firmware and the partitions once it runs, any other index with an error response (R305, R310, R317, R324); IDE
keys establish link IDE in one act (log 69). A
staged image waits for the next reset, and none is taken after a failed boot (R324). -/
def Obligations.SecurityEvents : Prop :=
  ∀ (s : State),
    (∀ p, s.pkg.ide = true → (s.part p).en = true → (s.part p).tdi = .unlocked → ∃ t d l, exec (.tdispLock p) s = .next t ∧
      t = { s with parts := t.parts } ∧ t.part p = { s.part p with tdi := .locked, digest := some d, tables := l } ∧
      (s.part p).ssbase ∈ l ∧ (∀ i, i < 32 →
        let e := s.peekWord p ((s.part p).ssbase * 65536 + 8 * i)
        e.testBit 63 = true → e.testBit 62 = false → s.bad2 p 0 e = false → bits e 51 16 ∈ l) ∧ ∀ q, q ≠ p → t.part q = s.part q) ∧
    (∀ p, s.pkg.ide = false ∨ (s.part p).en = false ∨ (s.part p).tdi ≠ .unlocked → exec (.tdispLock p) s = .next s) ∧
    (∀ p, (s.part p).tdi = .locked → ∃ t, exec (.tdispRun p) s = .next t ∧ t = { s with parts := t.parts } ∧
      t.part p = { s.part p with tdi := .run } ∧ ∀ q, q ≠ p → t.part q = s.part q) ∧
    (∀ p, (s.part p).tdi = .locked ∨ (s.part p).tdi = .run → ∃ t, exec (.tdiError p) s = .next t ∧
      t = { s with parts := t.parts, ctxs := t.ctxs, pkg := t.pkg } ∧ t.part p = { s.part p with tdi := .error } ∧
      (∀ q, q ≠ p → t.part q = s.part q) ∧ 49 ∈ t.pkg.raised ∧
      (∀ c, (s.ctx c).part ≠ p ∨ (s.ctx c).st = .empty → t.ctx c = s.ctx c) ∧
      ∀ c, (s.ctx c).part = p → (s.ctx c).st ≠ .empty →
        t.ctx c = { s.ctx c with st := .frozen, frz := { (s.ctx c).frz with tdi := true } }) ∧
    (∀ p, (s.part p).tdi = .locked ∨ (s.part p).tdi = .run → ∃ t, exec (.tdispUnlock p) s = .next t ∧ t = { s with parts := t.parts } ∧
      t.part p = { s.part p with tdi := .unlocked, digest := none, tables := [] } ∧ ∀ q, q ≠ p → t.part q = s.part q) ∧
    (∀ p, (s.part p).tdi = .error → ∃ t, exec (.tdispUnlock p) s = .next t ∧ (t.part p).tdi = .unlocked ∧ (t.part p).digest = none ∧
      (t.part p).tables = [] ∧ ((s.part p).l2gen + 1 < 2 ^ 16 → (t.part p).l2gen = (s.part p).l2gen + 1) ∧
      (∀ q ∈ t.quires, q.part = p → q.recorded = true ∧ q.broken = true) ∧
      (∀ c, (s.ctx c).part ≠ p ∨ (s.ctx c).st = .empty → t.ctx c = s.ctx c) ∧
      ∀ c, (s.ctx c).part = p → (s.ctx c).st ≠ .empty → (t.ctx c).dying.isSome = true ∧ (t.ctx c).frz.tdi = false ∧
        ∀ cls n, (t.ctx c).reg cls n = (s.ctx c).reg cls n) ∧
    (∃ t, exec .ideLoss s = .next t ∧ t.pkg.ide = false ∧ ∀ p, (t.part p).tdi ≠ .locked ∧ (t.part p).tdi ≠ .run ∧
      ((s.part p).tdi = .locked ∨ (s.part p).tdi = .run → (t.part p).tdi = .error ∧ 49 ∈ t.pkg.raised ∧
        ∀ c, (s.ctx c).part = p → (s.ctx c).st ≠ .empty → (t.ctx c).st = .frozen ∧ (t.ctx c).frz.tdi = true)) ∧
    (∀ i, ∃ t a, exec (.spdmRequest (.measure i)) s = .next t ∧ t = { s with pkg := t.pkg, fresh := s.fresh + 1 } ∧
      t.pkg.doe = s.pkg.doe ++ [a] ∧ 49 ∈ t.pkg.raised ∧
      (i = 1 → a = some (Config.signed Config.romDigest s.fresh)) ∧
      (i ≠ 1 → s.pkg.boot ≠ .running → a = none) ∧
      (s.pkg.boot = .running →
        (i = 2 → a = some (Config.signed (Config.digest (match s.pkg.flash with | some f => f.1 | none => [])) s.fresh)) ∧
        (∀ p, p < 12 → i = 16 + p → a = some (Config.signed (match (s.part p).digest with | some d => d | none => 0) s.fresh)) ∧
        (i ≠ 1 → i ≠ 2 → i < 16 ∨ 28 ≤ i → a = none))) ∧
    (∃ t, exec (.spdmRequest .ideKeys) s = .next t ∧ t = { s with pkg := t.pkg, fresh := s.fresh + 1 } ∧ 49 ∈ t.pkg.raised ∧
      (s.pkg.boot = .running → t.pkg.ide = true ∧ t.pkg.doe = s.pkg.doe ++ [some (Config.signed 0 s.fresh)]) ∧
      (s.pkg.boot ≠ .running → t.pkg.ide = s.pkg.ide ∧ t.pkg.doe = s.pkg.doe ++ [none])) ∧
    (∀ img v key sig up,
      (s.pkg.boot = .running ∨ s.pkg.boot = .booting → exec (.firmwareStage img v key sig up) s =
        .next { s with pkg := { s.pkg with staged := some (img, v, key, sig, up) } }) ∧
      (s.pkg.boot = .recovery ∨ s.pkg.boot = .selfTest → exec (.firmwareStage img v key sig up) s = .next s))

/-- The management window (R303, R311, R321): any access that is not 8 aligned bytes sets BADACC, and a read of it is ones; DEVSTAT's
bits are cleared by ones; nothing else is taken while the device boots (R324); the power budget holds within 400 to 1,600; an MSI-X
word is written, and a vector it unmasks is pending no more (log 65); a record's word is written by its fields, but a locked field sets LOCKWR
and moves the TDI to ERROR (R309). The letterbox reads as zero (R43). An HDM range is taken for an enabled unlocked partition within
its memory (R306), and refused else (log 68). A host access to device memory goes through its home line (R304, R306): a read keeps the lines in the host and
gets poison from a TDI in ERROR, a retired page or a poisoned line (R377, R378, R381), a write of a protected page is an error of the
TDI (R309), one of a TDI in ERROR is discarded (R378), and either waits for a switch (R160). A snoop of a line writes a dirty one back, and drops it when asked (R308). The host's
answers to back-invalidations (R307) and to ATS (R312) are taken once. -/
def Obligations.HostAccesses : Prop :=
  ∀ (s : State),
    (∀ d : BitVec 64, s.pkg.boot ≠ .booting → 400 ≤ d.toNat % 65536 → d.toNat % 65536 ≤ 1600 → exec (.pbudgetWrite d) s =
      .next { s with pkg := { s.pkg with pbudget := d.toNat % 65536 } }) ∧
    (∀ d : BitVec 64, s.pkg.boot = .booting ∨ d.toNat % 65536 < 400 ∨ 1600 < d.toNat % 65536 → exec (.pbudgetWrite d) s = .next s) ∧
    (∀ p w (d : BitVec 64), s.pkg.boot ≠ .booting → p < 12 → w < 32 → (s.part p).tdi = .unlocked ∨ w < 2 ∨ 7 < w → ∃ t,
      exec (.partitionRecordWrite p w d) s = .next t ∧ t = { s with parts := t.parts } ∧ t.part p = (s.part p).writeWord w d.toNat ∧
      ∀ q, q ≠ p → t.part q = s.part q) ∧
    (∀ (x : Part) (v : Nat), x.writeWord 2 v = { x with ssbase := bits v 51 16 } ∧ x.writeWord 3 v = { x with meta_ := bits v 46 16 } ∧
      x.writeWord 4 v = { x with prbase := bits v 46 16 } ∧ x.writeWord 5 v = { x with prsize := v % 2 ^ 32 } ∧
      x.writeWord 6 v = { x with podjob := v % 2 ^ 16 } ∧
      x.writeWord 7 v = { x with sealtab := bits v 46 16, nseal := v % 128 } ∧
      (∀ n, n < 8 → x.writeWord (8 + 2 * n) v =
        { x with tenants := tset {} x.tenants n { tget {} x.tenants n with tbase := bits v 51 16 } }) ∧
      ∀ w, w < 2 ∨ 24 ≤ w ∨ (8 ≤ w ∧ w % 2 = 1) → x.writeWord w v = x) ∧
    (∀ p w (d : BitVec 64), s.pkg.boot ≠ .booting → p < 12 → 2 ≤ w → w ≤ 7 → (s.part p).tdi = .locked ∨ (s.part p).tdi = .run → ∃ t,
      exec (.partitionRecordWrite p w d) s = .next t ∧ t.pkg.lockwr = true ∧ t.part p = { s.part p with tdi := .error } ∧
      49 ∈ t.pkg.raised ∧ ∀ c, (s.ctx c).part = p → (s.ctx c).st ≠ .empty → (t.ctx c).st = .frozen ∧ (t.ctx c).frz.tdi = true) ∧
    (∀ off len (d : BitVec 64), len ≠ 8 ∨ off % 8 ≠ 0 → exec (.bar0Write off len d) s =
      .next { s with pkg := { s.pkg with badacc := true } }) ∧
    (∀ d : BitVec 64, exec (.bar0Write 0 8 d) s = .next { s with pkg := { s.pkg with
      badacc := s.pkg.badacc && !d.getLsbD 7, lockwr := s.pkg.lockwr && !d.getLsbD 6 } }) ∧
    (∀ off (d : BitVec 64), off % 8 = 0 → 0 < off →
      (s.pkg.boot = .booting → exec (.bar0Write off 8 d) s = .next s) ∧
      (off = 0x10 → exec (.bar0Write off 8 d) s = exec (.pbudgetWrite d) s) ∧
      (s.pkg.boot ≠ .booting → ∀ p w, p < 12 → w < 32 → off = 0x10000 + 256 * p + 8 * w →
        exec (.bar0Write off 8 d) s = exec (.partitionRecordWrite p w d) s) ∧
      (off ≠ 0x10 → off < 0x8000 ∨ (0x8400 ≤ off ∧ off < 0x10000) ∨ 0x10C00 ≤ off → exec (.bar0Write off 8 d) s = .next s)) ∧
    (∀ i (d : BitVec 64), i < 128 → s.pkg.boot ≠ .booting → ∃ t, exec (.bar0Write (0x8000 + 8 * i) 8 d) s = .next t ∧
      t = { s with pkg := t.pkg } ∧ t.pkg = { s.pkg with msixTab := t.pkg.msixTab, pending := t.pkg.pending } ∧
      tget 0 t.pkg.msixTab i = d ∧ (∀ j, j ≠ i → tget 0 t.pkg.msixTab j = tget 0 s.pkg.msixTab j) ∧
      (∀ v, v ≠ i / 2 ∨ (tget 0 t.pkg.msixTab (2 * v + 1)).getLsbD 32 = true → t.pkg.pending.testBit v = s.pkg.pending.testBit v) ∧
      ((tget 0 t.pkg.msixTab (2 * (i / 2) + 1)).getLsbD 32 = false → t.pkg.pending.testBit (i / 2) = false)) ∧
    (∀ off len, (s.bar2Read off len).2 = 0 ∧
      (len ≠ 8 ∨ off % 8 ≠ 0 → s.bar0Read off len = ({ s with pkg := { s.pkg with badacc := true } }, 2 ^ (8 * len) - 1))) ∧
    ((s.bar0Read 0 8).2 = (if s.pkg.badacc = true then 128 else 0) + (if s.pkg.lockwr = true then 64 else 0) + 16 * s.pkg.boot.num ∧
      (s.bar0Read 8 8).2 = s.pkg.pkgid ∧ (s.pkg.boot ≠ .booting → (s.bar0Read 0x10 8).2 = s.pkg.pbudget) ∧
      (s.pkg.boot = .booting → ∀ off, off % 8 = 0 → 8 < off → (s.bar0Read off 8).2 = 0)) ∧
    (∀ p b n, (s.part p).en = true → (s.part p).tdi = .unlocked → n ≤ (s.part p).chans.length * chanBytes → ∃ t,
      exec (.hdmDecoderCommit p b n) s = .next t ∧ t = { s with parts := t.parts } ∧ t.part p = { s.part p with hdm := some (b, n) } ∧
      ∀ q, q ≠ p → t.part q = s.part q) ∧
    (∀ p b n, (s.part p).en = false ∨ (s.part p).tdi ≠ .unlocked ∨ (s.part p).chans.length * chanBytes < n →
      exec (.hdmDecoderCommit p b n) s = .next s) ∧
    (∀ hpa p pa, s.hdmOf hpa = some (p, pa) → ∃ x b n, (p, x) ∈ s.parts ∧ x.hdm = some (b, n) ∧ b ≤ hpa ∧ hpa < b + n ∧
      pa = p * 2 ^ 47 + (hpa - b)) ∧
    (∀ hpa n p pa, s.hdmOf hpa = some (p, pa) → s.pkg.marks = [] → s.tests = [] → s.pkg.armed = none → ∃ t,
      exec (.hostMemRead hpa n) s = .next t ∧ t = { s with fresh := s.fresh + n, pkg := t.pkg } ∧ t.pkg.answer.length = n ∧
      (∀ i, i < n → (pa + i) / 128 ∈ t.pkg.hostHas) ∧
      ∀ i, i < n → (s.memKey (pa + i)).isSome = true →
        ((s.part p).tdi = .error ∨ pageOf (pa + i) ∈ s.pkg.tBits → t.pkg.answer[i]? = some none) ∧
        ((s.part p).tdi ≠ .error → s.pkg.tBits = [] → s.pkg.cBits = [] → s.pkg.poison = [] → (s.part p).slices = [] →
          t.pkg.answer[i]? = some (some (s.rawByte (pa + i))))) ∧
    (∀ hpa n p pa, s.hdmOf hpa = some (p, pa) → s.marked pa n = true →
      exec (.hostMemRead hpa n) s = .next { s with inputs := (s.cycle + 1, .hostMemRead hpa n) :: s.inputs }) ∧
    (∀ hpa n, s.hdmOf hpa = none → exec (.hostMemRead hpa n) s = .next s) ∧
    (∀ hpa d p pa, s.hdmOf hpa = some (p, pa) →
      ((s.part p).tdi = .error → exec (.hostMemWrite hpa d) s = .next s) ∧
      ((s.part p).tdi ≠ .error → ∀ q, s.guardOf pa = some q → (s.part q).tdi ≠ .error → s.pkg.marks = [] → s.tests = [] → d ≠ [] →
        pa % 65536 + d.length ≤ 65536 → ∃ t, exec (.hostMemWrite hpa d) s = .next t ∧
        (t.part q).tdi = .error ∧ 49 ∈ t.pkg.raised ∧ ∀ a, t.rawByte a = s.rawByte a) ∧
      ((s.part p).tdi ≠ .error → s.guardOf pa = none → s.pkg.marks = [] → s.tests = [] → s.pkg.armed = none → s.pkg.tBits = [] →
        s.pkg.cBits = [] → (s.part p).slices = [] → pa % 128 + d.length ≤ 128 → (s.memKey pa).isSome = true → ∃ t,
          exec (.hostMemWrite hpa d) s = .next t ∧ (∀ i, i < d.length → t.rawByte (pa + i) = d.getD i 0) ∧
          (∀ a, (∀ i, i < d.length → s.memKey a ≠ s.memKey (pa + i)) → t.rawByte a = s.rawByte a) ∧ t.ctxs = s.ctxs)) ∧
    (∀ hpa d, s.hdmOf hpa = none → 2 ^ 51 + hpa + d.length ≤ 2 ^ 52 → ∃ t, exec (.hostMemWrite hpa d) s = .next t ∧
      ∀ i, i < d.length → t.rawByte (2 ^ 51 + hpa + i) = d.getD i 0) ∧
    (∀ line inv, s.l2 = [] → exec (.hostSnoop line inv) s = .next s) ∧
    (∀ line inv k x w y p, s.pkg.armed = none → s.l2 = [(k, x)] → x.ways = [(w, some y)] → y.line = 2 ^ 44 + line →
      (s.parts.find? fun e => e.2.slices.contains (k / 64)).map Prod.fst = some p → y.gen = (s.part p).l2gen → y.dirty = true →
      y.elide = false → ∃ t, exec (.hostSnoop line inv) s = .next t ∧
        (∀ i, i < 128 → t.rawByte (2 ^ 51 + 128 * line + i) = BitVec.ofNat 8 (y.data / 256 ^ i)) ∧
        (∀ a, (∀ i, i < 128 → s.memKey a ≠ some (2 ^ 51 + 128 * line + i)) → t.rawByte a = s.rawByte a) ∧
        tget none (t.l2set k).ways w = if inv = true then none else some { y with dirty := false }) ∧
    (∀ line r, s.pkg.snoops.contains line = false → exec (.backInvalidationResponse line r) s = .next s) ∧
    (∀ line, s.pkg.snoops.contains line = true → ∃ t, exec (.backInvalidationResponse line none) s = .next t ∧
      t = { s with pkg := { s.pkg with snoops := s.pkg.snoops.filter (· ≠ line), hostHas := s.pkg.hostHas.filter (· ≠ line) } }) ∧
    (∀ line d, s.pkg.snoops.contains line = true → (s.part (paPart (128 * line))).tdi = .error →
      exec (.backInvalidationResponse line (some d)) s = exec (.backInvalidationResponse line none) s) ∧
    (∀ line d q, s.pkg.snoops.contains line = true → d.length = 128 → (s.part (paPart (128 * line))).tdi ≠ .error →
      s.guardOf (128 * line) = some q → (s.part q).tdi ≠ .error → ∃ t,
        exec (.backInvalidationResponse line (some d)) s = .next t ∧ line ∉ t.pkg.snoops ∧ line ∉ t.pkg.hostHas ∧
        (t.part q).tdi = .error ∧ 49 ∈ t.pkg.raised ∧ ∀ a, t.rawByte a = s.rawByte a) ∧
    (∀ line d, s.pkg.snoops.contains line = true → d.length = 128 → s.pkg.armed = none → s.pkg.tBits = [] → s.pkg.cBits = [] →
      (s.part (paPart (128 * line))).tdi ≠ .error → s.guardOf (128 * line) = none →
      (s.part (paPart (128 * line))).slices = [] → (s.memKey (128 * line)).isSome = true → ∃ t,
        exec (.backInvalidationResponse line (some d)) s = .next t ∧ line ∉ t.pkg.snoops ∧ line ∉ t.pkg.hostHas ∧
        (∀ i, i < 128 → t.rawByte (128 * line + i) = d.getD i 0) ∧
        ∀ a, (∀ i, i < 128 → s.memKey a ≠ s.memKey (128 * line + i)) → t.rawByte a = s.rawByte a) ∧
    (∀ pg a, s.pkg.atsReq.contains pg = true → ∃ t, exec (.atsTranslationResponse pg a) s = .next t ∧
      t = { s with pkg := t.pkg } ∧ pg ∉ t.pkg.atsReq ∧ tget none t.pkg.ats pg = some a ∧
      ∀ q, q ≠ pg → tget none t.pkg.ats q = tget none s.pkg.ats q) ∧
    (∀ pg a, s.pkg.atsReq.contains pg = false → exec (.atsTranslationResponse pg a) s = .next s)

/-- Link training gives the package its number (R303); a lost link must retrain in a millisecond, 1,400,000 cycles
(log 76), and a package with none has number 0 (R377, log 71). A flit delivers what it brings once, one with a bad CRC nothing (R318): payload is written at its home (R319), but for an
access that lacks the page's elision (R376); the rows of a tile delivery stand in the tile of a resident member (R260, R372); a word
of another package waits for the switch that holds it (R160); a switch takes a word, and writes it back (R160, R377); an arrival of
another package opens its pod barrier (R318, R264). A reset leaves the reset state with every generation advanced (R323; what else it keeps, and
that a generation wraps, is log 70); device memory, which the manual leaves undefined, reads as an unlisted byte does (log 3); a warm one keeps the page bits and what a self-test
took out of service (R376, R381, R382). Boot ends in a running device with partition 0 enabled (R325), or in recovery when the image
fails a check, or with its self-test failed (R324). -/
def Obligations.LinksResetsAndBoot : Prop :=
  ∀ (s : State),
    (∀ n k, ∃ t, exec (.linkTraining n k) s = .next t ∧ t = { s with pkg := t.pkg } ∧ t.pkg.pkgid = k % 4096 ∧
      tget false t.pkg.links n = true ∧ tget 0 t.pkg.lost n = 0) ∧
    (∀ n, tget false s.pkg.links n = true → ∃ t, exec (.fareriLinkLoss n) s = .next t ∧ t = { s with pkg := t.pkg } ∧
      tget false t.pkg.links n = false ∧ tget 0 t.pkg.lost n = s.cycle + 1400000 ∧ (t.pkg.links = [] → t.pkg.pkgid = 0) ∧
      (t.pkg.links ≠ [] → t.pkg.pkgid = s.pkg.pkgid)) ∧
    exec (.fareriFlitArrival .badCrc) s = .next s ∧
    (∀ pa d, Clear s (paPart pa) → s.pkg.cBits = [] → s.pkg.armed = none → pa % 128 + d.length ≤ 128 → (s.memKey pa).isSome = true → ∃ t,
      exec (.fareriFlitArrival (.write pa d false)) s = .next t ∧ t.ctxs = s.ctxs ∧
      (∀ i, i < d.length → t.rawByte (pa + i) = d.getD i 0) ∧
      ∀ a, (∀ i, i < d.length → s.memKey a ≠ s.memKey (pa + i)) → t.rawByte a = s.rawByte a) ∧
    (∀ pa d e, pageOf pa ∈ s.pkg.tBits ∨ s.memKey pa = none → exec (.fareriFlitArrival (.write pa d e)) s = .next s) ∧
    (∀ pa d, pageOf pa ∈ s.pkg.cBits → pageOf pa ∉ s.pkg.tBits → (s.memKey pa).isSome = true →
      exec (.fareriFlitArrival (.write pa d false)) s = .next (s.count (paPart pa) 1)) ∧
    (∀ pa n e, s.pkg.marks = [] → s.pkg.armed = none → e = true ∨ pageOf pa ∉ s.pkg.cBits →
      exec (.fareriFlitArrival (.read pa n e)) s = .next s) ∧
    (∀ pa n e, s.marked pa n = true → exec (.fareriFlitArrival (.read pa n e)) s =
      .next { s with inputs := (s.cycle + 1, .fareriFlitArrival (.read pa n e)) :: s.inputs }) ∧
    (∀ k c p sq m h off rows b g q y, s.quireSeq p sq = some q → s.memberTile q m h = some y → off % y.pitch = 0 →
      (∀ r ∈ rows, r.length ≤ y.pitch) → off / y.pitch + rows.length ≤ y.rows → rows ≠ [] → (s.memberCtx q m).isSome = true →
      s.resident y = true → s.tile y.id = some y → ∃ t z, exec (.fareriFlitArrival (.deliver k c p sq m h off rows false b g)) s = .next t ∧
        t = { s with tiles := t.tiles } ∧ t.tile y.id = some z ∧
        ∀ r x, rows[r]? = some x → ∀ i, i < x.length → tget 0 z.bytes (off + r * y.pitch + i) = x.getD i 0) ∧
    (∀ k c p sq m h off rows po b g, s.quireSeq p sq = none →
      exec (.fareriFlitArrival (.deliver k c p sq m h off rows po b g)) s = .next s) ∧
    (∀ k pa d, s.switchHeld k pa d.length = false → ∃ t, exec (.fareriFlitArrival (.remote k pa d)) s = .next t ∧
      t = { s with remote := t.remote } ∧ (∀ i, i < d.length → t.remoteByte (remoteKey k pa + i) = d.getD i 0) ∧
      ∀ a, a < remoteKey k pa ∨ remoteKey k pa + d.length ≤ a → t.remoteByte a = s.remoteByte a) ∧
    (∀ k pa d w, w ∈ s.pkg.switchWords → w.pkg = k → w.pa / 8 * 8 < pa + d.length → pa < w.pa / 8 * 8 + 8 → ∃ t,
      exec (.fareriFlitArrival (.remote k pa d)) s = .next t ∧ t.remote = s.remote ∧ (w.pkg, w.pa) ∈ t.pkg.swWant ∧
      t.inputs = (s.cycle + 1, .fareriFlitArrival (.remote k pa d)) :: s.inputs) ∧
    (∀ c, ∃ t, exec (.fareriFlitArrival (.ack c)) s = .next t ∧ t = { s with dlv := t.dlv } ∧
      t.dlv = s.dlv.map fun d => if d.cmd = c then { d with wait := min d.wait s.cycle } else d) ∧
    (∀ job b n, job = 0 ∨ n = 0 ∨ 2097152 < n ∨ 256 ≤ b → exec (.fareriFlitArrival (.podArrival job b n)) s = .next s) ∧
    (∀ job b n, job ≠ 0 → 2 ≤ n → n ≤ 2097152 → b < 256 → s.episode (.pod job 0) b = none → ∃ t e,
      exec (.fareriFlitArrival (.podArrival job b n)) s = .next t ∧ t = { s with eps := t.eps } ∧ t.episode (.pod job 0) b = some e ∧
      e.count = n ∧ e.arrived = 1 ∧ e.cmds = [] ∧ e.poisoned = false) ∧
    (∀ sw pa k, s.memKey pa = some k → ∃ t, exec (.fareriFlitArrival (.hold sw pa)) s = .next t ∧
      t = { s with pkg := { s.pkg with marks := t.pkg.marks } } ∧ (k / 8, sw) ∈ t.pkg.marks ∧
      ∀ m, m ≠ (k / 8, sw) → (m ∈ t.pkg.marks ↔ m ∈ s.pkg.marks)) ∧
    (∀ sw pa k (d : BitVec 64), s.memKey pa = some k → (k / 8, sw) ∈ s.pkg.marks → s.guardOf pa = none → s.pkg.tBits = [] →
      s.pkg.armed = none → s.pkg.cBits = [] → s.pkg.hostHas = [] → (s.part (paPart pa)).slices = [] → ∃ t,
        exec (.fareriFlitArrival (.back sw pa d)) s = .next t ∧ (k / 8, sw) ∉ t.pkg.marks ∧
        ∀ i, i < 8 → t.rawByte (pa / 8 * 8 + i) = BitVec.ofNat 8 (d.toNat / 256 ^ i)) ∧
    (∀ i, i = Instr.coldReset ∨ i = Instr.warmReset → ∃ t, exec i s = .next t ∧ t.ctxs = [] ∧ t.calls = [] ∧ t.cmds = [] ∧
      t.quires = [] ∧ t.tiles = [] ∧ t.owners = [] ∧ t.eps = [] ∧ t.cols = State.reset.cols ∧ t.quads = State.reset.quads ∧
      t.stackTab = State.reset.stackTab ∧ (∀ p, p < 12 → t.part p = { l2gen := ((s.part p).l2gen + 1) % 2 ^ 16 }) ∧
      (∀ g, g < genL2 0 → tget 0 t.gens g = (tget 0 s.gens g + 1) % 2 ^ 16) ∧ t.cycle = State.reset.cycle ∧
      t.pkg.boot = .booting ∧ t.pkg.pbudget = 1600 ∧ t.pkg.tlim = 9500 ∧ t.pkg.flash = s.pkg.flash ∧ t.pkg.staged = s.pkg.staged ∧
      t.pkg.rollback = s.pkg.rollback ∧ t.pkg.badacc = false ∧ t.pkg.lockwr = false ∧
      (∀ k, (t.l2set k).ways = []) ∧ (∀ a, a < 2 ^ 51 → t.cell a = 0) ∧ ∀ a, 2 ^ 51 ≤ a → t.cell a = s.cell a) ∧
    (∃ t, exec .coldReset s = .next t ∧ t.pkg.tBits = [] ∧ t.pkg.cBits = [] ∧ t.pkg.lastPages = [] ∧ t.l2 = [] ∧ t.cores = []) ∧
    (∃ t, exec .warmReset s = .next t ∧ t.pkg.tBits = s.pkg.tBits ∧ t.pkg.cBits = s.pkg.cBits ∧ t.pkg.lastPages = s.pkg.lastPages ∧
      ((∀ e ∈ s.l2, e.2 = s.l2set e.1) → ∀ k, (t.l2set k).quar = (s.l2set k).quar ∧ (t.l2set k).lasting = (s.l2set k).lasting) ∧
      ((∀ e ∈ s.cores, e.2 = s.core e.1) → ∀ n, t.core n = { lasting := (s.core n).lasting })) ∧
    (∀ x : List Byte × Word × Nat × Bool × Bool, s.pkg.boot = .booting →
      s.pkg.staged = some x ∨ (s.pkg.staged = none ∧ s.pkg.flash = some x) →
      let good := x.2.2.2.1 = true ∧ x.2.2.1 < 2 ∧ s.pkg.rollback ≤ x.2.1.toNat
      (¬ good → ∀ b, ∃ t, exec (.bootComplete b) s = .next t ∧ t = { s with pkg := { s.pkg with boot := .recovery } }) ∧
      (good → ∀ b, ∃ t, exec (.bootComplete b) s = .next t ∧ t.pkg.flash = some x ∧ t.pkg.staged = none ∧
        t.pkg.rollback = (if x.2.2.2.2 = true then max s.pkg.rollback x.2.1.toNat else s.pkg.rollback) ∧
        (b = true → t.pkg.boot = .running ∧ t.pkg.fwver = x.2.1 ∧ (t.part 0).en = true ∧ (t.part 0).cols = 1) ∧
        (b = false → t.pkg.boot = .selfTest ∧ t.parts = s.parts))) ∧
    (s.pkg.boot = .booting → s.pkg.staged = none → s.pkg.flash = none → ∃ t, exec (.bootComplete true) s = .next t ∧
      t.pkg.boot = .running ∧ (t.part 0).en = true ∧ (t.part 0).cols = 1 ∧ (t.part 0).slices = List.range 32 ∧
      (t.part 0).chans = List.range 8 ∧ (t.owner 0).hdr = 0x800000000000E000 ∧ (t.owner 0).part = some 0 ∧
      (∀ p, p ≠ 0 → t.part p = s.part p) ∧ t.mem = s.mem)

/-! The matrix array. -/

/-- One group of a cell (R98): in mode F32 the accumulator and the products summed exactly and rounded once; in SAT and WRAP the
integer sum, clamped or wrapped to 32 bits. -/
def Sys2Proof.Safety.groupOf (mode : Nat) (acc : BitVec 32) (ps : List Ext) : BitVec 32 :=
  if mode = 0 then BitVec.ofNat 32 (rne .f32 (exactSum (decodeF .f32 acc.toNat :: ps)))
  else
    let x := acc.toInt + (ps.map toIntRne).sum
    BitVec.ofInt 32 (if mode = 1 then max (-(2 ^ 31)) (min (2 ^ 31 - 1) x) else x)

/-- THE ARRAY (R96, R98, R241; Tables 5.4 and 6.1): over one K-tile every active cell takes its products in groups of S, S the
K-step of the format in force, the last group padded with +0; no other cell changes; and the values are formed once the last
operand row is there. -/
def Obligations.MatrixArithmetic : Prop :=
  (∀ (mode S : Nat) (acc : BitVec 32) (a b c d : List Ext), 0 < S → a.length = b.length →
    ktile mode S acc [] [] = acc ∧
    (a.length = S → ktile mode S acc (a ++ c) (b ++ d) = ktile mode S (groupOf mode acc (List.zipWith Ext.mul a b)) c d) ∧
    (0 < a.length → a.length < S → ktile mode S acc a b =
      groupOf mode acc (List.zipWith Ext.mul a b ++ List.replicate (S - a.length) (.zero false)))) ∧
  ((∀ (m : Int) (e : Nat), toIntRne (.fin m e) = m * ((2 ^ e : Nat) : Int)) ∧ ∀ b, toIntRne (.zero b) = 0) ∧
  (∀ (j : Job) (mode S : Nat) (vals : Tbl (BitVec 32)),
    let cols := (j.rowsB.headD []).length
    let cell := fun (i c : Nat) => if j.trn = true then 64 * c + i else 64 * i + c
    j.rowsA.length ≤ 64 → cols ≤ 64 →
    (∀ i c, i < j.rowsA.length → c < cols → tget 0 (j.apply mode S vals) (cell i c) =
      ktile mode S (tget 0 vals (cell i c)) (j.rowsA.getD i []) (j.rowsB.map fun r => r.getD c .nan)) ∧
    ∀ n, (∀ i c, i < j.rowsA.length → c < cols → n ≠ cell i c) → tget 0 (j.apply mode S vals) n = tget 0 vals n) ∧
  (∀ (k : Call) (j : Job) (l : List Job) (b : Bool) (r : List Ext) (w : Nat), k.jobs = j :: l →
    let h : Job := { j with rowsA := if b = true then j.rowsA else j.rowsA ++ [r], rowsB := if b = true then j.rowsB ++ [r] else j.rowsB,
                            part := [], scales := [], wait := w }
    (h.rowsA.length < k.rowCount false ∨ h.rowsB.length < k.rowCount true → k.addRow b r w = { k with jobs := h :: l }) ∧
    (k.rowCount false ≤ h.rowsA.length → k.rowCount true ≤ h.rowsB.length → k.addRow b r w =
      { k with jobs := { h with filled := true } :: l,
               vals := h.apply k.mode (kStep (inForce k.ladder h.rung k.cap false)) k.vals })) ∧
  (∀ (cap : Nat) (sg : Bool), inForce 0 0 cap sg = .flt .f32 ∧ inForce 0 1 cap sg = .flt .f16 ∧ inForce 0 2 cap sg = .flt .e4m3 ∧
    inForce 0 3 cap sg = .flt .e5m2 ∧ inForce 1 0 cap sg = .flt .f32 ∧ inForce 1 1 cap sg = .flt .bf16 ∧
    inForce 1 2 cap sg = .flt .e5m2) ∧
  (∀ sg : Bool, (List.range 4).map (fun r => inForce 2 r 0 sg) = [.plane 8 sg, .plane 6 sg, .plane 4 sg, .plane 2 sg] ∧
    (List.range 5).map (fun c => inForce 2 0 c sg) = [.plane 8 sg, .plane 6 sg, .plane 4 sg, .plane 3 sg, .plane 2 sg] ∧
    [Ty.flt .f32, .flt .f16, .flt .bf16, .flt .e4m3, .flt .e5m2].map kStep = [1, 4, 4, 8, 8] ∧
    [8, 6, 4, 3, 2].map (fun n => kStep (.plane n sg)) = [8, 8, 16, 16, 32])
end

