-- ==== Sys2Proof/Laws/Rounding.lean ====
section
/-! SUPPORT. Rounding: what `rne`, `divRne`, `sqrtRne`, `rsqrtRne` and `toIntRne` round to (R39, R89, R100, R211). -/

namespace Sys2Proof.Laws

open Sys2Proof Sys2Proof.Machine Sys2Proof.Safety

theorem two_zpow_pos (t : Int) : (0:ℝ) < 2 ^ t := zpow_pos (by norm_num) t

/-- scaling a grid point to units of 2^t -/
theorem scaled (p : Nat) (u t : Int) : (p : ℝ) * 2 ^ u = (p * 2 ^ (u - t)) * 2 ^ t := by
  rw [mul_assoc, ← zpow_add₀ (by norm_num : (2:ℝ) ≠ 0)]; congr 2; ring

/-- the nearest integer, ties even, is nearer to y than any other integer -/
theorem nearest_int {y : ℝ} {q : Nat} (hd : |y - q| ≤ 1 / 2) (he : |y - q| = 1 / 2 → q % 2 = 0) (k : Int) :
    |y - q| < |y - k| ∨ (|y - q| = |y - k| ∧ (q % 2 = 0 ∨ k = q)) := by
  by_cases hk : k = q
  · right; subst hk; simp
  · have h1 : (1 : ℝ) ≤ |((q : ℝ)) - k| := by
      have : (1 : Int) ≤ |(q : Int) - k| := Int.one_le_abs (sub_ne_zero.mpr (Ne.symm hk))
      exact_mod_cast this
    have h2 : |((q : ℝ)) - k| ≤ |y - q| + |y - k| := by
      have := abs_sub_le (q : ℝ) y k
      rwa [abs_sub_comm (q : ℝ) y] at this
    rcases lt_or_eq_of_le hd with h | h
    · left; linarith
    · rcases lt_or_eq_of_le (show |y - q| ≤ |y - k| by linarith) with h3 | h3
      · exact .inl h3
      · exact .inr ⟨h3, .inl (he h)⟩

/-- The integer `q` that is `y` rounded to even, in units of 2^t, is the nearest point of the grid. -/
theorem grid_nearest {g : Fmt} {y : ℝ} {q : Nat} {t : Int} (hd : |y - q| ≤ 1 / 2) (he : |y - q| = 1 / 2 → q % 2 = 0)
    (hlow : t = 1 - (g.bias : Int) - g.frac ∨ (2 : ℝ) ^ g.frac ≤ y) (p : Nat) (u : Int) (hp : Grid g p u) :
    |y * 2 ^ t - q * 2 ^ t| < |y * 2 ^ t - p * 2 ^ u| ∨
      (|y * 2 ^ t - q * 2 ^ t| = |y * 2 ^ t - p * 2 ^ u| ∧ (q % 2 = 0 ∨ (p : ℝ) * 2 ^ u = q * 2 ^ t)) := by
  have ht := two_zpow_pos t
  rw [scaled p u t, ← sub_mul, ← sub_mul, abs_mul, abs_mul, abs_of_pos ht]
  by_cases hu : t ≤ u
  · obtain ⟨n, hn⟩ := Int.le.dest hu
    have : (p : ℝ) * 2 ^ (u - t) = ((p * 2 ^ n : Nat) : Int) := by
      have : u - t = n := by omega
      rw [this]; push_cast; rfl
    rw [this]
    rcases nearest_int hd he ((p * 2 ^ n : Nat) : Int) with h | ⟨h, h'⟩
    · left; exact mul_lt_mul_of_pos_right h ht
    · right; refine ⟨by rw [h], h'.imp id fun h => ?_⟩
      rw [h]; simp
  · left
    refine mul_lt_mul_of_pos_right ?_ ht
    rcases hlow with h | h
    · have := hp.2.1; omega
    · have hpu : (p : ℝ) * 2 ^ (u - t) < 2 ^ g.frac := by
        have h1 : (p : ℝ) < 2 ^ (g.frac + 1) := by exact_mod_cast hp.1
        have h2 : (2 : ℝ) ^ (u - t) ≤ 2 ^ (-1 : Int) := zpow_le_zpow_right₀ (by norm_num) (by omega)
        have h3 := two_zpow_pos (u - t)
        calc (p : ℝ) * 2 ^ (u - t) < 2 ^ (g.frac + 1) * 2 ^ (u - t) := mul_lt_mul_of_pos_right h1 h3
          _ ≤ 2 ^ (g.frac + 1) * 2 ^ (-1 : Int) := by gcongr
          _ = 2 ^ g.frac := by rw [pow_succ]; norm_num [mul_assoc]
      have h0 : |y - 2 ^ g.frac| = y - 2 ^ g.frac := abs_of_nonneg (by linarith)
      have h4 : |y - q| ≤ y - 2 ^ g.frac := by
        have h6 : |y - q| ≤ |y - 2 ^ g.frac| := by
          rcases nearest_int hd he ((2 ^ g.frac : Nat) : Int) with h5 | ⟨h5, _⟩ <;> push_cast at h5 <;> linarith
        rwa [h0] at h6
      have h7 : |y - p * 2 ^ (u - t)| = y - p * 2 ^ (u - t) := abs_of_pos (by linarith)
      rw [h7]
      linarith

/-- A grid point is written in one way. -/
theorem grid_unique {g : Fmt} {p q : Nat} {u t : Int} (hp : Grid g p u) (hq : Grid g q t)
    (h : (p : ℝ) * 2 ^ u = q * 2 ^ t) : p = q ∧ u = t := by
  wlog hut : u ≤ t generalizing p q u t
  · have := this hq hp h.symm (by omega); exact ⟨this.1.symm, this.2.symm⟩
  obtain ⟨n, hn⟩ := Int.le.dest hut
  have h1 : p = q * 2 ^ n := by
    rw [scaled q t u] at h
    have h2 := mul_right_cancel₀ (two_zpow_pos u).ne' h
    have : t - u = n := by omega
    rw [this] at h2
    exact_mod_cast h2
  rcases n with _ | n
  · simp at h1 hn; exact ⟨h1, hn⟩
  · exfalso
    have h3 : ¬ q < 2 ^ g.frac := fun h => by have := hq.2.2 h; have := hp.2.1; omega
    have h4 := hp.1
    rw [h1, pow_succ, pow_succ, ← mul_assoc] at h4
    have h5 : q ≤ q * 2 ^ n := Nat.le_mul_of_pos_right _ (by positivity)
    omega

/-- The largest finite encoding of a format. -/
def mostOf (g : Fmt) : Nat := match g with | .e4m3 => 0x7E | g => g.inf false - 1

/-- The fields of an encoding made of a sign and the rest (Table 5.1). -/
theorem code_fields (g : Fmt) (neg : Bool) (k : Nat) (hk : k < 2 ^ (g.width - 1)) :
    bit (g.zero neg + k) (g.width - 1) = neg ∧ bits (g.zero neg + k) (g.width - 2) g.frac = k / 2 ^ g.frac ∧
      (g.zero neg + k) % 2 ^ g.frac = k % 2 ^ g.frac ∧ g.zero neg + k < 2 ^ g.width := by
  cases g <;> cases neg <;>
    simp only [Fmt.frac, Fmt.width, Fmt.zero, bit, bits, b2n, Nat.testBit_eq_decide_div_mod_eq] at * <;> norm_num at * <;> omega

theorem decode_code (g : Fmt) (neg : Bool) (d q : Nat) (h0 : 0 < q) (hq : q < 2 ^ (g.frac + 1)) (hd : q < 2 ^ g.frac → d = 0)
    (hc : d * 2 ^ g.frac + q ≤ mostOf g) :
    g.zero neg + (d * 2 ^ g.frac + q) < 2 ^ g.width ∧
      decodeF g (g.zero neg + (d * 2 ^ g.frac + q)) =
        .fin ((if neg then -1 else 1) * (q : Int)) (d + (1 - (g.bias : Int) - g.frac)) := by
  have hm : mostOf g < 2 ^ (g.width - 1) := by cases g <;> decide
  obtain ⟨h1, h2, h3, h4⟩ := code_fields g neg _ (lt_of_le_of_lt hc hm)
  refine ⟨h4, ?_⟩
  unfold decodeF
  simp only [h1, h2, h3]
  by_cases hl : q < 2 ^ g.frac
  · obtain rfl := hd hl
    simp only [Nat.zero_mul, Nat.zero_add, Nat.div_eq_of_lt hl, Nat.mod_eq_of_lt hl, if_true, if_neg h0.ne']
    congr 1; omega
  · have hP : 0 < 2 ^ g.frac := by positivity
    have e1 : (d * 2 ^ g.frac + q) / 2 ^ g.frac = d + 1 := by
      rw [pow_succ] at hq
      rw [mul_comm, Nat.mul_add_div hP]
      congr 1
      exact Nat.div_eq_of_lt_le (by omega) (by omega)
    have e2 : (d * 2 ^ g.frac + q) % 2 ^ g.frac = q - 2 ^ g.frac := by
      rw [pow_succ] at hq
      rw [mul_comm, Nat.mul_add_mod, Nat.mod_eq_sub_mod (by omega), Nat.mod_eq_of_lt (by omega)]
    rw [e1, e2]
    have e3 : ¬ (d + 1 = 2 ^ g.expo - 1 ∧ g ≠ .e4m3) := by
      rintro ⟨h5, h6⟩
      cases g <;> simp_all [mostOf, Fmt.inf, Fmt.frac, Fmt.expo, b2n] <;> omega
    have e4 : ¬ (d + 1 = 2 ^ g.expo - 1 ∧ q - 2 ^ g.frac = 2 ^ g.frac - 1) := by
      rintro ⟨h5, h6⟩
      cases g <;> simp_all [mostOf, Fmt.inf, Fmt.frac, Fmt.expo, b2n]
      omega
    rw [if_neg (Nat.succ_ne_zero d), if_neg e3, if_neg e4]
    congr 1
    · rw [Nat.add_sub_cancel' (by omega)]
    · push_cast; ring

/-- No finite encoding is larger than the largest. -/
theorem decode_le (g : Fmt) (c : Nat) (m e : Int) (h : decodeF g c = .fin m e) :
    (g ≠ .e4m3 ∧ m < 2 ^ (g.frac + 1) ∧ e < 2 ^ g.expo - 1 - (g.bias : Int) - g.frac) ∨
      (g = .e4m3 ∧ ((m ≤ 14 ∧ e ≤ 5) ∨ (m ≤ 15 ∧ e ≤ 4))) := by
  have hb : bits c (g.width - 2) g.frac < 2 ^ g.expo := by
    unfold bits
    refine lt_of_lt_of_le (Nat.mod_lt _ (by positivity)) ?_
    cases g <;> decide
  have hf : c % 2 ^ g.frac < 2 ^ g.frac := Nat.mod_lt _ (by positivity)
  unfold decodeF at h
  dsimp only at h
  generalize bits c (g.width - 2) g.frac = e0 at *
  generalize c % 2 ^ g.frac = f0 at *
  generalize bit c (g.width - 1) = s at *
  cases g <;> simp only [Fmt.frac, Fmt.expo, Fmt.bias] at * <;> norm_num at * <;>
    split at h <;> (try split at h) <;> (try split at h) <;> simp at h <;> obtain ⟨rfl, rfl⟩ := h <;> cases s <;>
    simp at * <;> omega

/-- What a format's encoding of a rounded magnitude is. -/
def encodeGrid (g : Fmt) (neg : Bool) (q : Nat) (t : Int) : Nat :=
  if q = 0 then g.zero neg
  else if q < 2 ^ g.frac then g.zero neg + q
  else
    let fld : Int := t + g.frac + g.bias
    let code := fld.toNat * 2 ^ g.frac + (q - 2 ^ g.frac)
    if g.inf false ≤ code then g.inf neg else g.zero neg + code

theorem inf_eq (g : Fmt) (neg : Bool) : g.inf neg = g.zero neg + g.inf false := by
  cases g <;> cases neg <;> decide

/-- The encoding of a grid point: the point itself, or the infinity (±448 in E4M3) of one past the largest. -/
theorem rounds_encode {g : Fmt} {neg : Bool} {x : ℝ} {q : Nat} {t : Int} (hg : Grid g q t)
    (hn : ∀ (p : Nat) (u : Int), Grid g p u → |x - q * 2 ^ t| < |x - p * 2 ^ u| ∨
      (|x - q * 2 ^ t| = |x - p * 2 ^ u| ∧ (q % 2 = 0 ∨ (p = q ∧ u = t)))) : RoundsTo g neg x (encodeGrid g neg q t) := by
  obtain ⟨d, hd⟩ := Int.le.dest hg.2.1
  have hP : 0 < 2 ^ g.frac := by positivity
  refine ⟨q, t, hg, hn, fun h => by simp [encodeGrid, h], ?_⟩
  rcases Nat.eq_zero_or_pos q with h0 | h0
  · exact ⟨fun h => absurd h (by omega), fun h => absurd h (by omega)⟩
  have hdq : q < 2 ^ g.frac → d = 0 := fun h => by have := hg.2.2 h; omega
  have hcode : encodeGrid g neg q t = if q < 2 ^ g.frac then g.zero neg + q else
      if g.inf false ≤ d * 2 ^ g.frac + q then g.inf neg else g.zero neg + (d * 2 ^ g.frac + q) := by
    unfold encodeGrid
    rw [if_neg h0.ne']
    by_cases hl : q < 2 ^ g.frac
    · simp [hl]
    · have : (t + g.frac + g.bias).toNat * 2 ^ g.frac + (q - 2 ^ g.frac) = d * 2 ^ g.frac + q := by
        have h1 : (t + g.frac + g.bias).toNat = d + 1 := by omega
        rw [h1, Nat.succ_mul]; omega
      simp only [hl, if_false, this]
  have hval : ∀ ng, d * 2 ^ g.frac + q ≤ mostOf g →
      g.zero ng + (d * 2 ^ g.frac + q) < 2 ^ g.width ∧ ∃ m e : Int, decodeF g (g.zero ng + (d * 2 ^ g.frac + q)) = .fin m e ∧
        (m : ℝ) * 2 ^ e = (if ng then -1 else 1) * (q * 2 ^ t) := by
    intro ng hc
    obtain ⟨h1, h2⟩ := decode_code g ng d q h0 hg.1 hdq hc
    refine ⟨h1, _, _, h2, ?_⟩
    have : (d : Int) + (1 - (g.bias : Int) - g.frac) = t := by omega
    rw [this]
    cases ng <;> simp
  -- no finite encoding reaches past the largest
  have hbig : mostOf g < d * 2 ^ g.frac + q → ∀ (c : Nat) (m e : Int), decodeF g c = .fin m e → (m : ℝ) * 2 ^ e < q * 2 ^ t := by
    intro hc c m e hdec
    have hl : ¬ q < 2 ^ g.frac := by
      intro hl
      rw [hdq hl] at hc
      have : 2 ^ g.frac ≤ mostOf g := by cases g <;> decide
      omega
    have hqp : (0 : ℝ) < q * 2 ^ t := mul_pos (by exact_mod_cast h0) (two_zpow_pos t)
    by_cases hm0 : m ≤ 0
    · exact lt_of_le_of_lt (mul_nonpos_of_nonpos_of_nonneg (by exact_mod_cast hm0) (two_zpow_pos e).le) hqp
    push Not at hm0 hl
    have hm0' : (0 : ℝ) < m := by exact_mod_cast hm0
    have key : ∀ (M : Nat) (T : Int), m < M → e ≤ T → (M : ℝ) * 2 ^ T ≤ q * 2 ^ t → (m : ℝ) * 2 ^ e < q * 2 ^ t := by
      intro M T hM hT h
      refine lt_of_lt_of_le ?_ h
      calc (m : ℝ) * 2 ^ e ≤ m * 2 ^ T := by gcongr; norm_num
        _ < M * 2 ^ T := mul_lt_mul_of_pos_right (by exact_mod_cast hM) (two_zpow_pos T)
    have hq1 := hg.1
    rcases decode_le g c m e hdec with ⟨h4, h1, h2⟩ | ⟨rfl, h1⟩
    · refine key (2 ^ (g.frac + 1)) (2 ^ g.expo - 1 - (g.bias : Int) - g.frac - 1) (by exact_mod_cast h1) (by omega) ?_
      have h5 : (2 ^ g.expo - 2) ≤ d := by
        cases g <;> simp_all [mostOf, Fmt.inf, Fmt.frac, Fmt.expo, b2n] <;> omega
      have h6 : (2 ^ g.frac : ℝ) ≤ q := by exact_mod_cast hl
      have h7 : (2:ℝ) ^ (2 ^ g.expo - 1 - (g.bias : Int) - g.frac) ≤ 2 ^ t := by
        refine zpow_le_zpow_right₀ (by norm_num) ?_
        have : (2:Int) ^ g.expo ≤ d + 2 := by exact_mod_cast (by omega : 2 ^ g.expo ≤ d + 2)
        omega
      calc ((2 ^ (g.frac + 1) : Nat) : ℝ) * 2 ^ (2 ^ g.expo - 1 - (g.bias : Int) - g.frac - 1)
          = 2 ^ g.frac * 2 ^ (2 ^ g.expo - 1 - (g.bias : Int) - g.frac) := by
            rw [zpow_sub_one₀ (by norm_num)]; push_cast; rw [pow_succ]; ring
        _ ≤ q * 2 ^ t := by gcongr
    · simp only [mostOf, Fmt.frac, Fmt.bias] at hc hl hq1 hd
      have h6 : (15 : ℝ) * 2 ^ (5 : Int) ≤ q * 2 ^ t := by
        rcases Nat.lt_or_ge q 15 with h | h
        · have h8 : (8 : ℝ) ≤ q := by exact_mod_cast hl
          calc (15 : ℝ) * 2 ^ (5 : Int) ≤ 8 * 2 ^ (6 : Int) := by norm_num
            _ ≤ q * 2 ^ t := mul_le_mul h8 (zpow_le_zpow_right₀ (by norm_num) (by omega)) (by positivity) (by positivity)
        · have h8 : (15 : ℝ) ≤ q := by exact_mod_cast h
          exact mul_le_mul h8 (zpow_le_zpow_right₀ (by norm_num) (by omega)) (by positivity) (by positivity)
      rcases h1 with ⟨h1, h2⟩ | ⟨h1, h2⟩
      · exact key 15 5 (by omega) h2 (by exact_mod_cast h6)
      · refine key 16 4 (by omega) h2 (le_trans ?_ h6)
        norm_num
  have hmost : mostOf g < g.inf false ∨ (g = .e4m3 ∧ mostOf g = g.inf false) := by cases g <;> decide
  have hinf : g.inf false - 1 ≤ mostOf g := by cases g <;> decide
  have hsmall : q < 2 ^ g.frac → d * 2 ^ g.frac + q ≤ mostOf g := fun h => by
    rw [hdq h]
    have : 2 ^ g.frac ≤ mostOf g := by cases g <;> decide
    omega
  have hc2 : q < 2 ^ g.frac → g.zero neg + q = g.zero neg + (d * 2 ^ g.frac + q) := fun h => by rw [hdq h]; simp
  rw [hcode]
  refine ⟨fun _ hall => ?_, fun _ hex => ?_⟩
  · have hgt : mostOf g < d * 2 ^ g.frac + q := by
      by_contra hle
      obtain ⟨_, m, e, h1, h2⟩ := hval false (by omega)
      have := hall _ m e h1
      simp at h2
      linarith
    rw [if_neg (fun h => absurd (hsmall h) (by omega)), if_pos (by omega)]
  · have hle : d * 2 ^ g.frac + q ≤ mostOf g := by
      by_contra hgt
      obtain ⟨c, m, e, h1, h2⟩ := hex
      exact absurd (hbig (by omega) c m e h1) (not_lt.mpr h2)
    have h := hval neg hle
    by_cases hl : q < 2 ^ g.frac
    · rw [if_pos hl, hc2 hl]; exact h
    · rw [if_neg hl]
      by_cases hi : g.inf false ≤ d * 2 ^ g.frac + q
      · rw [if_pos hi, inf_eq, show g.inf false = d * 2 ^ g.frac + q by omega]; exact h
      · rw [if_neg hi]; exact h

/-- The significand of a magnitude of `n` units of 2^e, in units of 2^t (R39 cases 4 and 5). -/
def signif (n : Nat) (sticky : Bool) (e t : Int) : Nat :=
  if t ≤ e then n * 2 ^ (e - t).toNat
  else
    let sh := (t - e).toNat
    let q0 := n / 2 ^ sh
    let r := n % 2 ^ sh
    let half := 2 ^ (sh - 1)
    if half < r ∨ (r = half ∧ (sticky ∨ q0 % 2 = 1)) then q0 + 1 else q0

theorem roundMag_eq (g : Fmt) (neg : Bool) (n : Nat) (sticky : Bool) (e : Int) (hn : n ≠ 0) :
    roundMag g neg n sticky e =
      let t : Int := max (e + (Nat.log2 n : Int) - g.frac) (1 - (g.bias : Int) - g.frac)
      let q := signif n sticky e t
      if q = 2 ^ (g.frac + 1) then encodeGrid g neg (2 ^ g.frac) (t + 1) else encodeGrid g neg q t := by
  have h : roundMag g neg n sticky e =
      (fun x : Nat × Int => encodeGrid g neg x.1 x.2)
        (let t : Int := max (e + (Nat.log2 n : Int) - g.frac) (1 - (g.bias : Int) - g.frac)
         let q := signif n sticky e t
         if q = 2 ^ (g.frac + 1) then (2 ^ g.frac, t + 1) else (q, t)) := by
    unfold roundMag
    rw [if_neg hn]
    rfl
  rw [h]
  dsimp only
  split <;> rfl

/-- The significand is the nearest integer to the magnitude in units of 2^t, a tie going to the even one. -/
theorem signif_nearest (n : Nat) (sticky : Bool) (e t : Int) (ε : ℝ) (h0 : 0 ≤ ε) (h1 : ε < 1) (hs : sticky = true ↔ 0 < ε)
    (ht : sticky = true → e < t) :
    |((n : ℝ) + ε) * 2 ^ (e - t) - signif n sticky e t| ≤ 1 / 2 ∧
      (|((n : ℝ) + ε) * 2 ^ (e - t) - signif n sticky e t| = 1 / 2 → signif n sticky e t % 2 = 0) := by
  unfold signif
  by_cases hte : t ≤ e
  · have hε : ε = 0 := by
      by_contra h
      have := ht (hs.mpr (lt_of_le_of_ne h0 (Ne.symm h)))
      omega
    rw [if_pos hte, hε]
    obtain ⟨k, hk⟩ := Int.le.dest hte
    have h2 : e - t = (k : Int) := by omega
    rw [h2]
    simp
  · rw [if_neg hte]
    obtain ⟨k, hk⟩ : ∃ k : Nat, t - e = k + 1 := ⟨(t - e - 1).toNat, by omega⟩
    have h2 : e - t = -((k + 1 : Nat) : Int) := by push_cast; omega
    have h3 : (t - e).toNat = k + 1 := by omega
    simp only [h3, Nat.add_sub_cancel, h2]
    have hP : (0 : ℝ) < 2 ^ (k + 1) := by positivity
    have hdiv : (n : ℝ) = 2 ^ (k + 1) * (n / 2 ^ (k + 1) : Nat) + (n % 2 ^ (k + 1) : Nat) := by
      exact_mod_cast (Nat.div_add_mod n (2 ^ (k + 1))).symm
    have hr : n % 2 ^ (k + 1) < 2 ^ (k + 1) := Nat.mod_lt _ (by positivity)
    generalize n / 2 ^ (k + 1) = Q at *
    generalize n % 2 ^ (k + 1) = r at *
    have hy : ((n : ℝ) + ε) * 2 ^ (-((k + 1 : Nat) : Int)) = Q + (r + ε) / 2 ^ (k + 1) := by
      rw [hdiv, zpow_neg, zpow_natCast]; field_simp; ring
    rw [hy]
    have hhalf : (2 : ℝ) ^ (k + 1) = 2 * 2 ^ k := by rw [pow_succ]; ring
    have hk0 : (0 : ℝ) < 2 ^ k := by positivity
    have hrR : (r : ℝ) + 1 ≤ 2 ^ (k + 1) := by exact_mod_cast hr
    have hr0 : (0 : ℝ) ≤ r := by positivity
    split
    · next h =>
      have hge : (2 : ℝ) ^ k ≤ r + ε ∧ ((2 : ℝ) ^ k = r + ε → Q % 2 = 1) := by
        rcases h with h | ⟨h, h'⟩
        · have : ((2 : ℝ) ^ k) + 1 ≤ r := by exact_mod_cast h
          exact ⟨by linarith, fun _ => by linarith⟩
        · have hre : (r : ℝ) = 2 ^ k := by exact_mod_cast h
          refine ⟨by linarith, fun heq => ?_⟩
          rcases h' with h' | h'
          · have := hs.mp h'; linarith
          · exact h'
      have hle : (r + ε) / 2 ^ (k + 1) ≤ 1 := by rw [div_le_one hP]; linarith
      have hge2 : 1 / 2 ≤ (r + ε) / 2 ^ (k + 1) := by rw [le_div_iff₀ hP, hhalf]; linarith [hge.1]
      have habs : |(Q : ℝ) + (r + ε) / 2 ^ (k + 1) - ((Q + 1 : Nat) : ℝ)| = 1 - (r + ε) / 2 ^ (k + 1) := by
        rw [abs_of_nonpos (by push_cast; linarith)]; push_cast; ring
      rw [habs]
      refine ⟨by linarith, fun heq => ?_⟩
      have : (r + ε) / 2 ^ (k + 1) = 1 / 2 := by linarith
      rw [div_eq_iff hP.ne', hhalf] at this
      have := hge.2 (by linarith)
      omega
    · next h =>
      push Not at h
      have hle : (r : ℝ) + ε ≤ 2 ^ k ∧ ((2 : ℝ) ^ k = r + ε → Q % 2 = 0) := by
        rcases lt_or_eq_of_le h.1 with h' | h'
        · have : (r : ℝ) + 1 ≤ 2 ^ k := by exact_mod_cast h'
          exact ⟨by linarith, fun _ => by linarith⟩
        · have hre : (r : ℝ) = 2 ^ k := by exact_mod_cast h'
          obtain ⟨h2, h3⟩ := h.2 h'
          have : ε = 0 := by
            by_contra hne
            exact h2 (hs.mpr (lt_of_le_of_ne h0 (Ne.symm hne)))
          exact ⟨by linarith, fun _ => by omega⟩
      have hge0 : 0 ≤ (r + ε) / 2 ^ (k + 1) := by positivity
      have hle2 : (r + ε) / 2 ^ (k + 1) ≤ 1 / 2 := by rw [div_le_iff₀ hP, hhalf]; linarith [hle.1]
      have habs : |(Q : ℝ) + (r + ε) / 2 ^ (k + 1) - Q| = (r + ε) / 2 ^ (k + 1) := by
        rw [abs_of_nonneg (by linarith)]; ring
      rw [habs]
      refine ⟨hle2, fun heq => ?_⟩
      rw [div_eq_iff hP.ne', hhalf] at heq
      exact hle.2 (by linarith)

/-- ROUNDING: `roundMag` rounds the magnitude (n + ε) × 2^e (R39). -/
theorem roundMag_rounds (g : Fmt) (neg : Bool) (n : Nat) (sticky : Bool) (e : Int) (ε : ℝ) (hn : 0 < n) (h0 : 0 ≤ ε) (h1 : ε < 1)
    (hs : sticky = true ↔ 0 < ε) (hb : sticky = true → 2 ^ (g.frac + 1) ≤ n) :
    RoundsTo g neg (((n : ℝ) + ε) * 2 ^ e) (roundMag g neg n sticky e) := by
  rw [roundMag_eq g neg n sticky e hn.ne']
  generalize htdef : max (e + (Nat.log2 n : Int) - g.frac) (1 - (g.bias : Int) - g.frac) = t
  dsimp only
  have hlo : 2 ^ n.log2 ≤ n := Nat.log2_self_le hn.ne'
  have hhi : n < 2 ^ (n.log2 + 1) := Nat.lt_log2_self
  have hsl : sticky = true → e < t := fun h => by
    have : g.frac + 1 ≤ n.log2 := (Nat.le_log2 hn.ne').mpr (hb h)
    omega
  obtain ⟨hd, he⟩ := signif_nearest n sticky e t ε h0 h1 hs hsl
  have hx : ((n : ℝ) + ε) * 2 ^ e = ((n : ℝ) + ε) * 2 ^ (e - t) * 2 ^ t := by
    rw [mul_assoc, ← zpow_add₀ (by norm_num : (2:ℝ) ≠ 0)]; congr 2; ring
  have hlow : t = 1 - (g.bias : Int) - g.frac ∨ (2 : ℝ) ^ g.frac ≤ ((n : ℝ) + ε) * 2 ^ (e - t) := by
    rcases le_or_gt (e + (Nat.log2 n : Int) - g.frac) (1 - (g.bias : Int) - g.frac) with h | h
    · left; omega
    · right
      have ht : e - t = (g.frac : Int) - n.log2 := by omega
      have h2 : (2 : ℝ) ^ n.log2 ≤ n := by exact_mod_cast hlo
      calc (2 : ℝ) ^ g.frac = 2 ^ n.log2 * 2 ^ (e - t) := by
            rw [ht, zpow_sub₀ (by norm_num), zpow_natCast, zpow_natCast]; field_simp
        _ ≤ (n + ε) * 2 ^ (e - t) := by gcongr; linarith
  -- the magnitude is below 2^(frac + 1) units
  have hup : ((n : ℝ) + ε) * 2 ^ (e - t) < 2 ^ (g.frac + 1) := by
    have h2 : (n : ℝ) + 1 ≤ 2 ^ (n.log2 + 1) := by exact_mod_cast hhi
    have h3 : (2 : ℝ) ^ (e - t) ≤ 2 ^ ((g.frac : Int) - n.log2) := zpow_le_zpow_right₀ (by norm_num) (by omega)
    calc ((n : ℝ) + ε) * 2 ^ (e - t) < 2 ^ (n.log2 + 1) * 2 ^ (e - t) :=
          mul_lt_mul_of_pos_right (by linarith) (two_zpow_pos _)
      _ ≤ 2 ^ (n.log2 + 1) * 2 ^ ((g.frac : Int) - n.log2) := by gcongr
      _ = 2 ^ (g.frac + 1) := by
          rw [zpow_sub₀ (by norm_num), zpow_natCast, zpow_natCast, pow_succ, pow_succ]; field_simp
  generalize hy : ((n : ℝ) + ε) * 2 ^ (e - t) = y at *
  generalize signif n sticky e t = q at *
  have hqle : q ≤ 2 ^ (g.frac + 1) := by
    by_contra h
    have h2 : (2 : ℝ) ^ (g.frac + 1) + 1 ≤ q := by exact_mod_cast (by omega : 2 ^ (g.frac + 1) + 1 ≤ q)
    have := abs_le.mp hd
    linarith
  have hnear := fun p u (hp : Grid g p u) => grid_nearest (t := t) hd he hlow p u hp
  rw [hx]
  split
  · next hq =>
    have hgrid : Grid g (2 ^ g.frac) (t + 1) :=
      ⟨Nat.pow_lt_pow_right (by norm_num) (by omega), by omega, fun h => absurd h (lt_irrefl _)⟩
    have hv : ((2 ^ g.frac : Nat) : ℝ) * 2 ^ (t + 1) = q * 2 ^ t := by
      rw [hq, zpow_add_one₀ (by norm_num)]; push_cast; rw [pow_succ]; ring
    refine rounds_encode hgrid fun p u hp => ?_
    rw [hv]
    refine (hnear p u hp).imp id fun h => ⟨h.1, .inl ?_⟩
    have : 0 < g.frac := by cases g <;> decide
    obtain ⟨k, hk⟩ := Nat.exists_eq_succ_of_ne_zero this.ne'
    rw [hk, Nat.pow_succ]; omega
  · next hq =>
    have hgrid : Grid g q t := by
      refine ⟨by omega, by omega, fun h => ?_⟩
      rcases hlow with h2 | h2
      · exact h2
      · exfalso
        have h3 : (q : ℝ) + 1 ≤ 2 ^ g.frac := by exact_mod_cast h
        have := abs_le.mp hd
        linarith
    exact rounds_encode hgrid fun p u hp => (hnear p u hp).imp id fun h => ⟨h.1, h.2.imp id fun h => grid_unique hp hgrid h⟩

theorem frac_le (g : Fmt) : g.frac + 1 ≤ 24 := by cases g <;> decide

/-- DIVISION: the quotient of two finite values, rounded (R100). -/
theorem divRne_rounds (g : Fmt) (m e n h : Int) (hm : m ≠ 0) (hn : n ≠ 0) :
    RoundsTo g (decide (m < 0) != decide (n < 0)) |(m : ℝ) * 2 ^ e / (n * 2 ^ h)| (divRne g (.fin m e) (.fin n h)) := by
  have hr0 : divRne g (.fin m e) (.fin n h) = roundMag g (decide (m < 0) != decide (n < 0))
      (m.natAbs * 2 ^ (Nat.log2 n.natAbs + 66) / n.natAbs)
      (decide (m.natAbs * 2 ^ (Nat.log2 n.natAbs + 66) % n.natAbs ≠ 0)) (e - h - (Nat.log2 n.natAbs + 66 : Nat)) := by
    simp only [divRne, divMag, Ext.sign]
  rw [hr0]
  have ha : 0 < m.natAbs := Int.natAbs_pos.mpr hm
  have hb : 0 < n.natAbs := Int.natAbs_pos.mpr hn
  have hval : |(m : ℝ) * 2 ^ e / (n * 2 ^ h)| = (m.natAbs : ℝ) / n.natAbs * 2 ^ (e - h) := by
    rw [abs_div, abs_mul, abs_mul, abs_of_pos (two_zpow_pos e), abs_of_pos (two_zpow_pos h), zpow_sub₀ (by norm_num),
      Nat.cast_natAbs, Nat.cast_natAbs]
    push_cast
    ring
  rw [hval]
  generalize m.natAbs = a at *
  generalize n.natAbs = b at *
  generalize hk : Nat.log2 b + 66 = k
  have hbR : (0 : ℝ) < b := by exact_mod_cast hb
  have hdm : (a : ℝ) * 2 ^ k = b * (a * 2 ^ k / b : Nat) + (a * 2 ^ k % b : Nat) := by
    exact_mod_cast (Nat.div_add_mod (a * 2 ^ k) b).symm
  have hr : a * 2 ^ k % b < b := Nat.mod_lt _ hb
  have hq : 2 ^ 24 ≤ a * 2 ^ k / b := by
    rw [Nat.le_div_iff_mul_le hb]
    have h1 : b < 2 ^ (b.log2 + 1) := Nat.lt_log2_self
    calc 2 ^ 24 * b ≤ 2 ^ 24 * 2 ^ (b.log2 + 1) := Nat.mul_le_mul_left _ h1.le
      _ ≤ 2 ^ k := by rw [← pow_add]; exact Nat.pow_le_pow_right (by norm_num) (by omega)
      _ ≤ a * 2 ^ k := Nat.le_mul_of_pos_left _ ha
  have hx : (a : ℝ) / b * 2 ^ (e - h) = (((a * 2 ^ k / b : Nat) : ℝ) + ((a * 2 ^ k % b : Nat) : ℝ) / b) * 2 ^ (e - h - (k : Nat)) := by
    rw [zpow_sub₀ (by norm_num : (2:ℝ) ≠ 0) (e - h) (k : Int), zpow_natCast]
    have : (a : ℝ) = (b * (a * 2 ^ k / b : Nat) + (a * 2 ^ k % b : Nat)) / 2 ^ k := by rw [← hdm]; field_simp
    field_simp at this ⊢
    linarith
  rw [hx]
  generalize a * 2 ^ k / b = q at *
  generalize a * 2 ^ k % b = r at *
  refine roundMag_rounds g _ q _ _ _ (by omega) (by positivity) ?_ ?_ fun _ => le_trans ?_ hq
  · rw [div_lt_one hbR]; exact_mod_cast hr
  · simp only [decide_eq_true_eq]
    constructor
    · intro h; exact div_pos (by exact_mod_cast Nat.pos_of_ne_zero h) hbR
    · intro h h0; simp [h0] at h
  · exact Nat.pow_le_pow_right (by norm_num) (frac_le g)

theorem isqrtFrom_spec (n : Nat) : ∀ (k r : Nat), r * r ≤ n → n < (r + 2 ^ (k + 1)) * (r + 2 ^ (k + 1)) →
    isqrtFrom n k r * isqrtFrom n k r ≤ n ∧ n < (isqrtFrom n k r + 1) * (isqrtFrom n k r + 1) := by
  intro k
  induction k with
  | zero =>
    intro r h1 h2
    unfold isqrtFrom
    split
    · next h => exact ⟨h, by simpa using h2⟩
    · next h => exact ⟨h1, by omega⟩
  | succ k ih =>
    intro r h1 h2
    unfold isqrtFrom
    dsimp only
    split
    · next h => exact ih _ h (by rw [add_assoc, ← two_mul, ← pow_succ']; exact h2)
    · next h => exact ih _ h1 (by omega)

/-- The integer square root is the floor of the square root. -/
theorem isqrt_spec (n : Nat) : isqrt n * isqrt n ≤ n ∧ n < (isqrt n + 1) * (isqrt n + 1) := by
  refine isqrtFrom_spec n _ 0 (by omega) ?_
  rcases Nat.eq_zero_or_pos n with rfl | h
  · decide
  · have h1 : n < 2 ^ (n.log2 + 1) := Nat.lt_log2_self
    refine lt_of_lt_of_le h1 ?_
    rw [Nat.zero_add, ← pow_add]
    exact Nat.pow_le_pow_right (by norm_num) (by omega)

/-- An integer square root with what it leaves of the root of a real in its unit. -/
theorem isqrt_real {r : Nat} {x : ℝ} (h1 : (r : ℝ) * r ≤ x) (h2 : x < (r + 1) * (r + 1)) :
    0 ≤ √x - r ∧ √x - r < 1 ∧ ((r : ℝ) * r ≠ x ↔ 0 < √x - r) := by
  have hx : 0 ≤ x := le_trans (by positivity) h1
  have h3 : (r : ℝ) ≤ √x := Real.le_sqrt_of_sq_le (by rw [sq]; exact h1)
  have h4 : √x < r + 1 := by rw [Real.sqrt_lt' (by positivity), sq]; exact h2
  refine ⟨by linarith, by linarith, ?_, ?_⟩
  · intro hne
    rcases lt_or_eq_of_le h3 with h | h
    · linarith
    · exact absurd (by rw [h, Real.mul_self_sqrt hx]) hne
  · intro h heq
    have : √x = r := by rw [← heq, Real.sqrt_mul_self (by positivity)]
    linarith

/-- A value with an even exponent, as the square roots take it. -/
theorem even_split (m e : Int) (hm : 0 < m) : ∃ (a : Nat) (j : Int), 0 < a ∧ (m : ℝ) * 2 ^ e = a * 2 ^ (2 * j) ∧
    (if e % 2 = 0 then (m.natAbs, e) else (2 * m.natAbs, e - 1)) = (a, 2 * j) := by
  have h1 : 0 < m.natAbs := Int.natAbs_pos.mpr hm.ne'
  have h2 : (m : ℝ) = m.natAbs := by rw [Nat.cast_natAbs, abs_of_pos hm]
  by_cases h : e % 2 = 0
  · exact ⟨m.natAbs, e / 2, h1, by rw [h2, show 2 * (e / 2) = e by omega], by rw [if_pos h, show 2 * (e / 2) = e by omega]⟩
  · refine ⟨2 * m.natAbs, (e - 1) / 2, by omega, ?_, by rw [if_neg h, show 2 * ((e - 1) / 2) = e - 1 by omega]⟩
    rw [show 2 * ((e - 1) / 2) = e - 1 by omega, zpow_sub_one₀ (by norm_num), h2]
    push_cast; ring

theorem sqrt_pow (a : ℝ) (ha : 0 ≤ a) (j : Int) : √(a * 2 ^ (2 * j)) = √a * 2 ^ j := by
  rw [Real.sqrt_mul ha, mul_comm 2 j, zpow_mul, show ((2:ℝ) ^ j) ^ (2:Int) = (2 ^ j) ^ (2:ℕ) from zpow_natCast _ 2,
    Real.sqrt_sq (two_zpow_pos j).le]

/-- SQUARE ROOT: the root of a positive finite value, rounded (R100, R211). -/
theorem sqrtRne_rounds (g : Fmt) (m e : Int) (hm : 0 < m) : RoundsTo g false √((m : ℝ) * 2 ^ e) (sqrtRne g (.fin m e)) := by
  obtain ⟨a, j, ha, hv, hs⟩ := even_split m e hm
  unfold sqrtRne
  dsimp only
  rw [if_neg (not_lt.mpr hm.le), hv, hs]
  dsimp only
  rw [show 2 * j / 2 - 64 = j - 64 by omega, sqrt_pow _ (by positivity)]
  obtain ⟨h1, h2⟩ := isqrt_spec (a * 2 ^ 128)
  generalize isqrt (a * 2 ^ 128) = r at *
  have h1R : (r : ℝ) * r ≤ a * 2 ^ 128 := by exact_mod_cast h1
  have h2R : (a : ℝ) * 2 ^ 128 < (r + 1) * (r + 1) := by exact_mod_cast h2
  obtain ⟨h3, h4, h5⟩ := isqrt_real h1R h2R
  have hx : √(a : ℝ) * 2 ^ j = (r + (√((a : ℝ) * 2 ^ 128) - r)) * 2 ^ (j - 64) := by
    have := sqrt_pow (a : ℝ) (by positivity) 64
    rw [show (2 * 64 : Int) = ((128 : Nat) : Int) by norm_num, zpow_natCast] at this
    rw [this, zpow_sub₀ (by norm_num)]
    field_simp
    ring
  have hr : 2 ^ 24 ≤ r := by
    by_contra h
    have h6 : (r + 1) * (r + 1) ≤ 2 ^ 24 * 2 ^ 24 := Nat.mul_le_mul (by omega) (by omega)
    have : 2 ^ 128 ≤ a * 2 ^ 128 := Nat.le_mul_of_pos_left _ ha
    omega
  rw [hx]
  refine roundMag_rounds g _ r _ _ _ (by omega) h3 h4 ?_ fun _ => le_trans (Nat.pow_le_pow_right (by norm_num) (frac_le g)) hr
  rw [decide_eq_true_eq, ← h5]
  exact not_congr (by constructor <;> intro h <;> exact_mod_cast h)

/-- RECIPROCAL SQUARE ROOT of a positive finite value, rounded (R211). -/
theorem rsqrtRne_rounds (g : Fmt) (m e : Int) (hm : 0 < m) : RoundsTo g false (1 / √((m : ℝ) * 2 ^ e)) (rsqrtRne g (.fin m e)) := by
  obtain ⟨a, j, ha, hv, hs⟩ := even_split m e hm
  unfold rsqrtRne
  dsimp only
  rw [if_neg (not_lt.mpr hm.le), hv, hs]
  dsimp only
  generalize hk : Nat.log2 a + 66 = k
  rw [show -(2 * j / 2) - (k : Int) = -j - k by omega, sqrt_pow _ (by positivity)]
  have haR : (0 : ℝ) < a := by exact_mod_cast ha
  obtain ⟨h1, h2⟩ := isqrt_spec (2 ^ (2 * k) / a)
  generalize isqrt (2 ^ (2 * k) / a) = r at *
  have h1N : r * r * a ≤ 2 ^ (2 * k) := (Nat.le_div_iff_mul_le ha).mp h1
  have h2N : 2 ^ (2 * k) < (r + 1) * (r + 1) * a := (Nat.div_lt_iff_lt_mul ha).mp h2
  have h1R : (r : ℝ) * r ≤ 2 ^ (2 * k) / a := by rw [le_div_iff₀ haR]; exact_mod_cast h1N
  have h2R : (2 : ℝ) ^ (2 * k) / a < (r + 1) * (r + 1) := by rw [div_lt_iff₀ haR]; exact_mod_cast h2N
  obtain ⟨h3, h4, h5⟩ := isqrt_real h1R h2R
  have hroot : √((2 : ℝ) ^ (2 * k) / a) = 2 ^ k / √a := by
    rw [Real.sqrt_div (by positivity), pow_mul', Real.sqrt_sq (by positivity)]
  have hx : 1 / (√(a : ℝ) * 2 ^ j) = (r + (√((2 : ℝ) ^ (2 * k) / a) - r)) * 2 ^ (-j - (k : Int)) := by
    rw [hroot, zpow_sub₀ (by norm_num), zpow_neg, zpow_natCast]
    have : √(a : ℝ) ≠ 0 := (Real.sqrt_pos.mpr haR).ne'
    field_simp
    ring
  have hr : 2 ^ 24 ≤ r := by
    by_contra h
    have h6 : (r + 1) * (r + 1) ≤ 2 ^ 24 * 2 ^ 24 := Nat.mul_le_mul (by omega) (by omega)
    have h7 : a < 2 ^ (a.log2 + 1) := Nat.lt_log2_self
    have h8 : (r + 1) * (r + 1) * a ≤ 2 ^ 48 * 2 ^ (a.log2 + 1) := Nat.mul_le_mul (by omega) h7.le
    have h9 : 2 ^ 48 * 2 ^ (a.log2 + 1) ≤ 2 ^ (2 * k) := by
      rw [← pow_add]; exact Nat.pow_le_pow_right (by norm_num) (by omega)
    omega
  rw [hx]
  refine roundMag_rounds g _ r _ _ _ (by omega) h3 h4 ?_ fun _ => le_trans (Nat.pow_le_pow_right (by norm_num) (frac_le g)) hr
  rw [decide_eq_true_eq, ← h5]
  refine not_congr ?_
  rw [eq_div_iff haR.ne']
  constructor <;> intro h <;> exact_mod_cast h

/-- ROUNDING of a finite value (R39). -/
theorem rne_rounds (g : Fmt) (m e : Int) (hm : m ≠ 0) : RoundsTo g (decide (m < 0)) |(m : ℝ) * 2 ^ e| (rne g (.fin m e)) := by
  have hx : |(m : ℝ) * 2 ^ e| = ((m.natAbs : ℝ) + 0) * 2 ^ e := by
    rw [abs_mul, abs_of_pos (two_zpow_pos e), add_zero, Nat.cast_natAbs]; push_cast; ring
  rw [hx]
  exact roundMag_rounds g _ _ false e 0 (Int.natAbs_pos.mpr hm) le_rfl one_pos (by simp) (by simp)

/-- The nearest integer of a quotient, a tie going to the even one. -/
theorem roundDiv_nearest (n d : Nat) (hd : 0 < d) :
    |(n : ℝ) / d - roundDiv n d| ≤ 1 / 2 ∧ (|(n : ℝ) / d - roundDiv n d| = 1 / 2 → roundDiv n d % 2 = 0) := by
  have hdR : (0 : ℝ) < d := by exact_mod_cast hd
  have h1 : (n : ℝ) = d * (n / d : Nat) + (n % d : Nat) := by exact_mod_cast (Nat.div_add_mod n d).symm
  have hr : n % d < d := Nat.mod_lt _ hd
  unfold roundDiv
  dsimp only
  generalize n / d = q at *
  generalize n % d = r at *
  have hx : (n : ℝ) / d = q + r / d := by rw [h1]; field_simp
  rw [hx]
  have hle : (r : ℝ) / d ≤ 1 := by rw [div_le_one hdR]; exact_mod_cast hr.le
  have h0 : (0 : ℝ) ≤ r / d := by positivity
  split
  · next h =>
    have hge : 1 / 2 ≤ (r : ℝ) / d := by
      rw [le_div_iff₀ hdR]
      have : (d : ℝ) ≤ 2 * r := by exact_mod_cast (by omega : d ≤ 2 * r)
      linarith
    rw [show (q : ℝ) + r / d - ((q + 1 : Nat) : ℝ) = -(1 - r / d) by push_cast; ring, abs_neg, abs_of_nonneg (by linarith)]
    refine ⟨by linarith, fun heq => ?_⟩
    have h2 : (r : ℝ) / d = 1 / 2 := by linarith
    rw [div_eq_iff hdR.ne'] at h2
    have h3 : 2 * r = d := by exact_mod_cast (by linarith : (2 : ℝ) * r = d)
    omega
  · next h =>
    have hge : (r : ℝ) / d ≤ 1 / 2 := by
      rw [div_le_iff₀ hdR]
      have : 2 * (r : ℝ) ≤ d := by exact_mod_cast (by omega : 2 * r ≤ d)
      linarith
    rw [show (q : ℝ) + r / d - q = r / d by ring, abs_of_nonneg h0]
    refine ⟨hge, fun heq => ?_⟩
    rw [div_eq_iff hdR.ne'] at heq
    have h3 : 2 * r = d := by exact_mod_cast (by linarith : (2 : ℝ) * r = d)
    omega

/-- The integer of a finite value (R89 case 3). -/
theorem toIntRne_nearest (m e : Int) :
    Nearest ((m : ℝ) * 2 ^ e) (toIntRne (.fin m e)) := by
  unfold Nearest
  have hx : (m.natAbs : ℝ) * 2 ^ e = ((m.natAbs * 2 ^ e.toNat : Nat) : ℝ) / ((2 ^ (-e).toNat : Nat) : ℝ) := by
    have : e = (e.toNat : Int) - ((-e).toNat : Int) := by omega
    conv_lhs => rw [this, zpow_sub₀ (by norm_num), zpow_natCast, zpow_natCast]
    push_cast; ring
  have h := roundDiv_nearest (m.natAbs * 2 ^ e.toNat) (2 ^ (-e).toNat) (by positivity)
  rw [← hx] at h
  unfold toIntRne
  dsimp only
  generalize roundDiv (m.natAbs * 2 ^ e.toNat) (2 ^ (-e).toNat) = a at *
  rw [Nat.cast_natAbs] at h
  split
  · next hm =>
    have h1 : ((|m| : Int) : ℝ) = -m := by rw [abs_of_neg hm]; push_cast; ring
    rw [h1] at h
    have h2 : (m : ℝ) * 2 ^ e - ((-(a : Int) : Int) : ℝ) = -(-m * 2 ^ e - a) := by push_cast; ring
    rw [h2, abs_neg]
    exact ⟨h.1, fun h3 => by have := h.2 h3; omega⟩
  · next hm =>
    have h1 : ((|m| : Int) : ℝ) = m := by rw [abs_of_nonneg (not_lt.mp hm)]
    rw [h1] at h
    have h2 : (((a : Int)) : ℝ) = (a : ℝ) := by push_cast; rfl
    rw [h2]
    exact ⟨h.1, fun h3 => by have := h.2 h3; omega⟩

end Sys2Proof.Laws
end

