-- ==== Sys2Proof/Laws/Exponential.lean ====
section
/-! SUPPORT. Powers of two and base-2 logarithms: how near the value that `exp2Rne` and `log2Rne` round is to the exact one (R211,
log 75). -/

namespace Sys2Proof.Laws

open Sys2Proof Sys2Proof.Machine Sys2Proof.Safety

/-! Powers of two. -/

theorem ln2Fixed_near (p : Nat) : ∀ k : Nat,
    |(ln2Fixed p k : ℝ) - 2 ^ p * ∑ i ∈ Finset.range k, (1 / 2 : ℝ) ^ (i + 1) / (i + 1)| ≤ k := by
  intro k
  induction k with
  | zero => simp [ln2Fixed]
  | succ k ih =>
    unfold ln2Fixed
    rw [Finset.sum_range_succ, mul_add]
    have h1 : (2 : ℝ) ^ p * ((1 / 2) ^ (k + 1) / (k + 1)) = ((2 ^ p : Nat) : ℝ) / (((k + 1) * 2 ^ (k + 1) : Nat) : ℝ) := by
      push_cast; rw [one_div, inv_pow]; field_simp
    rw [h1]
    have h2 : 0 < (k + 1) * 2 ^ (k + 1) := by positivity
    have h3 : ((2 ^ p / ((k + 1) * 2 ^ (k + 1)) : Nat) : ℝ) ≤ ((2 ^ p : Nat) : ℝ) / (((k + 1) * 2 ^ (k + 1) : Nat) : ℝ) := Nat.cast_div_le
    have h4 : ((2 ^ p : Nat) : ℝ) / (((k + 1) * 2 ^ (k + 1) : Nat) : ℝ) < ((2 ^ p / ((k + 1) * 2 ^ (k + 1)) : Nat) : ℝ) + 1 := by
      rw [div_lt_iff₀ (by exact_mod_cast h2)]
      exact_mod_cast Nat.lt_succ_iff.mp (by
        have := Nat.lt_div_mul_add (a := 2 ^ p) h2
        have h5 : (2 ^ p / ((k + 1) * 2 ^ (k + 1)) + 1) * ((k + 1) * 2 ^ (k + 1)) =
          2 ^ p / ((k + 1) * 2 ^ (k + 1)) * ((k + 1) * 2 ^ (k + 1)) + (k + 1) * 2 ^ (k + 1) := by ring
        omega)
    have h5 := abs_le.mp ih
    rw [abs_le]
    push_cast at *
    constructor <;> linarith [h5.1, h5.2]

theorem ln2Fixed_log (p : Nat) : |(ln2Fixed p p : ℝ) - 2 ^ p * Real.log 2| ≤ p + 1 := by
  have h1 := ln2Fixed_near p p
  have h2 := Real.abs_log_sub_add_sum_range_le (x := 1 / 2) (by norm_num [abs_of_pos]) p
  have h3 : Real.log (1 - 1 / 2) = -Real.log 2 := by
    rw [show (1 : ℝ) - 1 / 2 = 2⁻¹ by norm_num, Real.log_inv]
  have h4 : |(1 / 2 : ℝ)| ^ (p + 1) / (1 - |1 / 2|) = 1 / 2 ^ p := by
    rw [abs_of_pos (by norm_num)]; rw [pow_succ, one_div, inv_pow]; norm_num
  rw [h3, h4] at h2
  generalize ∑ i ∈ Finset.range p, (1 / 2 : ℝ) ^ (i + 1) / (i + 1) = S at *
  have hP : (0 : ℝ) < 2 ^ p := by positivity
  have h5 : |2 ^ p * S - 2 ^ p * Real.log 2| ≤ 1 := by
    rw [← mul_sub, abs_mul, abs_of_pos hP]
    calc (2 : ℝ) ^ p * |S - Real.log 2| ≤ 2 ^ p * (1 / 2 ^ p) := by gcongr; exact h2
      _ = 1 := by field_simp
  have := abs_sub_le (ln2Fixed p p : ℝ) (2 ^ p * S) (2 ^ p * Real.log 2)
  linarith

/-- The terms of the exponential series, each off by at most two units. -/
theorem expTerms_near (p y : Nat) (hy : y ≤ 2 ^ p) : ∀ (K n t : Nat) (τ : ℝ), 0 < n →
    |(t : ℝ) - τ| ≤ (if n = 1 then 0 else 2) →
    |(expTerms p y K n t : ℝ) - ∑ j ∈ Finset.range K, τ * (y / 2 ^ p) ^ j * ((n - 1).factorial / (n - 1 + j).factorial)| ≤ 2 * K := by
  intro K
  induction K with
  | zero => intro n t τ _ _; simp [expTerms]
  | succ K ih =>
    intro n t τ hn ht
    unfold expTerms
    rw [Finset.sum_range_succ']
    have hP : (0 : ℝ) < 2 ^ p := by positivity
    have hY0 : (0 : ℝ) ≤ y / 2 ^ p := by positivity
    have hY1 : (y : ℝ) / 2 ^ p ≤ 1 := by rw [div_le_one hP]; exact_mod_cast hy
    generalize hYd : (y : ℝ) / 2 ^ p = Y at *
    have hnR : (0 : ℝ) < n := by exact_mod_cast hn
    have hfl : ((t * y / 2 ^ p / n : Nat) : ℝ) ≤ t * Y / n ∧ (t : ℝ) * Y / n < ((t * y / 2 ^ p / n : Nat) : ℝ) + 1 := by
      rw [Nat.div_div_eq_div_mul]
      have h1 : (t : ℝ) * Y / n = ((t * y : Nat) : ℝ) / ((2 ^ p * n : Nat) : ℝ) := by
        rw [← hYd]; push_cast; field_simp
      have h2 : 0 < 2 ^ p * n := by positivity
      rw [h1]
      refine ⟨Nat.cast_div_le, ?_⟩
      rw [div_lt_iff₀ (by exact_mod_cast h2)]
      exact_mod_cast (Nat.div_lt_iff_lt_mul h2).mp (Nat.lt_succ_self _)
    have hstep : |((t * y / 2 ^ p / n : Nat) : ℝ) - τ * Y / n| ≤ (if n + 1 = 1 then 0 else 2) := by
      rw [if_neg (by omega)]
      have h3 : |(t : ℝ) * Y / n - τ * Y / n| ≤ 1 := by
        rw [← sub_div, ← sub_mul, abs_div, abs_mul, abs_of_nonneg hY0, abs_of_pos hnR, div_le_one hnR]
        split at ht
        · next h => 
          have : |(t : ℝ) - τ| = 0 := le_antisymm ht (abs_nonneg _)
          rw [this]; simp
        · next h =>
          have : (2 : ℝ) ≤ n := by exact_mod_cast (by omega : 2 ≤ n)
          calc |(t : ℝ) - τ| * Y ≤ 2 * 1 := by gcongr
            _ ≤ n := by linarith
      have h4 := abs_le.mp h3
      rw [abs_le]
      constructor <;> linarith [hfl.1, hfl.2, h4.1, h4.2]
    have h5 := ih (n + 1) _ (τ * Y / n) (by omega) hstep
    have h6 : ∑ j ∈ Finset.range K, τ * Y ^ (j + 1) * (((n - 1).factorial : ℝ) / ((n - 1 + (j + 1)).factorial : ℝ)) =
        ∑ j ∈ Finset.range K, τ * Y / n * Y ^ j * (((n + 1 - 1).factorial : ℝ) / ((n + 1 - 1 + j).factorial : ℝ)) := by
      refine Finset.sum_congr rfl fun j _ => ?_
      obtain ⟨k, rfl⟩ := Nat.exists_eq_succ_of_ne_zero hn.ne'
      have h7 : k.succ - 1 + (j + 1) = k.succ + 1 - 1 + j := by omega
      rw [h7, show k.succ - 1 = k from rfl, show k.succ + 1 - 1 = k.succ from rfl, Nat.factorial_succ]
      push_cast
      rw [pow_succ]
      have : ((k : ℝ) + 1) ≠ 0 := by positivity
      field_simp
    rw [h6]
    generalize (∑ j ∈ Finset.range K, τ * Y / n * Y ^ j * (((n + 1 - 1).factorial : ℝ) / ((n + 1 - 1 + j).factorial : ℝ))) = S at *
    have h8 : |(t : ℝ) - τ| ≤ 2 := le_trans ht (by split <;> norm_num)
    have h9 : τ * Y ^ 0 * (((n - 1).factorial : ℝ) / ((n - 1 + 0).factorial : ℝ)) = τ := by
      have : ((n - 1).factorial : ℝ) ≠ 0 := by positivity
      simp [div_self this]
    rw [h9]
    have h10 := abs_le.mp h5
    have h11 := abs_le.mp h8
    rw [abs_le]
    push_cast
    constructor <;> linarith [h10.1, h10.2, h11.1, h11.2]

/-- What is lost at working precision `p` is less than one part in 2^240. -/
theorem small_loss (p : Nat) (hp : 256 ≤ p) : (4 * (p : ℝ) + 300) / 2 ^ p ≤ 1 / 2 ^ 240 := by
  obtain ⟨k, rfl⟩ := Nat.exists_eq_add_of_le hp
  have h : 4 * (256 + k) + 300 ≤ 2 ^ 16 * 2 ^ k := by
    induction k with
    | zero => decide
    | succ k ih => rw [pow_succ]; omega
  rw [div_le_div_iff₀ (by positivity) (by positivity), pow_add]
  have h2 : (4 * (((256 + k : Nat)) : ℝ) + 300) ≤ 2 ^ 16 * 2 ^ k := by exact_mod_cast h
  calc (4 * (((256 + k : Nat)) : ℝ) + 300) * 2 ^ 240 ≤ 2 ^ 16 * 2 ^ k * 2 ^ 240 := by gcongr
    _ = 1 * (2 ^ 256 * 2 ^ k) := by ring

theorem pow8_le_factorial (k : Nat) : 8 ^ k ≤ (k + 8).factorial := by
  induction k with
  | zero => exact Nat.succ_le_of_lt (Nat.factorial_pos _)
  | succ k ih =>
    rw [show k + 1 + 8 = (k + 8) + 1 by ring, Nat.factorial_succ, pow_succ]
    nlinarith

/-- The fixed-point exponential against the exact power of two. -/
theorem exp2Fixed_near (p f : Nat) (hp : 256 ≤ p) (hf : f < 2 ^ p) :
    |((exp2Fixed p f : ℝ) + 1 / 2) / 2 ^ p - 2 ^ ((f : ℝ) / 2 ^ p)| ≤ 1 / 2 ^ 200 ∧ 2 ^ p ≤ exp2Fixed p f := by
  have hP : (0 : ℝ) < 2 ^ p := by positivity
  have hloss := small_loss p hp
  have hpP : ((p : ℝ) + 2) / 2 ^ p ≤ 1 / 2 ^ 240 := le_trans (div_le_div_of_nonneg_right (by linarith [(Nat.cast_nonneg p : (0:ℝ) ≤ p)]) hP.le) hloss
  unfold exp2Fixed
  generalize hyd : f * ln2Fixed p p / 2 ^ p = y
  have hl := abs_le.mp (ln2Fixed_log p)
  have hF0 : (0 : ℝ) ≤ f / 2 ^ p := by positivity
  have hF1 : (f : ℝ) / 2 ^ p < 1 := by rw [div_lt_one hP]; exact_mod_cast hf
  have hy1 : (y : ℝ) ≤ f * ln2Fixed p p / 2 ^ p := by
    rw [← hyd]; exact_mod_cast (Nat.cast_div_le : ((f * ln2Fixed p p / 2 ^ p : Nat) : ℝ) ≤ _)
  have hy2 : (f : ℝ) * ln2Fixed p p / 2 ^ p < y + 1 := by
    rw [← hyd, div_lt_iff₀ hP]
    exact_mod_cast (Nat.div_lt_iff_lt_mul (by positivity : 0 < 2 ^ p)).mp (Nat.lt_succ_self _)
  generalize hFd : (f : ℝ) / 2 ^ p = F at *
  have hflF : (f : ℝ) * ln2Fixed p p / 2 ^ p = F * ln2Fixed p p := by rw [← hFd]; ring
  rw [hflF] at hy1 hy2
  -- the exponent
  have hY : |(y : ℝ) / 2 ^ p - F * Real.log 2| ≤ (p + 2) / 2 ^ p := by
    have h1 : (y : ℝ) / 2 ^ p - F * Real.log 2 = (y - F * (2 ^ p * Real.log 2)) / 2 ^ p := by field_simp
    rw [h1, abs_div, abs_of_pos hP]
    gcongr
    rw [abs_le]
    have h2 : F * ln2Fixed p p - F * (2 ^ p * Real.log 2) ≤ p + 1 := by
      rw [← mul_sub]
      calc F * ((ln2Fixed p p : ℝ) - 2 ^ p * Real.log 2) ≤ F * (p + 1) := by gcongr; exact hl.2
        _ ≤ 1 * (p + 1) := by gcongr
        _ = p + 1 := one_mul _
    have h3 : -(p + 1 : ℝ) ≤ F * ln2Fixed p p - F * (2 ^ p * Real.log 2) := by
      rw [← mul_sub]
      calc -(p + 1 : ℝ) = 1 * -(p + 1 : ℝ) := by ring
        _ ≤ F * -(p + 1 : ℝ) := by nlinarith [(Nat.cast_nonneg p : (0:ℝ) ≤ p)]
        _ ≤ F * ((ln2Fixed p p : ℝ) - 2 ^ p * Real.log 2) := by gcongr; exact hl.1
    constructor <;> linarith
  have hlog1 : Real.log 2 < 0.7 := lt_trans Real.log_two_lt_d9 (by norm_num)
  have hlog0 : 0 < Real.log 2 := Real.log_pos (by norm_num)
  have hθ0 : 0 ≤ F * Real.log 2 := by positivity
  have hθ1 : F * Real.log 2 < 0.7 := by nlinarith
  have hY' := abs_le.mp hY
  have hYle : (y : ℝ) / 2 ^ p ≤ 0.8 := by
    have : (1 : ℝ) / 2 ^ 240 ≤ 0.1 := by norm_num
    linarith [hY'.2]
  have hyle : y ≤ 2 ^ p := by
    have : (y : ℝ) ≤ 2 ^ p := by
      rw [div_le_iff₀ hP] at hYle; nlinarith
    exact_mod_cast this
  have hY0 : (0 : ℝ) ≤ y / 2 ^ p := by positivity
  -- the series
  have hser := expTerms_near p y hyle 120 1 (2 ^ p) (2 ^ p) one_pos (by simp)
  have hsum : ∑ j ∈ Finset.range 120, (2 : ℝ) ^ p * (y / 2 ^ p) ^ j * (((1 - 1 : Nat).factorial : ℝ) / ((1 - 1 + j).factorial : ℝ)) =
      2 ^ p * ∑ j ∈ Finset.range 120, ((y : ℝ) / 2 ^ p) ^ j / (j.factorial : ℝ) := by
    rw [Finset.mul_sum]
    refine Finset.sum_congr rfl fun j _ => ?_
    simp [div_eq_mul_inv, mul_assoc]
  rw [hsum] at hser
  have hbound := Real.exp_bound (x := (y : ℝ) / 2 ^ p) (by rw [abs_of_nonneg hY0]; linarith) (n := 120) (by norm_num)
  generalize hSd : ∑ j ∈ Finset.range 120, ((y : ℝ) / 2 ^ p) ^ j / (j.factorial : ℝ) = S at *
  have hrem : |Real.exp ((y : ℝ) / 2 ^ p) - S| ≤ 1 / 2 ^ 240 := by
    refine le_trans hbound ?_
    have h1 : |(y : ℝ) / 2 ^ p| ^ 120 ≤ 1 := pow_le_one₀ (abs_nonneg _) (by rw [abs_of_nonneg hY0]; linarith)
    have h2 : (((Nat.succ 120 : Nat) : ℝ) / ((Nat.factorial 120 : ℝ) * 120)) ≤ 1 / 2 ^ 240 := by
      rw [div_le_div_iff₀ (by positivity) (by positivity)]
      have h3 := pow8_le_factorial 112
      have h4 : 2 * 2 ^ 240 ≤ 8 ^ 112 := by norm_num
      have : Nat.succ 120 * 2 ^ 240 ≤ 1 * (Nat.factorial 120 * 120) := by
        generalize Nat.factorial 120 = z at *
        omega
      exact_mod_cast this
    refine le_trans ?_ h2
    exact mul_le_of_le_one_left (by positivity) h1
  have hser' : |(expTerms p y 120 1 (2 ^ p) : ℝ) / 2 ^ p - S| ≤ 240 / 2 ^ p := by
    have h1 : (expTerms p y 120 1 (2 ^ p) : ℝ) / 2 ^ p - S = (expTerms p y 120 1 (2 ^ p) - 2 ^ p * S) / 2 ^ p := by
      rw [sub_div, mul_div_cancel_left₀ _ hP.ne']
    rw [h1, abs_div, abs_of_pos hP]
    gcongr
    refine le_trans hser (by norm_num)
  have hexp : |Real.exp ((y : ℝ) / 2 ^ p) - Real.exp (F * Real.log 2)| ≤ 3 * ((p + 2) / 2 ^ p) := by
    have h1 : ∀ a b : ℝ, 0 ≤ a → 0 ≤ b → a ≤ 1 → b ≤ 1 → a ≤ b → Real.exp b - Real.exp a ≤ 3 * (b - a) := by
      intro a b _ _ _ hb hab
      have h2 : Real.exp b - Real.exp a = Real.exp b * (1 - Real.exp (a - b)) := by
        rw [mul_sub, ← Real.exp_add]; ring_nf
      have h3 : 1 - Real.exp (a - b) ≤ b - a := by linarith [Real.add_one_le_exp (a - b)]
      have h4 : Real.exp b ≤ 3 := le_trans (Real.exp_le_exp.mpr hb) (by linarith [Real.exp_one_lt_d9])
      rw [h2]
      have h5 : 0 ≤ 1 - Real.exp (a - b) := by
        have := Real.exp_le_one_iff.mpr (show a - b ≤ 0 by linarith); linarith
      nlinarith [Real.exp_pos b]
    rw [abs_le]
    rcases le_total ((y : ℝ) / 2 ^ p) (F * Real.log 2) with h | h
    · have h2 := h1 _ _ hY0 hθ0 (by linarith) (by linarith) h
      have h3 := Real.exp_le_exp.mpr h
      constructor <;> linarith [hY'.1, hY'.2]
    · have h2 := h1 _ _ hθ0 hY0 (by linarith) (by linarith) h
      have h3 := Real.exp_le_exp.mpr h
      constructor <;> linarith [hY'.1, hY'.2]
  have h2F : (2 : ℝ) ^ F = Real.exp (F * Real.log 2) := by rw [Real.rpow_def_of_pos (by norm_num), mul_comm]
  refine ⟨?_, ?_⟩
  · rw [h2F]
    have a1 := abs_le.mp hser'
    have a2 := abs_le.mp hrem
    have a3 := abs_le.mp hexp
    have h1 : ((expTerms p y 120 1 (2 ^ p) : ℝ) + 1 / 2) / 2 ^ p = (expTerms p y 120 1 (2 ^ p) : ℝ) / 2 ^ p + (1 / 2) / 2 ^ p := by ring
    have h3 : 240 / 2 ^ p + 3 * (((p : ℝ) + 2) / 2 ^ p) + (1 / 2) / 2 ^ p ≤ (4 * (p : ℝ) + 300) / 2 ^ p := by
      rw [← mul_div_assoc, ← add_div, ← add_div]
      refine div_le_div_of_nonneg_right ?_ hP.le
      linarith [(Nat.cast_nonneg p : (0:ℝ) ≤ p)]
    have h4 : (0 : ℝ) ≤ (1 / 2) / 2 ^ p := by positivity
    have h5 : (1 : ℝ) / 2 ^ 240 + 1 / 2 ^ 240 ≤ 1 / 2 ^ 200 := by norm_num
    rw [h1, abs_le]
    constructor <;> linarith [a1.1, a1.2, a2.1, a2.2, a3.1, a3.2]
  · unfold expTerms; omega

theorem pos24 : 0 < 2 ^ 24 := by norm_num

/-- A magnitude of 2^1024 or more rounds to infinity. -/
theorem roundMag_huge (g : Fmt) (neg : Bool) (n : Nat) (sticky : Bool) (e : Int) (hn : 2 ^ 24 ≤ n) (hb : 1024 ≤ e + (n.log2 : Int)) :
    roundMag g neg n sticky e = g.inf neg := by
  have hn0 : n ≠ 0 := (lt_of_lt_of_le pos24 hn).ne'
  rw [roundMag_eq g neg n sticky e hn0]
  have hbias : (g.bias : Int) + g.frac ≤ 1000 := by cases g <;> decide
  have hP : 0 < 2 ^ g.frac := by positivity
  have hlog : g.frac + 1 ≤ n.log2 := le_trans (frac_le g) ((Nat.le_log2 hn0).mpr hn)
  have ht : max (e + (Nat.log2 n : Int) - g.frac) (1 - (g.bias : Int) - g.frac) = e + (Nat.log2 n : Int) - g.frac := by omega
  rw [ht]
  have hinf : ∀ k : Nat, 1023 ≤ k → g.inf false ≤ k * 2 ^ g.frac := by
    intro k hk
    have : g.inf false ≤ 1023 * 2 ^ g.frac := by cases g <;> decide
    exact le_trans this (Nat.mul_le_mul_right _ hk)
  have henc : ∀ (q : Nat) (t : Int), 2 ^ g.frac ≤ q → 1024 - (g.frac : Int) ≤ t → encodeGrid g neg q t = g.inf neg := by
    intro q t hq ht
    unfold encodeGrid
    rw [if_neg (by omega), if_neg (by omega)]
    dsimp only
    have := hinf (t + g.frac + g.bias).toNat (by omega)
    rw [if_pos (by omega)]
  have hsig : 2 ^ g.frac ≤ signif n sticky e (e + (Nat.log2 n : Int) - g.frac) := by
    have h1 : 2 ^ g.frac ≤ n / 2 ^ (n.log2 - g.frac) := by
      rw [Nat.le_div_iff_mul_le (by positivity), ← pow_add, show g.frac + (n.log2 - g.frac) = n.log2 by omega]
      exact Nat.log2_self_le hn0
    unfold signif
    rw [if_neg (by omega), show (e + (Nat.log2 n : Int) - g.frac - e).toNat = n.log2 - g.frac by omega]
    dsimp only
    split <;> omega
  dsimp only
  split
  · exact henc _ _ le_rfl (by omega)
  · exact henc _ _ hsig (by omega)

/-- A magnitude below 2^-1000 rounds to zero. -/
theorem roundMag_tiny (g : Fmt) (neg : Bool) (n : Nat) (sticky : Bool) (e : Int) (hn : 0 < n) (hb : e + (n.log2 : Int) ≤ -1000) :
    roundMag g neg n sticky e = g.zero neg := by
  rw [roundMag_eq g neg n sticky e hn.ne']
  have hbias : (g.bias : Int) + g.frac ≤ 200 ∧ 0 ≤ (g.bias : Int) := by cases g <;> decide
  have ht : max (e + (Nat.log2 n : Int) - g.frac) (1 - (g.bias : Int) - g.frac) = 1 - (g.bias : Int) - g.frac := by omega
  rw [ht]
  have hsig : signif n sticky e (1 - (g.bias : Int) - g.frac) = 0 := by
    unfold signif
    obtain ⟨k, hk⟩ : ∃ k : Nat, (1 - (g.bias : Int) - g.frac - e).toNat = n.log2 + 1 + (k + 1) :=
      ⟨(1 - (g.bias : Int) - g.frac - e).toNat - n.log2 - 2, by omega⟩
    have h1 : n < 2 ^ (n.log2 + 1) := Nat.lt_log2_self
    have h2 : 2 ^ (n.log2 + 1) ≤ 2 ^ (n.log2 + 1 + k) := Nat.pow_le_pow_right (by norm_num) (by omega)
    have h3 : 2 ^ (n.log2 + 1 + k) ≤ 2 ^ (n.log2 + 1 + (k + 1)) := Nat.pow_le_pow_right (by norm_num) (by omega)
    rw [if_neg (by omega), hk]
    dsimp only
    rw [Nat.div_eq_of_lt (by omega), Nat.mod_eq_of_lt (by omega), show n.log2 + 1 + (k + 1) - 1 = n.log2 + 1 + k by omega]
    rw [if_neg (by omega)]
  dsimp only
  rw [hsig, if_neg (by positivity)]
  rfl

/-- A positive real in units of 2^(i - 24), for 2^i at or below it and 2^(i + 1) above it. -/
theorem real_units {x : ℝ} {i : Int} (h1 : (2 : ℝ) ^ i ≤ x) (h2 : x < 2 ^ (i + 1)) :
    ∃ (n : Nat) (ε : ℝ), 2 ^ 24 ≤ n ∧ n.log2 = 24 ∧ 0 ≤ ε ∧ ε < 1 ∧ x = (n + ε) * 2 ^ (i - 24) := by
  have hu := two_zpow_pos (i - 24)
  have h3 : (2 : ℝ) ^ i = 2 ^ 24 * 2 ^ (i - 24) := by
    rw [← zpow_natCast, ← zpow_add₀ (by norm_num)]; congr 1; push_cast; ring
  have h4 : (2 : ℝ) ^ (i + 1) = 2 ^ 25 * 2 ^ (i - 24) := by rw [zpow_add_one₀ (by norm_num), h3]; ring
  have h5 : (2 : ℝ) ^ 24 ≤ x / 2 ^ (i - 24) := by rw [le_div_iff₀ hu, ← h3]; exact h1
  have h6 : x / 2 ^ (i - 24) < 2 ^ 25 := by rw [div_lt_iff₀ hu, ← h4]; exact h2
  have h0 : 0 ≤ x / 2 ^ (i - 24) := le_trans (by positivity) h5
  have hn1 : 2 ^ 24 ≤ ⌊x / 2 ^ (i - 24)⌋₊ := Nat.le_floor (by exact_mod_cast h5)
  have hn2 : ⌊x / 2 ^ (i - 24)⌋₊ < 2 ^ 25 := (Nat.floor_lt h0).mpr (by exact_mod_cast h6)
  refine ⟨⌊x / 2 ^ (i - 24)⌋₊, x / 2 ^ (i - 24) - ⌊x / 2 ^ (i - 24)⌋₊, hn1, ?_, ?_, ?_, ?_⟩
  · have h7 : ⌊x / 2 ^ (i - 24)⌋₊ ≠ 0 := (lt_of_lt_of_le pos24 hn1).ne'
    have := (Nat.le_log2 h7).mpr hn1
    have := (Nat.log2_lt h7).mpr hn2
    omega
  · linarith [Nat.floor_le h0]
  · linarith [Nat.lt_floor_add_one (x / 2 ^ (i - 24))]
  · rw [add_sub_cancel, div_mul_cancel₀ _ hu.ne']

/-- POWERS OF TWO: the exponential rounds a value within one part in 2^200 of the exact power, and the exact power where the
exponent is an integer (R211, log 75). -/
theorem exp2Rne_rounds (g : Fmt) (m e : Int) : ∃ v : ℝ, RoundsTo g false v (exp2Rne g (.fin m e)) ∧
    |v - 2 ^ ((m : ℝ) * 2 ^ e)| ≤ 2 ^ ((m : ℝ) * 2 ^ e) / 2 ^ 200 ∧
    (∀ i : Int, (m : ℝ) * 2 ^ e = i → v = 2 ^ i) := by
  have hk0 : (0 : ℝ) < ((2 ^ (-e).toNat : Nat) : ℝ) := by positivity
  have hx : (m : ℝ) * 2 ^ e = ((m * ((2 ^ e.toNat : Nat) : Int) : Int) : ℝ) / ((2 ^ (-e).toNat : Nat) : ℝ) := by
    have : e = (e.toNat : Int) - ((-e).toNat : Int) := by omega
    conv_lhs => rw [this, zpow_sub₀ (by norm_num), zpow_natCast, zpow_natCast]
    push_cast; ring
  have hself : ∀ i : Int, (m : ℝ) * 2 ^ e = i → (2 : ℝ) ^ ((m : ℝ) * 2 ^ e) = 2 ^ i := by
    intro i hi; rw [hi, Real.rpow_intCast]
  have hxp : (0 : ℝ) < 2 ^ ((m : ℝ) * 2 ^ e) := Real.rpow_pos_of_pos (by norm_num) _
  unfold exp2Rne
  dsimp only
  generalize hA : m * ((2 ^ e.toNat : Nat) : Int) = A at *
  generalize hK : (-e).toNat = k at *
  generalize (m : ℝ) * 2 ^ e = x at *
  have hdm := Int.emod_add_mul_ediv A ((2 ^ k : Nat) : Int)
  have hmod0 := Int.emod_nonneg A (show ((2 ^ k : Nat) : Int) ≠ 0 by positivity)
  have hmodlt := Int.emod_lt_of_pos A (show (0 : Int) < ((2 ^ k : Nat) : Int) by positivity)
  generalize hi : A / ((2 ^ k : Nat) : Int) = i at *
  generalize hfr : A % ((2 ^ k : Nat) : Int) = fr at *
  have hxi : x = i + (fr : ℝ) / ((2 ^ k : Nat) : ℝ) := by
    have : (A : ℝ) = fr + ((2 ^ k : Nat) : ℝ) * i := by exact_mod_cast hdm.symm
    rw [hx, this]; field_simp; ring
  have hfr0 : (0 : ℝ) ≤ (fr : ℝ) / ((2 ^ k : Nat) : ℝ) := div_nonneg (by exact_mod_cast hmod0) hk0.le
  have hfr1 : (fr : ℝ) / ((2 ^ k : Nat) : ℝ) < 1 := by rw [div_lt_one hk0]; exact_mod_cast hmodlt
  have hb1 : (2 : ℝ) ^ i ≤ 2 ^ x := by
    rw [← Real.rpow_intCast]; exact Real.rpow_le_rpow_of_exponent_le (by norm_num) (by rw [hxi]; linarith)
  have hb2 : (2 : ℝ) ^ x < 2 ^ (i + 1) := by
    rw [← Real.rpow_intCast]; exact Real.rpow_lt_rpow_of_exponent_lt (by norm_num) (by rw [hxi, Int.cast_add, Int.cast_one]; linarith)
  have hz : |(2 : ℝ) ^ x - 2 ^ x| ≤ 2 ^ x / 2 ^ 200 := by rw [sub_self, abs_zero]; positivity
  have hself' : ∀ j : Int, x = j → (2 : ℝ) ^ x = 2 ^ j := hself
  have hout : ∀ r : Nat, (∀ (n : Nat) (s : Bool), 2 ^ 24 ≤ n → n.log2 = 24 → roundMag g false n s (i - 24) = r) →
      RoundsTo g false ((2 : ℝ) ^ x) r := by
    intro r hr
    obtain ⟨n, ε, h1, h2, h3, h4, h5⟩ := real_units hb1 hb2
    rw [h5, ← hr n (decide (0 < ε)) h1 h2]
    exact roundMag_rounds g false n _ _ ε (lt_of_lt_of_le pos24 h1) h3 h4 (by simp) fun _ =>
      le_trans (Nat.pow_le_pow_right (by norm_num) (frac_le g)) h1
  split
  · next h =>
    refine ⟨2 ^ x, hout _ fun n s h1 h2 => roundMag_huge g false n s _ h1 ?_, hz, hself'⟩
    have : (1024 : Int) ≤ i := by rw [← hi]; exact (Int.le_ediv_iff_mul_le (by positivity)).mpr h
    omega
  split
  · next h =>
    refine ⟨2 ^ x, hout _ fun n s h1 h2 => roundMag_tiny g false n s _ (lt_of_lt_of_le pos24 h1) ?_, hz, hself'⟩
    have : i ≤ -1024 := by
      rw [← hi]
      have h5 := Int.ediv_le_ediv (show (0 : Int) < ((2 ^ k : Nat) : Int) by positivity) h
      rwa [Int.mul_ediv_cancel _ (by positivity)] at h5
    omega
  split
  · next h h' hf =>
    have hf0 : fr = 0 := by omega
    have hxI : x = i := by rw [hxi, hf0]; simp
    refine ⟨2 ^ x, ?_, hz, hself'⟩
    have := rne_rounds g 1 i one_ne_zero
    rw [hself' i hxI]
    simpa [abs_of_pos (two_zpow_pos i)] using this
  · next h h' hf =>
    have hfn : (fr.toNat : Int) = fr := Int.toNat_of_nonneg hmod0
    have hflt : fr.toNat < 2 ^ k := by have := hmodlt; omega
    have hnotint : ∀ j : Int, x ≠ j := by
      intro j hj
      have h1 : (fr : ℝ) / ((2 ^ k : Nat) : ℝ) = ((j - i : Int) : ℝ) := by rw [Int.cast_sub, ← hj, hxi]; ring
      have h2 : ((0 : Int) : ℝ) < ((j - i : Int) : ℝ) := by
        rw [← h1, Int.cast_zero]; exact div_pos (by exact_mod_cast (by omega : (0:Int) < fr)) hk0
      have h3 : ((j - i : Int) : ℝ) < ((1 : Int) : ℝ) := by rw [← h1, Int.cast_one]; exact hfr1
      have h2' : (0 : Int) < j - i := by exact_mod_cast h2
      have h3' : j - i < 1 := by exact_mod_cast h3
      omega
    have main : ∀ d : Nat, 256 ≤ d → ∃ v : ℝ,
        RoundsTo g false v (roundMag g false (exp2Fixed (k + d) (fr.toNat * 2 ^ (k + d - k))) true (i - ((k + d : Nat) : Int))) ∧
        |v - 2 ^ x| ≤ 2 ^ x / 2 ^ 200 ∧ (∀ j : Int, x = j → v = 2 ^ j) := by
      intro d hd
      have hpow : (2 : Nat) ^ (k + d) = 2 ^ k * 2 ^ d := pow_add 2 k d
      rw [Nat.add_sub_cancel_left]
      obtain ⟨h1, h2⟩ := exp2Fixed_near (k + d) (fr.toNat * 2 ^ d) (by omega) (by
        rw [hpow]; exact Nat.mul_lt_mul_of_pos_right hflt (by positivity))
      generalize exp2Fixed (k + d) (fr.toNat * 2 ^ d) = lo at *
      have hF : ((fr.toNat * 2 ^ d : Nat) : ℝ) / 2 ^ (k + d) = (fr : ℝ) / ((2 ^ k : Nat) : ℝ) := by
        have h4 : ((fr.toNat : Nat) : ℝ) = fr := by exact_mod_cast hfn
        push_cast
        rw [h4, pow_add]; field_simp
      rw [hF] at h1
      have hxr : (2 : ℝ) ^ x = 2 ^ i * 2 ^ ((fr : ℝ) / ((2 ^ k : Nat) : ℝ)) := by
        rw [hxi, Real.rpow_add (by norm_num), Real.rpow_intCast]
      have hlo : 2 ^ 24 ≤ lo := le_trans (Nat.pow_le_pow_right (by norm_num) (by omega)) h2
      refine ⟨(lo + 1 / 2) * 2 ^ (i - ((k + d : Nat) : Int)), ?_, ?_, fun j hj => absurd hj (hnotint j)⟩
      · exact roundMag_rounds g false lo true _ (1 / 2) (lt_of_lt_of_le pos24 hlo) (by norm_num) (by norm_num) (by norm_num) fun _ =>
          le_trans (Nat.pow_le_pow_right (by norm_num) (frac_le g)) hlo
      · have h5 : ((lo : ℝ) + 1 / 2) * 2 ^ (i - ((k + d : Nat) : Int)) - 2 ^ x =
            2 ^ i * (((lo : ℝ) + 1 / 2) / 2 ^ (k + d) - 2 ^ ((fr : ℝ) / ((2 ^ k : Nat) : ℝ))) := by
          rw [hxr, zpow_sub₀ (by norm_num), zpow_natCast]; ring
        rw [h5, abs_mul, abs_of_pos (two_zpow_pos i)]
        calc (2 : ℝ) ^ i * |((lo : ℝ) + 1 / 2) / 2 ^ (k + d) - 2 ^ ((fr : ℝ) / ((2 ^ k : Nat) : ℝ))|
            ≤ 2 ^ i * (1 / 2 ^ 200) := by gcongr
          _ ≤ 2 ^ x * (1 / 2 ^ 200) := by gcongr
          _ = 2 ^ x / 2 ^ 200 := by ring
    split
    · exact main 256 le_rfl
    · exact main 4096 (by norm_num)

/-! Logarithms. -/

/-- log2 of a natural number in units of 2^p. -/
noncomputable def lg (p v : Nat) : ℝ := Real.logb 2 ((v : ℝ) / 2 ^ p)

/-- Two positive reals that differ by at most one unit, in 2^p of them or more, have logarithms that differ by little. -/
theorem logb_near {a b : ℝ} {p : Nat} (ha : (2 : ℝ) ^ p ≤ a) (hb : (2 : ℝ) ^ p ≤ b) (h : |a - b| ≤ 1) :
    |Real.logb 2 a - Real.logb 2 b| ≤ 2 / 2 ^ p := by
  have hP : (0 : ℝ) < 2 ^ p := by positivity
  have key : ∀ a b : ℝ, (2 : ℝ) ^ p ≤ a → (2 : ℝ) ^ p ≤ b → a ≤ b → b - a ≤ 1 → Real.logb 2 b - Real.logb 2 a ≤ 2 / 2 ^ p := by
    intro a b ha hb hab h
    have ha0 : 0 < a := lt_of_lt_of_le hP ha
    have hb0 : 0 < b := lt_of_lt_of_le hP hb
    have h2 : (0.5 : ℝ) < Real.log 2 := lt_trans (by norm_num) Real.log_two_gt_d9
    rw [← Real.logb_div hb0.ne' ha0.ne', Real.logb, div_le_iff₀ (by linarith)]
    have h1 : Real.log (b / a) ≤ b / a - 1 := Real.log_le_sub_one_of_pos (div_pos hb0 ha0)
    have h3 : b / a - 1 ≤ 1 / 2 ^ p := by
      have : b / a - 1 = (b - a) / a := by field_simp
      rw [this]
      exact div_le_div₀ zero_le_one h hP ha
    have h4 : 1 / 2 ^ p ≤ 2 / 2 ^ p * Real.log 2 := by
      rw [div_mul_eq_mul_div]
      refine div_le_div_of_nonneg_right (by linarith) hP.le
    linarith
  have h' := abs_le.mp h
  have mono : ∀ a b : ℝ, (2 : ℝ) ^ p ≤ a → a ≤ b → Real.logb 2 a ≤ Real.logb 2 b := fun a b ha hab =>
    Real.logb_le_logb_of_le (by norm_num) (lt_of_lt_of_le hP ha) hab
  rw [abs_le]
  have h0 : (0 : ℝ) ≤ 2 / 2 ^ p := by positivity
  rcases le_total a b with hab | hab
  · have h1 := key a b ha hb hab (by linarith)
    have h2 := mono a b ha hab
    constructor <;> linarith
  · have h1 := key b a hb ha hab (by linarith)
    have h2 := mono b a hb hab
    constructor <;> linarith

theorem lg_bounds {p v : Nat} (h1 : 2 ^ p ≤ v) (h2 : v ≤ 2 ^ (p + 1)) : 0 ≤ lg p v ∧ lg p v ≤ 1 := by
  have hP : (0 : ℝ) < 2 ^ p := by positivity
  have a1 : (1 : ℝ) ≤ v / 2 ^ p := by rw [le_div_iff₀ hP, one_mul]; exact_mod_cast h1
  have a2 : (v : ℝ) / 2 ^ p ≤ 2 := by rw [div_le_iff₀ hP, ← pow_succ']; exact_mod_cast h2
  refine ⟨Real.logb_nonneg (by norm_num) a1, ?_⟩
  calc lg p v ≤ Real.logb 2 2 := Real.logb_le_logb_of_le (by norm_num) (by linarith) a2
    _ = 1 := Real.logb_self_eq_one (by norm_num)

/-- The fraction bits of a logarithm by squaring, rounded down or up at each step. -/
theorem log2Bits_near (p : Nat) (up : Bool) : ∀ (k v acc : Nat), 2 ^ p ≤ v → v ≤ 2 ^ (p + 1) → (up = false → v < 2 ^ (p + 1)) →
    |(log2Bits p up k v acc : ℝ) - 2 ^ k * (acc + lg p v)| ≤ 1 + 2 ^ k * (4 / 2 ^ p) := by
  have hPN : 0 < 2 ^ p := by positivity
  have hP : (0 : ℝ) < 2 ^ p := by positivity
  intro k
  induction k with
  | zero =>
    intro v acc h1 h2 _
    have := lg_bounds h1 h2
    have h0 : (0 : ℝ) ≤ 4 / 2 ^ p := by positivity
    unfold log2Bits
    rw [abs_le]
    constructor <;> simp <;> linarith [this.1, this.2]
  | succ k ih =>
    intro v acc h1 h2 h3
    unfold log2Bits
    dsimp only
    -- the square, rounded
    generalize hs : (if up = true then ceilDiv (v * v) (2 ^ p) else v * v / 2 ^ p) = s
    have hsq1 : 2 ^ p * 2 ^ p ≤ v * v := Nat.mul_le_mul h1 h1
    have hsq2 : v * v ≤ 2 ^ (p + 2) * 2 ^ p := by
      calc v * v ≤ 2 ^ (p + 1) * 2 ^ (p + 1) := Nat.mul_le_mul h2 h2
        _ = 2 ^ (p + 2) * 2 ^ p := by ring
    have hsq3 : v * v ≤ 2 ^ p * 2 ^ (p + 2) := by rw [mul_comm (2 ^ p)]; exact hsq2
    have hsge : 2 ^ p ≤ s := by
      rw [← hs]; split
      · unfold ceilDiv; rw [Nat.le_div_iff_mul_le hPN]; omega
      · rw [Nat.le_div_iff_mul_le hPN]; omega
    have hsle : s ≤ 2 ^ (p + 2) := by
      rw [← hs]; split
      · unfold ceilDiv
        rw [Nat.div_le_iff_le_mul_add_pred hPN]; omega
      · exact Nat.div_le_of_le_mul hsq3
    have hslt : up = false → s < 2 ^ (p + 2) := by
      intro hu
      rw [← hs, if_neg (by simp [hu]), Nat.div_lt_iff_lt_mul hPN]
      have h4 := h3 hu
      calc v * v < 2 ^ (p + 1) * 2 ^ (p + 1) := Nat.mul_lt_mul'' h4 h4
        _ = 2 ^ (p + 2) * 2 ^ p := by ring
    have hsnear : |(s : ℝ) - v * v / 2 ^ p| ≤ 1 := by
      have e1 : (v : ℝ) * v / 2 ^ p = ((v * v : Nat) : ℝ) / ((2 ^ p : Nat) : ℝ) := by push_cast; rfl
      rw [e1, abs_le, ← hs]
      have f1 : ((v * v / 2 ^ p : Nat) : ℝ) ≤ ((v * v : Nat) : ℝ) / ((2 ^ p : Nat) : ℝ) := Nat.cast_div_le
      have f2 : ((v * v : Nat) : ℝ) / ((2 ^ p : Nat) : ℝ) < ((v * v / 2 ^ p : Nat) : ℝ) + 1 := by
        rw [div_lt_iff₀ (by exact_mod_cast hPN)]
        exact_mod_cast (Nat.div_lt_iff_lt_mul hPN).mp (Nat.lt_succ_self _)
      split
      · have g1 : v * v / 2 ^ p ≤ ceilDiv (v * v) (2 ^ p) ∧ ceilDiv (v * v) (2 ^ p) * 2 ^ p ≤ v * v + 2 ^ p - 1 := by
          unfold ceilDiv
          exact ⟨Nat.div_le_div_right (by omega), Nat.div_mul_le_self _ _⟩
        have g2 : ((v * v / 2 ^ p : Nat) : ℝ) ≤ (ceilDiv (v * v) (2 ^ p) : ℝ) := by exact_mod_cast g1.1
        have g3 : (ceilDiv (v * v) (2 ^ p) : ℝ) ≤ ((v * v : Nat) : ℝ) / ((2 ^ p : Nat) : ℝ) + 1 := by
          rw [div_add_one (by positivity), le_div_iff₀ (by exact_mod_cast hPN)]
          exact_mod_cast (by omega : ceilDiv (v * v) (2 ^ p) * 2 ^ p ≤ v * v + 2 ^ p)
        constructor <;> linarith
      · constructor <;> linarith
    have hv0 : (0 : ℝ) < v := by exact_mod_cast lt_of_lt_of_le hPN h1
    have hs0 : (0 : ℝ) < s := by exact_mod_cast lt_of_lt_of_le hPN hsge
    have hsqR : (2 : ℝ) ^ p ≤ v * v / 2 ^ p := by rw [le_div_iff₀ hP]; exact_mod_cast hsq1
    -- the logarithm of the square
    have hlsq : |lg p s - 2 * lg p v| ≤ 2 / 2 ^ p := by
      have h4 := logb_near (by exact_mod_cast hsge) hsqR hsnear
      have h5 : lg p s - 2 * lg p v = Real.logb 2 s - Real.logb 2 (v * v / 2 ^ p) := by
        unfold lg
        rw [Real.logb_div hs0.ne' hP.ne', Real.logb_div hv0.ne' hP.ne', Real.logb_div (by positivity) hP.ne',
          Real.logb_mul hv0.ne' hv0.ne']
        ring
      rw [h5]; exact h4
    have hfin : ∀ (R : ℝ) (b : ℝ) (w : Nat), |R - 2 ^ k * ((2 * acc + b) + lg p w)| ≤ 1 + 2 ^ k * (4 / 2 ^ p) →
        |b + lg p w - lg p s| ≤ 2 / 2 ^ p → |R - 2 ^ (k + 1) * (acc + lg p v)| ≤ 1 + 2 ^ (k + 1) * (4 / 2 ^ p) := by
      intro R b w hR hw
      have hK : (0 : ℝ) < 2 ^ k := by positivity
      have h4 : |b + lg p w - 2 * lg p v| ≤ 4 / 2 ^ p := by
        have := abs_sub_le (b + lg p w) (lg p s) (2 * lg p v)
        have h5 : (4 : ℝ) / 2 ^ p = 2 / 2 ^ p + 2 / 2 ^ p := by ring
        linarith
      have h5 : |2 ^ k * ((2 * acc + b) + lg p w) - 2 ^ (k + 1) * ((acc : ℝ) + lg p v)| ≤ 2 ^ k * (4 / 2 ^ p) := by
        have : 2 ^ k * ((2 * (acc : ℝ) + b) + lg p w) - 2 ^ (k + 1) * (acc + lg p v) = 2 ^ k * (b + lg p w - 2 * lg p v) := by
          rw [pow_succ]; ring
        rw [this, abs_mul, abs_of_pos hK]
        gcongr
      have := abs_sub_le R (2 ^ k * ((2 * acc + b) + lg p w)) (2 ^ (k + 1) * ((acc : ℝ) + lg p v))
      have e : (2 : ℝ) ^ (k + 1) * (4 / 2 ^ p) = 2 ^ k * (4 / 2 ^ p) + 2 ^ k * (4 / 2 ^ p) := by rw [pow_succ]; ring
      rw [e]
      linarith
    split
    · next hbig =>
      generalize hw : (if up = true then ceilDiv s 2 else s / 2) = w
      have hw1 : s ≤ 2 * w + 1 ∧ 2 * w ≤ s + 1 := by rw [← hw]; unfold ceilDiv; split <;> omega
      have e1 : (2 : Nat) ^ (p + 1) = 2 * 2 ^ p := by rw [pow_succ]; ring
      have e2 : (2 : Nat) ^ (p + 2) = 2 * (2 * 2 ^ p) := by rw [pow_succ, pow_succ]; ring
      have hwge : 2 ^ p ≤ w := by rw [← hw]; unfold ceilDiv; split <;> omega
      have hwle : w ≤ 2 ^ (p + 1) := by rw [← hw]; unfold ceilDiv; split <;> omega
      have hwlt : up = false → w < 2 ^ (p + 1) := by
        intro hu
        have := hslt hu
        rw [← hw, if_neg (by simp [hu])]; omega
      have hR := ih w (2 * acc + 1) hwge hwle hwlt
      push_cast at hR
      refine hfin _ 1 w hR ?_
      have hwR : (2 : ℝ) ^ p ≤ (s : ℝ) / 2 := by
        rw [le_div_iff₀ (by norm_num)]
        have : 2 * 2 ^ p ≤ s := by omega
        have : (2 : ℝ) * 2 ^ p ≤ s := by exact_mod_cast this
        linarith
      have hnear : |(w : ℝ) - s / 2| ≤ 1 := by
        have g1 : (s : ℝ) ≤ 2 * w + 1 := by exact_mod_cast hw1.1
        have g2 : 2 * (w : ℝ) ≤ s + 1 := by exact_mod_cast hw1.2
        rw [abs_le]; constructor <;> linarith
      have h4 := logb_near (by exact_mod_cast hwge) hwR hnear
      have hw0 : (0 : ℝ) < w := by exact_mod_cast lt_of_lt_of_le hPN hwge
      have h5 : 1 + lg p w - lg p s = Real.logb 2 w - Real.logb 2 ((s : ℝ) / 2) := by
        unfold lg
        rw [Real.logb_div hs0.ne' hP.ne', Real.logb_div hw0.ne' hP.ne', Real.logb_div hs0.ne' (by norm_num),
          Real.logb_self_eq_one (by norm_num)]
        ring
      rw [h5]; exact h4
    · next hsmall =>
      have hR := ih s (2 * acc) hsge (by omega) (fun _ => by omega)
      push_cast at hR
      refine hfin _ 0 s (by rw [add_zero]; exact hR) ?_
      rw [zero_add, sub_self, abs_zero]; positivity

/-- The logarithm of a number that is no power of two is not near an integer. -/
theorem logb_apart {m : Nat} {e : Int} (hm : 0 < m) (hb : m < 2 ^ 64) (h2 : m ≠ 2 ^ m.log2) :
    1 / 2 ^ 64 ≤ |Real.logb 2 ((m : ℝ) * 2 ^ e)| := by
  have hx0 : (0 : ℝ) < (m : ℝ) * 2 ^ e := mul_pos (by exact_mod_cast hm) (two_zpow_pos e)
  have hlo : 2 ^ m.log2 < m := lt_of_le_of_ne (Nat.log2_self_le hm.ne') (Ne.symm h2)
  have hhi : m < 2 ^ (m.log2 + 1) := Nat.lt_log2_self
  have hlog0 : 0 < Real.log 2 := Real.log_pos (by norm_num)
  have hlog1 : Real.log 2 < 1 := lt_trans Real.log_two_lt_d9 (by norm_num)
  have hl64 : m.log2 < 64 := (Nat.log2_lt hm.ne').mpr hb
  -- above 1, and below it
  have above : ∀ x : ℝ, 1 + 1 / 2 ^ 64 ≤ x → 1 / 2 ^ 64 ≤ Real.logb 2 x := by
    intro x hx
    have hx1 : 0 < x := lt_of_lt_of_le (by positivity) hx
    have h3 : Real.log (1 + 1 / 2 ^ 64) ≤ Real.log x := Real.log_le_log (by positivity) hx
    have h4 : 1 - (1 + 1 / 2 ^ 64 : ℝ)⁻¹ ≤ Real.log (1 + 1 / 2 ^ 64) := Real.one_sub_inv_le_log_of_pos (by positivity)
    rw [Real.logb, le_div_iff₀ hlog0]
    have h5 : Real.log 2 < 0.7 := lt_trans Real.log_two_lt_d9 (by norm_num)
    have h6 : 0.7 * (1 / 2 ^ 64 : ℝ) ≤ 1 - (1 + 1 / 2 ^ 64 : ℝ)⁻¹ := by norm_num
    have h7 : (1 / 2 ^ 64 : ℝ) * Real.log 2 ≤ 1 / 2 ^ 64 * 0.7 := by gcongr
    linarith
  have below : ∀ x : ℝ, 0 < x → x ≤ 1 - 1 / 2 ^ 64 → Real.logb 2 x ≤ -(1 / 2 ^ 64) := by
    intro x hx1 hx
    have h3 : Real.log x ≤ x - 1 := Real.log_le_sub_one_of_pos hx1
    rw [Real.logb, div_le_iff₀ hlog0]
    have h7 : (1 / 2 ^ 64 : ℝ) * Real.log 2 ≤ 1 / 2 ^ 64 * 1 := by gcongr
    linarith
  rcases le_or_gt 0 (e + (m.log2 : Int)) with he | he
  · refine le_trans (above _ ?_) (le_abs_self _)
    have h3 : (2 : ℝ) ^ m.log2 + 1 ≤ m := by exact_mod_cast hlo
    have h4 : (2 : ℝ) ^ (-(m.log2 : Int)) ≤ 2 ^ e := zpow_le_zpow_right₀ (by norm_num) (by omega)
    have h5 : (2 : ℝ) ^ (-(64 : Int)) ≤ 2 ^ (-(m.log2 : Int)) := zpow_le_zpow_right₀ (by norm_num) (by omega)
    have h6 : (2 : ℝ) ^ m.log2 * 2 ^ (-(m.log2 : Int)) = 1 := by
      rw [zpow_neg, zpow_natCast, mul_inv_cancel₀ (by positivity)]
    have h7 : ((2 : ℝ) ^ m.log2 + 1) * 2 ^ (-(m.log2 : Int)) ≤ m * 2 ^ e := by gcongr
    have h8 : (2 : ℝ) ^ (-(64 : Int)) = 1 / 2 ^ 64 := by norm_num
    rw [add_mul, h6, one_mul] at h7
    rw [h8] at h5
    linarith
  · rw [abs_of_neg]
    · have := below _ hx0 ?_
      · linarith
      rcases le_or_gt (e + (m.log2 : Int)) (-2) with he2 | he2
      · have h3 : (m : ℝ) ≤ 2 ^ (m.log2 + 1) := by exact_mod_cast hhi.le
        have h4 : (2 : ℝ) ^ e ≤ 2 ^ (-((m.log2 + 1 : Nat) : Int) - 1) := zpow_le_zpow_right₀ (by norm_num) (by push_cast; omega)
        calc (m : ℝ) * 2 ^ e ≤ 2 ^ (m.log2 + 1) * 2 ^ (-((m.log2 + 1 : Nat) : Int) - 1) := by gcongr
          _ = 1 / 2 := by rw [zpow_sub_one₀ (by norm_num), zpow_neg, zpow_natCast]; field_simp
          _ ≤ 1 - 1 / 2 ^ 64 := by norm_num
      · have hee : e = -((m.log2 + 1 : Nat) : Int) := by push_cast; omega
        have h3 : (m : ℝ) + 1 ≤ 2 ^ (m.log2 + 1) := by exact_mod_cast hhi
        have h5 : (2 : ℝ) ^ (-(64 : Int)) ≤ 2 ^ e := zpow_le_zpow_right₀ (by norm_num) (by omega)
        have h6 : (2 : ℝ) ^ (m.log2 + 1) * 2 ^ e = 1 := by
          rw [hee, zpow_neg, zpow_natCast, mul_inv_cancel₀ (by positivity)]
        have h7 : ((m : ℝ) + 1) * 2 ^ e ≤ 2 ^ (m.log2 + 1) * 2 ^ e := by gcongr
        have h8 : (2 : ℝ) ^ (-(64 : Int)) = 1 / 2 ^ 64 := by norm_num
        rw [h6, add_mul, one_mul] at h7
        rw [h8] at h5
        linarith
    · refine Real.logb_neg (by norm_num) hx0 ?_
      have h3 : (m : ℝ) < 2 ^ (m.log2 + 1) := by exact_mod_cast hhi
      have h4 : (2 : ℝ) ^ e ≤ 2 ^ (-((m.log2 + 1 : Nat) : Int)) := zpow_le_zpow_right₀ (by norm_num) (by push_cast; omega)
      calc (m : ℝ) * 2 ^ e < 2 ^ (m.log2 + 1) * 2 ^ e := mul_lt_mul_of_pos_right h3 (two_zpow_pos e)
        _ ≤ 2 ^ (m.log2 + 1) * 2 ^ (-((m.log2 + 1 : Nat) : Int)) := by gcongr
        _ = 1 := by rw [zpow_neg, zpow_natCast, mul_inv_cancel₀ (by positivity)]

theorem logb_two_zpow (i : Int) : Real.logb 2 ((2 : ℝ) ^ i) = i := by
  rw [← Real.rpow_intCast, Real.logb_rpow (by norm_num) (by norm_num)]

/-- LOGARITHMS: the base-2 logarithm rounds a value within 2^-190 of the exact one, and the exact one of a power of two (R211, log
75). -/
theorem log2Rne_rounds (g : Fmt) (m e : Int) (hm : 0 < m) (hb : m < 2 ^ 64) : ∃ v : ℝ, RoundsReal g v (log2Rne g (.fin m e)) ∧
    |v - Real.logb 2 ((m : ℝ) * 2 ^ e)| ≤ 1 / 2 ^ 190 ∧ (∀ i : Int, (m : ℝ) * 2 ^ e = 2 ^ i → v = i) := by
  unfold log2Rne
  dsimp only
  rw [if_neg (not_lt.mpr hm.le)]
  have hmn : (m : ℝ) = m.natAbs := by rw [Nat.cast_natAbs, abs_of_pos hm]
  rw [hmn]
  have ha : 0 < m.natAbs := Int.natAbs_pos.mpr hm.ne'
  have hab : m.natAbs < 2 ^ 64 := by omega
  generalize m.natAbs = a at *
  have haR : (0 : ℝ) < a := by exact_mod_cast ha
  have hlo : 2 ^ a.log2 ≤ a := Nat.log2_self_le ha.ne'
  have hhi : a < 2 ^ (a.log2 + 1) := Nat.lt_log2_self
  have hl64 : a.log2 < 64 := (Nat.log2_lt ha.ne').mpr hab
  split
  · next h2 =>
    have hx : (a : ℝ) * 2 ^ e = 2 ^ (e + (a.log2 : Int)) := by
      rw [zpow_add₀ (by norm_num), zpow_natCast, mul_comm]
      congr 1
      exact_mod_cast h2
    have hlog : Real.logb 2 ((a : ℝ) * 2 ^ e) = ((e + (a.log2 : Int) : Int) : ℝ) := by
      rw [hx, logb_two_zpow]
    refine ⟨((e + (a.log2 : Int) : Int) : ℝ), ?_, by rw [hlog, sub_self, abs_zero]; positivity, ?_⟩
    · generalize e + (a.log2 : Int) = i
      refine ⟨fun h => ?_, fun h => ?_, fun h => ?_⟩
      · have hi : 0 < i := by exact_mod_cast h
        have := rne_rounds g i 0 hi.ne'
        rw [decide_eq_false (by omega), zpow_zero, mul_one, abs_of_pos h] at this
        simpa [Ext.ofDyadic, hi.ne'] using this
      · have hi : i < 0 := by exact_mod_cast h
        have := rne_rounds g i 0 hi.ne
        rw [decide_eq_true hi, zpow_zero, mul_one, abs_of_neg h] at this
        simpa [Ext.ofDyadic, hi.ne] using this
      · have hi : i = 0 := by exact_mod_cast h
        subst hi; rfl
    · intro i hi
      rw [hx] at hi
      have := zpow_right_injective₀ (by norm_num : (0:ℝ) < 2) (by norm_num) hi
      rw [this]
  · next h2 =>
    have hnot : ∀ i : Int, (a : ℝ) * 2 ^ e = 2 ^ i → False := by
      intro i hi
      have h3 : (a : ℝ) = 2 ^ (i - e) := by
        rw [zpow_sub₀ (by norm_num), ← hi]; field_simp
      have h4 : (2 : ℝ) ^ (a.log2 : Int) ≤ 2 ^ (i - e) := by rw [← h3, zpow_natCast]; exact_mod_cast hlo
      have h5 : (2 : ℝ) ^ (i - e) < 2 ^ ((a.log2 + 1 : Nat) : Int) := by rw [← h3, zpow_natCast]; exact_mod_cast hhi
      have h6 := (zpow_le_zpow_iff_right₀ (by norm_num : (1:ℝ) < 2)).mp h4
      have h7 := (zpow_lt_zpow_iff_right₀ (by norm_num : (1:ℝ) < 2)).mp h5
      have h8 : i - e = (a.log2 : Int) := by push_cast at h7; omega
      rw [h8, zpow_natCast] at h3
      exact h2 (by exact_mod_cast h3)
    have hapart := logb_apart (e := e) ha hab h2
    -- the fixed-point logarithm
    have hv1 : 2 ^ 640 ≤ a * 2 ^ (640 - a.log2) := by
      calc 2 ^ 640 = 2 ^ a.log2 * 2 ^ (640 - a.log2) := by rw [← pow_add]; congr 1; omega
        _ ≤ a * 2 ^ (640 - a.log2) := Nat.mul_le_mul_right _ hlo
    have hv2 : a * 2 ^ (640 - a.log2) < 2 ^ (640 + 1) := by
      calc a * 2 ^ (640 - a.log2) < 2 ^ (a.log2 + 1) * 2 ^ (640 - a.log2) := Nat.mul_lt_mul_of_pos_right hhi (by positivity)
        _ = 2 ^ (640 + 1) := by rw [← pow_add]; congr 1; omega
    have hL : Real.logb 2 ((a : ℝ) * 2 ^ e) = ((e + (a.log2 : Int) : Int) : ℝ) + lg 640 (a * 2 ^ (640 - a.log2)) := by
      unfold lg
      have h3 : ((a * 2 ^ (640 - a.log2) : Nat) : ℝ) / 2 ^ 640 = a / 2 ^ a.log2 := by
        rw [div_eq_div_iff (by positivity) (by positivity)]
        push_cast
        rw [mul_assoc, ← pow_add]
        congr 2; omega
      rw [h3, Real.logb_mul haR.ne' (two_zpow_pos e).ne', logb_two_zpow,
        Real.logb_div haR.ne' (by positivity), Real.logb_pow, Real.logb_self_eq_one (by norm_num)]
      push_cast; ring
    have hd := log2Bits_near 640 false 192 (a * 2 ^ (640 - a.log2)) 0 hv1 hv2.le (fun _ => hv2)
    have hu := log2Bits_near 640 true 192 (a * 2 ^ (640 - a.log2)) 0 hv1 hv2.le (fun h => absurd h (by simp))
    generalize log2Bits 640 false 192 (a * 2 ^ (640 - a.log2)) 0 = D at *
    generalize log2Bits 640 true 192 (a * 2 ^ (640 - a.log2)) 0 = U at *
    generalize lg 640 (a * 2 ^ (640 - a.log2)) = E at *
    generalize Real.logb 2 ((a : ℝ) * 2 ^ e) = L at *
    generalize e + (a.log2 : Int) = i at *
    have hsm : (2 : ℝ) ^ 192 * (4 / 2 ^ 640) ≤ 1 := by
      rw [← mul_div_assoc, div_le_one (by positivity)]
      calc (2 : ℝ) ^ 192 * 4 = 2 ^ 194 := by norm_num
        _ ≤ 2 ^ 640 := pow_le_pow_right₀ (by norm_num) (by norm_num)
    have hd' := abs_le.mp hd
    have hu' := abs_le.mp hu
    have hlow : |((i * ((2 ^ 192 : Nat) : Int) + (D : Int) : Int) : ℝ) - 2 ^ 192 * L| ≤ 2 := by
      rw [hL, abs_le]; push_cast at *
      constructor <;> linarith [hd'.1, hd'.2]
    have hhigh : |((i * ((2 ^ 192 : Nat) : Int) + (U : Int) + 1 : Int) : ℝ) - 2 ^ 192 * L| ≤ 3 := by
      rw [hL, abs_le]; push_cast at *
      constructor <;> linarith [hu'.1, hu'.2]
    generalize i * ((2 ^ 192 : Nat) : Int) + (D : Int) = lo at *
    generalize i * ((2 ^ 192 : Nat) : Int) + (U : Int) + 1 = hi at *
    have hlow' := abs_le.mp hlow
    have hhigh' := abs_le.mp hhigh
    have hbig : ∀ w : ℝ, 1 / 2 ^ 64 ≤ w → (2 : ℝ) ^ 24 + 3 ≤ 2 ^ 192 * w := by
      intro w hw
      calc (2 : ℝ) ^ 24 + 3 ≤ 2 ^ 192 * (1 / 2 ^ 64) := by norm_num
        _ ≤ 2 ^ 192 * w := by gcongr
    have hpow : (2 : ℝ) ^ (-(192 : Int)) * 2 ^ 192 = 1 := by
      rw [zpow_neg, show (192 : Int) = ((192 : Nat) : Int) by rfl, zpow_natCast, inv_mul_cancel₀ (by positivity)]
    have hpos := two_zpow_pos (-(192 : Int))
    have hclose : ∀ z : ℝ, |z - 2 ^ 192 * L| ≤ 4 → |z * 2 ^ (-(192 : Int)) - L| ≤ 1 / 2 ^ 190 := by
      intro z hz
      have h3 : z * 2 ^ (-(192 : Int)) - L = (z - 2 ^ 192 * L) * 2 ^ (-(192 : Int)) := by
        rw [sub_mul, mul_right_comm, mul_comm ((2 : ℝ) ^ 192), hpow, one_mul]
      rw [h3, abs_mul, abs_of_pos hpos]
      calc |z - 2 ^ 192 * L| * 2 ^ (-(192 : Int)) ≤ 4 * 2 ^ (-(192 : Int)) := by gcongr
        _ = 1 / 2 ^ 190 := by norm_num
    have hround : ∀ (neg : Bool) (n : Nat), 2 ^ 24 ≤ n →
        RoundsTo g neg (((n : ℝ) + 1 / 2) * 2 ^ (-(192 : Int))) (roundMag g neg n true (-192)) := fun neg n hn =>
      roundMag_rounds g neg n true _ (1 / 2) (lt_of_lt_of_le pos24 hn) (by norm_num) (by norm_num) (by norm_num) fun _ =>
        le_trans (Nat.pow_le_pow_right (by norm_num) (frac_le g)) hn
    rcases le_or_gt 0 L with hL0 | hL0
    · rw [abs_of_nonneg hL0] at hapart
      have h3 := hbig L hapart
      have h4 : (2 : ℝ) ^ 24 ≤ lo := by linarith [hlow'.1]
      have h5 : (2 : Int) ^ 24 ≤ lo := by exact_mod_cast h4
      have h6 : (lo.natAbs : ℝ) = lo := by
        rw [Nat.cast_natAbs, abs_of_pos (lt_of_lt_of_le (by norm_num) h5)]
      rw [if_pos (le_trans (by norm_num) h5)]
      have h7 := hround false lo.natAbs (by omega)
      rw [h6] at h7
      have hv0 : 0 < ((lo : ℝ) + 1 / 2) * 2 ^ (-(192 : Int)) := mul_pos (by linarith [show (0:ℝ) < 2 ^ 24 by norm_num]) hpos
      refine ⟨_, ⟨fun _ => h7, fun h => absurd h (by linarith), fun h => absurd h hv0.ne'⟩, hclose _ ?_,
        fun j hj => (hnot j hj).elim⟩
      rw [abs_le]; constructor <;> linarith [hlow'.1, hlow'.2]
    · rw [abs_of_neg hL0] at hapart
      have h3 := hbig (-L) hapart
      have h8 : (lo : ℝ) < 0 := by linarith [hlow'.2, show (0:ℝ) < 2 ^ 24 by norm_num]
      have h4 : (hi : ℝ) ≤ -(2 : ℝ) ^ 24 := by linarith [hhigh'.2]
      have h5 : hi ≤ -(2 : Int) ^ 24 := by exact_mod_cast h4
      have h6 : (hi.natAbs : ℝ) = -hi := by
        rw [Nat.cast_natAbs, abs_of_neg (lt_of_le_of_lt h5 (by norm_num))]; push_cast; ring
      rw [if_neg (not_le.mpr (by exact_mod_cast h8))]
      have h7 := hround true hi.natAbs (by omega)
      rw [h6] at h7
      have hv0 : -((-(hi : ℝ) + 1 / 2) * 2 ^ (-(192 : Int))) < 0 :=
        neg_neg_of_pos (mul_pos (by linarith [show (0:ℝ) < 2 ^ 24 by norm_num]) hpos)
      refine ⟨-((-(hi : ℝ) + 1 / 2) * 2 ^ (-(192 : Int))), ⟨fun h => absurd h (by linarith), fun _ => by rw [neg_neg]; exact h7,
        fun h => absurd h hv0.ne⟩, ?_, fun j hj => (hnot j hj).elim⟩
      rw [← neg_mul]
      refine hclose _ ?_
      rw [abs_le]; constructor <;> linarith [hhigh'.1, hhigh'.2]

end Sys2Proof.Laws
end

