-- ==== Sys2Proof/Laws/Table.lean ====
section
/-! SUPPORT. The laws of sparse tables: a read after a write, two writes at one key, and the canonical form. -/

namespace Sys2Proof.Machine

variable {α : Type}

@[simp] theorem tget_nil (d : α) (n : Nat) : tget d [] n = d := rfl

theorem tget_terase_self (d : α) (t : Tbl α) (n : Nat) : tget d (terase t n) n = d := by
  induction t with
  | nil => rfl
  | cons e t ih =>
    obtain ⟨k, v⟩ := e
    by_cases h : k = n <;> simp [terase, tget, h, ih]

theorem tget_terase_ne (d : α) (t : Tbl α) {n m : Nat} (h : m ≠ n) : tget d (terase t n) m = tget d t m := by
  induction t with
  | nil => rfl
  | cons e t ih =>
    obtain ⟨k, v⟩ := e
    by_cases hk : k = n
    · subst hk; simp [terase, tget, ih, Ne.symm h]
    · by_cases hm : k = m
      · subst hm; simp [terase, tget, hk]
      · simp [terase, tget, hk, hm, ih]

theorem tget_tinsert_ne (d : α) (t : Tbl α) {n m : Nat} (x : α) (h : m ≠ n) : tget d (tinsert t n x) m = tget d t m := by
  induction t with
  | nil => simp [tinsert, tget, Ne.symm h]
  | cons e t ih =>
    obtain ⟨k, v⟩ := e
    by_cases hk : n < k
    · simp [tinsert, tget, hk, Ne.symm h]
    · by_cases hm : k = m
      · subst hm; simp [tinsert, tget, hk]
      · simp [tinsert, tget, hk, hm, ih]

theorem tget_tinsert_terase (d : α) (t : Tbl α) (n : Nat) (x : α) : tget d (tinsert (terase t n) n x) n = x := by
  induction t with
  | nil => simp [terase, tinsert, tget]
  | cons e t ih =>
    obtain ⟨k, v⟩ := e
    by_cases hk : k = n
    · simp [terase, hk, ih]
    · by_cases hl : n < k <;> simp [terase, tinsert, tget, hk, hl, ih]

theorem terase_terase (t : Tbl α) (n : Nat) : terase (terase t n) n = terase t n := by
  induction t with
  | nil => rfl
  | cons e t ih =>
    obtain ⟨k, v⟩ := e
    by_cases hk : k = n <;> simp [terase, hk, ih]

theorem terase_tinsert (t : Tbl α) (n : Nat) (x : α) : terase (tinsert t n x) n = terase t n := by
  induction t with
  | nil => simp [tinsert, terase]
  | cons e t ih =>
    obtain ⟨k, v⟩ := e
    by_cases hk : n < k
    · have : k ≠ n := by omega
      simp [tinsert, terase, hk, this]
    · by_cases hn : k = n <;> simp [tinsert, terase, hk, hn, ih]

variable [DecidableEq α]

/-- A read of the key just written gives the value written. -/
@[simp] theorem tget_tset_self (d : α) (t : Tbl α) (n : Nat) (x : α) : tget d (tset d t n x) n = x := by
  unfold tset
  split
  · rename_i h; rw [h, tget_terase_self]
  · exact tget_tinsert_terase d t n x

/-- A write leaves every other key alone. -/
theorem tget_tset_ne (d : α) (t : Tbl α) {n m : Nat} (x : α) (h : m ≠ n) : tget d (tset d t n x) m = tget d t m := by
  unfold tset
  split
  · exact tget_terase_ne d t h
  · rw [tget_tinsert_ne d _ x h, tget_terase_ne d t h]

/-- A read after a write. -/
theorem tget_tset (d : α) (t : Tbl α) (n m : Nat) (x : α) : tget d (tset d t n x) m = if m = n then x else tget d t m := by
  by_cases h : m = n
  · subst h; simp
  · simp [h, tget_tset_ne d t x h]

/-- Of two writes at one key the later stands. -/
@[simp] theorem tset_tset (d : α) (t : Tbl α) (n : Nat) (x y : α) : tset d (tset d t n x) n y = tset d t n y := by
  have h : terase (tset d t n x) n = terase t n := by
    unfold tset
    split
    · exact terase_terase t n
    · rw [terase_tinsert, terase_terase]
  show (if y = d then terase (tset d t n x) n else tinsert (terase (tset d t n x) n) n y) = _
  rw [h]
  rfl

theorem twfFrom_mono (d : α) {t : Tbl α} {lo lo' : Nat} (h : twfFrom d lo t = true) (l : lo' ≤ lo) : twfFrom d lo' t = true := by
  cases t with
  | nil => rfl
  | cons e t =>
    obtain ⟨k, v⟩ := e
    simp only [twfFrom, Bool.and_eq_true, decide_eq_true_eq] at h ⊢
    exact ⟨⟨Nat.le_trans l h.1.1, h.1.2⟩, h.2⟩

theorem twfFrom_terase (d : α) (t : Tbl α) (n : Nat) : ∀ {lo : Nat}, twfFrom d lo t = true → twfFrom d lo (terase t n) = true := by
  induction t with
  | nil => intro lo h; exact h
  | cons e t ih =>
    obtain ⟨k, v⟩ := e
    intro lo h
    simp only [twfFrom, Bool.and_eq_true, decide_eq_true_eq] at h
    by_cases hk : k = n
    · simp only [terase, hk, if_true]
      exact ih (twfFrom_mono d h.2 (by omega))
    · simp only [terase, hk, if_false, twfFrom, Bool.and_eq_true, decide_eq_true_eq]
      exact ⟨h.1, ih h.2⟩

theorem twfFrom_tinsert (d : α) (t : Tbl α) (n : Nat) {x : α} (hx : x ≠ d) :
    ∀ {lo : Nat}, lo ≤ n → twfFrom d lo t = true → (∀ e ∈ t, e.1 ≠ n) → twfFrom d lo (tinsert t n x) = true := by
  induction t with
  | nil => intro lo l _ _; simp [tinsert, twfFrom, l, hx]
  | cons e t ih =>
    obtain ⟨k, v⟩ := e
    intro lo l h hn
    simp only [twfFrom, Bool.and_eq_true, decide_eq_true_eq] at h
    have hk : k ≠ n := hn (k, v) (by simp)
    by_cases hl : n < k
    · simp only [tinsert, hl, if_true, twfFrom, Bool.and_eq_true, decide_eq_true_eq]
      exact ⟨⟨l, by simp [hx]⟩, ⟨⟨hl, h.1.2⟩, h.2⟩⟩
    · simp only [tinsert, hl, if_false, twfFrom, Bool.and_eq_true, decide_eq_true_eq]
      exact ⟨h.1, ih (by omega) h.2 fun e he => hn e (by simp [he])⟩

omit [DecidableEq α] in
theorem terase_no_key (t : Tbl α) (n : Nat) : ∀ e ∈ terase t n, e.1 ≠ n := by
  induction t with
  | nil => intro e h; cases h
  | cons e t ih =>
    obtain ⟨k, v⟩ := e
    by_cases hk : k = n
    · simpa [terase, hk] using ih
    · simp only [terase, hk, if_false, List.mem_cons]
      rintro e (rfl | h)
      · exact hk
      · exact ih e h

/-- A write keeps the canonical form. -/
theorem twf_tset (d : α) {t : Tbl α} (n : Nat) (x : α) (h : twf d t = true) : twf d (tset d t n x) = true := by
  unfold twf tset at *
  split
  · exact twfFrom_terase d t n h
  · rename_i hx
    exact twfFrom_tinsert d _ n hx (Nat.zero_le n) (twfFrom_terase d t n h) (terase_no_key t n)

theorem twfFrom_filter (d : α) (p : Nat × α → Bool) (t : Tbl α) :
    ∀ {lo : Nat}, twfFrom d lo t = true → twfFrom d lo (t.filter p) = true := by
  induction t with
  | nil => intro lo h; exact h
  | cons e t ih =>
    obtain ⟨k, v⟩ := e
    intro lo h
    simp only [twfFrom, Bool.and_eq_true, decide_eq_true_eq] at h
    by_cases hp : p (k, v) = true
    · simp only [List.filter_cons, hp, if_true, twfFrom, Bool.and_eq_true, decide_eq_true_eq]
      exact ⟨h.1, ih h.2⟩
    · simp only [List.filter_cons, hp]
      exact ih (twfFrom_mono d h.2 (by omega))

end Sys2Proof.Machine
end

