-- ==== Sys2Proof/Laws/State.lean ====
section
/-! SUPPORT. What each update of the state does to each of its fields: one equation a field, so that a proof unfolds no record
update. -/

namespace Sys2Proof.Machine

/-! `State.setCtx`. -/

@[simp] theorem State.setCtx_ctxs (s : State) (n : Nat) (x : Ctx) : (s.setCtx n x).ctxs = tset {} s.ctxs n x := rfl
@[simp] theorem State.setCtx_cores (s : State) (n : Nat) (x : Ctx) : (s.setCtx n x).cores = s.cores := rfl
@[simp] theorem State.setCtx_calls (s : State) (n : Nat) (x : Ctx) : (s.setCtx n x).calls = s.calls := rfl
@[simp] theorem State.setCtx_cols (s : State) (n : Nat) (x : Ctx) : (s.setCtx n x).cols = s.cols := rfl
@[simp] theorem State.setCtx_quads (s : State) (n : Nat) (x : Ctx) : (s.setCtx n x).quads = s.quads := rfl
@[simp] theorem State.setCtx_stackTab (s : State) (n : Nat) (x : Ctx) : (s.setCtx n x).stackTab = s.stackTab := rfl
@[simp] theorem State.setCtx_parts (s : State) (n : Nat) (x : Ctx) : (s.setCtx n x).parts = s.parts := rfl
@[simp] theorem State.setCtx_owners (s : State) (n : Nat) (x : Ctx) : (s.setCtx n x).owners = s.owners := rfl
@[simp] theorem State.setCtx_quires (s : State) (n : Nat) (x : Ctx) : (s.setCtx n x).quires = s.quires := rfl
@[simp] theorem State.setCtx_tiles (s : State) (n : Nat) (x : Ctx) : (s.setCtx n x).tiles = s.tiles := rfl
@[simp] theorem State.setCtx_cmds (s : State) (n : Nat) (x : Ctx) : (s.setCtx n x).cmds = s.cmds := rfl
@[simp] theorem State.setCtx_hints (s : State) (n : Nat) (x : Ctx) : (s.setCtx n x).hints = s.hints := rfl
@[simp] theorem State.setCtx_eps (s : State) (n : Nat) (x : Ctx) : (s.setCtx n x).eps = s.eps := rfl
@[simp] theorem State.setCtx_l2 (s : State) (n : Nat) (x : Ctx) : (s.setCtx n x).l2 = s.l2 := rfl
@[simp] theorem State.setCtx_occ (s : State) (n : Nat) (x : Ctx) : (s.setCtx n x).occ = s.occ := rfl
@[simp] theorem State.setCtx_spare (s : State) (n : Nat) (x : Ctx) : (s.setCtx n x).spare = s.spare := rfl
@[simp] theorem State.setCtx_ports (s : State) (n : Nat) (x : Ctx) : (s.setCtx n x).ports = s.ports := rfl
@[simp] theorem State.setCtx_gens (s : State) (n : Nat) (x : Ctx) : (s.setCtx n x).gens = s.gens := rfl
@[simp] theorem State.setCtx_zeroing (s : State) (n : Nat) (x : Ctx) : (s.setCtx n x).zeroing = s.zeroing := rfl
@[simp] theorem State.setCtx_demand (s : State) (n : Nat) (x : Ctx) : (s.setCtx n x).demand = s.demand := rfl
@[simp] theorem State.setCtx_quiet (s : State) (n : Nat) (x : Ctx) : (s.setCtx n x).quiet = s.quiet := rfl
@[simp] theorem State.setCtx_users (s : State) (n : Nat) (x : Ctx) : (s.setCtx n x).users = s.users := rfl
@[simp] theorem State.setCtx_tests (s : State) (n : Nat) (x : Ctx) : (s.setCtx n x).tests = s.tests := rfl
@[simp] theorem State.setCtx_dlv (s : State) (n : Nat) (x : Ctx) : (s.setCtx n x).dlv = s.dlv := rfl
@[simp] theorem State.setCtx_pkg (s : State) (n : Nat) (x : Ctx) : (s.setCtx n x).pkg = s.pkg := rfl
@[simp] theorem State.setCtx_cycle (s : State) (n : Nat) (x : Ctx) : (s.setCtx n x).cycle = s.cycle := rfl
@[simp] theorem State.setCtx_mem (s : State) (n : Nat) (x : Ctx) : (s.setCtx n x).mem = s.mem := rfl
@[simp] theorem State.setCtx_remote (s : State) (n : Nat) (x : Ctx) : (s.setCtx n x).remote = s.remote := rfl
@[simp] theorem State.setCtx_dawn (s : State) (n : Nat) (x : Ctx) : (s.setCtx n x).dawn = s.dawn := rfl
@[simp] theorem State.setCtx_phase (s : State) (n : Nat) (x : Ctx) : (s.setCtx n x).phase = s.phase := rfl
@[simp] theorem State.setCtx_todo (s : State) (n : Nat) (x : Ctx) : (s.setCtx n x).todo = s.todo := rfl
@[simp] theorem State.setCtx_cur (s : State) (n : Nat) (x : Ctx) : (s.setCtx n x).cur = s.cur := rfl
@[simp] theorem State.setCtx_micro (s : State) (n : Nat) (x : Ctx) : (s.setCtx n x).micro = s.micro := rfl
@[simp] theorem State.setCtx_inputs (s : State) (n : Nat) (x : Ctx) : (s.setCtx n x).inputs = s.inputs := rfl
@[simp] theorem State.setCtx_agenda (s : State) (n : Nat) (x : Ctx) : (s.setCtx n x).agenda = s.agenda := rfl
@[simp] theorem State.setCtx_serial (s : State) (n : Nat) (x : Ctx) : (s.setCtx n x).serial = s.serial := rfl
@[simp] theorem State.setCtx_fresh (s : State) (n : Nat) (x : Ctx) : (s.setCtx n x).fresh = s.fresh := rfl

@[simp] theorem State.ctx_setCtx_self (s : State) (n : Nat) (x : Ctx) : (s.setCtx n x).ctx n = x := tget_tset_self _ _ _ _
theorem State.ctx_setCtx_ne (s : State) (x : Ctx) {n m : Nat} (h : m ≠ n) : (s.setCtx n x).ctx m = s.ctx m :=
  tget_tset_ne _ _ _ h
@[simp] theorem State.core_setCtx (s : State) (n m : Nat) (x : Ctx) : (s.setCtx n x).core m = s.core m := rfl
@[simp] theorem State.col_setCtx (s : State) (n m : Nat) (x : Ctx) : (s.setCtx n x).col m = s.col m := rfl
@[simp] theorem State.quad_setCtx (s : State) (n m : Nat) (x : Ctx) : (s.setCtx n x).quad m = s.quad m := rfl
@[simp] theorem State.stack_setCtx (s : State) (n m : Nat) (x : Ctx) : (s.setCtx n x).stack m = s.stack m := rfl
@[simp] theorem State.part_setCtx (s : State) (n m : Nat) (x : Ctx) : (s.setCtx n x).part m = s.part m := rfl
@[simp] theorem State.owner_setCtx (s : State) (n m : Nat) (x : Ctx) : (s.setCtx n x).owner m = s.owner m := rfl

/-! `State.setCore`. -/

@[simp] theorem State.setCore_ctxs (s : State) (n : Nat) (x : Core) : (s.setCore n x).ctxs = s.ctxs := rfl
@[simp] theorem State.setCore_cores (s : State) (n : Nat) (x : Core) : (s.setCore n x).cores = tset {} s.cores n x := rfl
@[simp] theorem State.setCore_calls (s : State) (n : Nat) (x : Core) : (s.setCore n x).calls = s.calls := rfl
@[simp] theorem State.setCore_cols (s : State) (n : Nat) (x : Core) : (s.setCore n x).cols = s.cols := rfl
@[simp] theorem State.setCore_quads (s : State) (n : Nat) (x : Core) : (s.setCore n x).quads = s.quads := rfl
@[simp] theorem State.setCore_stackTab (s : State) (n : Nat) (x : Core) : (s.setCore n x).stackTab = s.stackTab := rfl
@[simp] theorem State.setCore_parts (s : State) (n : Nat) (x : Core) : (s.setCore n x).parts = s.parts := rfl
@[simp] theorem State.setCore_owners (s : State) (n : Nat) (x : Core) : (s.setCore n x).owners = s.owners := rfl
@[simp] theorem State.setCore_quires (s : State) (n : Nat) (x : Core) : (s.setCore n x).quires = s.quires := rfl
@[simp] theorem State.setCore_tiles (s : State) (n : Nat) (x : Core) : (s.setCore n x).tiles = s.tiles := rfl
@[simp] theorem State.setCore_cmds (s : State) (n : Nat) (x : Core) : (s.setCore n x).cmds = s.cmds := rfl
@[simp] theorem State.setCore_hints (s : State) (n : Nat) (x : Core) : (s.setCore n x).hints = s.hints := rfl
@[simp] theorem State.setCore_eps (s : State) (n : Nat) (x : Core) : (s.setCore n x).eps = s.eps := rfl
@[simp] theorem State.setCore_l2 (s : State) (n : Nat) (x : Core) : (s.setCore n x).l2 = s.l2 := rfl
@[simp] theorem State.setCore_occ (s : State) (n : Nat) (x : Core) : (s.setCore n x).occ = s.occ := rfl
@[simp] theorem State.setCore_spare (s : State) (n : Nat) (x : Core) : (s.setCore n x).spare = s.spare := rfl
@[simp] theorem State.setCore_ports (s : State) (n : Nat) (x : Core) : (s.setCore n x).ports = s.ports := rfl
@[simp] theorem State.setCore_gens (s : State) (n : Nat) (x : Core) : (s.setCore n x).gens = s.gens := rfl
@[simp] theorem State.setCore_zeroing (s : State) (n : Nat) (x : Core) : (s.setCore n x).zeroing = s.zeroing := rfl
@[simp] theorem State.setCore_demand (s : State) (n : Nat) (x : Core) : (s.setCore n x).demand = s.demand := rfl
@[simp] theorem State.setCore_quiet (s : State) (n : Nat) (x : Core) : (s.setCore n x).quiet = s.quiet := rfl
@[simp] theorem State.setCore_users (s : State) (n : Nat) (x : Core) : (s.setCore n x).users = s.users := rfl
@[simp] theorem State.setCore_tests (s : State) (n : Nat) (x : Core) : (s.setCore n x).tests = s.tests := rfl
@[simp] theorem State.setCore_dlv (s : State) (n : Nat) (x : Core) : (s.setCore n x).dlv = s.dlv := rfl
@[simp] theorem State.setCore_pkg (s : State) (n : Nat) (x : Core) : (s.setCore n x).pkg = s.pkg := rfl
@[simp] theorem State.setCore_cycle (s : State) (n : Nat) (x : Core) : (s.setCore n x).cycle = s.cycle := rfl
@[simp] theorem State.setCore_mem (s : State) (n : Nat) (x : Core) : (s.setCore n x).mem = s.mem := rfl
@[simp] theorem State.setCore_remote (s : State) (n : Nat) (x : Core) : (s.setCore n x).remote = s.remote := rfl
@[simp] theorem State.setCore_dawn (s : State) (n : Nat) (x : Core) : (s.setCore n x).dawn = s.dawn := rfl
@[simp] theorem State.setCore_phase (s : State) (n : Nat) (x : Core) : (s.setCore n x).phase = s.phase := rfl
@[simp] theorem State.setCore_todo (s : State) (n : Nat) (x : Core) : (s.setCore n x).todo = s.todo := rfl
@[simp] theorem State.setCore_cur (s : State) (n : Nat) (x : Core) : (s.setCore n x).cur = s.cur := rfl
@[simp] theorem State.setCore_micro (s : State) (n : Nat) (x : Core) : (s.setCore n x).micro = s.micro := rfl
@[simp] theorem State.setCore_inputs (s : State) (n : Nat) (x : Core) : (s.setCore n x).inputs = s.inputs := rfl
@[simp] theorem State.setCore_agenda (s : State) (n : Nat) (x : Core) : (s.setCore n x).agenda = s.agenda := rfl
@[simp] theorem State.setCore_serial (s : State) (n : Nat) (x : Core) : (s.setCore n x).serial = s.serial := rfl
@[simp] theorem State.setCore_fresh (s : State) (n : Nat) (x : Core) : (s.setCore n x).fresh = s.fresh := rfl

@[simp] theorem State.core_setCore_self (s : State) (n : Nat) (x : Core) : (s.setCore n x).core n = x := tget_tset_self _ _ _ _
theorem State.core_setCore_ne (s : State) (x : Core) {n m : Nat} (h : m ≠ n) : (s.setCore n x).core m = s.core m :=
  tget_tset_ne _ _ _ h
@[simp] theorem State.ctx_setCore (s : State) (n m : Nat) (x : Core) : (s.setCore n x).ctx m = s.ctx m := rfl
@[simp] theorem State.col_setCore (s : State) (n m : Nat) (x : Core) : (s.setCore n x).col m = s.col m := rfl
@[simp] theorem State.quad_setCore (s : State) (n m : Nat) (x : Core) : (s.setCore n x).quad m = s.quad m := rfl
@[simp] theorem State.stack_setCore (s : State) (n m : Nat) (x : Core) : (s.setCore n x).stack m = s.stack m := rfl
@[simp] theorem State.part_setCore (s : State) (n m : Nat) (x : Core) : (s.setCore n x).part m = s.part m := rfl
@[simp] theorem State.owner_setCore (s : State) (n m : Nat) (x : Core) : (s.setCore n x).owner m = s.owner m := rfl

/-! `State.setCol`. -/

@[simp] theorem State.setCol_ctxs (s : State) (n : Nat) (x : Col) : (s.setCol n x).ctxs = s.ctxs := rfl
@[simp] theorem State.setCol_cores (s : State) (n : Nat) (x : Col) : (s.setCol n x).cores = s.cores := rfl
@[simp] theorem State.setCol_calls (s : State) (n : Nat) (x : Col) : (s.setCol n x).calls = s.calls := rfl
@[simp] theorem State.setCol_cols (s : State) (n : Nat) (x : Col) : (s.setCol n x).cols = tset {} s.cols n x := rfl
@[simp] theorem State.setCol_quads (s : State) (n : Nat) (x : Col) : (s.setCol n x).quads = s.quads := rfl
@[simp] theorem State.setCol_stackTab (s : State) (n : Nat) (x : Col) : (s.setCol n x).stackTab = s.stackTab := rfl
@[simp] theorem State.setCol_parts (s : State) (n : Nat) (x : Col) : (s.setCol n x).parts = s.parts := rfl
@[simp] theorem State.setCol_owners (s : State) (n : Nat) (x : Col) : (s.setCol n x).owners = s.owners := rfl
@[simp] theorem State.setCol_quires (s : State) (n : Nat) (x : Col) : (s.setCol n x).quires = s.quires := rfl
@[simp] theorem State.setCol_tiles (s : State) (n : Nat) (x : Col) : (s.setCol n x).tiles = s.tiles := rfl
@[simp] theorem State.setCol_cmds (s : State) (n : Nat) (x : Col) : (s.setCol n x).cmds = s.cmds := rfl
@[simp] theorem State.setCol_hints (s : State) (n : Nat) (x : Col) : (s.setCol n x).hints = s.hints := rfl
@[simp] theorem State.setCol_eps (s : State) (n : Nat) (x : Col) : (s.setCol n x).eps = s.eps := rfl
@[simp] theorem State.setCol_l2 (s : State) (n : Nat) (x : Col) : (s.setCol n x).l2 = s.l2 := rfl
@[simp] theorem State.setCol_occ (s : State) (n : Nat) (x : Col) : (s.setCol n x).occ = s.occ := rfl
@[simp] theorem State.setCol_spare (s : State) (n : Nat) (x : Col) : (s.setCol n x).spare = s.spare := rfl
@[simp] theorem State.setCol_ports (s : State) (n : Nat) (x : Col) : (s.setCol n x).ports = s.ports := rfl
@[simp] theorem State.setCol_gens (s : State) (n : Nat) (x : Col) : (s.setCol n x).gens = s.gens := rfl
@[simp] theorem State.setCol_zeroing (s : State) (n : Nat) (x : Col) : (s.setCol n x).zeroing = s.zeroing := rfl
@[simp] theorem State.setCol_demand (s : State) (n : Nat) (x : Col) : (s.setCol n x).demand = s.demand := rfl
@[simp] theorem State.setCol_quiet (s : State) (n : Nat) (x : Col) : (s.setCol n x).quiet = s.quiet := rfl
@[simp] theorem State.setCol_users (s : State) (n : Nat) (x : Col) : (s.setCol n x).users = s.users := rfl
@[simp] theorem State.setCol_tests (s : State) (n : Nat) (x : Col) : (s.setCol n x).tests = s.tests := rfl
@[simp] theorem State.setCol_dlv (s : State) (n : Nat) (x : Col) : (s.setCol n x).dlv = s.dlv := rfl
@[simp] theorem State.setCol_pkg (s : State) (n : Nat) (x : Col) : (s.setCol n x).pkg = s.pkg := rfl
@[simp] theorem State.setCol_cycle (s : State) (n : Nat) (x : Col) : (s.setCol n x).cycle = s.cycle := rfl
@[simp] theorem State.setCol_mem (s : State) (n : Nat) (x : Col) : (s.setCol n x).mem = s.mem := rfl
@[simp] theorem State.setCol_remote (s : State) (n : Nat) (x : Col) : (s.setCol n x).remote = s.remote := rfl
@[simp] theorem State.setCol_dawn (s : State) (n : Nat) (x : Col) : (s.setCol n x).dawn = s.dawn := rfl
@[simp] theorem State.setCol_phase (s : State) (n : Nat) (x : Col) : (s.setCol n x).phase = s.phase := rfl
@[simp] theorem State.setCol_todo (s : State) (n : Nat) (x : Col) : (s.setCol n x).todo = s.todo := rfl
@[simp] theorem State.setCol_cur (s : State) (n : Nat) (x : Col) : (s.setCol n x).cur = s.cur := rfl
@[simp] theorem State.setCol_micro (s : State) (n : Nat) (x : Col) : (s.setCol n x).micro = s.micro := rfl
@[simp] theorem State.setCol_inputs (s : State) (n : Nat) (x : Col) : (s.setCol n x).inputs = s.inputs := rfl
@[simp] theorem State.setCol_agenda (s : State) (n : Nat) (x : Col) : (s.setCol n x).agenda = s.agenda := rfl
@[simp] theorem State.setCol_serial (s : State) (n : Nat) (x : Col) : (s.setCol n x).serial = s.serial := rfl
@[simp] theorem State.setCol_fresh (s : State) (n : Nat) (x : Col) : (s.setCol n x).fresh = s.fresh := rfl

@[simp] theorem State.col_setCol_self (s : State) (n : Nat) (x : Col) : (s.setCol n x).col n = x := tget_tset_self _ _ _ _
theorem State.col_setCol_ne (s : State) (x : Col) {n m : Nat} (h : m ≠ n) : (s.setCol n x).col m = s.col m :=
  tget_tset_ne _ _ _ h
@[simp] theorem State.ctx_setCol (s : State) (n m : Nat) (x : Col) : (s.setCol n x).ctx m = s.ctx m := rfl
@[simp] theorem State.core_setCol (s : State) (n m : Nat) (x : Col) : (s.setCol n x).core m = s.core m := rfl
@[simp] theorem State.quad_setCol (s : State) (n m : Nat) (x : Col) : (s.setCol n x).quad m = s.quad m := rfl
@[simp] theorem State.stack_setCol (s : State) (n m : Nat) (x : Col) : (s.setCol n x).stack m = s.stack m := rfl
@[simp] theorem State.part_setCol (s : State) (n m : Nat) (x : Col) : (s.setCol n x).part m = s.part m := rfl
@[simp] theorem State.owner_setCol (s : State) (n m : Nat) (x : Col) : (s.setCol n x).owner m = s.owner m := rfl

/-! `State.setQuad`. -/

@[simp] theorem State.setQuad_ctxs (s : State) (n : Nat) (x : Quad) : (s.setQuad n x).ctxs = s.ctxs := rfl
@[simp] theorem State.setQuad_cores (s : State) (n : Nat) (x : Quad) : (s.setQuad n x).cores = s.cores := rfl
@[simp] theorem State.setQuad_calls (s : State) (n : Nat) (x : Quad) : (s.setQuad n x).calls = s.calls := rfl
@[simp] theorem State.setQuad_cols (s : State) (n : Nat) (x : Quad) : (s.setQuad n x).cols = s.cols := rfl
@[simp] theorem State.setQuad_quads (s : State) (n : Nat) (x : Quad) : (s.setQuad n x).quads = tset {} s.quads n x := rfl
@[simp] theorem State.setQuad_stackTab (s : State) (n : Nat) (x : Quad) : (s.setQuad n x).stackTab = s.stackTab := rfl
@[simp] theorem State.setQuad_parts (s : State) (n : Nat) (x : Quad) : (s.setQuad n x).parts = s.parts := rfl
@[simp] theorem State.setQuad_owners (s : State) (n : Nat) (x : Quad) : (s.setQuad n x).owners = s.owners := rfl
@[simp] theorem State.setQuad_quires (s : State) (n : Nat) (x : Quad) : (s.setQuad n x).quires = s.quires := rfl
@[simp] theorem State.setQuad_tiles (s : State) (n : Nat) (x : Quad) : (s.setQuad n x).tiles = s.tiles := rfl
@[simp] theorem State.setQuad_cmds (s : State) (n : Nat) (x : Quad) : (s.setQuad n x).cmds = s.cmds := rfl
@[simp] theorem State.setQuad_hints (s : State) (n : Nat) (x : Quad) : (s.setQuad n x).hints = s.hints := rfl
@[simp] theorem State.setQuad_eps (s : State) (n : Nat) (x : Quad) : (s.setQuad n x).eps = s.eps := rfl
@[simp] theorem State.setQuad_l2 (s : State) (n : Nat) (x : Quad) : (s.setQuad n x).l2 = s.l2 := rfl
@[simp] theorem State.setQuad_occ (s : State) (n : Nat) (x : Quad) : (s.setQuad n x).occ = s.occ := rfl
@[simp] theorem State.setQuad_spare (s : State) (n : Nat) (x : Quad) : (s.setQuad n x).spare = s.spare := rfl
@[simp] theorem State.setQuad_ports (s : State) (n : Nat) (x : Quad) : (s.setQuad n x).ports = s.ports := rfl
@[simp] theorem State.setQuad_gens (s : State) (n : Nat) (x : Quad) : (s.setQuad n x).gens = s.gens := rfl
@[simp] theorem State.setQuad_zeroing (s : State) (n : Nat) (x : Quad) : (s.setQuad n x).zeroing = s.zeroing := rfl
@[simp] theorem State.setQuad_demand (s : State) (n : Nat) (x : Quad) : (s.setQuad n x).demand = s.demand := rfl
@[simp] theorem State.setQuad_quiet (s : State) (n : Nat) (x : Quad) : (s.setQuad n x).quiet = s.quiet := rfl
@[simp] theorem State.setQuad_users (s : State) (n : Nat) (x : Quad) : (s.setQuad n x).users = s.users := rfl
@[simp] theorem State.setQuad_tests (s : State) (n : Nat) (x : Quad) : (s.setQuad n x).tests = s.tests := rfl
@[simp] theorem State.setQuad_dlv (s : State) (n : Nat) (x : Quad) : (s.setQuad n x).dlv = s.dlv := rfl
@[simp] theorem State.setQuad_pkg (s : State) (n : Nat) (x : Quad) : (s.setQuad n x).pkg = s.pkg := rfl
@[simp] theorem State.setQuad_cycle (s : State) (n : Nat) (x : Quad) : (s.setQuad n x).cycle = s.cycle := rfl
@[simp] theorem State.setQuad_mem (s : State) (n : Nat) (x : Quad) : (s.setQuad n x).mem = s.mem := rfl
@[simp] theorem State.setQuad_remote (s : State) (n : Nat) (x : Quad) : (s.setQuad n x).remote = s.remote := rfl
@[simp] theorem State.setQuad_dawn (s : State) (n : Nat) (x : Quad) : (s.setQuad n x).dawn = s.dawn := rfl
@[simp] theorem State.setQuad_phase (s : State) (n : Nat) (x : Quad) : (s.setQuad n x).phase = s.phase := rfl
@[simp] theorem State.setQuad_todo (s : State) (n : Nat) (x : Quad) : (s.setQuad n x).todo = s.todo := rfl
@[simp] theorem State.setQuad_cur (s : State) (n : Nat) (x : Quad) : (s.setQuad n x).cur = s.cur := rfl
@[simp] theorem State.setQuad_micro (s : State) (n : Nat) (x : Quad) : (s.setQuad n x).micro = s.micro := rfl
@[simp] theorem State.setQuad_inputs (s : State) (n : Nat) (x : Quad) : (s.setQuad n x).inputs = s.inputs := rfl
@[simp] theorem State.setQuad_agenda (s : State) (n : Nat) (x : Quad) : (s.setQuad n x).agenda = s.agenda := rfl
@[simp] theorem State.setQuad_serial (s : State) (n : Nat) (x : Quad) : (s.setQuad n x).serial = s.serial := rfl
@[simp] theorem State.setQuad_fresh (s : State) (n : Nat) (x : Quad) : (s.setQuad n x).fresh = s.fresh := rfl

@[simp] theorem State.quad_setQuad_self (s : State) (n : Nat) (x : Quad) : (s.setQuad n x).quad n = x := tget_tset_self _ _ _ _
theorem State.quad_setQuad_ne (s : State) (x : Quad) {n m : Nat} (h : m ≠ n) : (s.setQuad n x).quad m = s.quad m :=
  tget_tset_ne _ _ _ h
@[simp] theorem State.ctx_setQuad (s : State) (n m : Nat) (x : Quad) : (s.setQuad n x).ctx m = s.ctx m := rfl
@[simp] theorem State.core_setQuad (s : State) (n m : Nat) (x : Quad) : (s.setQuad n x).core m = s.core m := rfl
@[simp] theorem State.col_setQuad (s : State) (n m : Nat) (x : Quad) : (s.setQuad n x).col m = s.col m := rfl
@[simp] theorem State.stack_setQuad (s : State) (n m : Nat) (x : Quad) : (s.setQuad n x).stack m = s.stack m := rfl
@[simp] theorem State.part_setQuad (s : State) (n m : Nat) (x : Quad) : (s.setQuad n x).part m = s.part m := rfl
@[simp] theorem State.owner_setQuad (s : State) (n m : Nat) (x : Quad) : (s.setQuad n x).owner m = s.owner m := rfl

/-! `State.setStack`. -/

@[simp] theorem State.setStack_ctxs (s : State) (n : Nat) (x : Stack) : (s.setStack n x).ctxs = s.ctxs := rfl
@[simp] theorem State.setStack_cores (s : State) (n : Nat) (x : Stack) : (s.setStack n x).cores = s.cores := rfl
@[simp] theorem State.setStack_calls (s : State) (n : Nat) (x : Stack) : (s.setStack n x).calls = s.calls := rfl
@[simp] theorem State.setStack_cols (s : State) (n : Nat) (x : Stack) : (s.setStack n x).cols = s.cols := rfl
@[simp] theorem State.setStack_quads (s : State) (n : Nat) (x : Stack) : (s.setStack n x).quads = s.quads := rfl
@[simp] theorem State.setStack_stackTab (s : State) (n : Nat) (x : Stack) : (s.setStack n x).stackTab = tset {} s.stackTab n x := rfl
@[simp] theorem State.setStack_parts (s : State) (n : Nat) (x : Stack) : (s.setStack n x).parts = s.parts := rfl
@[simp] theorem State.setStack_owners (s : State) (n : Nat) (x : Stack) : (s.setStack n x).owners = s.owners := rfl
@[simp] theorem State.setStack_quires (s : State) (n : Nat) (x : Stack) : (s.setStack n x).quires = s.quires := rfl
@[simp] theorem State.setStack_tiles (s : State) (n : Nat) (x : Stack) : (s.setStack n x).tiles = s.tiles := rfl
@[simp] theorem State.setStack_cmds (s : State) (n : Nat) (x : Stack) : (s.setStack n x).cmds = s.cmds := rfl
@[simp] theorem State.setStack_hints (s : State) (n : Nat) (x : Stack) : (s.setStack n x).hints = s.hints := rfl
@[simp] theorem State.setStack_eps (s : State) (n : Nat) (x : Stack) : (s.setStack n x).eps = s.eps := rfl
@[simp] theorem State.setStack_l2 (s : State) (n : Nat) (x : Stack) : (s.setStack n x).l2 = s.l2 := rfl
@[simp] theorem State.setStack_occ (s : State) (n : Nat) (x : Stack) : (s.setStack n x).occ = s.occ := rfl
@[simp] theorem State.setStack_spare (s : State) (n : Nat) (x : Stack) : (s.setStack n x).spare = s.spare := rfl
@[simp] theorem State.setStack_ports (s : State) (n : Nat) (x : Stack) : (s.setStack n x).ports = s.ports := rfl
@[simp] theorem State.setStack_gens (s : State) (n : Nat) (x : Stack) : (s.setStack n x).gens = s.gens := rfl
@[simp] theorem State.setStack_zeroing (s : State) (n : Nat) (x : Stack) : (s.setStack n x).zeroing = s.zeroing := rfl
@[simp] theorem State.setStack_demand (s : State) (n : Nat) (x : Stack) : (s.setStack n x).demand = s.demand := rfl
@[simp] theorem State.setStack_quiet (s : State) (n : Nat) (x : Stack) : (s.setStack n x).quiet = s.quiet := rfl
@[simp] theorem State.setStack_users (s : State) (n : Nat) (x : Stack) : (s.setStack n x).users = s.users := rfl
@[simp] theorem State.setStack_tests (s : State) (n : Nat) (x : Stack) : (s.setStack n x).tests = s.tests := rfl
@[simp] theorem State.setStack_dlv (s : State) (n : Nat) (x : Stack) : (s.setStack n x).dlv = s.dlv := rfl
@[simp] theorem State.setStack_pkg (s : State) (n : Nat) (x : Stack) : (s.setStack n x).pkg = s.pkg := rfl
@[simp] theorem State.setStack_cycle (s : State) (n : Nat) (x : Stack) : (s.setStack n x).cycle = s.cycle := rfl
@[simp] theorem State.setStack_mem (s : State) (n : Nat) (x : Stack) : (s.setStack n x).mem = s.mem := rfl
@[simp] theorem State.setStack_remote (s : State) (n : Nat) (x : Stack) : (s.setStack n x).remote = s.remote := rfl
@[simp] theorem State.setStack_dawn (s : State) (n : Nat) (x : Stack) : (s.setStack n x).dawn = s.dawn := rfl
@[simp] theorem State.setStack_phase (s : State) (n : Nat) (x : Stack) : (s.setStack n x).phase = s.phase := rfl
@[simp] theorem State.setStack_todo (s : State) (n : Nat) (x : Stack) : (s.setStack n x).todo = s.todo := rfl
@[simp] theorem State.setStack_cur (s : State) (n : Nat) (x : Stack) : (s.setStack n x).cur = s.cur := rfl
@[simp] theorem State.setStack_micro (s : State) (n : Nat) (x : Stack) : (s.setStack n x).micro = s.micro := rfl
@[simp] theorem State.setStack_inputs (s : State) (n : Nat) (x : Stack) : (s.setStack n x).inputs = s.inputs := rfl
@[simp] theorem State.setStack_agenda (s : State) (n : Nat) (x : Stack) : (s.setStack n x).agenda = s.agenda := rfl
@[simp] theorem State.setStack_serial (s : State) (n : Nat) (x : Stack) : (s.setStack n x).serial = s.serial := rfl
@[simp] theorem State.setStack_fresh (s : State) (n : Nat) (x : Stack) : (s.setStack n x).fresh = s.fresh := rfl

@[simp] theorem State.stack_setStack_self (s : State) (n : Nat) (x : Stack) : (s.setStack n x).stack n = x := tget_tset_self _ _ _ _
theorem State.stack_setStack_ne (s : State) (x : Stack) {n m : Nat} (h : m ≠ n) : (s.setStack n x).stack m = s.stack m :=
  tget_tset_ne _ _ _ h
@[simp] theorem State.ctx_setStack (s : State) (n m : Nat) (x : Stack) : (s.setStack n x).ctx m = s.ctx m := rfl
@[simp] theorem State.core_setStack (s : State) (n m : Nat) (x : Stack) : (s.setStack n x).core m = s.core m := rfl
@[simp] theorem State.col_setStack (s : State) (n m : Nat) (x : Stack) : (s.setStack n x).col m = s.col m := rfl
@[simp] theorem State.quad_setStack (s : State) (n m : Nat) (x : Stack) : (s.setStack n x).quad m = s.quad m := rfl
@[simp] theorem State.part_setStack (s : State) (n m : Nat) (x : Stack) : (s.setStack n x).part m = s.part m := rfl
@[simp] theorem State.owner_setStack (s : State) (n m : Nat) (x : Stack) : (s.setStack n x).owner m = s.owner m := rfl

/-! `State.setPart`. -/

@[simp] theorem State.setPart_ctxs (s : State) (n : Nat) (x : Part) : (s.setPart n x).ctxs = s.ctxs := rfl
@[simp] theorem State.setPart_cores (s : State) (n : Nat) (x : Part) : (s.setPart n x).cores = s.cores := rfl
@[simp] theorem State.setPart_calls (s : State) (n : Nat) (x : Part) : (s.setPart n x).calls = s.calls := rfl
@[simp] theorem State.setPart_cols (s : State) (n : Nat) (x : Part) : (s.setPart n x).cols = s.cols := rfl
@[simp] theorem State.setPart_quads (s : State) (n : Nat) (x : Part) : (s.setPart n x).quads = s.quads := rfl
@[simp] theorem State.setPart_stackTab (s : State) (n : Nat) (x : Part) : (s.setPart n x).stackTab = s.stackTab := rfl
@[simp] theorem State.setPart_parts (s : State) (n : Nat) (x : Part) : (s.setPart n x).parts = tset {} s.parts n x := rfl
@[simp] theorem State.setPart_owners (s : State) (n : Nat) (x : Part) : (s.setPart n x).owners = s.owners := rfl
@[simp] theorem State.setPart_quires (s : State) (n : Nat) (x : Part) : (s.setPart n x).quires = s.quires := rfl
@[simp] theorem State.setPart_tiles (s : State) (n : Nat) (x : Part) : (s.setPart n x).tiles = s.tiles := rfl
@[simp] theorem State.setPart_cmds (s : State) (n : Nat) (x : Part) : (s.setPart n x).cmds = s.cmds := rfl
@[simp] theorem State.setPart_hints (s : State) (n : Nat) (x : Part) : (s.setPart n x).hints = s.hints := rfl
@[simp] theorem State.setPart_eps (s : State) (n : Nat) (x : Part) : (s.setPart n x).eps = s.eps := rfl
@[simp] theorem State.setPart_l2 (s : State) (n : Nat) (x : Part) : (s.setPart n x).l2 = s.l2 := rfl
@[simp] theorem State.setPart_occ (s : State) (n : Nat) (x : Part) : (s.setPart n x).occ = s.occ := rfl
@[simp] theorem State.setPart_spare (s : State) (n : Nat) (x : Part) : (s.setPart n x).spare = s.spare := rfl
@[simp] theorem State.setPart_ports (s : State) (n : Nat) (x : Part) : (s.setPart n x).ports = s.ports := rfl
@[simp] theorem State.setPart_gens (s : State) (n : Nat) (x : Part) : (s.setPart n x).gens = s.gens := rfl
@[simp] theorem State.setPart_zeroing (s : State) (n : Nat) (x : Part) : (s.setPart n x).zeroing = s.zeroing := rfl
@[simp] theorem State.setPart_demand (s : State) (n : Nat) (x : Part) : (s.setPart n x).demand = s.demand := rfl
@[simp] theorem State.setPart_quiet (s : State) (n : Nat) (x : Part) : (s.setPart n x).quiet = s.quiet := rfl
@[simp] theorem State.setPart_users (s : State) (n : Nat) (x : Part) : (s.setPart n x).users = s.users := rfl
@[simp] theorem State.setPart_tests (s : State) (n : Nat) (x : Part) : (s.setPart n x).tests = s.tests := rfl
@[simp] theorem State.setPart_dlv (s : State) (n : Nat) (x : Part) : (s.setPart n x).dlv = s.dlv := rfl
@[simp] theorem State.setPart_pkg (s : State) (n : Nat) (x : Part) : (s.setPart n x).pkg = s.pkg := rfl
@[simp] theorem State.setPart_cycle (s : State) (n : Nat) (x : Part) : (s.setPart n x).cycle = s.cycle := rfl
@[simp] theorem State.setPart_mem (s : State) (n : Nat) (x : Part) : (s.setPart n x).mem = s.mem := rfl
@[simp] theorem State.setPart_remote (s : State) (n : Nat) (x : Part) : (s.setPart n x).remote = s.remote := rfl
@[simp] theorem State.setPart_dawn (s : State) (n : Nat) (x : Part) : (s.setPart n x).dawn = s.dawn := rfl
@[simp] theorem State.setPart_phase (s : State) (n : Nat) (x : Part) : (s.setPart n x).phase = s.phase := rfl
@[simp] theorem State.setPart_todo (s : State) (n : Nat) (x : Part) : (s.setPart n x).todo = s.todo := rfl
@[simp] theorem State.setPart_cur (s : State) (n : Nat) (x : Part) : (s.setPart n x).cur = s.cur := rfl
@[simp] theorem State.setPart_micro (s : State) (n : Nat) (x : Part) : (s.setPart n x).micro = s.micro := rfl
@[simp] theorem State.setPart_inputs (s : State) (n : Nat) (x : Part) : (s.setPart n x).inputs = s.inputs := rfl
@[simp] theorem State.setPart_agenda (s : State) (n : Nat) (x : Part) : (s.setPart n x).agenda = s.agenda := rfl
@[simp] theorem State.setPart_serial (s : State) (n : Nat) (x : Part) : (s.setPart n x).serial = s.serial := rfl
@[simp] theorem State.setPart_fresh (s : State) (n : Nat) (x : Part) : (s.setPart n x).fresh = s.fresh := rfl

@[simp] theorem State.part_setPart_self (s : State) (n : Nat) (x : Part) : (s.setPart n x).part n = x := tget_tset_self _ _ _ _
theorem State.part_setPart_ne (s : State) (x : Part) {n m : Nat} (h : m ≠ n) : (s.setPart n x).part m = s.part m :=
  tget_tset_ne _ _ _ h
@[simp] theorem State.ctx_setPart (s : State) (n m : Nat) (x : Part) : (s.setPart n x).ctx m = s.ctx m := rfl
@[simp] theorem State.core_setPart (s : State) (n m : Nat) (x : Part) : (s.setPart n x).core m = s.core m := rfl
@[simp] theorem State.col_setPart (s : State) (n m : Nat) (x : Part) : (s.setPart n x).col m = s.col m := rfl
@[simp] theorem State.quad_setPart (s : State) (n m : Nat) (x : Part) : (s.setPart n x).quad m = s.quad m := rfl
@[simp] theorem State.stack_setPart (s : State) (n m : Nat) (x : Part) : (s.setPart n x).stack m = s.stack m := rfl
@[simp] theorem State.owner_setPart (s : State) (n m : Nat) (x : Part) : (s.setPart n x).owner m = s.owner m := rfl

/-! `State.setOwner`. -/

@[simp] theorem State.setOwner_ctxs (s : State) (n : Nat) (x : Owner) : (s.setOwner n x).ctxs = s.ctxs := rfl
@[simp] theorem State.setOwner_cores (s : State) (n : Nat) (x : Owner) : (s.setOwner n x).cores = s.cores := rfl
@[simp] theorem State.setOwner_calls (s : State) (n : Nat) (x : Owner) : (s.setOwner n x).calls = s.calls := rfl
@[simp] theorem State.setOwner_cols (s : State) (n : Nat) (x : Owner) : (s.setOwner n x).cols = s.cols := rfl
@[simp] theorem State.setOwner_quads (s : State) (n : Nat) (x : Owner) : (s.setOwner n x).quads = s.quads := rfl
@[simp] theorem State.setOwner_stackTab (s : State) (n : Nat) (x : Owner) : (s.setOwner n x).stackTab = s.stackTab := rfl
@[simp] theorem State.setOwner_parts (s : State) (n : Nat) (x : Owner) : (s.setOwner n x).parts = s.parts := rfl
@[simp] theorem State.setOwner_owners (s : State) (n : Nat) (x : Owner) : (s.setOwner n x).owners = tset {} s.owners n x := rfl
@[simp] theorem State.setOwner_quires (s : State) (n : Nat) (x : Owner) : (s.setOwner n x).quires = s.quires := rfl
@[simp] theorem State.setOwner_tiles (s : State) (n : Nat) (x : Owner) : (s.setOwner n x).tiles = s.tiles := rfl
@[simp] theorem State.setOwner_cmds (s : State) (n : Nat) (x : Owner) : (s.setOwner n x).cmds = s.cmds := rfl
@[simp] theorem State.setOwner_hints (s : State) (n : Nat) (x : Owner) : (s.setOwner n x).hints = s.hints := rfl
@[simp] theorem State.setOwner_eps (s : State) (n : Nat) (x : Owner) : (s.setOwner n x).eps = s.eps := rfl
@[simp] theorem State.setOwner_l2 (s : State) (n : Nat) (x : Owner) : (s.setOwner n x).l2 = s.l2 := rfl
@[simp] theorem State.setOwner_occ (s : State) (n : Nat) (x : Owner) : (s.setOwner n x).occ = s.occ := rfl
@[simp] theorem State.setOwner_spare (s : State) (n : Nat) (x : Owner) : (s.setOwner n x).spare = s.spare := rfl
@[simp] theorem State.setOwner_ports (s : State) (n : Nat) (x : Owner) : (s.setOwner n x).ports = s.ports := rfl
@[simp] theorem State.setOwner_gens (s : State) (n : Nat) (x : Owner) : (s.setOwner n x).gens = s.gens := rfl
@[simp] theorem State.setOwner_zeroing (s : State) (n : Nat) (x : Owner) : (s.setOwner n x).zeroing = s.zeroing := rfl
@[simp] theorem State.setOwner_demand (s : State) (n : Nat) (x : Owner) : (s.setOwner n x).demand = s.demand := rfl
@[simp] theorem State.setOwner_quiet (s : State) (n : Nat) (x : Owner) : (s.setOwner n x).quiet = s.quiet := rfl
@[simp] theorem State.setOwner_users (s : State) (n : Nat) (x : Owner) : (s.setOwner n x).users = s.users := rfl
@[simp] theorem State.setOwner_tests (s : State) (n : Nat) (x : Owner) : (s.setOwner n x).tests = s.tests := rfl
@[simp] theorem State.setOwner_dlv (s : State) (n : Nat) (x : Owner) : (s.setOwner n x).dlv = s.dlv := rfl
@[simp] theorem State.setOwner_pkg (s : State) (n : Nat) (x : Owner) : (s.setOwner n x).pkg = s.pkg := rfl
@[simp] theorem State.setOwner_cycle (s : State) (n : Nat) (x : Owner) : (s.setOwner n x).cycle = s.cycle := rfl
@[simp] theorem State.setOwner_mem (s : State) (n : Nat) (x : Owner) : (s.setOwner n x).mem = s.mem := rfl
@[simp] theorem State.setOwner_remote (s : State) (n : Nat) (x : Owner) : (s.setOwner n x).remote = s.remote := rfl
@[simp] theorem State.setOwner_dawn (s : State) (n : Nat) (x : Owner) : (s.setOwner n x).dawn = s.dawn := rfl
@[simp] theorem State.setOwner_phase (s : State) (n : Nat) (x : Owner) : (s.setOwner n x).phase = s.phase := rfl
@[simp] theorem State.setOwner_todo (s : State) (n : Nat) (x : Owner) : (s.setOwner n x).todo = s.todo := rfl
@[simp] theorem State.setOwner_cur (s : State) (n : Nat) (x : Owner) : (s.setOwner n x).cur = s.cur := rfl
@[simp] theorem State.setOwner_micro (s : State) (n : Nat) (x : Owner) : (s.setOwner n x).micro = s.micro := rfl
@[simp] theorem State.setOwner_inputs (s : State) (n : Nat) (x : Owner) : (s.setOwner n x).inputs = s.inputs := rfl
@[simp] theorem State.setOwner_agenda (s : State) (n : Nat) (x : Owner) : (s.setOwner n x).agenda = s.agenda := rfl
@[simp] theorem State.setOwner_serial (s : State) (n : Nat) (x : Owner) : (s.setOwner n x).serial = s.serial := rfl
@[simp] theorem State.setOwner_fresh (s : State) (n : Nat) (x : Owner) : (s.setOwner n x).fresh = s.fresh := rfl

@[simp] theorem State.owner_setOwner_self (s : State) (n : Nat) (x : Owner) : (s.setOwner n x).owner n = x := tget_tset_self _ _ _ _
theorem State.owner_setOwner_ne (s : State) (x : Owner) {n m : Nat} (h : m ≠ n) : (s.setOwner n x).owner m = s.owner m :=
  tget_tset_ne _ _ _ h
@[simp] theorem State.ctx_setOwner (s : State) (n m : Nat) (x : Owner) : (s.setOwner n x).ctx m = s.ctx m := rfl
@[simp] theorem State.core_setOwner (s : State) (n m : Nat) (x : Owner) : (s.setOwner n x).core m = s.core m := rfl
@[simp] theorem State.col_setOwner (s : State) (n m : Nat) (x : Owner) : (s.setOwner n x).col m = s.col m := rfl
@[simp] theorem State.quad_setOwner (s : State) (n m : Nat) (x : Owner) : (s.setOwner n x).quad m = s.quad m := rfl
@[simp] theorem State.stack_setOwner (s : State) (n m : Nat) (x : Owner) : (s.setOwner n x).stack m = s.stack m := rfl
@[simp] theorem State.part_setOwner (s : State) (n m : Nat) (x : Owner) : (s.setOwner n x).part m = s.part m := rfl

@[simp] theorem State.updCtx_eq (s : State) (n : Nat) (f : Ctx → Ctx) : s.updCtx n f = s.setCtx n (f (s.ctx n)) := rfl
@[simp] theorem State.updCore_eq (s : State) (n : Nat) (f : Core → Core) : s.updCore n f = s.setCore n (f (s.core n)) := rfl
@[simp] theorem State.updQuad_eq (s : State) (n : Nat) (f : Quad → Quad) : s.updQuad n f = s.setQuad n (f (s.quad n)) := rfl
@[simp] theorem State.updStack_eq (s : State) (n : Nat) (f : Stack → Stack) : s.updStack n f = s.setStack n (f (s.stack n)) := rfl
@[simp] theorem State.updPart_eq (s : State) (n : Nat) (f : Part → Part) : s.updPart n f = s.setPart n (f (s.part n)) := rfl
@[simp] theorem State.updOwner_eq (s : State) (n : Nat) (f : Owner → Owner) : s.updOwner n f = s.setOwner n (f (s.owner n)) := rfl

/-! `State.updPkg`. -/

@[simp] theorem State.updPkg_ctxs (s : State) (f : Pkg → Pkg) : (s.updPkg f).ctxs = s.ctxs := rfl
@[simp] theorem State.updPkg_cores (s : State) (f : Pkg → Pkg) : (s.updPkg f).cores = s.cores := rfl
@[simp] theorem State.updPkg_calls (s : State) (f : Pkg → Pkg) : (s.updPkg f).calls = s.calls := rfl
@[simp] theorem State.updPkg_cols (s : State) (f : Pkg → Pkg) : (s.updPkg f).cols = s.cols := rfl
@[simp] theorem State.updPkg_quads (s : State) (f : Pkg → Pkg) : (s.updPkg f).quads = s.quads := rfl
@[simp] theorem State.updPkg_stackTab (s : State) (f : Pkg → Pkg) : (s.updPkg f).stackTab = s.stackTab := rfl
@[simp] theorem State.updPkg_parts (s : State) (f : Pkg → Pkg) : (s.updPkg f).parts = s.parts := rfl
@[simp] theorem State.updPkg_owners (s : State) (f : Pkg → Pkg) : (s.updPkg f).owners = s.owners := rfl
@[simp] theorem State.updPkg_quires (s : State) (f : Pkg → Pkg) : (s.updPkg f).quires = s.quires := rfl
@[simp] theorem State.updPkg_tiles (s : State) (f : Pkg → Pkg) : (s.updPkg f).tiles = s.tiles := rfl
@[simp] theorem State.updPkg_cmds (s : State) (f : Pkg → Pkg) : (s.updPkg f).cmds = s.cmds := rfl
@[simp] theorem State.updPkg_hints (s : State) (f : Pkg → Pkg) : (s.updPkg f).hints = s.hints := rfl
@[simp] theorem State.updPkg_eps (s : State) (f : Pkg → Pkg) : (s.updPkg f).eps = s.eps := rfl
@[simp] theorem State.updPkg_l2 (s : State) (f : Pkg → Pkg) : (s.updPkg f).l2 = s.l2 := rfl
@[simp] theorem State.updPkg_occ (s : State) (f : Pkg → Pkg) : (s.updPkg f).occ = s.occ := rfl
@[simp] theorem State.updPkg_spare (s : State) (f : Pkg → Pkg) : (s.updPkg f).spare = s.spare := rfl
@[simp] theorem State.updPkg_ports (s : State) (f : Pkg → Pkg) : (s.updPkg f).ports = s.ports := rfl
@[simp] theorem State.updPkg_gens (s : State) (f : Pkg → Pkg) : (s.updPkg f).gens = s.gens := rfl
@[simp] theorem State.updPkg_zeroing (s : State) (f : Pkg → Pkg) : (s.updPkg f).zeroing = s.zeroing := rfl
@[simp] theorem State.updPkg_demand (s : State) (f : Pkg → Pkg) : (s.updPkg f).demand = s.demand := rfl
@[simp] theorem State.updPkg_quiet (s : State) (f : Pkg → Pkg) : (s.updPkg f).quiet = s.quiet := rfl
@[simp] theorem State.updPkg_users (s : State) (f : Pkg → Pkg) : (s.updPkg f).users = s.users := rfl
@[simp] theorem State.updPkg_tests (s : State) (f : Pkg → Pkg) : (s.updPkg f).tests = s.tests := rfl
@[simp] theorem State.updPkg_dlv (s : State) (f : Pkg → Pkg) : (s.updPkg f).dlv = s.dlv := rfl
@[simp] theorem State.updPkg_pkg (s : State) (f : Pkg → Pkg) : (s.updPkg f).pkg = f s.pkg := rfl
@[simp] theorem State.updPkg_cycle (s : State) (f : Pkg → Pkg) : (s.updPkg f).cycle = s.cycle := rfl
@[simp] theorem State.updPkg_mem (s : State) (f : Pkg → Pkg) : (s.updPkg f).mem = s.mem := rfl
@[simp] theorem State.updPkg_remote (s : State) (f : Pkg → Pkg) : (s.updPkg f).remote = s.remote := rfl
@[simp] theorem State.updPkg_dawn (s : State) (f : Pkg → Pkg) : (s.updPkg f).dawn = s.dawn := rfl
@[simp] theorem State.updPkg_phase (s : State) (f : Pkg → Pkg) : (s.updPkg f).phase = s.phase := rfl
@[simp] theorem State.updPkg_todo (s : State) (f : Pkg → Pkg) : (s.updPkg f).todo = s.todo := rfl
@[simp] theorem State.updPkg_cur (s : State) (f : Pkg → Pkg) : (s.updPkg f).cur = s.cur := rfl
@[simp] theorem State.updPkg_micro (s : State) (f : Pkg → Pkg) : (s.updPkg f).micro = s.micro := rfl
@[simp] theorem State.updPkg_inputs (s : State) (f : Pkg → Pkg) : (s.updPkg f).inputs = s.inputs := rfl
@[simp] theorem State.updPkg_agenda (s : State) (f : Pkg → Pkg) : (s.updPkg f).agenda = s.agenda := rfl
@[simp] theorem State.updPkg_serial (s : State) (f : Pkg → Pkg) : (s.updPkg f).serial = s.serial := rfl
@[simp] theorem State.updPkg_fresh (s : State) (f : Pkg → Pkg) : (s.updPkg f).fresh = s.fresh := rfl
@[simp] theorem State.ctx_updPkg (s : State) (f : Pkg → Pkg) (m : Nat) : (s.updPkg f).ctx m = s.ctx m := rfl
@[simp] theorem State.core_updPkg (s : State) (f : Pkg → Pkg) (m : Nat) : (s.updPkg f).core m = s.core m := rfl
@[simp] theorem State.col_updPkg (s : State) (f : Pkg → Pkg) (m : Nat) : (s.updPkg f).col m = s.col m := rfl
@[simp] theorem State.quad_updPkg (s : State) (f : Pkg → Pkg) (m : Nat) : (s.updPkg f).quad m = s.quad m := rfl
@[simp] theorem State.stack_updPkg (s : State) (f : Pkg → Pkg) (m : Nat) : (s.updPkg f).stack m = s.stack m := rfl
@[simp] theorem State.part_updPkg (s : State) (f : Pkg → Pkg) (m : Nat) : (s.updPkg f).part m = s.part m := rfl
@[simp] theorem State.owner_updPkg (s : State) (f : Pkg → Pkg) (m : Nat) : (s.updPkg f).owner m = s.owner m := rfl
@[simp] theorem State.raise_eq (s : State) (v : Nat) : s.raise v = s.updPkg fun k => { k with raised := v :: k.raised, pending := if k.masked v then k.pending ||| 2 ^ v else k.pending } := rfl

/-! `State.setRawByte`. -/

@[simp] theorem State.setRawByte_ctxs (s : State) (pa : Nat) (b : Byte) : (s.setRawByte pa b).ctxs = s.ctxs := by
  unfold State.setRawByte; split <;> rfl
@[simp] theorem State.setRawByte_cores (s : State) (pa : Nat) (b : Byte) : (s.setRawByte pa b).cores = s.cores := by
  unfold State.setRawByte; split <;> rfl
@[simp] theorem State.setRawByte_calls (s : State) (pa : Nat) (b : Byte) : (s.setRawByte pa b).calls = s.calls := by
  unfold State.setRawByte; split <;> rfl
@[simp] theorem State.setRawByte_cols (s : State) (pa : Nat) (b : Byte) : (s.setRawByte pa b).cols = s.cols := by
  unfold State.setRawByte; split <;> rfl
@[simp] theorem State.setRawByte_quads (s : State) (pa : Nat) (b : Byte) : (s.setRawByte pa b).quads = s.quads := by
  unfold State.setRawByte; split <;> rfl
@[simp] theorem State.setRawByte_stackTab (s : State) (pa : Nat) (b : Byte) : (s.setRawByte pa b).stackTab = s.stackTab := by
  unfold State.setRawByte; split <;> rfl
@[simp] theorem State.setRawByte_parts (s : State) (pa : Nat) (b : Byte) : (s.setRawByte pa b).parts = s.parts := by
  unfold State.setRawByte; split <;> rfl
@[simp] theorem State.setRawByte_owners (s : State) (pa : Nat) (b : Byte) : (s.setRawByte pa b).owners = s.owners := by
  unfold State.setRawByte; split <;> rfl
@[simp] theorem State.setRawByte_quires (s : State) (pa : Nat) (b : Byte) : (s.setRawByte pa b).quires = s.quires := by
  unfold State.setRawByte; split <;> rfl
@[simp] theorem State.setRawByte_tiles (s : State) (pa : Nat) (b : Byte) : (s.setRawByte pa b).tiles = s.tiles := by
  unfold State.setRawByte; split <;> rfl
@[simp] theorem State.setRawByte_cmds (s : State) (pa : Nat) (b : Byte) : (s.setRawByte pa b).cmds = s.cmds := by
  unfold State.setRawByte; split <;> rfl
@[simp] theorem State.setRawByte_hints (s : State) (pa : Nat) (b : Byte) : (s.setRawByte pa b).hints = s.hints := by
  unfold State.setRawByte; split <;> rfl
@[simp] theorem State.setRawByte_eps (s : State) (pa : Nat) (b : Byte) : (s.setRawByte pa b).eps = s.eps := by
  unfold State.setRawByte; split <;> rfl
@[simp] theorem State.setRawByte_l2 (s : State) (pa : Nat) (b : Byte) : (s.setRawByte pa b).l2 = s.l2 := by
  unfold State.setRawByte; split <;> rfl
@[simp] theorem State.setRawByte_occ (s : State) (pa : Nat) (b : Byte) : (s.setRawByte pa b).occ = s.occ := by
  unfold State.setRawByte; split <;> rfl
@[simp] theorem State.setRawByte_spare (s : State) (pa : Nat) (b : Byte) : (s.setRawByte pa b).spare = s.spare := by
  unfold State.setRawByte; split <;> rfl
@[simp] theorem State.setRawByte_ports (s : State) (pa : Nat) (b : Byte) : (s.setRawByte pa b).ports = s.ports := by
  unfold State.setRawByte; split <;> rfl
@[simp] theorem State.setRawByte_gens (s : State) (pa : Nat) (b : Byte) : (s.setRawByte pa b).gens = s.gens := by
  unfold State.setRawByte; split <;> rfl
@[simp] theorem State.setRawByte_zeroing (s : State) (pa : Nat) (b : Byte) : (s.setRawByte pa b).zeroing = s.zeroing := by
  unfold State.setRawByte; split <;> rfl
@[simp] theorem State.setRawByte_demand (s : State) (pa : Nat) (b : Byte) : (s.setRawByte pa b).demand = s.demand := by
  unfold State.setRawByte; split <;> rfl
@[simp] theorem State.setRawByte_quiet (s : State) (pa : Nat) (b : Byte) : (s.setRawByte pa b).quiet = s.quiet := by
  unfold State.setRawByte; split <;> rfl
@[simp] theorem State.setRawByte_users (s : State) (pa : Nat) (b : Byte) : (s.setRawByte pa b).users = s.users := by
  unfold State.setRawByte; split <;> rfl
@[simp] theorem State.setRawByte_tests (s : State) (pa : Nat) (b : Byte) : (s.setRawByte pa b).tests = s.tests := by
  unfold State.setRawByte; split <;> rfl
@[simp] theorem State.setRawByte_dlv (s : State) (pa : Nat) (b : Byte) : (s.setRawByte pa b).dlv = s.dlv := by
  unfold State.setRawByte; split <;> rfl
@[simp] theorem State.setRawByte_pkg (s : State) (pa : Nat) (b : Byte) : (s.setRawByte pa b).pkg = s.pkg := by
  unfold State.setRawByte; split <;> rfl
@[simp] theorem State.setRawByte_cycle (s : State) (pa : Nat) (b : Byte) : (s.setRawByte pa b).cycle = s.cycle := by
  unfold State.setRawByte; split <;> rfl
@[simp] theorem State.setRawByte_remote (s : State) (pa : Nat) (b : Byte) : (s.setRawByte pa b).remote = s.remote := by
  unfold State.setRawByte; split <;> rfl
@[simp] theorem State.setRawByte_dawn (s : State) (pa : Nat) (b : Byte) : (s.setRawByte pa b).dawn = s.dawn := by
  unfold State.setRawByte; split <;> rfl
@[simp] theorem State.setRawByte_phase (s : State) (pa : Nat) (b : Byte) : (s.setRawByte pa b).phase = s.phase := by
  unfold State.setRawByte; split <;> rfl
@[simp] theorem State.setRawByte_todo (s : State) (pa : Nat) (b : Byte) : (s.setRawByte pa b).todo = s.todo := by
  unfold State.setRawByte; split <;> rfl
@[simp] theorem State.setRawByte_cur (s : State) (pa : Nat) (b : Byte) : (s.setRawByte pa b).cur = s.cur := by
  unfold State.setRawByte; split <;> rfl
@[simp] theorem State.setRawByte_micro (s : State) (pa : Nat) (b : Byte) : (s.setRawByte pa b).micro = s.micro := by
  unfold State.setRawByte; split <;> rfl
@[simp] theorem State.setRawByte_inputs (s : State) (pa : Nat) (b : Byte) : (s.setRawByte pa b).inputs = s.inputs := by
  unfold State.setRawByte; split <;> rfl
@[simp] theorem State.setRawByte_agenda (s : State) (pa : Nat) (b : Byte) : (s.setRawByte pa b).agenda = s.agenda := by
  unfold State.setRawByte; split <;> rfl
@[simp] theorem State.setRawByte_serial (s : State) (pa : Nat) (b : Byte) : (s.setRawByte pa b).serial = s.serial := by
  unfold State.setRawByte; split <;> rfl
@[simp] theorem State.setRawByte_fresh (s : State) (pa : Nat) (b : Byte) : (s.setRawByte pa b).fresh = s.fresh := by
  unfold State.setRawByte; split <;> rfl

/-! Counters. -/

@[simp] theorem State.newSerial_ctxs (s : State) : s.newSerial.2.ctxs = s.ctxs := rfl
@[simp] theorem State.newSerial_cores (s : State) : s.newSerial.2.cores = s.cores := rfl
@[simp] theorem State.newSerial_calls (s : State) : s.newSerial.2.calls = s.calls := rfl
@[simp] theorem State.newSerial_cols (s : State) : s.newSerial.2.cols = s.cols := rfl
@[simp] theorem State.newSerial_quads (s : State) : s.newSerial.2.quads = s.quads := rfl
@[simp] theorem State.newSerial_stackTab (s : State) : s.newSerial.2.stackTab = s.stackTab := rfl
@[simp] theorem State.newSerial_parts (s : State) : s.newSerial.2.parts = s.parts := rfl
@[simp] theorem State.newSerial_owners (s : State) : s.newSerial.2.owners = s.owners := rfl
@[simp] theorem State.newSerial_quires (s : State) : s.newSerial.2.quires = s.quires := rfl
@[simp] theorem State.newSerial_tiles (s : State) : s.newSerial.2.tiles = s.tiles := rfl
@[simp] theorem State.newSerial_cmds (s : State) : s.newSerial.2.cmds = s.cmds := rfl
@[simp] theorem State.newSerial_hints (s : State) : s.newSerial.2.hints = s.hints := rfl
@[simp] theorem State.newSerial_eps (s : State) : s.newSerial.2.eps = s.eps := rfl
@[simp] theorem State.newSerial_l2 (s : State) : s.newSerial.2.l2 = s.l2 := rfl
@[simp] theorem State.newSerial_occ (s : State) : s.newSerial.2.occ = s.occ := rfl
@[simp] theorem State.newSerial_spare (s : State) : s.newSerial.2.spare = s.spare := rfl
@[simp] theorem State.newSerial_ports (s : State) : s.newSerial.2.ports = s.ports := rfl
@[simp] theorem State.newSerial_gens (s : State) : s.newSerial.2.gens = s.gens := rfl
@[simp] theorem State.newSerial_zeroing (s : State) : s.newSerial.2.zeroing = s.zeroing := rfl
@[simp] theorem State.newSerial_demand (s : State) : s.newSerial.2.demand = s.demand := rfl
@[simp] theorem State.newSerial_quiet (s : State) : s.newSerial.2.quiet = s.quiet := rfl
@[simp] theorem State.newSerial_users (s : State) : s.newSerial.2.users = s.users := rfl
@[simp] theorem State.newSerial_tests (s : State) : s.newSerial.2.tests = s.tests := rfl
@[simp] theorem State.newSerial_dlv (s : State) : s.newSerial.2.dlv = s.dlv := rfl
@[simp] theorem State.newSerial_pkg (s : State) : s.newSerial.2.pkg = s.pkg := rfl
@[simp] theorem State.newSerial_cycle (s : State) : s.newSerial.2.cycle = s.cycle := rfl
@[simp] theorem State.newSerial_mem (s : State) : s.newSerial.2.mem = s.mem := rfl
@[simp] theorem State.newSerial_remote (s : State) : s.newSerial.2.remote = s.remote := rfl
@[simp] theorem State.newSerial_dawn (s : State) : s.newSerial.2.dawn = s.dawn := rfl
@[simp] theorem State.newSerial_phase (s : State) : s.newSerial.2.phase = s.phase := rfl
@[simp] theorem State.newSerial_todo (s : State) : s.newSerial.2.todo = s.todo := rfl
@[simp] theorem State.newSerial_cur (s : State) : s.newSerial.2.cur = s.cur := rfl
@[simp] theorem State.newSerial_micro (s : State) : s.newSerial.2.micro = s.micro := rfl
@[simp] theorem State.newSerial_inputs (s : State) : s.newSerial.2.inputs = s.inputs := rfl
@[simp] theorem State.newSerial_agenda (s : State) : s.newSerial.2.agenda = s.agenda := rfl
@[simp] theorem State.newSerial_serial (s : State) : s.newSerial.2.serial = s.serial + 1 := rfl
@[simp] theorem State.newSerial_fresh (s : State) : s.newSerial.2.fresh = s.fresh := rfl
@[simp] theorem State.ctx_newSerial (s : State) (m : Nat) : s.newSerial.2.ctx m = s.ctx m := rfl
@[simp] theorem State.core_newSerial (s : State) (m : Nat) : s.newSerial.2.core m = s.core m := rfl
@[simp] theorem State.col_newSerial (s : State) (m : Nat) : s.newSerial.2.col m = s.col m := rfl
@[simp] theorem State.quad_newSerial (s : State) (m : Nat) : s.newSerial.2.quad m = s.quad m := rfl
@[simp] theorem State.stack_newSerial (s : State) (m : Nat) : s.newSerial.2.stack m = s.stack m := rfl
@[simp] theorem State.part_newSerial (s : State) (m : Nat) : s.newSerial.2.part m = s.part m := rfl
@[simp] theorem State.owner_newSerial (s : State) (m : Nat) : s.newSerial.2.owner m = s.owner m := rfl
@[simp] theorem State.newFree_ctxs (s : State) : s.newFree.2.ctxs = s.ctxs := rfl
@[simp] theorem State.newFree_cores (s : State) : s.newFree.2.cores = s.cores := rfl
@[simp] theorem State.newFree_calls (s : State) : s.newFree.2.calls = s.calls := rfl
@[simp] theorem State.newFree_cols (s : State) : s.newFree.2.cols = s.cols := rfl
@[simp] theorem State.newFree_quads (s : State) : s.newFree.2.quads = s.quads := rfl
@[simp] theorem State.newFree_stackTab (s : State) : s.newFree.2.stackTab = s.stackTab := rfl
@[simp] theorem State.newFree_parts (s : State) : s.newFree.2.parts = s.parts := rfl
@[simp] theorem State.newFree_owners (s : State) : s.newFree.2.owners = s.owners := rfl
@[simp] theorem State.newFree_quires (s : State) : s.newFree.2.quires = s.quires := rfl
@[simp] theorem State.newFree_tiles (s : State) : s.newFree.2.tiles = s.tiles := rfl
@[simp] theorem State.newFree_cmds (s : State) : s.newFree.2.cmds = s.cmds := rfl
@[simp] theorem State.newFree_hints (s : State) : s.newFree.2.hints = s.hints := rfl
@[simp] theorem State.newFree_eps (s : State) : s.newFree.2.eps = s.eps := rfl
@[simp] theorem State.newFree_l2 (s : State) : s.newFree.2.l2 = s.l2 := rfl
@[simp] theorem State.newFree_occ (s : State) : s.newFree.2.occ = s.occ := rfl
@[simp] theorem State.newFree_spare (s : State) : s.newFree.2.spare = s.spare := rfl
@[simp] theorem State.newFree_ports (s : State) : s.newFree.2.ports = s.ports := rfl
@[simp] theorem State.newFree_gens (s : State) : s.newFree.2.gens = s.gens := rfl
@[simp] theorem State.newFree_zeroing (s : State) : s.newFree.2.zeroing = s.zeroing := rfl
@[simp] theorem State.newFree_demand (s : State) : s.newFree.2.demand = s.demand := rfl
@[simp] theorem State.newFree_quiet (s : State) : s.newFree.2.quiet = s.quiet := rfl
@[simp] theorem State.newFree_users (s : State) : s.newFree.2.users = s.users := rfl
@[simp] theorem State.newFree_tests (s : State) : s.newFree.2.tests = s.tests := rfl
@[simp] theorem State.newFree_dlv (s : State) : s.newFree.2.dlv = s.dlv := rfl
@[simp] theorem State.newFree_pkg (s : State) : s.newFree.2.pkg = s.pkg := rfl
@[simp] theorem State.newFree_cycle (s : State) : s.newFree.2.cycle = s.cycle := rfl
@[simp] theorem State.newFree_mem (s : State) : s.newFree.2.mem = s.mem := rfl
@[simp] theorem State.newFree_remote (s : State) : s.newFree.2.remote = s.remote := rfl
@[simp] theorem State.newFree_dawn (s : State) : s.newFree.2.dawn = s.dawn := rfl
@[simp] theorem State.newFree_phase (s : State) : s.newFree.2.phase = s.phase := rfl
@[simp] theorem State.newFree_todo (s : State) : s.newFree.2.todo = s.todo := rfl
@[simp] theorem State.newFree_cur (s : State) : s.newFree.2.cur = s.cur := rfl
@[simp] theorem State.newFree_micro (s : State) : s.newFree.2.micro = s.micro := rfl
@[simp] theorem State.newFree_inputs (s : State) : s.newFree.2.inputs = s.inputs := rfl
@[simp] theorem State.newFree_agenda (s : State) : s.newFree.2.agenda = s.agenda := rfl
@[simp] theorem State.newFree_serial (s : State) : s.newFree.2.serial = s.serial := rfl
@[simp] theorem State.newFree_fresh (s : State) : s.newFree.2.fresh = s.fresh + 1 := rfl
@[simp] theorem State.ctx_newFree (s : State) (m : Nat) : s.newFree.2.ctx m = s.ctx m := rfl
@[simp] theorem State.core_newFree (s : State) (m : Nat) : s.newFree.2.core m = s.core m := rfl
@[simp] theorem State.col_newFree (s : State) (m : Nat) : s.newFree.2.col m = s.col m := rfl
@[simp] theorem State.quad_newFree (s : State) (m : Nat) : s.newFree.2.quad m = s.quad m := rfl
@[simp] theorem State.stack_newFree (s : State) (m : Nat) : s.newFree.2.stack m = s.stack m := rfl
@[simp] theorem State.part_newFree (s : State) (m : Nat) : s.newFree.2.part m = s.part m := rfl
@[simp] theorem State.owner_newFree (s : State) (m : Nat) : s.newFree.2.owner m = s.owner m := rfl
@[simp] theorem State.newWait_ctxs (s : State) : s.newWait.2.ctxs = s.ctxs := rfl
@[simp] theorem State.newWait_cores (s : State) : s.newWait.2.cores = s.cores := rfl
@[simp] theorem State.newWait_calls (s : State) : s.newWait.2.calls = s.calls := rfl
@[simp] theorem State.newWait_cols (s : State) : s.newWait.2.cols = s.cols := rfl
@[simp] theorem State.newWait_quads (s : State) : s.newWait.2.quads = s.quads := rfl
@[simp] theorem State.newWait_stackTab (s : State) : s.newWait.2.stackTab = s.stackTab := rfl
@[simp] theorem State.newWait_parts (s : State) : s.newWait.2.parts = s.parts := rfl
@[simp] theorem State.newWait_owners (s : State) : s.newWait.2.owners = s.owners := rfl
@[simp] theorem State.newWait_quires (s : State) : s.newWait.2.quires = s.quires := rfl
@[simp] theorem State.newWait_tiles (s : State) : s.newWait.2.tiles = s.tiles := rfl
@[simp] theorem State.newWait_cmds (s : State) : s.newWait.2.cmds = s.cmds := rfl
@[simp] theorem State.newWait_hints (s : State) : s.newWait.2.hints = s.hints := rfl
@[simp] theorem State.newWait_eps (s : State) : s.newWait.2.eps = s.eps := rfl
@[simp] theorem State.newWait_l2 (s : State) : s.newWait.2.l2 = s.l2 := rfl
@[simp] theorem State.newWait_occ (s : State) : s.newWait.2.occ = s.occ := rfl
@[simp] theorem State.newWait_spare (s : State) : s.newWait.2.spare = s.spare := rfl
@[simp] theorem State.newWait_ports (s : State) : s.newWait.2.ports = s.ports := rfl
@[simp] theorem State.newWait_gens (s : State) : s.newWait.2.gens = s.gens := rfl
@[simp] theorem State.newWait_zeroing (s : State) : s.newWait.2.zeroing = s.zeroing := rfl
@[simp] theorem State.newWait_demand (s : State) : s.newWait.2.demand = s.demand := rfl
@[simp] theorem State.newWait_quiet (s : State) : s.newWait.2.quiet = s.quiet := rfl
@[simp] theorem State.newWait_users (s : State) : s.newWait.2.users = s.users := rfl
@[simp] theorem State.newWait_tests (s : State) : s.newWait.2.tests = s.tests := rfl
@[simp] theorem State.newWait_dlv (s : State) : s.newWait.2.dlv = s.dlv := rfl
@[simp] theorem State.newWait_pkg (s : State) : s.newWait.2.pkg = s.pkg := rfl
@[simp] theorem State.newWait_cycle (s : State) : s.newWait.2.cycle = s.cycle := rfl
@[simp] theorem State.newWait_mem (s : State) : s.newWait.2.mem = s.mem := rfl
@[simp] theorem State.newWait_remote (s : State) : s.newWait.2.remote = s.remote := rfl
@[simp] theorem State.newWait_dawn (s : State) : s.newWait.2.dawn = s.dawn := rfl
@[simp] theorem State.newWait_phase (s : State) : s.newWait.2.phase = s.phase := rfl
@[simp] theorem State.newWait_todo (s : State) : s.newWait.2.todo = s.todo := rfl
@[simp] theorem State.newWait_cur (s : State) : s.newWait.2.cur = s.cur := rfl
@[simp] theorem State.newWait_micro (s : State) : s.newWait.2.micro = s.micro := rfl
@[simp] theorem State.newWait_inputs (s : State) : s.newWait.2.inputs = s.inputs := rfl
@[simp] theorem State.newWait_agenda (s : State) : s.newWait.2.agenda = s.agenda := rfl
@[simp] theorem State.newWait_serial (s : State) : s.newWait.2.serial = s.serial := rfl
@[simp] theorem State.newWait_fresh (s : State) : s.newWait.2.fresh = s.fresh + 1 := rfl
@[simp] theorem State.ctx_newWait (s : State) (m : Nat) : s.newWait.2.ctx m = s.ctx m := rfl
@[simp] theorem State.core_newWait (s : State) (m : Nat) : s.newWait.2.core m = s.core m := rfl
@[simp] theorem State.col_newWait (s : State) (m : Nat) : s.newWait.2.col m = s.col m := rfl
@[simp] theorem State.quad_newWait (s : State) (m : Nat) : s.newWait.2.quad m = s.quad m := rfl
@[simp] theorem State.stack_newWait (s : State) (m : Nat) : s.newWait.2.stack m = s.stack m := rfl
@[simp] theorem State.part_newWait (s : State) (m : Nat) : s.newWait.2.part m = s.part m := rfl
@[simp] theorem State.owner_newWait (s : State) (m : Nat) : s.newWait.2.owner m = s.owner m := rfl

end Sys2Proof.Machine
end

