-- ==== Sys2Proof/Laws/Fault.lean ====
section
/-! SUPPORT. What taking a fault, delivering it, ending and returning do to a context (R335, R336, R338, R340, R341). -/

namespace Sys2Proof.Machine

open Sys2Proof Sys2Proof.Safety

/-- A context that is delivered no fault yet freezes with the record, its latches, loops and ratio in the snapshot buffer. -/
theorem Ctx.freezeAt_first {x : Ctx} (r : Rec) (now mark : Nat) (b : Bool) (found : Nat × Nat) (h : x.frz.fault = none) :
    x.freezeAt r now mark b found = { x with
      st := .frozen, snap := some (x.snapNow mark), holds := [], loops := [], depth := 0, ratio := 0, replay := [], block := .none,
      frz := { x.frz with fault := some (r, now, b), found := if b then x.frz.found else some found } } := by
  simp [Ctx.freezeAt, h]

/-- A context that is already delivered a fault keeps it, unless the new one is of the same cycle and of an operation that issued
earlier (R334). -/
theorem Ctx.freezeAt_again {x : Ctx} (r : Rec) (now mark : Nat) (b : Bool) (found : Nat × Nat) (h : x.frz.fault ≠ none)
    (hy : x.frz.yields b found = false) : x.freezeAt r now mark b found = x := by
  unfold Ctx.freezeAt
  split
  · rw [hy]; rfl
  · next e => exact absurd e h

/-- Freezing touches no register. -/
theorem Ctx.freezeAt_reg (x : Ctx) (r : Rec) (now mark : Nat) (b : Bool) (found : Nat × Nat) (cls : Cls) (n : Nat) :
    (x.freezeAt r now mark b found).reg cls n = x.reg cls n := by
  unfold Ctx.freezeAt
  split
  · split <;> cases cls <;> rfl
  · cases cls <;> rfl

/-- Taking a fault changes its context and, when the bundle being issued is that context's, the bundle; nothing else. -/
theorem State.takeFault_only (s : State) (c : Nat) (f : FaultInfo) (b : Bool) : OnlyCtx s (s.takeFault c f b) c := by
  unfold State.takeFault
  dsimp only
  split
  · exact ⟨rfl, fun _ _ => rfl⟩
  · split
    · split
      · exact ⟨rfl, fun d h => State.ctx_setCtx_ne _ _ h⟩
      · exact ⟨rfl, fun d h => State.ctx_setCtx_ne _ _ h⟩
    · exact ⟨rfl, fun d h => State.ctx_setCtx_ne _ _ h⟩

/-- The pieces of a context that leaving a SHSEAL in the buffer does not touch. -/
theorem Ctx.dropSeal_kept (x : Ctx) (r : Rec) : (x.dropSeal r).pc = x.pc ∧ ∀ cls n, (x.dropSeal r).reg cls n = x.reg cls n := by
  unfold Ctx.dropSeal
  split
  · split
    · split <;> exact ⟨rfl, fun cls n => by cases cls <;> rfl⟩
    · exact ⟨rfl, fun _ _ => rfl⟩
  · exact ⟨rfl, fun _ _ => rfl⟩

/-- Delivery to the handler: where control goes, at what level, and what it saves. -/
theorem Ctx.enterTrap_spec (x : Ctx) (r : Rec) (v : Word) :
    (x.enterTrap r v).pc = v.toNat % 2 ^ 56 ∧ (x.enterTrap r v).level = .S ∧ (x.enterTrap r v).plevel = .U ∧
      (x.enterTrap r v).intrap = true ∧ (x.enterTrap r v).st = .ready ∧ (x.enterTrap r v).frz.fault = none ∧
      (x.enterTrap r v).tretpc = BitVec.ofNat 64 x.pc ∧ ∀ cls n, (x.enterTrap r v).reg cls n = x.reg cls n := by
  obtain ⟨hp, hr⟩ := x.dropSeal_kept r
  unfold Ctx.enterTrap
  dsimp only
  split
  · exact ⟨rfl, rfl, rfl, rfl, rfl, rfl, congrArg _ hp, fun cls n => by rw [← hr]; cases cls <;> rfl⟩
  · exact ⟨rfl, rfl, rfl, rfl, rfl, rfl, congrArg _ hp, fun cls n => by rw [← hr]; cases cls <;> rfl⟩

/-- The end begins: the context is frozen, and no register changes. -/
theorem Ctx.beginDeath_spec (x : Ctx) (r : Rec) : (x.beginDeath r).dying.isSome = true ∧ (x.beginDeath r).st = .frozen ∧
    ∀ cls n, (x.beginDeath r).reg cls n = x.reg cls n := ⟨rfl, rfl, fun cls n => by cases cls <;> rfl⟩

/-- The return: level and program counter come back, and no register changes. -/
theorem Ctx.trapReturn_spec (x : Ctx) : x.trapReturn.level = x.plevel ∧ x.trapReturn.pc = x.tretpc.toNat % 2 ^ 56 ∧
    x.trapReturn.intrap = false ∧ ∀ cls n, x.trapReturn.reg cls n = x.reg cls n := by
  unfold Ctx.trapReturn
  dsimp only
  split
  · exact ⟨rfl, rfl, rfl, fun cls n => by cases cls <;> rfl⟩
  · exact ⟨rfl, rfl, rfl, fun cls n => by cases cls <;> rfl⟩

end Sys2Proof.Machine
end

