-- ==== Sys2Proof/Laws/Issue.lean ====
section
/-! SUPPORT. What the shared operations of issue do: an operation of a bundle, in each of the ways it can go, and the results
and transfers it leaves. -/

namespace Sys2Proof.Machine

open Sys2Proof Sys2Proof.Safety

/-- An operation that performs answers its effect on the opened state. -/
theorem State.runOp_performs {s : State} {k : Cur} {i : Instr} {f : Form} (h : Performs s k i f)
    (eff sup : State → Run → State) : s.runOp i eff sup = .next (eff (opened s k f) (opOf k i f)) := by
  obtain ⟨⟨hc, hk, hf⟩, hs⟩ := h
  unfold State.runOp
  rw [hc, hf]
  show (if k.checked = true then _ else _) = _
  rw [if_pos hk]
  show Host.Outcome.next (if (opOf k i f).sup = true then _ else _) = _
  rw [hs]
  rfl

/-- A suppressed operation answers what a suppressed one does, the operation taken off its bundle. -/
theorem State.runOp_suppressed {s : State} {k : Cur} {i : Instr} {f : Form} (h : Suppressed s k i f)
    (eff sup : State → Run → State) : s.runOp i eff sup = .next (sup { s with cur := some (acted k) } (opOf k i f)) := by
  obtain ⟨⟨hc, hk, hf⟩, hs⟩ := h
  unfold State.runOp
  rw [hc, hf]
  show (if k.checked = true then _ else _) = _
  rw [if_pos hk]
  show Host.Outcome.next (if (opOf k i f).sup = true then _ else _) = _
  rw [hs]
  rfl

/-- The first operation of a bundle that meets a fault takes it, and nothing of the bundle acts. -/
theorem State.runOp_fault {s : State} {k : Cur} {i : Instr} {f : Form} {e : FaultInfo} (hc : s.cur = some k)
    (hk : k.checked = false) (hf : formOf i = some f) (he : s.bundleFault k (runsOf k.ctx k k.before k.todo) = some e)
    (eff sup : State → Run → State) :
    s.runOp i eff sup = .next ({ s with cur := none }.faultBundle k.ctx e (runsOf k.ctx k k.before k.todo)) := by
  unfold State.runOp
  rw [hc, hf]
  show (if k.checked = true then _ else _) = _
  rw [hk]
  show (match s.bundleFault k (runsOf k.ctx k k.before k.todo) with | some e => _ | none => _) = _
  rw [he]

/-- The first operation of a bundle that meets no fault acts as one already looked at. -/
theorem State.runOp_first {s : State} {k : Cur} {i : Instr} {f : Form} (hc : s.cur = some k)
    (hk : k.checked = false) (hf : formOf i = some f) (he : s.bundleFault k (runsOf k.ctx k k.before k.todo) = none)
    (eff sup : State → Run → State) :
    s.runOp i eff sup = { s with cur := some { k with checked := true } }.runOp i eff sup := by
  unfold State.runOp
  rw [hc, hf]
  show (if k.checked = true then _ else _) = _
  rw [hk]
  show (match s.bundleFault k (runsOf k.ctx k k.before k.todo) with | some e => _ | none => _) = _
  rw [he]
  rfl

/-- Outside a bundle an operation does nothing. -/
theorem State.runOp_outside {s : State} {i : Instr} (hc : s.cur = none) (eff sup : State → Run → State) :
    s.runOp i eff sup = .next s := by
  simp only [State.runOp, hc]

/-- An operation always answers a next state. -/
theorem State.runOp_next (s : State) (i : Instr) (eff sup : State → Run → State) : ∃ t, s.runOp i eff sup = .next t := by
  unfold State.runOp
  split
  · split
    · exact ⟨_, rfl⟩
    · dsimp only
      split
      · exact ⟨_, rfl⟩
      · exact ⟨_, rfl⟩
  · exact ⟨_, rfl⟩

/-! The opened state. -/

@[simp] theorem opened_ctx_self (s : State) (k : Cur) (f : Form) : (opened s k f).ctx k.ctx = latched s k f :=
  State.ctx_setCtx_self _ _ _

theorem opened_ctx_ne (s : State) (k : Cur) (f : Form) {d : Nat} (h : d ≠ k.ctx) : (opened s k f).ctx d = s.ctx d :=
  State.ctx_setCtx_ne _ _ h

@[simp] theorem opened_now (s : State) (k : Cur) (f : Form) (c : Nat) : (opened s k f).now c = s.now c := rfl

/-- What a change of the bundle's context alone leaves. -/
theorem opened_setCtx_only (s : State) (k : Cur) (f : Form) (x : Ctx) : OnlyCtx s ((opened s k f).setCtx k.ctx x) k.ctx :=
  ⟨rfl, fun d h => by rw [State.ctx_setCtx_ne _ _ h, opened_ctx_ne s k f h]⟩

theorem opened_only (s : State) (k : Cur) (f : Form) : OnlyCtx s (opened s k f) k.ctx :=
  ⟨rfl, fun _ h => opened_ctx_ne s k f h⟩

/-- A result in flight: the state `State.land` leaves. -/
theorem State.land_eq (s : State) (c : Nat) (sl : Slot) (cls : Cls) (n lat : Nat) (v : Option Nat) (src : Nat) :
    s.land c sl cls n lat v src = if cls = .s ∧ n = 0 ∧ src = 0 then s else
      s.setCtx c { s.ctx c with inflight := (s.ctx c).inflight ++ [⟨cls, n, s.now c + lat, v, src, sl⟩] } := by
  unfold State.land
  simp only [Bool.and_eq_true, decide_eq_true_eq, and_assoc]
  rfl

/-- An operation whose effect is its result. -/
theorem resultLands_of {s : State} {k : Cur} {i : Instr} {f : Form} {cls : Cls} {v : Nat}
    (h : exec i s = .next ((opened s k f).result k.ctx f cls v)) : ResultLands s k i f cls v := by
  refine ⟨_, h, ?_⟩
  unfold State.result newLanding
  rw [State.land_eq]
  by_cases hz : cls = .s ∧ f.dst = 0
  · rw [if_pos ⟨hz.1, hz.2, rfl⟩, if_pos hz, List.append_nil]
    exact ⟨opened_only s k f, rfl, opened_ctx_self s k f⟩
  · have hz' : ¬ (cls = .s ∧ f.dst = 0 ∧ 0 = 0) := fun e => hz ⟨e.1, e.2.1⟩
    rw [if_neg hz', if_neg hz, opened_ctx_self]
    exact ⟨opened_setCtx_only s k f _, rfl, State.ctx_setCtx_self _ _ _⟩

end Sys2Proof.Machine
end

