-- ==== Sys2Proof/Laws/Memory.lean ====
section
/-! SUPPORT. What an access to memory can change: bytes of memory, lines and recencies of the slices, occupancies, demand of the
window, poison. Every such access keeps the canonical form of memory. -/

namespace Sys2Proof.Machine

open Sys2Proof

/-- An access through the slices: what it leaves alone, and that memory keeps its form. -/
structure MemStep (s t : State) : Prop where
  rest : t = { s with mem := t.mem, l2 := t.l2, occ := t.occ, demand := t.demand, pkg := { s.pkg with poison := t.pkg.poison } }
  form : Memory.wf s.mem = true → Memory.wf t.mem = true

theorem MemStep.refl (s : State) : MemStep s s := ⟨rfl, id⟩

theorem MemStep.trans {s t u : State} (h : MemStep s t) (g : MemStep t u) : MemStep s u := by
  refine ⟨?_, fun w => g.form (h.form w)⟩
  have e := g.rest
  rw [h.rest] at e
  exact e

theorem MemStep.ofMem {s : State} {m : List Host.Cell} (h : Memory.wf s.mem = true → Memory.wf m = true) :
    MemStep s { s with mem := m } := ⟨rfl, h⟩
theorem MemStep.ofL2 (s : State) (l : Tbl L2Set) : MemStep s { s with l2 := l } := ⟨rfl, id⟩
theorem MemStep.ofOcc (s : State) (l : Tbl Nat) : MemStep s { s with occ := l } := ⟨rfl, id⟩
theorem MemStep.ofDemand (s : State) (l : Tbl Nat) : MemStep s { s with demand := l } := ⟨rfl, id⟩
theorem MemStep.ofPoison (s : State) (l : List Nat) : MemStep s { s with pkg := { s.pkg with poison := l } } := ⟨rfl, id⟩

/-- A fold of accesses is an access. -/
theorem MemStep.foldl {α : Type} {f : State → α → State} (h : ∀ s a, MemStep s (f s a)) (l : List α) (s : State) :
    MemStep s (l.foldl f s) := by
  induction l generalizing s with
  | nil => exact .refl s
  | cons a l ih => exact (h s a).trans (ih _)

theorem setRawByte_step (s : State) (pa : Nat) (b : Byte) : MemStep s (s.setRawByte pa b) := by
  unfold State.setRawByte
  split
  · exact .ofMem fun h => twf_tset _ _ _ h
  · exact .refl s

theorem setRawBytes_step (l : List Byte) : ∀ (s : State) (pa : Nat), MemStep s (s.setRawBytes pa l) := by
  induction l with
  | nil => exact fun s _ => .refl s
  | cons b l ih => exact fun s pa => (setRawByte_step s pa b).trans (ih _ _)

theorem setElideBit_step (s : State) (pa : Nat) (b : Bool) : MemStep s (s.setElideBit pa b) := setRawByte_step _ _ _

theorem portWrite_step (s : State) (line : Nat) (e : Bool) (d : List Byte) : MemStep s (s.portWrite line e d) := by
  unfold State.portWrite
  split
  · split
    · exact setElideBit_step _ _ _
    · exact (setRawBytes_step _ _ _).trans (setElideBit_step _ _ _)
  · exact setRawBytes_step _ _ _

theorem burst_step (s : State) (line : Nat) : MemStep s (s.burst line) := by
  unfold State.burst
  split
  · split
    · exact .refl s
    · exact .ofDemand s _
  · exact .refl s

theorem burstRead_step (s : State) (line : Nat) (e : Bool) : MemStep s (s.burstRead line e) := by
  unfold State.burstRead
  split
  · exact .refl s
  · exact burst_step _ _

theorem burstWrite_step (s : State) (line : Nat) (e : Bool) (d : List Byte) : MemStep s (s.burstWrite line e d) := by
  unfold State.burstWrite
  split
  · exact .refl s
  · exact burst_step _ _

theorem setL2_step (s : State) (k : Nat) (x : L2Set) : MemStep s (s.setL2 k x) := .ofL2 s _

theorem addOcc_step (s : State) (sl o : Nat) (b : Bool) : MemStep s (s.addOcc sl o b) := .ofOcc s _

theorem writeBack_step (s : State) (p : Nat) (w : Option Way) : MemStep s (s.writeBack p w) := by
  unfold State.writeBack
  split
  · split
    · exact (portWrite_step _ _ _ _).trans (burstWrite_step _ _ _ _)
    · exact .refl s
  · exact .refl s

theorem unpoison_step (s : State) (line : Nat) (d : List Byte) : MemStep s (s.unpoison line d) := by
  unfold State.unpoison
  split
  · split
    · exact .ofPoison s _
    · exact .refl s
  · exact .refl s

theorem memWrite_step (s : State) (p : Port) (line off : Nat) (d : List Byte) : MemStep s (s.memWrite p line off d) :=
  ((portWrite_step _ _ _ _).trans (burstWrite_step _ _ _ _)).trans (unpoison_step _ _ _)

theorem fill_step (s : State) (p : Port) (sl line : Nat) : MemStep s (s.fill p sl line).1 := by
  unfold State.fill
  dsimp only
  split
  · exact .refl s
  · refine .trans (.trans (.trans ?_ (burstRead_step _ _ _)) (addOcc_step _ _ _ _)) (setL2_step _ _ _)
    split
    · split
      · exact (writeBack_step _ _ _).trans (addOcc_step _ _ _ _)
      · exact writeBack_step _ _ _
    · exact writeBack_step _ _ _

/-- A read of a line. -/
theorem l2Read_step (s : State) (p : Port) (line : Nat) : MemStep s (s.l2Read p line).1 := by
  unfold State.l2Read
  split
  · exact burstRead_step _ _ _
  · dsimp only
    split
    · split
      · exact setL2_step _ _ _
      · exact .refl s
    · split
      · exact burstRead_step _ _ _
      · have h := fill_step s p ‹Nat› line
        split
        · next e => rw [e] at h; exact h
        · next e => rw [e] at h; exact h.trans (burstRead_step _ _ _)

/-- A write within a line. -/
theorem l2Write_step (s : State) (p : Port) (line off : Nat) (d : List Byte) : MemStep s (s.l2Write p line off d) := by
  unfold State.l2Write
  split
  · exact memWrite_step _ _ _ _ _
  · dsimp only
    split
    · split
      · exact (setL2_step _ _ _).trans (unpoison_step _ _ _)
      · exact .refl s
    · split
      · exact memWrite_step _ _ _ _ _
      · have h := fill_step s p ‹Nat› line
        split
        · next e =>
          rw [e] at h
          refine h.trans ?_
          split
          · exact (setL2_step _ _ _).trans (unpoison_step _ _ _)
          · exact .refl _
        · next e => rw [e] at h; exact h.trans (memWrite_step _ _ _ _ _)

/-- A read of bytes through the slices. -/
theorem readPa_step (s : State) (p : Port) (pa n : Nat) : MemStep s (s.readPa p pa n).1 := by
  unfold State.readPa
  dsimp only
  have h : ∀ (l : List Nat) (acc : State × List Byte) (f : State × List Byte → Nat → List Byte),
      MemStep s acc.1 → MemStep s (l.foldl (fun a i => ((a.1.l2Read p (pa / 128 + i)).1, f a i)) acc).1 := by
    intro l
    induction l with
    | nil => exact fun _ _ h => h
    | cons i l ih => exact fun acc f h => ih _ f (h.trans (l2Read_step _ _ _))
  exact h _ (s, []) _ (.refl s)

/-- A write of bytes through the slices. -/
theorem writePa_step (s : State) (p : Port) (pa : Nat) (d : List Byte) : MemStep s (s.writePa p pa d) :=
  .foldl (fun _ _ => l2Write_step _ _ _ _ _) _ _

/-- A byte written reads back. -/
theorem rawByte_setRawByte (s : State) {pa : Nat} (b : Byte) (h : (s.memKey pa).isSome = true) : (s.setRawByte pa b).rawByte pa = b := by
  obtain ⟨k, hk⟩ := Option.isSome_iff_exists.mp h
  unfold State.setRawByte State.rawByte
  rw [hk]
  show (match State.memKey { s with mem := _ } pa with | some k => _ | none => _) = b
  have : State.memKey { s with mem := tset (0 : Byte) s.mem k b } pa = s.memKey pa := rfl
  rw [this, hk]
  exact tget_tset_self _ _ _ _

/-! Other packages' memory. -/

theorem remoteWfFrom_terase (t : List Host.Cell) (n : Nat) :
    ∀ {lo : Nat}, Memory.remoteWfFrom lo t = true → Memory.remoteWfFrom lo (terase t n) = true := by
  have mono : ∀ (t : List Host.Cell) {lo lo' : Nat}, Memory.remoteWfFrom lo t = true → lo' ≤ lo → Memory.remoteWfFrom lo' t = true := by
    intro t lo lo' h l
    cases t with
    | nil => rfl
    | cons e t =>
      obtain ⟨k, v⟩ := e
      simp only [Memory.remoteWfFrom, Bool.and_eq_true, decide_eq_true_eq] at h ⊢
      exact ⟨⟨Nat.le_trans l h.1.1, h.1.2⟩, h.2⟩
  induction t with
  | nil => intro lo h; exact h
  | cons e t ih =>
    obtain ⟨k, v⟩ := e
    intro lo h
    simp only [Memory.remoteWfFrom, Bool.and_eq_true, decide_eq_true_eq] at h
    by_cases hk : k = n
    · simp only [terase, hk, if_true]
      exact ih (mono t h.2 (by omega))
    · simp only [terase, hk, if_false, Memory.remoteWfFrom, Bool.and_eq_true, decide_eq_true_eq]
      exact ⟨h.1, ih h.2⟩

theorem remoteWfFrom_tinsert (t : List Host.Cell) (n : Nat) {x : Byte} (hx : x ≠ Config.remoteByte n) :
    ∀ {lo : Nat}, lo ≤ n → Memory.remoteWfFrom lo t = true → (∀ e ∈ t, e.1 ≠ n) →
      Memory.remoteWfFrom lo (tinsert t n x) = true := by
  induction t with
  | nil => intro lo l _ _; simp [tinsert, Memory.remoteWfFrom, l, hx]
  | cons e t ih =>
    obtain ⟨k, v⟩ := e
    intro lo l h hn
    simp only [Memory.remoteWfFrom, Bool.and_eq_true, decide_eq_true_eq] at h
    have hk : k ≠ n := hn (k, v) (by simp)
    by_cases hl : n < k
    · simp only [tinsert, hl, if_true, Memory.remoteWfFrom, Bool.and_eq_true, decide_eq_true_eq]
      exact ⟨⟨l, by simp [hx]⟩, ⟨⟨hl, h.1.2⟩, h.2⟩⟩
    · simp only [tinsert, hl, if_false, Memory.remoteWfFrom, Bool.and_eq_true, decide_eq_true_eq]
      exact ⟨h.1, ih (by omega) h.2 fun e he => hn e (by simp [he])⟩

/-- A write of another package's byte keeps the form of their list. -/
theorem setRemoteByte_wf (s : State) (k : Nat) (b : Byte) (h : Memory.remoteWf s.remote = true) :
    Memory.remoteWf (s.setRemoteByte k b).remote = true := by
  show Memory.remoteWfFrom 0 (tset (Config.remoteByte k) s.remote k b) = true
  unfold tset
  split
  · exact remoteWfFrom_terase _ _ h
  · rename_i hx
    exact remoteWfFrom_tinsert _ _ hx (Nat.zero_le _) (remoteWfFrom_terase _ _ h) (terase_no_key _ _)

/-- Writes of bytes of another package change nothing else, and keep the form. -/
theorem setRemoteBytes_step (l : List Byte) : ∀ (s : State) (k : Nat),
    s.setRemoteBytes k l = { s with remote := (s.setRemoteBytes k l).remote } ∧
      (Memory.remoteWf s.remote = true → Memory.remoteWf (s.setRemoteBytes k l).remote = true) := by
  induction l with
  | nil => exact fun s _ => ⟨rfl, id⟩
  | cons b l ih =>
    intro s k
    exact ⟨(ih (s.setRemoteByte k b) (k + 1)).1, fun h => (ih _ _).2 (setRemoteByte_wf s k b h)⟩

/-! Every context at once. -/

/-- What `mapCtxs` makes of each context, and that it changes nothing else. -/
theorem State.mapCtxs_spec (s : State) (f : Nat → Ctx → Ctx) :
    s.mapCtxs f = { s with ctxs := (s.mapCtxs f).ctxs } ∧
      (∀ c, c ∈ s.ctxs.map Prod.fst → (s.mapCtxs f).ctx c = f c (s.ctx c)) ∧
      (∀ c, c ∉ s.ctxs.map Prod.fst → (s.mapCtxs f).ctx c = s.ctx c) := by
  unfold State.mapCtxs
  have h : ∀ (l : List Nat) (t : State), t = { s with ctxs := t.ctxs } →
      let u := l.foldl (fun t c => t.setCtx c (f c (s.ctx c))) t
      u = { s with ctxs := u.ctxs } ∧ (∀ c, c ∈ l → u.ctx c = f c (s.ctx c)) ∧ (∀ c, c ∉ l → u.ctx c = t.ctx c) := by
    intro l
    induction l with
    | nil => exact fun t ht => ⟨ht, fun c hc => by simp at hc, fun c _ => rfl⟩
    | cons a l ih =>
      intro t ht
      have g := ih (t.setCtx a (f a (s.ctx a))) (by rw [ht]; rfl)
      refine ⟨g.1, fun c hc => ?_, fun c hc => ?_⟩
      · by_cases hl : c ∈ l
        · exact g.2.1 c hl
        · have e : c = a := by simpa [hl] using hc
          subst e
          exact (g.2.2 c hl).trans (State.ctx_setCtx_self _ _ _)
      · simp only [List.mem_cons, not_or] at hc
        exact (g.2.2 c hc.2).trans (State.ctx_setCtx_ne _ _ hc.1)
  exact h _ s rfl

/-! The device's own writes (R307). -/

/-- An error of a TDI touches no memory. -/
theorem tdiEnterError_mem (s : State) (p : Nat) : (s.tdiEnterError p).mem = s.mem := by
  unfold State.tdiEnterError
  dsimp only
  rw [State.raise_eq, State.updPkg_mem, (State.mapCtxs_spec _ _).1]
  rfl

theorem guardHit_mem (s : State) (p : Nat) : (s.guardHit p).mem = s.mem := by
  unfold State.guardHit
  split
  · rfl
  · exact tdiEnterError_mem s p

theorem snoopFirst_mem (s : State) (pa : Nat) : (s.snoopFirst pa).1.mem = s.mem := by
  unfold State.snoopFirst
  dsimp only
  split <;> rfl

/-- An own write, done or waiting, keeps the form of memory. -/
theorem postWrite_form (s : State) (q : Posted) (h : Memory.wf s.mem = true) : Memory.wf (s.postWrite q).mem = true := by
  have done : ∀ t : State, Memory.wf t.mem = true → Memory.wf (match q.irq with | some v => t.raise v | none => t).mem = true :=
    fun t w => by split <;> exact w
  have one : Memory.wf (s.postedWrite q).1.mem = true := by
    unfold State.postedWrite
    dsimp only
    generalize (if q.add then 8 else q.data.length) = n
    split
    · exact done _ (by rw [guardHit_mem]; exact h)
    · split
      · exact done _ h
      · split
        · exact h
        · have m := snoopFirst_mem s q.pa
          split
          · next e => rw [e] at m; exact m ▸ h
          · next e => rw [e] at m; exact done _ ((writePa_step _ _ _ _).form (m ▸ h))
  unfold State.postWrite
  dsimp only
  split
  · exact h
  · split
    · next e => rw [e] at one; exact one
    · next e => rw [e] at one; exact one

/-- A counter raised keeps the form of memory. -/
theorem count_form (s : State) (p w : Nat) (h : Memory.wf s.mem = true) : Memory.wf (s.count p w).mem = true :=
  postWrite_form _ _ h

/-! Reads of several places as one. -/

/-- A read of several places made as one gives what it would give alone. -/
@[simp] theorem readAsOne_snd {α : Type} (id : Nat) (r : State × Fetch α) : (readAsOne id r).2 = r.2 := by
  obtain ⟨s, _ | _ | _ | _ | _⟩ := r <;> rfl

/-- It changes nothing but its command. -/
theorem readAsOne_fst {α : Type} (id : Nat) (r : State × Fetch α) :
    (readAsOne id r).1 = { r.1 with cmds := (readAsOne id r).1.cmds } := by
  obtain ⟨s, _ | _ | _ | _ | _⟩ := r <;> rfl

end Sys2Proof.Machine
end

