-- ==== Sys2Proof/Tests/Slice0.lean ====
section
/-! SUPPORT. Tests: words the manual writes out, one ill-formed word for each check of R179, worked values, and states that
meet the hypotheses of every statement. -/

namespace Sys2Proof.Tests

open Sys2Proof.Machine Sys2Proof.Safety

/-! Words the manual writes out, and what they stand for. -/

/-- Table 10.2: `LOOP s6, loop_end`. -/
theorem test_decode_loop : decodeSlot .C 0x00002300067F7F06 = .ok (.loop ⟨0x7F, false, 0x7F, 6, 0, 0x23⟩) := by decide

/-- R340: `TRET`. -/
theorem test_decode_tret : decodeSlot .C 0x00000000007F7F12 = .ok (.tret ⟨0x7F, false, 0x7F, 0, 0, 0⟩) := by decide

/-- R385: `ERRINJ s4, 1`. -/
theorem test_decode_errinj : decodeSlot .C 0x00000100047F7F30 = .ok (.errinj ⟨0x7F, false, 0x7F, 4, 0, 1⟩) := by decide

/-- Table 9.16: the slot A operation of N32, `ADD.n64 s4, s4, 2`. -/
theorem test_decode_add :
    decodeSlot .A 0x0004880004047F02 = .ok (.add ⟨false, 0x7F, false, 4, 4, 0, false, false, false, true, 8, 2⟩) := by decide

/-- Table 11.2, N22: a product of `v10` and `v20`, holding its second source. -/
theorem test_decode_vmul :
    decodeSlot .V 0x009200140A0C7F05 = .ok (.vmul ⟨0x7F, false, 12, 10, 20, 0, false, true, false, false, 9, 0⟩) := by decide

/-- Table 11.2, N23: the same with the held value, releasing it. -/
theorem test_decode_vmul_held :
    decodeSlot .V 0x009800FF0B0D7F05 = .ok (.vmul ⟨0x7F, false, 13, 11, 0xFF, 0, false, false, false, true, 9, 0⟩) := by decide

/-- Table 11.2, N25: a comparison `.lt`. -/
theorem test_decode_vcmp :
    decodeSlot .V 0x009002160C027F13 = .ok (.vcmp ⟨0x7F, false, 2, 12, 22, 2, false, false, false, false, 9, 0⟩) := by decide

/-- Table 11.2, N29: a move under the inverse of `p3`. -/
theorem test_decode_vmov :
    decodeSlot .V 0x00900000160D8301 = .ok (.vmov ⟨3, true, 13, 22, 0, 0, false, false, false, false, 9, 0⟩) := by decide

/-- Table 12.2: `MCALL a0, 0, m0, m1`. -/
theorem test_decode_mcall :
    decodeSlot .M 0x0000000100007F01 = .ok (.mcall ⟨0x7F, false, 0, 0, 1, false, false, false, 0, 0, 0⟩) := by decide

/-- Table 11.2, N19: a tile load in slot L. -/
theorem test_decode_tld :
    decodeSlot .L 0x00480304030A7F05 = .ok (.tld ⟨0x7F, false, 10, 3, 4, 3, false, false, false, 9, 0⟩) := by decide

/-- Table 9.16: the slot W operation of N32, a tile store. -/
theorem test_decode_tst :
    decodeSlot .W 0x00480208040D7F05 = .ok (.tst ⟨0x7F, false, 13, 4, 8, 2, false, false, false, false, 9, 0⟩) := by decide

/-- R249: `MARK.quad -> k4`. -/
theorem test_decode_mark :
    decodeSlot .W 0x00007F0001047F08 = .ok (.mark ⟨0x7F, false, 4, 1, 0, 0x7F, false, false, false, false, 0, 0⟩) := by decide

/-- R286: `SMPUSH 2, v40, s9 <- k3 -> k7`. -/
theorem test_decode_smpush :
    decodeSlot .E 0x8280213FC1877F21 = .ok (.smpush ⟨0x7F, false, 7, 3, 0x7F, 9, 2, 0x28, false, false, false, true⟩) := by decide

/-- Table 12.9: words 0, 4, 5 and 6 of routine 0. -/
theorem test_decode_routine :
    [decodeMop 0x1, decodeMop 0xF, decodeMop 0x10, decodeMop 0x13] =
      [some (.ktile ⟨0, 0, 0, 0⟩), some (.cntdec ⟨0, 0, 0, 0⟩), some (.jnz ⟨0, 0, 0, 0⟩), some (.done ⟨0, 0, 0, 0⟩)] := by decide

/-- Tables 9.13 and 9.25: opcode 0x06 with PRED 0x7F and SRC1 4. -/
theorem test_decode_shfree :
    decodeSlot .X 0x0000000004007F06 = .ok (.shfree ⟨0x7F, false, 0, 4, 0, false, false, false, 0, 0⟩) := by decide

/-- The predicated load and store that chapter 26 writes out, in one bundle (MASK 0x060), with what follows left. -/
theorem test_decode_bundle :
    decodeBundle ([0x60, 0, 0, 0, 0, 0, 0, 0, 0x01, 0x01, 0x07, 0x05, 0x00, 0x7F, 0x40, 0x00,
        0x01, 0x81, 0x06, 0x05, 0x00, 0x7F, 0x40, 0x00] ++ [0xAB]) =
      .bundle ⟨0x60, 0, [(.L, .ld ⟨1, false, 7, 5, 0, 0x7F, false, false, false, 8, 0⟩),
        (.W, .st ⟨1, true, 6, 5, 0, 0x7F, false, false, false, false, 8, 0⟩)]⟩ [0xAB] := by decide

/-! An ill-formed word, or header, for each check of R179. -/

/-- Checks 1 and 2: reserved header bits, and SPIDX without SAFE. -/
theorem test_ill_header :
    decodeBundle [0, 0, 0x20, 0, 0, 0, 0, 0] = .ill 1 15 ∧ decodeBundle [0, 4, 0, 0, 0, 0, 0, 0] = .ill 2 15 := by decide

/-- Check 3: opcodes 0x00 and 0xFF are assigned in no slot. -/
theorem test_ill_opcode :
    (Slot.all.all fun sl => decodeSlot sl 0 = .ill 3 && decodeSlot sl 0xFFFFFFFFFFFFFFFF = .ill 3) = true := by decide

/-- Check 4: a field that `TRET` leaves unused. -/
theorem test_ill_unused : decodeSlot .C 0x00000001007F7F12 = .ill 4 ∧
    ¬ (Instr.tret ⟨0x7F, false, 0x7F, 0, 1, 0⟩).WellFormed := by decide

/-- Check 5: PRED 96, and SENSE 1 with PRED 0x7F. -/
theorem test_ill_pred : decodeSlot .V 0x00900000160D6001 = .ill 5 ∧
    ¬ (Instr.vmov ⟨0x7F, true, 13, 22, 0, 0, false, false, false, false, 9, 0⟩).WellFormed := by decide

/-- Check 6: token 64. -/
theorem test_ill_token : decodeSlot .W 0x00007F0001407F08 = .ill 6 ∧
    ¬ (Instr.mark ⟨0x7F, false, 64, 1, 0, 0x7F, false, false, false, false, 0, 0⟩).WellFormed := by decide

/-- Check 7: scalar register 64. -/
theorem test_ill_register : decodeSlot .A 0x0004880004407F02 = .ill 7 ∧
    ¬ (Instr.add ⟨false, 0x7F, false, 64, 4, 0, false, false, false, true, 8, 2⟩).WellFormed := by decide

/-- Check 8: a floating type of a scalar addition. -/
theorem test_ill_type : ¬ (Instr.add ⟨false, 0x7F, false, 4, 4, 0, false, false, false, true, 9, 2⟩).WellFormed ∧
    illCheck (.add ⟨false, 0x7F, false, 4, 4, 0, false, false, false, true, 9, 2⟩) = some 8 := by decide

/-- Check 9: a hold bit on a field that holds no register to latch. -/
theorem test_ill_hold : ¬ (Instr.vmul ⟨0x7F, false, 13, 11, 0xFF, 0, false, true, false, false, 9, 0⟩).WellFormed ∧
    illCheck (.vmul ⟨0x7F, false, 13, 11, 0xFF, 0, false, true, false, false, 9, 0⟩) = some 9 := by decide

/-! One operation of a bundle: `cu` is the bundle of context `x` at 0x1000 whose next operation is `i`, its faults looked for. -/

/-- The bundle of one operation. -/
def cu (x : Ctx) (i : Instr) : Cur :=
  { ctx := 0, h := 0x1000, size := 16, imm := 0, todo := [(.C, i)], checked := true, jump := none, branch := false, trap := none,
    before := x }

/-- The state in which context 0, as `x`, issues it. -/
def st (x : Ctx) (i : Instr) : State := { State.reset with ctxs := [(0, x)], phase := .issue, cur := some (cu x i) }

/-- The values of the results that the operation leaves in flight. -/
def lands (x : Ctx) (i : Instr) : List (Option Nat) :=
  match exec i (st x i) with
  | .next t => (t.ctx 0).inflight.map (·.val)
  | _ => []

/-- Does the operation act, not suppressed? -/
def performsB (x : Ctx) (i : Instr) : Bool :=
  match formOf i with
  | some f => !(opOf (cu x i) i f).sup
  | none => false

theorem performs_of {x : Ctx} {i : Instr} (h : performsB x i = true) : ∃ f, Performs (st x i) (cu x i) i f := by
  unfold performsB at h
  split at h
  · next f hf => exact ⟨f, ⟨rfl, rfl, hf⟩, by simpa using h⟩
  · cases h

theorem performs_all {x : Ctx} {l : List Instr} (h : l.all (performsB x) = true) :
    ∀ i ∈ l, ∃ f, Performs (st x i) (cu x i) i f := fun i hi => performs_of (List.all_eq_true.mp h i hi)

/-- A slot A word on `s1`, `s2` and `s3` of a type. -/
def aw (ty : BitVec 5) : ABW := ⟨false, 0x7F, false, 1, 2, 3, false, false, false, false, ty, 0⟩
/-- A slot B word. -/
def bw (imm15 : BitVec 15) : ABW := ⟨true, 0x7F, false, 1, 2, 3, false, false, false, false, 0, imm15⟩
/-- A context with values in `s2` and `s3`. -/
def two (a b : Word) : Ctx := { st := .ready, s := [(2, a), (3, b)] }

/-! Worked values of Table 10.4. -/

theorem test_add_wraps : lands (two 0x7F 1) (.add (aw 1)) = [some 0xFFFFFFFFFFFFFF80] := by decide
theorem test_adds_clamps : lands (two 0x7F 1) (.adds (aw 1)) = [some 0x7F] ∧ lands (two 200 100) (.adds (aw 5)) = [some 0xFF] := by decide
theorem test_div_truncates : lands (two (-7) 2) (.div (aw 3)) = [some (2 ^ 64 - 3)] ∧
    lands (two 9 0) (.div (aw 8)) = [some 0] := by decide
theorem test_rem_sign : lands (two (-7) 2) (.rem (aw 3)) = [some (2 ^ 64 - 1)] ∧ lands (two 9 0) (.rem (aw 8)) = [some 9] := by decide
theorem test_div_most_negative : lands (two 0xFFFFFFFF80000000 (-1)) (.div (aw 3)) = [some 0xFFFFFFFF80000000] := by decide
theorem test_shr_sign : lands (two 0x8000 4) (.shr (aw 2)) = [some 0xFFFFFFFFFFFFF800] := by decide
theorem test_shl_out : lands (two 1 40) (.shl (aw 7)) = [some 0] := by decide
theorem test_mulh : lands (two 0x8000000000000000 4) (.mulh (aw 8)) = [some 2] := by decide
theorem test_clz : lands (two 0 1) (.clz (aw 7)) = [some 31] := by decide
theorem test_ext : lands (two 0xF300 8) (.ext (aw 1)) = [some 0xFFFFFFFFFFFFFFF3] := by decide

/-! States that meet the hypotheses of the statements: first, operations that perform. -/

/-- A READY context of level U. -/
def x0 : Ctx := { st := .ready }
def cw (imm : BitVec 24) : CW := ⟨0x7F, false, 0x7F, 2, 3, imm⟩
def vw (ty ty2 : BitVec 5) : VW := ⟨0x7F, false, 1, 2, 3, 4, false, false, false, false, ty, ty2⟩
def mw : MW := ⟨0x7F, false, 0, 1, 2, false, false, false, 0, 0, 0⟩
def lw : LW := ⟨0x7F, false, 1, 2, 3, 0x7F, false, false, false, 8, 0⟩
def ww : WW := ⟨0x7F, false, 1, 2, 3, 0x7F, false, false, false, false, 8, 0⟩
def ew : EW := ⟨0x7F, false, 1, 0x7F, 0x7F, 0x7F, 2, 3, false, false, false, false⟩
def xw : XW := ⟨0x7F, false, 1, 2, 3, false, false, false, 9, 9⟩

/-- ScalarArithmetic, ScalarBits, CompareAndSelect (each condition of CMP, 0 and 5 the first and last), RegisterFormsFrame. -/
theorem test_witness_scalar : ∀ i ∈ ([.mov (aw 1), .add (aw 1), .sub (aw 1), .mul (aw 1), .mulh (aw 1), .div (aw 1), .rem (aw 1),
      .min (aw 1), .max (aw 1), .adds (aw 1), .subs (aw 1), .and (aw 1), .or (aw 1), .xor (aw 1), .shl (aw 1), .shr (aw 1),
      .clz (aw 1), .popc (aw 1), .ext (aw 1), .sel (aw 1)] ++
      (List.range 6).map fun c => .cmp { aw 1 with imm15 := BitVec.ofNat 15 (128 * c) } : List Instr),
    ∃ f, Performs (st x0 i) (cu x0 i) i f := performs_all (by decide)

/-- SetUpAndParameterForms, at dimensions 0 and 3. -/
theorem test_witness_setup : ∀ i ∈ ([.agbase (bw 0), .agdim (bw 0), .agdim (bw 3), .agidx (bw 0), .agidx (bw 3), .agind (bw 0), .agind (bw 15),
      .agmode (bw 1), .agclr (bw 0), .adr (bw 0), .agrd (bw 0), .agrd (bw 7), .mpset (bw 0), .mprd (bw 0)] : List Instr),
    ∃ f, Performs (st x0 i) (cu x0 i) i f := performs_all (by decide)

/-- VectorArithmetic, VectorFunctions, VectorBitsAndMoves, Conversions, Reductions, PredicateAndCompare, in a floating and an
integer type. -/
theorem test_witness_vector : vTy (vw 9 0) = .flt .f32 ∧ vTy (vw 1 0) = .int true 8 ∧
    ∀ i ∈ ([vw 9 0, vw 1 0].flatMap fun w => [.vadd w, .vsub w, .vmul w, .vfma w, .vfms w, .vdiv w, .vsqrt w, .vrcp w, .vrsqrt w,
      .vexp2 w, .vlog2 w, .vszadd w, .vabs w, .vneg w, .vmin w, .vmax w, .vadds w, .vsubs w, .vmulh w, .vand w, .vor w, .vxor w,
      .vnot w, .vshl w, .vshr w, .vmov w, .vbcast w, .vsel w, .vperm w, .vrot w, .vins w, .viota w, .vextr w, .vcvt w, .vrsum w,
      .vrmax w, .vrmin w, .vcmp w, .pand w, .por w, .pxor w, .pnot w, .pmov w, .pcnt w, .pfirst w] : List Instr),
    ∃ f, Performs (st x0 i) (cu x0 i) i f := ⟨by decide, by decide, performs_all (by decide)⟩

/-- Reductions, of F32, F16 and BF16 elements and of integers. -/
theorem test_witness_reductions : tyOr (vw 9 9).type2 = .flt .f32 ∧ (tyOr (vw 9 9).type2).count = 2 ^ 8 ∧
    ([.f16, .bf16] : List Fmt).all (fun g => (Ty.flt g).count = 2 ^ 9) = true ∧ tyOr (vw 1 1).type2 = .int true 8 ∧
    ∀ i ∈ ([vw 9 9, vw 1 1].flatMap fun w => [.vrsum w, .vrmax w, .vrmin w] : List Instr), ∃ f, Performs (st x0 i) (cu x0 i) i f :=
  ⟨by decide, by decide, by decide, by decide, performs_all (by decide)⟩

/-- TransformForms, Conversions (XCVT) and SHSEAL. -/
theorem test_witness_transform : ∀ i ∈ ([.xexp xw, .xtrn xw, .xcvt xw, .xqnt xw, .xred xw, .xratio xw, .shfree xw, .shseal xw] : List Instr),
    ∃ f, Performs (st x0 i) (cu x0 i) i f := performs_all (by decide)

/-- LoadsQueue, StoresQueue, SlotWheelForms, MarkersAndHints. -/
theorem test_witness_queues : ∀ i ∈ ([.ld lw, .vld lw, .pld lw, .tld lw, .vldg lw, .tldg lw, .ldsc lw, .pfh lw, .pfhx lw,
      .lSlotHint 0 0, .lSlotHint 14 0, .st ww, .stnt ww, .vst ww, .pst ww, .tst ww, .vsts ww, .tsts ww, .stsc ww, .mark ww] : List Instr),
    ∃ f, Performs (st x0 i) (cu x0 i) i f := performs_all (by decide)

/-- AccumulatorAndLatchForms and MatrixCalls at issue; the tile and the latch free, and held already. -/
theorem test_witness_matrix : (∀ i ∈ ([.accget mw, .accput mw, .accclr mw, .accmov mw, .latget mw, .latput mw, .accrd mw, .latld mw,
      .accst mw, .mcall mw] : List Instr), (st x0 i).pkg.armed = none ∧ ∃ f, Performs (st x0 i) (cu x0 i) i f) ∧
    (∀ i ∈ ([.accget mw, .latget mw] : List Instr), (st x0 i).holdsAcc 0 0 = false ∧ (st x0 i).holdsLat 0 0 = false ∧
      let k : Core := { accs := [(0, { holder := some 0 })], lats := [(0, { holder := some 0 })] }
      let s := { st x0 i with cores := [(0, k)] }
      s.holdsAcc 0 0 = true ∧ s.holdsLat 0 0 = true ∧ s.cur = some (cu x0 i)) :=
  ⟨fun i hi => ⟨rfl, performs_all (by decide) i hi⟩, by decide⟩

/-- EngineCommands at issue. -/
theorem test_witness_engine : ∀ i ∈ ((([.copyMemToTile, .copyTileToMem, .copyTileToTile, .copyMemToMem, .mcast, .copyh, .talloc, .tfree,
      .launch, .racq, .rrel, .barCore, .barQuad, .barStack, .barPkg, .barPod, .tmmatch, .tmmerge, .tmunmrg, .tmcomp, .tmfree, .tmsize,
      .smopen, .smpush, .smfeed, .smlimit, .smend, .smdrain] : List (EW → Instr)).map (· ew)) ++
      ([.acwAdd, .acwMin, .acwMax, .acwfAdd, .acwfMin, .acwfMax] : List (AcwType → EW → Instr)).map (· .i32 ew) ++
      ([.acwAnd, .acwOr, .acwXor, .acwSwap, .acwCas, .acwfAnd, .acwfOr, .acwfXor, .acwfSwap, .acwfCas] :
        List (AcwWidth → EW → Instr)).map (· .n32 ew)),
    ∃ f, Performs (st x0 i) (cu x0 i) i f := performs_all (by decide)

/-- ControlTransfers, LoopsAndWaits (a count of zero and one of two), TrapAndReturn. -/
theorem test_witness_control : ∀ x ∈ [x0, { x0 with s := [(2, 2)] }], ∀ i ∈ ([.br (cw 1), .bri (cw 0), .call (cw 1), .calli (cw 0),
      .ret (cw 0), .loop (cw 1), .exit (cw 0), .yield (cw 0), .yield (cw 1), .wait (cw 0), .trap (cw 5), .tret (cw 0)] : List Instr),
    ∃ f, Performs (st x i) (cu x i) i f := by
  intro x hx
  simp only [List.mem_cons, List.not_mem_nil, or_false] at hx
  rcases hx with rfl | rfl <;> exact performs_all (by decide)

/-- SystemRegisters (each register that SYSWR writes), ContractsAndTables, InvalidationsAndStoreWrites, PartitionForms and
TestsStopsAndGenerations. -/
theorem test_witness_system : ∀ i ∈ ([.sysrd (cw 0), .ownrd (cw 0), .occrd (cw 0), .syswr (cw 0x12), .syswr (cw 0x13), .syswr (cw 0x14),
      .syswr (cw 0x15), .syswr (cw 0x1E), .syswr (cw 0x1F), .govloadWrite (cw 0), .tretpcWrite (cw 0), .tstatWrite (cw 0), .ownset (cw 0),
      .ownlat (cw 0), .ownbkt (cw 0), .wayset (cw 0), .rngset (cw 0), .whlset (cw 0), .tlbinv (cw 0), .mswr (cw 0), .rtset (cw 0),
      .partset (cw 0), .partslc (cw 0), .partchn (cw 0), .partlnk (cw 0), .ownasgn (cw 0), .tenset (cw 0), .frmset (cw 0), .partcol (cw 0),
      .genadv (cw 0), .errinj (cw 1), .selftst (cw 0), .ctxstop (cw 1)] : List Instr),
    ∃ f, Performs (st x0 i) (cu x0 i) i f := performs_all (by decide)

/-- SystemRegisters: a context that was there as the cycle began, and one that was claimed or nothing then. -/
theorem test_witness_dawn :
    let d (x : Ctx) : Option Dawn := some ⟨[(0, x)], [], [], [], [], [], [], {}⟩
    (({ State.reset with dawn := d { st := .ready } }.atDawn).ctx 0).st = .ready ∧
    (({ State.reset with dawn := d { st := .claimed } }.atDawn).ctx 0).st = .claimed ∧
    (({ State.reset with dawn := d {} }.atDawn).ctx 0).st = .empty ∧ State.reset.dawn = none := by decide

/-- The register values that the clauses of PartitionForms ask for: a release and an assignment of slices, an owner removed and
assigned; SystemRegisters in the same way rests on no value. -/
theorem test_witness_partition_values :
    (∃ f, formOf (.partslc (cw 0)) = some f ∧
      bit ((opOf (cu { x0 with s := [(3, 2 ^ 31)] } (.partslc (cw 0))) (.partslc (cw 0)) f).src 1) 31 = true ∧
      bit ((opOf (cu x0 (.partslc (cw 0))) (.partslc (cw 0)) f).src 1) 31 = false) ∧
    (∃ f, formOf (.ownasgn (cw 0)) = some f ∧
      bit ((opOf (cu { x0 with s := [(3, 2 ^ 63)] } (.ownasgn (cw 0))) (.ownasgn (cw 0)) f).src 1) 63 = true ∧
      bit ((opOf (cu x0 (.ownasgn (cw 0))) (.ownasgn (cw 0)) f).src 1) 63 = false) ∧ (st x0 (.partcol (cw 0))).eps = [] :=
  ⟨⟨_, rfl, by decide, by decide⟩, ⟨_, rfl, by decide, by decide⟩, rfl⟩

/-- TestsStopsAndGenerations: a generation that can advance and the last one; a target at rest, and another that is not. -/
theorem test_witness_generations :
    (let s := { st x0 (.genadv (cw 0)) with parts := [(0, { l2gen := 65534 })] };
      (s.part 0).l2gen + 1 < 2 ^ 16 ∧ s.cur = some (cu x0 (.genadv (cw 0)))) ∧
    (let s := { st x0 (.genadv (cw 0)) with parts := [(0, { l2gen := 65535 })] };
      2 ^ 16 ≤ (s.part 0).l2gen + 1 ∧ s.cur = some (cu x0 (.genadv (cw 0)))) ∧
    (∃ f, formOf (.ctxstop (cw 1)) = some f ∧ ∀ x ∈ [{ x0 with s := [(2, 1)] }],
      let s := { st x (.ctxstop (cw 1)) with ctxs := [(0, x), (1, x0)] };
      let a := (opOf (cu x (.ctxstop (cw 1))) (.ctxstop (cw 1)) f).src 0;
      a = 1 ∧ a ≠ (cu x (.ctxstop (cw 1))).ctx ∧ (s.ctx a).st.atRest = false ∧ (st x (.ctxstop (cw 1))).ctx a = {} ∧
      ((st x (.ctxstop (cw 1))).ctx a).st.atRest = true) ∧
    (∃ f, formOf (.ctxstop (cw 1)) = some f ∧ (opOf (cu x0 (.ctxstop (cw 1))) (.ctxstop (cw 1)) f).src 0 = 0 ∧
      ((st x0 (.ctxstop (cw 1))).ctx 0).st.atRest = false) ∧
    (let s := { State.reset with ctxs := [(0, { x0 with block := .partslc 0 0 1 0 })], zeroing := [0, genL2 0] };
      (s.ctx 0).block = .partslc 0 0 1 0 ∧ 0 ≤ s.cycle ∧ s.zeroing.contains 0 = true ∧ 0 < genL2 0 ∧ s.zeroing.contains (genL2 0) = true) :=
  ⟨by decide, by decide, ⟨_, rfl, by decide⟩, ⟨_, rfl, by decide, by decide⟩, by decide⟩

/-- Encoding: a well-formed operation with its word (SlotWordRoundTrip, BundleRoundTrip), a word that decodes (SlotWordUnique). -/
theorem test_witness_encoding : let i : Instr := .add ⟨false, 0x7F, false, 4, 4, 0, false, false, false, true, 8, 2⟩;
    i.WellFormed ∧ slotWord i = some (.A, 0x0004880004047F02) ∧ decodeSlot .A 0x0004880004047F02 = .ok i := by decide

/-! The step. -/

/-- The slot A operation of N32 in a bundle of its own, placed where the next step after reset fetches. -/
def fetched : State := State.reset.withFetchWord 128 0x00048800_04047F02_00000000_00000002
def addWord : Instr := .add ⟨false, 0x7F, false, 4, 4, 0, false, false, false, true, 8, 2⟩

/-- The next step runs it: `s4` + 2 is in flight. -/
theorem test_step_runs : (match step fetched with | .next t => (t.ctx 0).inflight.map (·.val) | _ => []) = [some 2] := by decide +kernel

/-- StepRunsDecoded: a bundle that begins, and one whose operation is next. -/
theorem test_witness_step : fetched.phase = .issue ∧ fetched.cur = none ∧ fetched.micro = none ∧ fetched.todo = [0] ∧
    fetched.pkg.armed = none ∧ (fetched.ctx 0).st = .ready ∧
    State.fetchBundle { fetched with todo := [] } 0 = .bundle fetchVa 16 ⟨2, 0, [(.A, addWord)]⟩ ∧
    State.fetchPoison { fetched with todo := [] } 0 fetchVa 16 = none ∧
    (runsOf 0 (curOf 0 fetchVa 16 ⟨2, 0, [(.A, addWord)]⟩ ((fetched.ctx 0).resumed (fetched.now 0))) ((fetched.ctx 0).resumed (fetched.now 0))
      [(.A, addWord)]).any (State.opWaits { fetched with todo := [] }) = false ∧
    (st x0 addWord).phase = .issue ∧ (cu x0 addWord).todo = [(.C, addWord)] := by decide +kernel

/-- The call that waits for its first word, on a state of its own. -/
def calling (k : Call) : State := { State.reset with calls := [k], micro := some 1 }

/-- StepRunsDecoded and MicroOps: a routine that runs, its sources not chosen, its window not opened; the word at its place. -/
theorem test_witness_micro :
    (let s := State.reset.withFetchWord 64 1;
      s.cur = none ∧ s.micro = some 1 ∧ s.call 1 = some fetchCall ∧ fetchCall.upc ≤ fetchCall.last ∧ fetchCall.words < 4096 ∧
      decodeMop (tget 0 (s.core fetchCall.core).store fetchCall.upc) = some (.ktile ⟨0, 0, 0, 0⟩)) ∧
    Runs (calling fetchCall) 1 fetchCall ∧ fetchCall.srcA = none ∧ fetchCall.srcB = none ∧ fetchCall.kt < fetchCall.n ∧
    0 ≤ (fetchCall.kA : Int) + (0 : BitVec 16).toInt ∧ fetchCall.jobs = [] ∧ fetchCall.opens 0 ≤ (calling fetchCall).now 0 ∧
    (let k := { fetchCall with kt := 1 }; Runs (calling k) 1 k ∧ k.kt = k.n ∧ k.isOpen = false) ∧
    (let k := { fetchCall with c0 := 1 }; Runs (calling k) 1 k ∧ ¬ (k.jobs = [] ∧ k.opens k.kt ≤ (calling k).now k.ctx)) ∧
    (let k := { fetchCall with kt := 1, srcA := some .desc, srcB := some .desc };
      Runs (calling k) 1 k ∧ k.kt ≠ 0 ∧ k.latchOver ⟨false, k.da.toNat, k.agA, k.sgA, k.kA, .desc, k.scA⟩ = false ∧
      k.latchOver ⟨true, k.db.toNat, k.agB, k.sgB, k.kB, .desc, k.scB⟩ = false) :=
  ⟨by decide +kernel, ⟨rfl, rfl, rfl⟩, rfl, rfl, by decide, by decide, rfl, by decide, ⟨⟨rfl, rfl, rfl⟩, rfl, rfl⟩,
    ⟨⟨rfl, rfl, rfl⟩, by decide⟩, ⟨rfl, rfl, rfl⟩, by decide, by decide, by decide⟩

/-- MatrixCalls: a window that opens at its cycle, and a call that completes at its cycle. -/
theorem test_witness_call :
    (let k := { fetchCall with kt := 1, waiting := true, isOpen := true };
      (calling k).call 1 = some k ∧ k.jobs = [] ∧ k.waiting = true ∧ k.opens (k.kt - 1) ≤ (calling k).now k.ctx) ∧
    (let k := { fetchCall with ended := true };
      let s := { calling k with cols := [(0, { cycles := 1 })] };
      s.call 1 = some k ∧ k.jobs = [] ∧ k.ended = true ∧ k.c0 + k.lat + k.frz ≤ s.now k.ctx) := by decide +kernel

/-- BundleEnds: a bundle at its end, and one that transfers; loop entries with one and two rounds left. -/
theorem test_witness_bundle_end :
    (let k := { cu x0 addWord with todo := [] };
      let s := { st x0 addWord with cur := some k };
      s.phase = .issue ∧ s.cur = some k ∧ k.jump = none ∧ k.trap = none ∧ (s.ctx k.ctx).loops = []) ∧
    (let k := { cu x0 addWord with todo := [], jump := some 64 };
      let s := { st x0 addWord with cur := some k };
      s.phase = .issue ∧ s.cur = some k ∧ k.jump = some 64 ∧ k.trap = none ∧ k.branch = false) ∧
    (let k := { cu x0 addWord with todo := [], jump := some 64, branch := true };
      let s := { st { x0 with loops := [⟨8, 64, 2, 0⟩] } addWord with cur := some k };
      s.cur = some k ∧ k.jump = some 64 ∧ k.branch = true ∧ loopBranch 64 (s.ctx 0).depth (s.ctx 0).loops = []) ∧
    loopBranch 63 0 [⟨8, 64, 2, 0⟩] = [⟨8, 64, 2, 0⟩] ∧ loopBranch 64 0 [⟨8, 64, 2, 1⟩] = [⟨8, 64, 2, 1⟩] ∧
    loopEnd 64 0 [⟨8, 64, 2, 0⟩] = ([⟨8, 64, 1, 0⟩], 8) ∧ loopEnd 64 0 [⟨8, 64, 1, 0⟩] = ([], 64) ∧
    loopEnd 72 0 [⟨8, 64, 1, 0⟩] = ([⟨8, 64, 1, 0⟩], 72) := by decide

/-- StepKeepsMemoryForm: reset steps, and its memory is in form. -/
theorem test_witness_memory_form : MemWf State.reset ∧ ∃ t, step State.reset = .next t := ⟨⟨rfl, rfl⟩, _, rfl⟩

/-- RegisterFormsFrame: a register form at the head of its bundle, in slot order. -/
theorem test_witness_frame : registerForm (.add (aw 1)) = true ∧
    (let k := { cu x0 (.add (aw 1)) with todo := [(.A, .add (aw 1)), (.V, .vmov (vw 9 0))] };
      ((k.todo.filterMap fun o => formOf o.2).map fun f => f.slot.num).Pairwise (fun a b => a < b) ∧
      ∃ t, exec (.add (aw 1)) { st x0 (.add (aw 1)) with cur := some k } = .next t) := ⟨rfl, by decide, _, rfl⟩

/-- ChannelInterleave: partition 0 as the firmware leaves it, at the first and the last byte. -/
theorem test_witness_interleave : (State.reset.bootPart0.part 0).chans.Pairwise (fun a b => a < b) ∧
    (State.reset.bootPart0.part 0).chans.length * chanBytes = 12884901888 ∧ State.reset.bootPart0.memKey (devPa 0 0) = some 0 ∧
    State.reset.bootPart0.chanOf (devPa 0 0) = some (0, 0) ∧ State.reset.bootPart0.chanOf (devPa 0 512) = some (1, 0) ∧
    State.reset.bootPart0.chanOf (devPa 0 12884901887) = some (7, 1610612735) := by decide +kernel

/-- ExtendedReals: an infinity in a list without its opposite, and a list of dyadics at or above an exponent. -/
theorem test_witness_extended : (.inf true : Ext) ∈ [Ext.fin 1 0, .inf true] ∧ (.inf false : Ext) ∉ [Ext.fin 1 0, .inf true] ∧
    (.nan : Ext) ∉ [Ext.fin 1 0, .inf true] ∧ decodeF .f32 0x80000000 = .zero true ∧ decodeF .f32 0 = .zero false ∧
    decodeF .f32 0x7FC00000 = .nan ∧ (decodeF .f32 0x3F800000).lt (decodeF .f32 0x40000000) = true ∧
    (∀ m e, Ext.fin m e ∈ [Ext.fin 1 0, .fin (-3) 2] → 0 ≤ e) :=
  ⟨by decide, by decide, by decide, by decide, by decide, by decide, by decide, by
    intro m e h; simp at h; omega⟩

/-- ExtendedReals, VectorFunctions and Conversions: encodings of each kind, of both signs, and types of each kind. -/
theorem test_witness_roundings :
    [0x3F800000, 0xBF800000, 0, 0x80000000, 0x7F800000, 0xFF800000, 0x7FC00000].map (decodeF .f32) =
      [.fin (2 ^ 23) (-23), .fin (-2 ^ 23) (-23), .zero false, .zero true, .inf false, .inf true, .nan] ∧
    (0 : Int) < 2 ^ 23 ∧ (2 ^ 23 : Int) < 2 ^ 64 ∧ (-2 ^ 23 : Int) < 0 ∧ vTy (vw 1 0) = .int true 8 ∧
    (2 ^ (8 - 1) : Nat) = 128 ∧ ((List.range 32).any fun n => match tyOr (BitVec.ofNat 5 n) with | .plane _ _ => true | _ => false) = true := by
  decide

/-- ResultsLand: two results due for one register, the later of which stays, and one not due. -/
theorem test_witness_landing :
    (let l : Landing := ⟨.s, 4, 0, some 7, 0, .A⟩;
      let m : Landing := ⟨.s, 5, 1, some 9, 0, .A⟩;
      let x := { x0 with inflight := [l, l, m] };
      let s := { State.reset with ctxs := [(0, x)] };
      (s.ctx 0).frz.fault = none ∧ (s.ctx 0).frz.urgent = none ∧ (s.ctx 0).inflight = [l] ++ l :: [m] ∧ l.isDue (s.now 0) = true ∧
      ¬ (m.isDue (s.now 0) = true ∧ m.cls = l.cls ∧ m.idx = l.idx) ∧ l.val = some 7) := by decide

/-- FaultBeforeIssue: MSWR at level U meets a fault, an addition none; PrivilegeComesFirst at levels U and S. -/
theorem test_witness_fault :
    (∃ f e, formOf (.mswr (cw 0)) = some f ∧ f.level = .S ∧
      (let k := { cu x0 (.mswr (cw 0)) with checked := false };
       let s := { st x0 (.mswr (cw 0)) with cur := some k };
       s.bundleFault k (runsOf k.ctx k k.before k.todo) = some e ∧ ¬ (e.cls = 0x0E ∧ e.code = 8) ∧ (s.ctx 0).st = .ready ∧
       (s.ctx 0).dying = none ∧ (s.ctx 0).frz.fault = none ∧ (s.ctx 0).snap = none ∧ (s.ctx 0).replay = [])) ∧
    (let k := { cu x0 addWord with checked := false };
      { st x0 addWord with cur := some k }.bundleFault k (runsOf k.ctx k k.before k.todo) = none) ∧
    (∃ f, formOf (.partset (cw 0)) = some f ∧ isHint (.partset (cw 0)) = false ∧ Level.S.num < f.level.num ∧ Level.U.num < f.level.num) :=
  ⟨⟨_, _, rfl, rfl, rfl, by decide, rfl, rfl, rfl, rfl, rfl⟩, by decide +kernel, ⟨_, rfl, rfl, by decide, by decide⟩⟩

/-- Does a guard suppress the operation? -/
def suppressedB (x : Ctx) (i : Instr) (e : Bool) : Bool :=
  match formOf i with
  | some f => (opOf (cu x i) i f).sup && (f.slot = .E) == e
  | none => false

/-- SuppressedOperations: `p2` is zero; an addition, a TALLOC, and MARK. -/
theorem test_witness_suppressed :
    suppressedB x0 (.add { aw 1 with pred := 2 }) false = true ∧ suppressedB x0 (.talloc { ew with pred := 2 }) true = true ∧
    suppressedB x0 (.mark { ww with pred := 2 }) false = true ∧
    ∀ x i e, suppressedB x i e = true → ∃ f, Suppressed (st x i) (cu x i) i f ∧ (decide (f.slot = .E)) = e := by
  refine ⟨by decide +kernel, by decide +kernel, by decide +kernel, ?_⟩
  intro x i e h
  unfold suppressedB at h
  split at h
  · next f hf =>
    rw [Bool.and_eq_true, beq_iff_eq] at h
    exact ⟨f, ⟨⟨rfl, rfl, hf⟩, h.1⟩, h.2⟩
  · cases h

/-- RegisterReadAfterWrite, at the largest values; ScalarOperandsAndResults, with a held value. -/
theorem test_witness_registers : (2 ^ 64 - 1 : Nat) < 2 ^ 64 ∧ (2 ^ 512 - 1 : Nat) < 2 ^ 512 ∧ 0 < 2 ^ 8192 ∧
    ((Cls.s, 1) : Cls × Nat) ≠ (Cls.v, 1) ∧
    ({ x0 with holds := [(4, some ⟨.s, 9⟩)] } : Ctx).latch .A 0 = some ⟨.s, 9⟩ := by
  refine ⟨by norm_num, ?_, by positivity, by decide, by decide⟩
  exact Nat.sub_lt (by positivity) (by norm_num)

/-! Memory, queues and events. -/

/-- Reset with one context. -/
def one (x : Ctx) : State := { State.reset with ctxs := [(0, x)] }

/-- StorageReadAfterWrite: two places of memory that are kept apart. -/
theorem test_witness_storage : (State.reset.bootPart0.memKey 0).isSome = true ∧
    State.reset.bootPart0.memKey 1 ≠ State.reset.bootPart0.memKey 0 := by decide +kernel

/-- A command of context 0. -/
def someCmd (op : Instr) : ECmd :=
  { id := 1, ctx := 0, quire := 1, op := op, pc := 0, imm := 0, opa := 2, opb := 3, opc := 0, vecs := [], shape := none, owner := 0, level := .U,
    kins := [], fail := none, kout := some 1, ready := 0, begun := true, wait := 0, tiles := [], todo := [], rest := [], far := [], fails := [],
    dests := [], letter := none, served := false, held := false, acted := true, nop := false }

/-- EngineCommands: a command that has acted, and a suppressed one that waits for nothing. -/
theorem test_witness_command :
    (let e := someCmd (.tfree ew); let s := { one x0 with cmds := [e] };
      s.cmd 1 = some e ∧ e.nop = false ∧ e.acted = true ∧ e.wait ≤ s.cycle) ∧
    (let e := { someCmd (.tfree ew) with nop := true, acted := false }; let s := { one x0 with cmds := [e] };
      s.cmd 1 = some e ∧ e.nop = true ∧ ∀ x ∈ e.kins, s.prodBusy e.ctx x = false) := by decide

/-- LoopsAndWaits (a YIELD that is over, and one that a stop ends), TrapAndReturn (the end of a bundle with a TRAP, a snapshot),
InvalidationsAndStoreWrites. -/
theorem test_witness_waits :
    ((one { x0 with block := .yield 0 }).ctx 0).block = .yield 0 ∧ 0 ≤ (one x0).now 0 ∧
    (let s := one { x0 with block := .yield 9, stop := some ⟨0, false⟩ }; (s.ctx 0).block = .yield 9 ∧ (s.ctx 0).stop.isSome = true) ∧
    (let k := { cu x0 (.trap (cw 5)) with todo := [], trap := some 5 }; let s := { st x0 (.trap (cw 5)) with cur := some k };
      s.phase = .issue ∧ s.cur = some k ∧ (s.ctx 0).st = .ready ∧ (s.ctx 0).dying = none ∧ (s.ctx 0).frz.fault = none) ∧
    ((st { x0 with snap := some ⟨[], [], [], [], [], 0, 0, 1, []⟩ } (.tret (cw 0))).ctx 0).snap = some ⟨[], [], [], [], [], 0, 0, 1, []⟩ ∧
    (let s := one { x0 with block := .tlbinv 0 1 }; (s.ctx 0).block = .tlbinv 0 1 ∧ 0 ≤ s.cycle ∧
      ∀ d ∈ s.ctxs, d.2.part = (s.ctx 0).part → ∀ e ∈ d.2.storeQ, e.reach = 0 ∨ e.tile ≠ 0 ∨ 1 ≤ e.id) ∧
    (∀ c ∈ State.reset.calls, c.core ≠ 0) := by
  decide

/-- A quire of one member. -/
def someQuire : Quire :=
  { id := 1, part := 0, letter := 0x10000, st := .running, members := [0], quads := 1, size := 1, broken := false, recorded := true,
    dismissed := false, resuming := false, stopping := false, named := [], wait := 0, images := [], sessions := [] }

/-- Words of device memory. -/
def words (s : State) (l : List (Nat × Nat)) : State := l.foldl (fun s e => s.setRawBytes e.1 (toBytes 8 e.2)) s

/-- Partition 0 with a code object at 0x80000, mapped one to one by both stages, whose one line begins with a bundle, and a trap
handler there. -/
def coded : State :=
  let s := State.reset.bootPart0
  let t : Tenant := { en := true, tbase := 4, slice := 100, tvec := BitVec.ofNat 64 (2 ^ 63 + 0x80100) }
  let s := s.updPart 0 fun p => { p with ssbase := 1, sealtab := 7, nseal := 1, tenants := [(0, t)] }
  words s [(0x10000, 2 ^ 63 + 0x20000), (0x20000, 2 ^ 63 + 0x30000), (0x30000, 2 ^ 63 + 2 ^ 62 + 2 ^ 61),
    (0x40000, 2 ^ 63 + 0x50000), (0x50000, 2 ^ 63 + 0x60000), (0x60000, 2 ^ 63 + 2 ^ 62 + 2 ^ 61 + 2 ^ 59 + 2 ^ 58),
    (0x70000, 2 ^ 63 + 0x80000), (0x70008, 0x10000), (0x80000, 2 ^ 56 + 64), (0x80008, 320 + 384 * 2 ^ 32), (0x80140, 1)]

/-- `s` with the first-stage leaf of `coded` in the host's memory, of which the host has answered nothing. -/
def hosted (s : State) : State := words s [(0x60000, 2 ^ 63 + 2 ^ 62 + 2 ^ 61 + 2 ^ 60 + 2 ^ 59 + 2 ^ 58 + 2 ^ 51)]

/-- SlotWheelForms: position 3 of core 0 is current, and a cached translation of page 0 lets both accesses through. -/
def wheeled (i : Instr) : State :=
  { st x0 i with
    cores := [(0, { wheel := 2 ^ 39 })], parts := [(0, { en := true, chans := List.range 8 })],
    quads := [(0, { tlb := [(0, [⟨0, 0, 16, 0, 0, true, true, true, true, false, true, none, false, none, 16⟩])] })] }

theorem test_witness_straight :
    (∀ i ∈ ([.ldsc lw, .stsc ww] : List Instr), (∃ f, Performs (wheeled i) (cu x0 i) i f ∧ f.kins.filterMap x0.tokRef = []) ∧
      Straight (wheeled i) 0 .read .U 0 8 0 ∧ Straight (wheeled i) 0 .write .U 0 8 0) ∧
    (let s := wheeled (.stsc ww);
      (s.core 0).position 3 = some (s.cycle % 512) ∧ s.calls = [] ∧ s.guardOf 0 = none ∧ s.pkg.hostHas = [] ∧
      (∀ i, i < 8 → (s.memKey i).isSome = true) ∧ (s.ctx 0).loadQ = [] ∧ (s.ctx 0).storeQ = [] ∧ (s.ctx 0).snap = none ∧
      (s.ctx 0).inflight = []) ∧
    tyOr 8 = .int false (8 * 8) := by
  refine ⟨?_, by decide +kernel, by decide⟩
  intro i hi
  simp only [List.mem_cons, List.not_mem_nil, or_false] at hi
  rcases hi with rfl | rfl
  · exact ⟨⟨_, ⟨⟨rfl, rfl, rfl⟩, by decide +kernel⟩, by decide +kernel⟩,
      ⟨by decide, by decide, ⟨_, rfl, by decide, by decide +kernel, rfl, rfl⟩, rfl, rfl, rfl, rfl, rfl⟩,
      ⟨by decide, by decide, ⟨_, rfl, by decide, by decide +kernel, rfl, rfl⟩, rfl, rfl, rfl, rfl, rfl⟩⟩
  · exact ⟨⟨_, ⟨⟨rfl, rfl, rfl⟩, by decide +kernel⟩, by decide +kernel⟩,
      ⟨by decide, by decide, ⟨_, rfl, by decide, by decide +kernel, rfl, rfl⟩, rfl, rfl, rfl, rfl, rfl⟩,
      ⟨by decide, by decide, ⟨_, rfl, by decide, by decide +kernel, rfl, rfl⟩, rfl, rfl, rfl, rfl, rfl⟩⟩

/-- FaultDelivery, before issue: a pc outside all code, a header with a reserved bit, and a PARTSET at level S. -/
theorem test_witness_fault_found :
    (match (one { x0 with pc := 0x1000 }).fetchBundle 0 with | .xlate n => decide (n ≠ 10 ∧ n ≠ 13) | _ => false) = true ∧
    (match (State.reset.withFetchWord 128 0x200000).fetchBundle 0 with | .ill _ _ _ => true | _ => false) = true ∧
    (let s := (State.reset.withFetchWord 128 0x00000003_027F7F28_00000000_00000001).updCtx 0 fun x => { x with level := .S };
      (s.ctx 0).st = .ready ∧ (s.ctx 0).exiting = false ∧ (s.ctx 0).dying = none ∧ (s.ctx 0).bubble ≤ s.now 0 ∧
      (s.ctx 0).block = .none ∧ (s.ctx 0).stop = none ∧ (s.ctx 0).frz.fault = none ∧ s.launchWaits 0 = false ∧ s.tests = [] ∧
      (match s.fetchBundle 0 with
        | .bundle h size b =>
          let k := curOf 0 h size b ((s.ctx 0).resumed (s.now 0))
          !s.waits (runsOf 0 k k.before b.ops) && (match s.bundleFault k (runsOf 0 k k.before b.ops) with
            | some e => decide (e.cls ≠ 0x0E ∧ e.cls ≠ 0x0B)
            | none => false)
        | _ => false) = true) := by decide +kernel

/-- FaultDelivery: a fault that the handler takes, one whose handler waits for the host, one that no handler takes, one of the second
stage, and a member about to end. -/
theorem test_witness_faults :
    (let s := { coded with ctxs := [(0, { x0 with st := .frozen, frz := { fault := some ({ w0 := 2 }, 0, true) } })] };
      (s.ctx 0).frz.fault = some ({ w0 := 2 }, 0, true) ∧ (s.ctx 0).inflight = [] ∧ (s.ctx 0).level = .U ∧
      (s.tvec (s.ctx 0)).getLsbD 63 = true ∧ Rec.cls { w0 := 2 } = 2 ∧ s.handlerOk 0 ((s.tvec (s.ctx 0)).toNat % 2 ^ 56) = true ∧
      (s.ctx 0).frz.late = false ∧ (s.ctx 0).frz.breach = false ∧ (s.ctx 0).frz.urgent = none ∧ (s.ctx 0).frz.tdi = false ∧
      s.pkg.armed = none ∧ s.handlerWants 0 = none ∧ ((hosted s).handlerWants 0).isSome = true) ∧
    (let s := one { x0 with st := .frozen, frz := { fault := some ({ w0 := 2 }, 0, true) } };
      (s.ctx 0).dying = none ∧ (s.tvec (s.ctx 0)).getLsbD 63 = false) ∧
    Rec.cls { w0 := 0x00090000_0000000B } = 0x0B ∧ Rec.code { w0 := 0x00090000_0000000B } = 9 ∧
    (let s := { one { x0 with st := .frozen, quire := 1, dying := some {} } with quires := [someQuire] };
      (s.ctx 0).dying = some {} ∧ s.quire (s.ctx 0).quire = some someQuire ∧ someQuire.recorded = true ∧ s.cmds = [] ∧ s.calls = [] ∧
      s.eps = [] ∧ (s.ctx 0).inflight = [] ∧ (s.ctx 0).loadQ = []) := by decide +kernel

/-- FreezesAndBreaches: a late load, of a context that runs and of one in a breach, its arrival, a late group of a K-tile that is
not the last and of the last, a breach that has no late group left, and one of 65,536 cycles. -/
def someJob : Job :=
  { kt := 0, rung := 0, kA := 0, kB := 0, srcA := .desc, srcB := .desc, scA := false, scB := false, trn := false, rowsA := [], rowsB := [],
    start := 0, wait := 0, filled := false, left := 1 }

theorem test_witness_breach :
    (∀ x ∈ [x0, { x0 with st := .frozen, frz := { breach := true } }],
      Overdue (one { x with inflight := [⟨.s, 4, 0, none, 7, .L⟩] }) 0 ∧ x.frz.late = false) ∧
    (¬ Overdue (one { x0 with st := .frozen, frz := { late := true } }) 0) ∧
    (∀ n ∈ [1, 2], let k := { fetchCall with kt := n, n := n, jobs := [someJob], lat := 0 };
      (State.reset.core 0).breach = none ∧ k ∈ (calling k).calls ∧ k.core = 0 ∧ Late (calling k) k) ∧
    (let s := { calling fetchCall with cores := [(0, { breach := some ⟨0⟩ })], cols := [(0, { cycles := 65536 })] };
      (s.core 0).breach = some ⟨0⟩ ∧ (¬ Late s fetchCall) ∧ 0 + 65536 ≤ s.now (4 * 0)) := by
  refine ⟨?_, ?_, ?_, ?_⟩
  · intro x hx
    simp only [List.mem_cons, List.not_mem_nil, or_false] at hx
    rcases hx with rfl | rfl <;> exact ⟨⟨_, List.mem_singleton_self _, by decide, by decide, by decide, rfl⟩, rfl⟩
  · rintro ⟨l, h, -⟩
    simp [one, x0, State.ctx, tget] at h
  · intro n hn
    simp only [List.mem_cons, List.not_mem_nil, or_false] at hn
    rcases hn with rfl | rfl <;> exact ⟨rfl, List.mem_singleton_self _, rfl, _, _, rfl, by decide +kernel⟩
  · refine ⟨rfl, ?_, by decide +kernel⟩
    rintro ⟨j, l, h, -⟩
    cases h

/-- A context, or a member of `someQuire`, with nothing left to wait for. -/
theorem drained_one (x : Ctx) (q : List Quire) (h : x.inflight = [] ∧ x.loadQ = [] ∧ x.storeQ = []) :
    Drained { one x with quires := q } 0 :=
  ⟨h.1, ⟨h.2.1, h.2.2⟩, (fun _ h => nomatch h), (fun _ h => nomatch h)⟩

/-- StopsAndSaves: a stop of 65,536 cycles, an urgent one in a wait that it ends, a safe point, a claimed member, a frozen context
that is drained, a member whose image fits the frames, and one whose image does not. -/
theorem test_witness_saves :
    (let s := { one { x0 with stop := some ⟨0, false⟩ } with cols := [(0, { cycles := 65536 })] };
      (s.ctx 0).stop = some ⟨0, false⟩ ∧ 0 + 65536 ≤ s.now 0 ∧ (s.ctx 0).st ≠ .saving ∧ (s.ctx 0).st.atRest = false) ∧
    (let x := { x0 with stop := some ⟨0, true⟩, block := .yield 9 };
      x.st = .ready ∧ x.frz = {} ∧ x.dying = none ∧ x.exiting = false ∧ (one x).calls = []) ∧
    (let s := { fetched.updCtx 0 fun x => { x with quire := 1, stop := some ⟨0, false⟩ } with
        quires := [{ someQuire with letter := BitVec.ofNat 512 fetchVa }] };
      (s.ctx 0).st = .ready ∧ (s.ctx 0).bubble ≤ s.now 0 ∧
      (match s.fetchBundle 0 with | .bundle _ _ _ => true | _ => false) = true ∧
      lEntry (BitVec.ofNat 512 fetchVa) = (s.ctx 0).pc) ∧
    (let q := { someQuire with st := .claimed }; let s := { one { x0 with st := .claimed, quire := 1, stop := some ⟨0, false⟩ } with quires := [q] };
      (s.ctx 0).st = .claimed ∧ s.quire (s.ctx 0).quire = some q ∧ q.resuming = false) ∧
    (let x := { x0 with st := .frozen, frz := { urgent := some 0 } }; x.frz.fault = none ∧ x.block = .none ∧ Drained { one x with quires := [] } 0) ∧
    ((one { x0 with st := .frozen, frz := { late := true } }).ctx 0).frz.late = true ∧ { one x0 with phase := .events }.phase = .events ∧
    (let x := { x0 with st := .saving, quire := 1 };
      let s := { one x with quires := [someQuire], parts := [(0, { frames := List.range 8 })] };
      Drained { one x with quires := [someQuire] } 0 ∧ x.frameWait = false ∧ s.pkg.armed = none ∧ s.liveWants 0 = none ∧
      (match s.savePlan 0 [] with
        | some p => decide (0 < framesFor p.bytes.length ∧ framesFor p.bytes.length ≤ 8 ∧ framesFor p.bytes.length ≤ (s.part 0).frames.length)
        | none => false) = true) :=
  ⟨by decide +kernel, by decide, by decide +kernel, by decide +kernel, ⟨rfl, rfl, drained_one _ _ ⟨rfl, rfl, rfl⟩⟩, rfl, rfl,
    drained_one _ _ ⟨rfl, rfl, rfl⟩, rfl, rfl, by decide +kernel, by decide +kernel⟩

/-- A letter of owner 0, priority 7 and one member, that enters the code of `coded`, with arguments at 0x80000 and its completion
word at 0x90008. -/
def someLetter : BitVec 512 := BitVec.ofNat 512
  (0x80100 + 0x80000 * 2 ^ 64 + 0x90008 * 2 ^ 128 + 2 ^ 192 + 7 * 2 ^ 200 + 2 ^ 204)

/-- `coded` with no slices, writable by both stages, and with a slice of tenant 0 that has run since cycle 0. -/
def settled : State :=
  words (coded.updPart 0 fun p => { p with slices := [], run := some ⟨0, 5, 0⟩ })
    [(0x30000, 2 ^ 63 + 2 ^ 62 + 2 ^ 61 + 2 ^ 60), (0x60000, 2 ^ 63 + 2 ^ 62 + 2 ^ 61 + 2 ^ 60 + 2 ^ 58)]

/-- `settled` with letters or saved quires at the head of queue 7. -/
def queued (l : List Letter) (q : List Quire) (r : Option Nat) : State :=
  { (settled.updPart 0 fun p => { p with queues := [(7, l)], reserving := r, savedPass := [(1, 1024)] }) with quires := q }

/-- Scheduling: a pass, an empty queue, a head that is placed, and heads that are not: with no slice running, with another tenant's,
below a reservation, and with no room; heads that reserve, a letter and a saved quire. -/
theorem test_witness_pass :
    (coded.part 0).en = true ∧ (coded.part 0).tdi ≠ .error ∧ coded.cycle % 64 = 0 ∧ coded.savedAt 0 7 = [] ∧ (coded.part 0).queue 7 = [] ∧
    [4, 9].Nodup ∧ [4, 9][1]? = some 9 ∧ lKind someLetter ≠ 2 ∧ lTenant someLetter = 0 ∧
    (let s := queued [⟨someLetter, 0, false⟩] [] none;
      s.savedAt 0 7 = [] ∧ (s.part 0).queue 7 = [⟨someLetter, 0, false⟩] ∧ (s.part 0).run = some ⟨0, 5, 0⟩ ∧
      (s.place 0 someLetter none).isSome = true ∧ (s.owner (lOwner someLetter)).hdr.getLsbD 63 = true ∧ s.letterOk 0 someLetter = true ∧
      s.pkg.armed = none ∧ s.letterWants 0 someLetter = none ∧
      ((hosted s).place 0 someLetter none).isSome = true ∧ ((hosted s).letterWants 0 someLetter).isSome = true ∧
      (s.updPart 0 fun p => { p with cols := 0 }).place 0 someLetter none = none ∧
      ((s.updPart 0 fun p => { p with run := none }).part 0).run = none ∧
      ((s.updPart 0 fun p => { p with run := some ⟨1, 5, 0⟩ }).part 0).run = some ⟨1, 5, 0⟩ ∧
      1 ≠ lTenant someLetter) ∧
    ((queued [⟨someLetter, 0, false⟩] [] (some 8)).part 0).reserving = some 8 ∧
    (queued [⟨someLetter, 1024, false⟩] [] (some 6)).reserves 0 7 = true ∧
    (let q := { someQuire with letter := someLetter, st := .saved }; let s := queued [] [q] none;
      s.savedAt 0 7 = [q] ∧ 1024 ≤ tget 0 (s.part 0).savedPass q.id ∧ (s.part 0).reserving = none) := by decide +kernel

/-- Scheduling: writes of the letterbox, accepted, at a full queue, and refused for a field and for an owner of no partition; a counter
of a partition with no slices. -/
theorem test_witness_letterbox :
    (let s := settled.updPkg fun k => { k with boot := .running };
      s.pkg.boot = .running ∧ (s.part 0).en = true ∧ (s.part 0).tdi ≠ .error ∧ (toBytes 64 someLetter.toNat).length = 64 ∧
      BitVec.ofNat 512 (ofBytes (toBytes 64 someLetter.toNat)) = someLetter ∧ lFieldsOk someLetter = true ∧ s.letterOk 0 someLetter = true ∧
      (s.part 0).arriving = [] ∧ s.letterWants 0 someLetter = none ∧ s.pkg.armed = none ∧
      ((hosted s).letterWants 0 someLetter).isSome = true ∧ ((s.updPart 0 fun p => { p with arriving := [0] }).part 0).arriving ≠ [] ∧
      ((s.part 0).queue (lPrio someLetter)).length < 64 ∧
      64 ≤ (((s.updPart 0 fun p => { p with queues := [(7, List.replicate 64 ⟨someLetter, 0, false⟩)] }).part 0).queue (lPrio someLetter)).length ∧
      (s.part 0).lbxdrop = 0 ∧ lFieldsOk (someLetter ||| 2 ^ 203) = false ∧
      s.letterOk 0 (BitVec.ofNat 512 (2 ^ 208)) = true ∧
      (s.owner (lOwner (someLetter ||| 2 ^ 56))).part = none) ∧
    (let s := { settled with parts := [(0, { chans := List.range 8 })] };
      let pa := devPa 0 ((s.part 0).meta_ * 65536 + (s.part 0).chans.length * 3 * 2 ^ 19 + 8 * 7);
      Clear s 0 ∧ pa % 8 = 0 ∧ s.l2 = [] ∧ ∀ i, i < 8 → (s.memKey (pa + i)).isSome = true) :=
  ⟨by decide +kernel, ⟨by decide +kernel, by decide +kernel, by decide +kernel⟩, by decide +kernel, by decide +kernel, by decide +kernel⟩

/-- Scheduling: a quire that starts, of each KIND, a context that retires, and a dismissed handler; a quire of which every member has
retired, whose completion word has no translation, and one whose word goes to memory; an aged context. -/
theorem test_witness_quires :
    (let q := { someQuire with st := .claimed }; let s := { one { x0 with st := .claimed, quire := 1 } with quires := [q] };
      s.quire 1 = some q ∧ (s.part 0).tdi ≠ .error ∧ q.wait ≤ s.cycle ∧ (∀ c ∈ q.members, (s.ctx c).stop = none) ∧ q.resuming = false ∧
      q.members.length = q.size ∧ lKind q.letter ≠ 1 ∧ lKind (BitVec.ofNat 512 (2 ^ 207)) = 1 ∧
      s.pkg.armed = none ∧ s.framesBusy q = false ∧ s.startWants q = none ∧
      (let s := { s with cores := [(0, { breach := some ⟨0⟩ })] };
        (s.core (coreOf 0)).breach.isSome = true ∧ s.spared (coreOf 0) 0 = false ∧ s.startWants q = none)) ∧
    (let x := { x0 with exiting := true }; x.st = .ready ∧ x.replay = [] ∧ Drained { one x with quires := [] } 0) ∧
    (let x := { x0 with st := .dormant, dismissed := true }; ((one x).ctx 0).st = .dormant ∧ ((one x).ctx 0).dismissed = true) ∧
    (let s := { one { x0 with st := .retired, quire := 1 } with quires := [someQuire] };
      s.quire 1 = some someQuire ∧ someQuire.images = [] ∧ (∀ c ∈ someQuire.members, (s.ctx c).quire = 1 ∧ (s.ctx c).st = .retired) ∧
      (match s.walkOwn 0 (lTenant someQuire.letter) (lDone someQuire.letter) with | .err n => decide (n ≠ 13) | _ => false) = true) ∧
    (let q := { someQuire with letter := someLetter };
      let s := { settled with ctxs := [(0, { x0 with st := .retired, quire := 1 })], quires := [q] };
      s.quire 1 = some q ∧ (∀ c ∈ q.members, (s.ctx c).quire = 1 ∧ (s.ctx c).st = .retired) ∧ Clear s 0 ∧ s.pkg.armed = none ∧
      (match s.walkOwn 0 (lTenant q.letter) (lDone q.letter) with
        | .ok x =>
          let pa := x.pa + lDone q.letter % 2 ^ x.size
          decide (s.leafErr .S .write false x pa = none ∧ x.pin = none ∧ x.elide = false ∧ pa % 8 = 0 ∧
            (List.range 8).all (fun i => (s.memKey (pa + i)).isSome) = true)
        | _ => false) = true) ∧
    ((one { x0 with age := 64 }).ctx 0).st = .ready ∧ 64 ≤ ((one { x0 with age := 64 }).ctx 0).age :=
  ⟨by decide +kernel, ⟨rfl, rfl, drained_one _ _ ⟨rfl, rfl, rfl⟩⟩, ⟨rfl, rfl⟩, by decide +kernel,
    ⟨by decide +kernel, by decide +kernel, ⟨by decide +kernel, by decide +kernel, by decide +kernel⟩, by decide +kernel, by decide +kernel⟩,
    rfl, by decide⟩

/-- Scheduling: a slice that is over with no work left, and one over with work of the same tenant and of the next. -/
theorem test_witness_slices :
    (let s := { State.reset with parts := [(0, { run := some ⟨0, 5, 4⟩ })], cycle := 5 };
      (s.part 0).run = some ⟨0, 5, 4⟩ ∧ 4 < s.cycle ∧ 5 ≤ s.cycle ∧ ∀ i, i < 8 → ¬ HasWork s 0 i) ∧
    (∀ n ∈ [0, 1], let s := { State.reset with
        parts := [(0, { tenants := [(n, { en := true, slice := 100 })], run := some ⟨0, 5, 4⟩,
                        queues := [(0, [⟨BitVec.ofNat 512 (n * 2 ^ 213), 0, false⟩])] })], cycle := 5 };
      (s.part 0).run = some ⟨0, 5, 4⟩ ∧ NextWork s 0 0 n) := by
  have off : ∀ (s : State) n, (tget {} (s.part 0).tenants n).en = false → ¬ HasWork s 0 n := fun s n h w => by
    rw [w.1] at h; cases h
  refine ⟨⟨rfl, by decide, by decide, fun i _ => off _ _ rfl⟩, ?_⟩
  intro n hn
  simp only [List.mem_cons, List.not_mem_nil, or_false] at hn
  rcases hn with rfl | rfl
  · refine ⟨rfl, ⟨rfl, .inr ⟨_, List.mem_singleton_self _, _, List.mem_singleton_self _, by decide +kernel⟩⟩, 7, by decide, rfl, ?_⟩
    intro j hj
    exact off _ _ (by interval_cases j <;> rfl)
  · exact ⟨rfl, ⟨rfl, .inr ⟨_, List.mem_singleton_self _, _, List.mem_singleton_self _, by decide +kernel⟩⟩, 0, by decide, rfl, fun j hj => by omega⟩

/-- Governing: writes that wait for the tick, the cycle of reset, a column at TLIM whose users all stand at their
floor and one that is cool, and a column that steps up. -/
theorem test_witness_governor :
    (let o : Owner := { hdr := 0, pendHdr := some 0x800000000000E000, pendLat := [(2, 4096)] };
      o.pendHdr = some 0x800000000000E000 ∧ o.pendLat = [] ++ [(2, 4096)] ∧ hValid o.hdr = false ∧ hValid 0x800000000000E000 = true) ∧
    State.reset.cycle % 256 = 0 ∧ State.reset.cycle % 4096 = 0 ∧
    (let s := { State.reset with cols := [(3, { t0 := 9500 })] };
      (s.pkg.tlim : Int) ≤ max (s.col 3).t0 (s.col 3).t1 ∧ 4 < (s.col 3).q ∧ s.users = [] ∧ s.calls = [] ∧
      max (s.col 2).t0 (s.col 2).t1 < (s.pkg.tlim : Int)) ∧
    (let s := { State.reset with cols := [(3, { q := 7, cool := 16, since := 16 })] };
      (s.col 3).q < 8 ∧ 16 ≤ (s.col 3).cool ∧ 16 ≤ (s.col 3).since) := by decide +kernel

/-- Governing: two enabled partitions, whose owners use instances of their own; an instance over its supply narrows its one user, which
stands above its floor. -/
def governed : State :=
  { State.reset with
    parts := [(0, { en := true, cols := 1, slices := List.range 32, chans := List.range 8 }),
              (1, { en := true, cols := 2, slices := [32], chans := [8] })],
    demand := [(0, 10 ^ 9)], users := [(0, 0, 0), (0, 4, 1)], owners := [(0, { hdr := 0x800000000000E100, part := some 0 })] }

theorem test_witness_narrows :
    (governed.parts.map Prod.fst).Nodup ∧ (governed.part 0).en = true ∧ (governed.part 1).en = true ∧
    (∀ p q x y o, p ≠ q → (governed.part p).en = true → (governed.part q).en = true → x ∈ (governed.part p).instances →
      y ∈ (governed.part q).instances → Used governed x o → ¬ Used governed y o) ∧
    (0, 0) ∈ (governed.part 0).instances ∧ governed.isOver 0 (0, 0) = true ∧ Used governed (0, 0) 0 ∧
    hRung (ticked governed 0) < hFloor (ticked governed 0) ∧ ∀ n, Used governed (0, 0) n → n = 0 := by
  have used : ∀ x o, Used governed x o → x = (0, 0) ∧ o = 0 ∨ x = (0, 4) ∧ o = 1 := by
    rintro ⟨a, b⟩ o (h | ⟨k, hk, -⟩)
    · simpa [governed, and_assoc] using h
    · cases hk
  have only : ∀ p, (governed.part p).en = true → p = 0 ∨ p = 1 := by
    intro p h
    by_contra hp
    rw [not_or] at hp
    have e : governed.part p = {} := by simp [governed, State.part, tget, Ne.symm hp.1, Ne.symm hp.2]
    rw [e] at h; cases h
  have zero : (0, 0) ∉ (governed.part 1).instances := by decide +kernel
  have one : (0, 4) ∉ (governed.part 0).instances := by decide +kernel
  refine ⟨by decide +kernel, by decide +kernel, by decide +kernel, ?_, by decide +kernel, by decide +kernel, .inl (by decide +kernel),
    by decide +kernel, fun n h => ?_⟩
  · intro p q x y o hpq hp hq hx hy h h'
    rcases used _ _ h with ⟨rfl, rfl⟩ | ⟨rfl, rfl⟩ <;> rcases used _ _ h' with ⟨rfl, h'⟩ | ⟨rfl, h'⟩ <;>
      rcases only p hp with rfl | rfl <;> rcases only q hq with rfl | rfl <;> simp_all
  · rcases used _ _ h with ⟨-, h⟩ | ⟨h, -⟩
    · exact h
    · cases h

/-- The marker of R249 as a queue entry. -/
def someMark : QEntry :=
  { id := 1, pc := 0, slot := .W, op := .mark ⟨0x7F, false, 4, 1, 0, 0x7F, false, false, false, false, 0, 0⟩, base := 0, index := 0, data := 0,
    guard := none, sense := false, level := .U, tile := 0, addrs := [], got := [], tok := none, due := 0, wait := 0, reach := 0, arr := 0,
    known := false, units := [] }

/-- EngineEvents: a marker behind a store that has reached its scope, a position current and one not, one whose context takes it, an arrival, a word held in a
switch, a session set aside, and a merge that waits for room in the map store. -/
theorem test_witness_engine_events :
    (let st : QEntry := { someMark with id := 0, op := .st ww, reach := 2 };
      let s := one { x0 with loadQ := [someMark], storeQ := [st, someMark] };
      (s.ctx 0).loadQ = someMark :: [] ∧ isMark someMark.op = true ∧ markOut someMark.op = some 4 ∧
      (∀ e ∈ (s.ctx 0).storeQ.takeWhile (fun e => !(e.id = someMark.id)), markScope someMark.op < 3 ∧ markScope someMark.op + 1 ≤ e.reach) ∧
      (s.ctx 0).readFrom = [] ∧ someMark.tok = none ∧ s.calls = []) ∧
    ((∀ j, j < 4 → (State.reset.core 0).position j ≠ some (State.reset.cycle % 512)) ∧
      ((wheeled (.ldsc lw)).core 0).position 3 = some ((wheeled (.ldsc lw)).cycle % 512) ∧ scIndex (.ldsc lw) = some 3 ∧
      isHint (.ldsc lw) = false) ∧
    (let s := { (State.reset.withFetchWord 128 0x00407F03_02017F02_00000000_00000020).updCtx 0 fun x =>
          { x with s := [(2, BitVec.ofNat 64 fetchVa)] } with cores := [(0, { wheel := 2 ^ 39 })] };
      s.scQueued 0 = false ∧ s.takesTurn 0 0 = true ∧ (s.core 0).position 3 = some (s.cycle % 512) ∧
      (match s.fetchBundle 0 with | .bundle _ _ b => decide (b.ops = [(.L, .ldsc lw)]) | _ => false) = true ∧
      (match (s.withTurn 0 0).look 0 with | .ready _ _ _ => true | _ => false) = true ∧
      (∀ y ∈ s.scOps 0 0, (s.withTurn 0 0).scStays y = false)) ∧
    State.reset.pkg.armed = none ∧
    (let a : Arrival := ⟨1, 2, 3, 0⟩; let s := { one { x0 with st := .dormant, quire := 1, arrivals := [a] } with quires := [someQuire] };
      (s.ctx 0).arrivals = a :: [] ∧ (s.ctx 0).st = .dormant ∧ (s.ctx 0).dismissed = false ∧ s.quire (s.ctx 0).quire = some someQuire) ∧
    (let w : SwWord := ⟨0, 1, 0, 5⟩; (State.reset.updPkg fun k => { k with switchWords := [w] }).pkg.switchWords[0]? = some w) ∧
    (let s := { State.reset with quads := [(0, { aside := [1] })] }; (s.quad 0).session = none ∧ (s.quad 0).aside = 1 :: [] ∧ (s.quad 0).smQ = []) ∧
    (let e := { someCmd (.tmmatch ew) with held := true }; let s := { one x0 with cmds := [e], quads := [(0, { tmQ := [1] })] };
      (s.quad 0).tmQ = 1 :: [] ∧ s.cmd 1 = some e ∧ e.held = true ∧ s.mapsUsed (colOf e.ctx) < 16) := by decide +kernel

/-- EngineEvents: an allocation of each level, its handle free and taken. -/
theorem test_witness_allocation :
    let e := fun (imm : Nat) => { someCmd (.talloc ew) with imm := BitVec.ofNat 32 imm, acted := false };
    let s := fun (imm : Nat) (l : Tbl Nat) => { State.reset with
      ctxs := [(0, { x0 with quire := 1, members := 1, tiles := l })], quires := [someQuire], cmds := [e imm],
      cores := [(0, { allocQ := [1] })], parts := [(0, { cols := 1 })] };
    (∀ imm ∈ [16, 16 + 2 ^ 16, 16 + 2 ^ 16 + 2 ^ 24, 16 + 2 ^ 17], (e imm).imm.toNat = imm ∧ (s imm []).allocQ 0 = 1 :: [] ∧
      (s imm []).cmd 1 = some (e imm) ∧ (e imm).acted = false ∧ 1 ≤ (e imm).opb ∧ (e imm).opb < 2 ^ 20 ∧ (s imm []).zeroing = [] ∧
      0 < (s imm []).baseFree 0 0 ∧ (s imm []).coreUsed 0 = 0 ∧ (s imm []).quire 1 = some someQuire ∧ someQuire.members[0]? = some 0 ∧
      tget 0 ((s imm []).ctx 0).tiles (e imm).opa = 0 ∧ tget 0 ((s imm [(2, 9)]).ctx 0).tiles (e imm).opa ≠ 0) := by decide +kernel

/-- EngineEvents: a parcel that waits since reset, and deliveries of MCAST and of COPY, one failed already. -/
theorem test_witness_deliveries :
    (let x : Parcel := ⟨0, 0, 8, 0, 1, 0, 2, 0, false, 0, [], 1, 0, 0, true⟩;
      let s := { State.reset with parts := [(0, { waiting := [x] })], cycle := 2 ^ 24, cmds := [someCmd (.mcast ew)] };
      (s.part 0).waiting = [] ++ x :: [] ∧ x.since + 2 ^ 24 ≤ s.cycle ∧ s.cmd x.cmd = some (someCmd (.mcast ew)) ∧
      (someCmd (.mcast ew)).fails = []) ∧
    (let d : Delivery := ⟨3, 1, 0, 0⟩; let e := { someCmd (.mcast ew) with dests := [(2 ^ 63, 0)] };
      let s := { State.reset with dlv := [d], cmds := [e] };
      findFirst (fun d => d.id = 3) s.dlv = some d ∧ d.wait ≤ s.cycle ∧ s.cmd d.cmd = some e ∧ isMcast e.op = true ∧
      (e.dests.getD d.dest (0, 0)).1.testBit 63 = true ∧ e.fails = [] ∧ isMcast (someCmd (.copyMemToMem ew)).op = false) := by decide +kernel

/-- The unit of STRUCT `k`, unit `u` and location `l`. -/
def unitOf (k u l : Nat) : Word := BitVec.ofNat 64 (k * 2 ^ 60 + u * 2 ^ 48 + l)

/-- ErrorsAndTests: a unit of each STRUCT, at the first and last register; what each error of Table 25.5 strikes: a dirty way and a clean one, a page, a
row of a tile of each level, an accumulator tile and a latch, a call of a core, a TLB entry, a map and a session. -/
theorem test_witness_errors :
    State.reset.pkg.armed = none ∧ (∀ k ∈ List.range 16, unitKnown (unitOf k 0 0).toNat = true ∧ (unitD (unitOf k 0 0).toNat).struct = k) ∧
    unitOk (unitOf 5 127 (3 * 2 ^ 16 + 159 * 2 ^ 8)).toNat = true ∧
    (∀ e ∈ State.reset.bootPart0.parts, e.2.tables = []) ∧
    (∀ b ∈ [true, false], let w : Way := ⟨b, 0, 0, 0, false, false, 0⟩;
      let s := { State.reset.bootPart0 with l2 := [(0, { ways := [(0, some w)] })], ctxs := [(0, x0)] };
      tget none (s.l2set (64 * 0 + bits 0 9 4)).ways (0 % 16) = some w ∧ s.unitPart (unitD (unitOf 0 0 0).toNat) = 0 ∧
      w.gen = (s.part 0).l2gen ∧ w.dirty = b ∧ (s.ctx 0).part = 0 ∧ (s.ctx 0).owner = w.owner ∧
      s.unitPart (unitD (unitOf 1 0 0).toNat) = 0 ∧ s.unitPart (unitD (unitOf 2 0 0).toNat) = 0) ∧
    (∀ b ∈ [false, true],
      let y : Tile := { id := 5, level := if b then .BASE else .LOCAL, core := 0, stack := 0, part := 0, quire := 0, member := 0, esize := 1,
                        cols := 16, rows := 4, place := [(0, 1024)], bytes := [], poison := [], freed := false };
      let s := { State.reset with tiles := [y] }; s.tileAt b 0 0 = some (y, 0) ∧ s.tile 5 = some y) ∧
    (let s := { State.reset with
        cores := [(0, { accs := [(0, { holder := some 0 })], lats := [(0, { holder := some 0 })] })], calls := [fetchCall],
        quads := [(0, { session := some ⟨0, 0, 0, 0, 0, 0, .U, 0, 0, [], [], 0, 0, false⟩ })],
        ctxs := [(0, { x0 with maps := [(2, .valid 1 1 [0] [0] [1] [1] false)] })] };
      (s.acc 0 0).holder = some 0 ∧ (s.latchT 0 0).holder = some 0 ∧ fetchCall ∈ s.calls ∧
      coreOf fetchCall.ctx = 0 ∧ s.mapAt 0 0 = some (0, 2) ∧ (s.quad 0).session.isSome = true) := by decide +kernel

/-- ErrorsAndTests: tests that are over, with a TRANSIENT and a LASTING verdict, of a frame, a page and a core; a switch that holds a
mark, with an accumulate-on-write in flight to it. -/
theorem test_witness_verdicts :
    (∀ k ∈ [0, 2, 5], ∀ d ∈ [1, 2],
      let x : SelfTest := ⟨unitOf k 0 0, 0, some 0, BitVec.ofNat 64 (d * 2 ^ 42), 0, []⟩; let s := { State.reset with tests := [x] };
      s.tests[0]? = some x ∧ x.ends ≤ s.testNow (unitD x.desc.toNat) ∧ (bits x.w0.toNat 43 42 = 1 ↔ d = 1) ∧
      (unitD (unitOf 5 0 0).toNat).inCore = true ∧ pageOf 0 ∉ s.pkg.lastPages ∧ s.guardOf 0 = none) ∧
    (let e := { someCmd (.acwAdd .i32 ew) with dests := [(0, 0)] };
      let s := { State.reset.updPkg fun k => { k with marks := [(16, Config.switchOf 0)] } with cmds := [e] };
      s.pkg.hflogNpg = 0 ∧ (16, Config.switchOf 0) ∈ s.pkg.marks ∧ s.cmd 1 = some e ∧ isMcast e.op = false ∧ e.begun = true ∧
      (0, 0) ∈ e.dests ∧ Config.switchOf (0, 0).1 = Config.switchOf 0) :=
  ⟨by decide +kernel, rfl, List.mem_singleton_self _, rfl, rfl, rfl, List.mem_singleton_self _, rfl⟩

/-- SecurityEvents: partition 0 in each TDISP state, with and without link IDE, and the device in each state of its boot. -/
theorem test_witness_security :
    (let s := coded.updPkg fun k => { k with ide := true };
      s.pkg.ide = true ∧ (s.part 0).en = true ∧ (s.part 0).tdi = .unlocked ∧
      (let e := s.peekWord 0 ((s.part 0).ssbase * 65536 + 8 * 0); e.testBit 63 = true ∧ e.testBit 62 = false ∧ s.bad2 0 0 e = false)) ∧
    coded.pkg.ide = false ∧
    (∀ d ∈ [Tdi.unlocked, .locked, .run, .error], ((coded.updPart 0 fun p => { p with tdi := d }).part 0).tdi = d) ∧
    ((coded.updPart 0 fun p => { p with tdi := .error }).part 0).l2gen + 1 < 2 ^ 16 ∧ ((one x0).ctx 0).part = 0 ∧ ((one x0).ctx 0).st ≠ .empty ∧
    ∀ b ∈ [Boot.booting, .running, .recovery, .selfTest], (State.reset.updPkg fun k => { k with boot := b }).pkg.boot = b := by decide +kernel

/-- HostAccesses: the bounds of the power budget, records of partitions unlocked and locked, HDM ranges, accesses inside and outside them,
to a page protected, to a word that a switch holds, and of a TDI in ERROR; snoops of an empty and of a dirty frame, and the host's
answers. -/
theorem test_witness_host :
    (State.reset.updPkg fun k => { k with boot := .running }).pkg.boot ≠ .booting ∧ 400 ≤ (400 : BitVec 64).toNat % 65536 ∧
    (1600 : BitVec 64).toNat % 65536 ≤ 1600 ∧ (399 : BitVec 64).toNat % 65536 < 400 ∧ 1600 < (1601 : BitVec 64).toNat % 65536 ∧
    (coded.part 0).tdi = .unlocked ∧ 8 * chanBytes ≤ (coded.part 0).chans.length * chanBytes ∧
    (coded.part 0).chans.length * chanBytes < 8 * chanBytes + 1 ∧
    (let s := settled.updPart 0 fun p => { p with hdm := some (0x1000, 0x1000) };
      s.hdmOf 0x1F80 = some (0, devPa 0 0xF80) ∧ s.hdmOf 0x2000 = none ∧ s.pkg.marks = [] ∧ s.tests = [] ∧ s.pkg.armed = none ∧
      s.pkg.tBits = [] ∧ s.pkg.cBits = [] ∧ s.pkg.poison = [] ∧ (s.part 0).slices = [] ∧ s.guardOf (devPa 0 0xF80) = none ∧
      devPa 0 0xF80 % 128 + (toBytes 128 0).length ≤ 128 ∧ (s.memKey (devPa 0 0xF80)).isSome = true ∧
      s.hdmOf 0x1000 = some (0, devPa 0 0) ∧ (s.updPkg fun k => { k with marks := [(0, 0)] }).marked (devPa 0 0) 1 = true ∧
      ((s.updPart 0 fun p => { p with tdi := .error }).part 0).tdi = .error) ∧
    2 ^ 51 + (2 ^ 51 - 1) + [(0 : Byte)].length ≤ 2 ^ 52 ∧ State.reset.l2 = [] ∧
    (let y : Way := ⟨true, 2 ^ 44 + 3, 0, 0, false, false, 5⟩; let x : L2Set := { ways := [(0, some y)] };
      let s := { State.reset.bootPart0 with l2 := [(64, x)] };
      s.l2 = [(64, x)] ∧ x.ways = [(0, some y)] ∧ y.line = 2 ^ 44 + 3 ∧
      (s.parts.find? fun e => e.2.slices.contains (64 / 64)).map Prod.fst = some 0 ∧ y.gen = (s.part 0).l2gen ∧ y.dirty = true ∧ y.elide = false) ∧
    (let s := State.reset.bootPart0.updPkg fun k => { k with snoops := [4], atsReq := [9] };
      s.pkg.snoops.contains 4 = true ∧ s.pkg.snoops.contains 5 = false ∧ s.pkg.atsReq.contains 9 = true ∧ s.pkg.atsReq.contains 8 = false) ∧
    (settled.part (paPart (128 * 4))).slices = [] ∧ (settled.memKey (128 * 4)).isSome = true := by decide +kernel

/-- HostAccesses: a protected page, for a write and for what a back-invalidation brings; a line that takes it, and a TDI in ERROR. -/
theorem test_witness_guarded :
    (let s := settled.updPart 0 fun p => { p with tdi := .locked, tables := [0] };
      s.guardOf (devPa 0 0xF80) = some 0 ∧ (s.part 0).tdi ≠ .error ∧ s.pkg.marks = [] ∧ s.tests = [] ∧ toBytes 128 0 ≠ [] ∧
      devPa 0 0xF80 % 65536 + (toBytes 128 0).length ≤ 65536 ∧ s.guardOf (128 * 4) = some 0 ∧ (s.part (paPart (128 * 4))).tdi ≠ .error) ∧
    (toBytes 128 0).length = 128 ∧ (settled.part (paPart (128 * 4))).tdi ≠ .error ∧ settled.guardOf (128 * 4) = none ∧
    settled.pkg.armed = none ∧ settled.pkg.tBits = [] ∧ settled.pkg.cBits = [] ∧
    ((settled.updPart 0 fun p => { p with tdi := .error }).part (paPart (128 * 4))).tdi = .error := by decide +kernel

/-- LinksResetsAndBoot: a trained link, flits of each kind, and images that pass and fail the checks of the boot. -/
theorem test_witness_boot :
    tget false (State.reset.updPkg fun k => { k with links := [(1, true)] }).pkg.links 1 = true ∧ State.reset.pkg.armed = none ∧
    (Clear { State.reset with parts := [(0, { chans := List.range 8 })] } (paPart 0) ∧ 0 % 128 + (toBytes 8 0).length ≤ 128 ∧
      (State.reset.bootPart0.memKey 0).isSome = true ∧ State.reset.bootPart0.guardOf 0 = none) ∧
    (let s := State.reset.bootPart0.updPkg fun k => { k with cBits := [0], marks := [(0, 2)], switchWords := [⟨0, 1, 0, 5⟩] };
      pageOf 0 ∈ s.pkg.cBits ∧ pageOf 0 ∉ s.pkg.tBits ∧ pageOf 65536 ∉ s.pkg.cBits ∧ s.marked 0 8 = true ∧ s.memKey 0 = some 0 ∧
      (0 / 8, 2) ∈ s.pkg.marks ∧ s.pkg.hostHas = [] ∧ s.switchHeld 1 64 8 = false ∧ ⟨0, 1, 0, 5⟩ ∈ s.pkg.switchWords ∧
      pageOf 0 ∈ (s.updPkg fun k => { k with tBits := [0] }).pkg.tBits) ∧
    (let y : Tile := { id := 5, level := .LOCAL, core := 0, stack := 0, part := 0, quire := 1, member := 0, esize := 1, cols := 64, rows := 4,
                       place := [(0, 256)], bytes := [], poison := [], freed := false };
      let q := { someQuire with letter := BitVec.ofNat 512 (7 * 2 ^ 224) };
      let s := { one { x0 with quire := 1, tiles := [(3, 5)] } with quires := [q], tiles := [y] };
      s.quireSeq 0 7 = some q ∧ s.memberTile q 0 3 = some y ∧ 0 % y.pitch = 0 ∧ (toBytes 64 0).length ≤ y.pitch ∧
      0 / y.pitch + 1 ≤ y.rows ∧ (s.memberCtx q 0).isSome = true ∧ s.resident y = true ∧ s.tile y.id = some y ∧ s.quireSeq 0 8 = none) ∧
    State.reset.episode (.pod 1 0) 3 = none ∧
    State.reset.pkg.boot = .booting ∧ State.reset.pkg.staged = none ∧ State.reset.pkg.flash = none ∧
    (let x : List Byte × Word × Nat × Bool × Bool := ([], 1, 0, true, false); let y : List Byte × Word × Nat × Bool × Bool := ([], 1, 0, false, false);
      (x.2.2.2.1 = true ∧ x.2.2.1 < 2 ∧ State.reset.pkg.rollback ≤ x.2.1.toNat) ∧ y.2.2.2.1 = false ∧
      ∀ z ∈ [x, y], (State.reset.updPkg fun k => { k with staged := some z }).pkg.staged = some z) ∧
    (∀ e ∈ State.reset.l2, e.2 = State.reset.l2set e.1) ∧ ∀ e ∈ State.reset.cores, e.2 = State.reset.core e.1 := by
  refine ⟨by decide, rfl, ⟨⟨by decide +kernel, by decide +kernel, by decide +kernel⟩, by decide, by decide +kernel, by decide +kernel⟩, ?_⟩
  exact ⟨by decide +kernel, by decide +kernel, rfl, rfl, rfl, rfl, ⟨by decide, rfl, by decide⟩, by decide +kernel, by decide +kernel⟩

/-- MatrixArithmetic: a group that is whole, one that is padded, and a job that is not, and then is, filled by its last row. -/
theorem test_witness_matrix_arithmetic :
    ([.fin 1 0, .fin 1 1] : List Ext).length = 2 ∧ 0 < ([.fin 1 0] : List Ext).length ∧ ([.fin 1 0] : List Ext).length < 4 ∧
    someJob.rowsA.length ≤ 64 ∧ (someJob.rowsB.headD []).length ≤ 64 ∧
    (let k := { fetchCall with jobs := [someJob] };
      k.jobs = someJob :: [] ∧ someJob.rowsB.length < k.rowCount true ∧ k.rowCount false ≤ (someJob.rowsA ++ [[]]).length ∧
      k.rowCount true ≤ ([[], [], []] ++ [[]] : List (List Ext)).length) := by decide +kernel

end Sys2Proof.Tests
end

section
/-! PROOFS. Storage: bytes of memory and of tiles after a write (O34). -/

namespace Sys2Proof.Proofs

open Sys2Proof Sys2Proof.Machine Sys2Proof.Safety

/-! Runs of writes in a table. -/

section Table
variable {α : Type} [DecidableEq α] (d : α)

/-- A run of writes leaves every key outside it alone. -/
theorem tget_tsets_outside (l : List α) : ∀ (t : Tbl α) {n a : Nat}, a < n ∨ n + l.length ≤ a →
    tget d (tsets d t n l) a = tget d t a := by
  induction l with
  | nil => exact fun _ _ _ _ => rfl
  | cons x l ih =>
    intro t n a h
    rw [List.length_cons] at h
    calc tget d (tsets d (tset d t n x) (n + 1) l) a
        = tget d (tset d t n x) a := ih _ (by omega)
      _ = tget d t a := tget_tset_ne d t x (by omega)

/-- Each key of a run of writes holds the value written at its place. -/
theorem tget_tsets_inside (l : List α) : ∀ (t : Tbl α) (n : Nat) {i : Nat}, i < l.length →
    tget d (tsets d t n l) (n + i) = l.getD i d := by
  induction l with
  | nil => exact fun _ _ _ h => absurd h (Nat.not_lt_zero _)
  | cons x l ih =>
    intro t n i h
    cases i with
    | zero =>
      calc tget d (tsets d (tset d t n x) (n + 1) l) n
          = tget d (tset d t n x) n := tget_tsets_outside d l _ (.inl (Nat.lt_succ_self n))
        _ = x := tget_tset_self d t n x
    | succ i =>
      have e := ih (tset d t n x) (n + 1) (Nat.lt_of_succ_lt_succ h)
      rwa [Nat.add_assoc, Nat.add_comm 1 i] at e

end Table

/-! Memory. -/

/-- A byte written leaves every byte that stands elsewhere alone. -/
theorem rawByte_setRawByte_ne (s : State) {pa a : Nat} (b : Byte) (h : s.memKey a ≠ s.memKey pa) :
    (s.setRawByte pa b).rawByte a = s.rawByte a := by
  unfold State.setRawByte
  cases hk : s.memKey pa with
  | none => rfl
  | some k =>
    show (match s.memKey a with | some j => tget 0 (tset 0 s.mem k b) j | none => 0) = s.rawByte a
    unfold State.rawByte
    cases ha : s.memKey a with
    | none => rfl
    | some j => exact tget_tset_ne _ _ _ fun e => h (by rw [ha, hk, e])

/-- A byte written keeps the form of memory. -/
theorem setRawByte_memWf {s : State} (pa : Nat) (b : Byte) (h : MemWf s) : MemWf (s.setRawByte pa b) := by
  obtain ⟨hm, hr⟩ := h
  exact ⟨(setRawByte_step s pa b).form hm, by rwa [State.setRawByte_remote]⟩

/-- Settles O34: memory by the laws of one write of a table, a tile by those of a run of writes. -/
theorem storageReadAfterWrite : Obligations.StorageReadAfterWrite := by
  unfold Obligations.StorageReadAfterWrite
  exact ⟨fun s pa b => ⟨rawByte_setRawByte s b, fun _ => rawByte_setRawByte_ne s b, setRawByte_memWf pa b⟩,
    fun t off d => ⟨fun _ => tget_tsets_inside 0 d t.bytes off, fun _ => tget_tsets_outside 0 d t.bytes, rfl, rfl, rfl, rfl⟩⟩

end Sys2Proof.Proofs
end

section
/-! PROOFS. Stops and saves (O52). -/

namespace Sys2Proof.Proofs

open Sys2Proof Sys2Proof.Machine Sys2Proof.Safety

/-! Stops: what each event does where it is due. -/

section Stops
variable {s : State} {c : Nat}

/-- A change of one context alone. -/
theorem setCtx_onlyCtx (s : State) (c : Nat) (x : Ctx) :
    OnlyCtx s (s.setCtx c x) c ∧ (s.setCtx c x).cur = s.cur ∧ (s.setCtx c x).ctx c = x :=
  ⟨⟨rfl, fun _ h => State.ctx_setCtx_ne s x h⟩, rfl, State.ctx_setCtx_self s c x⟩

theorem atRest_eq_false {t : CtxState} (he : t ≠ .empty) (hr : t ≠ .retired) (hd : t ≠ .dormant) : t.atRest = false := by
  simp [CtxState.atRest, he, hr, hd]

/-- A stop becomes urgent (R59). -/
theorem execStopTimeout_due {q : StopReq} (hq : (s.ctx c).stop = some q) (hu : q.urgent = false)
    (ht : q.since + 65536 ≤ s.now c) (hs : (s.ctx c).st ≠ .saving) (hr : (s.ctx c).st.atRest = false) :
    execStopTimeout c s = .next (s.setCtx c { s.ctx c with stop := some { q with urgent := true } }) := by
  simp [execStopTimeout, hq, hu, ht, hs, hr]

/-- Nothing but a wait that the stop ends blocks the context (R343, log 54). -/
theorem afterStop_eq_none {b : Block} (h : b = .none ∨ (∃ n, b = .yield n) ∨ ∃ d, b = .ctxstop d) : b.afterStop = .none := by
  obtain rfl | ⟨_, rfl⟩ | ⟨_, rfl⟩ := h <;> rfl

theorem urgentReady_of_no_stopped (h : (s.ctx c).urgentReady = true) (hk : ∀ k ∈ s.calls, k.ctx = c → k.stopped = none) :
    s.urgentReady c = true := by
  have hno : (s.calls.any fun k => k.ctx = c && k.stopped.isSome) = false := by
    rw [List.any_eq_false]
    intro k hm e
    rw [Bool.and_eq_true, decide_eq_true_eq] at e
    rw [hk k hm e.1] at e
    exact absurd e.2 Bool.false_ne_true
  simp [State.urgentReady, h, hno]

/-- The freeze of a late load keeps an urgent stop off (R185). -/
theorem urgentReady_late (h : (s.ctx c).frz.late = true) : s.urgentReady c = false := by
  simp [State.urgentReady, Ctx.urgentReady, h]

theorem freezeCol_events (h : s.phase = .events) :
    s.freezeCol c = if (s.col (colOf c)).stepped = true then s.now c else s.now c + 1 := by
  cases hs : (s.col (colOf c)).stepped <;> simp [State.freezeCol, State.issuing, h, hs]

/-- The next bundle is a safe point: header bit 9, or the entry of its letter (log 22). -/
theorem safePoint_of {b : BitVec 32}
    (h : b.getLsbD 9 = true ∨ ∃ q, s.quire (s.ctx c).quire = some q ∧ lEntry q.letter = (s.ctx c).pc) : s.safePoint c b = true := by
  unfold State.safePoint
  obtain h | ⟨q, hq, he⟩ := h
  · rw [h, Bool.true_or]
  · have hb : bits q.letter.toNat 55 0 = (s.ctx c).pc := he
    simp [hq, hb]

/-- A look at a safe point, with a stop asked for: it comes before whatever else holds the bundle back (R59). -/
theorem look_stops {h size : Nat} {b : Bundle} (hq : (s.ctx c).stop.isSome = true) (hs : (s.ctx c).st = .ready ∨ (s.ctx c).st = .blocked)
    (hx : (s.ctx c).exiting = false) (hd : (s.ctx c).dying = none) (hb : (s.ctx c).bubble ≤ s.now c)
    (hf : s.fetchBundle c = .bundle h size b) (hp : s.safePoint c b.header = true) : s.look c = .stops := by
  have hst : ((s.ctx c).st = .ready || (s.ctx c).st = .blocked : Bool) = true := by simpa using hs
  have hn : (s.ctx c).stop.isNone = false := by rw [← Option.not_isSome, hq]; rfl
  have hl : ¬ s.now c < (s.ctx c).bubble := Nat.not_lt.mpr hb
  simp [State.look, hst, hx, hd, hl, hn, hf, hq, hp]

/-- A context at its safe point enters SAVING (R59). -/
theorem execSafePointStop_look (h : s.look c = .stops) (hs : (s.ctx c).st ≠ .claimed) : execSafePointStop c s =
    .next (s.setCtx c { (s.ctx c).resumed (s.now c) with st := .saving, saveUrgent := false, block := (s.ctx c).block.afterStop }) := by
  simp [execSafePointStop, h, hs]

/-- A claimed member with a stop takes its quire's claims back (R60). -/
theorem execSafePointStop_claimed {q : Quire} (hs : (s.ctx c).st = .claimed) (hq : (s.ctx c).stop.isSome = true)
    (h : s.quire (s.ctx c).quire = some q) : execSafePointStop c s = .next (s.release q) := by
  simp [execSafePointStop, hs, hq, h]

theorem drained_of (h : Drained s c) : s.drained c = true := by
  obtain ⟨hl, ⟨hL, hS⟩, he, hk⟩ := h
  simpa [State.drained, hl, hL, hS] using And.intro he hk

/-- A context frozen by an urgent stop and drained enters SAVING (R343). -/
theorem execContextSave_frozen (hs : (s.ctx c).st = .frozen) (h : s.savable c = true) : execContextSave c s =
    .next (s.setCtx c { s.ctx c with st := .saving, saveUrgent := true, frz := { (s.ctx c).frz with late := false } }) := by
  simp [execContextSave, hs, h]

end Stops

/-! Claims given back (R60): what leaves the tiles, the cores and the contexts of a quire touches no partition and no byte of memory. -/

/-- Structures fall free: contexts, tiles, grants, sessions and spare bytes go, and generations may have to be zeroed. -/
def Frees (s t : State) : Prop :=
  t = { s with ctxs := t.ctxs, cores := t.cores, quads := t.quads, tiles := t.tiles, spare := t.spare, zeroing := t.zeroing }

theorem Frees.refl (s : State) : Frees s s := rfl

theorem Frees.trans {s t u : State} (h : Frees s t) (g : Frees t u) : Frees s u := by
  unfold Frees at *
  rw [h] at g
  exact g

theorem Frees.foldl {α : Type} {f : State → α → State} (h : ∀ s a, Frees s (f s a)) (l : List α) (s : State) : Frees s (l.foldl f s) :=
  List.foldlRecOn l f (.refl s) fun t ht a _ => ht.trans (h t a)

theorem Frees.part {s t : State} (h : Frees s t) (p : Nat) : t.part p = s.part p := by rw [h]; rfl
theorem Frees.quires {s t : State} (h : Frees s t) : t.quires = s.quires := by rw [h]
theorem Frees.mem {s t : State} (h : Frees s t) : t.mem = s.mem := by rw [h]

theorem freeGen_eq (s : State) (g : Nat) : s.freeGen g = { s with zeroing := (s.freeGen g).zeroing } := by
  unfold State.freeGen
  split <;> rfl

theorem freeGen_frees (s : State) (g : Nat) : Frees s (s.freeGen g) := by
  unfold Frees
  rw [freeGen_eq]

theorem ctx_freeGen (s : State) (g d : Nat) : (s.freeGen g).ctx d = s.ctx d := by rw [freeGen_eq]; rfl

/-- Steps that leave a context alone leave it alone one after another. -/
theorem ctx_foldl {α : Type} {f : State → α → State} {d : Nat} (h : ∀ s a, (f s a).ctx d = s.ctx d) (l : List α) (s : State) :
    (l.foldl f s).ctx d = s.ctx d :=
  List.foldlRecOn (motive := fun t => t.ctx d = s.ctx d) l f rfl fun t ht a _ => (h t a).trans ht

theorem setSession_frees (s : State) (n : Nat) (z : Option Session) : Frees s (s.setSession n z) := rfl

theorem returnTile_frees (s : State) (id : Nat) : Frees s (s.returnTile id) := by
  unfold State.returnTile
  split
  · exact Frees.trans (t := { s with tiles := _ }) rfl (.foldl freeGen_frees _ _)
  · exact .refl s

theorem ctx_returnTile (s : State) (id d : Nat) : (s.returnTile id).ctx d = s.ctx d := by
  unfold State.returnTile
  split
  · exact ctx_foldl (fun t g => ctx_freeGen t g d) _ _
  · rfl

theorem settle_frees (s : State) (sl c : Nat) : Frees s (s.settle sl c) := by
  unfold State.settle
  dsimp only
  split <;> rfl

theorem ctx_settle_ne (s : State) (sl : Nat) {c d : Nat} (h : d ≠ c) : (s.settle sl c).ctx d = s.ctx d := by
  unfold State.settle
  dsimp only
  split
  · rfl
  · exact State.ctx_setCtx_ne s _ h

theorem settleCtx_frees (s : State) (c : Nat) : Frees s (s.settleCtx c) := .foldl (fun s sl => settle_frees s sl c) _ _

theorem ctx_settleCtx_ne (s : State) {c d : Nat} (h : d ≠ c) : (s.settleCtx c).ctx d = s.ctx d :=
  ctx_foldl (fun t sl => ctx_settle_ne t sl h) _ _

theorem dropGrants_frees (s : State) (c : Nat) : Frees s (s.dropGrants c) :=
  .trans (.trans (.foldl (fun s _ => freeGen_frees s _) _ _) (.foldl (fun s _ => freeGen_frees s _) _ _)) rfl

theorem ctx_dropGrants (s : State) (c d : Nat) : (s.dropGrants c).ctx d = s.ctx d :=
  (ctx_foldl (fun t _ => ctx_freeGen t _ d) _ _).trans (ctx_foldl (fun t _ => ctx_freeGen t _ d) _ _)

theorem emptyCtx_frees (s : State) (c : Nat) : Frees s (s.emptyCtx c) :=
  (settleCtx_frees s c).trans <| (dropGrants_frees _ c).trans <| .trans (t := State.setCtx _ c {}) rfl (freeGen_frees _ c)

/-- The context becomes EMPTY, and no other changes. -/
theorem ctx_emptyCtx (s : State) (c d : Nat) : (s.emptyCtx c).ctx d = if d = c then {} else s.ctx d := by
  unfold State.emptyCtx
  rw [ctx_freeGen]
  by_cases h : d = c
  · rw [if_pos h, h, State.ctx_setCtx_self]
  · rw [if_neg h, State.ctx_setCtx_ne _ _ h, ctx_dropGrants, ctx_settleCtx_ne s h]

theorem ctx_foldl_emptyCtx (l : List Nat) (d : Nat) : ∀ s : State, (l.foldl State.emptyCtx s).ctx d = if d ∈ l then {} else s.ctx d := by
  induction l with
  | nil => exact fun s => (if_neg List.not_mem_nil).symm
  | cons c l ih =>
    intro s
    rw [List.foldl_cons, ih, ctx_emptyCtx]
    by_cases hl : d ∈ l <;> by_cases hc : d = c <;> simp [hl, hc]

/-- Where memory stands depends on the channels of the partitions alone. -/
theorem rawByte_congr {s t : State} (hm : t.mem = s.mem) (hc : ∀ p, (t.part p).chans = (s.part p).chans) (a : Nat) :
    t.rawByte a = s.rawByte a := by
  have hk : t.memKey a = s.memKey a := by simp only [State.memKey, State.chanOf, hc]
  simp only [State.rawByte, State.cell, hk, hm]

theorem findFirst_eq_find? {α : Type} (p : α → Bool) (l : List α) : findFirst p l = l.find? p := by
  induction l with
  | nil => rfl
  | cons a l ih => cases h : p a <;> simp [findFirst, h, ih]

theorem quire_id {s : State} {n : Nat} {q : Quire} (h : s.quire n = some q) : q.id = n := by
  unfold State.quire at h
  rw [findFirst_eq_find?] at h
  simpa using List.find?_some h

/-- The state in which a quire that has not started has given up its sessions, its tiles and its members, and still stands itself. -/
def unclaimed (s : State) (q : Quire) : State :=
  let s := (s.openSessions q.id).foldl (fun s z => s.setSession z.1 none) s
  let s := ((s.tiles.filter fun t => t.quire = q.id).map Tile.id).foldl State.returnTile s
  (q.members.filter fun c => (s.ctx c).quire = q.id).foldl State.emptyCtx s

/-- A letter at the head of its queue, unplaced for no pass and not reserving (log 82). -/
def putHead (p : Part) (l : BitVec 512) : Part := { p with queues := tset [] p.queues (lPrio l) (⟨l, 0, false⟩ :: p.queue (lPrio l)) }

theorem queue_putHead (p : Part) (l : BitVec 512) : (putHead p l).queue (lPrio l) = ⟨l, 0, false⟩ :: p.queue (lPrio l) := by
  unfold putHead Part.queue
  rw [tget_tset_self]

theorem chans_putHead (p : Part) (l : BitVec 512) : (putHead p l).chans = p.chans := rfl

/-- The letter of a quire that has not started goes to the head of its queue, and the quire is no more (R60, log 82). -/
theorem release_eq (s : State) {q : Quire} (h : q.resuming = false) : s.release q =
    { unclaimed s q with quires := (unclaimed s q).quires.filter fun x => !(x.id = q.id) }.updPart q.part fun p =>
      putHead p q.letter := by
  unfold State.release
  simp only [h]
  rfl

theorem unclaimed_frees (s : State) (q : Quire) : Frees s (unclaimed s q) :=
  .trans (.trans (.foldl (fun s (z : Nat × Session) => setSession_frees s z.1 none) _ _) (.foldl returnTile_frees _ _)) (.foldl emptyCtx_frees _ _)

theorem ctx_unclaimed_member (s : State) (q : Quire) {d : Nat} (hd : d ∈ q.members) (hq : (s.ctx d).quire = q.id) :
    (unclaimed s q).ctx d = {} := by
  have hk : ∀ (l : List Nat) (zs : List (Nat × Session)),
      (l.foldl State.returnTile (zs.foldl (fun s z => s.setSession z.1 none) s)).ctx d = s.ctx d := fun l zs =>
    (ctx_foldl (fun t i => ctx_returnTile t i d) l _).trans (ctx_foldl (f := fun s z => s.setSession z.1 none) (fun _ _ => rfl) zs s)
  unfold unclaimed
  rw [ctx_foldl_emptyCtx, if_pos]
  rw [List.mem_filter, hk, decide_eq_true_eq]
  exact ⟨hd, hq⟩

theorem quire_filter_self (s : State) (n : Nat) : { s with quires := s.quires.filter fun x => !(x.id = n) }.quire n = none := by
  unfold State.quire
  rw [findFirst_eq_find?, List.find?_eq_none]
  intro q hq
  simpa using (List.mem_filter.mp hq).2

/-- What a quire that has not started leaves when it gives its claims back (R60). -/
theorem release_spec (s : State) {q : Quire} (h : q.resuming = false) :
    (∀ d ∈ q.members, (s.ctx d).quire = q.id → (s.release q).ctx d = {}) ∧ (s.release q).quire q.id = none ∧
      ((s.release q).part q.part).queue (lPrio q.letter) = ⟨q.letter, 0, false⟩ :: (s.part q.part).queue (lPrio q.letter) ∧
      ∀ a, (s.release q).rawByte a = s.rawByte a := by
  have hf := unclaimed_frees s q
  rw [release_eq s h, State.updPart_eq]
  refine ⟨fun d hd hq => ?_, ?_, ?_, rawByte_congr ?_ fun p => ?_⟩
  · exact ctx_unclaimed_member s q hd hq
  · exact quire_filter_self (unclaimed s q) q.id
  · rw [State.part_setPart_self, queue_putHead, ← hf.part]
    rfl
  · exact hf.mem
  · by_cases hp : p = q.part
    · rw [hp, State.part_setPart_self, chans_putHead, ← hf.part]
      rfl
    · rw [State.part_setPart_ne _ _ hp, ← hf.part]
      rfl

/-! The device's own writes (R307): they touch no quire, no list of frames and no register. -/

/-- What writes of the device's own leave of quires, free lists and contexts: a protected page may freeze contexts (R309). -/
structure OwnStep (s t : State) : Prop where
  quires : t.quires = s.quires
  tiles  : t.tiles = s.tiles
  frames : ∀ p, (t.part p).frames = (s.part p).frames
  ctxs   : ∀ c, ∃ st frz, t.ctx c = { s.ctx c with st := st, frz := frz }

theorem OwnStep.refl (s : State) : OwnStep s s := ⟨rfl, rfl, fun _ => rfl, fun c => ⟨(s.ctx c).st, (s.ctx c).frz, rfl⟩⟩

theorem OwnStep.trans {s t u : State} (h : OwnStep s t) (g : OwnStep t u) : OwnStep s u := by
  refine ⟨g.quires.trans h.quires, g.tiles.trans h.tiles, fun p => (g.frames p).trans (h.frames p), fun c => ?_⟩
  obtain ⟨_, _, e⟩ := h.ctxs c
  obtain ⟨st, frz, e'⟩ := g.ctxs c
  exact ⟨st, frz, by rw [e', e]⟩

theorem OwnStep.foldl {α : Type} {f : State → α → State} (h : ∀ s a, OwnStep s (f s a)) (l : List α) (s : State) :
    OwnStep s (l.foldl f s) :=
  List.foldlRecOn l f (.refl s) fun t ht a _ => ht.trans (h t a)

theorem OwnStep.ofPkg (s : State) (f : Pkg → Pkg) : OwnStep s (s.updPkg f) :=
  ⟨rfl, rfl, fun _ => rfl, fun c => ⟨(s.ctx c).st, (s.ctx c).frz, rfl⟩⟩

theorem OwnStep.ofMemStep {s t : State} (h : MemStep s t) : OwnStep s t := by
  rw [h.rest]
  exact ⟨rfl, rfl, fun _ => rfl, fun c => ⟨(s.ctx c).st, (s.ctx c).frz, rfl⟩⟩

theorem tdiEnterError_own (s : State) (p : Nat) : OwnStep s (s.tdiEnterError p) := by
  unfold State.tdiEnterError
  dsimp only
  refine .trans (t := s.updPart p fun q => { q with tdi := .error }) ⟨rfl, rfl, fun q => ?_, fun c => ⟨_, _, rfl⟩⟩ (.trans ?_ (.ofPkg _ _))
  · rw [State.updPart_eq]
    by_cases hq : q = p
    · rw [hq, State.part_setPart_self]
    · rw [State.part_setPart_ne _ _ hq]
  · obtain ⟨hr, hin, hout⟩ := State.mapCtxs_spec (s.updPart p fun q => { q with tdi := .error }) fun _ x =>
      if x.part = p && !(x.st = .empty) then { x with st := .frozen, frz := { x.frz with tdi := true } } else x
    refine ⟨by rw [hr], by rw [hr], fun q => by rw [hr]; rfl, fun c => ?_⟩
    by_cases hc : c ∈ ((s.updPart p fun q => { q with tdi := .error }).ctxs.map Prod.fst)
    · rw [hin c hc]
      split
      · exact ⟨_, _, rfl⟩
      · exact ⟨_, _, rfl⟩
    · rw [hout c hc]
      exact ⟨_, _, rfl⟩

theorem guardHit_own (s : State) (p : Nat) : OwnStep s (s.guardHit p) := by
  unfold State.guardHit
  split
  · exact .refl s
  · exact tdiEnterError_own s p

theorem snoopFirst_own (s : State) (pa : Nat) : OwnStep s (s.snoopFirst pa).1 := by
  unfold State.snoopFirst
  dsimp only
  split
  · exact .refl s
  · dsimp only
    exact .ofPkg s _

/-- The vector of a write of the device's own that is made. -/
def irqRaised (q : Posted) (s : State) : State := match q.irq with | some v => s.raise v | none => s

theorem irqRaised_own (q : Posted) (s : State) : OwnStep s (irqRaised q s) := by
  unfold irqRaised
  split
  · exact .ofPkg s _
  · exact .refl s

/-- A write of the device's own waits and has at most asked for a snoop, or it is made and its vector raised. -/
theorem postedWrite_cases (s : State) (q : Posted) :
    (∃ t, OwnStep s t ∧ s.postedWrite q = (t, false)) ∨ ∃ t, OwnStep s t ∧ s.postedWrite q = (irqRaised q t, true) := by
  unfold State.postedWrite
  dsimp only
  split
  · exact .inr ⟨_, guardHit_own s _, rfl⟩
  · split
    · exact .inr ⟨_, .refl s, rfl⟩
    · split
      · exact .inl ⟨_, .refl s, rfl⟩
      · have h := snoopFirst_own s q.pa
        split
        · next e => rw [e] at h; exact .inl ⟨_, h, rfl⟩
        · next e => rw [e] at h; exact .inr ⟨_, h.trans (.ofMemStep (writePa_step _ _ _ _)), rfl⟩

/-- A write of the device's own is made, its vector raised, or stands last among those that wait. -/
theorem postWrite_cases (s : State) (q : Posted) : ∃ t, OwnStep s t ∧
    (s.postWrite q = irqRaised q t ∨ s.postWrite q = t.updPkg fun k => { k with posted := k.posted ++ [q] }) := by
  unfold State.postWrite
  dsimp only
  split
  · exact ⟨s, .refl s, .inr rfl⟩
  · obtain ⟨t, h, e⟩ | ⟨t, h, e⟩ := postedWrite_cases s q
    · exact ⟨t, h, .inr (by rw [e])⟩
    · exact ⟨t, h, .inl (by rw [e])⟩

theorem postWrite_own (s : State) (q : Posted) : OwnStep s (s.postWrite q) := by
  obtain ⟨t, h, e | e⟩ := postWrite_cases s q
  · rw [e]; exact h.trans (irqRaised_own q t)
  · rw [e]; exact h.trans (.ofPkg t _)

/-- The partition is told by the vector of a write of the device's own, made or waiting (R317). -/
theorem postWrite_told (s : State) {q : Posted} {v : Nat} (hq : q.irq = some v) : Told (s.postWrite q) v := by
  obtain ⟨t, -, e | e⟩ := postWrite_cases s q
  · rw [e]
    left
    simp [irqRaised, hq]
  · rw [e]
    exact .inr ⟨q, by simp, hq⟩

theorem hflog_own (s : State) (l : List Nat) (v : Nat) : OwnStep s (s.hflog l v) := by
  unfold State.hflog
  dsimp only
  split
  · exact .ofPkg s _
  · exact (OwnStep.ofPkg s _).trans (postWrite_own _ _)

/-- A record in HFLOG tells of its vector, with a ring or without one (R348). -/
theorem hflog_told (s : State) (l : List Nat) (v : Nat) : Told (s.hflog l v) v := by
  unfold State.hflog
  dsimp only
  split
  · exact .inl (by simp)
  · exact postWrite_told _ rfl

theorem writeImage_own (s : State) (p : Nat) (i : Image) (l : List Byte) : OwnStep s (s.writeImage p i l) :=
  .foldl (fun _ _ => .foldl (fun s _ => postWrite_own s _) _ _) _ _

/-! What a save writes (R345 to R348). -/

theorem mem_ins {α : Type} (lt : α → α → Bool) (a x : α) (l : List α) : x ∈ sortBy.ins lt a l ↔ x = a ∨ x ∈ l := by
  induction l with
  | nil => simp [sortBy.ins]
  | cons b l ih =>
    cases h : lt b a
    · simp [sortBy.ins, h]
    · simp [sortBy.ins, h, ih, or_left_comm]

theorem mem_sortBy {α : Type} (lt : α → α → Bool) (x : α) (l : List α) : x ∈ sortBy lt l ↔ x ∈ l := by
  induction l with
  | nil => simp [sortBy]
  | cons a l ih => simp [sortBy, mem_ins, ih]

theorem ctx_updQuire (s : State) (n : Nat) (f : Quire → Quire) (d : Nat) : (s.updQuire n f).ctx d = s.ctx d := rfl
theorem part_updQuire (s : State) (n : Nat) (f : Quire → Quire) (d : Nat) : (s.updQuire n f).part d = s.part d := rfl

/-- A change of a quire that keeps its serial number is what is found under that number. -/
theorem quire_updQuire {s : State} {n : Nat} {q : Quire} {f : Quire → Quire} (h : s.quire n = some q) (hf : ∀ x, (f x).id = x.id) :
    (s.updQuire n f).quire n = some (f q) := by
  have hp : ((fun x : Quire => decide (x.id = n)) ∘ fun x => if decide (x.id = n) = true then f x else x) = fun x => decide (x.id = n) := by
    funext x
    by_cases hx : x.id = n <;> simp [hx, hf]
  have hid := quire_id h
  unfold State.quire at h ⊢
  rw [findFirst_eq_find?] at h ⊢
  show ((s.quires.map fun x => if decide (x.id = n) = true then f x else x).find? _) = _
  rw [List.find?_map, hp, h]
  simp [hid]

section Save
variable {s : State} {c : Nat} {q : Quire} {p : SavePlan}

/-- A quire has another member that is not saved: the save in hand is not its last. -/
theorem not_last {m : Nat} (hm : m < q.size) (hne : m ≠ (s.ctx c).member) (hi : ∀ i ∈ q.images, i.member ≠ m) :
    ((upto q.size).all fun m => m = (s.ctx c).member || q.images.any fun i => i.member = m) = false := by
  rw [List.all_eq_false]
  refine ⟨m, List.mem_range.mpr hm, ?_⟩
  simpa [hne] using hi

/-- The plan of a save that is not its quire's last: the member's own image alone, with no frames yet. -/
theorem savePlan_spec {zs : List Session} {m : Nat} (hq : s.quire (s.ctx c).quire = some q) (hm : m < q.size)
    (hne : m ≠ (s.ctx c).member) (hi : ∀ i ∈ q.images, i.member ≠ m) (hp : s.savePlan c zs = some p) :
    p.last = false ∧ p.others = [] ∧ p.own.frames = [] ∧ p.own.member = (s.ctx c).member ∧ p.q.images = q.images ∧ p.q.id = q.id := by
  have hl := not_last (s := s) hm hne hi
  unfold State.savePlan at hp
  dsimp only at hp
  rw [hq] at hp
  obtain rfl := Option.some.inj hp
  refine ⟨hl, ?_, rfl, rfl, rfl, rfl⟩
  exact if_neg (Bool.eq_false_iff.mp hl)

theorem saveReady_of_not_last (hp : s.savePlan c [] = some p) (hl : p.last = false) : s.saveReady c = (s, some (p, [])) := by
  simp [State.saveReady, hp, hl]

theorem need_of_own (ho : p.others = []) (n : Nat) : p.need n = framesFor p.bytes.length - n := by
  simp [SavePlan.need, ho, sumN]

theorem strikeSave_calm (ha : s.pkg.armed = none) (zs : List Session) : s.strikeSave c p zs = s := by
  simp [State.strikeSave, ha]

/-- A SAVING context that is drained, and whose live list waits for no host page, is due to be written. -/
theorem imageDue_saving (hs : (s.ctx c).st = .saving) (hf : (s.ctx c).frz.fault = none) (hd : (s.ctx c).dying = none)
    (hb : (s.ctx c).block = .none) (hdr : Drained s c) (hw : s.liveWants c = none) : s.imageDue c = true := by
  simp [State.imageDue, State.imageReady, State.savable, hs, hf, hd, hb, drained_of hdr, hw]

/-- The image of a save with all the frames it takes: those its context has, and the rest from the head of the free list. -/
def dealt (s : State) (c : Nat) (p : SavePlan) : Image :=
  { p.own with frames := (s.ctx c).frames ++ ((s.part (s.ctx c).part).frames.take (p.need (s.ctx c).frames.length)) }

theorem dealFrames_own (ho : p.others = []) (hf : p.own.frames = []) (ht : (s.ctx c).frames.length ≤ framesFor p.bytes.length) :
    dealFrames ((s.ctx c).frames ++ (s.part (s.ctx c).part).frames.take (p.need (s.ctx c).frames.length)) ((p.own, p.bytes) :: p.others) =
      [(dealt s c p, p.bytes)] := by
  rw [ho, dealFrames, dealFrames, hf, List.nil_append, List.take_of_length_le]
  · rfl
  · rw [List.length_append, List.length_take, need_of_own ho, List.length_nil]
    omega

/-- The LOCAL tiles of a state that the table of a context names. -/
def localTiles (x : Ctx) (u : State) : List Nat :=
  (u.tiles.filter fun t => t.level = .LOCAL && (x.tiles.any fun e => e.2 = t.id)).map Tile.id

/-- The save of a member that is not its quire's last: frames go from the head of the list, the image is written with them, tiles fall
free, the context becomes EMPTY, and the quire gains the image. -/
theorem execContextSave_writes (hs : (s.ctx c).st = .saving) (hdue : s.imageDue c = true) (ha : s.pkg.armed = none)
    (hp : s.savePlan c [] = some p) (hl : p.last = false) (ho : p.others = []) (hf : p.own.frames = [])
    (ht : (s.ctx c).frames.length ≤ framesFor p.bytes.length)
    (hn : p.need (s.ctx c).frames.length ≤ (s.part (s.ctx c).part).frames.length) :
    ∃ u, OwnStep (s.updPart (s.ctx c).part fun x => { x with frames := x.frames.drop (p.need (s.ctx c).frames.length) }) u ∧
      execContextSave c s = .next ((((localTiles (s.ctx c) u).foldl State.returnTile u).emptyCtx c).updQuire p.q.id fun x =>
        { x with named := p.q.named,
                 images := sortBy (fun a b => decide (a.member < b.member)) (p.q.images ++ [dealt s c p]) }) := by
  refine ⟨_, writeImage_own _ (s.ctx c).part (dealt s c p) p.bytes, ?_⟩
  unfold execContextSave
  simp only [hs, hdue, saveReady_of_not_last hp hl, strikeSave_calm ha, ha, Nat.not_lt.mpr hn, hl, dealFrames_own ho hf ht]
  rfl

/-- A save that finds too few frames takes those there are (R348). -/
theorem execFrameExhaustion_short (hs : s.framesShort c = true) : ∃ l, execFrameExhaustion c s =
    .next (((s.updPart (s.ctx c).part fun x => { x with frames := [] }).setCtx c { s.ctx c with
      frames := (s.ctx c).frames ++ (s.part (s.ctx c).part).frames, frameWait := true }).hflog l (4 * (s.ctx c).part + 2)) := by
  unfold execFrameExhaustion
  simp only [hs, if_true]
  exact ⟨_, rfl⟩

theorem framesShort_of (hdue : s.imageDue c = true) (hp : s.savePlan c [] = some p) (hl : p.last = false)
    (hw : (s.ctx c).frameWait = false ∨ (s.part (s.ctx c).part).frames ≠ [])
    (hn : (s.part (s.ctx c).part).frames.length < p.need (s.ctx c).frames.length) : s.framesShort c = true := by
  have hw' : (!(s.ctx c).frameWait || !(s.part (s.ctx c).part).frames.isEmpty) = true := by simpa using hw
  simp [State.framesShort, hdue, hw', saveReady_of_not_last hp hl, hn]

/-- What the save of a member that is not its quire's last leaves. -/
theorem saved_spec {u : State} {n k m : Nat} {f : Quire → Quire} (ids : List Nat)
    (hu : OwnStep (s.updPart n fun x => { x with frames := x.frames.drop k }) u) (hq : s.quire m = some q)
    (hf : ∀ x, (f x).id = x.id) :
    let t := ((ids.foldl State.returnTile u).emptyCtx c).updQuire m f
    t.ctx c = {} ∧ (t.part n).frames = (s.part n).frames.drop k ∧ t.quire m = some (f q) := by
  have hfr := (Frees.foldl returnTile_frees ids u).trans (emptyCtx_frees _ c)
  have hquires := hfr.quires.trans hu.quires
  refine ⟨?_, ?_, quire_updQuire ?_ hf⟩
  · rw [ctx_updQuire, ctx_emptyCtx, if_pos rfl]
  · calc ((((ids.foldl State.returnTile u).emptyCtx c).updQuire m f).part n).frames
        = (u.part n).frames := by rw [part_updQuire, hfr.part]
      _ = ((s.updPart n fun x => { x with frames := x.frames.drop k }).part n).frames := hu.frames n
      _ = (s.part n).frames.drop k := by rw [State.updPart_eq, State.part_setPart_self]
  · unfold State.quire
    rw [hquires]
    exact hq

/-- What a shortage of frames leaves (R348): the list empty, its frames taken, the partition told, and no register touched. -/
theorem shortage_spec (s : State) (c n v : Nat) (l fs : List Nat) :
    let t := ((s.updPart n fun x => { x with frames := [] }).setCtx c { s.ctx c with frames := fs, frameWait := true }).hflog l v
    (t.part n).frames = [] ∧ (t.ctx c).frames = fs ∧ (t.ctx c).frameWait = true ∧ Told t v ∧
      ∀ cls m, (t.ctx c).reg cls m = (s.ctx c).reg cls m := by
  have ho := hflog_own ((s.updPart n fun x => { x with frames := [] }).setCtx c { s.ctx c with frames := fs, frameWait := true }) l v
  obtain ⟨st, frz, hc⟩ := ho.ctxs c
  rw [State.ctx_setCtx_self] at hc
  refine ⟨?_, by rw [hc], by rw [hc], hflog_told _ l v, fun cls m => ?_⟩
  · rw [ho.frames n, State.part_setCtx, State.updPart_eq, State.part_setPart_self]
  · rw [hc]
    cases cls <;> rfl

end Save

/-! The events by name. -/

theorem exec_stopTimeout (c : Nat) (s : State) : exec (.stopTimeout c) s = execStopTimeout c s := rfl
theorem exec_urgentStop (c : Nat) (s : State) : exec (.urgentStop c) s = execUrgentStop c s := rfl
theorem exec_safePointStop (c : Nat) (s : State) : exec (.safePointStop c) s = execSafePointStop c s := rfl
theorem exec_contextSave (c : Nat) (s : State) : exec (.contextSave c) s = execContextSave c s := rfl
theorem exec_frameExhaustion (c : Nat) (s : State) : exec (.frameExhaustion c) s = execFrameExhaustion c s := rfl

/-- Settles O52: each event where it is due, by what it answers; a release of claims leaves memory and partitions, and a save's own
writes leave free lists and quires, whatever they meet. -/
theorem stopsAndSaves : Obligations.StopsAndSaves := by
  unfold Obligations.StopsAndSaves
  intro s c
  refine ⟨?timeout, ?urgent, freezeCol_events, ?late, ?safePoint, ?claimed, ?frozen, ?save⟩
  case timeout =>
    intro q hq hu ht hs he hr hd
    rw [exec_stopTimeout, execStopTimeout_due hq hu ht hs (atRest_eq_false he hr hd)]
    exact ⟨_, rfl, setCtx_onlyCtx s c _⟩
  case urgent =>
    intro q hq hu hs hf hfu ht hbr hl hd hx hb hk
    have hr : s.urgentReady c = true := urgentReady_of_no_stopped
      (by simpa [Ctx.urgentReady, hq, hu, hf, hfu, ht, hbr, hl, hd, hx, afterStop_eq_none hb, or_assoc] using hs) hk
    rw [exec_urgentStop, execUrgentStop, if_pos hr]
    exact ⟨_, rfl, setCtx_onlyCtx s c _⟩
  case late =>
    intro hl
    rw [exec_urgentStop, execUrgentStop, urgentReady_late hl, if_neg Bool.false_ne_true]
  case safePoint =>
    intro h size b hq hs hx hd hb hf hp
    have hne : (s.ctx c).st ≠ .claimed := by
      obtain e | e := hs <;> rw [e] <;> decide
    rw [exec_safePointStop, execSafePointStop_look (look_stops hq hs hx hd hb hf (safePoint_of hp)) hne]
    obtain ⟨ho, hc, hx⟩ := setCtx_onlyCtx s c
      { (s.ctx c).resumed (s.now c) with st := .saving, saveUrgent := false, block := (s.ctx c).block.afterStop }
    refine ⟨_, rfl, ho, hc, hx.trans ?_⟩
    cases (s.ctx c).block <;> rfl
  case claimed =>
    intro q hs hq h hr
    rw [exec_safePointStop, execSafePointStop_claimed hs hq h]
    exact ⟨_, rfl, release_spec s hr⟩
  case frozen =>
    intro hs hu hf hd hb hdr
    have hsv : s.savable c = true := by simp [State.savable, hs, hu, hf, hd, hb, drained_of hdr]
    rw [exec_contextSave, execContextSave_frozen hs hsv]
    exact ⟨_, rfl, setCtx_onlyCtx s c _⟩
  case save =>
    intro hs hf hd hb hdr ha hw q m p hq hm hne hi hp ht need fs
    have hdue := imageDue_saving hs hf hd hb hdr hw
    obtain ⟨hl, ho, hof, hmem, himg, hid⟩ := savePlan_spec hq hm hne hi hp
    have hneed : p.need (s.ctx c).frames.length = need := need_of_own ho _
    constructor
    · intro hn
      obtain ⟨u, hu, e⟩ := execContextSave_writes hs hdue ha hp hl ho hof ht (hneed ▸ hn)
      rw [hid, himg, quire_id hq] at e
      obtain ⟨hc, hfr, hr⟩ := saved_spec (c := c) (f := fun x => { x with
        named := p.q.named, images := sortBy (fun a b => decide (a.member < b.member)) (q.images ++ [dealt s c p]) })
        (localTiles (s.ctx c) u) hu hq fun _ => rfl
      refine ⟨_, _, dealt s c p, (exec_contextSave c s).trans e, hc, ?_, hr, ?_, ?_, hmem, fun j hj => ?_⟩
      · rw [hfr, hneed]
      · exact (mem_sortBy _ _ _).mpr (List.mem_append_right _ (List.mem_singleton_self _))
      · rw [dealt, hneed]
      · exact (mem_sortBy _ _ _).mpr (List.mem_append_left _ hj)
    · intro hn hfw
      obtain ⟨l, e⟩ := execFrameExhaustion_short (framesShort_of hdue hp hl hfw (hneed ▸ hn))
      exact ⟨_, (exec_frameExhaustion c s).trans e, shortage_spec s c _ _ l _⟩

end Sys2Proof.Proofs
end

section
/-! PROOFS. Operations that their guard suppresses (O19). -/

namespace Sys2Proof.Proofs

open Sys2Proof Sys2Proof.Machine Sys2Proof.Safety

theorem abSlot_ne_E (w : ABW) : abSlot w ≠ .E := by
  unfold abSlot
  split <;> decide

/-- Every slot operation runs through `runOp`; when it is suppressed, only a command or a marker has an effect (R30, R156). -/
theorem exec_runOp {i : Instr} {f : Form} (hf : formOf i = some f) : ∃ eff, ∀ s,
    exec i s = s.runOp i eff (if f.slot = .E ∨ isMark i = true then State.enqueueNop else noSup) := by
  cases i <;> simp only [formOf, reduceCtorEq, Option.some.injEq] at hf
  all_goals
    subst hf
    simp only [cForm, scalarForm, cmpForm, selForm, bForm, vForm, lForm, hintForm, wForm, markForm, mForm, eForm, xForm,
      abSlot_ne_E, isMark, reduceCtorEq, or_false, or_true, if_true, if_false]
    exact ⟨_, fun _ => rfl⟩

section
variable {s : State} {k : Cur} {i : Instr} {f : Form}

/-- A suppressed operation of another slot is taken off its bundle, and that is all (R30). -/
theorem exec_suppressed (h : Suppressed s k i f) (hs : f.slot ≠ .E) (hm : isMark i = false) :
    exec i s = .next { s with cur := some (acted k) } := by
  obtain ⟨eff, he⟩ := exec_runOp h.1.form
  have hn : ¬ (f.slot = .E ∨ isMark i = true) := by simp [hs, hm]
  rw [he, if_neg hn, State.runOp_suppressed h]
  rfl

/-- A suppressed command or marker issues as one that makes no access (R156). -/
theorem exec_suppressed_command (h : Suppressed s k i f) (hc : f.slot = .E ∨ isMark i = true) :
    exec i s = .next ({ s with cur := some (acted k) }.enqueueNop (opOf k i f)) := by
  obtain ⟨eff, he⟩ := exec_runOp h.1.form
  rw [he, if_pos hc, State.runOp_suppressed h]

/-- An operation that issues as a command without access, its context otherwise as it was. -/
theorem commandIssues_of_enqueueNop (h : exec i s = .next ({ s with cur := some (acted k) }.enqueueNop (opOf k i f))) :
    CommandIssues s k i f true (s.ctx k.ctx) :=
  ⟨_, (opOf k i f).cmdOf s.serial true none [], h, rfl, fun _ hd => State.ctx_setCtx_ne _ _ hd, State.ctx_setCtx_self _ _ _,
    rfl, rfl, rfl, rfl, rfl, rfl, rfl, rfl, rfl, rfl, rfl, rfl, rfl, rfl⟩

end

/-- Settles O19: every slot operation runs through `runOp`, whose effect of a suppressed one is none or the issue without access. -/
theorem suppressedOperations : Obligations.SuppressedOperations := by
  unfold Obligations.SuppressedOperations
  exact ⟨fun _ _ _ _ => exec_suppressed, fun _ _ _ _ h hc => commandIssues_of_enqueueNop (exec_suppressed_command h hc)⟩

end Sys2Proof.Proofs
end

section
/-! PROOFS. Products, sums, roundings and selections of extended reals (O12). -/

namespace Sys2Proof.Proofs

open Sys2Proof Sys2Proof.Machine Sys2Proof.Safety

/-! The product (R97). -/

theorem ext_mul_eq_nan {x y : Ext} (h : x = .nan ∨ y = .nan ∨ (∃ a b, x = .zero a ∧ y = .inf b) ∨ ∃ a b, x = .inf a ∧ y = .zero b) :
    x.mul y = .nan := by
  rcases h with rfl | rfl | ⟨a, b, rfl, rfl⟩ | ⟨a, b, rfl, rfl⟩
  · rfl
  · cases x <;> rfl
  · rfl
  · rfl

theorem ext_mul_inf {a : Bool} {y : Ext} (hn : y ≠ .nan) (hz : ∀ b, y ≠ .zero b) :
    (Ext.inf a).mul y = .inf (a != y.sign) ∧ y.mul (.inf a) = .inf (y.sign != a) := by
  cases y with
  | nan => exact absurd rfl hn
  | inf b => exact ⟨rfl, rfl⟩
  | zero b => exact absurd rfl (hz b)
  | fin m e => exact ⟨rfl, rfl⟩

theorem ext_mul_zero {a : Bool} {y : Ext} (hn : y ≠ .nan) (hi : ∀ b, y ≠ .inf b) :
    (Ext.zero a).mul y = .zero (a != y.sign) ∧ y.mul (.zero a) = .zero (y.sign != a) := by
  cases y with
  | nan => exact absurd rfl hn
  | inf b => exact absurd rfl (hi b)
  | zero b => exact ⟨rfl, rfl⟩
  | fin m e => exact ⟨rfl, rfl⟩

/-! The exact sum (R38). -/

/-- A power of two in steps: from unit 2^E to 2^g, and from there to 2^e. -/
theorem pow_units {E g e : Int} (hE : E ≤ g) (hg : g ≤ e) :
    ((2 ^ (e - g).toNat : Nat) : Int) * ((2 ^ (g - E).toNat : Nat) : Int) = ((2 ^ (e - E).toNat : Nat) : Int) := by
  rw [← Nat.cast_mul, ← pow_add]
  congr 3
  omega

theorem dyadicIn_fin_eq_zero {E m e : Int} : dyadicIn E (.fin m e) = 0 ↔ m = 0 := by
  simp [dyadicIn]

theorem addDyadic_exp_ge {E : Int} {a b : Int × Int} (ha : E ≤ a.2) (hb : E ≤ b.2) : E ≤ (addDyadic a b).2 := le_min ha hb

/-- The sum of two dyadic numbers, in any unit that divides both. -/
theorem dyadicIn_addDyadic {E : Int} {a b : Int × Int} (ha : E ≤ a.2) (hb : E ≤ b.2) :
    dyadicIn E (.fin (addDyadic a b).1 (addDyadic a b).2) = dyadicIn E (.fin a.1 a.2) + dyadicIn E (.fin b.1 b.2) := by
  have hE := le_min ha hb
  simp only [dyadicIn, addDyadic, add_mul, mul_assoc, pow_units hE (min_le_left _ _), pow_units hE (min_le_right _ _)]

/-- The exact sum of the finite addends, in any unit that divides them all. -/
theorem sumDyadic_spec {E : Int} : ∀ {l : List Ext}, (∀ m e, .fin m e ∈ l → E ≤ e) →
    dyadicIn E (.fin (sumDyadic l).1 (sumDyadic l).2) = (l.map (dyadicIn E)).sum ∧ ((sumDyadic l).1 ≠ 0 → E ≤ (sumDyadic l).2) := by
  intro l
  induction l with
  | nil => exact fun _ => ⟨by simp [sumDyadic, dyadicIn], fun h => absurd rfl h⟩
  | cons x l ih =>
    intro h
    obtain ⟨hv, he⟩ := ih fun m e hm => h m e (List.mem_cons_of_mem x hm)
    rw [List.map_cons, List.sum_cons, ← hv]
    cases x with
    | fin m e =>
      have hm : E ≤ e := h m e List.mem_cons_self
      by_cases hr : (sumDyadic l).1 = 0
      · simp only [sumDyadic, hr, if_true]
        exact ⟨by rw [dyadicIn_fin_eq_zero.mpr rfl, add_zero], fun _ => hm⟩
      · simp only [sumDyadic, hr, if_false]
        exact ⟨dyadicIn_addDyadic hm (he hr), fun _ => addDyadic_exp_ge hm (he hr)⟩
    | nan => exact ⟨(zero_add _).symm, he⟩
    | inf a => exact ⟨(zero_add _).symm, he⟩
    | zero a => exact ⟨(zero_add _).symm, he⟩

theorem exactSum_eq_nan {l : List Ext} (h : .nan ∈ l ∨ (.inf false ∈ l ∧ .inf true ∈ l)) : exactSum l = .nan := by
  simp [exactSum, h]

theorem exactSum_eq_inf {l : List Ext} {a : Bool} (hn : .nan ∉ l) (ha : .inf a ∈ l) (hna : .inf (!a) ∉ l) : exactSum l = .inf a := by
  cases a <;> simp_all [exactSum]

/-- A sum without NaNs and infinities is that of the finite addends. -/
theorem exactSum_of_finite {l : List Ext} (hn : .nan ∉ l) (hi : ∀ a, .inf a ∉ l) :
    exactSum l = if (sumDyadic l).1 ≠ 0 then .fin (sumDyadic l).1 (sumDyadic l).2 else .zero (l.all (· == .zero true)) := by
  simp [exactSum, hn, hi]

section
variable {l : List Ext} {E : Int} (hn : .nan ∉ l) (hi : ∀ a, .inf a ∉ l) (hE : ∀ m e, .fin m e ∈ l → E ≤ e)
include hn hi hE

theorem exactSum_of_ne_zero (h : (l.map (dyadicIn E)).sum ≠ 0) :
    ∃ m e, exactSum l = .fin m e ∧ E ≤ e ∧ dyadicIn E (exactSum l) = (l.map (dyadicIn E)).sum := by
  obtain ⟨hv, he⟩ := sumDyadic_spec hE
  have hs : (sumDyadic l).1 ≠ 0 := fun h0 => h (hv ▸ dyadicIn_fin_eq_zero.mpr h0)
  rw [exactSum_of_finite hn hi, if_pos hs]
  exact ⟨_, _, rfl, he hs, hv⟩

theorem exactSum_of_eq_zero (h : (l.map (dyadicIn E)).sum = 0) : exactSum l = .zero (l.all (· == .zero true)) := by
  have hs : (sumDyadic l).1 = 0 := dyadicIn_fin_eq_zero.mp ((sumDyadic_spec hE).1.trans h)
  rw [exactSum_of_finite hn hi, if_neg (not_not.mpr hs)]

end

/-! Maximum and minimum (R101). -/

/-- The differences that decide x < y and y < x are opposite. -/
theorem addDyadic_swap (m e n g : Int) : (addDyadic (n, g) (-m, e)).1 = -(addDyadic (m, e) (-n, g)).1 := by
  simp only [addDyadic, min_comm g e]
  ring

theorem ext_lt_asymm {x y : Ext} (h : x.lt y = true) : y.lt x = false := by
  cases x with
  | nan => cases h
  | inf a => cases y <;> simp_all [Ext.lt]
  | zero a =>
    cases y with
    | fin n g => simp only [Ext.lt, decide_eq_true_eq, decide_eq_false_iff_not] at *; omega
    | _ => simp_all [Ext.lt]
  | fin m e =>
    cases y with
    | zero b => simp only [Ext.lt, decide_eq_true_eq, decide_eq_false_iff_not] at *; omega
    | fin n g =>
      simp only [Ext.lt, decide_eq_true_eq, decide_eq_false_iff_not, addDyadic_swap m e n g] at *
      omega
    | _ => simp_all [Ext.lt]

/-- What stands in the order is no NaN, and no zero beside a zero. -/
theorem ext_lt_numbers {x y : Ext} (h : x.lt y = true) : x ≠ .nan ∧ y ≠ .nan ∧ ∀ s t, x = .zero s → y ≠ .zero t := by
  refine ⟨?_, ?_, ?_⟩
  · rintro rfl
    cases h
  · rintro rfl
    cases x <;> cases h
  · rintro s t rfl rfl
    cases h

section
variable {g : Fmt} {mx : Bool} {a b : Nat}

theorem maxMinF_nan (h : decodeF g a = .nan ∨ decodeF g b = .nan) : maxMinF g mx a b = g.nan := by
  unfold maxMinF
  rcases h with h | h
  · rw [h]
  · rw [h]
    cases decodeF g a <;> rfl

/-- Of two zeros the negative one is the lesser. -/
theorem maxMinF_zeros {s t : Bool} (ha : decodeF g a = .zero s) (hb : decodeF g b = .zero t) :
    maxMinF g mx a b = if s == mx then b else a := by
  unfold maxMinF
  rw [ha, hb]

/-- Of two numbers that are not both zero the order selects. -/
theorem maxMinF_lt (ha : decodeF g a ≠ .nan) (hb : decodeF g b ≠ .nan) (h : ∀ s t, decodeF g a = .zero s → decodeF g b ≠ .zero t) :
    maxMinF g mx a b = if (decodeF g a).lt (decodeF g b) == mx then b else a := by
  unfold maxMinF
  generalize decodeF g a = x at *
  generalize decodeF g b = y at *
  cases x with
  | nan => exact absurd rfl ha
  | zero s =>
    cases y with
    | nan => exact absurd rfl hb
    | zero t => exact absurd rfl (h s t rfl)
    | _ => rfl
  | _ =>
    cases y with
    | nan => exact absurd rfl hb
    | _ => rfl

/-- One of the two numbers is selected. -/
theorem maxMinF_mem (ha : decodeF g a ≠ .nan) (hb : decodeF g b ≠ .nan) : maxMinF g mx a b = a ∨ maxMinF g mx a b = b := by
  by_cases hz : ∃ s t, decodeF g a = .zero s ∧ decodeF g b = .zero t
  · obtain ⟨s, t, hs, ht⟩ := hz
    rw [maxMinF_zeros hs ht]
    split
    · exact .inr rfl
    · exact .inl rfl
  · rw [maxMinF_lt ha hb fun s t hs ht => hz ⟨s, t, hs, ht⟩]
    split
    · exact .inr rfl
    · exact .inl rfl

theorem maxMinF_of_lt (h : (decodeF g a).lt (decodeF g b) = true) : maxMinF g mx a b = if mx then b else a := by
  obtain ⟨ha, hb, hz⟩ := ext_lt_numbers h
  rw [maxMinF_lt ha hb hz, h]
  cases mx <;> rfl

theorem maxMinF_of_gt (h : (decodeF g b).lt (decodeF g a) = true) : maxMinF g mx a b = if mx then a else b := by
  obtain ⟨hb, ha, hz⟩ := ext_lt_numbers h
  rw [maxMinF_lt ha hb fun s t hs ht => hz t s ht hs, ext_lt_asymm h]
  cases mx <;> rfl

end

/-- Settles O12: products by the cases of the two, sums by the invariant of `sumDyadic`, roundings by `rne_rounds`, and selections by
the order, which is asymmetric. -/
theorem extendedReals : Obligations.ExtendedReals := by
  unfold Obligations.ExtendedReals
  refine ⟨fun x y => ⟨ext_mul_eq_nan, ?infinite, ?zero, ?finite⟩,
    fun l => ⟨exactSum_eq_nan, fun a => exactSum_eq_inf, fun E hn hi hE =>
      ⟨exactSum_of_ne_zero hn hi hE, exactSum_of_eq_zero hn hi hE⟩⟩, by decide, by decide, by decide,
    fun g => ⟨rfl, fun b => ⟨rfl, rfl⟩, Laws.rne_rounds g⟩, by decide,
    fun g mx a b => ⟨maxMinF_nan, fun ha hb => ⟨maxMinF_mem ha hb, maxMinF_of_lt, maxMinF_of_gt, ?pos, ?neg, ?same⟩⟩⟩
  case infinite =>
    rintro a rfl
    exact ext_mul_inf
  case zero =>
    rintro a rfl
    exact ext_mul_zero
  case finite =>
    rintro m e n g rfl rfl
    rfl
  case pos => exact fun hx hy => (maxMinF_zeros hx hy).trans (by cases mx <;> rfl)
  case neg => exact fun hx hy => (maxMinF_zeros hx hy).trans (by cases mx <;> rfl)
  case same =>
    rintro rfl
    exact (maxMinF_mem ha hb).elim id id

end Sys2Proof.Proofs
end

section
/-! PROOFS. Element-wise vector functions (O26). -/

namespace Sys2Proof.Proofs

open Sys2Proof Sys2Proof.Machine Sys2Proof.Safety

/-! Elements of packed registers (R70). -/

theorem packNat_lt (w : Nat) (l : List Nat) : packNat w l < 2 ^ (w * l.length) := by
  induction l with
  | nil => exact Nat.one_pos
  | cons x l ih =>
    have hx : x % 2 ^ w < 2 ^ w := Nat.mod_lt _ (Nat.two_pow_pos w)
    calc x % 2 ^ w + 2 ^ w * packNat w l
        < 2 ^ w * (packNat w l + 1) := by rw [Nat.mul_add, Nat.mul_one, Nat.add_comm]; exact Nat.add_lt_add_left hx _
      _ ≤ 2 ^ w * 2 ^ (w * l.length) := Nat.mul_le_mul_left _ ih
      _ = 2 ^ (w * (x :: l).length) := by rw [← pow_add, List.length_cons, Nat.mul_succ, Nat.add_comm]

/-- A packed list of at most `m` bits fits in `m` bits. -/
theorem toNat_ofNat_packNat {m w : Nat} {l : List Nat} (h : w * l.length ≤ m) : (BitVec.ofNat m (packNat w l)).toNat = packNat w l :=
  BitVec.toNat_ofNat _ m ▸ Nat.mod_eq_of_lt ((packNat_lt w l).trans_le (Nat.pow_le_pow_right Nat.two_pos h))

/-- Each place of a packed list holds its element. -/
theorem packNat_element (w : Nat) : ∀ (l : List Nat) (i : Nat), i < l.length →
    packNat w l >>> (i * w) % 2 ^ w = l.getD i 0 % 2 ^ w := by
  intro l
  induction l with
  | nil => exact fun i h => absurd h (Nat.not_lt_zero i)
  | cons x l ih =>
    intro i h
    have hp : 0 < 2 ^ w := Nat.two_pow_pos w
    cases i with
    | zero => simp [packNat]
    | succ i =>
      have hs : packNat w (x :: l) >>> w = packNat w l := by
        rw [packNat, Nat.shiftRight_eq_div_pow, Nat.add_mul_div_left _ _ hp, Nat.div_eq_of_lt (Nat.mod_lt _ hp), Nat.zero_add]
      rw [Nat.succ_mul, Nat.add_comm, Nat.shiftRight_add, hs, ih i (Nat.lt_of_succ_lt_succ h)]
      rfl

/-- Each element of a register that is built from its elements. -/
theorem elem_buildV (w : Nat) (f : Nat → Nat) {j : Nat} (h : j < 8192 / w) : elem w (buildV w f) j = f j % 2 ^ w := by
  have hl : ((upto (8192 / w)).map f).length = 8192 / w := by simp [upto]
  have hw : w * ((upto (8192 / w)).map f).length ≤ 8192 := hl.symm ▸ Nat.mul_div_le 8192 w
  rw [elem, buildV, packV, toNat_ofNat_packNat hw, packNat_element w _ j (h.trans_eq hl.symm)]
  simp [upto, h]

theorem elem_mod (w : Nat) (v : VReg) (j : Nat) : elem w v j % 2 ^ w = elem w v j := Nat.mod_mod _ _

/-- The active elements of a merge are the new ones, the others the old (R206). -/
theorem elem_mergeV (g : Option PReg) (sense : Bool) (w : Nat) (old : VReg) (f : Nat → Nat) {j : Nat} (h : j < 8192 / w) :
    elem w (mergeV g sense w old f) j = if elemActive g sense w j then f j % 2 ^ w else elem w old j := by
  rw [mergeV, elem_buildV w _ h]
  split
  · rfl
  · exact elem_mod w old j

/-! Element-wise forms (R206, R210). -/

section
variable {s : State} {k : Cur} {i : Instr} {f : Form}

/-- A form whose effect is element by element lands element by element. -/
theorem lanesLand_of_vecOp {eff sup : State → Run → State} {ty : Ty} {e : Nat → Nat} (h : Performs s k i f)
    (hi : exec i s = s.runOp i eff sup) (he : eff (opened s k f) (opOf k i f) = (opened s k f).vecOp (opOf k i f) ty e) :
    LanesLand s k i f ty e := by
  refine ⟨mergeV (opOf k i f).g f.sense ty.width (tget 0 k.before.v f.dst) e, resultLands_of ?_, fun j hj => elem_mergeV _ _ _ _ _ hj⟩
  rw [hi, State.runOp_performs h, he]
  rfl

theorem lanesLand_congr {ty : Ty} {e e' : Nat → Nat} (h : LanesLand s k i f ty e) (he : ∀ j, e j = e' j) : LanesLand s k i f ty e' :=
  funext he ▸ h

variable {w : VW}

/-- A form of one source, by what it does to an element. -/
theorem lanesLand_vec1 {fe : Ty → Nat → Nat} {e : Nat → Nat} (h : Performs s k i f)
    (hi : exec i s = s.runOp i fun s r => s.vec1 r w fe) (he : ∀ j, fe (vTy w) (vEl k i f (vTy w) 0 j) = e j) :
    LanesLand s k i f (vTy w) e := lanesLand_congr (lanesLand_of_vecOp h hi rfl) he

/-- A form of two sources, by what it does to two elements. -/
theorem lanesLand_vec2 {fe : Ty → Nat → Nat → Nat} {e : Nat → Nat} (h : Performs s k i f)
    (hi : exec i s = s.runOp i fun s r => s.vec2 r w fe)
    (he : ∀ j, fe (vTy w) (vEl k i f (vTy w) 0 j) (vEl k i f (vTy w) 1 j) = e j) :
    LanesLand s k i f (vTy w) e := lanesLand_congr (lanesLand_of_vecOp h hi rfl) he

end

/-- An element read in a type, modulo 2^n, is the element's own bits. -/
theorem wrapN_extI (sg : Bool) (n a : Nat) : wrapN (extI sg n a) n = a % 2 ^ n := by
  have hu : (((a % 2 ^ n : Nat) : Int) % ((2 ^ n : Nat) : Int)).toNat = a % 2 ^ n := by
    rw [← Int.natCast_mod, Nat.mod_mod, Int.toNat_natCast]
  unfold wrapN
  cases sg
  · exact hu
  · show (sext a n % ((2 ^ n : Nat) : Int)).toNat = a % 2 ^ n
    unfold sext
    dsimp only
    split
    · rw [Int.sub_emod_right, hu]
    · exact hu

theorem elem_lt (w : Nat) (v : VReg) (j : Nat) : elem w v j < 2 ^ w := Nat.mod_lt _ (Nat.two_pow_pos w)

/-- The elements of an integer type of `n` bits. -/
theorem vEl_lt {k : Cur} {i : Instr} {f : Form} {t : Ty} {sg : Bool} {n : Nat} (ht : t = .int sg n) (m j : Nat) :
    vEl k i f t m j < 2 ^ n := by
  rw [ht]
  exact elem_lt n _ j

theorem loI_le_hiI (sg : Bool) (n : Nat) : loI sg n ≤ hiI sg n := by
  have h (m : Nat) : (1 : Int) ≤ ((2 ^ m : Nat) : Int) := by exact_mod_cast Nat.one_le_two_pow
  cases sg
  · exact sub_nonneg_of_le (h n)
  · show -((2 ^ (n - 1) : Nat) : Int) ≤ ((2 ^ (n - 1) : Nat) : Int) - 1
    linarith [h (n - 1)]

theorem clampI_eq {lo hi : Int} (h : lo ≤ hi) (x : Int) : clampI lo hi x = max lo (min hi x) := by
  unfold clampI
  split
  · omega
  · split <;> omega

section
variable {t : Ty} {g : Fmt} {sg : Bool} {n a b : Nat}

theorem vElem1_flt {ff : Fmt → Ext → Nat} {fi : Bool → Nat → Int → Int} (ht : t = .flt g) :
    vElem1 t ff fi a = ff g (decodeF g a) := by rw [ht]; rfl

theorem vElem1_int {ff : Fmt → Ext → Nat} {fi : Bool → Nat → Int → Int} (ht : t = .int sg n) :
    vElem1 t ff fi a = wrapN (fi sg n (extI sg n a)) n := by rw [ht]; rfl

theorem vElem2_flt {ff : Fmt → Ext → Ext → Nat} {fi : Bool → Nat → Int → Int → Int} (ht : t = .flt g) :
    vElem2 t ff fi a b = ff g (decodeF g a) (decodeF g b) := by rw [ht]; rfl

theorem vElem2_int {ff : Fmt → Ext → Ext → Nat} {fi : Bool → Nat → Int → Int → Int} (ht : t = .int sg n) :
    vElem2 t ff fi a b = wrapN (fi sg n (extI sg n a) (extI sg n b)) n := by rw [ht]; rfl

theorem maxMinElem_flt {mx : Bool} (ht : t = .flt g) : maxMinElem mx t a b = maxMinF g mx a b := by rw [ht]; rfl

/-- The selection of two elements of an integer type (R210). -/
theorem maxMinElem_int {mx : Bool} (ht : t = .int sg n) (ha : a < 2 ^ n) (hb : b < 2 ^ n) :
    maxMinElem mx t a b = wrapN (if mx then max (extI sg n a) (extI sg n b) else min (extI sg n a) (extI sg n b)) n := by
  have hx (c : Nat) (hc : c < 2 ^ n) : c = wrapN (extI sg n c) n := ((wrapN_extI sg n c).trans (Nat.mod_eq_of_lt hc)).symm
  rw [ht, maxMinElem]
  rcases lt_or_ge (extI sg n a) (extI sg n b) with h | h
  · rw [decide_eq_true h, max_eq_right h.le, min_eq_left h.le]
    cases mx
    · exact hx a ha
    · exact hx b hb
  · rw [decide_eq_false h.not_gt, max_eq_left h, min_eq_right h]
    cases mx
    · exact hx b hb
    · exact hx a ha

/-- A saturating form (R210). -/
theorem iOnly_clampI {fi : Int → Int → Int} (ht : t = .int sg n) :
    iOnly (fun sg n x y => clampI (loI sg n) (hiI sg n) (fi x y)) t a b =
      wrapN (max (loI sg n) (min (hiI sg n) (fi (extI sg n a) (extI sg n b)))) n := by
  rw [iOnly, vElem2_int ht, clampI_eq (loI_le_hiI sg n)]

end

theorem vecFloat_of_vec1 {mk : VW → Instr} {ff : Fmt → Ext → Nat}
    (hx : ∀ w s, exec (mk w) s = s.runOp (mk w) fun s r => s.vec1 r w (fOnly ff)) : VecFloat mk ff :=
  fun s _ w _ _ hw h => lanesLand_vec1 h (hx w s) fun _ => vElem1_flt hw

theorem vecOne_of_vec1 {mk : VW → Instr} {ff : Fmt → Ext → Nat} {fi : Int → Int} {fj : Bool → Nat → Int → Int}
    (hf : ∀ sg n a, fj sg n a = fi a) (hx : ∀ w s, exec (mk w) s = s.runOp (mk w) fun s r => s.vec1 r w fun t => vElem1 t ff fj) :
    VecOne mk ff fi := fun s _ w _ h =>
  ⟨fun _ hw => lanesLand_vec1 h (hx w s) fun _ => vElem1_flt hw,
    fun _ _ hw => lanesLand_vec1 h (hx w s) fun _ => by rw [vElem1_int hw, hf]⟩

theorem int_abs_eq (a : Int) : (if a < 0 then -a else a) = (a.natAbs : Int) := by split <;> omega

/-! Values (R100, R211). -/

theorem quotientRounds : QuotientRounds := by
  intro g x y
  refine ⟨?nan, ?infLeft, ?zeroRight, ?infRight, ?zeroLeft, ?finite⟩
  case nan =>
    rintro (rfl | rfl | ⟨a, b, rfl, rfl⟩ | ⟨a, b, rfl, rfl⟩)
    · rfl
    · cases x <;> rfl
    · rfl
    · rfl
  case infLeft =>
    rintro a rfl hn hi
    cases y with
    | nan => exact absurd rfl hn
    | inf b => exact absurd rfl (hi b)
    | _ => rfl
  case zeroRight =>
    rintro b rfl hn hz
    cases x with
    | nan => exact absurd rfl hn
    | zero a => exact absurd rfl (hz a)
    | _ => rfl
  case infRight =>
    rintro b rfl hn hi
    cases x with
    | nan => exact absurd rfl hn
    | inf a => exact absurd rfl (hi a)
    | _ => rfl
  case zeroLeft =>
    rintro a rfl hn hz
    cases y with
    | nan => exact absurd rfl hn
    | zero b => exact absurd rfl (hz b)
    | _ => rfl
  case finite =>
    rintro m e n h hm hn rfl rfl
    exact Laws.divRne_rounds g m e n h hm hn

theorem rootsRound : RootsRound := fun g =>
  ⟨fun _ => rfl, rfl, rfl, rfl, fun _ => rfl, rfl, rfl, rfl, fun _ => rfl, fun m e => ⟨fun hm => ⟨if_pos hm, if_pos hm⟩,
    fun hm => ⟨Laws.sqrtRne_rounds g m e hm, Laws.rsqrtRne_rounds g m e hm⟩⟩⟩

theorem powersRound : PowersRound := fun g =>
  ⟨rfl, rfl, rfl, fun _ => rfl, Laws.exp2Rne_rounds g, rfl, rfl, rfl, fun _ => rfl, fun _ _ hm => if_pos hm, Laws.log2Rne_rounds g⟩

/-- VSZADD (R212): the size's logarithm is that of the natural number of the second type. -/
theorem vszadd_lanes {s : State} {k : Cur} {w : VW} {f : Form} {g : Fmt} (hw : vTy w = .flt g) (h : Performs s k (.vszadd w) f) :
    LanesLand s k (.vszadd w) f (vTy w) fun j =>
      szAdd g (vEl k (.vszadd w) f (vTy w) 0 j) (elem (tyOr w.type2).width ((opOf k (.vszadd w) f).vsrc 1) j) :=
  lanesLand_congr (lanesLand_of_vecOp h rfl rfl) fun _ => by
    rw [hw]
    rfl

/-- Settles O26: each form by what it does to an element, each value by its rounding law. -/
theorem vectorFunctions : Obligations.VectorFunctions := by
  unfold Obligations.VectorFunctions
  refine ⟨quotientRounds, rootsRound, powersRound, by decide, by decide, by decide, by decide +kernel,
    by decide, by decide +kernel, ?div, vecFloat_of_vec1 fun _ _ => rfl, vecFloat_of_vec1 fun _ _ => rfl,
    vecFloat_of_vec1 fun _ _ => rfl, vecFloat_of_vec1 fun _ _ => rfl, vecFloat_of_vec1 fun _ _ => rfl,
    fun _ _ _ _ _ => vszadd_lanes, vecOne_of_vec1 (fun _ _ => int_abs_eq) fun _ _ => rfl,
    vecOne_of_vec1 (fun _ _ _ => rfl) fun _ _ => rfl, fun s k w f sg n hw => ⟨?min, ?max, ?adds, ?subs, ?mulh⟩,
    fun s k w f g hw => ⟨?minF, ?maxF⟩⟩
  case div => exact fun s k w f g hw h => lanesLand_vec2 h rfl fun _ => vElem2_flt hw
  case min => exact fun h => lanesLand_vec2 h rfl fun _ => maxMinElem_int hw (vEl_lt hw _ _) (vEl_lt hw _ _)
  case max => exact fun h => lanesLand_vec2 h rfl fun _ => maxMinElem_int hw (vEl_lt hw _ _) (vEl_lt hw _ _)
  case adds => exact fun h => lanesLand_vec2 h rfl fun _ => iOnly_clampI hw
  case subs => exact fun h => lanesLand_vec2 h rfl fun _ => iOnly_clampI hw
  case mulh => exact fun h => lanesLand_vec2 h rfl fun _ => vElem2_int hw
  case minF => exact fun h => lanesLand_vec2 h rfl fun _ => maxMinElem_flt hw
  case maxF => exact fun h => lanesLand_vec2 h rfl fun _ => maxMinElem_flt hw

end Sys2Proof.Proofs
end

section
/-! PROOFS. Steps of the issue phase (O6). -/

namespace Sys2Proof.Proofs

open Sys2Proof Sys2Proof.Machine Sys2Proof.Safety

/-! No error is armed: nothing strikes (R385). -/

section Calm
variable {s : State} (h : s.pkg.armed = none)
include h

theorem strikeArmed_calm (r : Reader) (hit : UnitD → Bool) : s.strikeArmed r hit = s := by
  unfold State.strikeArmed
  rw [h]

theorem strikeMem_calm (r : Reader) (p : Port) (pa n : Nat) (w : Bool) : s.strikeMem r p pa n w = s := strikeArmed_calm h _ _

theorem strikeRegs_calm (c : Nat) (l : List (Cls × Nat)) (b : Bool) : s.strikeRegs c l b = s := strikeArmed_calm h _ _

theorem strikeUnit_calm (r : Reader) (a b c : Nat) : s.strikeUnit r a b c = s := strikeArmed_calm h _ _

theorem strikeTlb_calm (u : Tlb) (p t va : Nat) (r : Reader) : s.strikeTlb u p t va r = s := by
  unfold State.strikeTlb
  rw [h]
  rfl

theorem strikeWalk_calm (u : Tlb) (p t va : Nat) (r : Reader) : s.strikeWalk u p t va r = s := by
  unfold State.strikeWalk
  rw [h]
  rfl

theorem strikeCode_calm (r : Reader) (p t a : Nat) : s.strikeCode r p t a = s := by
  unfold State.strikeCode
  rw [h]
  rfl

theorem strikeFetch_calm (c a n : Nat) : s.strikeFetch c a n = s := by
  unfold State.strikeFetch
  refine List.foldl_fixed' (fun e => ?_) _
  rw [strikeTlb_calm h, strikeWalk_calm h]
  dsimp only
  split
  · exact strikeMem_calm h _ _ _ _ _
  · rfl

/-- No armed error and no poison in what the fetch reads: nothing strikes before the bundle. -/
theorem strikeBundle_calm {c a n : Nat} {b : Bundle} (hf : s.fetchBundle c = .bundle a n b) (hp : s.fetchPoison c a n = none) :
    s.strikeBundle c = s := by
  unfold State.strikeBundle
  split
  · rfl
  · rw [hf]
    dsimp only
    split
    · rfl
    · rw [strikeFetch_calm h, strikeRegs_calm h, List.foldl_fixed', hp]
      intro r
      split
      · exact strikeCode_calm h _ _ _ _
      · rfl

end Calm

/-- The next word of a routine that runs within its bounds (R239). -/
theorem microNext_ok {s : State} {id : Nat} {k : Call} {i : Instr} (hc : s.call id = some k) (hf : k.first ≤ k.upc) (hl : k.upc ≤ k.last)
    (hw : k.words < 4096) (hd : decodeMop (tget 0 (s.core k.core).store k.upc) = some i) : s.microNext id = .ok i := by
  unfold State.microNext
  simp only [hc, hd]
  rw [if_neg (by omega), if_neg (by omega)]

theorem setC_ctx (s : State) (t : Machine.Trans) (d : Nat) : (s.setC t).ctx d = s.ctx d := by
  unfold State.setC
  split <;> rfl

theorem useAsks_ctx (s : State) (ks : List Nat) (d : Nat) : (s.useAsks ks).ctx d = s.ctx d := by
  unfold State.useAsks
  split <;> rfl

/-- A translation touches no context. -/
theorem translate_ctx (s : State) (u : Tlb) (p t va d : Nat) : (s.translate u p t va).1.ctx d = s.ctx d := by
  unfold State.translate
  split
  · rfl
  · dsimp only
    split
    · rfl
    · split
      · exact (setC_ctx _ _ d).trans (useAsks_ctx _ _ d)
      · exact useAsks_ctx _ _ d
      · rfl

theorem fetchCached_ctx (s : State) (c a n d : Nat) : (s.fetchCached c a n).ctx d = s.ctx d :=
  ctx_foldl (fun t va => translate_ctx t _ _ _ va d) _ _

/-- A context whose bundle begins: its results due have landed, what it replays is in flight, and its age starts again (R56). -/
def issuer (s : State) (c : Nat) : Ctx := { (s.ctx c).resumed (s.now c) with age := 0, aged := false }

/-- A bundle has begun: its operations stand to act. -/
def begun (s : State) (c h size : Nat) (b : Bundle) : State :=
  { (s.fetchCached c h size).setCtx c (issuer s c) with cur := some (curOf c h size b (issuer s c)) }

/-- The beginning of a bundle that waits for nothing. -/
theorem beginBundle_bundle {s : State} {c h size : Nat} {b : Bundle} (hf : s.fetchBundle c = .bundle h size b)
    (hw : s.waits (runsOf c (curOf c h size b ((s.ctx c).resumed (s.now c))) ((s.ctx c).resumed (s.now c)) b.ops) = false) :
    s.beginBundle c = begun s c h size b := by
  unfold State.beginBundle
  rw [hf]
  dsimp only
  rw [hw, if_neg Bool.false_ne_true]
  rfl

theorem step_issue {s : State} (hp : s.phase = .issue) (hc : s.cur = none) (hm : s.micro = none) : step s = stepIssue s := by
  simp only [step, hc, hm, hp]

/-- The context whose turn it is, where nothing strikes, begins its bundle and executes the first operation. -/
theorem stepIssue_begins {s u : State} {c h size : Nat} {l : List Nat} {b : Bundle} {sl : Slot} {i : Instr} {ops : List (Slot × Instr)}
    (hc : s.cur = none) (ht : s.todo = c :: l) (hu : { s with todo := l } = u) (hst : (u.ctx c).st = .ready)
    (hs : u.strikeBundle c = u) (hf : u.fetchBundle c = .bundle h size b)
    (hw : u.waits (runsOf c (curOf c h size b ((u.ctx c).resumed (u.now c))) ((u.ctx c).resumed (u.now c)) b.ops) = false)
    (hb : b.ops = (sl, i) :: ops) : stepIssue s = exec i (begun u c h size b) := by
  unfold stepIssue
  split
  · next e => rw [hc] at e; cases e
  · split
    · next e => rw [ht] at e; cases e
    · next e =>
      rw [ht] at e
      cases e
      have hr : (!decide ((u.ctx c).st = .ready)) = false := by simpa using hst
      simp only [hu, hs, hr]
      rw [beginBundle_bundle hf hw]
      simp only [begun, curOf, hb]
      rfl

/-- Settles O6: each kind of step by the equations of `stepIssue` and `stepMicro`; a bundle that begins meets no strike. -/
theorem stepRunsDecoded : Obligations.StepRunsDecoded := by
  unfold Obligations.StepRunsDecoded
  refine ⟨?next, ?ends, ?begins, ?micro⟩
  case next =>
    intro s k sl i l hp hc ht
    simp only [step, hc, hp, stepIssue, ht]
  case ends =>
    intro s k hp hc ht
    simp only [step, hc, hp, stepIssue, ht]
  case begins =>
    intro s c h size l b sl i ops hp hc hm ht ha hst hf hpo hb hw
    refine ⟨begun { s with todo := l } c h size b, curOf c h size b (issuer { s with todo := l } c), ?_, rfl, rfl, rfl, rfl, rfl, rfl,
      rfl, (State.ctx_setCtx_self _ _ _).symm, congrArg Ctx.age (State.ctx_setCtx_self _ _ _), fun d hd => ?_⟩
    · rw [step_issue hp hc hm]
      exact stepIssue_begins hc ht rfl hst (strikeBundle_calm (s := { s with todo := l }) ha hf hpo) hf hw hb
    · exact (State.ctx_setCtx_ne _ _ hd).trans (fetchCached_ctx _ c h size d)
  case micro =>
    intro s id k i hc hm hk hf hl hw hd
    simp only [step, hc, hm, stepMicro, microNext_ok hk hf hl hw hd]

end Sys2Proof.Proofs
end

section
/-! PROOFS. Results that land (O14). -/

namespace Sys2Proof.Proofs

open Sys2Proof Sys2Proof.Machine Sys2Proof.Safety

/-! A register read after a write. -/

theorem reg_setReg_ne (x : Ctx) {c d : Cls} {n m : Nat} (v : Nat) (h : ¬ (c = d ∧ n = m)) : (x.setReg c n v).reg d m = x.reg d m := by
  by_cases hc : c = d
  · subst hc
    have hm : m ≠ n := fun e => h ⟨rfl, e.symm⟩
    cases c with
    | s =>
      unfold Ctx.setReg
      by_cases hn : n = 0
      · simp [hn]
      · simp [hn, Ctx.reg, tget_tset_ne _ _ _ hm]
    | a => rfl
    | l => rfl
    | _ => simp [Ctx.setReg, Ctx.reg, tget_tset_ne _ _ _ hm]
  · cases c with
    | s =>
      unfold Ctx.setReg
      dsimp only
      split
      · rfl
      · cases d <;> simp [Ctx.reg] at hc ⊢
    | _ => cases d <;> simp [Ctx.setReg, Ctx.reg] at hc ⊢

/-- What a write of a register leaves in it is no matter of what the context held. -/
theorem reg_setReg_self (x y : Ctx) (c : Cls) (n v : Nat) : (x.setReg c n v).reg c n = (y.setReg c n v).reg c n := by
  cases c with
  | s => by_cases hn : n = 0 <;> simp [Ctx.setReg, Ctx.reg, hn]
  | a => rfl
  | l => rfl
  | _ => simp only [Ctx.setReg, Ctx.reg, tget_tset_self]

theorem setReg_inflight (x : Ctx) (c : Cls) (n v : Nat) : (x.setReg c n v).inflight = x.inflight := by
  cases c with
  | s => unfold Ctx.setReg; dsimp only; split <;> rfl
  | _ => rfl

/-! Landing one result, and several in order. -/

/-- A context once one result has landed. -/
def landOne (x : Ctx) (l : Landing) : Ctx := match l.val with | some v => x.setReg l.cls l.idx v | none => x

theorem landDue_eq (x : Ctx) (now : Nat) :
    x.landDue now = (x.inflight.filter fun l => l.isDue now).foldl landOne { x with inflight := x.stillUp now } := rfl

theorem landOne_inflight (x : Ctx) (l : Landing) : (landOne x l).inflight = x.inflight := by
  unfold landOne
  split
  · exact setReg_inflight x _ _ _
  · rfl

theorem landOne_reg_ne (x : Ctx) {l : Landing} {c : Cls} {n : Nat} (h : ¬ (l.cls = c ∧ l.idx = n)) : (landOne x l).reg c n = x.reg c n := by
  unfold landOne
  split
  · exact reg_setReg_ne x _ h
  · rfl

theorem foldl_landOne_inflight (l : List Landing) (x : Ctx) : (l.foldl landOne x).inflight = x.inflight :=
  List.foldlRecOn (motive := fun y => y.inflight = x.inflight) l landOne rfl fun y hy a _ => (landOne_inflight y a).trans hy

/-- A register that none of the results names keeps its value. -/
theorem foldl_landOne_reg_ne {l : List Landing} {c : Cls} {n : Nat} (x : Ctx) (h : ∀ m ∈ l, ¬ (m.cls = c ∧ m.idx = n)) :
    (l.foldl landOne x).reg c n = x.reg c n :=
  List.foldlRecOn (motive := fun y => y.reg c n = x.reg c n) l landOne rfl fun y hy a ha => (landOne_reg_ne y (h a ha)).trans hy

/-- The last result for a register is what the register holds. -/
theorem foldl_landOne_reg_last {a b : List Landing} {l : Landing} {v : Nat} (x y : Ctx) (hv : l.val = some v)
    (hb : ∀ m ∈ b, ¬ (m.cls = l.cls ∧ m.idx = l.idx)) :
    ((a ++ l :: b).foldl landOne x).reg l.cls l.idx = (y.setReg l.cls l.idx v).reg l.cls l.idx := by
  rw [List.foldl_append, List.foldl_cons, foldl_landOne_reg_ne _ hb]
  unfold landOne
  rw [hv]
  exact reg_setReg_self _ y _ _ v

theorem landDue_inflight (x : Ctx) (now : Nat) : (x.landDue now).inflight = x.stillUp now := foldl_landOne_inflight _ _

/-- Where control stands in flight is no register. -/
theorem reg_inflight (x : Ctx) (l : List Landing) (c : Cls) (n : Nat) : ({ x with inflight := l } : Ctx).reg c n = x.reg c n := by
  cases c <;> rfl

/-- The landing of a context that is not frozen. -/
theorem execResultLanding_running {s : State} {c : Nat} (hf : (s.ctx c).frz.fault = none) (hu : (s.ctx c).frz.urgent = none) :
    execResultLanding c s = .next (s.setCtx c ((s.ctx c).landDue (s.now c))) := by
  unfold execResultLanding
  simp only [hf, hu]

/-- Settles O14: the results due land one after another, each by a write of its register. -/
theorem resultsLand : Obligations.ResultsLand := by
  unfold Obligations.ResultsLand
  intro s c hf hu
  obtain ⟨ho, hc, hx⟩ := setCtx_onlyCtx s c ((s.ctx c).landDue (s.now c))
  refine ⟨_, execResultLanding_running hf hu, ho, hc, ?last, ?others, ?left⟩
  case last =>
    intro l v a b hl hd hb hv
    have hfil : ((s.ctx c).inflight.filter fun l => l.isDue (s.now c)) =
        a.filter (fun l => l.isDue (s.now c)) ++ l :: b.filter fun l => l.isDue (s.now c) := by
      rw [hl, List.filter_append, List.filter_cons, if_pos hd]
    rw [hx, landDue_eq, hfil]
    refine foldl_landOne_reg_last _ _ hv fun m hm => ?_
    obtain ⟨hmb, hmd⟩ := List.mem_filter.mp hm
    exact fun e => hb m hmb ⟨hmd, e⟩
  case others =>
    intro cls n h
    rw [hx, landDue_eq, foldl_landOne_reg_ne, reg_inflight]
    intro m hm
    obtain ⟨hmi, hmd⟩ := List.mem_filter.mp hm
    exact fun e => h m hmi ⟨hmd, e⟩
  case left =>
    intro l hl
    rw [hx, landDue_inflight] at hl
    obtain ⟨hli, hld⟩ := List.mem_filter.mp hl
    rw [Bool.and_eq_true, Bool.not_eq_true'] at hld
    exact ⟨hli, hld.1⟩

end Sys2Proof.Proofs
end

section
/-! PROOFS. The frame of the register forms (O15). -/

namespace Sys2Proof.Proofs

open Sys2Proof Sys2Proof.Machine Sys2Proof.Safety

/-! What freezes, latches and results in flight leave of a context. -/

/-- A context that differs in its state, its snapshot, its latches, loops and ratio, and its results in flight alone. -/
def KeepsRegs (x y : Ctx) : Prop :=
  y = { x with st := y.st, snap := y.snap, holds := y.holds, loops := y.loops, depth := y.depth, ratio := y.ratio, replay := y.replay,
               block := y.block, frz := y.frz, inflight := y.inflight }

theorem KeepsRegs.refl (x : Ctx) : KeepsRegs x x := rfl

theorem KeepsRegs.reg {x y : Ctx} (h : KeepsRegs x y) (cls : Cls) (n : Nat) : y.reg cls n = x.reg cls n := by
  rw [h]
  cases cls <;> rfl

theorem freezeAt_keepsRegs (x : Ctx) (r : Rec) (now mark : Nat) (b : Bool) (p : Nat × Nat) : KeepsRegs x (x.freezeAt r now mark b p) := by
  unfold Ctx.freezeAt
  split
  · split <;> rfl
  · rfl

theorem takeFault_ctx (s : State) (c : Nat) (f : FaultInfo) (b : Bool) : (s.takeFault c f b).ctx c = s.ctx c ∨
    ∃ r n m p, (s.takeFault c f b).ctx c = (s.ctx c).freezeAt r n m b p := by
  unfold State.takeFault
  dsimp only
  split
  · exact .inl rfl
  · right
    refine ⟨mkRec c (s.ctx c) f, if b then s.now c else s.freezeCol c, s.serial, (s.foundIn, f.order),
      Eq.trans ?_ (State.ctx_setCtx_self s c _)⟩
    split
    · split <;> rfl
    · rfl

/-- What changes one context, and keeps its registers, keeps the frame. -/
theorem registerFrame_of_onlyCtx {s t : State} {c : Nat} (h : OnlyCtx s t c) (hk : KeepsRegs (s.ctx c) (t.ctx c)) : RegisterFrame s t := by
  obtain ⟨hr, ho⟩ := h
  have hx : ∀ d, KeepsRegs (s.ctx d) (t.ctx d) := by
    intro d
    by_cases hd : d = c
    · exact hd ▸ hk
    · rw [ho d hd]
      exact .refl _
  constructor
  case memory =>
    intro a
    rw [hr]
    rfl
  case regs => exact fun d => (hx d).reg
  case tokens =>
    intro d n
    rw [hx d]
    rfl
  case traps =>
    intro d
    rw [hx d]
    exact ⟨rfl, rfl, rfl, rfl, rfl⟩
  case levels =>
    intro d
    rw [hx d]
    exact ⟨rfl, rfl⟩
  case queues =>
    intro d
    rw [hx d]
    exact ⟨rfl, rfl⟩
  case shared =>
    rw [hr]
    exact ⟨rfl, rfl, rfl, rfl, rfl, rfl, rfl⟩

/-- A fault taken keeps the frame. -/
theorem takeFault_frame (s : State) (c : Nat) (f : FaultInfo) (b : Bool) : RegisterFrame s (s.takeFault c f b) := by
  refine registerFrame_of_onlyCtx (State.takeFault_only s c f b) ?_
  obtain e | ⟨r, n, m, p, e⟩ := takeFault_ctx s c f b
  · rw [e]
    exact .refl _
  · rw [e]
    exact freezeAt_keepsRegs _ _ _ _ _ _

/-! The classes of the faults that a bundle meets before it issues (R334). -/

section Classes
variable {P : FaultInfo → Prop}

theorem orElse_spec {α : Type} {P : α → Prop} {a : Option α} {b : Unit → Option α} (ha : ∀ e, a = some e → P e)
    (hb : ∀ e, b () = some e → P e) : ∀ e, a.orElse b = some e → P e := by
  intro e h
  cases a with
  | none => exact hb e h
  | some x => exact ha e h

theorem firstFault_spec {l : List Run} {f : Run → Option FaultInfo} (h : ∀ r ∈ l, ∀ e, f r = some e → P e) :
    ∀ e, firstFault l f = some e → P e := by
  intro e he
  obtain ⟨r, hr, hf⟩ := List.mem_filterMap.mp (List.mem_of_mem_head? he)
  exact h r hr e hf

theorem firstCause_cls {n : Nat} {l : List Run} {f : Run → Option (Nat × Nat)} : ∀ e, firstCause n l f = some e → e.cls = n := by
  refine firstFault_spec fun r _ e he => ?_
  obtain ⟨a, -, rfl⟩ := Option.map_eq_some_iff.mp he
  rfl

theorem privErr_cls {l : List Run} : ∀ e, firstFault l Run.privErr = some e → e.cls = 2 := by
  refine firstFault_spec fun r _ e he => ?_
  unfold Run.privErr at he
  split at he
  · cases he
    rfl
  · cases he

theorem tokenErr_cls {l : List Run} : ∀ e, firstFault l Run.tokenErr = some e → e.cls = 0x0C := by
  refine firstFault_spec fun r _ e he => ?_
  obtain ⟨k, -, hk⟩ := List.mem_filterMap.mp (List.mem_of_mem_head? he)
  split at hk
  · obtain ⟨a, -, rfl⟩ := Option.map_eq_some_iff.mp hk
    rfl
  · cases hk

theorem backErr_cls {s : State} {k : Cur} {l : List Run} : ∀ e, s.backErr k l = some e → e.cls = 3 := by
  intro e he
  unfold State.backErr at he
  dsimp only at he
  split at he
  · cases he
  · obtain ⟨a, -, rfl⟩ := Option.map_eq_some_iff.mp he
    rfl

theorem schedOf_cls {s : State} (l : List Run) : ∀ (w : List (Cls × Nat)) (e), s.schedOf l w = some e → e.cls = 4 := by
  induction l with
  | nil => exact fun _ _ h => nomatch h
  | cons r l ih =>
    intro w e he
    unfold State.schedOf at he
    split at he
    · cases he
      rfl
    · exact ih _ e he

/-- Without a transfer no bundle meets a fetch fault of a target (R168). -/
theorem bundleFault_cls {s : State} {k : Cur} {l : List Run} (h : ∀ r ∈ l, r.target = none) {e : FaultInfo}
    (he : s.bundleFault k l = some e) : e.cls ≠ 0x0B := by
  have of {n : Nat} (hn : n ≠ 0x0B) {o : Option FaultInfo} (hc : ∀ e, o = some e → e.cls = n) : ∀ e, o = some e → e.cls ≠ 0x0B :=
    fun e he => hc e he ▸ hn
  unfold State.bundleFault at he
  refine orElse_spec (of (by decide) privErr_cls) (orElse_spec (of (by decide) tokenErr_cls) (orElse_spec (of (by decide) firstCause_cls)
    (orElse_spec (of (by decide) backErr_cls) (orElse_spec (of (by decide) (schedOf_cls l [])) (orElse_spec (of (by decide) firstCause_cls)
    (orElse_spec (of (by decide) firstCause_cls) (orElse_spec (of (by decide) firstCause_cls) (orElse_spec (of (by decide) firstCause_cls)
    (orElse_spec (of (by decide) firstCause_cls) ?xlate))))))))) e he
  refine firstFault_spec fun r hr e he => ?_
  have ht := h r (List.mem_filter.mp hr).1
  obtain ⟨a, ha, -⟩ := Option.map_eq_some_iff.mp he
  unfold State.targetXlate at ha
  rw [ht] at ha
  split at ha
  · next e' => cases e'
  · cases ha

end Classes

/-- Only a form of slot C transfers control. -/
theorem target_eq_none {r : Run} (hf : formOf r.i = some r.f) (hs : r.f.slot ≠ .C) : r.target = none := by
  unfold Run.target
  split
  case h_8 => rfl
  all_goals
    next h =>
      rw [h] at hf
      exact absurd (congrArg Form.slot (Option.some.inj hf)).symm hs

/-- A bundle that meets a fault, and holds no operation of slot C, takes it and does nothing else. -/
theorem faultBundle_eq_takeFault {s : State} {c : Nat} {e : FaultInfo} {rs : List Run} (hc : ∀ r ∈ rs, r.f.slot ≠ .C) (he : e.cls ≠ 0x0B) :
    s.faultBundle c e rs = s.takeFault c e true := by
  have hf : rs.find? (fun r => decide (r.f.slot = .C)) = none := by
    rw [List.find?_eq_none]
    intro r hr
    simpa using hc r hr
  unfold State.faultBundle
  simp [hf, he]

/-- No operation of slot C stands after one of another slot (R162). -/
theorem runsOf_slot_ne {c : Nat} {k : Cur} {x : Ctx} {o : Slot × Instr} {l : List (Slot × Instr)} {f : Form} (hf : formOf o.2 = some f)
    (hs : f.slot ≠ .C) (hp : (((o :: l).filterMap fun o => formOf o.2).map fun f => f.slot.num).Pairwise (fun a b => a < b)) :
    ∀ r ∈ runsOf c k x (o :: l), formOf r.i = some r.f ∧ r.f.slot ≠ .C := by
  intro r hr
  obtain ⟨q, hq, hqr⟩ := List.mem_filterMap.mp hr
  split at hqr
  · cases hqr
  · obtain ⟨g, hg, rfl⟩ := Option.map_eq_some_iff.mp hqr
    refine ⟨hg, ?_⟩
    rw [List.filterMap_cons_some (f := fun o : Slot × Instr => formOf o.2) hf, List.map_cons, List.pairwise_cons] at hp
    obtain rfl | hl := List.mem_cons.mp hq
    · cases hf.symm.trans hg
      exact hs
    · intro e
      have := hp.1 g.slot.num (List.mem_map.mpr ⟨g, List.mem_filterMap.mpr ⟨q, hl, hg⟩, rfl⟩)
      rw [show g.slot = .C from e] at this
      exact absurd this (Nat.not_lt_zero _)

/-! The register forms. -/

theorem abSlot_ne_C (w : ABW) : abSlot w ≠ .C := by
  unfold abSlot
  split <;> decide

/-- An effect that is one result for the destination of its form. -/
def OneResult (eff : State → Run → State) : Prop := ∃ cls, ∃ v : Run → Nat, ∀ s r, eff s r = s.result r.c r.f cls (v r)

theorem result_oneResult (cls : Cls) (v : Run → Nat) : OneResult fun s r => s.result r.c r.f cls (v r) := ⟨cls, v, fun _ _ => rfl⟩

theorem scalarOp_oneResult (w : ABW) (g : Run → Bool → Nat → Int → Int → Int) : OneResult fun s r => s.scalarOp r w (g r) :=
  result_oneResult .s fun r => scalarResult (scalarTy w).1 (scalarTy w).2 (g r (scalarTy w).1 (scalarTy w).2 (r.sA w) (r.sB w))

theorem setSet_oneResult (g : Run → BitVec 512 → BitVec 512) : OneResult fun s r => s.setSet r (g r) :=
  result_oneResult .ag fun r => (g r (tget 0 r.x.ag r.dst)).toNat

theorem vecOp_oneResult (ty : Ty) (g : Run → Nat → Nat) : OneResult fun s r => s.vecOp r ty (g r) :=
  result_oneResult .v fun r => (mergeV r.g r.f.sense ty.width (tget 0 r.x.v r.dst) (g r)).toNat

theorem vec1_oneResult (w : VW) (g : Ty → Nat → Nat) : OneResult fun s r => s.vec1 r w g :=
  vecOp_oneResult (vTy w) fun r j => g (vTy w) (elem (vTy w).width (r.vsrc 0) j)

theorem vec2_oneResult (w : VW) (g : Ty → Nat → Nat → Nat) : OneResult fun s r => s.vec2 r w g :=
  vecOp_oneResult (vTy w) fun r j => g (vTy w) (elem (vTy w).width (r.vsrc 0) j) (elem (vTy w).width (r.vsrc 1) j)

theorem vec3_oneResult (w : VW) (g : Ty → Nat → Nat → Nat → Nat) : OneResult fun s r => s.vec3 r w g :=
  vecOp_oneResult (vTy w) fun r j =>
    g (vTy w) (elem (vTy w).width (r.vsrc 0) j) (elem (vTy w).width (r.vsrc 1) j) (elem (vTy w).width (r.vsrc 2) j)

theorem reduceOp_oneResult (w : VW) (n : Nat) : OneResult fun s r => s.reduceOp r w n :=
  result_oneResult .v fun r => (buildV (vTy w).width fun _ => r.reduce (vTy w) (tyOr w.type2) n).toNat

theorem predForm_oneResult (g : Bool → Bool → Bool) : OneResult fun s r => s.predForm r g :=
  result_oneResult .p fun r =>
    (predOp r.g r.f.sense g (BitVec.ofNat 512 (r.src 0)) (BitVec.ofNat 512 (r.src 1)) (r.x.pred r.dst)).toNat

/-- A register form runs through `runOp` in a slot other than C, and its effect is one result. -/
theorem registerForm_runs {i : Instr} (h : registerForm i = true) :
    ∃ f eff, formOf i = some f ∧ f.slot ≠ .C ∧ (∀ s, exec i s = s.runOp i eff) ∧ OneResult eff := by
  have hV : Slot.V ≠ .C := by decide
  have hX : Slot.X ≠ .C := by decide
  cases i <;> simp only [registerForm, Bool.false_eq_true] at h
  case mov | add | sub | mul | mulh | div | rem | and | or | xor | shl | shr | min | max | adds | subs | sel | clz | popc | ext =>
    exact ⟨_, _, rfl, abSlot_ne_C _, fun _ => rfl, scalarOp_oneResult _ _⟩
  case cmp => exact ⟨_, _, rfl, abSlot_ne_C _, fun _ => rfl, result_oneResult .p _⟩
  case adr | agrd | mprd => exact ⟨_, _, rfl, abSlot_ne_C _, fun _ => rfl, result_oneResult .s _⟩
  case mpset => exact ⟨_, _, rfl, abSlot_ne_C _, fun _ => rfl, result_oneResult .m _⟩
  case agbase | agdim | agidx | agind | agmode | agclr => exact ⟨_, _, rfl, abSlot_ne_C _, fun _ => rfl, setSet_oneResult _⟩
  case vmov | vabs | vneg | vsqrt | vrcp | vrsqrt | vexp2 | vlog2 | vnot =>
    exact ⟨_, _, rfl, hV, fun _ => rfl, vec1_oneResult _ _⟩
  case vadd | vsub | vmul | vdiv | vmin | vmax | vand | vor | vxor | vshl | vshr | vadds | vsubs | vmulh =>
    exact ⟨_, _, rfl, hV, fun _ => rfl, vec2_oneResult _ _⟩
  case vfma | vfms => exact ⟨_, _, rfl, hV, fun _ => rfl, vec3_oneResult _ _⟩
  case vbcast | vszadd | vsel | vperm | vrot | vins | viota => exact ⟨_, _, rfl, hV, fun _ => rfl, vecOp_oneResult _ _⟩
  case vrsum | vrmax | vrmin => exact ⟨_, _, rfl, hV, fun _ => rfl, reduceOp_oneResult _ _⟩
  case pand | por | pxor | pnot | pmov => exact ⟨_, _, rfl, hV, fun _ => rfl, predForm_oneResult _⟩
  case vcmp => exact ⟨_, _, rfl, hV, fun _ => rfl, result_oneResult .p _⟩
  case vextr | pcnt | pfirst => exact ⟨_, _, rfl, hV, fun _ => rfl, result_oneResult .s _⟩
  case vcvt => exact ⟨_, _, rfl, hV, fun _ => rfl, result_oneResult .v _⟩
  case xexp | xtrn | xcvt | xqnt | xred => exact ⟨_, _, rfl, hX, fun _ => rfl, result_oneResult .v _⟩

theorem land_onlyCtx (s : State) (c : Nat) (sl : Slot) (cls : Cls) (n lat : Nat) (v : Option Nat) (src : Nat) :
    OnlyCtx s (s.land c sl cls n lat v src) c ∧ KeepsRegs (s.ctx c) ((s.land c sl cls n lat v src).ctx c) := by
  rw [State.land_eq]
  split
  · exact ⟨⟨rfl, fun _ _ => rfl⟩, rfl⟩
  · obtain ⟨ho, -, hx⟩ := setCtx_onlyCtx s c { s.ctx c with inflight := (s.ctx c).inflight ++ [⟨cls, n, s.now c + lat, v, src, sl⟩] }
    exact ⟨ho, by rw [hx]; rfl⟩

theorem registerFrame_trans {s t u : State} (h : RegisterFrame s t) (g : RegisterFrame t u) : RegisterFrame s u := by
  obtain ⟨hm, hr, hk, ht, hl, hq, hs1, hs2, hs3, hs4, hs5, hs6, hs7⟩ := h
  obtain ⟨gm, gr, gk, gt, gl, gq, gs1, gs2, gs3, gs4, gs5, gs6, gs7⟩ := g
  constructor
  case memory => exact fun a => (gm a).trans (hm a)
  case regs => exact fun c cls n => (gr c cls n).trans (hr c cls n)
  case tokens => exact fun c n => (gk c n).trans (hk c n)
  case traps =>
    intro c
    obtain ⟨h1, h2, h3, h4, h5⟩ := ht c
    obtain ⟨g1, g2, g3, g4, g5⟩ := gt c
    exact ⟨g1.trans h1, g2.trans h2, g3.trans h3, g4.trans h4, g5.trans h5⟩
  case levels => exact fun c => ⟨(gl c).1.trans (hl c).1, (gl c).2.trans (hl c).2⟩
  case queues => exact fun c => ⟨(gq c).1.trans (hq c).1, (gq c).2.trans (hq c).2⟩
  case shared =>
    exact ⟨gs1.trans hs1, gs2.trans hs2, gs3.trans hs3, gs4.trans hs4, gs5.trans hs5, gs6.trans hs6, gs7.trans hs7⟩

/-- The bundle being issued is no part of the frame. -/
theorem registerFrame_cur (s : State) (k : Option Cur) : RegisterFrame s { s with cur := k } :=
  registerFrame_of_onlyCtx (c := 0) ⟨rfl, fun _ _ => rfl⟩ (.refl _)

theorem runOp_checked {s : State} {k : Cur} {i : Instr} {f : Form} (hc : s.cur = some k) (hk : k.checked = true) (hf : formOf i = some f)
    (eff sup : State → Run → State) : s.runOp i eff sup = .next (s.act k i f eff sup) := by
  simp [State.runOp, hc, hf, hk]

/-- A result put in flight keeps the frame. -/
theorem result_frame (s : State) (c : Nat) (f : Form) (cls : Cls) (v : Nat) : RegisterFrame s (s.result c f cls v) :=
  have h := land_onlyCtx s c f.slot cls f.dst f.lat (some v) 0
  registerFrame_of_onlyCtx h.1 h.2

/-- A change of the latches of a context keeps the frame. -/
theorem holds_frame (s : State) (c : Nat) (h : Tbl (Option Held)) : RegisterFrame s (s.setCtx c { s.ctx c with holds := h }) := by
  obtain ⟨ho, -, hx⟩ := setCtx_onlyCtx s c { s.ctx c with holds := h }
  exact registerFrame_of_onlyCtx ho (by rw [hx]; rfl)

/-- An operation whose effect is one result keeps the frame once its bundle issues. -/
theorem act_frame (s : State) (k : Cur) (i : Instr) (f : Form) {eff : State → Run → State} (h : OneResult eff) :
    RegisterFrame s (s.act k i f eff noSup) := by
  obtain ⟨cls, v, he⟩ := h
  unfold State.act
  dsimp only
  split
  · exact registerFrame_cur s _
  · rw [he]
    exact registerFrame_trans (registerFrame_cur s _) (registerFrame_trans (holds_frame _ _ _) (result_frame _ _ _ _ _))

/-- Settles O15: a register form either meets a fault of no transfer, which freezes its context alone, or puts one result in flight. -/
theorem registerFormsFrame : Obligations.RegisterFormsFrame := by
  unfold Obligations.RegisterFormsFrame
  intro i s t k sl l h hc ht hp he
  obtain ⟨f, eff, hf, hs, hx, hr⟩ := registerForm_runs h
  rw [ht] at hp
  have hno := runsOf_slot_ne (c := k.ctx) (k := k) (x := k.before) (o := (sl, i)) hf hs hp
  rw [← ht] at hno
  rw [hx] at he
  cases hk : k.checked with
  | true =>
    rw [runOp_checked hc hk hf] at he
    cases he
    exact act_frame s k i f hr
  | false =>
    cases hb : s.bundleFault k (runsOf k.ctx k k.before k.todo) with
    | some e =>
      rw [State.runOp_fault hc hk hf hb, faultBundle_eq_takeFault (fun r hr => (hno r hr).2)
        (bundleFault_cls (fun r hr => target_eq_none (hno r hr).1 (hno r hr).2) hb)] at he
      cases he
      exact registerFrame_trans (registerFrame_cur s none) (takeFault_frame _ _ _ _)
    | none =>
      rw [State.runOp_first hc hk hf hb, runOp_checked rfl rfl hf] at he
      cases he
      exact registerFrame_trans (registerFrame_cur s _) (act_frame _ _ i f hr)

end Sys2Proof.Proofs
end

section
/-! PROOFS. The partition scheduler: where its statement fails (O53). -/

namespace Sys2Proof.Proofs

open Sys2Proof Sys2Proof.Machine Sys2Proof.Safety

/-- Partition 0 on channel 0, its counter block at 0x180000, and an uncorrectable error armed in the line of device memory that the block
begins with, as ERRINJ leaves it (R385). -/
def counterArmed : State :=
  { State.reset with parts := [(0, { chans := [0] })], pkg := { armed := some (BitVec.ofNat 64 (2 * 2 ^ 60 + 0x180000 / 128), true) } }

theorem counterArmed_clear : Clear counterArmed 0 := ⟨rfl, ⟨rfl, rfl, rfl, rfl, rfl⟩, by decide⟩

/-- A write of the device's own waits for an armed error that it would read to strike (R386): the counter keeps its value. -/
theorem counterArmed_count : (counterArmed.count 0 0).rawByte 0x180000 = 0 := by decide +kernel

/-- Refutes O53: raising a counter writes its word only once no armed error stands in the line; the clause on the counter block does
not ask for that. -/
theorem not_scheduling : ¬ Obligations.Scheduling := by
  unfold Obligations.Scheduling
  intro h
  obtain ⟨_, _, _, _, _, _, _, _, _, _, _, _, hcount, _⟩ := h counterArmed
  have e := hcount 0 0 counterArmed_clear rfl rfl (by decide +kernel) 0 (by decide)
  have e' : (counterArmed.count 0 0).rawByte 0x180000 = 1 := e.trans (by decide +kernel)
  exact absurd (counterArmed_count.symm.trans e') (by decide)

end Sys2Proof.Proofs
end

section
/-! PROOFS. Accesses of the host: where their statement fails (O58). -/

namespace Sys2Proof.Proofs

open Sys2Proof Sys2Proof.Machine Sys2Proof.Safety

/-- A state whose list of partitions has two entries of number 1, of which the second alone protects page 0; the host reaches that page
through an HDM range of partition 0. The list is not in the form that `tset` keeps, and no statement of the model asks for it. -/
def twoEntries : State :=
  { State.reset with parts := [(0, { hdm := some (0, 256), chans := [0] }), (1, {}), (1, { tables := [0] })] }

/-- The first line of a write of two moves TDI 1 to ERROR, which leaves one entry of number 1, the one without tables: nothing protects
the page when the second line is written. -/
theorem twoEntries_hostWrite : (twoEntries.hostWrite 0 0 (List.replicate 129 1)).rawByte 128 = 1 := by decide +kernel

theorem exec_hostMemWrite (hpa : Nat) (d : List Byte) (s : State) : exec (.hostMemWrite hpa d) s = execHostMemWrite hpa d s := rfl

theorem twoEntries_hostMemWrite : exec (.hostMemWrite 0 (List.replicate 129 1)) twoEntries =
    .next (twoEntries.hostWrite 0 0 (List.replicate 129 1)) := by
  have hw : (twoEntries.hostWaits 0 0 129) = false := by decide +kernel
  have hd : twoEntries.hdmOf 0 = some (0, 0) := by decide +kernel
  rw [exec_hostMemWrite]
  unfold execHostMemWrite
  rw [hd]
  simp only [List.length_replicate, hw, Bool.and_false, Bool.false_eq_true, if_false]

/-- Refutes O58: the clause on a write of a protected page speaks of every state, also of one whose list of partitions has two entries
of one number; there the page is protected until the TDI is in ERROR, and the second line of a write changes it. -/
theorem not_hostAccesses : ¬ Obligations.HostAccesses := by
  unfold Obligations.HostAccesses
  intro h
  obtain ⟨_, _, _, _, _, _, _, _, _, _, _, _, _, _, _, _, _, hwrite, _⟩ := h twoEntries
  obtain ⟨_, hguard, _⟩ := hwrite 0 (List.replicate 129 1) 0 0 (by decide +kernel)
  obtain ⟨t, ht, _, _, hkept⟩ := hguard (by decide) 1 (by decide +kernel) (by decide) rfl rfl
    (List.cons_ne_nil _ _) (by rw [List.length_replicate]; decide)
  have e : t = twoEntries.hostWrite 0 0 (List.replicate 129 1) := Host.Outcome.next.inj (ht.symm.trans twoEntries_hostMemWrite)
  have hone : t.rawByte 128 = 1 := e ▸ twoEntries_hostWrite
  exact absurd (hone.symm.trans (hkept 128)) (by decide)

end Sys2Proof.Proofs
end

section
/-! PROOFS. Events of the engines: markers (O55). -/

namespace Sys2Proof.Proofs

open Sys2Proof Sys2Proof.Machine Sys2Proof.Safety

section Marker
variable {s : State} {c : Nat} {m : QEntry} {l : List QEntry}

theorem execMarkerComplete_ready (h : s.markReady c = some m) (hf : s.tokenFail c m = none) : execMarkerComplete c s =
    .next (s.updCtx c fun x => { x.complete (markOut m.op) m.id none with
      loadQ := x.loadQ.filter (fun e => !(e.id = m.id)), storeQ := x.storeQ.filter fun e => !(e.id = m.id),
      readFrom := x.readFrom.filter fun i => s.ctxs.any fun cx => cx.2.storeQ.any fun e => e.id = i }) := by
  simp only [execMarkerComplete, h, hf]

theorem performedAt_eq_true {e : QEntry} {n : Nat} (h : n < 3 ∧ n + 1 ≤ e.reach) : e.performedAt n = true := by
  simp [QEntry.performedAt, h]

/-- The marker at the head is complete when the stores before it and those its context has read are performed at its scope, and no
token or call keeps it waiting (R152). -/
theorem markReady_head (hq : (s.ctx c).loadQ = m :: l) (hm : isMark m.op = true)
    (hb : ∀ e ∈ (s.ctx c).storeQ.takeWhile (fun e => !(e.id = m.id)), markScope m.op < 3 ∧ markScope m.op + 1 ≤ e.reach)
    (hr : ∀ i ∈ (s.ctx c).readFrom, ∀ x ∈ s.ctxs, ∀ e ∈ x.2.storeQ, e.id = i →
      markScope m.op < 3 ∧ markScope m.op + 1 ≤ e.reach)
    (ht : s.tokenWait c m = false) (hc : s.callReads c m.id = false) : s.markReady c = some m := by
  have before : ((s.ctx c).storeQ.takeWhile fun e => !(e.id = m.id)).all (fun e => e.performedAt (markScope m.op)) = true :=
    List.all_eq_true.mpr fun e he => performedAt_eq_true (hb e he)
  have read : ((s.ctx c).readFrom.all fun i => s.ctxs.all fun cx => cx.2.storeQ.all fun e =>
      !(e.id = i) || e.performedAt (markScope m.op)) = true := by
    refine List.all_eq_true.mpr fun i hi => List.all_eq_true.mpr fun x hx => List.all_eq_true.mpr fun e he => ?_
    by_cases h : e.id = i
    · simp [performedAt_eq_true (hr i hi x hx e he h)]
    · simp [h]
  unfold State.markReady
  simp [hq, hm, before, read, ht, hc]

theorem token_wait_fail (h : ∀ k, m.tok = some k → s.prodBusy c k = false ∧ s.prodFail c k = none) :
    s.tokenWait c m = false ∧ s.tokenFail c m = none := by
  unfold State.tokenWait State.tokenFail
  cases hk : m.tok with
  | none => exact ⟨rfl, rfl⟩
  | some k => exact ⟨(h k hk).1, by simp only [(h k hk).2, Option.map_none]⟩

theorem callReads_eq_false {n : Nat} (h : ∀ k ∈ s.calls, k.ctx = c → k.id < n → k.reading = false) : s.callReads c n = false := by
  refine List.any_eq_false.mpr fun k hk e => ?_
  simp only [Bool.and_eq_true, decide_eq_true_eq] at e
  obtain ⟨⟨hc, hl⟩, hr⟩ := e
  rw [h k hk hc hl] at hr
  cases hr

/-- A token's completion: what it leaves of a context. -/
theorem complete_spec (x : Ctx) (k : Option Nat) (id : Nat) (r : Option Rec) :
    x.complete k id r = { x with tok := (x.complete k id r).tok } ∧
      (∀ n, k = some n → (x.token n).prod = id → ((x.complete k id r).token n).pending = false) ∧
      ∀ n, k ≠ some n → (x.complete k id r).token n = x.token n := by
  unfold Ctx.complete
  cases k with
  | none => exact ⟨rfl, fun n h => absurd h.symm (Option.some_ne_none n), fun _ _ => rfl⟩
  | some k =>
    dsimp only
    split
    · refine ⟨rfl, fun n hn _ => ?_, fun n hn => tget_tset_ne _ _ _ fun e => hn (by rw [e])⟩
      cases hn
      exact congrArg Tok.pending (tget_tset_self _ _ _ _)
    · next hp =>
      refine ⟨rfl, fun n hn hi => ?_, fun _ _ => rfl⟩
      cases hn
      simpa [hi] using hp

theorem exec_markerComplete (c : Nat) (s : State) : exec (.markerComplete c) s = execMarkerComplete c s := rfl

/-- A marker that waits for nothing leaves both queues and its token completes (R152). -/
theorem markerCompletes (hq : (s.ctx c).loadQ = m :: l) (hm : isMark m.op = true)
    (hb : ∀ e ∈ (s.ctx c).storeQ.takeWhile (fun e => !(e.id = m.id)), markScope m.op < 3 ∧ markScope m.op + 1 ≤ e.reach)
    (hr : ∀ i ∈ (s.ctx c).readFrom, ∀ x ∈ s.ctxs, ∀ e ∈ x.2.storeQ, e.id = i →
      markScope m.op < 3 ∧ markScope m.op + 1 ≤ e.reach)
    (ht : ∀ k, m.tok = some k → s.prodBusy c k = false ∧ s.prodFail c k = none)
    (hc : ∀ k ∈ s.calls, k.ctx = c → k.id < m.id → k.reading = false) : ∃ t,
      exec (.markerComplete c) s = .next t ∧ OnlyCtx s t c ∧
      t.cur = s.cur ∧ (t.ctx c).loadQ = (s.ctx c).loadQ.filter (fun e => !(e.id = m.id)) ∧
      (t.ctx c).storeQ = (s.ctx c).storeQ.filter (fun e => !(e.id = m.id)) ∧
      (∀ n, markOut m.op = some n → ((s.ctx c).token n).prod = m.id → ((t.ctx c).token n).pending = false) ∧
      (∀ n, markOut m.op ≠ some n → (t.ctx c).token n = (s.ctx c).token n) ∧
      ∀ cls n, (t.ctx c).reg cls n = (s.ctx c).reg cls n := by
  obtain ⟨hw, hf⟩ := token_wait_fail ht
  have hready := markReady_head hq hm hb hr hw (callReads_eq_false hc)
  obtain ⟨hx, hdone, hkept⟩ := complete_spec (s.ctx c) (markOut m.op) m.id none
  refine ⟨_, (exec_markerComplete c s).trans (execMarkerComplete_ready hready hf), ?_⟩
  obtain ⟨only, cur, self⟩ := setCtx_onlyCtx s c { (s.ctx c).complete (markOut m.op) m.id none with
    loadQ := (s.ctx c).loadQ.filter (fun e => !(e.id = m.id)), storeQ := (s.ctx c).storeQ.filter fun e => !(e.id = m.id),
    readFrom := (s.ctx c).readFrom.filter fun i => s.ctxs.any fun cx => cx.2.storeQ.any fun e => e.id = i }
  refine ⟨only, cur, congrArg Ctx.loadQ self, congrArg Ctx.storeQ self, fun n hn hp => ?_, fun n hn => ?_, fun cls n => ?_⟩
  · exact (congrArg (fun x => (x.token n).pending) self).trans (hdone n hn hp)
  · exact (congrArg (fun x => x.token n) self).trans (hkept n hn)
  · refine (congrArg (fun x => x.reg cls n) self).trans ?_
    rw [hx]
    cases cls <;> rfl

end Marker

end Sys2Proof.Proofs
end

section
/-! PROOFS. Events of the engines: the slot wheel (O55). -/

namespace Sys2Proof.Proofs

open Sys2Proof Sys2Proof.Machine Sys2Proof.Safety

/-! Sorting by a strict linear order. -/

section Sorted
variable {α : Type} {lt : α → α → Bool} (trans : ∀ a b c, lt a b = true → lt b c = true → lt a c = true)
  (total : ∀ a b, lt a b = true ∨ a = b ∨ lt b a = true)
include trans total

theorem pairwise_ins (a : α) {l : List α} (h : l.Pairwise fun x y => x = y ∨ lt x y = true) :
    (sortBy.ins lt a l).Pairwise fun x y => x = y ∨ lt x y = true := by
  induction h with
  | nil => exact List.pairwise_singleton _ a
  | @cons b l hb hl ih =>
    unfold sortBy.ins
    split
    · next hlt =>
      refine .cons (fun z hz => ?_) ih
      obtain rfl | hz := (mem_ins lt a z l).mp hz
      · exact .inr hlt
      · exact hb z hz
    · next hlt =>
      have hab : a = b ∨ lt a b = true := by
        obtain h | h | h := total a b
        · exact .inr h
        · exact .inl h
        · exact absurd h hlt
      refine .cons (fun z hz => ?_) (.cons hb hl)
      obtain rfl | hzl := List.mem_cons.mp hz
      · exact hab
      · obtain rfl | hab := hab
        · exact hb z hzl
        · obtain rfl | hbz := hb z hzl
          · exact .inr hab
          · exact .inr (trans _ _ _ hab hbz)

theorem pairwise_sortBy (l : List α) : (sortBy lt l).Pairwise fun x y => x = y ∨ lt x y = true := by
  induction l with
  | nil => exact .nil
  | cons a l ih => exact pairwise_ins trans total a ih

/-- The first of a sorted list comes before every other element of the list. -/
theorem sortBy_head {l r : List α} {a : α} (h : sortBy lt l = a :: r) : ∀ b ∈ l, a = b ∨ lt a b = true := by
  intro b hb
  have hp := pairwise_sortBy trans total l
  rw [h] at hp
  rw [← mem_sortBy lt, h] at hb
  obtain rfl | hb := List.mem_cons.mp hb
  · exact .inl rfl
  · exact List.rel_of_pairwise_cons hp hb

end Sorted

/-- The order of the merge stage (R55, R56): aged contexts first, those by number; the others by rank, then by number. -/
theorem ranks_iff (s : State) (a b : Nat) : s.ranks a b = true ↔
    ((s.ctx a).aged = true ∧ ((s.ctx b).aged = true → a < b)) ∨ ((s.ctx a).aged = false ∧ (s.ctx b).aged = false ∧
      (hRank (s.owner (s.ctx b).owner).hdr < hRank (s.owner (s.ctx a).owner).hdr ∨
        (hRank (s.owner (s.ctx a).owner).hdr = hRank (s.owner (s.ctx b).owner).hdr ∧ a < b))) := by
  unfold State.ranks
  cases ha : (s.ctx a).aged <;> cases hb : (s.ctx b).aged <;> simp [ha, hb]

theorem ranks_trans (s : State) (a b c : Nat) (hab : s.ranks a b = true) (hbc : s.ranks b c = true) : s.ranks a c = true := by
  rw [ranks_iff] at *
  grind

theorem ranks_total (s : State) (a b : Nat) : s.ranks a b = true ∨ a = b ∨ s.ranks b a = true := by
  rw [ranks_iff, ranks_iff]
  grind

/-! A position of the wheel. -/

section Wheel
variable {s : State} {n c : Nat}

/-- The contexts of a core. -/
theorem mem_coreContexts {c : Nat} (n : Nat) : c ∈ (upto 4).map (4 * n + ·) ↔ coreOf c = n := by
  simp only [upto, List.mem_map, List.mem_range, coreOf]
  constructor
  · rintro ⟨i, hi, rfl⟩
    omega
  · exact fun h => ⟨c % 4, by omega, by omega⟩

theorem withTurn_core (s : State) (n c : Nat) : (s.withTurn n c).core n = { s.core n with scTurn := some (c, s.cycle) } :=
  State.core_setCore_self _ _ _

/-- What a look for a position may ask of the host or a switch, and nothing else. -/
def AsksOnly (s t : State) : Prop :=
  t = { s with pkg := { s.pkg with snoops := t.pkg.snoops, swWant := t.pkg.swWant, atsReq := t.pkg.atsReq } }

theorem asksOnly_trans {s t u : State} (h : AsksOnly s t) (g : AsksOnly t u) : AsksOnly s u := by
  unfold AsksOnly at *
  rw [h] at g
  exact g

theorem asksOnly_foldl {α : Type} {f : State → α → State} (h : ∀ s a, AsksOnly s (f s a)) (l : List α) (s : State) :
    AsksOnly s (l.foldl f s) :=
  List.foldlRecOn l f (motive := AsksOnly s) rfl fun t ht a _ => asksOnly_trans ht (h t a)

theorem scAsks_only (s : State) (n c : Nat) : AsksOnly s (s.scAsks n c) := by
  unfold State.scAsks
  dsimp only
  split
  · exact asksOnly_foldl (fun s r => by rfl) _ _
  · rfl

/-- No access names a position when none is current. -/
theorem scOps_eq_nil (h : ∀ j, (s.core n).position j ≠ some (s.cycle % 512)) : s.scOps n c = [] := by
  unfold State.scOps
  split
  · refine List.filter_eq_nil_iff.mpr fun r _ => ?_
    split
    · next j _ => simp [h j]
    · exact Bool.false_ne_true
  · rfl

theorem takesTurn_eq_false (h : s.scOps n c = []) : s.takesTurn n c = false := by
  simp [State.takesTurn, h]

theorem scAsks_none (h : s.scOps n c = []) : s.scAsks n c = s := by
  unfold State.scAsks
  dsimp only
  split
  · rw [h]
    rfl
  · rfl

/-- What SLOT_WHEEL_POSITION leaves: the position given to `d`, or nothing but what the contexts of the core asked for. -/
theorem execSlotWheelPosition_cases (n : Nat) (s : State) :
    (∃ d, coreOf d = n ∧ s.takesTurn n d = true ∧ s.scQueued n = false ∧
        (∀ c, coreOf c = n → s.takesTurn n c = true → c = d ∨ s.ranks d c = true) ∧
        execSlotWheelPosition n s = .next (s.withTurn n d)) ∨
      ((s.scQueued n = true ∨ ∀ c, coreOf c = n → s.takesTurn n c = false) ∧
        execSlotWheelPosition n s = .next (((upto 4).map (4 * n + ·)).foldl (fun t c => t.scAsks n c) s)) := by
  unfold execSlotWheelPosition
  dsimp only
  cases hq : s.scQueued n with
  | true => exact .inr ⟨.inl rfl, rfl⟩
  | false =>
    rw [if_neg Bool.false_ne_true]
    cases hs : sortBy s.ranks (((upto 4).map (4 * n + ·)).filter (s.takesTurn n)) with
    | nil =>
      refine .inr ⟨.inr fun c hc => ?_, rfl⟩
      by_contra hne
      have hm : c ∈ sortBy s.ranks (((upto 4).map (4 * n + ·)).filter (s.takesTurn n)) :=
        (mem_sortBy _ _ _).mpr (List.mem_filter.mpr ⟨(mem_coreContexts n).mpr hc, by simpa using hne⟩)
      rw [hs] at hm
      exact List.not_mem_nil hm
    | cons d r =>
      have hm : d ∈ ((upto 4).map (4 * n + ·)).filter (s.takesTurn n) :=
        (mem_sortBy s.ranks _ _).mp (by rw [hs]; exact List.mem_cons_self)
      obtain ⟨hc, ht⟩ := List.mem_filter.mp hm
      refine .inl ⟨d, (mem_coreContexts n).mp hc, ht, rfl, fun c hc ht => ?_, rfl⟩
      obtain h | h := sortBy_head (ranks_trans s) (ranks_total s) hs c (List.mem_filter.mpr ⟨(mem_coreContexts n).mpr hc, ht⟩)
      · exact .inl h.symm
      · exact .inr h

/-- A context whose next bundle names the current position, and with it waits for nothing and stays in no queue, may take it. -/
theorem takesTurn_of_ready {x : Ctx} {h size : Nat} {b : Bundle} {o : Slot × Instr} {f : Form} {j : Nat} {l r : _} {g : _}
    (hf : s.fetchBundle c = .bundle h size b) (hx : x = (s.ctx c).resumed (s.now c)) (ho : o ∈ b.ops) (hh : isHint o.2 = false)
    (hform : formOf o.2 = some f) (hj : scIndex o.2 = some j) (hs : (⟨c, curOf c h size b x, o.2, f, x⟩ : Run).sup = false)
    (hp : (s.core n).position j = some (s.cycle % 512)) (hl : (s.withTurn n c).look c = .ready l g r)
    (hstay : ∀ y ∈ s.scOps n c, (s.withTurn n c).scStays y = false) : s.takesTurn n c = true := by
  have hmem : (⟨c, curOf c h size b x, o.2, f, x⟩ : Run) ∈ s.scOps n c := by
    unfold State.scOps
    rw [hf]
    refine List.mem_filter.mpr ⟨List.mem_filterMap.mpr ⟨o, ho, ?_⟩, ?_⟩
    · rw [hh, hform, hx]
      rfl
    · simp only [hj, hs, hp, decide_true, Bool.not_false, Bool.and_self]
  unfold State.takesTurn
  have hne : (s.scOps n c).isEmpty = false := by
    rw [List.isEmpty_eq_false_iff]
    exact List.ne_nil_of_mem hmem
  have hno : ((s.scOps n c).any (s.withTurn n c).scStays) = false :=
    List.any_eq_false.mpr fun y hy e => by rw [hstay y hy] at e; cases e
  simp only [hne, hl, hno, Bool.not_false, Bool.and_self]

end Wheel

end Sys2Proof.Proofs
end
section
/-! PROOFS. Events of the engines: arrivals at handlers (O55). -/

namespace Sys2Proof.Proofs

open Sys2Proof Sys2Proof.Machine Sys2Proof.Safety

section Handler
variable {s : State} {c : Nat}

/-- The word of a fault record that names it (Table 23.3). -/
theorem mkRec_w0 (c : Nat) (x : Ctx) (f : FaultInfo) : (mkRec c x f).w0.toNat =
    f.cls % 2 ^ 8 + x.part % 16 * 2 ^ 12 + f.tok % 128 * 2 ^ 16 + b2n f.delayed * 2 ^ 25 + x.level.num * 2 ^ 26 + f.slot % 16 * 2 ^ 28 +
      c % 512 * 2 ^ 32 + f.sub % 128 * 2 ^ 41 + f.code % 2 ^ 16 * 2 ^ 48 := by
  have hb : b2n f.delayed ≤ 1 := by cases f.delayed <;> decide
  have hl : x.level.num ≤ 2 := by cases x.level <;> decide
  show (BitVec.ofNat 64 _).toNat = _
  rw [BitVec.toNat_ofNat]
  exact Nat.mod_eq_of_lt (by omega)

theorem mkRec_cls (c : Nat) (x : Ctx) (f : FaultInfo) : (mkRec c x f).cls = f.cls % 256 := by
  have hb : b2n f.delayed ≤ 1 := by cases f.delayed <;> decide
  unfold Rec.cls
  rw [mkRec_w0]
  omega

theorem mkRec_sub (c : Nat) (x : Ctx) (f : FaultInfo) : bits (mkRec c x f).w0.toNat 47 41 = f.sub % 128 := by
  have hb : b2n f.delayed ≤ 1 := by cases f.delayed <;> decide
  have hl : x.level.num ≤ 2 := by cases x.level <;> decide
  unfold bits
  rw [mkRec_w0]
  omega

theorem mkRec_code (c : Nat) (x : Ctx) (f : FaultInfo) : (mkRec c x f).code = f.code % 2 ^ 16 := by
  have hb : b2n f.delayed ≤ 1 := by cases f.delayed <;> decide
  have hl : x.level.num ≤ 2 := by cases x.level <;> decide
  unfold Rec.code
  rw [mkRec_w0]
  omega

/-- What a fault taken leaves of a context without one that runs. -/
theorem takeFault_running (f : FaultInfo) (b : Bool) (hs : (s.ctx c).st = .ready) (hd : (s.ctx c).dying = none)
    (hf : (s.ctx c).frz.fault = none) :
    KeepsRegs (s.ctx c) ((s.takeFault c f b).ctx c) ∧ ((s.takeFault c f b).ctx c).st = .frozen ∧
      ∃ m n, ((s.takeFault c f b).ctx c).frz.fault = some (mkRec c (s.ctx c) f, m, n) := by
  have e : (s.takeFault c f b).ctx c =
      (s.ctx c).freezeAt (mkRec c (s.ctx c) f) (if b then s.now c else s.freezeCol c) s.serial b (s.foundIn, f.order) := by
    unfold State.takeFault
    dsimp only
    rw [if_neg (by simp [hs, hd])]
    refine Eq.trans ?_ (State.ctx_setCtx_self s c _)
    split
    · split <;> rfl
    · rfl
  rw [e]
  refine ⟨freezeAt_keepsRegs _ _ _ _ _ _, ?_⟩
  rw [Ctx.freezeAt_first _ _ _ _ _ hf]
  exact ⟨rfl, _, _, rfl⟩

/-- A context enters the object at its address (R168): nothing else of the state differs. -/
theorem enter_only (s : State) (c : Nat) : OnlyCtx s (s.enter c) c ∧ sameButEntry ((s.enter c).ctx c) (s.ctx c) := by
  refine ⟨(setCtx_onlyCtx s c _).1, ?_⟩
  have e := State.ctx_setCtx_self s c { s.ctx c with
    code := s.objectAt (s.ctx c).part (s.ctx c).tenant (s.ctx c).pc,
    safes := match s.objectAt (s.ctx c).part (s.ctx c).tenant (s.ctx c).pc with
      | some o => s.safesOf (s.ctx c).part (s.ctx c).tenant o
      | none => [] }
  exact (show (s.enter c).ctx c = _ from e) ▸ rfl

/-- A start with no armed error about: the context enters what its pc names, and keeps the rest, or takes a TARGET fault (R165). -/
theorem checkStart_spec (ha : s.pkg.armed = none) (hs : (s.ctx c).st = .ready) (hd : (s.ctx c).dying = none)
    (hf : (s.ctx c).frz.fault = none) : (∀ d, d ≠ c → (s.checkStart c).ctx d = s.ctx d) ∧
      (sameButEntry ((s.checkStart c).ctx c) (s.ctx c) ∨
        ∃ y, sameButEntry y (s.ctx c) ∧ KeepsRegs y ((s.checkStart c).ctx c) ∧ ((s.checkStart c).ctx c).st = .frozen ∧
          ∃ r m b, ((s.checkStart c).ctx c).frz.fault = some (r, m, b) ∧ r.cls = 3) := by
  obtain ⟨⟨_, others⟩, same⟩ := enter_only s c
  have hs' : ((s.enter c).ctx c).st = .ready := by rw [same]; exact hs
  have hd' : ((s.enter c).ctx c).dying = none := by rw [same]; exact hd
  have hf' : ((s.enter c).ctx c).frz.fault = none := by rw [same]; exact hf
  unfold State.checkStart
  dsimp only
  rw [strikeCode_calm ha]
  split
  · next k _ =>
    obtain ⟨hk, hst, m, n, hfault⟩ := takeFault_running
      { cls := 3, code := k.1, adr := ((s.enter c).ctx c).pc, pc := ((s.enter c).ctx c).pc } true hs' hd' hf'
    obtain ⟨_, kept⟩ := State.takeFault_only (s.enter c) c
      { cls := 3, code := k.1, adr := ((s.enter c).ctx c).pc, pc := ((s.enter c).ctx c).pc } true
    exact ⟨fun d h => (kept d h).trans (others d h),
      .inr ⟨(s.enter c).ctx c, same, hk, hst, _, m, n, hfault, mkRec_cls _ _ _⟩⟩
  · exact ⟨others, .inl same⟩

/-- What neither entering an object nor a fault taken changes of a context that starts. -/
structure StartsAs (x y : Ctx) : Prop where
  pc       : y.pc = x.pc
  level    : y.level = x.level
  arrivals : y.arrivals = x.arrivals
  regs     : ∀ cls n, y.reg cls n = x.reg cls n

theorem startsAs_of_entry {x y : Ctx} (h : sameButEntry y x) : StartsAs x y := by
  rw [h]
  exact ⟨rfl, rfl, rfl, fun cls _ => by cases cls <;> rfl⟩

theorem startsAs_of_fault {x y z : Ctx} (h : sameButEntry y x) (hk : KeepsRegs y z) : StartsAs x z := by
  obtain ⟨hp, hl, ha, hr⟩ := startsAs_of_entry h
  exact ⟨by rw [hk]; exact hp, by rw [hk]; exact hl, by rw [hk]; exact ha, fun cls n => (hk.reg cls n).trans (hr cls n)⟩

/-- The registers of a handler that starts on an arrival (R65). -/
theorem startHandler_reg (x : Ctx) (e : Nat) (lv : Level) (a : Arrival) :
    (x.startHandler e lv a).reg .s 1 = a.arg % 2 ^ 64 ∧ (x.startHandler e lv a).reg .s 2 = a.len % 2 ^ 64 ∧
      (x.startHandler e lv a).reg .s 3 = a.sender % 2 ^ 64 ∧ ∀ n, 3 < n → (x.startHandler e lv a).reg .s n = 0 := by
  have hreg : ∀ n, 0 < n → (x.startHandler e lv a).reg .s n = (tget (0 : Word) (tset 0 (tset 0 (tset 0 [] 1 (BitVec.ofNat 64 a.arg)) 2
      (BitVec.ofNat 64 a.len)) 3 (BitVec.ofNat 64 a.sender)) n).toNat := fun n hn => if_neg (by omega)
  refine ⟨?_, ?_, ?_, fun n hn => ?_⟩
  · rw [hreg 1 (by decide), tget_tset_ne _ _ _ (by decide), tget_tset_ne _ _ _ (by decide), tget_tset_self, BitVec.toNat_ofNat]
  · rw [hreg 2 (by decide), tget_tset_ne _ _ _ (by decide), tget_tset_self, BitVec.toNat_ofNat]
  · rw [hreg 3 (by decide), tget_tset_self, BitVec.toNat_ofNat]
  · rw [hreg n (by omega), tget_tset_ne _ _ _ (by omega), tget_tset_ne _ _ _ (by omega), tget_tset_ne _ _ _ (by omega)]
    rfl

/-- An arrival starts a DORMANT handler, in the state of a claim at its letter's entry (R65). -/
theorem handlerArrives {a : Arrival} {l : List Arrival} {q : Quire} (hl : (s.ctx c).arrivals = a :: l) (hs : (s.ctx c).st = .dormant)
    (hd : (s.ctx c).dismissed = false) (hq : s.quire (s.ctx c).quire = some q) (ha : s.pkg.armed = none) : ∃ t,
      exec (.handlerArrival c) s = .next t ∧ (∀ d, d ≠ c → t.ctx d = s.ctx d) ∧
      StartsAs ((s.ctx c).startHandler (lEntry q.letter) (s.startLevel (s.ctx c).part (s.ctx c).tenant (lEntry q.letter)) a) (t.ctx c) ∧
      ((t.ctx c).st = .ready ∨ ((t.ctx c).st = .frozen ∧ ∃ r m b, (t.ctx c).frz.fault = some (r, m, b) ∧ r.cls = 3)) := by
  have he : s.entryOf c = lEntry q.letter := by simp only [State.entryOf, hq]
  have hrun : execHandlerArrival c s = .next (((s.dropGrants c).setCtx c ((s.ctx c).startHandler (lEntry q.letter)
      (s.startLevel (s.ctx c).part (s.ctx c).tenant (lEntry q.letter)) a)).checkStart c) := by
    unfold execHandlerArrival
    simp only [hl, hs, hd, he, decide_true, Bool.not_false, Bool.and_self, if_true]
  have hx : ∀ e lv, ((s.ctx c).startHandler e lv a).st = .ready ∧ ((s.ctx c).startHandler e lv a).dying = none ∧
    ((s.ctx c).startHandler e lv a).frz.fault = none := fun _ _ => ⟨rfl, rfl, rfl⟩
  obtain ⟨hst, hdy, hfz⟩ := hx (lEntry q.letter) (s.startLevel (s.ctx c).part (s.ctx c).tenant (lEntry q.letter))
  generalize (s.ctx c).startHandler (lEntry q.letter) (s.startLevel (s.ctx c).part (s.ctx c).tenant (lEntry q.letter)) a = x at *
  have self : ((s.dropGrants c).setCtx c x).ctx c = x := State.ctx_setCtx_self _ _ _
  have calm : ((s.dropGrants c).setCtx c x).pkg.armed = none := by
    rw [State.setCtx_pkg, dropGrants_frees s c]
    exact ha
  obtain ⟨others, own⟩ := checkStart_spec calm (by rw [self]; exact hst) (by rw [self]; exact hdy) (by rw [self]; exact hfz)
  rw [self] at own
  refine ⟨_, hrun, fun d h => (others d h).trans ((State.ctx_setCtx_ne _ _ h).trans (ctx_dropGrants s c d)), ?_⟩
  obtain same | ⟨y, same, kept, frozen, fault⟩ := own
  · exact ⟨startsAs_of_entry same, .inl (by rw [same]; exact hst)⟩
  · exact ⟨startsAs_of_fault same kept, .inr ⟨frozen, fault⟩⟩

end Handler
end Sys2Proof.Proofs
end

section
/-! PROOFS. Events of the engines: tile allocation (O55). -/

namespace Sys2Proof.Proofs

open Sys2Proof Sys2Proof.Machine Sys2Proof.Safety

/-! Commands by number. -/

section Cmds
variable {s : State} {id : Nat}

theorem findFirst_map {α : Type} {p : α → Bool} {f : α → α} (h : ∀ a, p (f a) = p a) (l : List α) :
    findFirst p (l.map f) = (findFirst p l).map f := by
  simp only [findFirst_eq_find?, List.find?_map]
  congr 2
  exact funext h

theorem findFirst_prop {α : Type} {p : α → Bool} {l : List α} {a : α} (h : findFirst p l = some a) : p a = true :=
  List.find?_some (findFirst_eq_find? p l ▸ h)

/-- The command found under a number has that number. -/
theorem cmd_id {e : ECmd} (h : s.cmd id = some e) : e.id = id := by simpa using findFirst_prop h

/-- A change of a command that keeps its number is what is found under that number. -/
theorem cmd_updCmd {f : ECmd → ECmd} (h : ∀ e, (f e).id = e.id) : (s.updCmd id f).cmd id = (s.cmd id).map f := by
  unfold State.cmd State.updCmd mapIf
  dsimp only
  rw [findFirst_map (fun e => by by_cases hi : e.id = id <;> simp [hi, h])]
  cases he : findFirst (fun e : ECmd => decide (e.id = id)) s.cmds with
  | none => rfl
  | some e =>
    have := findFirst_prop he
    simp only [Option.map_some, this, if_true]

/-- A command that is done, with its first failure and an end still to come (R250). -/
theorem cmd_doneCmd {e : ECmd} (h : s.cmd id = some e) (ha : e.acted = false) (r : Option Rec) :
    (s.doneCmd id r).cmd id = some { e with begun := true, acted := true, fail := r, wait := s.newWait.1 } := by
  unfold State.doneCmd
  rw [cmd_updCmd fun e => by split <;> rfl]
  have : s.newWait.2.cmd id = some e := h
  rw [this, Option.map_some, ha]
  rfl

end Cmds

section Allocation
variable {s : State} {n : Nat} {e : ECmd} {b : Tile}

/-- The fields of the word of a TALLOC (Table 13.2). -/
theorem talloc_fields {cols es lv m mf : Nat} (hc : cols < 2 ^ 14) (he : es < 4) (hl : lv < 4) (hm : m < 64) (hf : mf < 2) :
    let w := cols + es * 2 ^ 14 + lv * 2 ^ 16 + m * 2 ^ 18 + mf * 2 ^ 24
    bits w 31 25 = 0 ∧ bits w 17 16 = lv ∧ bit w 24 = decide (mf = 1) ∧ bits w 23 18 = m ∧ bits w 13 0 = cols ∧ bits w 15 14 = es := by
  dsimp only
  unfold bits bit
  rw [Nat.testBit_eq_decide_div_mod_eq]
  refine ⟨by omega, by omega, ?_, by omega, by omega, by omega⟩
  congr 1
  exact propext (by omega)

theorem setAllocQ_eq (s : State) (a : Nat) (l : List Nat) :
    s.setAllocQ a l = { s with cores := (s.setAllocQ a l).cores, stackTab := (s.setAllocQ a l).stackTab } := by
  unfold State.setAllocQ
  split <;> rfl

/-- Generations advance, and structures may have to be zeroed; nothing else. -/
def GensOnly (s t : State) : Prop := t = { s with gens := t.gens, zeroing := t.zeroing }

theorem bumpGen_only (s : State) (g : Nat) : GensOnly s (s.bumpGen g) := by
  unfold GensOnly State.bumpGen
  rw [freeGen_eq]

theorem gensOnly_trans {s t u : State} (h : GensOnly s t) (g : GensOnly t u) : GensOnly s u := by
  unfold GensOnly at *
  rw [h] at g
  exact g

theorem foldl_bumpGen_only (l : List Nat) (s : State) : GensOnly s (l.foldl State.bumpGen s) := by
  induction l generalizing s with
  | nil => rfl
  | cons g l ih => exact gensOnly_trans (bumpGen_only s g) (ih _)

/-- Contexts each changed by a change that is made once for all. -/
theorem foldl_updCtx {f : Ctx → Ctx} (hf : ∀ x, f (f x) = f x) (l : List Nat) (s : State) :
    l.foldl (fun s m => s.updCtx m f) s = { s with ctxs := (l.foldl (fun s m => s.updCtx m f) s).ctxs } ∧
      ∀ c, (l.foldl (fun s m => s.updCtx m f) s).ctx c = if c ∈ l then f (s.ctx c) else s.ctx c := by
  induction l generalizing s with
  | nil => exact ⟨rfl, fun _ => rfl⟩
  | cons m l ih =>
    obtain ⟨hr, hx⟩ := ih (s.updCtx m f)
    refine ⟨hr, fun c => (hx c).trans ?_⟩
    by_cases hc : c = m
    · subst hc
      rw [show (s.updCtx c f).ctx c = f (s.ctx c) from State.ctx_setCtx_self _ _ _]
      simp [hf]
    · rw [show (s.updCtx m f).ctx c = s.ctx c from State.ctx_setCtx_ne _ _ hc]
      simp [hc]

/-- A tile's number in the tables of its holders (R123). -/
theorem enterTile_spec (s : State) (t : Tile) (c h : Nat) : s.enterTile t c h = { s with ctxs := (s.enterTile t c h).ctxs } ∧
    ∀ d, (s.enterTile t c h).ctx d = if d ∈ s.holders t c then { s.ctx d with tiles := tset 0 (s.ctx d).tiles h t.id } else s.ctx d :=
  foldl_updCtx (fun x => by rw [tset_tset]) _ _

/-- The head of an allocator off its queue: nothing else that its service reads differs. -/
theorem execAllocationServed_head (h : s.allocHead n = some (e, .ok b)) : ∃ u : State,
    u = { s with cores := u.cores, stackTab := u.stackTab } ∧ execAllocationServed n s =
      if (s.holders b e.ctx).any (fun c => !(tget 0 (s.ctx c).tiles e.opa = 0)) = true then .next (u.failCmd e 0x0701 e.opa)
      else .next ((State.enterTile { { b with place := u.placeTile b }.gens.foldl State.bumpGen u with
          tiles := ({ b with place := u.placeTile b }.gens.foldl State.bumpGen u).tiles ++ [{ b with place := u.placeTile b }] }
        { b with place := u.placeTile b } e.ctx e.opa).doneCmd e.id none) := by
  refine ⟨s.setAllocQ n (s.allocQ n).tail, setAllocQ_eq _ _ _, ?_⟩
  unfold execAllocationServed
  rw [h]
  dsimp only
  have hh : (s.setAllocQ n (s.allocQ n).tail).holders b e.ctx = s.holders b e.ctx := by rw [setAllocQ_eq]; rfl
  have hx : (s.setAllocQ n (s.allocQ n).tail).ctx = s.ctx := by rw [setAllocQ_eq]; rfl
  rw [hh, hx]

/-- The head of an allocator takes its space and stands in the tables of its holders (R125, R265). -/
theorem allocation_takes (h : s.allocHead n = some (e, .ok b)) (hfree : ∀ c ∈ s.holders b e.ctx, tget 0 (s.ctx c).tiles e.opa = 0)
    (he : s.cmd e.id = some e) (ha : e.acted = false) : ∃ t pl w, execAllocationServed n s = .next t ∧
      t.tiles = s.tiles ++ [{ b with place := pl }] ∧
      (∀ c, t.ctx c = if c ∈ s.holders b e.ctx then { s.ctx c with tiles := tset 0 (s.ctx c).tiles e.opa b.id } else s.ctx c) ∧
      t.cmd e.id = some { e with begun := true, acted := true, fail := none, wait := w } := by
  obtain ⟨u, hu, hrun⟩ := execAllocationServed_head h
  rw [if_neg (by simpa using hfree)] at hrun
  have hv := foldl_bumpGen_only { b with place := u.placeTile b }.gens u
  unfold GensOnly at hv
  generalize { b with place := u.placeTile b }.gens.foldl State.bumpGen u = v at hrun hv
  rw [hu] at hv
  generalize u.placeTile b = pl at hrun
  obtain ⟨hw, hx⟩ := enterTile_spec { v with tiles := v.tiles ++ [{ b with place := pl }] } { b with place := pl } e.ctx e.opa
  generalize State.enterTile { v with tiles := v.tiles ++ [{ b with place := pl }] } { b with place := pl } e.ctx e.opa = w at hrun hw hx
  have hcmd : w.cmd e.id = some e := by
    rw [hw, hv]
    exact he
  refine ⟨w.doneCmd e.id none, pl, w.newWait.1, hrun, ?_, fun c => ?_, cmd_doneCmd hcmd ha none⟩
  · show w.tiles = _
    rw [hw, hv]
  · refine (hx c).trans ?_
    rw [hv]
    rfl

/-- An entry that is taken fails the TALLOC (R265). -/
theorem allocation_fails (h : s.allocHead n = some (e, .ok b)) {c : Nat} (hc : c ∈ s.holders b e.ctx)
    (ht : tget 0 (s.ctx c).tiles e.opa ≠ 0) (he : s.cmd e.id = some e) (ha : e.acted = false) : ∃ t f r,
      execAllocationServed n s = .next t ∧ t.tiles = s.tiles ∧ t.ctxs = s.ctxs ∧ t.cmd e.id = some f ∧ f.acted = true ∧
      f.fail = some r ∧ r.cls = 12 ∧ bits r.w0.toNat 47 41 = 7 ∧ r.code = 0x0701 := by
  obtain ⟨u, hu, hrun⟩ := execAllocationServed_head h
  rw [if_pos (List.any_eq_true.mpr ⟨c, hc, by simpa using ht⟩)] at hrun
  have hcmd : u.cmd e.id = some e := by rw [hu]; exact he
  refine ⟨u.failCmd e 0x0701 e.opa, _, _, hrun, ?_, ?_, cmd_doneCmd hcmd ha _, rfl, rfl, mkRec_cls _ _ _, mkRec_sub _ _ _,
    mkRec_code _ _ _⟩
  · show u.tiles = _
    rw [hu]
  · show u.ctxs = _
    rw [hu]

/-- The tile that a TALLOC of level `lv` asks for, at the core of its owner (R124, R265). -/
def askedTile (s : State) (e : ECmd) (cols es lv m mf owner : Nat) : Tile :=
  { id := e.id, level := if lv = 0 then .LOCAL else if lv = 1 then .QUIRE else .BASE, core := coreOf owner, stack := stackOf e.ctx,
    part := (s.ctx e.ctx).part, quire := e.quire, member := if mf = 1 then m else if lv = 1 then (s.ctx e.ctx).member else 0,
    esize := 2 ^ es, cols := cols, rows := e.opb, place := [], bytes := [], poison := [], freed := false }

/-- The operand word of a TALLOC is well formed: a member is named for a QUIRE tile alone, and is one of the quire. -/
structure TallocWord (s : State) (e : ECmd) (cols es lv m mf owner : Nat) : Prop where
  word  : e.imm.toNat = cols + es * 2 ^ 14 + lv * 2 ^ 16 + m * 2 ^ 18 + mf * 2 ^ 24
  shape : 1 ≤ cols ∧ cols < 2 ^ 14 ∧ es < 4 ∧ lv < 3
  named : (mf = 0 ∧ m = 0 ∧ owner = e.ctx) ∨ (mf = 1 ∧ lv = 1 ∧ m < 64 ∧ m < (s.ctx e.ctx).members ∧
    ∃ q, s.quire e.quire = some q ∧ q.members[m]? = some owner)
  rows  : 1 ≤ e.opb ∧ e.opb < 2 ^ 20

theorem askTile_ok {cols es lv m mf owner : Nat} (h : TallocWord s e cols es lv m mf owner)
    (hsp : (askedTile s e cols es lv m mf owner).space ≤ maxTile (askedTile s e cols es lv m mf owner).level) :
    s.askTile e = .ok (askedTile s e cols es lv m mf owner) := by
  obtain ⟨hw, ⟨hc1, hc2, hes, hlv⟩, hn, hr1, hr2⟩ := h
  have hm : m < 64 := by rcases hn with ⟨_, rfl, _⟩ | ⟨_, _, h, _⟩ <;> omega
  have hf : mf < 2 := by rcases hn with ⟨rfl, _⟩ | ⟨rfl, _⟩ <;> omega
  obtain ⟨b31, b17, b24, b23, b13, b15⟩ := talloc_fields (es := es) hc2 hes (Nat.lt_of_lt_of_le hlv (by decide)) hm hf
  rw [← hw] at b31 b17 b24 b23 b13 b15
  unfold State.askTile
  dsimp only
  rw [b31, b17, b24, b23, b13, b15]
  have hfields : ¬ ((!decide ((0:Nat) = 0) || decide (lv = 3) || decide (cols = 0) || (decide (mf = 1) && !decide (lv = 1)) ||
      (!decide (mf = 1) && !decide (m = 0)) || (decide (mf = 1) && decide ((s.ctx e.ctx).members ≤ m))) = true) := by
    rcases hn with ⟨rfl, rfl, _⟩ | ⟨rfl, rfl, _, hmm, _⟩ <;> simp <;> omega
  rw [if_neg hfields, if_neg (by omega)]
  obtain ⟨rfl, rfl, rfl⟩ | ⟨rfl, rfl, _, _, q, hq, hmem⟩ := hn
  · obtain rfl | rfl | rfl : lv = 0 ∨ lv = 1 ∨ lv = 2 := by omega
    · exact if_neg (Nat.not_lt.mpr hsp)
    · exact if_neg (Nat.not_lt.mpr hsp)
    · exact if_neg (Nat.not_lt.mpr hsp)
  · have hd : q.members.getD m e.ctx = owner := by rw [List.getD_eq_getElem?_getD, hmem]; rfl
    rw [hq]
    dsimp only
    rw [hd]
    exact if_neg (Nat.not_lt.mpr hsp)

/-- The tile has room: in its core's pool, or in its partition's base pool of the stack (R123, R126). -/
def RoomFor (s : State) (b : Tile) : Prop :=
  b.space ≤ maxTile b.level ∧
    if b.level = .BASE then b.space ≤ s.baseFree b.part b.stack else s.coreUsed b.core + b.space ≤ corePool

theorem fits_of_room (h : RoomFor s b) (hz : s.zeroing = []) : s.fits b = true := by
  obtain ⟨_, h⟩ := h
  have hno : ∀ l : List Nat, l.any s.zeroing.contains = false := fun l => List.any_eq_false.mpr fun g _ => by simp [hz]
  unfold State.fits
  dsimp only
  rw [hno]
  cases hl : b.level <;>
    simp only [hl, reduceCtorEq, if_true, if_false, Bool.not_false, Bool.and_true, decide_eq_true_eq] at h ⊢ <;> exact h

theorem allocHead_ok {id : Nat} {rest : List Nat} (hq : s.allocQ n = id :: rest) (he : s.cmd id = some e)
    (hask : s.askTile e = .ok b) (hfit : s.fits b = true) : s.allocHead n = some (e, .ok b) := by
  unfold State.allocHead
  simp only [hq, he, hask, hfit, if_true]

/-- Whose tables hold a tile (R123): the context's that asks for it, for a LOCAL one; else those of the members. -/
theorem mem_holders {cols es lv m mf owner : Nat} (hq : 0 < lv → (s.quire e.quire).isSome = true) (c : Nat) :
    c ∈ s.holders (askedTile s e cols es lv m mf owner) e.ctx ↔ (lv = 0 ∧ c = e.ctx) ∨
      (0 < lv ∧ ∃ q, s.quire e.quire = some q ∧ c ∈ q.members ∧ (s.ctx c).quire = q.id) := by
  by_cases h0 : lv = 0
  · subst h0
    simp [State.holders, askedTile]
  · obtain ⟨q, hq⟩ := Option.isSome_iff_exists.mp (hq (by omega))
    have hl : (askedTile s e cols es lv m mf owner).level ≠ .LOCAL := by
      simp only [askedTile, if_neg h0]
      split <;> simp
    have hh : s.holders (askedTile s e cols es lv m mf owner) e.ctx = q.members.filter fun m => (s.ctx m).quire = q.id := by
      unfold State.holders
      split
      · next h => exact absurd h hl
      · rw [show s.quire (askedTile s e cols es lv m mf owner).quire = some q from hq]
    rw [hh, List.mem_filter, hq]
    simp [h0, Nat.pos_of_ne_zero h0]

end Allocation

end Sys2Proof.Proofs
end

section
/-! PROOFS. Events of the engines: switches, set-aside sessions and verdicts of deliveries (O55). -/

namespace Sys2Proof.Proofs

open Sys2Proof Sys2Proof.Machine Sys2Proof.Safety

/-! Bytes of a value. -/

theorem toBytes_length (n : Nat) : ∀ x, (toBytes n x).length = n := by
  induction n with
  | zero => exact fun _ => rfl
  | succ n ih => exact fun x => congrArg (· + 1) (ih _)

theorem toBytes_getD (n : Nat) : ∀ (x : Nat) {i : Nat}, i < n → (toBytes n x).getD i 0 = BitVec.ofNat 8 (x / 256 ^ i) := by
  induction n with
  | zero => exact fun _ _ h => absurd h (Nat.not_lt_zero _)
  | succ n ih =>
    intro x i h
    cases i with
    | zero => simp [toBytes]
    | succ i =>
      rw [pow_succ, Nat.mul_comm, ← Nat.div_div_eq_div_mul]
      exact ih (x / 256) (Nat.lt_of_succ_lt_succ h)

/-! Other packages' memory after a run of writes. -/

section Remote
variable {s : State}

theorem remoteByte_setRemoteByte_self (k : Nat) (b : Byte) : (s.setRemoteByte k b).remoteByte k = b := tget_tset_self _ _ _ _

/-- A byte of another package written leaves every other one alone. -/
theorem remoteByte_setRemoteByte_ne {k a : Nat} (b : Byte) (h : a ≠ k) : (s.setRemoteByte k b).remoteByte a = s.remoteByte a := by
  show tget (Config.remoteByte a) (tset (Config.remoteByte k) s.remote k b) a = tget (Config.remoteByte a) s.remote a
  unfold tset
  split
  · exact tget_terase_ne _ _ h
  · rw [tget_tinsert_ne _ _ _ h, tget_terase_ne _ _ h]

theorem remoteByte_setRemoteBytes_outside (l : List Byte) : ∀ (s : State) {k a : Nat}, a < k ∨ k + l.length ≤ a →
    (s.setRemoteBytes k l).remoteByte a = s.remoteByte a := by
  induction l with
  | nil => exact fun _ _ _ _ => rfl
  | cons b l ih =>
    intro s k a h
    rw [List.length_cons] at h
    exact (ih (s.setRemoteByte k b) (by omega)).trans (remoteByte_setRemoteByte_ne b (by omega))

theorem remoteByte_setRemoteBytes_inside (l : List Byte) : ∀ (s : State) (k : Nat) {i : Nat}, i < l.length →
    (s.setRemoteBytes k l).remoteByte (k + i) = l.getD i 0 := by
  induction l with
  | nil => exact fun _ _ _ h => absurd h (Nat.not_lt_zero _)
  | cons b l ih =>
    intro s k i h
    cases i with
    | zero => exact (remoteByte_setRemoteBytes_outside l _ (.inl (Nat.lt_succ_self k))).trans (remoteByte_setRemoteByte_self k b)
    | succ i =>
      have e := ih (s.setRemoteByte k b) (k + 1) (Nat.lt_of_succ_lt_succ h)
      rwa [Nat.add_assoc, Nat.add_comm 1 i] at e

/-- A word that a switch writes back stands at its home, byte by byte, and the switch holds and owes it no more (R160). -/
theorem swDrop_spec (s : State) (w : SwWord) : s.swDrop w = { s with remote := (s.swDrop w).remote, pkg := (s.swDrop w).pkg } ∧
    w ∉ (s.swDrop w).pkg.switchWords ∧ (w.pkg, w.pa) ∉ (s.swDrop w).pkg.swWant ∧
    (∀ a, a < remoteKey w.pkg w.pa ∨ remoteKey w.pkg w.pa + 8 ≤ a → (s.swDrop w).remoteByte a = s.remoteByte a) ∧
    ∀ i, i < 8 → (s.swDrop w).remoteByte (remoteKey w.pkg w.pa + i) = BitVec.ofNat 8 (w.word / 2 ^ (8 * i)) := by
  obtain ⟨r, hr⟩ : ∃ r, s.setRemoteBytes (remoteKey w.pkg w.pa) (toBytes 8 w.word) = { s with remote := r } :=
    ⟨_, (setRemoteBytes_step (toBytes 8 w.word) s (remoteKey w.pkg w.pa)).1⟩
  have hd : s.swDrop w = State.updPkg { s with remote := r } fun k => { k with
      switchWords := k.switchWords.filter (fun x => !(x = w)), swWant := k.swWant.filter fun x => !(x = (w.pkg, w.pa)) } := by
    unfold State.swDrop
    rw [hr]
  have hbyte : ∀ a, (s.swDrop w).remoteByte a = (s.setRemoteBytes (remoteKey w.pkg w.pa) (toBytes 8 w.word)).remoteByte a := by
    intro a
    rw [hd, hr]
    rfl
  refine ⟨by rw [hd]; rfl, fun h => ?_, fun h => ?_, fun a ha => ?_, fun i hi => ?_⟩
  · rw [hd] at h
    simpa using (List.mem_filter.mp h).2
  · rw [hd] at h
    simpa using (List.mem_filter.mp h).2
  · rw [hbyte]
    exact remoteByte_setRemoteBytes_outside _ s (by rwa [toBytes_length])
  · rw [hbyte, remoteByte_setRemoteBytes_inside _ s _ (by rwa [toBytes_length]), toBytes_getD _ _ hi, pow_mul]
    rfl

end Remote

/-! A set-aside SMOPEN (R287). -/

section Aside
variable {s : State} {n id : Nat} {l : List Nat}

theorem asideServed_eq_false (h : ∀ i ∈ (s.quad n).smQ, ∀ e, s.cmd i = some e → e.held = false) : s.asideServed n = false := by
  refine List.any_eq_false.mpr fun i hi => ?_
  cases he : s.cmd i with
  | none => exact Bool.false_ne_true
  | some e => simp [h i hi e he]

theorem execSmopenSetAsideServed_free (hz : (s.quad n).session = none) (ha : (s.quad n).aside = id :: l)
    (h : ∀ i ∈ (s.quad n).smQ, ∀ e, s.cmd i = some e → e.held = false) : execSmopenSetAsideServed n s =
      .next ((s.updQuad n fun q => { q with aside := l, smQ := id :: q.smQ }).updCmd id fun f => { f with held := true }) := by
  have hfree : s.asideFree n = true := by simp [State.asideFree, State.session, hz, ha, asideServed_eq_false h]
  simp only [execSmopenSetAsideServed, hfree, ha, if_true]

end Aside

/-! Verdicts of deliveries (R372). -/

section Delivery
variable {s : State} {d : Delivery} {e : ECmd}

/-- Is the delivery a tile for the taker of its destination, which may refuse it (log 41)? -/
def tileFor (d : Delivery) (e : ECmd) : Prop := isMcast e.op = true ∧ (e.dests.getD d.dest (0, 0)).1.testBit 63 = true

theorem dlvCode_refused (he : s.cmd d.cmd = some e) (ht : tileFor d e) (hr : Config.remoteTakes d.id = false) (good : Bool) :
    s.dlvCode d good = some 0x0706 := by
  obtain ⟨hm, hb⟩ := ht
  simp only [State.dlvCode, he, hm, bit, hb, hr, Bool.not_false, Bool.and_self, if_true]

theorem dlvCode_taken (he : s.cmd d.cmd = some e) (ht : ¬ (tileFor d e ∧ Config.remoteTakes d.id = false)) (good : Bool) :
    s.dlvCode d good = if good then none else some 0x0707 := by
  have hno : (isMcast e.op && bit (e.dests.getD d.dest (0, 0)).1 63 && !Config.remoteTakes d.id) = false := by
    by_contra hne
    simp only [Bool.not_eq_false, Bool.and_eq_true, Bool.not_eq_true'] at hne
    exact ht ⟨hne.1, hne.2⟩
  simp only [State.dlvCode, he, hno, Bool.false_eq_true, if_false]

/-- A command whose destination `n` fails with code `k`, unless it has failed before (R369). -/
def destFails (n k : Nat) (e : ECmd) : ECmd :=
  { e with fails := if e.fails.any (fun f => f.1 = n) then e.fails else e.fails ++ [(n, 7, k)] }

theorem destFails_first {n k : Nat} (h : ∀ y ∈ e.fails, y.1 ≠ n) : destFails n k e = { e with fails := e.fails ++ [(n, 7, k)] } := by
  have hno : (e.fails.any fun f => f.1 = n) = false := List.any_eq_false.mpr fun y hy => by simpa using h y hy
  simp only [destFails, hno, Bool.false_eq_true, if_false]

theorem destFails_failed (n k : Nat) (e : ECmd) : ∃ y ∈ (destFails n k e).fails, y.1 = n := by
  unfold destFails
  split
  · next h => simpa using h
  · exact ⟨(n, 7, k), by simp, rfl⟩

/-- What DELIVERY_CHECK leaves: the verdict is no longer awaited, and a bad one fails the destination of its command. -/
theorem execDeliveryCheck_due {id : Nat} {good : Bool} (h : findFirst (fun d => d.id = id) s.dlv = some d) (hw : d.wait ≤ s.cycle) :
    execDeliveryCheck id good s = .next (match s.dlvCode d good with
      | none => { s with dlv := s.dlv.filter fun x => !(x.id = id) }
      | some k => { s with dlv := s.dlv.filter fun x => !(x.id = id) }.updCmd d.cmd (destFails d.dest k)) := by
  unfold execDeliveryCheck
  rw [h]
  exact if_neg (Nat.not_lt.mpr hw)

/-- The destination of a bad verdict fails with its code, once. -/
theorem cmd_destFails (he : s.cmd d.cmd = some e) (hn : ∀ y ∈ e.fails, y.1 ≠ d.dest) (l : List Delivery) (k : Nat) :
    (State.updCmd { s with dlv := l } d.cmd (destFails d.dest k)).cmd d.cmd =
      some { e with fails := e.fails ++ [(d.dest, 7, k)] } := by
  have h : State.cmd { s with dlv := l } d.cmd = some e := he
  rw [cmd_updCmd (f := destFails d.dest k) fun _ => rfl, h, Option.map_some, destFails_first hn]

end Delivery

end Sys2Proof.Proofs
end

section
/-! PROOFS. Events of the engines: parcels that waited too long (O55). -/

namespace Sys2Proof.Proofs

open Sys2Proof Sys2Proof.Machine Sys2Proof.Safety

/-- What the poison of an episode leaves alone: parcels, and what commands have failed for. -/
structure KeepsParcels (s t : State) : Prop where
  parts : ∀ p, (t.part p).waiting = (s.part p).waiting ∧ (t.part p).ring = (s.part p).ring
  fails : ∀ id e, s.cmd id = some e → ∃ f, t.cmd id = some f ∧ f.fails = e.fails

theorem KeepsParcels.refl (s : State) : KeepsParcels s s := ⟨fun _ => ⟨rfl, rfl⟩, fun _ e h => ⟨e, h, rfl⟩⟩

theorem KeepsParcels.trans {s t u : State} (h : KeepsParcels s t) (g : KeepsParcels t u) : KeepsParcels s u := by
  refine ⟨fun p => ⟨(g.parts p).1.trans (h.parts p).1, (g.parts p).2.trans (h.parts p).2⟩, fun id e he => ?_⟩
  obtain ⟨f, hf, ef⟩ := h.fails id e he
  obtain ⟨f', hf', ef'⟩ := g.fails id f hf
  exact ⟨f', hf', ef'.trans ef⟩

theorem KeepsParcels.foldl {α : Type} {f : State → α → State} (h : ∀ s a, KeepsParcels s (f s a)) (l : List α) (s : State) :
    KeepsParcels s (l.foldl f s) :=
  List.foldlRecOn l f (.refl s) fun t ht a _ => ht.trans (h t a)

/-- A state with the partitions and commands of another. -/
theorem KeepsParcels.ofSame {s t : State} (hp : t.parts = s.parts) (hc : t.cmds = s.cmds) : KeepsParcels s t := by
  refine ⟨fun p => ?_, fun id e he => ⟨e, ?_, rfl⟩⟩
  · unfold State.part
    rw [hp]
    exact ⟨rfl, rfl⟩
  · unfold State.cmd at he ⊢
    rwa [hc]

theorem KeepsParcels.ofMemStep {s t : State} (h : MemStep s t) : KeepsParcels s t := by
  rw [h.rest]
  exact .ofSame rfl rfl

theorem mapCtxs_parcels (s : State) (f : Nat → Ctx → Ctx) : KeepsParcels s (s.mapCtxs f) := by
  obtain ⟨l, h⟩ : ∃ l, s.mapCtxs f = { s with ctxs := l } := ⟨_, (State.mapCtxs_spec s f).1⟩
  rw [h]
  exact .ofSame rfl rfl

theorem tdiEnterError_parcels (s : State) (p : Nat) : KeepsParcels s (s.tdiEnterError p) := by
  have tdi : KeepsParcels s (s.updPart p fun q => { q with tdi := .error }) := by
    refine ⟨fun q => ?_, fun id e he => ⟨e, he, rfl⟩⟩
    rw [State.updPart_eq]
    by_cases hq : q = p
    · rw [hq, State.part_setPart_self]
      exact ⟨rfl, rfl⟩
    · rw [State.part_setPart_ne _ _ hq]
      exact ⟨rfl, rfl⟩
  exact (tdi.trans (mapCtxs_parcels _ _)).trans (.ofSame rfl rfl)

theorem guardHit_parcels (s : State) (p : Nat) : KeepsParcels s (s.guardHit p) := by
  unfold State.guardHit
  split
  · exact .refl s
  · exact tdiEnterError_parcels s p

theorem snoopFirst_parcels (s : State) (pa : Nat) : KeepsParcels s (s.snoopFirst pa).1 := by
  unfold State.snoopFirst
  dsimp only
  split
  · exact .refl s
  · exact .ofSame rfl rfl

theorem irqRaised_parcels (q : Posted) (s : State) : KeepsParcels s (irqRaised q s) := by
  unfold irqRaised
  split
  · exact .ofSame rfl rfl
  · exact .refl s

theorem postedWrite_parcels (s : State) (q : Posted) : KeepsParcels s (s.postedWrite q).1 := by
  unfold State.postedWrite
  dsimp only
  split
  · exact (guardHit_parcels s _).trans (irqRaised_parcels q _)
  · split
    · exact irqRaised_parcels q s
    · split
      · exact .refl s
      · have h := snoopFirst_parcels s q.pa
        split
        · next e => rw [e] at h; exact h
        · next e => rw [e] at h; exact (h.trans (.ofMemStep (writePa_step _ _ _ _))).trans (irqRaised_parcels q _)

theorem postWrite_parcels (s : State) (q : Posted) : KeepsParcels s (s.postWrite q) := by
  have h := postedWrite_parcels s q
  unfold State.postWrite
  dsimp only
  split
  · exact .ofSame rfl rfl
  · split
    · next e => rw [e] at h; exact h
    · next e => rw [e] at h; exact h.trans (.ofSame rfl rfl)

theorem doneCmd_parcels (s : State) (id : Nat) (r : Option Rec) : KeepsParcels s (s.doneCmd id r) := by
  refine ⟨fun _ => ⟨rfl, rfl⟩, fun i e he => ?_⟩
  have hm : (s.doneCmd id r).cmd i = (s.cmd i).map fun e => if e.id = id then
      (if e.acted then e else { e with begun := true, acted := true, fail := r, wait := s.newWait.1 }) else e := by
    refine (congrArg (fun l => findFirst (fun e : ECmd => decide (e.id = i)) l) (?_ : _ = s.cmds.map _)).trans
      (findFirst_map (fun e => ?_) s.cmds)
    · unfold State.doneCmd State.updCmd mapIf
      simp only [decide_eq_true_eq]
      rfl
    · split
      · split <;> rfl
      · rfl
  rw [hm, he, Option.map_some]
  refine ⟨_, rfl, ?_⟩
  split
  · split <;> rfl
  · rfl

theorem setEpisode_parcels (s : State) (n : Net) (b : Nat) (e : Option Episode) : KeepsParcels s (s.setEpisode n b e) := .ofSame rfl rfl

theorem poison_parcels (s : State) (ep : Episode) : KeepsParcels s (s.poison ep) := by
  unfold State.poison
  split
  · exact .refl s
  · refine .trans (.trans (.foldl (fun s id => ?_) _ _) (setEpisode_parcels _ _ _ _)) (postWrite_parcels _ _)
    split
    · exact doneCmd_parcels _ _ _
    · exact .refl s

theorem idleBarrier_parcels (s : State) (ep : Episode) : KeepsParcels s (s.idleBarrier ep) := setEpisode_parcels _ _ _ _

theorem countArrival_parcels (s : State) (ep : Episode) : KeepsParcels s (s.countArrival ep none) := by
  unfold State.countArrival
  dsimp only
  split
  · exact setEpisode_parcels _ _ _ _
  · split
    · exact idleBarrier_parcels _ _
    · exact .trans (.foldl (fun s id => doneCmd_parcels s id none) _ _) (idleBarrier_parcels _ _)

/-- A POST arrival, of a failed delivery too, leaves parcels and failures alone. -/
theorem postArrival_parcels (s : State) (p b : Nat) (bad : Bool) : KeepsParcels s (s.postArrival p b bad) := by
  unfold State.postArrival
  dsimp only
  split
  · next ep _ =>
    split
    · exact setEpisode_parcels _ _ _ _
    · have h : KeepsParcels s (if bad then s.poison ep else s) := by
        split
        · exact poison_parcels _ _
        · exact .refl s
      split
      · exact h.trans (countArrival_parcels _ _)
      · exact h
  · exact setEpisode_parcels _ _ _ _

/-- A destination of an MCAST fails (R260, R369): its command has the failure, and beyond that parcels and failures stay. -/
theorem failDest_spec (s : State) (e : ECmd) (d k : Nat) : ∃ g : ECmd → ECmd, (∀ f, (g f).id = f.id) ∧
    (∀ f, (g f).fails = (destFails d k f).fails) ∧ KeepsParcels (s.updCmd e.id g) (s.failDest e d 7 k) := by
  unfold State.failDest
  split
  next n u _ =>
    dsimp only
    refine ⟨fun e => { e with
      todo := e.todo.filter (fun i => !(i / n = d)), rest := e.rest.filter (fun u => !(u.dest = d)), far := e.far.filter (· ≠ d),
      fails := if e.fails.any (fun f => f.1 = d) then e.fails else e.fails ++ [(d, 7, k)] }, fun _ => rfl, fun _ => rfl, ?_⟩
    split
    · exact postArrival_parcels _ _ _ _
    · exact .refl _

section Timeout
variable {s : State} {p : Nat} {x : Parcel}

theorem findFirst_append_cons {α : Type} {f : α → Bool} {l r : List α} {a : α} (hl : ∀ y ∈ l, f y = false) (ha : f a = true) :
    findFirst f (l ++ a :: r) = some a := by
  rw [findFirst_eq_find?, List.find?_append, List.find?_eq_none.mpr fun y hy => by simp [hl y hy], List.find?_cons_of_pos ha]
  rfl

theorem lateParcel_first {l r : List Parcel} (h : (s.part p).waiting = l ++ x :: r) (hl : ∀ y ∈ l, s.cycle < y.since + 2 ^ 24)
    (hx : x.since + 2 ^ 24 ≤ s.cycle) : s.lateParcel p = some x := by
  unfold State.lateParcel
  rw [h]
  exact findFirst_append_cons (fun y hy => decide_eq_false (Nat.not_le.mpr (hl y hy))) (decide_eq_true hx)

/-- The waiting parcel is dropped. -/
def dropParcel (x : Parcel) (q : Part) : Part := { q with waiting := q.waiting.filter fun y => !(y = x) }

/-- A parcel that waited too long is dropped, and its destination fails with 0x0708 (R375). -/
theorem execParcelTimeout_late (h : s.lateParcel p = some x) : ∃ u : State, execParcelTimeout p s = .next (u.updPart p (dropParcel x)) ∧
    (u.part p).waiting = (s.part p).waiting ∧ (u.part p).ring = (s.part p).ring ∧
    ∀ e, s.cmd x.cmd = some e → ∃ f, u.cmd x.cmd = some f ∧ f.fails = (destFails x.dest 0x0708 e).fails := by
  unfold execParcelTimeout
  rw [h]
  dsimp only
  cases he : s.cmd x.cmd with
  | none => exact ⟨s, rfl, rfl, rfl, fun _ h => nomatch h⟩
  | some e =>
    dsimp only
    refine ⟨_, rfl, ?_⟩
    have hid := cmd_id he
    cases hf : e.fails.any fun f => f.1 = x.dest with
    | true =>
      refine ⟨rfl, rfl, fun e' h => ?_⟩
      cases h
      exact ⟨e, he, by simp only [destFails, hf, if_true]⟩
    | false =>
      simp only [Bool.false_eq_true, if_false]
      split
      · obtain ⟨g, hg, hgf, hk⟩ := failDest_spec s e x.dest 0x0708
        refine ⟨(hk.parts p).1, (hk.parts p).2, fun e' h => ?_⟩
        cases h
        have hc : (s.updCmd e.id g).cmd x.cmd = some (g e) := by rw [hid, cmd_updCmd hg, he]; rfl
        obtain ⟨f, hf, ef⟩ := hk.fails _ _ hc
        exact ⟨f, hf, ef.trans (hgf e)⟩
      · refine ⟨rfl, rfl, fun e' h => ?_⟩
        cases h
        refine ⟨destFails x.dest 0x0708 e, ?_, rfl⟩
        refine (cmd_updCmd (f := fun e => { e with fails := e.fails ++ [(x.dest, 7, 0x0708)] }) fun _ => rfl).trans ?_
        rw [he, Option.map_some]
        simp only [destFails, hf, Bool.false_eq_true, if_false]

end Timeout

theorem exec_switchWriteback (n : Nat) (s : State) : exec (.switchWriteback n) s = execSwitchWriteback n s := rfl
theorem exec_smopenSetAsideServed (n : Nat) (s : State) : exec (.smopenSetAsideServed n) s = execSmopenSetAsideServed n s := rfl
theorem exec_parcelTimeout (p : Nat) (s : State) : exec (.parcelTimeout p) s = execParcelTimeout p s := rfl
theorem exec_deliveryCheck (id : Nat) (good : Bool) (s : State) : exec (.deliveryCheck id good) s = execDeliveryCheck id good s := rfl
theorem exec_mapStoreWaitServed (n : Nat) (s : State) : exec (.mapStoreWaitServed n) s = execMapStoreWaitServed n s := rfl

/-- A position of the wheel goes to the first ranked of those that can take it, or to none (R153). -/
theorem wheelTurns (s : State) (n : Nat) : ∃ t, exec (.slotWheelPosition n) s = .next t ∧ (∀ m, m ≠ n → t.core m = s.core m) ∧
    t = { s with cores := t.cores,
                 pkg := { s.pkg with snoops := t.pkg.snoops, swWant := t.pkg.swWant, atsReq := t.pkg.atsReq } } ∧
    t.core n = { s.core n with scTurn := (t.core n).scTurn } ∧
    ((∀ j, (s.core n).position j ≠ some (s.cycle % 512)) → t = s) ∧
    (s.scQueued n = true ∨ (∀ c, coreOf c = n → s.takesTurn n c = false) → t.core n = s.core n) ∧
    ((∃ c, coreOf c = n ∧ s.takesTurn n c = true) → s.scQueued n = false → ∃ d, coreOf d = n ∧ s.takesTurn n d = true ∧
      (∀ c, coreOf c = n → s.takesTurn n c = true → c = d ∨ s.ranks d c = true) ∧
      t = { s with cores := t.cores } ∧ (t.core n).scTurn = some (d, s.cycle)) := by
  obtain ⟨d, hd, ht, hq, hfirst, hrun⟩ | ⟨hnone, hrun⟩ := execSlotWheelPosition_cases n s
  · have hturn : ((s.withTurn n d).core n).scTurn = some (d, s.cycle) := by rw [withTurn_core]
    refine ⟨s.withTurn n d, hrun, fun m h => State.core_setCore_ne s _ h, rfl, by rw [hturn, withTurn_core], fun h => ?_, fun h => ?_,
      fun _ _ => ⟨d, hd, ht, hfirst, rfl, hturn⟩⟩
    · rw [takesTurn_eq_false (scOps_eq_nil h)] at ht
      cases ht
    · obtain h | h := h
      · rw [hq] at h
        cases h
      · rw [h d hd] at ht
        cases ht
  · have hasks : AsksOnly s (((upto 4).map (4 * n + ·)).foldl (fun t c => t.scAsks n c) s) :=
      asksOnly_foldl (fun s c => scAsks_only s n c) _ s
    have hcore : ∀ m, (((upto 4).map (4 * n + ·)).foldl (fun t c => t.scAsks n c) s).core m = s.core m := by
      intro m
      rw [hasks]
      rfl
    refine ⟨_, hrun, fun m _ => hcore m, ?_, ?_, fun h => List.foldl_fixed' (fun c => scAsks_none (scOps_eq_nil h)) _, fun _ => hcore n,
      fun ⟨c, hc, ht⟩ hq => ?_⟩
    · have hcores : (((upto 4).map (4 * n + ·)).foldl (fun t c => t.scAsks n c) s).cores = s.cores := by rw [hasks]
      rw [hcores]
      exact hasks
    · rw [hcore]
    · obtain h | h := hnone
      · rw [hq] at h
        cases h
      · rw [h c hc] at ht
        cases ht

/-- Settles O55: each event by the lemma that says what it leaves where it is due; the parcel's by what the poison of its episode keeps. -/
theorem engineEvents : Obligations.EngineEvents := by
  unfold Obligations.EngineEvents
  intro s
  refine ⟨fun c m l hq hm hb hr ht hc => markerCompletes hq hm hb hr ht hc, fun n => ?_, fun c a l q hl hs hd hq ha => ?_,
    fun n id rest e cols es lv m mf owner hq he ha hw hc1 hc2 hes hlv hn hr1 hr2 hz => ?_, fun n w hw => ?_,
    fun n id l hz ha h => ?_, fun p x l r hw hl hx => ?_, fun id d good hd hw => ?_, fun n id l e hq he hheld hroom => ?_⟩
  case refine_1 =>
    obtain ⟨t, hrun, others, hframe, hcore, hidle, hnone, hsome⟩ := wheelTurns s n
    exact ⟨t, hrun, others, hframe, hcore, hidle, hnone, hsome, fun c x h size b o f j l g r _ hf hx ho hh hform hj hs hp hl hstay =>
      takesTurn_of_ready hf hx ho hh hform hj hs hp hl hstay⟩
  case refine_2 =>
    obtain ⟨t, ht, others, ⟨hpc, hlevel, harr, hreg⟩, hst⟩ := handlerArrives hl hs hd hq ha
    obtain ⟨r1, r2, r3, r4⟩ := startHandler_reg (s.ctx c) (lEntry q.letter)
      (s.startLevel (s.ctx c).part (s.ctx c).tenant (lEntry q.letter)) a
    refine ⟨t, ht, harr.trans (congrArg List.tail hl), hpc, (hreg _ _).trans r1, (hreg _ _).trans r2, (hreg _ _).trans r3,
      fun n hn => (hreg _ _).trans (r4 n hn), hst, hlevel, others⟩
  case refine_3 =>
    intro x b holds hcore hbase hquire
    have hword : TallocWord s e cols es lv m mf owner := ⟨hw, ⟨hc1, hc2, hes, hlv⟩, hn, hr1, hr2⟩
    have hroom : RoomFor s (askedTile s e cols es lv m mf owner) := by
      by_cases h2 : lv = 2
      · subst h2
        exact hbase rfl
      · obtain ⟨hsp, hused⟩ := hcore (by omega)
        obtain rfl | rfl : lv = 0 ∨ lv = 1 := by omega
        · exact ⟨hsp, hused⟩
        · exact ⟨hsp, hused⟩
    have hhead := allocHead_ok hq he (askTile_ok hword hroom.1) (fits_of_room hroom hz)
    have hmem : ∀ c, c ∈ s.holders (askedTile s e cols es lv m mf owner) e.ctx ↔ holds c := mem_holders hquire
    obtain rfl := cmd_id he
    refine ⟨fun hfree => ?_, fun ⟨c, hc, ht⟩ => allocation_fails hhead ((hmem c).mpr hc) ht he ha⟩
    obtain ⟨t, pl, w, hrun, htiles, hctx, hcmd⟩ := allocation_takes hhead (fun c hc => hfree c ((hmem c).mp hc)) he ha
    exact ⟨t, pl, w, hrun, htiles, fun c hc => (hctx c).trans (if_pos ((hmem c).mpr hc)),
      fun c hc => (hctx c).trans (if_neg fun h => hc ((hmem c).mp h)), hcmd⟩
  case refine_4 =>
    refine ⟨s.swDrop w, ?_, swDrop_spec s w⟩
    rw [exec_switchWriteback]
    simp only [execSwitchWriteback, hw]
  case refine_5 =>
    refine ⟨_, (exec_smopenSetAsideServed n s).trans (execSmopenSetAsideServed_free hz ha h), rfl, ?_, fun e he => ?_⟩
    · exact State.quad_setQuad_self s n _
    · exact (cmd_updCmd (f := fun f => { f with held := true }) fun _ => rfl).trans (congrArg _ he)
  case refine_6 =>
    obtain ⟨u, hrun, hwait, hring, hfails⟩ := execParcelTimeout_late (lateParcel_first hw hl hx)
    have hpart : (u.updPart p (dropParcel x)).part p = dropParcel x (u.part p) := State.part_setPart_self _ _ _
    refine ⟨_, (exec_parcelTimeout p s).trans hrun, ?_, ?_, fun e he => ?_⟩
    · rw [hpart, ← hwait]
      rfl
    · rw [hpart, ← hring]
      rfl
    · obtain ⟨f, hf, ef⟩ := hfails e he
      refine ⟨f, hf, ef ▸ destFails_failed _ _ _, fun hn => ?_⟩
      rw [ef, destFails_first hn]
  case refine_7 =>
    refine ⟨_, (exec_deliveryCheck id good s).trans (execDeliveryCheck_due hd hw), ?_, fun e he => ?_⟩
    · split <;> rfl
    · refine ⟨fun hg ht => ?_, fun hn => ⟨fun ht hr => ?_, fun hg ht => ?_⟩⟩
      · rw [dlvCode_taken he ht, hg]
        rfl
      · rw [dlvCode_refused he ht hr]
        exact cmd_destFails he hn _ _
      · rw [dlvCode_taken he ht, hg]
        exact cmd_destFails he hn _ _
  case refine_8 =>
    have hfull : s.storeFull e = false := by
      obtain h | h := hroom
      · simp [State.storeFull, h]
      · simp [State.storeFull, h]
    rw [exec_mapStoreWaitServed]
    simp only [execMapStoreWaitServed, hq, he, hheld, hfull, Bool.not_false, Bool.and_self, if_true]

end Sys2Proof.Proofs
end

section
/-! PROOFS. A register read after a write (O13). -/

namespace Sys2Proof.Proofs

open Sys2Proof Sys2Proof.Machine Sys2Proof.Safety

/-- Bits of a register of a class (R67 to R73); accumulator tiles and latches are no registers of a context. -/
def regBits : Cls → Nat
  | .s | .m => 64
  | .v => 8192
  | .p | .ag => 512
  | .a | .l => 0

section
variable (x : Ctx) {c : Cls} {n b : Nat}

/-- A register but `s0` holds the bits that were written to it. -/
theorem reg_setReg_same (v : Nat) (h : c = .s → n ≠ 0) (hb : regBits c = b) : (x.setReg c n v).reg c n = v % 2 ^ b := by
  cases c with
  | s => rw [Ctx.setReg, if_neg (h rfl), Ctx.reg, if_neg (h rfl), tget_tset_self, BitVec.toNat_ofNat, ← hb, regBits]
  | a => exact hb ▸ (Nat.mod_one v).symm
  | l => exact hb ▸ (Nat.mod_one v).symm
  | _ =>
    rw [regBits] at hb
    rw [Ctx.setReg, Ctx.reg, tget_tset_self, BitVec.toNat_ofNat, hb]

/-- A value that fits a register is read back whole. -/
theorem reg_setReg_fits {v : Nat} (h : c = .s → n ≠ 0) (hb : regBits c = b) (hv : v < 2 ^ b) : (x.setReg c n v).reg c n = v :=
  (reg_setReg_same x v h hb).trans (Nat.mod_eq_of_lt hv)

end

/-- Settles O13: a register holds the bits written to it, and a write of one leaves every other. -/
theorem registerReadAfterWrite : Obligations.RegisterReadAfterWrite := by
  unfold Obligations.RegisterReadAfterWrite
  refine ⟨fun _ => rfl, fun _ _ => rfl, fun x n v hn hv => reg_setReg_fits (b := 64) x (fun _ => hn) rfl hv,
    fun x n v hv => reg_setReg_fits (b := 8192) x nofun rfl hv,
    fun x n v hv => ⟨reg_setReg_fits (b := 512) x nofun rfl hv, reg_setReg_fits (b := 512) x nofun rfl hv⟩,
    fun x n v hv => reg_setReg_fits (b := 64) x nofun rfl hv, fun x c d n m v h => reg_setReg_ne x v fun e => h (Prod.ext e.1 e.2)⟩

end Sys2Proof.Proofs
end

section
/-! PROOFS. Privilege is looked at before anything else (O17). -/

namespace Sys2Proof.Proofs

open Sys2Proof Sys2Proof.Machine Sys2Proof.Safety

/-- A bundle of one operation has that operation's run alone. -/
theorem runsOf_single {k : Cur} {sl : Slot} {i : Instr} {f : Form} (hf : formOf i = some f) (hi : isHint i = false) :
    runsOf k.ctx k k.before [(sl, i)] = [opOf k i f] := by
  simp [runsOf, opOf, hf, hi]

/-- PRIV of an operation that needs a higher level than its context runs at (Table 24.1). -/
theorem privErr_below {r : Run} (h : r.x.level.num < r.f.level.num) : r.privErr = some (r.info 2 r.f.level.num 0) := if_pos h

/-- PRIV is the first class of R334: a bundle whose first operation meets it records it, suppressed or not. -/
theorem bundleFault_priv {s : State} {k : Cur} {r : Run} {l : List Run} {e : FaultInfo} (h : r.privErr = some e) :
    s.bundleFault k (r :: l) = some e := by
  have hf : firstFault (r :: l) Run.privErr = some e := by
    unfold firstFault
    rw [List.filterMap_cons_some h, List.head?_cons]
  unfold State.bundleFault
  rw [hf]
  rfl

/-- Settles O17: PRIV is the first class looked for, of suppressed operations too, and its record names the level needed. -/
theorem privilegeComesFirst : Obligations.PrivilegeComesFirst := by
  unfold Obligations.PrivilegeComesFirst
  intro s k sl i f hf hi hl
  rw [runsOf_single hf hi]
  exact ⟨_, bundleFault_priv (privErr_below (r := opOf k i f) hl), rfl, rfl, rfl, rfl⟩

end Sys2Proof.Proofs
end

section
/-! PROOFS. Operands and results of the scalar forms (O22). -/

namespace Sys2Proof.Proofs

open Sys2Proof Sys2Proof.Machine Sys2Proof.Safety

/-! Integers read in a type, and what is left of one modulo 2^n. -/

theorem natCast_wrapN (x : Int) (n : Nat) : ((wrapN x n : Nat) : Int) = x % ((2 ^ n : Nat) : Int) :=
  Int.toNat_of_nonneg (Int.emod_nonneg x (Int.natCast_ne_zero.mpr (Nat.two_pow_pos n).ne'))

theorem wrapN_lt (x : Int) (n : Nat) : wrapN x n < 2 ^ n :=
  Int.ofNat_lt.mp (natCast_wrapN x n ▸ Int.emod_lt_of_pos x (Int.natCast_pos.mpr (Nat.two_pow_pos n)))

/-- The two halves of the values of a signed type. -/
theorem sext_eq_ite {n : Nat} (x : Nat) (hn : 1 ≤ n) :
    sext x n = if x % 2 ^ n < 2 ^ (n - 1) then ((x % 2 ^ n : Nat) : Int) else ((x % 2 ^ n : Nat) : Int) - ((2 ^ n : Nat) : Int) := by
  unfold sext
  by_cases h : x % 2 ^ n < 2 ^ (n - 1)
  · rw [if_pos h, if_neg fun e => Nat.not_le.mpr h e.2]
  · rw [if_neg h, if_pos ⟨Nat.one_le_iff_ne_zero.mp hn, Nat.not_lt.mp h⟩]

/-- A signed reading is the balanced remainder. -/
theorem sext_eq_bmod (x n : Nat) : sext x n = (x : Int).bmod (2 ^ n) := by
  cases n with
  | zero => simp [sext, Nat.mod_one, Int.bmod_def]
  | succ n =>
    have hhalf : 2 ^ (n + 1) = 2 * 2 ^ n := Nat.pow_succ'
    rw [sext_eq_ite x n.succ_pos, Int.bmod_def, ← Int.natCast_mod, Nat.succ_sub_one]
    generalize x % 2 ^ (n + 1) = y
    rw [hhalf]
    split <;> split <;> omega

/-- The signed reading of the bits of a field is the field's own signed value. -/
theorem sext_toNat {n : Nat} (v : BitVec n) : sext v.toNat n = v.toInt := (sext_eq_bmod _ _).trans v.toInt_eq_toNat_bmod.symm

theorem extI_signed (n a : Nat) : extI true n a = (a : Int).bmod (2 ^ n) := sext_eq_bmod a n

theorem extI_unsigned (n a : Nat) : extI false n a = (a : Int) % ((2 ^ n : Nat) : Int) := Int.natCast_mod a (2 ^ n)

/-- A value read in a type has the value's bits. -/
theorem extI_emod (sg : Bool) (n a : Nat) : extI sg n a % ((2 ^ n : Nat) : Int) = (a : Int) % ((2 ^ n : Nat) : Int) := by
  cases sg
  · rw [extI_unsigned, Int.emod_emod]
  · rw [extI_signed, Int.bmod_emod]

/-- A type reads no bit above its width. -/
theorem extI_congr (sg : Bool) {n a b : Nat} (h : (a : Int) % ((2 ^ n : Nat) : Int) = (b : Int) % ((2 ^ n : Nat) : Int)) :
    extI sg n a = extI sg n b := by
  cases sg
  · rw [extI_unsigned, extI_unsigned, h]
  · rw [extI_signed, extI_signed, ← Int.emod_bmod, h, Int.emod_bmod]

/-- A balanced remainder is its own balanced remainder by a larger modulus. -/
theorem bmod_bmod_of_le (x : Int) {m k : Nat} (hm : 0 < m) (h : m ≤ k) : (x.bmod m).bmod k = x.bmod m := by
  have hlo := Int.le_bmod (x := x) hm
  have hhi := Int.bmod_lt (x := x) hm
  exact Int.bmod_eq_of_le (by omega) (by omega)

/-- A value of a type, wrapped to a width no smaller, is read back there under the same sign. -/
theorem extI_wrapN_extI (sg : Bool) {n m : Nat} (a : Nat) (h : n ≤ m) : extI sg m (wrapN (extI sg n a) m) = extI sg n a := by
  have hle : 2 ^ n ≤ 2 ^ m := Nat.pow_le_pow_right Nat.two_pos h
  cases sg
  · have hlt : a % 2 ^ n < 2 ^ m := (Nat.mod_lt a (Nat.two_pow_pos n)).trans_le hle
    rw [extI_unsigned, natCast_wrapN, Int.emod_emod]
    exact Int.emod_eq_of_lt (Int.natCast_nonneg _) (Int.ofNat_lt.mpr hlt)
  · rw [extI_signed, natCast_wrapN, Int.emod_bmod, extI_signed, bmod_bmod_of_le _ (Nat.two_pow_pos n) hle]

/-! What DST holds (R194). -/

/-- The low bits of DST are those of the exact result. -/
theorem scalarResult_emod (sg : Bool) {n : Nat} (x : Int) (h : n ≤ 64) :
    ((scalarResult sg n x : Nat) : Int) % ((2 ^ n : Nat) : Int) = x % ((2 ^ n : Nat) : Int) := by
  have hdvd : ((2 ^ n : Nat) : Int) ∣ ((2 ^ 64 : Nat) : Int) := Int.natCast_dvd_natCast.mpr (Nat.pow_dvd_pow 2 h)
  unfold scalarResult
  rw [natCast_wrapN, Int.emod_emod_of_dvd _ hdvd, extI_emod, natCast_wrapN, Int.emod_emod]

/-- DST, read in the type, is the result that the type holds. -/
theorem extI_scalarResult (sg : Bool) {n : Nat} (x : Int) (h : n ≤ 64) : extI sg n (scalarResult sg n x) = extI sg n (wrapN x n) :=
  extI_congr sg (by rw [scalarResult_emod sg x h, natCast_wrapN, Int.emod_emod])

/-- DST extends its type: all 64 bits read as the type's own do. -/
theorem extI_scalarResult_64 (sg : Bool) {n : Nat} (x : Int) (h : n ≤ 64) :
    extI sg n (scalarResult sg n x) = extI sg 64 (scalarResult sg n x) :=
  (extI_scalarResult sg x h).trans (extI_wrapN_extI sg _ h).symm

/-! What the operand fields read (R68, R171, R194). -/

/-- A scalar source field that takes the long-immediate word and may be held. -/
theorem field_eq_scalarSource (k : Cur) (sl : Slot) (v : BitVec 8) (hold : Bool) (i : Nat) :
    k.before.field k.imm sl ⟨v.toNat, .src .s true true, hold, i⟩ = scalarSource k sl v i := by
  have hval (c : BitVec 8) : v.toNat = c.toNat ↔ v = c := BitVec.toNat_inj
  have himm : immScalar k.imm = (k.imm.signExtend 64).toNat := by
    unfold immScalar
    rw [sext_toNat]
    rfl
  unfold scalarSource
  simp only [Ctx.field, Ctx.reg, himm, Bool.true_and, decide_eq_true_eq, ← hval] <;> rfl

/-- The immediate that stands for b: a field sign-extended to 64 bits. -/
theorem wrapN_sext {n : Nat} (v : BitVec n) : wrapN (sext v.toNat n) 64 = (v.toInt % ((2 ^ 64 : Nat) : Int)).toNat := by
  rw [sext_toNat]
  rfl

/-- The source fields of a scalar form: SRC2, which the immediate may replace, and, where the form takes `two` operands, SRC1. -/
structure ReadsScalars (w : ABW) (two : Bool) (f : Form) : Prop where
  slot : f.slot = abSlot w
  src1 : two = true → f.fld 0 = ⟨w.src1.toNat, .src .s true true, w.hold1, 0⟩
  src2 : f.fld 1 = ⟨w.src2.toNat, src2Role w, w.hold2, 1⟩

theorem scalarForm_reads (w : ABW) (two : Bool) (lat : Nat) : ReadsScalars w two (scalarForm w two lat) := by
  refine ⟨rfl, ?_, rfl⟩
  rintro rfl
  rfl

theorem selForm_reads (w : ABW) : ReadsScalars w true (selForm w) := ⟨rfl, fun _ => rfl, rfl⟩

theorem cmpForm_reads (w : ABW) : ReadsScalars w true (cmpForm w) := ⟨rfl, fun _ => rfl, rfl⟩

/-- Of the scalar forms all but MOV, CLZ and POPC take two operands (Table 10.3). -/
theorem scalarForms_read {w : ABW} {i : Instr} {f : Form}
    (hi : i ∈ [.add w, .sub w, .mul w, .mulh w, .div w, .rem w, .and w, .or w, .xor w, .shl w, .shr w, .min w, .max w, .adds w, .subs w,
      .ext w, .sel w, .mov w, .clz w, .popc w, .cmp w]) (hf : formOf i = some f) :
    ∃ two, ReadsScalars w two f ∧ (two = false → i = .mov w ∨ i = .clz w ∨ i = .popc w) := by
  simp only [List.mem_cons, List.not_mem_nil, or_false] at hi
  rcases hi with rfl | rfl | rfl | rfl | rfl | rfl | rfl | rfl | rfl | rfl | rfl | rfl | rfl | rfl | rfl | rfl | rfl | rfl | rfl | rfl | rfl
  all_goals obtain rfl := Option.some.inj hf
  iterate 16 exact ⟨true, scalarForm_reads w true _, nofun⟩
  · exact ⟨true, selForm_reads w, nofun⟩
  · exact ⟨false, scalarForm_reads w false _, fun _ => .inl rfl⟩
  · exact ⟨false, scalarForm_reads w false _, fun _ => .inr (.inl rfl)⟩
  · exact ⟨false, scalarForm_reads w false _, fun _ => .inr (.inr rfl)⟩
  · exact ⟨true, cmpForm_reads w, nofun⟩

section Operands
variable {k : Cur} {w : ABW} {two : Bool} {f : Form} {i : Instr}

theorem ReadsScalars.src_zero (h : ReadsScalars w two f) (ht : two = true) : (opOf k i f).src 0 = scalarSource k (abSlot w) w.src1 0 := by
  show k.before.field k.imm f.slot (f.fld 0) = _
  rw [h.src1 ht, h.slot, field_eq_scalarSource]

theorem ReadsScalars.src_one (h : ReadsScalars w two f) (hi : w.immf = false) :
    (opOf k i f).src 1 = scalarSource k (abSlot w) w.src2 1 := by
  have hrole : src2Role w = .src .s true true := if_neg (by simp [hi])
  show k.before.field k.imm f.slot (f.fld 1) = _
  rw [h.src2, h.slot, hrole, field_eq_scalarSource]

/-- Operand b: the immediate, or the second source. -/
theorem ReadsScalars.sB_eq (h : ReadsScalars w two f) : (opOf k i f).sB w = extI (scalarTy w).1 (scalarTy w).2
    (if w.immf = true then (w.imm15.toInt % ((2 ^ 64 : Nat) : Int)).toNat else scalarSource k (abSlot w) w.src2 1) := by
  unfold Run.sB
  congr 1
  split
  · exact wrapN_sext w.imm15
  · next hi => exact h.src_one (Bool.not_eq_true _ ▸ hi)

/-- Operand b of CMP: its 7-bit immediate, or the second source (R195). -/
theorem ReadsScalars.cmpB_eq (h : ReadsScalars w two f) : (opOf k i f).cmpB w = extI (scalarTy w).1 (scalarTy w).2
    (if w.immf = true then ((w.imm15.setWidth 7).toInt % ((2 ^ 64 : Nat) : Int)).toNat else scalarSource k (abSlot w) w.src2 1) := by
  unfold Run.cmpB
  congr 1
  split
  · rw [← wrapN_sext, BitVec.toNat_setWidth]
  · next hi => exact h.src_one (Bool.not_eq_true _ ▸ hi)

end Operands

/-- The type codes of the scalar forms (Table 9.4). -/
theorem scalarTy_of_tyOf {w : ABW} {sg : Bool} {n : Nat} (h : tyOf w.type = some (.int sg n)) : scalarTy w = (sg, n) := by
  simp only [scalarTy, h]

/-- Settles O22: results by balanced remainders, operands by what the two source fields of every scalar form read. -/
theorem scalarOperandsAndResults : Obligations.ScalarOperandsAndResults := by
  unfold Obligations.ScalarOperandsAndResults
  refine ⟨fun sg n x _ hn => ⟨wrapN_lt _ 64, scalarResult_emod sg x hn, extI_scalarResult_64 sg x hn⟩,
    fun n x hn => ⟨rfl, sext_eq_ite x hn⟩, fun w => ?types, fun k w f i => ?operands⟩
  case types =>
    refine ⟨?_, ?_, ?_, ?_, ?_, ?_, ?_, ?_⟩ <;> exact fun h => scalarTy_of_tyOf (h ▸ rfl)
  case operands =>
    intro sl b hi hf
    obtain ⟨two, hr, hunary⟩ := scalarForms_read hi hf
    refine ⟨fun hmov hclz hpopc => ?_, hr.sB_eq, hr.cmpB_eq⟩
    have htwo : two = true := by
      by_contra h
      obtain e | e | e := hunary (Bool.eq_false_of_not_eq_true h)
      · exact hmov e
      · exact hclz e
      · exact hpopc e
    have ha := hr.src_zero (k := k) (i := i) htwo
    exact ⟨ha, congrArg _ ha⟩

end Sys2Proof.Proofs
end

section
/-! PROOFS. Conversions between types, and the parts VCVT and XCVT write (O28). -/

namespace Sys2Proof.Proofs

open Sys2Proof Sys2Proof.Machine Sys2Proof.Safety

/-! The conversion of an element (Table 11.5). -/

/-- The integer that a conversion clamps: an integer or plane value itself, a floating one rounded (R89, R92). -/
def intOf (ts : Ty) (x : Nat) : Int := match ts.int? x with | some i => i | none => toIntRne (ts.value x)

/-- Into an integer type: the integer, clamped to the type's range. -/
theorem conv_int (sg : Bool) (w : Nat) (ts : Ty) (x : Nat) :
    conv (.int sg w) ts x = wrapN (max (loI sg w) (min (hiI sg w) (intOf ts x))) w :=
  congrArg (wrapN · w) (clampI_eq (loI_le_hiI sg w) _)

/-- An 8-plane code is an 8-bit integer (R89 case 4). -/
theorem conv_plane (n : Nat) (sg : Bool) (ts : Ty) (x : Nat) : conv (.plane n sg) ts x = conv (.int sg 8) ts x := by
  cases sg <;> rfl

theorem wrapN_zero (w : Nat) : wrapN 0 w = 0 := by rw [wrapN, Int.zero_emod, Int.toNat_zero]

theorem loI_nonpos (sg : Bool) (w : Nat) : loI sg w ≤ 0 := by
  cases sg
  · exact le_rfl
  · exact Int.neg_nonpos_of_nonneg (Int.natCast_nonneg _)

theorem hiI_nonneg (sg : Bool) (w : Nat) : 0 ≤ hiI sg w := by
  cases sg <;> exact sub_nonneg_of_le (by exact_mod_cast Nat.one_le_two_pow)

/-- Infinities lie beyond every type of up to 64 bits. -/
theorem range_within_beyond (sg : Bool) {w : Nat} (hw : w ≤ 64) : -beyond ≤ loI sg w ∧ hiI sg w ≤ beyond := by
  have hle {m : Nat} (hm : m ≤ 64) : ((2 ^ m : Nat) : Int) ≤ beyond :=
    Int.ofNat_le.mpr (Nat.pow_le_pow_right Nat.two_pos (hm.trans (by decide)))
  have hpred {m : Nat} (hm : m ≤ 64) : ((2 ^ m : Nat) : Int) - 1 ≤ beyond := (Int.sub_le_self _ Int.one_nonneg).trans (hle hm)
  have hw' : w - 1 ≤ 64 := (Nat.sub_le w 1).trans hw
  cases sg
  · exact ⟨Int.neg_nonpos_of_nonneg (Int.natCast_nonneg _), hpred hw⟩
  · exact ⟨Int.neg_le_neg (hle hw'), hpred hw'⟩

/-- What the destinations of `ConvRounds` have in common: they clamp to a range that holds 0 and no infinity. -/
structure Clamps (td : Ty) (w : Nat) (lo hi : Int) : Prop where
  holds_zero : lo ≤ 0 ∧ 0 ≤ hi
  in_beyond  : -beyond ≤ lo ∧ hi ≤ beyond
  value      : ∀ ts x, conv td ts x = wrapN (max lo (min hi (intOf ts x))) w

theorem clamps_int (sg : Bool) {w : Nat} (hw : w ≤ 64) : Clamps (.int sg w) w (loI sg w) (hiI sg w) :=
  ⟨⟨loI_nonpos sg w, hiI_nonneg sg w⟩, range_within_beyond sg hw, conv_int sg w⟩

theorem clamps_plane (n : Nat) (sg : Bool) : Clamps (.plane n sg) 8 (loI sg 8) (hiI sg 8) :=
  ⟨⟨loI_nonpos sg 8, hiI_nonneg sg 8⟩, range_within_beyond sg (by decide),
    fun ts x => (conv_plane n sg ts x).trans (conv_int sg 8 ts x)⟩

section
variable {td : Ty} {w : Nat} {lo hi : Int} {h : Fmt} {x : Nat} (hc : Clamps td w lo hi)
include hc

theorem Clamps.conv_zero (hx : toIntRne (decodeF h x) = 0) : conv td (.flt h) x = 0 := by
  obtain ⟨hlo, hhi⟩ := hc.holds_zero
  have hi0 : intOf (.flt h) x = 0 := hx
  rw [hc.value, hi0, min_eq_right hhi, max_eq_right hlo, wrapN_zero]

/-- Minus infinity gives the least value of the destination. -/
theorem Clamps.conv_inf_true (hx : decodeF h x = .inf true) : conv td (.flt h) x = wrapN (max lo (min hi lo)) w := by
  obtain ⟨hlo, hhi⟩ := hc.holds_zero
  obtain ⟨hb, _⟩ := hc.in_beyond
  have hi0 : intOf (.flt h) x = -beyond := congrArg toIntRne hx
  rw [hc.value, hi0, min_eq_right ((hb.trans hlo).trans hhi), min_eq_right (hlo.trans hhi), max_eq_left hb, max_self]

/-- Infinity gives the largest value of the destination. -/
theorem Clamps.conv_inf_false (hx : decodeF h x = .inf false) : conv td (.flt h) x = wrapN (max lo (min hi hi)) w := by
  obtain ⟨_, hb⟩ := hc.in_beyond
  have hi0 : intOf (.flt h) x = beyond := congrArg toIntRne hx
  rw [hc.value, hi0, min_eq_left hb, min_self]

theorem Clamps.conv_fin {m e : Int} (hx : decodeF h x = .fin m e) :
    ∃ i, Nearest ((m : ℝ) * 2 ^ e) i ∧ conv td (.flt h) x = wrapN (max lo (min hi i)) w :=
  ⟨toIntRne (.fin m e), Laws.toIntRne_nearest m e, hx ▸ hc.value (.flt h) x⟩

end

theorem convRounds : ConvRounds := by
  refine ⟨fun _ _ _ _ _ _ => ⟨rfl, rfl, rfl⟩, fun td w lo hi hd => ?_⟩
  intro out x hw _
  have hc : Clamps td w lo hi := by
    obtain ⟨sg, rfl, rfl, rfl⟩ | ⟨n, sg, rfl, rfl, rfl, rfl⟩ := hd
    · exact clamps_int sg hw
    · exact clamps_plane n sg
  exact ⟨fun _ _ => hc.value _ _, fun _ _ => hc.value _ _, fun _ => ⟨fun hx => hc.conv_zero (hx ▸ rfl),
    fun _ hx => hc.conv_zero (hx ▸ rfl), hc.conv_inf_true, hc.conv_inf_false, fun _ _ => hc.conv_fin⟩⟩

/-! The part of a destination that a conversion writes, or of a source that it reads (R216). -/

/-- Element `j` of the destination lies in part `h`, where the conversion is a narrowing one. -/
abbrev InPart (td ts : Ty) (h j : Nat) : Prop := td.width ≤ ts.width → h * ts.count ≤ j ∧ j < h * ts.count + ts.count

/-- The element of the source that element `j` of the destination converts. -/
abbrev convertedFrom (td ts : Ty) (h j : Nat) : Nat := if td.width ≤ ts.width then j - h * ts.count else h * td.count + j

/-- The two cases of `cvtPart`, narrowing and widening, as one. -/
theorem cvtPart_eq (td ts : Ty) (h : Nat) (a old : VReg) (act : Nat → Bool) :
    cvtPart td ts h a old act = buildV td.width fun j => if act j = true ∧ InPart td ts h j then
      conv td ts (elem ts.width a (convertedFrom td ts h j)) else elem td.width old j := by
  by_cases hn : td.width ≤ ts.width
  · refine (if_pos hn).trans (congrArg _ (funext fun j => if_congr ?_ (by rw [convertedFrom, if_pos hn]; rfl) rfl))
    rw [InPart, forall_prop_of_true hn, and_comm (a := act j = true), and_assoc]
    rfl
  · refine (if_neg hn).trans (congrArg _ (funext fun j => if_congr ?_ (by rw [convertedFrom, if_neg hn]; rfl) rfl))
    exact (and_iff_left fun h => absurd h hn).symm

theorem elem_cvtPart (td ts : Ty) (h : Nat) (a old : VReg) (act : Nat → Bool) {j : Nat} (hj : j < td.count) :
    elem td.width (cvtPart td ts h a old act) j = if act j = true ∧ InPart td ts h j then
      conv td ts (elem ts.width a (convertedFrom td ts h j)) % 2 ^ td.width else elem td.width old j := by
  rw [cvtPart_eq, elem_buildV _ _ hj, apply_ite (· % 2 ^ td.width), elem_mod]

/-- Settles O28: the roundings by what a conversion clamps, the elements by `elem_cvtPart`. -/
theorem conversions : Obligations.Conversions := by
  unfold Obligations.Conversions
  refine ⟨convRounds, fun s k f => ⟨fun w h => ?vcvt, fun w h => ?xcvt⟩⟩
  case vcvt => exact ⟨_, resultLands_of (State.runOp_performs h _ _), fun j hj => elem_cvtPart _ _ _ _ _ _ hj⟩
  case xcvt => exact ⟨_, resultLands_of (State.runOp_performs h _ _), fun j hj =>
    (elem_cvtPart _ _ _ _ _ _ hj).trans (if_congr (and_iff_right rfl) rfl rfl)⟩

end Sys2Proof.Proofs
end

section
/-! PROOFS. Vector reductions: the fixed tree, and the integer folds (O29). -/

namespace Sys2Proof.Proofs

open Sys2Proof Sys2Proof.Machine Sys2Proof.Safety

/-! The fixed tree (R102). -/

/-- One level of the tree takes the nodes of a level to those of the next. -/
theorem treeLevel_map (node : Nat → Nat → Nat) (y : Nat → Nat) (m : Nat) : ∀ (n i : Nat),
    treeLevel node ((List.range' (2 * i) (2 * n)).map (treeAt node y m)) = (List.range' i n).map (treeAt node y (m + 1)) := by
  intro n
  induction n with
  | zero => exact fun i => rfl
  | succ n ih => exact fun i => congrArg (treeAt node y (m + 1) i :: ·) (ih (i + 1))

/-- `k` levels are enough for 2^n nodes, n ≤ k: levels above the root leave it alone. -/
theorem treeReduce_map (node : Nat → Nat → Nat) (y : Nat → Nat) : ∀ {k n : Nat} (m : Nat), n ≤ k →
    treeReduce node k ((List.range (2 ^ n)).map (treeAt node y m)) = [treeAt node y (m + n) 0] := by
  intro k
  induction k with
  | zero =>
    intro n m h
    rw [Nat.le_zero.mp h]
    rfl
  | succ k ih =>
    intro n m h
    cases n with
    | zero => exact ih m (Nat.zero_le k)
    | succ n =>
      have hl := treeLevel_map node y m (2 ^ n) 0
      rw [Nat.mul_zero, ← Nat.pow_succ', ← List.range_eq_range', ← List.range_eq_range'] at hl
      rw [treeReduce, hl, ih (m + 1) (Nat.le_of_succ_le_succ h), Nat.add_right_comm]
      rfl

/-- The ten levels of a reduction, over the 2^n elements of a register. -/
theorem treeReduce_headD (node : Nat → Nat → Nat) (y : Nat → Nat) {n : Nat} (h : n ≤ 10) :
    (treeReduce node 10 ((List.range (2 ^ n)).map y)).headD 0 = treeAt node y n 0 := by
  have hr := treeReduce_map node y 0 h
  rw [Nat.zero_add] at hr
  exact congrArg (List.headD · 0) hr

/-! The elements a reduction takes. -/

/-- An active element, or what stands for an inactive one. -/
theorem redSrc_eq (r : Run) (ts : Ty) (ident : Nat) : r.redSrc ts ident = (List.range ts.count).map fun j =>
    if elemActive r.g r.f.sense ts.width j then elem ts.width (r.vsrc 0) j else ident := by
  refine List.ext_getElem (by simp [Run.redSrc, elems, upto, Ty.count]) fun j _ _ => ?_
  simp [Run.redSrc, elems, upto]

theorem tyOr_width_ge : ∀ c : BitVec 5, 8 ≤ (tyOr c).width := by decide

theorem tyOr_count_le (c : BitVec 5) : (tyOr c).count ≤ 2 ^ 10 := Nat.div_le_of_le_mul (Nat.mul_le_mul_right 1024 (tyOr_width_ge c))

/-- The zeros and infinities of a format that has infinities decode to themselves. -/
theorem decodeF_zero_inf {g : Fmt} (h : g = .f32 ∨ g = .f16 ∨ g = .bf16) (b : Bool) :
    decodeF g (g.zero b) = .zero b ∧ decodeF g (g.inf b) = .inf b := by
  obtain rfl | rfl | rfl := h <;> cases b <;> decide

/-- Leaf `j` of a reduction over floating elements: the F32 value of an active element, or of what stands for an inactive one. -/
def floatLeaf (r : Run) (ts : Ty) (g : Fmt) (e : Ext) (j : Nat) : Nat :=
  rne .f32 (if elemActive r.g r.f.sense ts.width j then decodeF g (elem ts.width (r.vsrc 0) j) else e)

theorem map_rne_redSrc (r : Run) (ts : Ty) {g : Fmt} {ident : Nat} {e : Ext} (hi : decodeF g ident = e) :
    ((r.redSrc ts ident).map fun x => rne .f32 (decodeF g x)) = (List.range ts.count).map (floatLeaf r ts g e) := by
  rw [redSrc_eq, List.map_map, ← hi]
  exact List.map_congr_left fun j _ => congrArg (rne .f32) (apply_ite (decodeF g) _ _ _)

/-! Integer reductions (R217). -/

/-- A value that a type holds is what the type reads of its bits. -/
theorem extI_wrapN {sg : Bool} {n : Nat} {x : Int} (hn : 0 < n) (hlo : loI sg n ≤ x) (hhi : x ≤ hiI sg n) :
    extI sg n (wrapN x n) = x := by
  cases sg
  · rw [extI_unsigned, natCast_wrapN, Int.emod_emod]
    exact Int.emod_eq_of_lt hlo (Int.lt_of_le_sub_one hhi)
  · have hhalf : 2 ^ n = 2 * 2 ^ (n - 1) := by rw [← Nat.pow_succ', Nat.succ_eq_add_one, Nat.sub_add_cancel hn]
    have hlo' : -((2 ^ (n - 1) : Nat) : Int) ≤ x := hlo
    have hhi' : x ≤ ((2 ^ (n - 1) : Nat) : Int) - 1 := hhi
    rw [extI_signed, natCast_wrapN, Int.emod_bmod, hhalf]
    exact Int.bmod_eq_of_le (by omega) (by omega)

/-- Integer `j` of a reduction over integer elements. -/
def intLeaf (r : Run) (ts : Ty) (sg : Bool) (n : Nat) (ident : Int) (j : Nat) : Int :=
  if elemActive r.g r.f.sense ts.width j then extI sg n (elem ts.width (r.vsrc 0) j) else ident

theorem map_extI_redSrc (r : Run) (ts : Ty) {sg : Bool} {n : Nat} {ident : Int} (hi : extI sg n (wrapN ident n) = ident) :
    (r.redSrc ts (wrapN ident n)).map (extI sg n) = (List.range ts.count).map (intLeaf r ts sg n ident) := by
  rw [redSrc_eq, List.map_map]
  refine List.map_congr_left fun j _ => (apply_ite (extI sg n) _ _ _).trans ?_
  rw [hi]
  rfl

theorem redInt_sum (l : List Int) : redInt l 0 0 = l.sum := List.sum_eq_foldl.symm

theorem redInt_max (l : List Int) (a : Int) : redInt l 1 a = l.foldl max a :=
  congrArg (List.foldl · a l) (funext fun _ => funext fun _ => (max_def_lt _ _).symm)

theorem redInt_min (l : List Int) (a : Int) : redInt l 2 a = l.foldl min a :=
  congrArg (List.foldl · a l) (funext fun _ => funext fun _ => (min_def_lt _ _).symm.trans (min_comm _ _))

/-! What a reduction gives. -/

section Floating
variable {r : Run} {td ts : Ty} {g : Fmt} {n : Nat} (ht : ts = .flt g) (hc : ts.count = 2 ^ n) (hn : n ≤ 10)

include hc hn in
theorem treeReduce_redSrc (node : Nat → Nat → Nat) {ident : Nat} {e : Ext} (he : decodeF g ident = e) :
    (treeReduce node 10 ((r.redSrc ts ident).map fun x => rne .f32 (decodeF g x))).headD 0 = treeAt node (floatLeaf r ts g e) n 0 := by
  rw [map_rne_redSrc r ts he, hc, treeReduce_headD node _ hn]

variable (hg : g = .f32 ∨ g = .f16 ∨ g = .bf16)
include ht hc hn hg

theorem reduce_sum_flt : r.reduce td ts 0 = treeAt sumNode (floatLeaf r ts g (.zero true)) n 0 := by
  rw [← treeReduce_redSrc hc hn sumNode (decodeF_zero_inf hg true).1, ht]
  rfl

theorem reduce_max_flt : r.reduce td ts 1 = treeAt (maxMinF .f32 true) (floatLeaf r ts g (.inf true)) n 0 := by
  rw [← treeReduce_redSrc hc hn (maxMinF .f32 true) (decodeF_zero_inf hg true).2, ht]
  rfl

theorem reduce_min_flt : r.reduce td ts 2 = treeAt (maxMinF .f32 false) (floatLeaf r ts g (.inf false)) n 0 := by
  rw [← treeReduce_redSrc hc hn (maxMinF .f32 false) (decodeF_zero_inf hg false).2, ht]
  rfl

end Floating

section Integer
variable {r : Run} {td ts : Ty} {sg : Bool} {n : Nat} (ht : ts = .int sg n) (hn : 0 < n)
include ht hn

theorem reduce_sum_int : r.reduce td ts 0 = wrapN ((List.range ts.count).map (intLeaf r ts sg n 0)).sum td.width := by
  rw [← map_extI_redSrc r ts (extI_wrapN hn (loI_nonpos sg n) (hiI_nonneg sg n)), ← redInt_sum, ht]
  rfl

theorem reduce_max_int : r.reduce td ts 1 =
    wrapN (((List.range ts.count).map (intLeaf r ts sg n (loI sg n))).foldl max (loI sg n)) td.width := by
  rw [← map_extI_redSrc r ts (extI_wrapN hn le_rfl (loI_le_hiI sg n)), ← redInt_max, ht]
  rfl

theorem reduce_min_int : r.reduce td ts 2 =
    wrapN (((List.range ts.count).map (intLeaf r ts sg n (hiI sg n))).foldl min (hiI sg n)) td.width := by
  rw [← map_extI_redSrc r ts (extI_wrapN hn (loI_le_hiI sg n) le_rfl), ← redInt_min, ht]
  rfl

end Integer

/-- A reduction lands its value in every element. -/
theorem lands_of_reduceOp {s : State} {k : Cur} {i : Instr} {f : Form} {w : VW} {kind a : Nat} (h : Performs s k i f)
    (hi : exec i s = s.runOp i fun s r => s.reduceOp r w kind) (ha : (opOf k i f).reduce (vTy w) (tyOr w.type2) kind = a) :
    ∃ v : VReg, ResultLands s k i f .v v.toNat ∧ ∀ j, j < (vTy w).count → elem (vTy w).width v j = a % 2 ^ (vTy w).width :=
  ⟨buildV (vTy w).width fun _ => a, resultLands_of (ha ▸ hi.trans (State.runOp_performs h _ _)), fun _ hj => elem_buildV _ _ hj⟩

/-- Settles O29: what a reduction gives, in every element. -/
theorem reductions : Obligations.Reductions := by
  unfold Obligations.Reductions
  intro s k w f ts x on lands
  refine ⟨fun g n ht hg hc => ?floating, fun sg n ht => ?integer⟩
  case floating =>
    have hn : n ≤ 10 := (Nat.pow_le_pow_iff_right Nat.one_lt_two).mp (hc ▸ tyOr_count_le w.type2)
    exact ⟨fun h => lands_of_reduceOp h rfl (reduce_sum_flt ht hc hn hg), fun h => lands_of_reduceOp h rfl (reduce_max_flt ht hc hn hg),
      fun h => lands_of_reduceOp h rfl (reduce_min_flt ht hc hn hg)⟩
  case integer =>
    have hn : 0 < n := Nat.lt_of_lt_of_le (by decide) ((tyOr_width_ge w.type2).trans_eq (congrArg Ty.width ht))
    exact ⟨fun h => lands_of_reduceOp h rfl (reduce_sum_int ht hn), fun h => lands_of_reduceOp h rfl (reduce_max_int ht hn),
      fun h => lands_of_reduceOp h rfl (reduce_min_int ht hn)⟩

end Sys2Proof.Proofs
end

section
/-! PROOFS. The matrix array: groups, cells and the last operand row (O60). -/

namespace Sys2Proof.Proofs

open Sys2Proof Sys2Proof.Machine Sys2Proof.Safety

/-! The groups of a cell (R98). -/

/-- Products padded with +0 to whole groups. -/
def padded (S : Nat) (p : List Ext) : List Ext := p ++ List.replicate (ceilDiv p.length S * S - p.length) (.zero false)

/-- The groups of `S` of a list of products. -/
def groups (S : Nat) (p : List Ext) : List (List Ext) := chunks S (ceilDiv p.length S) (padded S p)

theorem products_eq (S : Nat) (a b : List Ext) : products S a b = padded S (List.zipWith Ext.mul a b) := by
  rw [products, List.zip_eq_zipWith, List.map_zipWith]
  rfl

theorem ofInt_wrapI32 (x : Int) : BitVec.ofInt 32 (wrapI32 x) = BitVec.ofInt 32 x := by
  apply BitVec.eq_of_toInt_eq
  rw [BitVec.toInt_ofInt, BitVec.toInt_ofInt, wrapI32, Int.bmod_def, Int.bmod_def]
  omega

theorem satI32_eq (x : Int) : satI32 x = max (-(2 ^ 31)) (min (2 ^ 31 - 1) x) := clampI_eq (by decide) x

/-- A group as the array adds it: `groupOf` says the clamp by maximum and minimum, and the wrap by the bits alone. -/
theorem groupOf_eq (mode : Nat) (acc : BitVec 32) (g : List Ext) : groupOf mode acc g =
    if mode = 0 then BitVec.ofNat 32 (rne .f32 (exactSum (decodeF .f32 acc.toNat :: g))) else
      BitVec.ofInt 32 (if mode = 1 then satI32 (acc.toInt + (g.map toIntRne).foldl (· + ·) 0)
        else wrapI32 (acc.toInt + (g.map toIntRne).foldl (· + ·) 0)) := by
  rw [← List.sum_eq_foldl, satI32_eq, apply_ite (BitVec.ofInt 32), ofInt_wrapI32, ← apply_ite (BitVec.ofInt 32)]
  rfl

theorem ceilDiv_eq (m S : Nat) : ceilDiv m S = m ⌈/⌉ S := (Nat.ceilDiv_eq_add_pred_div ..).symm

section
variable {S : Nat} (hS : 0 < S)
include hS

theorem length_padded (p : List Ext) : (padded S p).length = ceilDiv p.length S * S := by
  have hle : p.length ≤ ceilDiv p.length S * S := by
    rw [ceilDiv_eq, Nat.mul_comm]
    exact le_smul_ceilDiv hS
  rw [padded, List.length_append, List.length_replicate, Nat.add_sub_cancel' hle]

theorem ceilDiv_self_add (m : Nat) : ceilDiv (S + m) S = ceilDiv m S + 1 := by
  rw [ceilDiv, ceilDiv, ← Nat.add_div_right _ hS]
  congr 1
  omega

/-- A cell takes its groups one after another. -/
theorem ktile_eq_foldl (mode : Nat) (acc : BitVec 32) (a b : List Ext) :
    ktile mode S acc a b = (groups S (List.zipWith Ext.mul a b)).foldl (groupOf mode) acc := by
  rw [ktile, products_eq, length_padded hS, Nat.mul_div_cancel _ hS]
  exact congrArg (List.foldl · acc _) (funext fun acc => funext fun g => (groupOf_eq mode acc g).symm)

theorem groups_nil : groups S [] = [] := by
  rw [groups, List.length_nil, ceilDiv, Nat.div_eq_of_lt (by omega)]
  rfl

/-- The first `S` products are a group, and the others the groups after it. -/
theorem groups_append {p : List Ext} (q : List Ext) (hp : p.length = S) : groups S (p ++ q) = p :: groups S q := by
  have hpad : padded S (p ++ q) = p ++ padded S q := by
    rw [padded, padded, List.length_append, hp, ceilDiv_self_add hS, List.append_assoc, Nat.succ_mul, Nat.add_comm _ S,
      Nat.add_sub_add_left]
  rw [groups, hpad, List.length_append, hp, ceilDiv_self_add hS, chunks, List.take_left' hp, List.drop_left' hp, groups]

/-- Fewer than `S` products are one group, padded. -/
theorem groups_short {p : List Ext} (h0 : 0 < p.length) (hp : p.length < S) :
    groups S p = [p ++ List.replicate (S - p.length) (.zero false)] := by
  have hone : ceilDiv p.length S = 1 := Nat.div_eq_of_lt_le (by omega) (by omega)
  have hpad : padded S p = p ++ List.replicate (S - p.length) (.zero false) := by rw [padded, hone, Nat.one_mul]
  have hlen : (padded S p).length ≤ S := by rw [length_padded hS, hone, Nat.one_mul]
  rw [groups, hone, chunks, chunks, List.take_of_length_le hlen, hpad]

end

/-- A finite integer is its own rounding. -/
theorem toIntRne_natPow (m : Int) (e : Nat) : toIntRne (.fin m e) = m * ((2 ^ e : Nat) : Int) := by
  have hr (n : Nat) : roundDiv n 1 = n := by simp [roundDiv, Nat.mod_one]
  have he : (-(e : Int)).toNat = 0 := Int.toNat_eq_zero.mpr (by omega)
  rw [toIntRne, he, Int.toNat_natCast, pow_zero, hr, Nat.cast_mul, Int.natCast_natAbs]
  split
  · next hm => rw [abs_of_neg hm, Int.neg_mul, neg_neg]
  · next hm => rw [abs_of_nonneg (not_lt.mp hm)]

/-! The cells of a K-tile (R241). -/

/-- The accumulator cell that row `p.1` of A and column `p.2` of B meet in. -/
def cellOf (j : Job) (p : Nat × Nat) : Nat := if j.trn = true then 64 * p.2 + p.1 else 64 * p.1 + p.2

/-- The pairs of a row of A and a column of B. -/
def cellPairs (j : Job) : List (Nat × Nat) := List.range j.rowsA.length ×ˢ List.range (j.rowsB.headD []).length

/-- What the K-tile makes of the cell of a pair. -/
def cellValue (j : Job) (mode S : Nat) (p : Nat × Nat) (x : BitVec 32) : BitVec 32 :=
  ktile mode S x (j.rowsA.getD p.1 []) (column p.2 j.rowsB)

/-- Entries rewritten one after another. -/
def rewrites {ι α : Type} [DecidableEq α] (d : α) (key : ι → Nat) (g : ι → α → α) (l : List ι) (t : Tbl α) : Tbl α :=
  l.foldl (fun t x => tset d t (key x) (g x (tget d t (key x)))) t

section
variable {ι α : Type} [DecidableEq α] {d : α} {key : ι → Nat} {g : ι → α → α}

theorem tget_rewrites_ne {l : List ι} {n : Nat} : ∀ {t : Tbl α}, (∀ x ∈ l, n ≠ key x) →
    tget d (rewrites d key g l t) n = tget d t n := by
  induction l with
  | nil => exact fun _ => rfl
  | cons x l ih =>
    intro t h
    obtain ⟨hx, hl⟩ := List.forall_mem_cons.mp h
    exact (ih hl).trans (tget_tset_ne d t _ hx)

/-- Entries with keys of their own are each rewritten once. -/
theorem tget_rewrites_mem {l : List ι} {x : ι} : ∀ {t : Tbl α}, (l.map key).Nodup → x ∈ l →
    tget d (rewrites d key g l t) (key x) = g x (tget d t (key x)) := by
  induction l with
  | nil => exact fun _ h => absurd h List.not_mem_nil
  | cons y l ih =>
    intro t hn hx
    obtain ⟨hy, hl⟩ := List.nodup_cons.mp hn
    rcases List.mem_cons.mp hx with rfl | hx
    · exact (tget_rewrites_ne fun z hz e => hy (List.mem_map.mpr ⟨z, hz, e.symm⟩)).trans (tget_tset_self d t _ _)
    · refine (ih hl hx).trans (congrArg (g x) (tget_tset_ne d t _ fun e => hy (e ▸ List.mem_map_of_mem hx)))

end

/-- A list with its places, by the places. -/
theorem zipIdx_eq_map {α : Type} (l : List α) (d : α) : l.zipIdx = (List.range l.length).map fun i => (l.getD i d, i) := by
  refine List.ext_getElem (by simp) fun i h _ => ?_
  rw [List.length_zipIdx] at h
  simp [h]

section
variable (j : Job)

theorem mem_cellPairs {p : Nat × Nat} : p ∈ cellPairs j ↔ p.1 < j.rowsA.length ∧ p.2 < (j.rowsB.headD []).length := by
  rw [cellPairs, List.mem_product, List.mem_range, List.mem_range]

/-- No two pairs meet in one cell. -/
theorem nodup_cells (hr : j.rowsA.length ≤ 64) (hc : (j.rowsB.headD []).length ≤ 64) : ((cellPairs j).map (cellOf j)).Nodup := by
  refine List.Nodup.map_on (fun p hp q hq h => ?_) (List.nodup_range.product List.nodup_range)
  rw [mem_cellPairs] at hp hq
  unfold cellOf at h
  split at h
  · exact Prod.ext (by omega) (by omega)
  · exact Prod.ext (by omega) (by omega)

/-- The columns that each row of `Job.apply` goes through. -/
theorem apply_eq_foldl (mode S : Nat) (vals : Tbl (BitVec 32)) :
    j.apply mode S vals = j.rowsA.zipIdx.foldl (fun vals a => (List.range (j.rowsB.headD []).length).foldl (fun vals c =>
      tset 0 vals (cellOf j (a.2, c)) (ktile mode S (tget 0 vals (cellOf j (a.2, c))) a.1 (column c j.rowsB))) vals) vals := by
  obtain ⟨kt, rung, kA, kB, srcA, srcB, scA, scB, trn, rowsA, _ | ⟨b, rowsB⟩, start, wait, part, scales, filled, left⟩ := j <;> rfl

/-- The rows and columns that `Job.apply` goes through, as one list of pairs. -/
theorem apply_eq_rewrites (mode S : Nat) (vals : Tbl (BitVec 32)) :
    j.apply mode S vals = rewrites 0 (cellOf j) (cellValue j mode S) (cellPairs j) vals := by
  show _ = List.foldl _ vals ((List.range j.rowsA.length).flatMap fun i => (List.range (j.rowsB.headD []).length).map (Prod.mk i))
  rw [apply_eq_foldl, zipIdx_eq_map _ [], List.foldl_map, List.foldl_flatMap]
  simp only [List.foldl_map]
  rfl

end

/-! The last operand row (R143). -/

section
variable {k : Call}

theorem nextRow_isSome {j : Job} : (k.nextRow j).isSome = true ↔
    j.rowsA.length < k.rowCount false ∨ j.rowsB.length < k.rowCount true := by
  unfold Call.nextRow
  split
  · simp [*]
  · split <;> simp [*]

/-- A job once its next row, of A or of B, is there. -/
def withRow (j : Job) (b : Bool) (r : List Ext) (w : Nat) : Job :=
  { j with rowsA := if b = true then j.rowsA else j.rowsA ++ [r], rowsB := if b = true then j.rowsB ++ [r] else j.rowsB,
           part := [], scales := [], wait := w }

theorem addRow_eq {j : Job} {l : List Job} (b : Bool) (r : List Ext) (w : Nat) (hk : k.jobs = j :: l) :
    k.addRow b r w = if (k.nextRow (withRow j b r w)).isSome = true then { k with jobs := withRow j b r w :: l } else
      { k with vals := (withRow j b r w).apply k.mode (k.step (withRow j b r w)) k.vals,
               jobs := { withRow j b r w with filled := true } :: l } := by
  rw [Call.addRow, hk]
  rfl

end

/-- Settles O60: a K-tile by its groups, a job by the cells it rewrites, a row by whether it is the last. -/
theorem matrixArithmetic : Obligations.MatrixArithmetic := by
  unfold Obligations.MatrixArithmetic
  refine ⟨fun mode S acc a b c d hS hab => ?groups, ⟨toIntRne_natPow, fun _ => rfl⟩, fun j mode S vals => ?cells,
    fun k j l b r w hk => ?rows, fun cap sg => ⟨rfl, rfl, rfl, rfl, rfl, rfl, rfl⟩, fun sg => ⟨rfl, rfl, rfl, rfl⟩⟩
  case groups =>
    have hlen : (List.zipWith Ext.mul a b).length = a.length := by rw [List.length_zipWith, ← hab, min_self]
    simp only [ktile_eq_foldl hS]
    refine ⟨congrArg (List.foldl _ acc) (groups_nil hS), fun ha => ?_, fun h0 ha => ?_⟩
    · rw [List.zipWith_append hab, groups_append hS _ (hlen.trans ha)]
      rfl
    · rw [groups_short hS (hlen.symm ▸ h0) (hlen.symm ▸ ha), hlen]
      rfl
  case cells =>
    intro cols cell hr hc
    rw [apply_eq_rewrites]
    refine ⟨fun i c hi hj => tget_rewrites_mem (x := (i, c)) (nodup_cells j hr hc) ((mem_cellPairs j).mpr ⟨hi, hj⟩), fun n hn => ?_⟩
    refine tget_rewrites_ne fun p hp => ?_
    obtain ⟨hi, hj⟩ := (mem_cellPairs j).mp hp
    exact hn p.1 p.2 hi hj
  case rows =>
    intro h
    have hadd := addRow_eq b r w hk
    refine ⟨fun hleft => hadd.trans (if_pos (nextRow_isSome.mpr hleft)), fun hA hB => hadd.trans (if_neg fun hnext => ?_)⟩
    exact (nextRow_isSome.mp hnext).elim (Nat.not_lt.mpr hA) (Nat.not_lt.mpr hB)

end Sys2Proof.Proofs
end

section
/-! PROOFS. Contracts, way masks, ranges and wheels (O45). -/

namespace Sys2Proof.Proofs

open Sys2Proof Sys2Proof.Machine Sys2Proof.Safety

/-! Operations that change one record beside their context. -/

section Becomes
variable {s : State} {k : Cur} {i : Instr} {f : Form} {n : Nat}

theorem opened_also (s : State) (k : Cur) (f : Form) : Also s (opened s k f) k f fun x => x :=
  ⟨rfl, opened_ctx_self s k f, fun _ h => opened_ctx_ne s k f h⟩

theorem ownerBecomes_of {g : Owner → Owner} (h : exec i s = .next ((opened s k f).updOwner n g)) : OwnerBecomes s k i f n g := by
  obtain ⟨hc, hx, ho⟩ := opened_also s k f
  exact ⟨_, h, ⟨hc, hx, ho⟩, rfl, State.owner_setOwner_self _ _ _, fun _ hq => State.owner_setOwner_ne _ _ hq⟩

theorem partBecomes_of {g : Part → Part} (h : exec i s = .next ((opened s k f).updPart n g)) : PartBecomes s k i f n g := by
  obtain ⟨hc, hx, ho⟩ := opened_also s k f
  exact ⟨_, h, ⟨hc, hx, ho⟩, rfl, State.part_setPart_self _ _ _, fun _ hq => State.part_setPart_ne _ _ hq⟩

theorem coreBecomes_of {g : Core → Core} (h : exec i s = .next ((opened s k f).updCore n g)) :
    CoreBecomes s k i f n g fun x => x := by
  obtain ⟨hc, hx, ho⟩ := opened_also s k f
  exact ⟨_, h, ⟨hc, hx, ho⟩, rfl, State.core_setCore_self _ _ _, fun _ hq => State.core_setCore_ne _ _ hq⟩

end Becomes

/-! Buckets (R139, R199). -/

/-- Nothing but the buckets of contexts and the spare pools of the slice ports differs. -/
structure BucketsOnly (s t : State) : Prop where
  rest : t = { s with ctxs := t.ctxs, spare := t.spare }
  ctxs : ∀ d, t.ctx d = { s.ctx d with buckets := (t.ctx d).buckets }

theorem BucketsOnly.refl (s : State) : BucketsOnly s s := ⟨rfl, fun _ => rfl⟩

theorem BucketsOnly.trans {s t u : State} (h : BucketsOnly s t) (g : BucketsOnly t u) : BucketsOnly s u := by
  obtain ⟨hr, hc⟩ := h
  obtain ⟨gr, gc⟩ := g
  refine ⟨?_, fun d => ?_⟩
  · rw [hr] at gr
    exact gr
  · have e := gc d
    rw [hc d] at e
    exact e

theorem BucketsOnly.foldl {α : Type} {f : State → α → State} (h : ∀ s a, BucketsOnly s (f s a)) (l : List α) (s : State) :
    BucketsOnly s (l.foldl f s) :=
  List.foldlRecOn l f (.refl s) fun t ht a _ => ht.trans (h t a)

theorem setBuckets_only (s : State) (c : Nat) (b : Tbl (Nat × Nat)) : BucketsOnly s (s.setCtx c { s.ctx c with buckets := b }) := by
  refine ⟨rfl, fun d => ?_⟩
  by_cases h : d = c
  · rw [h, State.ctx_setCtx_self]
  · rw [State.ctx_setCtx_ne s _ h]

theorem addPool_only (s : State) (sl p n : Nat) : BucketsOnly s (s.addPool sl p n) := ⟨rfl, fun _ => rfl⟩

theorem settle_only (s : State) (sl c : Nat) : BucketsOnly s (s.settle sl c) := by
  unfold State.settle
  dsimp only
  split
  · exact .refl s
  · exact (setBuckets_only s c _).trans (addPool_only _ _ _ _)

/-- The bucket of a context at a slice, refitted from one depth to another; what it holds too much goes to the pool (R199). -/
def refitBucket (old depth c : Nat) (s : State) (sl : Nat) : State :=
  let s := s.settle sl c
  let x := s.ctx c
  let level := 16 * old - (tget (0, 0) x.buckets sl).1
  (s.setCtx c { x with buckets := tset (0, 0) x.buckets sl (16 * depth - level, s.cycle) }).addPool sl x.part (level - 16 * depth)

/-- Every bucket of a context, where the context is one of owner `o`. -/
def refitCtx (o old depth : Nat) (s : State) (e : Nat × Ctx) : State :=
  if e.2.owner = o && !(e.2.st = .empty) then (s.part e.2.part).slices.foldl (refitBucket old depth e.1) s else s

theorem setBucket_eq (s : State) (o rate depth : Nat) : s.setBucket o rate depth =
    (s.ctxs.foldl (refitCtx o (s.owner o).depth depth) s).updOwner o fun w => { w with rate := rate, depth := depth } := rfl

theorem refitBucket_only (old depth c : Nat) (s : State) (sl : Nat) : BucketsOnly s (refitBucket old depth c s sl) :=
  (settle_only s sl c).trans ((setBuckets_only _ c _).trans (addPool_only _ _ _ _))

theorem refitCtx_only (o old depth : Nat) (s : State) (e : Nat × Ctx) : BucketsOnly s (refitCtx o old depth s e) := by
  unfold refitCtx
  split
  · exact .foldl (refitBucket_only old depth e.1) _ s
  · exact .refl s

/-- What OWNBKT leaves. -/
theorem ownbkt_spec (s : State) (k : Cur) (f : Form) (o r d : Nat) : let t := (opened s k f).setBucket o r d
    t.cur = some (acted k) ∧ t = { s with ctxs := t.ctxs, cur := t.cur, owners := t.owners, spare := t.spare } ∧
      t.owner o = { s.owner o with rate := r, depth := d } ∧ (∀ q, q ≠ o → t.owner q = s.owner q) ∧
      ∀ c, t.ctx c = { (opened s k f).ctx c with buckets := (t.ctx c).buckets } := by
  obtain ⟨hr, hc⟩ := BucketsOnly.foldl (refitCtx_only o ((opened s k f).owner o).depth d) (opened s k f).ctxs (opened s k f)
  rw [setBucket_eq]
  generalize List.foldl _ _ _ = u at hr hc
  have hq : ∀ q, u.owner q = s.owner q := fun q => by rw [hr]; rfl
  refine ⟨?_, ?_, ?_, fun q h => (State.owner_setOwner_ne _ _ h).trans (hq q), hc⟩
  · rw [hr]
    rfl
  · rw [hr]
    rfl
  · rw [State.updOwner_eq, State.owner_setOwner_self, hq]

/-- Settles O45: each operation performs its effect on the opened state; that of OWNBKT touches buckets and pools beside its owner. -/
theorem contractsAndTables : Obligations.ContractsAndTables := by
  unfold Obligations.ContractsAndTables
  intro s k f w
  refine ⟨fun h => ?ownset, fun h => ?ownlat, fun h => ?ownbkt, fun h => ?wayset, fun h => ?rngset, fun h => ?whlset⟩
  case ownset => exact ownerBecomes_of (State.runOp_performs h _ _)
  case ownlat => exact ownerBecomes_of (State.runOp_performs h _ _)
  case ownbkt => exact ⟨_, State.runOp_performs h _ _, ownbkt_spec s k f _ _ _⟩
  case wayset => exact ownerBecomes_of (State.runOp_performs h _ _)
  case rngset =>
    have hn : (w.imm24 = 0) = (w.imm24.toNat = 0) := propext (BitVec.toNat_inj (y := 0)).symm
    simp only [hn]
    exact partBecomes_of (State.runOp_performs h _ _)
  case whlset => exact coreBecomes_of (State.runOp_performs h _ _)

end Sys2Proof.Proofs
end

section
/-! PROOFS. Freezes of late loads and of breaches (O51). -/

namespace Sys2Proof.Proofs

open Sys2Proof Sys2Proof.Machine Sys2Proof.Safety

/-! What lets a context go on (R53, R117). -/

theorem clear_iff (f : Freeze) : f.clear = true ↔
    f.late = false ∧ f.breach = false ∧ f.fault = none ∧ f.urgent = none ∧ f.tdi = false := by
  simp [Freeze.clear, and_assoc]

theorem thaw_eq (x : Ctx) :
    x.thaw = { x with st := if x.st = .frozen ∧ x.frz.clear = true ∧ x.dying = none then .ready else x.st } := by
  by_cases h : x.st = .frozen ∧ x.frz.clear = true ∧ x.dying = none
  · simp [Ctx.thaw, h]
  · rw [if_neg h, Ctx.thaw, if_neg]
    simpa [and_assoc] using h

theorem thaw_reg (x : Ctx) (cls : Cls) (n : Nat) : x.thaw.reg cls n = x.reg cls n := by
  rw [thaw_eq]
  cases cls <;> rfl

/-! Late loads (R185). -/

section LateLoad
variable {s : State} {c : Nat}

theorem hasLate_iff : (s.ctx c).hasLate (s.now c) = true ↔ Overdue s c := by
  simp [Ctx.hasLate, Overdue, and_assoc]

theorem execLateLoadFreeze_due
    (hs : (s.ctx c).st = .ready ∨ (s.ctx c).st = .blocked ∨ ((s.ctx c).st = .frozen ∧ (s.ctx c).frz.breach = true))
    (hl : (s.ctx c).frz.late = false) (ho : Overdue s c) : execLateLoadFreeze c s =
      .next (s.setCtx c { s.ctx c with st := .frozen, frz := { (s.ctx c).frz with late := true } }) := by
  simp [execLateLoadFreeze, or_assoc, hs, hl, hasLate_iff.mpr ho]

theorem setReg_freeze (x : Ctx) (cls : Cls) (n v : Nat) :
    (x.setReg cls n v).st = x.st ∧ (x.setReg cls n v).frz = x.frz ∧ (x.setReg cls n v).dying = x.dying := by
  cases cls with
  | s => unfold Ctx.setReg; dsimp only; split <;> exact ⟨rfl, rfl, rfl⟩
  | _ => exact ⟨rfl, rfl, rfl⟩

theorem foldl_landOne_freeze (l : List Landing) (x : Ctx) : (l.foldl landOne x).st = x.st ∧ (l.foldl landOne x).frz = x.frz ∧
    (l.foldl landOne x).dying = x.dying := by
  refine List.foldlRecOn (motive := fun y : Ctx => y.st = x.st ∧ y.frz = x.frz ∧ y.dying = x.dying) l landOne ⟨rfl, rfl, rfl⟩ ?_
  rintro y ⟨hs, hf, hd⟩ l -
  unfold landOne
  split
  · next v _ =>
    obtain ⟨gs, gf, gd⟩ := setReg_freeze y l.cls l.idx v
    exact ⟨gs.trans hs, gf.trans hf, gd.trans hd⟩
  · exact ⟨hs, hf, hd⟩

/-- Results that land touch no cause of a freeze. -/
theorem landDue_freeze (x : Ctx) (now : Nat) :
    (x.landDue now).st = x.st ∧ (x.landDue now).frz = x.frz ∧ (x.landDue now).dying = x.dying :=
  foldl_landOne_freeze _ _

theorem execLateLoadArrival_due (hl : (s.ctx c).frz.late = true) (ho : ¬ Overdue s c) (hf : (s.ctx c).frz.fault = none)
    (hu : (s.ctx c).frz.urgent = none) : execLateLoadArrival c s =
      .next (s.setCtx c { (s.ctx c).landDue (s.now c) with
        frz := { (s.ctx c).frz with late := false },
        st := if (s.ctx c).st = .frozen ∧ (s.ctx c).frz.breach = false ∧ (s.ctx c).frz.tdi = false ∧ (s.ctx c).dying = none
          then .ready else (s.ctx c).st }) := by
  obtain ⟨gs, gf, gd⟩ := landDue_freeze (s.ctx c) (s.now c)
  have hno : (s.ctx c).hasLate (s.now c) = false := by
    rw [← Bool.not_eq_true, hasLate_iff]
    exact ho
  simp [execLateLoadArrival, hl, hno, hf, hu, thaw_eq, clear_iff, gs, gf, gd, and_assoc]

end LateLoad

/-! The contexts of a core, each changed by itself. -/

/-- Of context `c` `g` is made, and nothing else differs. -/
def Makes (c : Nat) (g : Ctx → Ctx) (s t : State) : Prop :=
  t = { s with ctxs := t.ctxs } ∧ t.ctx c = g (s.ctx c) ∧ ∀ d, d ≠ c → t.ctx d = s.ctx d

theorem makes_setCtx (s : State) (c : Nat) {g : Ctx → Ctx} {x : Ctx} (h : g (s.ctx c) = x) : Makes c g s (s.setCtx c x) :=
  ⟨rfl, (State.ctx_setCtx_self s c x).trans h.symm, fun _ hd => State.ctx_setCtx_ne s x hd⟩

theorem makes_same (s : State) (c : Nat) {g : Ctx → Ctx} (h : g (s.ctx c) = s.ctx c) : Makes c g s s := ⟨rfl, h.symm, fun _ _ => rfl⟩

theorem foldl_makes {s : State} {f : State → Nat → State} {g : Nat → Ctx → Ctx}
    (h : ∀ t c, t = { s with ctxs := t.ctxs } → Makes c (g c) t (f t c)) : ∀ (l : List Nat) (t : State), l.Nodup →
      t = { s with ctxs := t.ctxs } → l.foldl f t = { s with ctxs := (l.foldl f t).ctxs } ∧
        (∀ c ∈ l, (l.foldl f t).ctx c = g c (t.ctx c)) ∧ ∀ c, c ∉ l → (l.foldl f t).ctx c = t.ctx c := by
  intro l
  induction l with
  | nil => exact fun t _ ht => ⟨ht, fun _ hc => absurd hc List.not_mem_nil, fun _ _ => rfl⟩
  | cons a l ih =>
    intro t hl ht
    obtain ⟨ha, hl⟩ := List.nodup_cons.mp hl
    obtain ⟨hr, hx, ho⟩ := h t a ht
    obtain ⟨ir, ix, io⟩ := ih (f t a) hl (hr.trans (by rw [ht]))
    refine ⟨ir, fun c hc => ?_, fun c hc => ?_⟩
    · obtain rfl | hc := List.mem_cons.mp hc
      · exact (io c ha).trans hx
      · exact (ix c hc).trans (congrArg (g c) (ho c fun e => ha (e ▸ hc)))
    · obtain ⟨hca, hcl⟩ := not_or.mp fun e => hc (List.mem_cons.mpr e)
      exact (io c hcl).trans (ho c hca)

/-- A change made of each context of a core, by that context alone. -/
theorem foldl_coreContexts {s : State} {f : State → Nat → State} {g : Nat → Ctx → Ctx} (n : Nat)
    (h : ∀ t c, t = { s with ctxs := t.ctxs } → Makes c (g c) t (f t c)) : let t := ((upto 4).map (4 * n + ·)).foldl f s
    t = { s with ctxs := t.ctxs } ∧ (∀ c, coreOf c = n → t.ctx c = g c (s.ctx c)) ∧ ∀ c, coreOf c ≠ n → t.ctx c = s.ctx c := by
  have hn : ((upto 4).map (4 * n + ·)).Nodup := List.nodup_range.map fun a b e => Nat.add_left_cancel e
  obtain ⟨hr, hx, ho⟩ := foldl_makes h _ s hn rfl
  exact ⟨hr, fun c hc => hx c ((mem_coreContexts n).mpr hc), fun c hc => ho c fun e => hc ((mem_coreContexts n).mp e)⟩

/-- A state that differs, beside core `n` now being `x`, in contexts alone. -/
theorem rest_of_setCore {s t : State} {n : Nat} {x : Core} (h : t = { s.setCore n x with ctxs := t.ctxs }) :
    t = { s with ctxs := t.ctxs, cores := t.cores } ∧ t.core n = x ∧ ∀ m, m ≠ n → t.core m = s.core m := by
  have hc : t.cores = (s.setCore n x).cores := (congrArg State.cores h).trans rfl
  have hm : ∀ m, t.core m = (s.setCore n x).core m := fun m => congrArg (fun l => tget ({} : Core) l m) hc
  refine ⟨?_, (hm n).trans (State.core_setCore_self s n x), fun m hne => (hm m).trans (State.core_setCore_ne s x hne)⟩
  rw [hc]
  exact h

/-! Late groups (R117). -/

section Breaches
variable {s : State} {n : Nat}

theorem isLate_iff (s : State) (k : Call) : s.isLate k = true ↔ Late s k := by
  unfold State.isLate Late Call.closes Call.tileNo
  cases k.jobs <;> simp

theorem anyLate_iff (s : State) (n : Nat) :
    (s.calls.any fun k => k.core = n && s.isLate k) = true ↔ ∃ k ∈ s.calls, k.core = n ∧ Late s k := by
  simp [isLate_iff]

theorem spared_iff (s : State) (n c : Nat) : s.spared n c = true ↔
    ∃ k ∈ s.calls, k.core = n ∧ k.ctx = c ∧ k.stopped.isSome = true ∧ Late s k := by
  simp [State.spared, isLate_iff, and_assoc]

/-! Calls that suffer a freeze (R118). -/

/-- A context one of whose calls suffers the freeze of a breach. -/
def sufferCtx (x : Ctx) : Ctx := { x with breaches := min (x.breaches + 1) 65535 }

/-- A call of core `n` that has not suffered one yet does. -/
def sufferOne (n : Nat) (s : State) (k : Call) : State :=
  if k.core = n && !k.late then (s.updCall k.id fun k => { k with late := true }).updCtx k.ctx sufferCtx else s

theorem suffer_eq (s : State) (n : Nat) : s.suffer n = s.calls.foldl (sufferOne n) s := rfl

theorem suffer_rest (s : State) (n : Nat) : s.suffer n = { s with ctxs := (s.suffer n).ctxs, calls := (s.suffer n).calls } := by
  rw [suffer_eq]
  refine List.foldlRecOn (motive := fun t : State => t = { s with ctxs := t.ctxs, calls := t.calls }) _ _ rfl fun t ht k _ => ?_
  unfold sufferOne
  split
  · rw [ht]
    rfl
  · exact ht

/-- A call with its late bit, where a call of core `n` among `l` that has its number had not suffered a freeze. -/
def markLate (l : List Call) (n : Nat) (j : Call) : Call :=
  if l.any fun k => k.core = n && !k.late && k.id = j.id then { j with late := true } else j

theorem markLate_eq (l : List Call) (n : Nat) (j : Call) : ∃ b, markLate l n j = { j with late := b } := by
  unfold markLate
  split
  · exact ⟨true, rfl⟩
  · exact ⟨j.late, rfl⟩

theorem markLate_self {l : List Call} {k : Call} (h : k ∈ l) (hn : k.core = n) : (markLate l n k).late = true := by
  cases hk : k.late with
  | true =>
    unfold markLate
    split
    · rfl
    · exact hk
  | false =>
    unfold markLate
    rw [if_pos]
    exact List.any_eq_true.mpr ⟨k, h, by simp [hn, hk]⟩

theorem markLate_cons (k : Call) (l : List Call) (n : Nat) (j : Call) :
    markLate (k :: l) n j = markLate l n (markLate [k] n j) := by
  by_cases hk : (k.core = n && !k.late && k.id = j.id) = true
  · simp [markLate, hk]
  · simp [markLate, hk]

theorem sufferOne_calls (s : State) (n : Nat) (k : Call) : (sufferOne n s k).calls = s.calls.map (markLate [k] n) := by
  unfold sufferOne
  split
  · next h =>
    refine List.map_congr_left fun j _ => ?_
    have e : ([k].any fun k => k.core = n && !k.late && k.id = j.id) = decide (j.id = k.id) := by
      rw [List.any_cons, h, List.any_nil, Bool.true_and, Bool.or_false]
      exact decide_eq_decide.mpr eq_comm
    rw [markLate, e]
  · next h =>
    refine (List.map_id _).symm.trans (List.map_congr_left fun j _ => ?_)
    simp [markLate, h]

theorem foldl_sufferOne_calls (n : Nat) (l : List Call) : ∀ s : State,
    (l.foldl (sufferOne n) s).calls = s.calls.map (markLate l n) := by
  induction l with
  | nil => exact fun s => (List.map_id _).symm
  | cons k l ih =>
    intro s
    rw [List.foldl_cons, ih, sufferOne_calls, List.map_map]
    exact List.map_congr_left fun j _ => (markLate_cons k l n j).symm

/-- A freeze is counted once for each of the context's calls that had not suffered one. -/
theorem foldl_sufferOne_ctx (n c : Nat) (l : List Call) : ∀ s : State, (l.foldl (sufferOne n) s).ctx c =
    sufferCtx^[(l.filter fun k => k.core = n && !k.late && k.ctx = c).length] (s.ctx c) := by
  induction l with
  | nil => exact fun s => rfl
  | cons k l ih =>
    intro s
    rw [List.foldl_cons, ih, List.filter_cons]
    by_cases hk : (k.core = n && !k.late) = true
    · by_cases hc : k.ctx = c
      · have e : (sufferOne n s k).ctx c = sufferCtx (s.ctx c) := by
          rw [sufferOne, if_pos hk, ← hc]
          exact State.ctx_setCtx_self _ _ _
        rw [if_pos (by simp [hk, hc]), List.length_cons, Function.iterate_succ_apply, e]
      · have e : (sufferOne n s k).ctx c = s.ctx c := by
          rw [sufferOne, if_pos hk]
          exact State.ctx_setCtx_ne _ _ (Ne.symm hc)
        rw [if_neg (by simp [hc]), e]
    · rw [if_neg (by simp [hk]), sufferOne, if_neg hk]

theorem iterate_sufferCtx (m : Nat) : ∀ x : Ctx, x.breaches ≤ 65535 →
    sufferCtx^[m] x = { x with breaches := min 65535 (x.breaches + m) } := by
  induction m with
  | zero =>
    intro x hx
    rw [Nat.add_zero, Nat.min_eq_right hx]
    rfl
  | succ m ih =>
    intro x hx
    rw [Function.iterate_succ_apply, ih _ (Nat.min_le_right _ _)]
    simp only [sufferCtx]
    congr 1
    omega

theorem iterate_sufferCtx_reg (m : Nat) (cls : Cls) (i : Nat) : ∀ x : Ctx, (sufferCtx^[m] x).reg cls i = x.reg cls i := by
  induction m with
  | zero => exact fun _ => rfl
  | succ m ih =>
    intro x
    rw [Function.iterate_succ_apply, ih]
    cases cls <;> rfl

theorem iterate_sufferCtx_st (m : Nat) : ∀ x : Ctx, (sufferCtx^[m] x).st = x.st := by
  induction m with
  | zero => exact fun _ => rfl
  | succ m ih => exact fun x => ih (sufferCtx x)

/-! A breach begins (R117). -/

/-- What the freeze of a breach makes of a context of its core. -/
def breachFrozen (spared : Bool) (x : Ctx) : Ctx :=
  if !(x.st = .ready || x.st = .blocked || x.st = .frozen) then x
  else if spared then { x with frz := { x.frz with breach := false } }.thaw
  else { x with st := .frozen, frz := { x.frz with breach := true } }

theorem breachFrozen_reg (b : Bool) (x : Ctx) (cls : Cls) (i : Nat) : (breachFrozen b x).reg cls i = x.reg cls i := by
  unfold breachFrozen
  split
  · rfl
  · split
    · rw [thaw_reg]
      cases cls <;> rfl
    · cases cls <;> rfl

theorem breachFrozen_waits {x : Ctx} (h : x.st = .ready ∨ x.st = .blocked ∨ x.st = .frozen) :
    breachFrozen false x = { x with st := .frozen, frz := { x.frz with breach := true } } := by
  unfold breachFrozen
  rw [if_neg (by obtain h | h | h := h <;> simp [h]), if_neg Bool.false_ne_true]

theorem breachFreeze_spec (s : State) (n : Nat) : let t := s.breachFreeze n
    t = { s with ctxs := t.ctxs } ∧ (∀ c, coreOf c = n → t.ctx c = breachFrozen (s.spared n c) (s.ctx c)) ∧
      ∀ c, coreOf c ≠ n → t.ctx c = s.ctx c := by
  refine foldl_coreContexts (g := fun c => breachFrozen (s.spared n c)) n fun t c ht => ?_
  have hs : t.spared n c = s.spared n c := by
    rw [ht]
    rfl
  dsimp only
  rw [hs]
  split
  · next h => exact makes_same t c (by rw [breachFrozen, if_pos h])
  · next h =>
    split
    · next h' => exact makes_setCtx t c (by rw [breachFrozen, if_neg h, if_pos h'])
    · next h' => exact makes_setCtx t c (by rw [breachFrozen, if_neg h, if_neg h'])

/-- A stopped pipe that is late once the calls have suffered was late before. -/
theorem spared_suffer {c : Nat} (h : (s.suffer n).spared n c = true) :
    ∃ k ∈ s.calls, k.core = n ∧ k.ctx = c ∧ k.stopped.isSome = true ∧ Late s k := by
  obtain ⟨j, hj, hcore, hctx, hstop, hlate⟩ := (spared_iff _ n c).mp h
  rw [suffer_eq, foldl_sufferOne_calls] at hj
  obtain ⟨k, hk, rfl⟩ := List.mem_map.mp hj
  obtain ⟨b, hb⟩ := markLate_eq s.calls n k
  rw [hb] at hcore hctx hstop hlate
  rw [suffer_rest] at hlate
  exact ⟨k, hk, hcore, hctx, hstop, hlate⟩

/-- The calls of a core in flight for a context that have not suffered the freeze of a breach. -/
def unsuffered (s : State) (n c : Nat) : List Call := s.calls.filter fun k => k.core = n && !k.late && k.ctx = c

/-- The state in which a core has begun to freeze, and none of its calls and contexts has yet. -/
def breached (s : State) (n : Nat) : State := s.setCore n { s.core n with breach := some ⟨s.now (4 * n)⟩ }

theorem execBreachBegin_due (hb : (s.core n).breach = none) (hk : ∃ k ∈ s.calls, k.core = n ∧ Late s k) :
    execBreachBegin n s = .next (((breached s n).suffer n).breachFreeze n) := by
  have hc : ((s.core n).breach.isNone && s.calls.any fun k => k.core = n && s.isLate k) = true := by
    rw [hb, (anyLate_iff s n).mpr hk]
    rfl
  exact if_pos hc

theorem breachBegun_rest (s : State) (n : Nat) : let t := ((breached s n).suffer n).breachFreeze n
    t = { s with ctxs := t.ctxs, cores := t.cores, calls := t.calls } ∧
      t.core n = { s.core n with breach := some ⟨s.now (4 * n)⟩ } ∧ (∀ m, m ≠ n → t.core m = s.core m) ∧
      t.calls = s.calls.map (markLate s.calls n) := by
  obtain ⟨hr, -, -⟩ := breachFreeze_spec ((breached s n).suffer n) n
  have hu := suffer_rest (breached s n) n
  have hcalls := foldl_sufferOne_calls n (breached s n).calls (breached s n)
  rw [← suffer_eq] at hcalls
  generalize ((breached s n).suffer n).breachFreeze n = t at hr
  have ht : t.calls = ((breached s n).suffer n).calls := (congrArg State.calls hr).trans rfl
  rw [hu] at hr
  obtain ⟨hr, hn, hm⟩ := rest_of_setCore (s := { s with calls := t.calls }) (t := t) (by rw [ht]; exact hr)
  exact ⟨hr, hn, hm, ht.trans hcalls⟩

theorem breachBegun_ctx (s : State) (n c : Nat) : let t := ((breached s n).suffer n).breachFreeze n
    let x := sufferCtx^[(unsuffered s n c).length] (s.ctx c)
    (coreOf c = n → t.ctx c = breachFrozen (((breached s n).suffer n).spared n c) x) ∧ (coreOf c ≠ n → t.ctx c = x) := by
  obtain ⟨-, hx, ho⟩ := breachFreeze_spec ((breached s n).suffer n) n
  have hs : ((breached s n).suffer n).ctx c = sufferCtx^[(unsuffered s n c).length] (s.ctx c) :=
    foldl_sufferOne_ctx n c (breached s n).calls (breached s n)
  exact ⟨fun h => (hx c h).trans (congrArg _ hs), fun h => (ho c h).trans hs⟩

/-! A breach ends (R117). -/

/-- A context that a breach lets go. -/
def breachThawed (x : Ctx) : Ctx := if x.frz.breach then { x with frz := { x.frz with breach := false } }.thaw else x

theorem breachThawed_breach (x : Ctx) : (breachThawed x).frz.breach = false := by
  unfold breachThawed
  split
  · rw [thaw_eq]
  · next h => exact Bool.eq_false_iff.mpr h

/-- A fault that is being delivered goes on to hold its context. -/
theorem breachThawed_fault {x : Ctx} (hs : x.st = .frozen) (hf : x.frz.fault ≠ none) :
    (breachThawed x).st = .frozen ∧ (breachThawed x).frz.fault = x.frz.fault := by
  unfold breachThawed
  split
  · rw [thaw_eq]
    refine ⟨?_, rfl⟩
    simp only [clear_iff]
    rw [if_neg fun h => hf h.2.1.2.2.1]
    exact hs
  · exact ⟨hs, rfl⟩

/-- A context of the core goes on, where the breach held it. -/
def thawOne (s : State) (c : Nat) : State :=
  let x := s.ctx c
  if x.frz.breach then s.setCtx c { x with frz := { x.frz with breach := false } }.thaw else s

theorem breachThaw_eq (s : State) (n : Nat) : s.breachThaw n =
    ((upto 4).map (4 * n + ·)).foldl thawOne (s.setCore n { s.core n with breach := none }) := rfl

theorem thawOne_makes (s : State) (c : Nat) : Makes c breachThawed s (thawOne s c) := by
  unfold thawOne
  dsimp only
  split
  · next h => exact makes_setCtx s c (by rw [breachThawed, if_pos h])
  · next h => exact makes_same s c (by rw [breachThawed, if_neg h])

theorem breachThaw_spec (s : State) (n : Nat) : let t := s.breachThaw n
    (t = { s with ctxs := t.ctxs, cores := t.cores } ∧ t.core n = { s.core n with breach := none } ∧
      ∀ m, m ≠ n → t.core m = s.core m) ∧
      (∀ c, coreOf c = n → t.ctx c = breachThawed (s.ctx c)) ∧ ∀ c, coreOf c ≠ n → t.ctx c = s.ctx c := by
  obtain ⟨hr, hx, ho⟩ := foldl_coreContexts (s := s.setCore n { s.core n with breach := none }) (g := fun _ => breachThawed) n
    fun t c _ => thawOne_makes t c
  exact ⟨rest_of_setCore hr, hx, ho⟩

theorem execBreachEnd_due (hb : (s.core n).breach.isSome = true) (hk : ∀ k ∈ s.calls, k.core = n → ¬ Late s k) :
    execBreachEnd n s = .next (s.breachThaw n) := by
  have hno : (s.calls.any fun k => k.core = n && s.isLate k) = false := by
    rw [← Bool.not_eq_true, anyLate_iff]
    rintro ⟨k, hm, hn, hl⟩
    exact hk k hm hn hl
  unfold execBreachEnd
  rw [if_pos (by rw [hb, hno]; rfl)]

/-! A breach of 65,536 cycles (R358). -/

theorem faultLate_only (s : State) (c : Nat) (f : FaultInfo) : OnlyCtx s (s.faultLate c f) c := by
  unfold State.faultLate
  split
  · exact (setCtx_onlyCtx s c _).1
  · exact State.takeFault_only s c f false

theorem endCall_calls (s : State) (k : Call) (f : FaultInfo) : (s.endCall k f).calls = s.calls.filter fun j => !(j.id = k.id) := by
  unfold State.endCall State.callFault
  rw [(faultLate_only _ _ _).rest]
  rfl

theorem endCall_ctx_ne (s : State) (k : Call) (f : FaultInfo) {d : Nat} (h : d ≠ k.ctx) : (s.endCall k f).ctx d = s.ctx d :=
  ((faultLate_only _ _ _).others d h).trans (State.ctx_setCtx_ne _ _ h)

theorem takeFault_late {c : Nat} {x : Ctx} (f : FaultInfo) (hx : s.ctx c = x) (hr : x.st.atRest = false) (hd : x.dying = none) :
    (s.takeFault c f false).ctx c = x.freezeAt (mkRec c x f) (s.freezeCol c) s.serial false (s.foundIn, f.order) := by
  have hrest : ¬ (x.st = .empty || x.st = .retired || x.st = .dormant || x.dying.isSome : Bool) = true := by
    rw [hd]
    simpa [CtxState.atRest] using hr
  unfold State.takeFault
  simp only [hx]
  rw [if_neg hrest]
  split
  · rw [if_neg (by simp)]
    exact State.ctx_setCtx_self s c _
  · exact State.ctx_setCtx_self s c _

/-- The fault of a call that a breach of 65,536 cycles ends. -/
def timeoutFault (k : Call) : FaultInfo := { k.info with cls := 0x0A, code := 1, adr := k.tileNo % 32 + k.acc % 16 * 256 }

/-- The call ends with that fault. -/
def timeoutCall (s : State) (k : Call) : State :=
  s.endCall k { cls := 0x0A, code := 1, adr := k.tileNo % 32 + k.acc % 16 * 256 }

/-- A context is being delivered the fault of a call that timed out. -/
structure TimedOut (k : Call) (x : Ctx) : Prop where
  st     : x.st = .frozen
  dying  : x.dying = none
  urgent : x.frz.urgent = none
  fault  : ∃ y m, x.frz.fault = some (mkRec k.ctx y (timeoutFault k), m, false)
  found  : ∃ n, x.frz.found = some (n, (timeoutFault k).order)

theorem timeoutCall_ctx {k : Call} (hr : (s.ctx k.ctx).st.atRest = false) (hd : (s.ctx k.ctx).dying = none)
    (hu : (s.ctx k.ctx).frz.urgent = none) : ∃ (x : Ctx) (m mark i : Nat), x = { s.ctx k.ctx with inflight := x.inflight } ∧
      (timeoutCall s k).ctx k.ctx = x.freezeAt (mkRec k.ctx x (timeoutFault k)) m mark false (i, (timeoutFault k).order) := by
  have hx : (s.dropCall k).ctx k.ctx =
      { s.ctx k.ctx with inflight := (s.ctx k.ctx).inflight.filter fun l => !(l.cls = .a && l.src = k.id) } := State.ctx_setCtx_self _ _ _
  have he : timeoutCall s k = (s.dropCall k).takeFault k.ctx (timeoutFault k) false := by
    unfold timeoutCall State.endCall State.callFault State.faultLate
    rw [hx, if_neg (by simp [hu])]
    rfl
  refine ⟨_, _, _, _, ?_, he ▸ takeFault_late (timeoutFault k) hx hr hd⟩
  rfl

theorem timeoutCall_first {k : Call} (hr : (s.ctx k.ctx).st.atRest = false) (hd : (s.ctx k.ctx).dying = none)
    (hf : (s.ctx k.ctx).frz.fault = none) (hu : (s.ctx k.ctx).frz.urgent = none) : TimedOut k ((timeoutCall s k).ctx k.ctx) := by
  obtain ⟨x, m, mark, i, hx, e⟩ := timeoutCall_ctx hr hd hu
  have hfx : x.frz.fault = none := by rw [hx]; exact hf
  rw [e, Ctx.freezeAt_first _ _ _ _ _ hfx]
  refine ⟨rfl, ?_, ?_, ⟨x, m, rfl⟩, ⟨i, rfl⟩⟩
  · rw [hx]
    exact hd
  · rw [hx]
    exact hu

/-- A second fault of the same operation gives way to the first (R334). -/
theorem timeoutCall_again {k : Call} (h : TimedOut k (s.ctx k.ctx)) : TimedOut k ((timeoutCall s k).ctx k.ctx) := by
  obtain ⟨hs, hd, hu, ⟨y, m, hf⟩, ⟨i, hi⟩⟩ := h
  obtain ⟨x, m', mark, i', hx, e⟩ := timeoutCall_ctx (by rw [hs]; rfl) hd hu
  have hz : x.frz = (s.ctx k.ctx).frz := by rw [hx]
  have hy : x.frz.yields false (i', (timeoutFault k).order) = false := by
    simp [Freeze.yields, hz, hf, hi]
  rw [e, Ctx.freezeAt_again _ _ _ _ _ (by rw [hz, hf]; exact Option.some_ne_none _) hy]
  refine ⟨?_, ?_, hz ▸ hu, ⟨y, m, hz ▸ hf⟩, ⟨i, hz ▸ hi⟩⟩
  · rw [hx]
    exact hs
  · rw [hx]
    exact hd

theorem foldl_timeoutCall_calls (l : List Call) : ∀ (s : State), ∀ j ∈ (l.foldl timeoutCall s).calls,
    j ∈ s.calls ∧ ∀ k ∈ l, j.id ≠ k.id := by
  induction l with
  | nil => exact fun s j hj => ⟨hj, fun _ h => absurd h List.not_mem_nil⟩
  | cons k l ih =>
    intro s j hj
    obtain ⟨hm, hl⟩ := ih _ j hj
    rw [timeoutCall, endCall_calls, List.mem_filter] at hm
    obtain ⟨hm, hk⟩ := hm
    refine ⟨hm, fun i hi => ?_⟩
    obtain rfl | hi := List.mem_cons.mp hi
    · simpa using hk
    · exact hl i hi

/-- The context of one call of those that end is delivered the fault of that call. -/
theorem foldl_timeoutCall_ctx {k : Call} {l : List Call} (hk : k ∈ l) (hl : ∀ m ∈ l, m.ctx = k.ctx → m = k)
    (hr : (s.ctx k.ctx).st.atRest = false) (hd : (s.ctx k.ctx).dying = none) (hf : (s.ctx k.ctx).frz.fault = none)
    (hu : (s.ctx k.ctx).frz.urgent = none) : TimedOut k ((l.foldl timeoutCall s).ctx k.ctx) := by
  obtain ⟨a, b, rfl, ha⟩ := List.eq_append_cons_of_mem hk
  have before : (a.foldl timeoutCall s).ctx k.ctx = s.ctx k.ctx := by
    refine List.foldlRecOn (motive := fun t : State => t.ctx k.ctx = s.ctx k.ctx) a timeoutCall rfl fun t ht m hm => ?_
    have hne : k.ctx ≠ m.ctx := fun e => ha (hl m (List.mem_append_left _ hm) e.symm ▸ hm)
    exact (endCall_ctx_ne t m _ hne).trans ht
  rw [List.foldl_append, List.foldl_cons]
  refine List.foldlRecOn (motive := fun t : State => TimedOut k (t.ctx k.ctx)) b timeoutCall ?_ fun t ht m hm => ?_
  · rw [← before] at hr hd hf hu
    exact timeoutCall_first hr hd hf hu
  · by_cases hc : m.ctx = k.ctx
    · rw [hl m (List.mem_append_right _ (List.mem_cons_of_mem _ hm)) hc]
      exact timeoutCall_again ht
    · have e : (timeoutCall t m).ctx k.ctx = t.ctx k.ctx := endCall_ctx_ne t m _ (Ne.symm hc)
      rw [e]
      exact ht

/-- The late calls of a core. -/
def lateCalls (s : State) (n : Nat) : List Call := s.calls.filter fun k => k.core = n && s.isLate k

theorem mem_lateCalls {k : Call} : k ∈ lateCalls s n ↔ k ∈ s.calls ∧ k.core = n ∧ Late s k := by
  simp [lateCalls, isLate_iff]

theorem execBreachTimeout_due {b : Breach} (hb : (s.core n).breach = some b) (ht : b.since + 65536 ≤ s.now (4 * n)) :
    execBreachTimeout n s = .next (((lateCalls s n).foldl timeoutCall s).breachThaw n) := by
  unfold execBreachTimeout
  rw [hb]
  exact if_neg (Nat.not_lt.mpr ht)

end Breaches

/-! The events by name. -/

theorem exec_lateLoadFreeze (c : Nat) (s : State) : exec (.lateLoadFreeze c) s = execLateLoadFreeze c s := rfl
theorem exec_lateLoadArrival (c : Nat) (s : State) : exec (.lateLoadArrival c) s = execLateLoadArrival c s := rfl
theorem exec_resultLanding (c : Nat) (s : State) : exec (.resultLanding c) s = execResultLanding c s := rfl
theorem exec_breachBegin (n : Nat) (s : State) : exec (.breachBegin n) s = execBreachBegin n s := rfl
theorem exec_breachEnd (n : Nat) (s : State) : exec (.breachEnd n) s = execBreachEnd n s := rfl
theorem exec_breachTimeout (n : Nat) (s : State) : exec (.breachTimeout n) s = execBreachTimeout n s := rfl

/-- Settles O51: each event where it is due; a breach by what it makes of each call and of each context of its core. -/
theorem freezesAndBreaches : Obligations.FreezesAndBreaches := by
  unfold Obligations.FreezesAndBreaches
  refine ⟨?freeze, ?arrival, ?begins, ?ends, ?timeout⟩
  case freeze =>
    intro s c hs hl ho
    exact ⟨_, (exec_lateLoadFreeze c s).trans (execLateLoadFreeze_due hs hl ho), setCtx_onlyCtx s c _⟩
  case arrival =>
    intro s c hl ho hf hu
    obtain ⟨ho', hc, hx⟩ := setCtx_onlyCtx s c { (s.ctx c).landDue (s.now c) with
      frz := { (s.ctx c).frz with late := false },
      st := if (s.ctx c).st = .frozen ∧ (s.ctx c).frz.breach = false ∧ (s.ctx c).frz.tdi = false ∧ (s.ctx c).dying = none
        then .ready else (s.ctx c).st }
    refine ⟨_, _, (exec_lateLoadArrival c s).trans (execLateLoadArrival_due hl ho hf hu), ho', hc,
      (exec_resultLanding c s).trans (execResultLanding_running hf hu), ?_⟩
    rw [hx, State.ctx_setCtx_self]
  case begins =>
    intro s n hb hk
    obtain ⟨hr, hn, hm, hcalls⟩ := breachBegun_rest s n
    have hctx := breachBegun_ctx s n
    refine ⟨_, (exec_breachBegin n s).trans (execBreachBegin_due hb hk), hr, hn, hm, ?marked, ?same, ?frozen, ?regs, ?others⟩
    case marked =>
      intro j hj hjn
      rw [hcalls] at hj
      obtain ⟨k, hk, rfl⟩ := List.mem_map.mp hj
      obtain ⟨b, e⟩ := markLate_eq s.calls n k
      refine markLate_self hk ?_
      rw [e] at hjn
      exact hjn
    case same =>
      rw [hcalls, List.map_map]
      refine List.map_congr_left fun k _ => ?_
      obtain ⟨b, e⟩ := markLate_eq s.calls n k
      rw [Function.comp_apply, e]
    case frozen =>
      intro c hc hno hbr hs
      have hsp : ((breached s n).suffer n).spared n c = false := Bool.eq_false_iff.mpr fun h => hno (spared_suffer (s := breached s n) h)
      rw [(hctx c).1 hc, hsp, breachFrozen_waits (by rwa [iterate_sufferCtx_st]), iterate_sufferCtx _ _ hbr]
      rfl
    case regs =>
      intro c cls m
      by_cases hc : coreOf c = n
      · rw [(hctx c).1 hc, breachFrozen_reg, iterate_sufferCtx_reg]
      · rw [(hctx c).2 hc, iterate_sufferCtx_reg]
    case others =>
      intro c hc hk
      have hnone : unsuffered s n c = [] := by
        refine List.filter_eq_nil_iff.mpr fun k hm h => ?_
        simp only [Bool.and_eq_true, decide_eq_true_eq] at h
        exact hk k hm h.1.1 h.2
      rw [(hctx c).2 hc, hnone]
      rfl
  case ends =>
    intro s n hb hk
    obtain ⟨⟨hr, hn, hm⟩, hin, hout⟩ := breachThaw_spec s n
    refine ⟨_, (exec_breachEnd n s).trans (execBreachEnd_due hb hk), hr, hn, hm, fun c h => ?_, fun c hc hbr => ?_⟩
    · by_cases hc : coreOf c = n
      · have hbr : (s.ctx c).frz.breach = false := h.resolve_left fun h => h hc
        rw [hin c hc, breachThawed, if_neg (by rw [hbr]; decide)]
      · exact hout c hc
    · rw [hin c hc, breachThawed, if_pos hbr, thaw_eq]
      simp only [clear_iff, true_and, and_assoc]
  case timeout =>
    intro s n b hb ht
    obtain ⟨⟨hr, hn, -⟩, hin, hout⟩ := breachThaw_spec ((lateCalls s n).foldl timeoutCall s) n
    refine ⟨_, (exec_breachTimeout n s).trans (execBreachTimeout_due hb ht), ?_, ?_, fun c hc => ?_, ?_⟩
    · rw [hn]
    · rw [hr]
      rintro k hk ⟨hkn, hl⟩
      obtain ⟨hm, hid⟩ := foldl_timeoutCall_calls _ s k hk
      exact hid k (mem_lateCalls.mpr ⟨hm, hkn, hl⟩) rfl
    · rw [hin c hc]
      exact breachThawed_breach _
    · intro k j l hk hkn hl hj hone he hret hdo hd hf hu
      have hlate : k ∈ lateCalls s n := mem_lateCalls.mpr ⟨hk, hkn, hl⟩
      have honly : ∀ m ∈ lateCalls s n, m.ctx = k.ctx → m = k := fun m hm => by
        obtain ⟨hm, hmn, hml⟩ := mem_lateCalls.mp hm
        exact hone m hm hmn hml
      obtain ⟨hs, -, -, ⟨y, m, hfault⟩, -⟩ := foldl_timeoutCall_ctx hlate honly (atRest_eq_false he hret hdo) hd hf hu
      obtain ⟨hst, hft⟩ := breachThawed_fault hs (by rw [hfault]; exact Option.some_ne_none _)
      refine ⟨mkRec k.ctx y (timeoutFault k), m, ?_, ?_, mkRec_cls _ _ _, mkRec_code _ _ _, rfl, ?_⟩
      · by_cases hc : coreOf k.ctx = n
        · rw [hin _ hc, hft, hfault]
        · rw [hout _ hc, hfault]
      · by_cases hc : coreOf k.ctx = n
        · rw [hin _ hc, hst]
        · rw [hout _ hc, hs]
      · show BitVec.ofNat 64 (k.tileNo % 32 + k.acc % 16 * 256) = _
        rw [Call.tileNo, hj]

end Sys2Proof.Proofs
end

section
/-! PROOFS. The governor's tick: where its statement fails (O54). -/

namespace Sys2Proof.Proofs

open Sys2Proof Sys2Proof.Machine Sys2Proof.Safety

/-- Slice 0 of partition 0 has been quiet for three ticks, and its one user in the window is owner 1, whose record differs from an
absent one in RUNG alone: with CEIL and FLOOR 0, RUNG 1 stands below the ceiling. OWNSET leaves no such record (R105). -/
def strayRung : State :=
  { State.reset with
    parts := [(0, { en := true, slices := [0] })], quiet := [(1024 * 2 + 0, 3)], users := [(2, 0, 1)],
    owners := [(1, { hdr := hSetRung 0 1 })] }

theorem exec_governorTick (s : State) : exec .governorTick s = execGovernorTick s := rfl

/-- The tick widens the owner, which leaves the default record: the table holds it no more, and nothing is left to keep the RUNG before
the tick (R108). -/
theorem strayRung_tick : ∃ t, exec .governorTick strayRung = .next t ∧ t.owner 1 = {} :=
  ⟨_, exec_governorTick strayRung, by decide +kernel⟩

/-- Refutes O54: the clause on the RUNG held before the tick speaks of every record, also of one that the tick widens to the default;
that one keeps no RUNG. -/
theorem not_governing : ¬ Obligations.Governing := by
  unfold Obligations.Governing
  rintro ⟨_, htick, _⟩
  obtain ⟨t, ht, _, _, howner, _⟩ := htick strayRung rfl
  obtain ⟨u, hu, hwide⟩ := strayRung_tick
  obtain rfl : t = u := Host.Outcome.next.inj (ht.symm.trans hu)
  obtain ⟨_, _, _, _, hwas⟩ := howner 1
  rw [hwide] at hwas
  have hrung : hRung ({} : Owner).hdr ≠ hRung (strayRung.owner 1).hdr := by decide
  rw [if_neg hrung] at hwas
  exact nomatch hwas

end Sys2Proof.Proofs
end

section
/-! PROOFS. The interleave of a partition over its channels (O11). -/

namespace Sys2Proof.Proofs

open Sys2Proof Sys2Proof.Machine Sys2Proof.Safety

/-! Device addresses as a partition and an offset (Table 7.3). -/

theorem paPart_devPa {p o : Nat} (hp : p < 12) (ho : o < 2 ^ 47) : paPart (devPa p o) = p := by
  unfold paPart devPa
  omega

theorem paOff_devPa (p : Nat) {o : Nat} (ho : o < 2 ^ 47) : paOff (devPa p o) = o := by
  unfold paOff devPa
  omega

theorem devPa_paPart_paOff {a : Nat} (ha : a < 2 ^ 51) : devPa (paPart a) (paOff a) = a := by
  unfold paPart paOff devPa
  omega

/-! Places of the interleave: an offset is its stripe of 512 bytes, dealt out over `n` channels, and its byte there. -/

/-- The channel address of an offset that `n` channels share (R133). -/
def chanAddr (n o : Nat) : Nat := o / (512 * n) * 512 + o % 512

theorem chanAddr_eq (n o : Nat) : chanAddr n o = o / 512 / n * 512 + o % 512 := by
  rw [chanAddr, Nat.div_div_eq_div_mul]

theorem stripe_lt {n o : Nat} (h : o < n * chanBytes) : o / 512 % n < n :=
  Nat.mod_lt _ (Nat.pos_of_lt_mul_right h)

theorem chanAddr_lt {n o : Nat} (h : o < n * chanBytes) : chanAddr n o < chanBytes := by
  have hrow : o / 512 / n < 3145728 := Nat.div_lt_of_lt_mul (by unfold chanBytes at h; omega)
  rw [chanAddr_eq, chanBytes]
  omega

/-- The bytes of a line stand in one stripe, one after the other. -/
theorem line_in_stripe {o i : Nat} (n : Nat) (ho : o % 128 = 0) (hi : i < 128) :
    (o + i) / 512 = o / 512 ∧ chanAddr n (o + i) = chanAddr n o + i := by
  have hs : (o + i) / 512 = o / 512 := by omega
  refine ⟨hs, ?_⟩
  rw [chanAddr_eq, chanAddr_eq, hs]
  omega

/-- A place of the interleave holds one offset. -/
theorem offset_unique {n o o' : Nat} (hs : o / 512 % n = o' / 512 % n) (ha : chanAddr n o = chanAddr n o') : o = o' := by
  rw [chanAddr_eq, chanAddr_eq] at ha
  have hrow : o / 512 / n = o' / 512 / n := by omega
  have hstripe : o / 512 = o' / 512 := by rw [← Nat.div_add_mod (o / 512) n, ← Nat.div_add_mod (o' / 512) n, hrow, hs]
  omega

/-! Where the model keeps a byte. -/

section Interleave
variable {s : State} {p : Nat}

theorem chanOf_eq (s : State) (a : Nat) : let l := (s.part (paPart a)).chans
    s.chanOf a = if 12 ≤ paPart a ∨ l.length * chanBytes ≤ paOff a then none
      else (l[paOff a / 512 % l.length]?).map fun c => (c, chanAddr l.length (paOff a)) := by
  simp only [State.chanOf, Bool.or_eq_true, decide_eq_true_eq, chanAddr]
  split
  · rfl
  · split
    · next e => rw [e]; rfl
    · next e => rw [e]; rfl

theorem chanOf_devPa {o : Nat} (hp : p < 12) (ho : o < (s.part p).chans.length * chanBytes) (hw : o < 2 ^ 47) :
    s.chanOf (devPa p o) =
      ((s.part p).chans[o / 512 % (s.part p).chans.length]?).map fun c => (c, chanAddr (s.part p).chans.length o) := by
  rw [chanOf_eq, paPart_devPa hp hw, paOff_devPa p hw, if_neg (not_or.mpr ⟨Nat.not_le.mpr hp, Nat.not_le.mpr ho⟩)]

/-- A device address that maps memory lies within its partition's channels, and its key is the channel with the address there. -/
theorem memKey_device {a k : Nat} (ha : a < 2 ^ 51) (h : s.memKey a = some k) : let l := (s.part (paPart a)).chans
    paOff a < l.length * chanBytes ∧
      ∃ c, l[paOff a / 512 % l.length]? = some c ∧ k = c * chanBytes + chanAddr l.length (paOff a) := by
  have hdevice : ¬ paHost a = true := fun e => absurd (of_decide_eq_true e) (Nat.not_le.mpr ha)
  simp only [State.memKey, if_neg hdevice, chanOf_eq] at h
  by_cases hout : 12 ≤ paPart a ∨ (s.part (paPart a)).chans.length * chanBytes ≤ paOff a
  · simp only [if_pos hout, reduceCtorEq] at h
  · rw [if_neg hout] at h
    refine ⟨Nat.not_le.mp (not_or.mp hout).2, ?_⟩
    cases hc : (s.part (paPart a)).chans[paOff a / 512 % (s.part (paPart a)).chans.length]? with
    | none => simp [hc] at h
    | some c => exact ⟨c, rfl, by simpa [hc] using h.symm⟩

/-- Two addresses of a partition that lists no channel twice, kept at one place, are one: channel and channel address come back from
the key, the stripe from the channel, and the offset from the two. -/
theorem memKey_inj (hl : (s.part p).chans.Nodup) {a b k : Nat} (ha : a < 2 ^ 51) (hb : b < 2 ^ 51) (hpa : paPart a = p)
    (hpb : paPart b = p) (hka : s.memKey a = some k) (hkb : s.memKey b = some k) : a = b := by
  obtain ⟨hia, c, hca, rfl⟩ := memKey_device ha hka
  obtain ⟨hib, d, hdb, hk⟩ := memKey_device hb hkb
  rw [hpa] at hia hca hk
  rw [hpb] at hib hdb hk
  have hxa := chanAddr_lt hia
  have hxb := chanAddr_lt hib
  have hcd : c = d := by unfold chanBytes at hk hxa hxb; omega
  subst hcd
  have hstripe := (List.getElem?_inj (stripe_lt hia) hl).mp (hca.trans hdb.symm)
  rw [← devPa_paPart_paOff ha, ← devPa_paPart_paOff hb, hpa, hpb, offset_unique hstripe (Nat.add_left_cancel hk)]

end Interleave

/-- Settles O11: the channel of an offset is that of its stripe, a line lies in one stripe, and a place holds one offset. -/
theorem channelInterleave : Obligations.ChannelInterleave := by
  unfold Obligations.ChannelInterleave
  intro s p hp hl
  refine ⟨fun o ho hw => chanOf_devPa hp ho hw, fun o ho _ => ?listed, fun o i halign ho hw hi => ?line,
    fun a b k => memKey_inj (hl.imp Nat.ne_of_lt)⟩
  case listed =>
    rw [List.getElem?_eq_getElem (stripe_lt ho)]
    rfl
  case line =>
    obtain ⟨hstripe, haddr⟩ := line_in_stripe (s.part p).chans.length halign hi
    rw [chanOf_devPa hp (by omega) (by omega), chanOf_devPa hp (by omega) (by omega), hstripe, haddr, Option.map_map]
    rfl

end Sys2Proof.Proofs
end

section
/-! PROOFS. What a strike at a frame (R381, R386) and the write-back of a slice leave: the slices of every partition (O48). -/

namespace Sys2Proof.Proofs

open Sys2Proof Sys2Proof.Machine Sys2Proof.Safety

/-- The slices of each partition. -/
def slicesOf (s : State) (p : Nat) : List Nat := (s.part p).slices

theorem slicesOf_foldl {α : Type} {g : State → α → State} (h : ∀ s a, slicesOf (g s a) = slicesOf s) (l : List α) (s : State) :
    slicesOf (l.foldl g s) = slicesOf s :=
  List.foldlRecOn (motive := fun t => slicesOf t = slicesOf s) l g rfl fun t ht a _ => (h t a).trans ht

theorem slicesOf_memStep {s t : State} (h : MemStep s t) : slicesOf t = slicesOf s := by
  rw [h.rest]
  rfl

theorem slicesOf_updPart (s : State) (p : Nat) {g : Part → Part} (h : ∀ q, (g q).slices = q.slices) :
    slicesOf (s.updPart p g) = slicesOf s := by
  funext q
  by_cases hq : q = p
  · subst hq
    exact (congrArg Part.slices (State.part_setPart_self s q _)).trans (h _)
  · exact congrArg Part.slices (State.part_setPart_ne s _ hq)

theorem slicesOf_mapCtxs (s : State) (g : Nat → Ctx → Ctx) : slicesOf (s.mapCtxs g) = slicesOf s := by
  rw [(State.mapCtxs_spec s g).1]
  rfl

theorem slicesOf_tdiEnterError (s : State) (p : Nat) : slicesOf (s.tdiEnterError p) = slicesOf s :=
  (slicesOf_mapCtxs _ _).trans (slicesOf_updPart s p fun _ => rfl)

theorem slicesOf_guardHit (s : State) (p : Nat) : slicesOf (s.guardHit p) = slicesOf s := by
  unfold State.guardHit
  split
  · rfl
  · exact slicesOf_tdiEnterError s p

theorem slicesOf_snoopFirst (s : State) (pa : Nat) : slicesOf (s.snoopFirst pa).1 = slicesOf s := by
  unfold State.snoopFirst
  dsimp only
  split <;> rfl

theorem slicesOf_irqRaised (q : Posted) (s : State) : slicesOf (irqRaised q s) = slicesOf s := by
  unfold irqRaised
  split <;> rfl

theorem slicesOf_postedWrite (s : State) (q : Posted) : slicesOf (s.postedWrite q).1 = slicesOf s := by
  unfold State.postedWrite
  dsimp only
  split
  · exact (slicesOf_irqRaised q _).trans (slicesOf_guardHit s _)
  · split
    · exact slicesOf_irqRaised q s
    · split
      · rfl
      · have h := slicesOf_snoopFirst s q.pa
        split
        · next e => rw [e] at h; exact h
        · next e =>
          rw [e] at h
          exact (slicesOf_irqRaised q _).trans ((slicesOf_memStep (writePa_step _ _ _ _)).trans h)

theorem slicesOf_postWrite (s : State) (q : Posted) : slicesOf (s.postWrite q) = slicesOf s := by
  have h := slicesOf_postedWrite s q
  unfold State.postWrite
  dsimp only
  split
  · rfl
  · split
    · next e => rw [e] at h; exact h
    · next e => rw [e] at h; exact h

theorem slicesOf_count (s : State) (p n : Nat) : slicesOf (s.count p n) = slicesOf s := slicesOf_postWrite s _

theorem slicesOf_kill (s : State) (c code adr : Nat) (op : Option FaultInfo) : slicesOf (s.kill c code adr op) = slicesOf s := by
  unfold State.kill
  dsimp only
  split <;> rfl

theorem slicesOf_killAll (s : State) (l : List Nat) (adr : Nat) (r : Reader) : slicesOf (s.killAll l adr r) = slicesOf s :=
  slicesOf_foldl (fun s c => slicesOf_kill s c _ _ _) l s

theorem dropWay_step (s : State) (p sl j v : Nat) : MemStep s (s.dropWay p sl j v) := by
  unfold State.dropWay
  dsimp only
  split
  · split
    · exact (addOcc_step _ _ _ _).trans (setL2_step _ _ _)
    · exact setL2_step _ _ _
  · exact setL2_step _ _ _

theorem slicesOf_quarantine (s : State) (p sl j v : Nat) : slicesOf (s.quarantine p sl j v) = slicesOf s :=
  (slicesOf_count _ _ _).trans (slicesOf_memStep ((dropWay_step s p sl j v).trans (setL2_step _ _ _)))

theorem slicesOf_retirePage (s : State) (pa : Nat) : slicesOf (s.retirePage pa) = slicesOf s := by
  unfold State.retirePage
  split
  · rfl
  · exact slicesOf_count _ _ _

/-- An uncorrectable error in the data of a frame: the line is dropped, or its frame quarantined, its page retired and the contexts of
its owner terminated (Table 25.5). -/
theorem slicesOf_uncorrectable_frame (s : State) {u : UnitD} (r : Reader) (hu : u.struct = 0) :
    slicesOf (s.uncorrectable u r).s = slicesOf s := by
  unfold State.uncorrectable
  simp only [hu]
  split
  · rfl
  · split
    · rfl
    · split
      · exact slicesOf_memStep (dropWay_step _ _ _ _ _)
      · rw [slicesOf_killAll]
        split
        · exact slicesOf_quarantine _ _ _ _ _
        · rw [slicesOf_retirePage, slicesOf_quarantine]

theorem slicesOf_startTest (s : State) (d : Word) (c : Option Nat) (w0 n : Nat) (l : List Nat) :
    slicesOf (s.startTest d c w0 n l) = slicesOf s := rfl

theorem slicesOf_strike_frame (s : State) {d : Word} (unc inj lasting : Bool) (r : Reader) (hu : (unitD d.toNat).struct = 0) :
    slicesOf (s.strike d unc inj lasting r) = slicesOf s := by
  unfold State.strike
  dsimp only
  split
  · rw [slicesOf_startTest]
    split
    · exact slicesOf_uncorrectable_frame s r hu
    · exact (slicesOf_count _ _ _).trans (slicesOf_uncorrectable_frame s r hu)
  · rw [slicesOf_startTest]
    split
    · rfl
    · exact slicesOf_count s _ _

theorem slicesOf_strikeFrames (s : State) (p : Nat) (sel : Nat → Way → Bool) : slicesOf (s.strikeFrames p sel) = slicesOf s := by
  unfold State.strikeFrames State.strikeArmed
  split
  · split
    · next hhit => exact slicesOf_strike_frame _ _ _ _ _ (of_decide_eq_true (Bool.and_eq_true_iff.mp hhit).1)
    · rfl
  · rfl

/-- A slice written back and emptied, once an armed error has struck its frames. -/
theorem flushSlice_step (s : State) (p sl : Nat) : MemStep (s.strikeFrames p fun x _ => x = sl) (s.flushSlice p sl) := by
  unfold State.flushSlice
  refine .foldl (fun s j => .trans (.foldl (fun s w => ?_) _ s) (setL2_step _ _ _)) _ _
  dsimp only
  split
  · split
    · exact (writeBack_step _ _ _).trans (addOcc_step _ _ _ _)
    · exact writeBack_step _ _ _
  · exact writeBack_step _ _ _

theorem slicesOf_flushSlice (s : State) (p sl : Nat) : slicesOf (s.flushSlice p sl) = slicesOf s :=
  (slicesOf_memStep (flushSlice_step s p sl)).trans (slicesOf_strikeFrames _ _ _)

end Sys2Proof.Proofs
end

section
/-! PROOFS. Advances of a generation, injected errors, self-tests and stops (O48). -/

namespace Sys2Proof.Proofs

open Sys2Proof Sys2Proof.Machine Sys2Proof.Safety

/-! The advance of an L2 generation (R131, R138, R376). -/

/-- A table of which only some keys are kept. -/
theorem tget_filter {α : Type} (d : α) (keep : Nat → Bool) (n : Nat) : ∀ t : Tbl α,
    tget d (t.filter fun e => keep e.1) n = if keep n = true then tget d t n else d := by
  intro t
  induction t with
  | nil => exact (ite_self d).symm
  | cons e t ih =>
    obtain ⟨m, x⟩ := e
    by_cases hm : m = n
    · subst hm
      cases hk : keep m <;> simp [tget, hk, ih]
    · cases hk : keep m <;> simp [tget, hk, hm, ih]

section Advance
variable (s : State) (p g : Nat)

theorem advanceL2_part_self : (s.advanceL2 p g).part p = { s.part p with l2gen := g } := State.part_setPart_self s p _

theorem advanceL2_part_ne {q : Nat} (h : q ≠ p) : (s.advanceL2 p g).part q = s.part q := State.part_setPart_ne s _ h

theorem advanceL2_occ (sl : Nat) {o : Nat} (ho : o < 256) : tget 0 (s.advanceL2 p g).occ (256 * sl + o) =
    if sl ∈ (s.part p).slices then 0 else tget 0 s.occ (256 * sl + o) := by
  have hsl : (256 * sl + o) / 256 = sl := by omega
  refine (tget_filter 0 (fun n => !(s.part p).slices.contains (n / 256)) _ s.occ).trans ?_
  simp [hsl]

theorem mem_advanceL2_cBits (pg : Nat) :
    pg ∈ (s.advanceL2 p g).pkg.cBits ↔ pg ∈ s.pkg.cBits ∧ paPart (pg * 65536) ≠ p := by
  simp [State.advanceL2]

end Advance

/-! The operations, each on the opened state. -/

section Forms
variable {s : State} {k : Cur} {f : Form} {w : CW}

theorem exec_genadv_advances (h : Performs s k (.genadv w) f) (hg : (s.part ((opOf k (.genadv w) f).src 0)).l2gen + 1 < 2 ^ 16) :
    exec (.genadv w) s = .next ((opened s k f).advanceL2 ((opOf k (.genadv w) f).src 0)
      ((s.part ((opOf k (.genadv w) f).src 0)).l2gen + 1)) :=
  (State.runOp_performs h _ _).trans (congrArg _ (if_pos hg))

theorem exec_genadv_zeroes (h : Performs s k (.genadv w) f) (hg : 2 ^ 16 ≤ (s.part ((opOf k (.genadv w) f).src 0)).l2gen + 1) :
    exec (.genadv w) s = .next ({ opened s k f with
        zeroing := s.zeroing ++ [genL2 ((opOf k (.genadv w) f).src 0)], fresh := s.fresh + 1 }.setCtx k.ctx
      { latched s k f with block := .genadv ((opOf k (.genadv w) f).src 0) }) := by
  refine (State.runOp_performs h _ _).trans (congrArg _ ((if_neg (Nat.not_lt.mpr hg)).trans ?_))
  rw [State.updCtx_eq, ← opened_ctx_self s k f]
  rfl

/-- A change of the bundle's context, whatever else is changed beside contexts and the bundle. -/
theorem also_setCtx {t : State} {g : Ctx → Ctx} {x : Ctx} (hx : x = g (latched s k f)) (hctx : t.ctxs = (opened s k f).ctxs)
    (hcur : t.cur = some (acted k)) : Also s (t.setCtx k.ctx x) k f g := by
  refine ⟨hcur, (State.ctx_setCtx_self _ _ _).trans hx, fun d hd => ?_⟩
  rw [State.ctx_setCtx_ne _ _ hd]
  exact (congrArg (fun l => tget ({} : Ctx) l d) hctx).trans (opened_ctx_ne s k f hd)

/-! Self-tests (R382). -/

/-- The code of an error record and the partition of its unit (Table 25.7). -/
theorem errorWord_fields {code v : Nat} (hc : code < 2 ^ 16) (hv : v < 64) (p : Nat) :
    let x := (BitVec.ofNat 64 (errorWord code v false false 0 p)).toNat
    bits x 63 48 = code ∧ bits x 15 12 = p % 16 := by
  simp only [errorWord, bits, b2n, Bool.false_eq_true, if_false, BitVec.toNat_ofNat]
  omega

theorem strikeTest_calm {s : State} (h : s.pkg.armed = none) (d : Word) : s.strikeTest d = s := by
  unfold State.strikeTest
  exact strikeArmed_calm h _ _

theorem testLimit_pos (u : UnitD) : 0 < testLimit u := by
  unfold testLimit
  split <;> decide

/-- The test that SELFTST of descriptor `d` starts. -/
def startedTest (s : State) (c : Nat) (d : Word) : SelfTest :=
  { desc := d, ctx := some c, retired := 0, killed := []
    ends := s.testNow (unitD d.toNat) + 1 + Config.delay (s.fresh + 1) % testLimit (unitD d.toNat)
    w0 := BitVec.ofNat 64 (errorWord 6 (if Config.lasting s.fresh then 2 else 1) false false 0 (s.unitPart (unitD d.toNat))) }

theorem startedTest_ends (s : State) (c : Nat) (d : Word) : s.testNow (unitD d.toNat) < (startedTest s c d).ends ∧
    (startedTest s c d).ends ≤ s.testNow (unitD d.toNat) + testLimit (unitD d.toNat) := by
  have := Nat.mod_lt (Config.delay (s.fresh + 1)) (testLimit_pos (unitD d.toNat))
  simp only [startedTest]
  omega

/-- Its record says that a self-test was asked for, and whose unit it was. -/
theorem startedTest_w0 (s : State) (c : Nat) (d : Word) : bits (startedTest s c d).w0.toNat 63 48 = 6 ∧
    bits (startedTest s c d).w0.toNat 15 12 = s.unitPart (unitD d.toNat) % 16 :=
  errorWord_fields (by decide) (by split <;> decide) _

theorem exec_selftst (h : Performs s k (.selftst w) f) (ha : s.pkg.armed = none) :
    let d := BitVec.ofNat 64 ((opOf k (.selftst w) f).src 0)
    exec (.selftst w) s = .next ({ opened s k f with
      tests := s.tests ++ [startedTest s k.ctx d], fresh := s.fresh + 2 }.setCtx k.ctx { latched s k f with block := .selftst d }) := by
  intro d
  have hcalm : (opened s k f).strikeTest d = opened s k f := strikeTest_calm (s := opened s k f) ha d
  refine (State.runOp_performs h _ _).trans (congrArg _ ?_)
  dsimp only
  rw [hcalm, State.updCtx_eq, ← opened_ctx_self s k f]
  rfl

/-! Stops (R205). -/

/-- The request that stands once a stop has been asked for at `now`. -/
def stopAfter (now : Nat) (urgent : Bool) : Option StopReq → StopReq
  | some q => { q with urgent := q.urgent || urgent }
  | none => ⟨now, urgent⟩

theorem stopAfter_asked (s : State) (c : Nat) (w : CW) : StopAsked s c w (stopAfter (s.now c) (decide (w.imm24 = 1)) (s.ctx c).stop) := by
  refine ⟨fun q hq => ?_, fun hq => ?_⟩
  · simp [hq, stopAfter]
  · simp [hq, stopAfter]

theorem opened_st (s : State) (k : Cur) (f : Form) (c : Nat) : ((opened s k f).ctx c).st = (s.ctx c).st := by
  by_cases hc : c = k.ctx
  · rw [hc, opened_ctx_self]
    rfl
  · rw [opened_ctx_ne s k f hc]

/-- A context that has been asked to stop. -/
def askedToStop (now : Nat) (urgent : Bool) (x : Ctx) : Ctx := { x with stop := some (stopAfter now urgent x.stop) }

theorem exec_ctxstop_rest (h : Performs s k (.ctxstop w) f) (hr : (s.ctx ((opOf k (.ctxstop w) f).src 0)).st.atRest = true) :
    exec (.ctxstop w) s = .next (opened s k f) :=
  (State.runOp_performs h _ _).trans (congrArg _ (if_pos ((congrArg CtxState.atRest (opened_st s k f _)).trans hr)))

theorem exec_ctxstop_asks {a : Nat} (h : Performs s k (.ctxstop w) f) (ha : (opOf k (.ctxstop w) f).src 0 = a)
    (hr : (s.ctx a).st.atRest = false) : exec (.ctxstop w) s =
      .next (((opened s k f).updCtx a (askedToStop (s.now a) (decide (w.imm24 = 1)))).updCtx k.ctx
        fun x => { x with block := .ctxstop a }) := by
  subst ha
  have hgo : ¬ ((opened s k f).ctx ((opOf k (.ctxstop w) f).src 0)).st.atRest = true := by
    rw [opened_st, hr]
    exact Bool.false_ne_true
  refine (State.runOp_performs h _ _).trans (congrArg _ ((if_neg hgo).trans ?_))
  refine congrArg (fun g : Ctx → Ctx => ((opened s k f).updCtx _ g).updCtx _ _) (funext fun x => ?_)
  unfold askedToStop stopAfter
  cases x.stop <;> rfl

theorem opened_updCtx_updCtx_rest (s : State) (k : Cur) (f : Form) (a c : Nat) (g h : Ctx → Ctx) :
    let t := ((opened s k f).updCtx a g).updCtx c h
    t = { s with ctxs := t.ctxs, cur := some (acted k) } := by
  simp only [State.updCtx_eq]
  rfl

end Forms

/-! The ends of a release and of a zeroing (R130, R204). -/

theorem exec_sliceReleaseWritebackEnd {s : State} {c p first count n : Nat} (hb : (s.ctx c).block = .partslc p first count n)
    (hn : n ≤ s.cycle) : ∃ u, slicesOf u = slicesOf s ∧ exec (.sliceReleaseWritebackEnd c) s =
      .next ((u.updPart p fun q => { q with slices := q.slices.filter fun x => !(rangeList first count).contains x }).updCtx c
        fun x => { x with block := .none }) := by
  refine ⟨_, slicesOf_foldl (fun s sl => slicesOf_flushSlice s p sl) (rangeList first count) s, ?_⟩
  show execSliceReleaseWritebackEnd c s = _
  unfold execSliceReleaseWritebackEnd
  rw [hb]
  exact congrArg _ (if_neg (Nat.not_lt.mpr hn))

theorem exec_generationZeroingEnd {s : State} {g : Nat} (h : s.zeroing.contains g = true) (hg : g < genL2 0) :
    exec (.generationZeroingEnd g) s = .next { s with zeroing := s.zeroing.filter (· ≠ g), gens := tset 0 s.gens g 0 } := by
  show execGenerationZeroingEnd g s = _
  unfold execGenerationZeroingEnd
  rw [h, if_neg (by decide), if_neg (Nat.not_le.mpr hg)]

/-- The slices of a list with no line left in any set. -/
def emptied (s : State) (l : List Nat) : State :=
  l.foldl (fun s sl => (upto 64).foldl (fun s j => s.setL2 (64 * sl + j) { s.l2set (64 * sl + j) with ways := [] }) s) s

theorem emptied_step (s : State) (l : List Nat) : MemStep s (emptied s l) :=
  .foldl (fun s sl => .foldl (fun s j => setL2_step s (64 * sl + j) _) _ s) _ _

theorem emptied_zeroing (s : State) (l : List Nat) : (emptied s l).zeroing = s.zeroing := by
  rw [(emptied_step s l).rest]

theorem emptied_gens (s : State) (l : List Nat) : (emptied s l).gens = s.gens := by
  rw [(emptied_step s l).rest]

theorem exec_generationZeroingEnd_l2 {s : State} {p : Nat} (h : s.zeroing.contains (genL2 p) = true) :
    let u := { s with zeroing := s.zeroing.filter (· ≠ genL2 p), gens := tset 0 s.gens (genL2 p) 0 }
    exec (.generationZeroingEnd (genL2 p)) s = .next (((emptied u (s.part p).slices).advanceL2 p 0).mapCtxs fun _ x =>
      if x.block = .genadv p then { x with block := .none } else x) := by
  have hp : genL2 p - genL2 0 = p := by unfold genL2; omega
  have hl : genL2 0 ≤ genL2 p := by unfold genL2; omega
  show execGenerationZeroingEnd (genL2 p) s = _
  unfold execGenerationZeroingEnd
  rw [h, if_neg (by decide), if_pos hl, hp]
  rfl

/-- What an advance that changes contexts besides leaves. -/
theorem advanceL2_mapCtxs (s : State) (p g : Nat) (h : Nat → Ctx → Ctx) : let t := (s.advanceL2 p g).mapCtxs h
    (t.part p).l2gen = g ∧ t.zeroing = s.zeroing ∧ t.gens = s.gens := by
  intro t
  have hrest : t = { s.advanceL2 p g with ctxs := t.ctxs } := (State.mapCtxs_spec _ h).1
  rw [hrest]
  exact ⟨congrArg Part.l2gen (advanceL2_part_self s p g), rfl, rfl⟩

/-- Settles O48: each operation by its effect on the opened state, the end of a release by what leaves slices as they are, the end of a
zeroing by the advance that follows. -/
theorem testsStopsAndGenerations : Obligations.TestsStopsAndGenerations := by
  unfold Obligations.TestsStopsAndGenerations
  refine ⟨fun s k f w => ⟨fun h hg => ?advance, fun h hg => ?zeroes, fun h => ?errinj, fun h ha => ?selftst, fun h hr => ?atRest,
    fun h hr hne => ?other, fun h hr heq => ?self⟩, fun s c => ⟨fun p first count n hb hn => ?release,
    fun g => exec_generationZeroingEnd, fun p h => ?zeroed⟩⟩
  case advance =>
    obtain ⟨hcur, hown, hothers⟩ := opened_also s k f
    exact ⟨_, exec_genadv_advances h hg, ⟨hcur, hown, hothers⟩, rfl, advanceL2_part_self _ _ _,
      fun _ => advanceL2_part_ne (opened s k f) _ _, fun sl _ => advanceL2_occ (opened s k f) _ _ sl,
      mem_advanceL2_cBits (opened s k f) _ _⟩
  case zeroes => exact ⟨_, exec_genadv_zeroes h hg, also_setCtx rfl rfl rfl, rfl⟩
  case errinj =>
    obtain ⟨hcur, hown, hothers⟩ := opened_also s k f
    exact ⟨_, State.runOp_performs h _ _, ⟨hcur, hown, hothers⟩, rfl⟩
  case selftst =>
    obtain ⟨hafter, hlimit⟩ := startedTest_ends s k.ctx (BitVec.ofNat 64 ((opOf k (.selftst w) f).src 0))
    exact ⟨_, _, exec_selftst h ha, also_setCtx rfl rfl rfl, rfl, rfl, rfl, hafter, hlimit, startedTest_w0 s k.ctx _⟩
  case atRest => exact ⟨_, exec_ctxstop_rest h hr, opened_only s k f, rfl, opened_ctx_self s k f⟩
  case other =>
    refine ⟨_, _, exec_ctxstop_asks h rfl hr, opened_updCtx_updCtx_rest s k f _ _ _ _, ?_, stopAfter_asked s _ w, ?_,
      fun d hd hda => ?_⟩
    · rw [State.updCtx_eq, State.ctx_setCtx_self, State.updCtx_eq, State.ctx_setCtx_ne _ _ hne.symm, opened_ctx_self]
    · rw [State.updCtx_eq, State.ctx_setCtx_ne _ _ hne, State.updCtx_eq, State.ctx_setCtx_self, opened_ctx_ne s k f hne]
      rfl
    · rw [State.updCtx_eq, State.ctx_setCtx_ne _ _ hd, State.updCtx_eq, State.ctx_setCtx_ne _ _ hda, opened_ctx_ne s k f hd]
  case self =>
    refine ⟨_, _, exec_ctxstop_asks h heq hr, opened_updCtx_updCtx_rest s k f _ _ _ _, ?_, stopAfter_asked s _ w, fun d hd => ?_⟩
    · rw [State.updCtx_eq, State.ctx_setCtx_self, State.updCtx_eq, State.ctx_setCtx_self, opened_ctx_self]
      rfl
    · rw [State.updCtx_eq, State.ctx_setCtx_ne _ _ hd, State.updCtx_eq, State.ctx_setCtx_ne _ _ hd, opened_ctx_ne s k f hd]
  case release =>
    obtain ⟨u, hu, hend⟩ := exec_sliceReleaseWritebackEnd hb hn
    refine ⟨_, hend, congrArg Ctx.block (State.ctx_setCtx_self _ _ _), fun x hx => ?_⟩
    rw [State.updCtx_eq, State.part_setCtx, State.updPart_eq, State.part_setPart_self] at hx
    obtain ⟨hin, hout⟩ := List.mem_filter.mp hx
    have hkept : (u.part p).slices = (s.part p).slices := congrFun hu p
    exact ⟨hkept ▸ hin, by simpa using hout⟩
  case zeroed =>
    obtain ⟨hgen, hzeroing, hgens⟩ := advanceL2_mapCtxs (emptied { s with
      zeroing := s.zeroing.filter (· ≠ genL2 p), gens := tset 0 s.gens (genL2 p) 0 } (s.part p).slices) p 0 fun _ x =>
        if x.block = .genadv p then { x with block := .none } else x
    refine ⟨_, exec_generationZeroingEnd_l2 h, hgen, ?_, ?_⟩
    · rw [hzeroing, emptied_zeroing]
      simp
    · rw [hgens, emptied_gens, tget_tset_self]

end Sys2Proof.Proofs
end

section
/-! PROOFS. Markers and hints: where their statement fails (O35). -/

namespace Sys2Proof.Proofs

open Sys2Proof Sys2Proof.Machine Sys2Proof.Safety

/-- A PFH of address 0: base `s0`, no index, no token, no guard. -/
def hintWord : LW := ⟨0x7F, false, 0, 0, 0, 0x7F, false, false, false, 0, 0⟩

/-- The bundle of context 0 that holds the PFH alone, its faults looked for. -/
def hintBundle : Cur :=
  { ctx := 0, h := 0, size := 16, imm := 0, todo := [(.L, .pfh hintWord)], checked := true, jump := none, branch := false, trap := none,
    before := { st := .ready } }

/-- A state that issues it. -/
def hintIssues : State := { State.reset with ctxs := [(0, { st := .ready })], phase := .issue, cur := some hintBundle }

theorem hintIssues_performs : ∃ f, Performs hintIssues hintBundle (.pfh hintWord) f :=
  ⟨_, ⟨⟨rfl, rfl, rfl⟩, by decide⟩⟩

/-- A hint takes the serial number under which it waits at a slice port (R139, R366). -/
theorem hint_serial (s : State) (r : Run) (va : Nat) : (s.hint r va).serial = s.serial + 1 := rfl

theorem exec_pfh {s : State} {k : Cur} {f : Form} {w : LW} (h : Performs s k (.pfh w) f) :
    exec (.pfh w) s = .next ((opened s k f).hint (opOf k (.pfh w) f) (opOf k (.pfh w) f).addr) := State.runOp_performs h _ _

/-- A state that hints have changed as R248 allows has the serial counter it had. -/
theorem hintsAsk_serial {s t : State} {k : Cur} {i : Instr} {f : Form} {vas : List Nat} (h : HintsAsk s k i f vas)
    (ht : exec i s = .next t) : t.serial = s.serial := by
  obtain ⟨u, hs, hu, hrest, _⟩ := h
  obtain rfl : t = u := Host.Outcome.next.inj (ht.symm.trans hu)
  rw [hrest]

/-- Refutes O35: the clause on PFH leaves the counter of serial numbers as it was, but each hint takes a number; of the statement's
parts, those on memory and registers are not what fails. -/
theorem not_markersAndHints : ¬ Obligations.MarkersAndHints := by
  unfold Obligations.MarkersAndHints
  intro h
  obtain ⟨f, hf⟩ := hintIssues_performs
  obtain ⟨_, hpfh, _⟩ := h hintIssues hintBundle f
  have hkept : ((opened hintIssues hintBundle f).hint (opOf hintBundle (.pfh hintWord) f) (opOf hintBundle (.pfh hintWord) f).addr).serial
      = hintIssues.serial := hintsAsk_serial (hpfh hintWord hf) (exec_pfh hf)
  rw [hint_serial] at hkept
  exact absurd hkept (Nat.succ_ne_self _)

end Sys2Proof.Proofs
end

section
/-! PROOFS. A write that goes straight to memory: what it leaves of the bytes of its line and of all others (O33, O59). -/

namespace Sys2Proof.Proofs

open Sys2Proof Sys2Proof.Machine Sys2Proof.Safety

/-- The bytes of a line are kept one after the other, or none of them maps memory (R132, R133). -/
theorem memKey_line (s : State) {b : Nat} (hb : b % 128 = 0) : ∃ o : Option Nat, ∀ i, i < 128 → s.memKey (b + i) = o.map (· + i) := by
  by_cases hh : 2 ^ 51 ≤ b
  · refine ⟨some b, fun i _ => ?_⟩
    have hhost : paHost (b + i) = true := decide_eq_true (by omega)
    simp only [State.memKey, hhost, if_true, Option.map_some]
  · refine ⟨(s.chanOf b).map fun x => x.1 * chanBytes + x.2, fun i hi => ?_⟩
    have hdevice : paHost (b + i) = false := decide_eq_false (by omega)
    have hpart : paPart (b + i) = paPart b := by unfold paPart; omega
    have hoff : paOff (b + i) = paOff b + i := by unfold paOff; omega
    obtain ⟨hstripe, haddr⟩ := line_in_stripe (s.part (paPart b)).chans.length (o := paOff b) (by unfold paOff; omega) hi
    have hin : (s.part (paPart b)).chans.length * chanBytes ≤ paOff b + i ↔ (s.part (paPart b)).chans.length * chanBytes ≤ paOff b := by
      unfold chanBytes paOff
      omega
    have hkey : s.memKey (b + i) = (s.chanOf (b + i)).map fun x => x.1 * chanBytes + x.2 := by
      simp only [State.memKey, hdevice, Bool.false_eq_true, if_false]
      cases s.chanOf (b + i) <;> rfl
    rw [hkey, chanOf_eq, chanOf_eq, hpart, hoff, hstripe, haddr]
    simp only [hin]
    split
    · rfl
    · simp only [Option.map_map, Function.comp_def, Nat.add_assoc]

theorem rawByte_of_key {s : State} {a k : Nat} (h : s.memKey a = some k) : s.rawByte a = s.cell k := by
  unfold State.rawByte
  rw [h]

theorem rawByte_of_no_key {s : State} {a : Nat} (h : s.memKey a = none) : s.rawByte a = 0 := by
  unfold State.rawByte
  rw [h]

/-- Bytes whose places follow one another are written as a run of the memory list. -/
theorem setRawBytes_eq (l : List Byte) : ∀ (s : State) {pa k : Nat}, (∀ i, i < l.length → s.memKey (pa + i) = some (k + i)) →
    s.setRawBytes pa l = { s with mem := tsets 0 s.mem k l } := by
  induction l with
  | nil => exact fun _ _ _ _ => rfl
  | cons b l ih =>
    intro s pa k h
    have hk : s.memKey pa = some k := h 0 (Nat.zero_lt_succ _)
    have hb : s.setRawByte pa b = { s with mem := tset 0 s.mem k b } := by
      unfold State.setRawByte
      rw [hk]
    show (s.setRawByte pa b).setRawBytes (pa + 1) l = _
    rw [hb]
    refine ih { s with mem := tset 0 s.mem k b } fun i hi => ?_
    rw [Nat.add_assoc, Nat.add_assoc, Nat.add_comm 1 i]
    exact h (i + 1) (Nat.succ_lt_succ hi)

theorem length_rawBytes (s : State) (pa n : Nat) : (s.rawBytes pa n).length = n := by
  simp [State.rawBytes, upto]

theorem rawBytes_getD (s : State) (pa : Nat) {n i : Nat} (h : i < n) : (s.rawBytes pa n).getD i 0 = s.rawByte (pa + i) := by
  simp [State.rawBytes, upto, h]

theorem splice_getD_inside {l d : List Byte} {off i : Nat} (hl : off + d.length ≤ l.length) (hi : i < d.length) :
    (splice l off d).getD (off + i) 0 = d.getD i 0 := by
  have hoff : (l.take off).length = off := by rw [List.length_take]; omega
  unfold splice
  rw [List.append_assoc, List.getD_append_right _ _ _ _ (by omega), hoff, Nat.add_sub_cancel_left, List.getD_append _ _ _ _ hi]

theorem splice_getD_outside {l d : List Byte} {off j : Nat} (hl : off + d.length ≤ l.length) (hj : j < off ∨ off + d.length ≤ j) :
    (splice l off d).getD j 0 = l.getD j 0 := by
  have hoff : (l.take off).length = off := by rw [List.length_take]; omega
  unfold splice
  rcases hj with h | h
  · rw [List.append_assoc, List.getD_append _ _ _ _ (by omega)]
    simp [List.getD_eq_getElem?_getD, h]
  · rw [List.getD_append_right _ _ _ _ (by rw [List.length_append]; omega), List.length_append, hoff]
    simp only [List.getD_eq_getElem?_getD, List.getElem?_drop]
    rw [Nat.add_sub_cancel' h]

theorem length_splice {l d : List Byte} {off : Nat} (hl : off + d.length ≤ l.length) : (splice l off d).length = l.length := by
  unfold splice
  simp only [List.length_append, List.length_take, List.length_drop]
  omega

theorem burstWrite_mem (s : State) (line : Nat) (e : Bool) (d : List Byte) : (s.burstWrite line e d).mem = s.mem := by
  unfold State.burstWrite State.burst
  split
  · rfl
  · split
    · split <;> rfl
    · rfl

theorem unpoison_mem (s : State) (line : Nat) (d : List Byte) : (s.unpoison line d).mem = s.mem := by
  unfold State.unpoison
  split
  · split <;> rfl
  · rfl

theorem memStep_memKey {s t : State} (h : MemStep s t) (a : Nat) : t.memKey a = s.memKey a := by rw [h.rest]; rfl

/-- What a write leaves that puts `d` at `pa` in memory: those bytes, and every byte kept elsewhere as it was. -/
structure Writes (s t : State) (pa : Nat) (d : List Byte) : Prop where
  there     : ∀ i, i < d.length → t.rawByte (pa + i) = d.getD i 0
  elsewhere : ∀ a, (∀ i, i < d.length → s.memKey a ≠ s.memKey (pa + i)) → t.rawByte a = s.rawByte a

theorem writes_nil (s : State) (pa : Nat) : Writes s s pa [] := ⟨fun _ h => absurd h (Nat.not_lt_zero _), fun _ _ => rfl⟩

/-- A write within a line that goes straight to memory through a leaf without elision (R136): the line is rewritten, its other bytes
as they stood. -/
theorem memWrite_writes {s : State} {p : Port} (he : p.elide = false) {pa : Nat} {d : List Byte} (hd : pa % 128 + d.length ≤ 128)
    (hm : (s.memKey pa).isSome = true) : Writes s (s.memWrite p (pa / 128) (pa % 128) d) pa d := by
  have hpa : 128 * (pa / 128) + pa % 128 = pa := Nat.div_add_mod pa 128
  obtain ⟨o, ho⟩ := memKey_line s (b := 128 * (pa / 128)) (Nat.mul_mod_right _ _)
  obtain ⟨k, rfl⟩ : ∃ k, o = some k := by
    have h0 := ho (pa % 128) (Nat.mod_lt _ (by decide))
    rw [hpa] at h0
    cases o with
    | none => rw [h0] at hm; cases hm
    | some k => exact ⟨k, rfl⟩
  generalize hline : splice (s.portRead (pa / 128) p.elide) (pa % 128) d = l
  have hold : s.portRead (pa / 128) p.elide = s.rawBytes (128 * (pa / 128)) 128 := by rw [he]; rfl
  rw [hold] at hline
  have hfit : pa % 128 + d.length ≤ (s.rawBytes (128 * (pa / 128)) 128).length := by rwa [length_rawBytes]
  have hlen : l.length = 128 := by rw [← hline, length_splice hfit, length_rawBytes]
  have hmem : (s.memWrite p (pa / 128) (pa % 128) d).mem = tsets 0 s.mem k l := by
    unfold State.memWrite
    rw [unpoison_mem, burstWrite_mem, hold, hline, he]
    show (s.setRawBytes (128 * (pa / 128)) l).mem = _
    rw [setRawBytes_eq l s fun i hi => ho i (hlen ▸ hi)]
  have hkeys : ∀ a, (s.memWrite p (pa / 128) (pa % 128) d).memKey a = s.memKey a := memStep_memKey (memWrite_step _ _ _ _ _)
  have hbyte : ∀ {a j : Nat}, s.memKey a = some j →
      (s.memWrite p (pa / 128) (pa % 128) d).rawByte a = tget 0 (tsets 0 s.mem k l) j := by
    intro a j h
    rw [rawByte_of_key ((hkeys a).trans h), State.cell, hmem]
  constructor
  case there =>
    intro i hi
    have hkey : s.memKey (pa + i) = some (k + (pa % 128 + i)) := by
      have := ho (pa % 128 + i) (by omega)
      rwa [← Nat.add_assoc, hpa] at this
    calc (s.memWrite p (pa / 128) (pa % 128) d).rawByte (pa + i)
        = tget 0 (tsets 0 s.mem k l) (k + (pa % 128 + i)) := hbyte hkey
      _ = l.getD (pa % 128 + i) 0 := tget_tsets_inside 0 l s.mem k (by omega)
      _ = d.getD i 0 := hline ▸ splice_getD_inside hfit hi
  case elsewhere =>
    intro a ha
    cases hk : s.memKey a with
    | none => rw [rawByte_of_no_key hk, rawByte_of_no_key ((hkeys a).trans hk)]
    | some j =>
      rw [hbyte hk, rawByte_of_key hk]
      by_cases hin : j < k ∨ k + l.length ≤ j
      · exact tget_tsets_outside 0 l s.mem hin
      · obtain ⟨m, rfl⟩ := Nat.exists_eq_add_of_le (Nat.not_lt.mp (not_or.mp hin).1)
        have hm : m < 128 := by omega
        have hkm : s.memKey (128 * (pa / 128) + m) = some (k + m) := ho m hm
        have hout : m < pa % 128 ∨ pa % 128 + d.length ≤ m := by
          by_contra hc
          have hplace : pa + (m - pa % 128) = 128 * (pa / 128) + m := by omega
          exact ha (m - pa % 128) (by omega) (by rw [hk, hplace, hkm])
        calc tget 0 (tsets 0 s.mem k l) (k + m)
            = l.getD m 0 := tget_tsets_inside 0 l s.mem k (by omega)
          _ = (s.rawBytes (128 * (pa / 128)) 128).getD m 0 := by rw [← hline, splice_getD_outside hfit hout]
          _ = s.rawByte (128 * (pa / 128) + m) := rawBytes_getD s _ hm
          _ = s.cell (k + m) := rawByte_of_key hkm

/-- A partition that holds no slice has no home slice for a line that no leaf pins. -/
theorem home_none {s : State} {p : Port} (hs : (s.part p.part).slices = []) (hp : p.pin = none) (line : Nat) : s.home p line = none := by
  unfold State.home
  rw [hp]
  simp only [hs, List.getElem?_nil]

/-- A write within a line is one access. -/
theorem writePa_line (s : State) (p : Port) {pa : Nat} {d : List Byte} (hd : pa % 128 + d.length ≤ 128) (hn : d ≠ []) :
    s.writePa p pa d = s.l2Write p (pa / 128) (pa % 128) d := by
  have hpos := List.length_pos_iff.mpr hn
  have hlast : (pa + d.length - 1) / 128 = pa / 128 := by omega
  have hemp : d.isEmpty = false := by simpa using hn
  unfold State.writePa
  simp only [hlast, hemp, Bool.false_eq_true, if_false, Nat.add_sub_cancel_left, upto, List.range_one, List.foldl_cons, List.foldl_nil,
    if_true, Nat.add_zero, List.drop_zero]
  rw [List.take_of_length_le (by omega)]

/-- A write within a line of a partition without slices stands in memory. -/
theorem writePa_writes {s : State} {p : Port} (hs : (s.part p.part).slices = []) (hp : p.pin = none) (he : p.elide = false) {pa : Nat}
    {d : List Byte} (hd : pa % 128 + d.length ≤ 128) (hm : (s.memKey pa).isSome = true) : Writes s (s.writePa p pa d) pa d := by
  by_cases hn : d = []
  · rw [hn]
    exact writes_nil s pa
  · rw [writePa_line s p hd hn]
    unfold State.l2Write
    rw [home_none hs hp]
    exact memWrite_writes he hd hm

end Sys2Proof.Proofs
end

section
/-! PROOFS. An access that goes straight to memory: its translation and its read (O33). -/

namespace Sys2Proof.Proofs

open Sys2Proof Sys2Proof.Machine Sys2Proof.Safety

/-- An access goes straight in every state that translates and holds memory as `s` does. -/
theorem Straight.of_same {s t : State} {c : Nat} {want : Want} {lv : Level} {va n pa : Nat} (h : Straight s c want lv va n pa)
    (hquads : t.quads = s.quads) (hparts : t.parts = s.parts) (hpkg : t.pkg = s.pkg) (htests : t.tests = s.tests)
    (hpart : (t.ctx c).part = (s.ctx c).part) (htenant : (t.ctx c).tenant = (s.ctx c).tenant) : Straight t c want lv va n pa := by
  obtain ⟨hlow, halign, hleaf, hslices, hcalm⟩ := h
  have htlb : ∀ u, t.tlb1 u = s.tlb1 u := fun u => by simp only [State.tlb1, State.quad, hquads]
  have herr : ∀ x a, t.leafErr lv want false x a = s.leafErr lv want false x a := fun x a => by
    simp only [State.leafErr, State.pageErr, hpkg]
  have hsame : ∀ p, t.part p = s.part p := fun p => by simp only [State.part, hparts]
  refine ⟨hlow, halign, ?_, ?_, ?_⟩
  · simpa only [htlb, herr, hpart, htenant] using hleaf
  · rw [hpart, hsame]
    exact hslices
  · rw [hpkg, htests]
    exact hcalm

section Access
variable {s : State} {c : Nat} {want : Want} {lv : Level} {va n pa : Nat} (h : Straight s c want lv va n pa) {w : Who}
  (hwt : w.tlb = tlbOf c) (hwp : w.part = (s.ctx c).part) (hwn : w.tenant = (s.ctx c).tenant) (hwl : w.level = lv) (hwf : w.far = false)
include h hwt hwp hwn hwl hwf

/-- The first-level TLB answers, with a place of this package that no leaf pins or elides. -/
theorem access_straight : s.access w.tlb w.part w.tenant w.level want (s.mayRemote w) va n = (s, .ok ⟨pa, none, false, none⟩) := by
  obtain ⟨hlow, halign, ⟨t, ht, hpa, herr, hpin, helide⟩, _, _⟩ := h
  have hremote : t.remote = none := by
    cases hr : t.remote with
    | none => rfl
    | some k => simp [State.leafErr, hr] at herr
  have hfar : s.mayRemote w = false := by simp [State.mayRemote, hwf]
  have htrans : s.translate w.tlb w.part w.tenant va = (s, .ok t) := by
    unfold State.translate
    rw [hwt, hwp, hwn, ht]
  unfold State.access
  rw [if_neg (Nat.not_le.mpr hlow), halign.1, htrans, hfar, hwl]
  simp only [decide_true, Bool.not_true, Bool.false_eq_true, if_false, ← hpa, herr, hpin, helide, hremote]

/-- Nothing strikes, is poisoned or is out of service on the way. -/
theorem reach_straight : s.reach w want va n = (s, .ok ⟨pa, none, false, none⟩) := by
  have haccess := access_straight h hwt hwp hwn hwl hwf
  obtain ⟨_, _, _, _, harmed, htests, hpoison, _⟩ := h
  have hstruck : s.struckMem s = false := by
    unfold State.struckMem
    rw [harmed]
  have hwalk : s.walkPoison w.tlb w.part w.tenant va = none := by
    unfold State.walkPoison
    rw [hpoison]
    rfl
  have hout : ∀ p a m, s.outOfService p a m = false := fun p a m => by
    unfold State.outOfService
    rw [htests]
    rfl
  unfold State.reach
  simp only [strikeTlb_calm harmed, strikeWalk_calm harmed, hstruck, hwalk, haccess, hout, harmed, Bool.false_eq_true,
    Option.isNone_none, Bool.and_false, if_false, Bool.true_or, if_true]

end Access

/-- No switch holds a word of this package (R160). -/
theorem marked_calm {s : State} (h : s.pkg.marks = []) (pa n : Nat) : s.marked pa n = false := by
  unfold State.marked
  refine List.any_eq_false.mpr fun i _ => ?_
  rw [h]
  split <;> exact Bool.false_ne_true

/-- A read within a line that goes straight to memory: its bytes as they stand, and a burst asked of its channel. -/
theorem readPa_straight {s : State} {p : Port} (hs : (s.part p.part).slices = []) (hp : p.pin = none) (he : p.elide = false) {pa n : Nat}
    (hn : 0 < n) (hd : pa % 128 + n ≤ 128) :
    s.readPa p pa n = (s.burst (pa / 128), (List.range n).map fun i => s.rawByte (pa + i)) := by
  have hlast : (pa + n - 1) / 128 = pa / 128 := by omega
  have hread : s.l2Read p (pa / 128) = (s.burst (pa / 128), s.rawBytes (128 * (pa / 128)) 128, true) := by
    unfold State.l2Read
    rw [home_none hs hp, he]
    rfl
  have hbytes : ((s.rawBytes (128 * (pa / 128)) 128).drop (pa % 128)).take n = (List.range n).map fun i => s.rawByte (pa + i) := by
    apply List.ext_getElem
    · simp only [List.length_take, List.length_drop, length_rawBytes, List.length_map, List.length_range]
      omega
    · intro i hi _
      have hplace : 128 * (pa / 128) + (pa % 128 + i) = pa + i := by omega
      simp [State.rawBytes, upto, hplace]
  unfold State.readPa
  simp only [hlast, if_neg (Nat.pos_iff_ne_zero.mp hn), Nat.add_sub_cancel_left, upto, List.range_one, List.foldl_cons, List.foldl_nil,
    if_true, Nat.add_zero, hread, List.nil_append, List.length_nil, Nat.sub_zero, hbytes]

/-- One who sees only what is performed at `pkg` sees no store on its way (R150). -/
theorem onWay_far (s : State) (pl : Place) : s.onWay eyeFar pl = [] := by
  have hsees : ∀ c e, eyeFar.sees c e = none := fun c e => by simp [Eye.sees, eyeFar]
  simp [State.onWay, hsees]

theorem overlay_far (s : State) (pl : Place) (d : List Byte) : s.overlay eyeFar pl d = (d, []) := by
  have hd : (List.range d.length).map (fun i => d.getD i 0) = d := by
    apply List.ext_getElem
    · simp
    · intro i _ hi
      simp [hi]
  simp only [State.overlay, onWay_far, sortBy, List.foldl_nil, List.map_nil, List.map_map, Function.comp_def, upto, hd]
  simp

theorem burst_demand (s : State) (line : Nat) : s.burst line = { s with demand := (s.burst line).demand } := by
  unfold State.burst
  split
  · split <;> rfl
  · rfl

/-- A read that goes straight to memory, of one who sees only what is performed at `pkg`: the bytes at the place, no store on its way
among them; nothing but demand is counted. -/
theorem readVa_straight {s : State} {c : Nat} {lv : Level} {va n pa : Nat} (h : Straight s c .read lv va n pa) {w : Who}
    (hwt : w.tlb = tlbOf c) (hwp : w.part = (s.ctx c).part) (hwn : w.tenant = (s.ctx c).tenant) (hwl : w.level = lv) (hwf : w.far = false)
    (hwe : w.eye = eyeFar) (hwc : w.call = 0) (hn : 0 < n) (hd : pa % 128 + n ≤ 128) :
    ∃ l, s.readVa w va n = ({ s with demand := l }, .ok ((List.range n).map fun i => s.rawByte (pa + i), [])) := by
  have hreach := reach_straight h hwt hwp hwn hwl hwf
  obtain ⟨_, _, _, hslices, _, _, hpoison, hmarks⟩ := h
  have hhome : ∀ {p : Port}, p.part = w.part → p.pin = none → ∀ line, s.home p line = none := fun hp hpin =>
    home_none (by rw [hp, hwp]; exact hslices) hpin
  unfold State.readVa State.readVaS
  rw [hreach]
  dsimp only
  rw [marked_calm hmarks]
  generalize hp : s.portFor w.owner w.part w.tenant va ⟨pa, none, false, none⟩ = p
  have hport : p.part = w.part ∧ p.pin = none ∧ p.elide = false := by rw [← hp]; exact ⟨rfl, rfl, rfl⟩
  obtain ⟨hpart, hpin, helide⟩ := hport
  have hclean : s.linePoison p pa = false := by
    unfold State.linePoison
    dsimp only
    rw [hhome hpart hpin, hpoison]
    dsimp only
    split <;> rfl
  have hpay : s.pay w p pa n false = (s, true) := by
    unfold State.pay
    rw [hhome hpart hpin]
  have hread := readPa_straight (s := s.cross w n) (p := { p with pin := none })
    (by rw [show (s.cross w n).part = s.part from rfl, hpart, hwp]; exact hslices)
    rfl helide hn hd
  simp only [hclean, hpay, hwc, hwe, Bool.false_eq_true, if_false, if_true, State.readPlace, hread, overlay_far]
  rw [burst_demand]
  exact ⟨_, rfl⟩

end Sys2Proof.Proofs
end

section
/-! PROOFS. LDSC: it enters the load queue and reads in the cycle of its position (O33). -/

namespace Sys2Proof.Proofs

open Sys2Proof Sys2Proof.Machine Sys2Proof.Safety

/-- Of two writes of a context the later stands. -/
theorem setCtx_setCtx (s : State) (c : Nat) (x y : Ctx) : (s.setCtx c x).setCtx c y = s.setCtx c y := by
  simp only [State.setCtx, tset_tset]

theorem updCtx_setCtx (s : State) (c : Nat) (x : Ctx) (g : Ctx → Ctx) : (s.setCtx c x).updCtx c g = s.setCtx c (g x) := by
  rw [State.updCtx_eq, State.ctx_setCtx_self, setCtx_setCtx]

section Enters
variable (s : State) (k : Cur) (f : Form)

/-- The entry that a sequentially consistent access brings into its queue (R153, R245). -/
def scEntry (i : Instr) (due : Nat) : QEntry := (opOf k i f).entry (opened s k f) s.serial 0 due 0 [(opOf k i f).addr]

theorem scEntry_entryOf (i : Instr) (due : Nat) : EntryOf (scEntry s k f i due) s k i f 0 [(opOf k i f).addr] :=
  ⟨rfl, rfl, rfl, rfl, rfl, rfl, rfl, rfl, ⟨rfl, rfl⟩, rfl, ⟨rfl, rfl⟩⟩

/-- The state in which such an operation has been taken off its bundle, with the numbers its entry takes. -/
def numbered : State := { s with cur := some (acted k), serial := s.serial + 1, fresh := s.fresh + 1 }

/-- The context once an LDSC stands in its queue, its result in flight without a value. -/
def ldscCtx (w : LW) : Ctx :=
  { latched s k f with
    loadQ := (s.ctx k.ctx).loadQ ++ [scEntry s k f (.ldsc w) f.lat],
    inflight := (s.ctx k.ctx).inflight ++ newLanding s k f .s f.lat none s.serial }

theorem pushLoad_ldsc (w : LW) : (opened s k f).pushLoad (opOf k (.ldsc w) f) .s 0 [(opOf k (.ldsc w) f).addr] 0 =
    (numbered s k).setCtx k.ctx (ldscCtx s k f w) := by
  have hqueue : ((numbered s k).setCtx k.ctx (latched s k f)).updCtx k.ctx
      (fun x => { x with loadQ := x.loadQ ++ [scEntry s k f (.ldsc w) f.lat] }) =
      (numbered s k).setCtx k.ctx { latched s k f with loadQ := (s.ctx k.ctx).loadQ ++ [scEntry s k f (.ldsc w) f.lat] } :=
    updCtx_setCtx _ _ _ _
  have hpush : (opened s k f).pushLoad (opOf k (.ldsc w) f) .s 0 [(opOf k (.ldsc w) f).addr] 0 =
      if (decide (Cls.s = Cls.s) && decide (f.dst = 0)) = true then
        (numbered s k).setCtx k.ctx { latched s k f with loadQ := (s.ctx k.ctx).loadQ ++ [scEntry s k f (.ldsc w) f.lat] }
      else ((numbered s k).setCtx k.ctx { latched s k f with loadQ := (s.ctx k.ctx).loadQ ++ [scEntry s k f (.ldsc w) f.lat] }).land
        k.ctx f.slot .s f.dst f.lat none s.serial := by
    rw [← hqueue]
    rfl
  rw [hpush]
  unfold ldscCtx newLanding
  by_cases hz : f.dst = 0
  · simp [hz, latched]
  · rw [if_neg (by simp [hz]), State.land_eq, if_neg (fun e => hz e.2.1), if_neg (fun e => hz e.2), State.ctx_setCtx_self, setCtx_setCtx]
    rfl

variable {s k f}

theorem numbered_onlyQueue (x : Ctx) : OnlyQueue s ((numbered s k).setCtx k.ctx x) k.ctx :=
  ⟨rfl, fun _ hd => State.ctx_setCtx_ne _ _ hd⟩

theorem ldsc_queuedLoad (w : LW) : QueuedLoad s k f .s f.lat (fun x => x) ((numbered s k).setCtx k.ctx (ldscCtx s k f w))
    (scEntry s k f (.ldsc w) f.lat) :=
  ⟨numbered_onlyQueue _, rfl, State.ctx_setCtx_self _ _ _⟩

theorem exec_ldsc {w : LW} (h : Performs s k (.ldsc w) f) :
    exec (.ldsc w) s = .next (((numbered s k).setCtx k.ctx (ldscCtx s k f w)).loadStep k.ctx) := by
  rw [← pushLoad_ldsc]
  exact State.runOp_performs h _ _

end Enters

/-! The step that an LDSC takes alone in its queue. -/

section Step
variable {s : State} {c : Nat} {e : QEntry} {w : LW}

/-- Nothing keeps it waiting in the cycle of its position: it reads its unit and then leaves. -/
theorem loadStep_ldsc (hq : (s.ctx c).loadQ = [e]) (hw : (s.ctx c).storeQ = []) (hc : s.calls = []) (hop : e.op = .ldsc w)
    (hwait : e.wait = 0) (htok : e.tok = none) (hmat : e.mat = none) (hgot : e.got = [])
    (hpos : (s.core (coreOf c)).position w.index.toNat = some (s.cycle % 512)) :
    s.loadStep c = { s with fresh := s.fresh + 1 }.readUnits c 2 := by
  have hcalls : s.callReads c e.id = false := callReads_eq_false (by rw [hc]; simp)
  obtain ⟨hbusy, hfail⟩ := token_wait_fail (s := s) (c := c) (m := e) fun k hk => absurd (htok.symm.trans hk) (Option.some_ne_none k).symm
  have hnow : s.scNow c e = true := by simp [State.scNow, hop, scIndex, hpos]
  have hmark : isMark e.op = false := by rw [hop]; rfl
  have haddr : e.addrErr (accTy e.op).bytes = none := by simp [QEntry.addrErr, hop]
  have hknow : s.knowAll c e.id = (s, true) := by simp [State.knowAll, hw, State.knowList]
  have hunits : (e.unitList true).length = 1 := by simp [QEntry.unitList, hop]
  have hsc : (scIndex e.op).isSome = true := by rw [hop]; rfl
  unfold State.loadStep
  dsimp only
  rw [hq]
  simp [hmark, hwait, hcalls, hbusy, hfail, hw, scBefore, hnow, haddr, hknow, hmat, hunits, hgot, hsc]

theorem accTy_ldsc (hop : e.op = .ldsc w) : accTy e.op = tyOr w.type := by
  rw [hop]
  rfl

theorem unitList_ldsc {a : Nat} (hop : e.op = .ldsc w) (haddr : e.addrs = [a]) : e.unitList true = [(0, a, (tyOr w.type).bytes)] := by
  have hty := accTy_ldsc hop
  rw [hop] at hty
  simp [QEntry.unitList, hop, haddr, hty]

/-- The value of an LDSC: its unit, extended to 64 bits (R245). -/
theorem value_ldsc {sg : Bool} {n a v : Nat} (hop : e.op = .ldsc w) (haddr : e.addrs = [a]) (hgot : e.got = [v])
    (hty : tyOr w.type = .int sg (8 * n)) (old : Nat) : e.value old = wrapN (extI sg (8 * n) v) 64 := by
  have hacc := (accTy_ldsc hop).trans hty
  rw [hop] at hacc
  unfold QEntry.value
  simp only [unitList_ldsc hop haddr, hgot, hop, hacc, List.map_cons, List.map_nil, List.zip_cons_cons, List.zip_nil_right, tget, if_true]

/-- A context once the load of serial number `id`, alone in its queue, has left with value `v`. -/
def loadLeaves (x : Ctx) (id v : Nat) : Ctx := { x.deliverLoad id v with loadQ := [] }

/-- A context whose lone load has read a unit of value `v`, and no store on its way. -/
def unitRead (x : Ctx) (e : QEntry) (v : Nat) : Ctx := { x with loadQ := [{ e with got := [v] }] }

theorem unitRead_eq {x : Ctx} (hq : x.loadQ = [e]) (hgot : e.got = []) (v : Nat) :
    { x with loadQ := mapIf (fun f => decide (f.id = e.id)) (fun f => { f with got := f.got ++ [v] }) x.loadQ,
             readFrom := x.readFrom ++ ([] : List Nat).filter fun i => !x.readFrom.contains i } = unitRead x e v := by
  simp [unitRead, hq, mapIf, hgot]

/-- The unit read gives the value: it goes to the landing, and the load leaves its queue. -/
theorem readUnits_ldsc {sg : Bool} {n a : Nat} {d : List Byte} {l : Tbl Nat} (hq : (s.ctx c).loadQ = [e]) (hop : e.op = .ldsc w)
    (hgot : e.got = []) (haddr : e.addrs = [a]) (hty : tyOr w.type = .int sg (8 * n))
    (hread : s.readEntry c e (0, a, (tyOr w.type).bytes) = ({ s with demand := l }, .ok (d, []))) :
    s.readUnits c 2 = { s with demand := l }.setCtx c (loadLeaves (s.ctx c) e.id (wrapN (extI sg (8 * n) (ofBytes d)) 64)) := by
  have hfirst : s.readUnits c 2 = ({ s with demand := l }.setCtx c (unitRead (s.ctx c) e (ofBytes d))).readUnits c 1 := by
    unfold State.readUnits
    rw [hq]
    simp only [hgot, unitList_ldsc hop haddr, List.length_nil, List.getElem?_cons_zero, hread]
    exact congrArg (fun x => (State.setCtx { s with demand := l } c x).readUnits c 1) (unitRead_eq hq hgot (ofBytes d))
  have hlast : ∀ t : State, (t.ctx c).loadQ = [{ e with got := [ofBytes d] }] → t.readUnits c 1 =
      t.setCtx c (loadLeaves (t.ctx c) e.id (wrapN (extI sg (8 * n) (ofBytes d)) 64)) := by
    intro t ht
    have hseal : isSeal e.op = false := by rw [hop]; rfl
    have hdone : (({ e with got := [ofBytes d] } : QEntry).unitList true)[1]? = none := by
      rw [unitList_ldsc (e := { e with got := [ofBytes d] }) hop haddr]
      rfl
    unfold State.readUnits
    simp only [ht, List.length_singleton, hdone, hseal, Bool.false_eq_true, if_false, List.tail_cons,
      value_ldsc (e := { e with got := [ofBytes d] }) hop haddr rfl hty]
    rfl
  rw [hfirst, hlast _ (by rw [State.ctx_setCtx_self]; rfl), State.ctx_setCtx_self, setCtx_setCtx]
  rfl

/-- An SC load of memory reads as one that sees what is performed at `pkg` alone (R154). -/
theorem readEntry_ldsc {a n pa : Nat} (hop : e.op = .ldsc w) (htile : e.tile = 0)
    (h : Straight s c .read e.level a n pa) (hn : 0 < n) (hd : pa % 128 + n ≤ 128) :
    ∃ l, s.readEntry c e (0, a, n) = ({ s with demand := l }, .ok ((List.range n).map fun i => s.rawByte (pa + i), [])) := by
  obtain ⟨l, hl⟩ := readVa_straight h (w := { s.whoCtx c e.id e.level with eye := eyeFar }) rfl rfl rfl rfl rfl rfl rfl hn hd
  have hsc : (scIndex e.op).isSome = true := by rw [hop]; rfl
  refine ⟨l, ?_⟩
  rw [← hl]
  simp only [State.readEntry, htile, hsc, if_true]

end Step

/-- The value goes to the one landing of the load's serial number. -/
theorem deliverLoad_inflight {x : Ctx} {l : List Landing} {r : Landing} {v : Nat} (hx : x.inflight = l ++ [r]) (hr : r.val = none)
    (hl : ∀ m ∈ l, m.src ≠ r.src) : (x.deliverLoad r.src v).inflight = l ++ [{ r with val := some v }] := by
  have hold : l.map (fun m => if (decide (m.src = r.src) && m.val.isNone) = true then { m with val := some v } else m) = l :=
    (List.map_congr_left fun m hm => if_neg (by simp [hl m hm])).trans (List.map_id l)
  simp only [Ctx.deliverLoad, mapIf, hx, List.map_append, List.map_cons, List.map_nil, hold]
  simp [hr]

theorem loadLeaves_reg (x : Ctx) (id v : Nat) (cls : Cls) (n : Nat) : (loadLeaves x id v).reg cls n = x.reg cls n := by
  cases cls <;> rfl

/-- A unit of a power of two of bytes that is aligned lies within its line. -/
theorem unit_in_line {n pa : Nat} (hn : n = 1 ∨ n = 2 ∨ n = 4 ∨ n = 8) (ha : pa % n = 0) : 0 < n ∧ pa % 128 + n ≤ 128 := by
  rcases hn with rfl | rfl | rfl | rfl <;> omega

theorem bytes_int {t : Ty} {sg : Bool} {n : Nat} (h : t = .int sg (8 * n)) : t.bytes = n := by
  rw [h]
  show 8 * n / 8 = n
  omega

section Completes
variable {s : State} {k : Cur} {f : Form} {w : LW} {sg : Bool} {n pa : Nat}

theorem ldsc_completes (h : Performs s k (.ldsc w) f) (hdst : f.dst ≠ 0) (htok : f.kins.filterMap k.before.tokRef = [])
    (hloads : (s.ctx k.ctx).loadQ = []) (hstores : (s.ctx k.ctx).storeQ = []) (hcalls : s.calls = [])
    (hsrc : ∀ l ∈ (s.ctx k.ctx).inflight, l.src ≠ s.serial)
    (hpos : (s.core (coreOf k.ctx)).position w.index.toNat = some (s.cycle % 512)) (hty : tyOr w.type = .int sg (8 * n))
    (hn : n = 1 ∨ n = 2 ∨ n = 4 ∨ n = 8) (hs : Straight s k.ctx .read k.before.level (opOf k (.ldsc w) f).addr n pa) :
    ∃ t, exec (.ldsc w) s = .next t ∧ (t.ctx k.ctx).loadQ = [] ∧
      (t.ctx k.ctx).inflight = (s.ctx k.ctx).inflight ++ [⟨.s, f.dst, s.now k.ctx + f.lat,
        some (wrapN (extI sg (8 * n) (ofBytes ((List.range n).map fun i => s.rawByte (pa + i)))) 64), s.serial, f.slot⟩] ∧
      (∀ cls m, (t.ctx k.ctx).reg cls m = (s.ctx k.ctx).reg cls m) ∧ (∀ a, t.rawByte a = s.rawByte a) ∧
      ∀ d, d ≠ k.ctx → t.ctx d = s.ctx d := by
  obtain ⟨hpos', hline⟩ := unit_in_line hn hs.aligned.2
  generalize he : scEntry s k f (.ldsc w) f.lat = e
  have hentry : e.op = .ldsc w ∧ e.wait = 0 ∧ e.got = [] ∧ e.mat = none ∧ e.tile = 0 ∧ e.addrs = [(opOf k (.ldsc w) f).addr] ∧
      e.level = k.before.level ∧ e.id = s.serial ∧ e.tok = none := by
    rw [← he]
    exact ⟨rfl, rfl, rfl, rfl, rfl, rfl, rfl, rfl, congrArg List.head? htok⟩
  obtain ⟨hop, hwait, hgot, hmat, htile, haddr, hlevel, hid, htoken⟩ := hentry
  generalize hx : ldscCtx s k f w = x
  generalize ht : (numbered s k).setCtx k.ctx x = t
  have hctx : t.ctx k.ctx = x := by rw [← ht]; exact State.ctx_setCtx_self _ _ _
  have hqueue : (t.ctx k.ctx).loadQ = [e] := by rw [hctx, ← hx, ← he, ldscCtx, hloads]; rfl
  have hqueue' : (t.ctx k.ctx).storeQ = [] := by rw [hctx, ← hx]; exact hstores
  have hflight : x.inflight = (s.ctx k.ctx).inflight ++ [⟨.s, f.dst, s.now k.ctx + f.lat, none, s.serial, f.slot⟩] := by
    rw [← hx, ldscCtx, newLanding, if_neg fun e => hdst e.2]
  have hstraight : Straight { t with fresh := t.fresh + 1 } k.ctx .read e.level (opOf k (.ldsc w) f).addr n pa := by
    rw [hlevel]
    exact Straight.of_same hs (by rw [← ht]; rfl) (by rw [← ht]; rfl) (by rw [← ht]; rfl) (by rw [← ht]; rfl)
      (by show (t.ctx k.ctx).part = _; rw [hctx, ← hx]; rfl) (by show (t.ctx k.ctx).tenant = _; rw [hctx, ← hx]; rfl)
  obtain ⟨l, hread⟩ := readEntry_ldsc hop htile hstraight hpos' hline
  rw [← bytes_int hty] at hread
  have hstep := loadStep_ldsc hqueue hqueue' (by rw [← ht]; exact hcalls) hop hwait htoken hmat hgot (by rw [← ht]; exact hpos)
  rw [readUnits_ldsc (s := { t with fresh := t.fresh + 1 }) hqueue hop hgot haddr hty hread] at hstep
  have hbytes : ∀ a, t.rawByte a = s.rawByte a := fun a => by rw [← ht]; rfl
  refine ⟨_, exec_ldsc h, ?_⟩
  rw [hx, ht, hstep, hid, bytes_int hty]
  refine ⟨?_, ?_, fun cls m => ?_, hbytes, fun d hd => ?_⟩
  · rw [State.ctx_setCtx_self]
    rfl
  · rw [State.ctx_setCtx_self]
    simp only [← hbytes]
    exact deliverLoad_inflight (hctx ▸ hflight) rfl hsrc
  · rw [State.ctx_setCtx_self, loadLeaves_reg]
    show (t.ctx k.ctx).reg cls m = _
    rw [hctx, ← hx]
    cases cls <;> rfl
  · rw [State.ctx_setCtx_ne _ _ hd]
    show t.ctx d = _
    rw [← ht]
    exact State.ctx_setCtx_ne _ _ hd

end Completes
end Sys2Proof.Proofs
end

section
/-! PROOFS. STSC: it enters the store queue and moves to `pkg` in the cycle of its position (O33). -/

namespace Sys2Proof.Proofs

open Sys2Proof Sys2Proof.Machine Sys2Proof.Safety

section Enters
variable (s : State) (k : Cur) (f : Form)

/-- The context once an STSC stands in its queue. -/
def stscCtx (w : WW) : Ctx := { latched s k f with storeQ := (s.ctx k.ctx).storeQ ++ [scEntry s k f (.stsc w) 0] }

theorem pushStore_stsc (w : WW) : (opened s k f).pushStore (opOf k (.stsc w) f) 0 [(opOf k (.stsc w) f).addr] =
    (numbered s k).setCtx k.ctx (stscCtx s k f w) :=
  updCtx_setCtx (numbered s k) k.ctx (latched s k f) fun x => { x with storeQ := x.storeQ ++ [scEntry s k f (.stsc w) 0] }

variable {s k f}

theorem exec_stsc {w : WW} (h : Performs s k (.stsc w) f) :
    exec (.stsc w) s = .next (((numbered s k).setCtx k.ctx (stscCtx s k f w)).scPerform k.ctx s.serial 5) := by
  rw [← pushStore_stsc]
  exact State.runOp_performs h _ _

theorem stsc_queuedStore (w : WW) : QueuedStore s k f (fun x => x) ((numbered s k).setCtx k.ctx (stscCtx s k f w))
    (scEntry s k f (.stsc w) 0) :=
  ⟨_, numbered_onlyQueue _, rfl, State.ctx_setCtx_self _ _ _, rfl⟩

end Enters

/-! The steps of a store that is alone in its context's queues. -/

/-- `t` differs from `s` in the store queue of context `c`, which holds `l`, and in the counters alone. -/
structure StoreMoves (s t : State) (c : Nat) (l : List QEntry) : Prop where
  rest   : t = { s with ctxs := t.ctxs, serial := t.serial, fresh := t.fresh }
  own    : t.ctx c = { s.ctx c with storeQ := l }
  others : ∀ d, d ≠ c → t.ctx d = s.ctx d

theorem StoreMoves.trans {s t u : State} {c : Nat} {l m : List QEntry} (h : StoreMoves s t c l) (g : StoreMoves t u c m) :
    StoreMoves s u c m := by
  refine ⟨?_, by rw [g.own, h.own], fun d hd => (g.others d hd).trans (h.others d hd)⟩
  have e := g.rest
  rw [h.rest] at e
  exact e

theorem StoreMoves.writes {s t u : State} {c pa : Nat} {l : List QEntry} {d : List Byte} (h : StoreMoves s t c l) (g : Writes t u pa d) :
    Writes s u pa d := by
  have hkey : ∀ a, t.memKey a = s.memKey a := fun a => by rw [h.rest]; rfl
  have hbyte : ∀ a, t.rawByte a = s.rawByte a := fun a => by rw [h.rest]; rfl
  refine ⟨g.there, fun a ha => (g.elsewhere a fun i hi => ?_).trans (hbyte a)⟩
  rw [hkey, hkey]
  exact ha i hi

/-- A store alone in its queue changes, whatever the counters become. -/
theorem storeMoves_updStore {s : State} {c : Nat} {e : QEntry} (hq : (s.ctx c).storeQ = [e]) (g : QEntry → QEntry) (n m : Nat) :
    StoreMoves s ({ s with serial := n, fresh := m }.updStore c e.id g) c [g e] := by
  have hctx : ({ s with serial := n, fresh := m }.updStore c e.id g).ctx c = { s.ctx c with storeQ := [g e] } := by
    refine (State.ctx_setCtx_self _ _ _).trans ?_
    show { s.ctx c with storeQ := mapIf (fun f => decide (f.id = e.id)) g (s.ctx c).storeQ } = _
    simp [hq, mapIf]
  exact ⟨rfl, hctx, fun d hd => State.ctx_setCtx_ne _ _ hd⟩

/-- A step of `scPerform` while the entry stands in the queue. -/
theorem scPerform_succ {s : State} {c : Nat} {e : QEntry} (hq : (s.ctx c).storeQ = [e]) (n : Nat) :
    s.scPerform c e.id (n + 1) = (s.storeMove c e).scPerform c e.id n := by
  have hfind : findFirst (fun f : QEntry => decide (f.id = e.id)) (s.ctx c).storeQ = some e := by simp [hq, findFirst]
  rw [State.scPerform, hfind]

theorem scPerform_gone {s : State} {c id : Nat} (hq : (s.ctx c).storeQ = []) (n : Nat) : s.scPerform c id n = s := by
  cases n with
  | zero => rfl
  | succ n => rw [State.scPerform, hq]; rfl

/-- A store translated to unit `u` that has reached point of performance `r`, the `a`th there, to wait until cycle `b`. -/
def movedTo (e : QEntry) (u : WUnit) (r a b : Nat) : QEntry := { e with known := true, units := [u], reach := r, arr := a, wait := b }

/-- From `s` on, store `e` of context `c`, alone in its queue, has been translated to unit `u` and has reached point of performance `r`. -/
def StoreAt (s t : State) (c : Nat) (e : QEntry) (u : WUnit) (r : Nat) : Prop := ∃ a b, StoreMoves s t c [movedTo e u r a b]

section Move
variable {s t : State} {c : Nat} {e : QEntry} {u : WUnit}

/-- To the first point of performance, its unit translated (R149, R336). -/
theorem scPerform_first (hq : (s.ctx c).storeQ = [e]) (hl : (s.ctx c).loadQ = []) (hc : s.calls = []) (h0 : e.reach = 0)
    (htok : e.tok = none) (hknown : e.known = false) (haddr : e.addrErr (accTy e.op).bytes = none)
    (hunits : s.entryUnits (s.whoCtx c e.id e.level) e = (s, .ok [u])) :
    ∃ t, StoreAt s t c e u 1 ∧ ∀ n, s.scPerform c e.id (n + 1) = t.scPerform c e.id n := by
  have hfail := (token_wait_fail (s := s) (c := c) (m := e) fun k hk => absurd (htok.symm.trans hk) (Option.some_ne_none k).symm).2
  have hknow : s.know c e = (s.updStore c e.id fun f => { f with known := true, units := [u] }, true) := by
    unfold State.know
    simp only [hknown, haddr, hunits, Bool.false_eq_true, if_false]
  have hmoves := storeMoves_updStore hq (fun f => { f with known := true, units := [u] }) s.serial s.fresh
  generalize ht : s.updStore c e.id (fun f => { f with known := true, units := [u] }) = t at hknow
  have hmoves : StoreMoves s t c [{ e with known := true, units := [u] }] := ht ▸ hmoves
  have hfree : ∀ f, t.readFirst c f = false := fun f => by
    have hcalls : t.calls = [] := by rw [hmoves.rest]; exact hc
    have hloads : (t.ctx c).loadQ = [] := by rw [hmoves.own]; exact hl
    simp [State.readFirst, hcalls, hloads]
  have hqueue : (t.ctx c).storeQ = [{ e with known := true, units := [u] }] := by rw [hmoves.own]
  refine ⟨s.storeMove c e, ?_, scPerform_succ hq⟩
  unfold State.storeMove
  simp only [h0, if_true, hfail, hknow, hqueue, findFirst, decide_true, hfree, Bool.false_eq_true, if_false]
  exact ⟨_, _, hmoves.trans (storeMoves_updStore (e := { e with known := true, units := [u] }) hqueue _ _ _)⟩

/-- From one point of performance to the next (R149). -/
theorem scPerform_next {r : Nat} (h : StoreAt s t c e u r) (h0 : r ≠ 0) (h3 : r < 3) :
    ∃ v, StoreAt s v c e u (r + 1) ∧ ∀ n, t.scPerform c e.id (n + 1) = v.scPerform c e.id n := by
  obtain ⟨a, b, h⟩ := h
  have hq : (t.ctx c).storeQ = [movedTo e u r a b] := by rw [h.own]
  refine ⟨t.storeMove c (movedTo e u r a b), ?_, scPerform_succ (e := movedTo e u r a b) hq⟩
  have hr : (movedTo e u r a b).reach = r := rfl
  unfold State.storeMove
  rw [hr, if_neg h0, if_pos h3]
  exact ⟨_, _, h.trans (storeMoves_updStore hq (fun f => { f with reach := r + 1, arr := _, wait := _ }) _ _)⟩

end Move

/-! The write at its home. -/

/-- What a unit of memory performed at its home leaves: its bytes at the place, and nothing else of the machine but demand and poison. -/
structure Performed (s t : State) (pa : Nat) (d : List Byte) : Prop where
  step   : MemStep s t
  writes : Writes s t pa d

theorem setRawBytes_pkg (l : List Byte) : ∀ (s : State) (pa : Nat), (s.setRawBytes pa l).pkg = s.pkg := by
  induction l with
  | nil => exact fun _ _ => rfl
  | cons b l ih => exact fun s pa => (ih _ _).trans (State.setRawByte_pkg s pa b)

theorem burstWrite_pkg (s : State) (line : Nat) (e : Bool) (d : List Byte) : (s.burstWrite line e d).pkg = s.pkg := by
  unfold State.burstWrite State.burst
  split
  · rfl
  · split
    · split <;> rfl
    · rfl

/-- A write that goes straight to memory poisons no line. -/
theorem memWrite_poison {s : State} {p : Port} (he : p.elide = false) (h : s.pkg.poison = []) (line off : Nat) (d : List Byte) :
    (s.memWrite p line off d).pkg.poison = [] := by
  unfold State.memWrite
  dsimp only
  generalize hd : splice (s.portRead line p.elide) off d = l
  have hpkg : ((s.portWrite line p.elide l).burstWrite line p.elide l).pkg = s.pkg := by
    rw [burstWrite_pkg, he]
    exact setRawBytes_pkg _ _ _
  unfold State.unpoison
  split
  · split
    · simp [hpkg, h]
    · rw [hpkg, h]
  · rw [hpkg, h]

section Home
variable {s : State} {w : Who} {pa : Nat} {u : WUnit} (hplace : u.place = .mem pa none) (helide : u.elide = false)
  (hline : pa % 128 + u.data.length ≤ 128) (hkey : (s.memKey pa).isSome = true) (hslices : (s.part w.part).slices = [])
include hplace helide hline hkey hslices

/-- Nothing stands in the way of a context's write: it is performed. -/
theorem perform_straight (hengine : w.engine = false) (hguard : s.guardOf pa = none)
    (hcalm : s.pkg.armed = none ∧ s.tests = [] ∧ s.pkg.poison = [] ∧ s.pkg.marks = []) (hhost : s.pkg.hostHas = [])
    (hpage : s.retiredUnit u = false) : ∃ t, s.perform w false u = (t, true) ∧ Performed s t pa u.data := by
  obtain ⟨harmed, htests, hpoison, hmarks⟩ := hcalm
  generalize hp : ({ owner := w.owner, part := w.part, elide := u.elide, cache := u.cache, nt := false } : Port) = p
  have hport : p.part = w.part ∧ p.pin = none ∧ p.elide = false := by rw [← hp]; exact ⟨rfl, rfl, helide⟩
  obtain ⟨hpart, hpin, hpelide⟩ := hport
  have hbehind : s.behind w (.mem pa none) u.data.length = false := by simp [State.behind, hengine]
  have hout : ∀ q : Port, s.outOfService q pa u.data.length = false := fun q => by simp [State.outOfService, htests]
  have hsnoop : s.snoopFirst pa = (s, false) := by simp [State.snoopFirst, hhost]
  have hpay : s.pay w p pa u.data.length true = (s, true) := by
    unfold State.pay
    rw [home_none (by rw [hpart]; exact hslices) hpin]
  generalize ht : (s.cross w u.data.length).writePa p pa u.data = t
  have hwrite : (s.cross w u.data.length).writeUnit p u = t := by
    unfold State.writeUnit
    rw [hplace, ← ht, ← hp]
  have hstep : MemStep s t := (MemStep.ofDemand s _).trans (ht ▸ writePa_step _ _ _ _)
  have hwrites : Writes (s.cross w u.data.length) t pa u.data :=
    ht ▸ writePa_writes (by rw [hpart]; exact hslices) hpin hpelide hline hkey
  have hclean : t.pkg.poison = [] := by
    by_cases hd : u.data = []
    · rw [← ht, hd]
      exact hpoison
    · rw [← ht, writePa_line _ _ hline hd, State.l2Write, home_none (by rw [hpart]; exact hslices) hpin]
      exact memWrite_poison (s := s.cross w u.data.length) hpelide hpoison _ _ _
  have hheal : t.healBy p w.req u = t := by
    unfold State.healBy
    rw [hplace]
    simp only [hclean, List.isEmpty_nil, Bool.true_or, if_true]
  refine ⟨t, ?_, hstep, hwrites.there, hwrites.elsewhere⟩
  unfold State.perform
  rw [hplace]
  simp only [hbehind, hguard, marked_calm hmarks, hout, hsnoop, Bool.or_self, Bool.false_eq_true, if_false, strikeMem_calm harmed, hpage]
  simp only [hp, hpay, hwrite, hheal]

end Home

/-- The page of an access that goes straight is in service. -/
theorem page_straight {s : State} {c : Nat} {want : Want} {lv : Level} {va n pa : Nat} (h : Straight s c want lv va n pa) :
    (!paHost pa && s.pkg.tBits.contains (pageOf pa)) = false := by
  obtain ⟨_, _, ⟨t, _, _, herr, _, _⟩, _, _⟩ := h
  by_contra hc
  rw [Bool.not_eq_false, Bool.and_eq_true, Bool.not_eq_true'] at hc
  obtain ⟨hdevice, hretired⟩ := hc
  have hpage : s.pageErr t.elide pa = some 12 := by
    unfold State.pageErr
    rw [hdevice, hretired]
    rfl
  cases hr : t.remote with
  | none =>
    simp only [State.leafErr, hr, hpage, Option.isSome_none, Bool.false_and, Bool.false_eq_true, if_false] at herr
    split_ifs at herr
  | some k => simp [State.leafErr, hr] at herr

/-- An STSC's unit, translated (R148). -/
theorem entryUnits_stsc {s : State} {c : Nat} {e : QEntry} {w : WW} {a n pa : Nat} (hop : e.op = .stsc w) (hmat : e.mat = none)
    (htile : e.tile = 0) (haddr : e.addrs = [a]) (hn : (tyOr w.type).bytes = n) (h : Straight s c .write e.level a n pa) :
    ∃ b, s.entryUnits (s.whoCtx c e.id e.level) e =
      (s, .ok [{ place := .mem pa none, data := toBytes n e.data, elide := false, cache := b }]) := by
  have hreach := reach_straight h (w := s.whoCtx c e.id e.level) rfl rfl rfl rfl rfl
  have hlist : e.unitList false = [(0, a, n)] := by simp [QEntry.unitList, hop, haddr, accTy, lwOf, hn]
  have hdata : e.storeData (0, a, n) = (toBytes n e.data, 0xFF) := by simp [QEntry.storeData, hop]
  unfold State.entryUnits
  simp only [hmat, hlist, State.storeUnits, htile, hdata, State.unitVa, hreach, ne_eq, not_true_eq_false, if_false]
  exact ⟨_, rfl⟩

/-- The last step of a store: its unit is performed at its home, and the store leaves its queue (R149). -/
theorem storeMove_home {s t : State} {c : Nat} {e : QEntry} {u : WUnit} (hq : (s.ctx c).storeQ = [e]) (h3 : e.reach = 3)
    (hu : e.units = [u]) {w : WW} (hop : e.op = .stsc w)
    (hp : { s with fresh := s.fresh + 1 }.perform (s.whoCtx c e.id e.level) false u = (t, true))
    (ht : MemStep { s with fresh := s.fresh + 1 } t) :
    s.storeMove c e = t.setCtx c { s.ctx c with storeQ := [] } := by
  have hctx : t.ctx c = s.ctx c := by rw [ht.rest]; rfl
  have hwho : { s with fresh := s.fresh + 1 }.whoCtx c e.id e.level = s.whoCtx c e.id e.level := rfl
  have hgone : ∀ m, t.performUnits c e m [] = t.setCtx c { s.ctx c with storeQ := [] } := fun m => by
    have hnone : (s.ctx c).storeQ.filter (fun f => !decide (f.id = e.id)) = [] := by simp [hq]
    rw [← hnone, ← hctx]
    cases m <;> rfl
  unfold State.storeMove
  rw [if_neg (by omega), if_neg (by omega), hu]
  dsimp only
  unfold State.performUnits
  simp only [hop, hwho, hp, hgone]

/-- An STSC alone in the queues of its context moves from point to point to `pkg` and is performed (R149, R154). -/
theorem scPerform_stsc {s : State} {c : Nat} {e : QEntry} {w : WW} {va n pa : Nat} (hq : (s.ctx c).storeQ = [e]) (hl : (s.ctx c).loadQ = [])
    (hc : s.calls = []) (hop : e.op = .stsc w) (hmat : e.mat = none) (htile : e.tile = 0) (htok : e.tok = none) (h0 : e.reach = 0)
    (hknown : e.known = false) (haddr : e.addrs = [va]) (hn : (tyOr w.type).bytes = n) (hline : pa % 128 + n ≤ 128)
    (h : Straight s c .write e.level va n pa) (hguard : s.guardOf pa = none) (hhost : s.pkg.hostHas = [])
    (hkey : (s.memKey pa).isSome = true) :
    (s.scPerform c e.id 5).ctx c = { s.ctx c with storeQ := [] } ∧ (∀ d, d ≠ c → (s.scPerform c e.id 5).ctx d = s.ctx d) ∧
      Writes s (s.scPerform c e.id 5) pa (toBytes n e.data) := by
  obtain ⟨b, hunits⟩ := entryUnits_stsc hop hmat htile haddr hn h
  generalize hu : ({ place := .mem pa none, data := toBytes n e.data, elide := false, cache := b } : WUnit) = u at hunits
  have hunit : u.place = .mem pa none ∧ u.elide = false ∧ u.data = toBytes n e.data := by rw [← hu]; exact ⟨rfl, rfl, rfl⟩
  obtain ⟨hplace, helide, hdata⟩ := hunit
  have hlen : pa % 128 + u.data.length ≤ 128 := by rw [hdata, toBytes_length]; exact hline
  obtain ⟨s1, hcore, h1⟩ := scPerform_first hq hl hc h0 htok hknown (by simp [QEntry.addrErr, hop]) hunits
  obtain ⟨s2, hquad, h2⟩ := scPerform_next hcore (by decide) (by decide)
  obtain ⟨s3, hstack, h3⟩ := scPerform_next hquad (by decide) (by decide)
  obtain ⟨a, b, hstack⟩ := hstack
  have hq3 : (s3.ctx c).storeQ = [movedTo e u 3 a b] := by rw [hstack.own]
  have hs3 : Straight { s3 with fresh := s3.fresh + 1 } c .write e.level va n pa := by
    exact Straight.of_same h (by rw [hstack.rest]) (by rw [hstack.rest]) (by rw [hstack.rest]) (by rw [hstack.rest])
      (hstack.own ▸ rfl : (s3.ctx c).part = _) (hstack.own ▸ rfl : (s3.ctx c).tenant = _)
  obtain ⟨t, hperform, hstep, hwrites⟩ := perform_straight (s := { s3 with fresh := s3.fresh + 1 }) (w := s3.whoCtx c e.id e.level)
    hplace helide hlen (by rw [hstack.rest]; exact hkey) hs3.slices rfl (by rw [hstack.rest]; exact hguard) hs3.calm
    (by rw [hstack.rest]; exact hhost) (by rw [State.retiredUnit, hplace]; exact page_straight hs3)
  have hlast : s3.storeMove c (movedTo e u 3 a b) = t.setCtx c { s3.ctx c with storeQ := [] } :=
    storeMove_home hq3 rfl rfl hop hperform hstep
  have hend : s.scPerform c e.id 5 = t.setCtx c { s.ctx c with storeQ := [] } := by
    rw [h1, h2, h3, show e.id = (movedTo e u 3 a b).id from rfl, scPerform_succ hq3, hlast, hstack.own]
    exact scPerform_gone (by rw [State.ctx_setCtx_self]) _
  have hctxs : t.ctxs = s3.ctxs := by rw [hstep.rest]
  rw [hend]
  refine ⟨State.ctx_setCtx_self _ _ _, fun d hd => ?_, hdata ▸ hstack.writes ⟨hwrites.there, hwrites.elsewhere⟩⟩
  rw [State.ctx_setCtx_ne _ _ hd, ← hstack.others d hd, State.ctx, hctxs]
  rfl

section Completes
variable {s : State} {k : Cur} {f : Form} {w : WW} {sg : Bool} {n pa : Nat}

theorem stsc_completes (h : Performs s k (.stsc w) f) (htok : f.kins.filterMap k.before.tokRef = [])
    (hloads : (s.ctx k.ctx).loadQ = []) (hstores : (s.ctx k.ctx).storeQ = []) (hcalls : s.calls = [])
    (hty : tyOr w.type = .int sg (8 * n)) (hn : n = 1 ∨ n = 2 ∨ n = 4 ∨ n = 8) (hguard : s.guardOf pa = none)
    (hhost : s.pkg.hostHas = []) (hs : Straight s k.ctx .write k.before.level (opOf k (.stsc w) f).addr n pa)
    (hkeys : ∀ i, i < n → (s.memKey (pa + i)).isSome = true) :
    ∃ t, exec (.stsc w) s = .next t ∧ (t.ctx k.ctx).storeQ = [] ∧
      (∀ i, i < n → t.rawByte (pa + i) = BitVec.ofNat 8 ((opOf k (.stsc w) f).src 2 / 256 ^ i)) ∧
      (∀ a, (∀ i, i < n → s.memKey a ≠ s.memKey (pa + i)) → t.rawByte a = s.rawByte a) ∧
      (∀ cls m, (t.ctx k.ctx).reg cls m = (s.ctx k.ctx).reg cls m) ∧ ∀ d, d ≠ k.ctx → t.ctx d = s.ctx d := by
  obtain ⟨hpos, hline⟩ := unit_in_line hn hs.aligned.2
  generalize he : scEntry s k f (.stsc w) 0 = e
  have hentry : e.op = .stsc w ∧ e.mat = none ∧ e.tile = 0 ∧ e.tok = none ∧ e.reach = 0 ∧ e.known = false ∧
      e.addrs = [(opOf k (.stsc w) f).addr] ∧ e.level = k.before.level ∧ e.id = s.serial ∧ e.data = (opOf k (.stsc w) f).src 2 := by
    rw [← he]
    exact ⟨rfl, rfl, rfl, congrArg List.head? htok, rfl, rfl, rfl, rfl, rfl, rfl⟩
  obtain ⟨hop, hmat, htile, htoken, hreach, hknown, haddr, hlevel, hid, hdata⟩ := hentry
  generalize hx : stscCtx s k f w = x
  generalize ht : (numbered s k).setCtx k.ctx x = t
  have hctx : t.ctx k.ctx = x := by rw [← ht]; exact State.ctx_setCtx_self _ _ _
  have hothers : ∀ d, d ≠ k.ctx → t.ctx d = s.ctx d := fun d hd => by rw [← ht]; exact State.ctx_setCtx_ne _ _ hd
  have hstraight : Straight t k.ctx .write e.level (opOf k (.stsc w) f).addr n pa := by
    rw [hlevel]
    exact Straight.of_same hs (by rw [← ht]; rfl) (by rw [← ht]; rfl) (by rw [← ht]; rfl) (by rw [← ht]; rfl)
      (by rw [hctx, ← hx]; rfl) (by rw [hctx, ← hx]; rfl)
  have hkey : ∀ a, t.memKey a = s.memKey a := fun a => by rw [← ht]; rfl
  have hbyte : ∀ a, t.rawByte a = s.rawByte a := fun a => by rw [← ht]; rfl
  obtain ⟨hown, hrest, hthere, helse⟩ := scPerform_stsc (s := t) (by rw [hctx, ← hx, stscCtx, hstores, he]; rfl)
    (by rw [hctx, ← hx]; exact hloads) (by rw [← ht]; exact hcalls) hop hmat htile htoken hreach hknown haddr (bytes_int hty) hline
    hstraight (by rw [← ht]; exact hguard) (by rw [← ht]; exact hhost) (by rw [hkey]; exact hkeys 0 hpos)
  rw [toBytes_length] at hthere helse
  refine ⟨_, exec_stsc h, ?_⟩
  rw [hx, ht, ← hid]
  refine ⟨?_, fun i hi => ?_, fun a ha => ?_, fun cls m => ?_, fun d hd => ?_⟩
  · rw [hown]
  · rw [hthere i hi, toBytes_getD _ _ hi, hdata]
  · rw [helse a (by simpa only [hkey] using ha), hbyte]
  · rw [hown, hctx, ← hx]
    cases cls <;> rfl
  · rw [hrest d hd, hothers d hd]

end Completes

theorem unitList_stsc {e : QEntry} {w : WW} {a : Nat} (hop : e.op = .stsc w) (haddr : e.addrs = [a]) :
    e.unitList false = [(0, a, (accTy (.stsc w)).bytes)] := by
  simp [QEntry.unitList, hop, haddr]

theorem storeData_stsc {e : QEntry} {w : WW} (hop : e.op = .stsc w) (u : Nat × Nat × Nat) :
    e.storeData u = (toBytes u.2.2 e.data, 0xFF) := by
  simp [QEntry.storeData, hop]

/-- Settles O33: an entry of the slot wheel that is alone in its queue takes every step of its way in the cycle of its position. -/
theorem slotWheelForms : Obligations.SlotWheelForms := by
  unfold Obligations.SlotWheelForms
  refine ⟨fun s k f => ⟨fun w h => ?_, fun w h => ?_⟩, ?_, ?_⟩
  · exact ⟨_, _, exec_ldsc h, ldsc_queuedLoad w, scEntry_entryOf s k f _ _, rfl, unitList_ldsc (w := w) rfl rfl⟩
  · exact ⟨_, _, exec_stsc h, stsc_queuedStore w, scEntry_entryOf s k f _ _, rfl, rfl, unitList_stsc rfl rfl,
      storeData_stsc (w := w) rfl⟩
  · intro s k f w sg n pa h hdst htok hloads hstores hcalls hsrc hpos hty hn hs
    exact ldsc_completes h hdst htok hloads hstores hcalls hsrc hpos hty hn hs
  · intro s k f w sg n pa h htok hloads hstores _ hcalls _ hty hn hguard hhost hs hkeys
    exact stsc_completes h htok hloads hstores hcalls hty hn hguard hhost hs hkeys

end Sys2Proof.Proofs
end

section
/-! PROOFS. The Fareri Link: training, loss, and what the flits of memory traffic bring (O59). -/

namespace Sys2Proof.Proofs

open Sys2Proof Sys2Proof.Machine Sys2Proof.Safety

variable {s : State}

theorem exec_flit (s : State) (f : Flit) : exec (.fareriFlitArrival f) s = execFareriFlitArrival f s := rfl

theorem linkTraining_leaves (s : State) (n k : Nat) : ∃ t, exec (.linkTraining n k) s = .next t ∧ t = { s with pkg := t.pkg } ∧
    t.pkg.pkgid = k % 4096 ∧ tget false t.pkg.links n = true ∧ tget 0 t.pkg.lost n = 0 :=
  ⟨_, rfl, rfl, rfl, tget_tset_self false s.pkg.links n true, tget_tset_self 0 s.pkg.lost n 0⟩

/-- A link that goes down must be up within a millisecond; the last one takes the package number along (R377). -/
theorem linkLoss_leaves {n : Nat} (h : tget false s.pkg.links n = true) : ∃ t, exec (.fareriLinkLoss n) s = .next t ∧
    t = { s with pkg := t.pkg } ∧ tget false t.pkg.links n = false ∧ tget 0 t.pkg.lost n = s.cycle + 1400000 ∧
    (t.pkg.links = [] → t.pkg.pkgid = 0) ∧ (t.pkg.links ≠ [] → t.pkg.pkgid = s.pkg.pkgid) := by
  have hexec : exec (.fareriLinkLoss n) s = .next (s.updPkg fun k =>
      { k with links := tset false k.links n false, lost := tset 0 k.lost n (s.cycle + retrainLimit),
               pkgid := if (tset false k.links n false).isEmpty then 0 else k.pkgid }) :=
    if_pos h
  exact ⟨_, hexec, rfl, tget_tset_self false s.pkg.links n false, tget_tset_self 0 s.pkg.lost n (s.cycle + retrainLimit),
    fun e => if_pos (List.isEmpty_iff.mpr e), fun e => if_neg fun g => e (List.isEmpty_iff.mp g)⟩

/-! Payload at its home (R319). -/

/-- The port that a payload of another package takes to its home. -/
def flitPort (pa : Nat) (elide : Bool) : Port := { ownPort (paPart pa) with elide := elide, nt := true }

theorem flit_write {pa : Nat} {d : List Byte} {e : Bool} {t : State} (h : s.remoteWrite pa d e = (t, true)) :
    exec (.fareriFlitArrival (.write pa d e)) s = .next t := by
  rw [exec_flit, execFareriFlitArrival, h]

/-- A place that is mapped nowhere, or whose page is retired, takes no payload. -/
theorem remoteWrite_nowhere {pa : Nat} (d : List Byte) (e : Bool) (h : pageOf pa ∈ s.pkg.tBits ∨ s.memKey pa = none) :
    s.remoteWrite pa d e = (s, true) := by
  refine if_pos ?_
  rcases h with h | h
  · simp [h]
  · simp [h]

/-- A page with elision takes no payload of an access that lacks it (R376). -/
theorem remoteWrite_elided {pa : Nat} (d : List Byte) (hc : pageOf pa ∈ s.pkg.cBits) (ht : pageOf pa ∉ s.pkg.tBits)
    (hk : (s.memKey pa).isSome = true) : s.remoteWrite pa d false = (s.count (paPart pa) 1, true) := by
  have hplace : (s.pkg.tBits.contains (pageOf pa) || (s.memKey pa).isNone) = false := by
    rw [Option.isNone_eq_false_iff.mpr hk, Bool.or_false]
    simpa using ht
  unfold State.remoteWrite
  rw [hplace, if_neg Bool.false_ne_true]
  exact if_pos (by simp [hc])

theorem guardOf_none (h : ∀ e ∈ s.parts, e.2.tables = []) (pa : Nat) : s.guardOf pa = none := by
  have hfind : (s.parts.find? fun e => e.2.tables.contains (pageOf pa)) = none :=
    List.find?_eq_none.mpr fun e he => by simp [h e he]
  unfold State.guardOf
  rw [hfind]
  split <;> rfl

theorem snoopFirst_none (h : s.pkg.hostHas = []) (pa : Nat) : s.snoopFirst pa = (s, false) := by
  simp [State.snoopFirst, h]

/-- Where nothing stands in the way, payload is written. -/
theorem remoteWrite_clear {pa : Nat} (d : List Byte) (h : Clear s (paPart pa)) (hc : s.pkg.cBits = []) (ha : s.pkg.armed = none)
    (hk : (s.memKey pa).isSome = true) : s.remoteWrite pa d false = (s.writePa (flitPort pa false) pa d, true) := by
  obtain ⟨_, hhost, hmarks, _, htbits⟩ := h.calm
  unfold State.remoteWrite
  simp only [htbits, hc, guardOf_none h.guard, marked_calm hmarks, snoopFirst_none hhost, strikeMem_calm ha, List.contains_nil,
    Option.isNone_eq_false_iff.mpr hk, Bool.or_self, Bool.and_false, Bool.false_eq_true, if_false]
  rfl

theorem flit_write_clear {pa : Nat} {d : List Byte} (h : Clear s (paPart pa)) (hc : s.pkg.cBits = []) (ha : s.pkg.armed = none)
    (hd : pa % 128 + d.length ≤ 128) (hk : (s.memKey pa).isSome = true) :
    ∃ t, exec (.fareriFlitArrival (.write pa d false)) s = .next t ∧ t.ctxs = s.ctxs ∧
      (∀ i, i < d.length → t.rawByte (pa + i) = d.getD i 0) ∧
      ∀ a, (∀ i, i < d.length → s.memKey a ≠ s.memKey (pa + i)) → t.rawByte a = s.rawByte a := by
  obtain ⟨hthere, helse⟩ := writePa_writes (p := flitPort pa false) h.slices rfl rfl hd hk
  exact ⟨_, flit_write (remoteWrite_clear d h hc ha hk), by rw [(writePa_step s _ pa d).rest], hthere, helse⟩

/-- A read that an elided page does not turn away leaves nothing behind here. -/
theorem flit_read_calm (pa n : Nat) {e : Bool} (hm : s.pkg.marks = []) (ha : s.pkg.armed = none)
    (h : e = true ∨ pageOf pa ∉ s.pkg.cBits) : exec (.fareriFlitArrival (.read pa n e)) s = .next s := by
  have hpage : (!e && s.pkg.cBits.contains (pageOf pa)) = false := by
    rcases h with h | h
    · simp [h]
    · simp [h]
  rw [exec_flit, execFareriFlitArrival, marked_calm hm, hpage]
  simp only [Bool.false_eq_true, if_false, strikeMem_calm ha]

/-- A read of a word that a switch holds comes again in the next cycle (R160). -/
theorem flit_read_marked {pa n : Nat} (e : Bool) (h : s.marked pa n = true) : exec (.fareriFlitArrival (.read pa n e)) s =
    .next { s with inputs := (s.cycle + 1, .fareriFlitArrival (.read pa n e)) :: s.inputs } :=
  if_pos h

/-! Words of another package (R160). -/

theorem flit_remote {k pa : Nat} {d : List Byte} (h : s.switchHeld k pa d.length = false) :
    ∃ t, exec (.fareriFlitArrival (.remote k pa d)) s = .next t ∧ t = { s with remote := t.remote } ∧
      (∀ i, i < d.length → t.remoteByte (remoteKey k pa + i) = d.getD i 0) ∧
      ∀ a, a < remoteKey k pa ∨ remoteKey k pa + d.length ≤ a → t.remoteByte a = s.remoteByte a := by
  have hexec : exec (.fareriFlitArrival (.remote k pa d)) s = .next (s.setRemoteBytes (remoteKey k pa) d) :=
    if_neg (by rw [h]; exact Bool.false_ne_true)
  exact ⟨_, hexec, (setRemoteBytes_step d s _).1, fun i hi => remoteByte_setRemoteBytes_inside d s _ hi,
    fun a ha => remoteByte_setRemoteBytes_outside d s ha⟩

theorem mem_wantSwitch {k pa n : Nat} {w : SwWord} (hw : w ∈ s.pkg.switchWords) (hk : w.pkg = k) (hlo : w.pa / 8 * 8 < pa + n)
    (hhi : pa < w.pa / 8 * 8 + 8) : (w.pkg, w.pa) ∈ (s.wantSwitch k pa n).pkg.swWant := by
  have hasked : (w.pkg, w.pa) ∈ (s.pkg.switchWords.filter fun w =>
      w.pkg = k && decide (w.pa / 8 * 8 < pa + n ∧ pa < w.pa / 8 * 8 + 8)).map fun w => (w.pkg, w.pa) :=
    List.mem_map.mpr ⟨w, List.mem_filter.mpr ⟨hw, by simp [hk, hlo, hhi]⟩, rfl⟩
  refine List.mem_append.mpr ?_
  by_cases h : (w.pkg, w.pa) ∈ s.pkg.swWant
  · exact .inl h
  · exact .inr (List.mem_filter.mpr ⟨hasked, by simp [h]⟩)

/-- A word that a switch holds is asked for, and the flit comes again in the next cycle. -/
theorem flit_remote_held {k pa : Nat} {d : List Byte} {w : SwWord} (hw : w ∈ s.pkg.switchWords) (hk : w.pkg = k)
    (hlo : w.pa / 8 * 8 < pa + d.length) (hhi : pa < w.pa / 8 * 8 + 8) :
    ∃ t, exec (.fareriFlitArrival (.remote k pa d)) s = .next t ∧ t.remote = s.remote ∧ (w.pkg, w.pa) ∈ t.pkg.swWant ∧
      t.inputs = (s.cycle + 1, .fareriFlitArrival (.remote k pa d)) :: s.inputs := by
  have hheld : s.switchHeld k pa d.length = true := List.any_eq_true.mpr ⟨w, hw, by simp [hk, hlo, hhi]⟩
  have hexec : exec (.fareriFlitArrival (.remote k pa d)) s =
      .next ((s.wantSwitch k pa d.length).later (.fareriFlitArrival (.remote k pa d))) := if_pos hheld
  exact ⟨_, hexec, rfl, mem_wantSwitch hw hk hlo hhi, rfl⟩

theorem flit_ack (s : State) (c : Nat) : ∃ t, exec (.fareriFlitArrival (.ack c)) s = .next t ∧ t = { s with dlv := t.dlv } ∧
    t.dlv = s.dlv.map fun d => if d.cmd = c then { d with wait := min d.wait s.cycle } else d := by
  refine ⟨_, rfl, rfl, List.map_congr_left fun d _ => ?_⟩
  simp only [decide_eq_true_eq]

/-! Words that a switch holds of this package (R160, R377). -/

/-- A switch takes a word: its mark stands, once. -/
theorem flit_hold {sw pa k : Nat} (h : s.memKey pa = some k) : ∃ t, exec (.fareriFlitArrival (.hold sw pa)) s = .next t ∧
    t = { s with pkg := { s.pkg with marks := t.pkg.marks } } ∧ (k / 8, sw) ∈ t.pkg.marks ∧
    ∀ m, m ≠ (k / 8, sw) → (m ∈ t.pkg.marks ↔ m ∈ s.pkg.marks) := by
  have hexec : exec (.fareriFlitArrival (.hold sw pa)) s = .next (s.updPkg fun p =>
      { p with marks := if p.marks.contains (k / 8, sw) then p.marks else p.marks ++ [(k / 8, sw)] }) := by
    rw [exec_flit, execFareriFlitArrival, h]
  refine ⟨_, hexec, rfl, ?_⟩
  simp only [State.updPkg]
  split
  next hc => exact ⟨List.contains_iff_mem.mp hc, fun _ _ => Iff.rfl⟩
  next => exact ⟨by simp, fun m hm => by simp [hm]⟩

/-- A word that a switch writes back: its mark goes, and its bytes stand at their home. -/
theorem flit_back {sw pa k : Nat} (d : BitVec 64) (h : s.memKey pa = some k) (hm : (k / 8, sw) ∈ s.pkg.marks)
    (hguard : s.guardOf pa = none) (htbits : s.pkg.tBits = []) (harmed : s.pkg.armed = none) (hcbits : s.pkg.cBits = [])
    (hhost : s.pkg.hostHas = []) (hslices : (s.part (paPart pa)).slices = []) :
    ∃ t, exec (.fareriFlitArrival (.back sw pa d)) s = .next t ∧ (k / 8, sw) ∉ t.pkg.marks ∧
      ∀ i, i < 8 → t.rawByte (pa / 8 * 8 + i) = BitVec.ofNat 8 (d.toNat / 256 ^ i) := by
  generalize hu : (s.updPkg fun p => { p with marks := p.marks.filter fun m => !(m = (k / 8, sw)) }) = u
  have hexec : exec (.fareriFlitArrival (.back sw pa d)) s =
      .next (u.writePa (flitPort pa false) (pa / 8 * 8) (toBytes 8 d.toNat)) := by
    have hguard' : u.guardOf pa = none := by rw [← hu]; exact hguard
    have hsnoop : u.snoopFirst pa = (u, false) := snoopFirst_none (by rw [← hu]; exact hhost) pa
    have harmed' : u.pkg.armed = none := by rw [← hu]; exact harmed
    have htbits' : u.pkg.tBits = [] := by rw [← hu]; exact htbits
    rw [exec_flit, execFareriFlitArrival, h]
    simp only [List.contains_iff_mem.mpr hm, if_true, hu, hguard', htbits', hcbits, List.contains_nil, Bool.false_eq_true, if_false,
      hsnoop, strikeMem_calm harmed']
    rfl
  have hkey : (u.memKey (pa / 8 * 8)).isSome = true := by
    obtain ⟨o, ho⟩ := memKey_line s (b := 128 * (pa / 128)) (Nat.mul_mod_right _ _)
    have hpa := ho (pa % 128) (Nat.mod_lt _ (by decide))
    rw [Nat.div_add_mod, h] at hpa
    have hword := ho (pa % 128 / 8 * 8) (by omega)
    rw [show 128 * (pa / 128) + pa % 128 / 8 * 8 = pa / 8 * 8 by omega] at hword
    rw [show u.memKey (pa / 8 * 8) = s.memKey (pa / 8 * 8) by rw [← hu]; rfl, hword]
    cases o with
    | none => exact absurd hpa (Option.some_ne_none k)
    | some b => rfl
  have hwrites := writePa_writes (s := u) (p := flitPort pa false) (pa := pa / 8 * 8) (d := toBytes 8 d.toNat)
    (by rw [← hu]; exact hslices) rfl rfl (by rw [toBytes_length]; omega) hkey
  refine ⟨_, hexec, ?_, fun i hi => ?_⟩
  · rw [(writePa_step u _ _ _).rest, ← hu]
    simp [State.updPkg]
  · rw [hwrites.there i (by rw [toBytes_length]; exact hi), toBytes_getD _ _ hi]

end Sys2Proof.Proofs
end

section
/-! PROOFS. The Fareri Link: rows of a tile delivery and arrivals at a pod barrier (O59). -/

namespace Sys2Proof.Proofs

open Sys2Proof Sys2Proof.Machine Sys2Proof.Safety

/-! Rows written into a tile, each from its own pitch on. -/

/-- Tile `t` with `rows` written, row `n` the first, from offset `off` on. -/
def writeRows (t : Tile) (off n : Nat) (rows : List (List Byte)) : Tile :=
  (rows.zipIdx n).foldl (fun t r => t.write (off + r.2 * t.pitch) r.1) t

theorem writeRows_cons (t : Tile) (off n : Nat) (x : List Byte) (rows : List (List Byte)) :
    writeRows t off n (x :: rows) = writeRows (t.write (off + n * t.pitch) x) off (n + 1) rows := by
  rw [writeRows, List.zipIdx_cons]
  rfl

theorem writeRows_id (rows : List (List Byte)) : ∀ (t : Tile) (off n : Nat), (writeRows t off n rows).id = t.id := by
  induction rows with
  | nil => exact fun _ _ _ => rfl
  | cons x rows ih => exact fun t off n => writeRows_cons t off n x rows ▸ ih _ off (n + 1)

/-- What lies before the first row written stays. -/
theorem writeRows_before (rows : List (List Byte)) : ∀ (t : Tile) (off n : Nat) {a : Nat}, a < off + n * t.pitch →
    tget 0 (writeRows t off n rows).bytes a = tget 0 t.bytes a := by
  induction rows with
  | nil => exact fun _ _ _ _ _ => rfl
  | cons x rows ih =>
    intro t off n a ha
    have hnext : a < off + (n + 1) * t.pitch := by rw [Nat.add_mul]; omega
    rw [writeRows_cons, ih (t.write (off + n * t.pitch) x) off (n + 1) hnext]
    exact tget_tsets_outside 0 x t.bytes (.inl ha)

/-- Rows no longer than the pitch stand one below the other. -/
theorem writeRows_row (rows : List (List Byte)) : ∀ (t : Tile) (off n : Nat), (∀ x ∈ rows, x.length ≤ t.pitch) →
    ∀ {r : Nat} {x : List Byte}, rows[r]? = some x → ∀ {i : Nat}, i < x.length →
      tget 0 (writeRows t off n rows).bytes (off + (n + r) * t.pitch + i) = x.getD i 0 := by
  induction rows with
  | nil => intro t off n _ r x hr; exact absurd hr (by simp)
  | cons y rows ih =>
    intro t off n hlen r x hr i hi
    rw [writeRows_cons]
    cases r with
    | zero =>
      obtain rfl : y = x := by simpa using hr
      have hpitch := hlen y List.mem_cons_self
      have hnext : off + n * t.pitch + i < off + (n + 1) * t.pitch := by rw [Nat.add_mul]; omega
      rw [show n + 0 = n from rfl, writeRows_before rows (t.write (off + n * t.pitch) y) off (n + 1) hnext]
      exact tget_tsets_inside 0 y t.bytes _ hi
    | succ r =>
      have hrow := ih (t.write (off + n * t.pitch) y) off (n + 1) (fun x hx => hlen x (List.mem_cons_of_mem _ hx)) (by simpa using hr) hi
      rw [show n + 1 + r = n + (r + 1) by omega] at hrow
      exact hrow

theorem tile_updTile {s : State} {id : Nat} {y : Tile} {f : Tile → Tile} (h : s.tile id = some y) (hf : ∀ t : Tile, (f t).id = t.id) :
    (s.updTile id f).tile id = some (f y) := by
  have hid : y.id = id := by simpa using findFirst_prop h
  have hkeep : ∀ t : Tile, decide ((if decide (t.id = id) = true then f t else t).id = id) = decide (t.id = id) := fun t => by
    split
    · rw [hf]
    · rfl
  refine (findFirst_map hkeep s.tiles).trans ?_
  show (s.tile id).map _ = _
  rw [h, Option.map_some, if_pos (decide_eq_true hid)]

section Deliver
variable {s : State} {k c p sq m h off b : Nat} {rows : List (List Byte)} {po g : Bool}

/-- A delivery that names no quire here changes nothing (log 71). -/
theorem flit_deliver_unnamed (hq : s.quireSeq p sq = none) :
    exec (.fareriFlitArrival (.deliver k c p sq m h off rows po b g)) s = .next s := by
  rw [exec_flit, execFareriFlitArrival, State.takeDelivery, hq]

/-- The rows of a delivery without POST stand in the tile of a resident member. -/
theorem flit_deliver_rows {q : Quire} {y : Tile} (hq : s.quireSeq p sq = some q) (hy : s.memberTile q m h = some y)
    (hoff : off % y.pitch = 0) (hlen : ∀ r ∈ rows, r.length ≤ y.pitch) (hfit : off / y.pitch + rows.length ≤ y.rows)
    (hrows : rows ≠ []) (hctx : (s.memberCtx q m).isSome = true) (hres : s.resident y = true) (htile : s.tile y.id = some y) :
    ∃ t z, exec (.fareriFlitArrival (.deliver k c p sq m h off rows false b g)) s = .next t ∧ t = { s with tiles := t.tiles } ∧
      t.tile y.id = some z ∧
      ∀ r x, rows[r]? = some x → ∀ i, i < x.length → tget 0 z.bytes (off + r * y.pitch + i) = x.getD i 0 := by
  have htake : s.takeDelivery k c p sq m h off rows false b g = s.updTile y.id fun t => writeRows t off 0 rows := by
    have hshort : (rows.any fun r => decide (y.pitch < r.length)) = false :=
      List.any_eq_false.mpr fun r hr => by simpa using hlen r hr
    have hdeep : decide (y.rows < off / y.pitch + rows.length) = false := decide_eq_false (Nat.not_lt.mpr hfit)
    have hsome : rows.isEmpty = false := by simpa using hrows
    unfold State.takeDelivery
    simp only [hq, hy, hoff, hshort, hdeep, hsome, hctx, hres, decide_true, Bool.not_true, Bool.or_self, Bool.and_self, Bool.not_false,
      Bool.false_eq_true, if_false, if_true]
    rfl
  refine ⟨s.updTile y.id fun t => writeRows t off 0 rows, writeRows y off 0 rows, ?_, rfl,
    tile_updTile htile fun t => writeRows_id rows t off 0, fun r x hr i hi => ?_⟩
  · rw [exec_flit, execFareriFlitArrival, htake]
  · simpa only [Nat.zero_add] using writeRows_row rows y off 0 hlen hr hi

end Deliver

/-! Arrivals of another package (R318, R264). -/

theorem episode_setEpisode (s : State) {n : Net} {b : Nat} {e : Episode} (hn : e.net = n) (hb : e.num = b) :
    (s.setEpisode n b (some e)).episode n b = some e := by
  refine findFirst_append_cons (r := []) (fun y hy => ?_) (by simp [hn, hb])
  simpa only [Bool.not_eq_true'] using (List.mem_filter.mp hy).2

/-- An arrival for no job, of no count or for no barrier opens nothing. -/
theorem flit_podArrival_bad {s : State} {job b n : Nat} (h : job = 0 ∨ n = 0 ∨ 2097152 < n ∨ 256 ≤ b) :
    exec (.fareriFlitArrival (.podArrival job b n)) s = .next s := by
  refine if_pos ?_
  simp only [Bool.or_eq_true, decide_eq_true_eq, or_assoc]
  exact h

/-- The episode that the first arrival of another package opens. -/
def podOpened (job b n : Nat) : Episode :=
  { net := .pod job 0, num := b, count := n, arrived := 1, cmds := [], posts := [], poisoned := false, quires := [], broke := [] }

/-- The first arrival opens the episode, and is counted in it. -/
theorem flit_podArrival_opens {s : State} {job b n : Nat} (hjob : job ≠ 0) (h2 : 2 ≤ n) (hn : n ≤ 2097152) (hb : b < 256)
    (h : s.episode (.pod job 0) b = none) : ∃ t e, exec (.fareriFlitArrival (.podArrival job b n)) s = .next t ∧
      t = { s with eps := t.eps } ∧ t.episode (.pod job 0) b = some e ∧ e.count = n ∧ e.arrived = 1 ∧ e.cmds = [] ∧ e.poisoned = false := by
  have hgood : (decide (job = 0) || decide (n = 0) || decide (netCount (.pod job 0) < n) || decide (256 ≤ b)) = false := by
    have hcount : ¬ netCount (.pod job 0) < n := Nat.not_lt.mpr hn
    simp only [hjob, hcount, decide_false, Bool.or_false, Bool.false_or, Bool.or_eq_false_iff, decide_eq_false_iff_not]
    omega
  have hexec : exec (.fareriFlitArrival (.podArrival job b n)) s = .next (s.podArrive job b n) :=
    if_neg (by rw [hgood]; exact Bool.false_ne_true)
  have harrive : s.podArrive job b n =
      (s.setEpisode (.pod job 0) b (some { podOpened job b n with arrived := 0 })).setEpisode (.pod job 0) b (some (podOpened job b n)) := by
    have hmore : 0 + 1 < n := h2
    unfold State.podArrive
    simp only [h, Option.filter_none, List.length_nil, State.joinPosts, State.countArrival, if_pos hmore]
    rfl
  refine ⟨_, podOpened job b n, hexec, ?_, ?_, rfl, rfl, rfl, rfl⟩
  · rw [harrive]
    rfl
  · rw [harrive]
    exact episode_setEpisode _ rfl rfl

end Sys2Proof.Proofs
end

section
/-! PROOFS. Resets and the end of boot (O59). -/

namespace Sys2Proof.Proofs

open Sys2Proof Sys2Proof.Machine Sys2Proof.Safety

/-! A table that is filled key by key. -/

section Fill
variable {α β : Type} [DecidableEq α] (d : α)

theorem tget_fill (f : Nat → α) (l : List Nat) : ∀ (t : Tbl α) (n : Nat),
    tget d (l.foldl (fun t i => tset d t i (f i)) t) n = if n ∈ l then f n else tget d t n := by
  induction l with
  | nil => exact fun t n => (if_neg List.not_mem_nil).symm
  | cons i l ih =>
    intro t n
    rw [List.foldl_cons, ih, tget_tset]
    by_cases hl : n ∈ l
    · rw [if_pos hl, if_pos (List.mem_cons_of_mem _ hl)]
    · by_cases hi : n = i
      · rw [if_neg hl, if_pos hi, hi, if_pos List.mem_cons_self]
      · rw [if_neg hl, if_neg hi, if_neg fun h => (List.mem_cons.mp h).elim hi hl]

theorem tget_not_listed (u : β) (l : Tbl β) {n : Nat} (h : n ∉ l.map Prod.fst) : tget u l n = u := by
  induction l with
  | nil => rfl
  | cons e l ih =>
    obtain ⟨hne, hl⟩ := not_or.mp (mt List.mem_cons.mpr h)
    exact (if_neg (Ne.symm hne)).trans (ih hl)

/-- A table made entry by entry of another in form holds the images of the other's values. -/
theorem tget_fill_of (u : β) (g : β → α) (hg : g u = d) {l : Tbl β} (hl : ∀ e ∈ l, e.2 = tget u l e.1) (n : Nat) :
    tget d (l.foldl (fun t e => tset d t e.1 (g e.2)) []) n = g (tget u l n) := by
  have hkeys : l.foldl (fun t e => tset d t e.1 (g e.2)) [] =
      (l.map Prod.fst).foldl (fun t i => tset d t i (g (tget u l i))) [] := by
    rw [List.foldl_map]
    exact List.foldl_ext _ _ _ fun t e he => by rw [hl e he]
  rw [hkeys, tget_fill]
  split
  next => rfl
  next h => rw [tget_not_listed u l h, hg]; rfl

/-- What holds of every value of a table, and of every value put into it, holds of every value read from it. -/
theorem tget_fill_all {P : α → Prop} {g : β → α} (hg : ∀ x, P (g x)) (l : Tbl β) :
    ∀ {t : Tbl α}, (∀ n, P (tget d t n)) → ∀ n, P (tget d (l.foldl (fun t e => tset d t e.1 (g e.2)) t) n) := by
  induction l with
  | nil => exact fun h => h
  | cons e l ih =>
    intro t h
    refine ih fun n => ?_
    rw [tget_tset]
    split
    · exact hg _
    · exact h n

end Fill

/-! Resets (R323). -/

/-- What a cold and a warm reset leave alike: the reset state, but for the generations and what lies outside the device. -/
structure ResetLeaves (s t : State) : Prop where
  gone   : t.ctxs = [] ∧ t.calls = [] ∧ t.cmds = [] ∧ t.quires = [] ∧ t.tiles = [] ∧ t.owners = [] ∧ t.eps = []
  clocks : t.cols = State.reset.cols ∧ t.quads = State.reset.quads ∧ t.stackTab = State.reset.stackTab ∧ t.cycle = State.reset.cycle
  parts  : ∀ p, p < 12 → t.part p = { l2gen := ((s.part p).l2gen + 1) % 2 ^ 16 }
  gens   : ∀ g, g < genL2 0 → tget 0 t.gens g = (tget 0 s.gens g + 1) % 2 ^ 16
  pkg    : t.pkg.boot = .booting ∧ t.pkg.pbudget = 1600 ∧ t.pkg.tlim = 9500 ∧ t.pkg.badacc = false ∧ t.pkg.lockwr = false
  images : t.pkg.flash = s.pkg.flash ∧ t.pkg.staged = s.pkg.staged ∧ t.pkg.rollback = s.pkg.rollback
  device : ∀ a, a < 2 ^ 51 → t.cell a = 0
  host   : ∀ a, 2 ^ 51 ≤ a → t.cell a = s.cell a

theorem tget_advanceGens (g : Tbl Nat) {n : Nat} (h : n < genL2 0) : tget 0 (advanceGens g) n = (tget 0 g n + 1) % 2 ^ 16 :=
  (tget_fill 0 _ _ _ n).trans (if_pos (List.mem_range.mpr h))

/-- A partition's record after a reset. -/
def renewed (s : State) (p : Nat) : Part := { l2gen := ((s.part p).l2gen + 1) % 2 ^ 16 }

theorem part_afterReset (s : State) {p : Nat} (h : p < 12) : s.afterReset.part p = renewed s p :=
  (tget_fill ({} : Part) (renewed s) (upto 12) [] p).trans (if_pos (List.mem_range.mpr h))

theorem cell_afterReset (s : State) (a : Nat) : s.afterReset.cell a = if 2 ^ 51 ≤ a then s.cell a else 0 := by
  refine (tget_filter 0 (fun k => decide (2 ^ 51 ≤ k)) a s.mem).trans ?_
  simp only [decide_eq_true_eq]
  rfl

theorem gens_afterReset (s : State) : s.afterReset.gens = advanceGens s.gens := by simp only [State.afterReset]

theorem afterReset_leaves (s : State) : ResetLeaves s s.afterReset where
  gone   := ⟨rfl, rfl, rfl, rfl, rfl, rfl, rfl⟩
  clocks := ⟨rfl, rfl, rfl, rfl⟩
  parts  := fun _ h => part_afterReset s h
  gens   := fun _ h => by rw [gens_afterReset, tget_advanceGens s.gens h]
  pkg    := ⟨rfl, rfl, rfl, rfl, rfl⟩
  images := ⟨rfl, rfl, rfl⟩
  device := fun a h => (cell_afterReset s a).trans (if_neg (Nat.not_le.mpr h))
  host   := fun a h => (cell_afterReset s a).trans (if_pos h)

/-- What a warm reset keeps of a set of a slice: quarantined frames, and those that a self-test found LASTING (R382). -/
def lastingSet (x : L2Set) : L2Set := { quar := x.quar, lasting := x.lasting }

/-- What a warm reset keeps of a core: whether a self-test found it LASTING. -/
def lastingCore (x : Machine.Core) : Machine.Core := { lasting := x.lasting }

/-- The state after a warm reset. -/
def warmed (s : State) : State :=
  { s.afterReset.updPkg fun k => { k with cBits := s.pkg.cBits, tBits := s.pkg.tBits, lastPages := s.pkg.lastPages } with
    l2 := s.l2.foldl (fun (l : Tbl L2Set) e => tset {} l e.1 (lastingSet e.2)) []
    cores := s.cores.foldl (fun (l : Tbl Machine.Core) e => tset {} l e.1 (lastingCore e.2)) [] }

theorem warmed_leaves (s : State) : ResetLeaves s (warmed s) := by
  obtain ⟨hgone, hclocks, hparts, hgens, _, _, hdevice, hhost⟩ := afterReset_leaves s
  have hkept : (warmed s).gens = s.afterReset.gens := by simp only [warmed, State.updPkg]
  exact ⟨hgone, hclocks, hparts, fun g h => by rw [hkept, hgens g h], ⟨rfl, rfl, rfl, rfl, rfl⟩, ⟨rfl, rfl, rfl⟩, hdevice, hhost⟩

theorem exec_warmReset (s : State) : exec .warmReset s = .next (warmed s) := rfl

/-- No frame of a slice holds a line after a reset. -/
theorem ways_warmed (s : State) (k : Nat) : ((warmed s).l2set k).ways = [] :=
  tget_fill_all ({} : L2Set) (P := fun x => x.ways = []) (g := lastingSet) (fun _ => rfl) s.l2 (t := []) (fun _ => rfl) k

theorem l2set_warmed {s : State} (h : ∀ e ∈ s.l2, e.2 = s.l2set e.1) (k : Nat) :
    (warmed s).l2set k = lastingSet (s.l2set k) :=
  tget_fill_of ({} : L2Set) ({} : L2Set) lastingSet rfl (l := s.l2) h k

theorem core_warmed {s : State} (h : ∀ e ∈ s.cores, e.2 = s.core e.1) (n : Nat) :
    (warmed s).core n = lastingCore (s.core n) :=
  tget_fill_of ({} : Machine.Core) ({} : Machine.Core) lastingCore rfl (l := s.cores) h n

/-- Either reset leaves the reset state. -/
theorem exec_reset {i : Instr} (s : State) (h : i = .coldReset ∨ i = .warmReset) :
    ∃ t, exec i s = .next t ∧ ResetLeaves s t ∧ ∀ k, (t.l2set k).ways = [] := by
  rcases h with rfl | rfl
  · exact ⟨_, rfl, afterReset_leaves s, fun _ => rfl⟩
  · exact ⟨_, exec_warmReset s, warmed_leaves s, ways_warmed s⟩

/-! The end of boot (R324, R325). -/

section Boot
variable {s : State} {x : List Byte × Word × Nat × Bool × Bool}

theorem imageOk_iff (rollback : Nat) (x : List Byte × Word × Nat × Bool × Bool) :
    imageOk rollback x = true ↔ x.2.2.2.1 = true ∧ x.2.2.1 < 2 ∧ rollback ≤ x.2.1.toNat := by
  simp [imageOk, and_assoc]

/-- The package once the image `x` has passed the checks: it is the flashed one, and may raise the rollback minimum. -/
def bootedPkg (k : Pkg) (x : List Byte × Word × Nat × Bool × Bool) : Pkg :=
  { k with flash := some x, staged := none, rollback := if x.2.2.2.2 then max k.rollback x.2.1.toNat else k.rollback }

/-- The image a boot takes: the staged one, else the flashed one. -/
def Taken (s : State) (x : List Byte × Word × Nat × Bool × Bool) : Prop :=
  s.pkg.staged = some x ∨ (s.pkg.staged = none ∧ s.pkg.flash = some x)

theorem bootComplete_refused (hb : s.pkg.boot = .booting) (hx : Taken s x) (hbad : imageOk s.pkg.rollback x = false) (b : Bool) :
    exec (.bootComplete b) s = .next (s.updPkg fun k => { k with boot := .recovery }) := by
  show execBootComplete b s = _
  unfold execBootComplete
  rcases hx with h | ⟨h, h'⟩
  · simp [hb, h, hbad]
  · simp [hb, h, h', hbad]

theorem bootComplete_taken (hb : s.pkg.boot = .booting) (hx : Taken s x) (hok : imageOk s.pkg.rollback x = true) (b : Bool) :
    exec (.bootComplete b) s = .next (if b = true then
      (s.updPkg fun k => { bootedPkg k x with boot := .running, fwver := x.2.1 }).bootPart0
      else s.updPkg fun k => { bootedPkg k x with boot := .selfTest }) := by
  show execBootComplete b s = _
  unfold execBootComplete
  rcases hx with h | ⟨h, h'⟩
  · cases b <;> simp [hb, h, hok, bootedPkg, State.updPkg]
  · cases b <;> simp [hb, h, h', hok, bootedPkg, State.updPkg]

/-- A boot without an image takes the one that the device holds from the first (log 69). -/
theorem bootComplete_bare (hb : s.pkg.boot = .booting) (hs : s.pkg.staged = none) (hf : s.pkg.flash = none) :
    exec (.bootComplete true) s =
      .next (s.updPkg fun k => { k with flash := none, staged := none, boot := .running, fwver := Config.firstVersion }).bootPart0 := by
  show execBootComplete true s = _
  unfold execBootComplete
  simp [hb, hs, hf, State.updPkg]

/-- What enabling partition 0 leaves. -/
theorem bootPart0_leaves (s : State) : (s.bootPart0.part 0).en = true ∧ (s.bootPart0.part 0).cols = 1 ∧
    (s.bootPart0.part 0).slices = List.range 32 ∧ (s.bootPart0.part 0).chans = List.range 8 ∧
    (s.bootPart0.owner 0).hdr = 0x800000000000E000 ∧ (s.bootPart0.owner 0).part = some 0 ∧
    (∀ p, p ≠ 0 → s.bootPart0.part p = s.part p) ∧ s.bootPart0.mem = s.mem ∧ s.bootPart0.pkg = s.pkg := by
  unfold State.bootPart0
  simp only [State.updPart_eq, State.part_setOwner, State.part_setPart_self, State.owner_setOwner_self]
  exact ⟨trivial, trivial, trivial, trivial, trivial, trivial, fun p hp => State.part_setPart_ne _ _ hp, rfl, rfl⟩

end Boot

/-- Settles O59: each flit by the way its payload takes, the resets by what their fills hold, the end of boot by its image. -/
theorem linksResetsAndBoot : Obligations.LinksResetsAndBoot := by
  unfold Obligations.LinksResetsAndBoot
  intro s
  refine ⟨linkTraining_leaves s, fun _ h => linkLoss_leaves h, rfl, fun _ _ h hc ha hd hk => flit_write_clear h hc ha hd hk,
    fun _ d e h => flit_write (remoteWrite_nowhere d e h), fun _ d hc ht hk => flit_write (remoteWrite_elided d hc ht hk),
    fun pa n _ hm ha h => flit_read_calm pa n hm ha h, fun _ _ e h => flit_read_marked e h, ?deliver,
    fun _ _ _ _ _ _ _ _ _ _ _ hq => flit_deliver_unnamed hq, fun _ _ _ h => flit_remote h,
    fun _ _ _ _ hw hk hlo hhi => flit_remote_held hw hk hlo hhi, flit_ack s, fun _ _ _ h => flit_podArrival_bad h,
    fun _ _ _ hj h2 hn hb h => flit_podArrival_opens hj h2 hn hb h, fun _ _ _ h => flit_hold h,
    fun _ _ _ d h hm hg ht ha hc hh hs => flit_back d h hm hg ht ha hc hh hs, ?reset, ?cold, ?warm, ?boot, ?bare⟩
  case deliver =>
    intro k c p sq m h off rows b g q y hq hy hoff hlen hfit hrows hctx hres htile
    exact flit_deliver_rows hq hy hoff hlen hfit hrows hctx hres htile
  case reset =>
    intro i hi
    obtain ⟨t, ht, h, hways⟩ := exec_reset s hi
    obtain ⟨hctxs, hcalls, hcmds, hquires, htiles, howners, heps⟩ := h.gone
    obtain ⟨hcols, hquads, hstacks, hcycle⟩ := h.clocks
    obtain ⟨hboot, hbudget, htlim, hbad, hlock⟩ := h.pkg
    obtain ⟨hflash, hstaged, hrollback⟩ := h.images
    exact ⟨t, ht, hctxs, hcalls, hcmds, hquires, htiles, howners, heps, hcols, hquads, hstacks, h.parts, h.gens, hcycle, hboot, hbudget,
      htlim, hflash, hstaged, hrollback, hbad, hlock, hways, h.device, h.host⟩
  case cold => exact ⟨_, rfl, rfl, rfl, rfl, rfl, rfl⟩
  case warm =>
    refine ⟨_, exec_warmReset s, rfl, rfl, rfl, fun h k => ?_, core_warmed⟩
    rw [l2set_warmed h]
    exact ⟨rfl, rfl⟩
  case boot =>
    intro x hb hx
    rw [← imageOk_iff]
    refine ⟨fun hbad b => ⟨_, bootComplete_refused hb hx (Bool.eq_false_iff.mpr hbad) b, rfl⟩, fun hok b => ?_⟩
    refine ⟨_, bootComplete_taken hb hx hok b, ?_⟩
    cases b with
    | false => exact ⟨rfl, rfl, rfl, fun h => absurd h Bool.false_ne_true, fun _ => ⟨rfl, rfl⟩⟩
    | true =>
      obtain ⟨hen, hcols, _⟩ := bootPart0_leaves (s.updPkg fun k => { bootedPkg k x with boot := .running, fwver := x.2.1 })
      exact ⟨rfl, rfl, rfl, fun _ => ⟨rfl, rfl, hen, hcols⟩, fun h => absurd h.symm Bool.false_ne_true⟩
  case bare =>
    intro hb hs hf
    obtain ⟨hen, hcols, hslices, hchans, hhdr, hpart, hothers, hmem, hpkg⟩ := bootPart0_leaves
      (s.updPkg fun k => { k with flash := none, staged := none, boot := .running, fwver := Config.firstVersion })
    exact ⟨_, bootComplete_bare hb hs hf, by rw [hpkg]; rfl, hen, hcols, hslices, hchans, hhdr, hpart, hothers, hmem⟩

end Sys2Proof.Proofs
end

section
/-! PROOFS. The layouts of slot words and micro-op words (O2 to O4). -/

namespace Sys2Proof.Proofs

open Sys2Proof Sys2Proof.Machine

/-! Fields of a word and of bits laid side by side (R4). -/

theorem ofBool_getLsbD (w : Word) (i : Nat) : BitVec.ofBool (w.getLsbD i) = fld w i 1 := by
  ext j hj
  obtain rfl : j = 0 := by omega
  simp [fld]

theorem fld_append_fld (w : Word) {a b m n : Nat} (h : a = b + n) : fld w a m ++ fld w b n = fld w b (m + n) := by
  subst h
  ext i hi
  by_cases hn : i < n
  · simp [fld, BitVec.getElem_append, hn]
  · simp [fld, BitVec.getElem_append, hn, show b + n + (i - n) = b + i by omega]

theorem fld_whole (w : Word) : fld w 0 64 = w := BitVec.extractLsb'_eq_self

theorem zero_eq_fld {w : Word} {i : Nat} (h : (!w.getLsbD i) = true) : (0 : BitVec 1) = fld w i 1 := by
  rw [← ofBool_getLsbD, (Bool.not_eq_true' _).mp h]
  rfl

section Append
variable {v n l k : Nat} (x : BitVec v) (y : BitVec n)

theorem fld_append_low (h : l + k ≤ n) : (x ++ y).extractLsb' l k = y.extractLsb' l k := BitVec.extractLsb'_append_eq_of_add_le h

theorem fld_append_high (h : n ≤ l) : (x ++ y).extractLsb' l k = x.extractLsb' (l - n) k := BitVec.extractLsb'_append_eq_of_le h

theorem bit_append_low (h : l < n) : (x ++ y).getLsbD l = y.getLsbD l := by rw [BitVec.getLsbD_append, if_pos h]

theorem bit_append_high (h : n ≤ l) : (x ++ y).getLsbD l = x.getLsbD (l - n) := by
  rw [BitVec.getLsbD_append, if_neg (Nat.not_lt.mpr h)]

theorem fld_all (h : l = 0) : x.extractLsb' l v = x := by
  subst h
  exact BitVec.extractLsb'_eq_self

theorem bit_ofBool (b : Bool) (h : l = 0) : (BitVec.ofBool b).getLsbD l = b := by
  subst h
  cases b <;> rfl

end Append

/-- The opcode is the low byte of every slot word (Table 9.2). -/
theorem fld_packLow (hi : BitVec 48) (op : BitVec 8) (p : BitVec 7) (b : Bool) : fld (hi ++ packLow op p b) 0 8 = op := by
  simp (disch := decide) only [fld, packLow, fld_append_low, fld_all]

/-! The layouts. -/

/-- A layout of words (Tables 9.6 to 9.15): the opcode byte and the fields of a word make the word where its reserved bits are zero, and
the word that an opcode and fields make gives them back. `ok` says which fields are laid out so. -/
structure Codec {α : Type} (ok : α → Prop) (pack : BitVec 8 → α → Word) (unpack : Word → α) (reserved : Word → Bool) : Prop where
  opcode : ∀ op x, fld (pack op x) 0 8 = op
  fields : ∀ op x, ok x → unpack (pack op x) = x
  zero   : ∀ op x, reserved (pack op x) = true
  word   : ∀ w, reserved w = true → pack (fld w 0 8) (unpack w) = w

theorem codecC : Codec (fun _ => True) packC unpackC (reservedZero .C) where
  opcode op x := fld_packLow _ op _ _
  fields op x _ := by
    simp (disch := decide) only [unpackC, fld, packC, packLow, fld_append_low, fld_append_high, bit_append_low, bit_append_high, fld_all,
      bit_ofBool]
  zero op x := by
    simp (disch := decide) only [reservedZero, packC, packLow, bit_append_low, bit_append_high]
    rfl
  word w h := by
    simp only [packC, packLow, unpackC, ofBool_getLsbD, zero_eq_fld h]
    simp (disch := decide) only [fld_append_fld]
    exact fld_whole w

theorem codecV : Codec (fun _ => True) packVec unpackV (reservedZero .V) where
  opcode op x := fld_packLow _ op _ _
  fields op x _ := by
    simp (disch := decide) only [unpackV, fld, packVec, packLow, fld_append_low, fld_append_high, bit_append_low, bit_append_high,
      fld_all, bit_ofBool]
  zero op x := by
    simp (disch := decide) only [reservedZero, fld, packVec, packLow, fld_append_high]
    rfl
  word w h := by
    simp only [packVec, packLow, unpackV, ofBool_getLsbD, ← beq_iff_eq.mp h]
    simp (disch := decide) only [fld_append_fld]
    exact fld_whole w

theorem codecM : Codec (fun _ => True) packM unpackM (reservedZero .M) where
  opcode op x := fld_packLow _ op _ _
  fields op x _ := by
    simp (disch := decide) only [unpackM, fld, packM, packLow, fld_append_low, fld_append_high, bit_append_low, bit_append_high, fld_all,
      bit_ofBool]
  zero op x := by
    simp (disch := decide) only [reservedZero, fld, packM, packLow, fld_append_high]
    rfl
  word w h := by
    simp only [packM, packLow, unpackM, ofBool_getLsbD, ← beq_iff_eq.mp h]
    simp (disch := decide) only [fld_append_fld]
    exact fld_whole w

theorem codecL : Codec (fun _ => True) packL unpackL (reservedZero .L) where
  opcode op x := fld_packLow _ op _ _
  fields op x _ := by
    simp (disch := decide) only [unpackL, fld, packL, packLow, fld_append_low, fld_append_high, bit_append_low, bit_append_high, fld_all,
      bit_ofBool]
  zero op x := by
    simp (disch := decide) only [reservedZero, packL, packLow, bit_append_low, bit_append_high]
    rfl
  word w h := by
    simp only [packL, packLow, unpackL, ofBool_getLsbD, zero_eq_fld h]
    simp (disch := decide) only [fld_append_fld]
    exact fld_whole w

theorem codecW : Codec (fun _ => True) packW unpackW (reservedZero .W) where
  opcode op x := fld_packLow _ op _ _
  fields op x _ := by
    simp (disch := decide) only [unpackW, fld, packW, packLow, fld_append_low, fld_append_high, bit_append_low, bit_append_high, fld_all,
      bit_ofBool]
  zero _ _ := rfl
  word w _ := by
    simp only [packW, packLow, unpackW, ofBool_getLsbD]
    simp (disch := decide) only [fld_append_fld]
    exact fld_whole w

theorem codecE : Codec (fun _ => True) packE unpackE (reservedZero .E) where
  opcode op x := fld_packLow _ op _ _
  fields op x _ := by
    simp (disch := decide) only [unpackE, fld, packE, packLow, fld_append_low, fld_append_high, bit_append_low, bit_append_high, fld_all,
      bit_ofBool]
  zero _ _ := rfl
  word w _ := by
    simp only [packE, packLow, unpackE, ofBool_getLsbD]
    simp (disch := decide) only [fld_append_fld]
    exact fld_whole w

theorem codecX : Codec (fun _ => True) packX unpackX (reservedZero .X) where
  opcode op x := fld_packLow _ op _ _
  fields op x _ := by
    simp (disch := decide) only [unpackX, fld, packX, packLow, fld_append_low, fld_append_high, bit_append_low, bit_append_high, fld_all,
      bit_ofBool]
  zero op x := by
    simp (disch := decide) only [reservedZero, fld, packX, packLow, fld_append_high]
    rfl
  word w h := by
    simp only [packX, packLow, unpackX, ofBool_getLsbD, ← beq_iff_eq.mp h]
    simp (disch := decide) only [fld_append_fld]
    exact fld_whole w

theorem codecAB (b : Bool) : Codec (fun x => x.slotB = b) packAB (unpackAB b) (fun _ => true) where
  opcode op x := fld_packLow _ op _ _
  fields op x h := by
    subst h
    simp (disch := decide) only [unpackAB, fld, packAB, packLow, fld_append_low, fld_append_high, bit_append_low, bit_append_high,
      fld_all, bit_ofBool]
  zero _ _ := rfl
  word w _ := by
    simp only [packAB, packLow, unpackAB, ofBool_getLsbD]
    simp (disch := decide) only [fld_append_fld]
    exact fld_whole w

/-- The reserved bits of a micro-op word are zero (Table 9.15). -/
def mopReservedZero (w : Word) : Bool := fld w 48 16 == 0 && fld w 26 6 == 0 && !w.getLsbD 15 && fld w 10 2 == 0

theorem codecMop : Codec (fun _ => True) packMop unpackMop mopReservedZero where
  opcode op x := by simp (disch := decide) only [fld, packMop, fld_append_low, fld_all]
  fields op x _ := by
    simp (disch := decide) only [unpackMop, fld, packMop, fld_append_low, fld_append_high, fld_all]
  zero op x := by
    simp (disch := decide) only [mopReservedZero, fld, packMop, fld_append_low, fld_append_high, bit_append_low, bit_append_high, fld_all]
    rfl
  word w h := by
    simp only [mopReservedZero, Bool.and_eq_true, beq_iff_eq] at h
    obtain ⟨⟨⟨h48, h26⟩, h15⟩, h10⟩ := h
    simp only [packMop, unpackMop, ← h48, ← h26, zero_eq_fld h15, ← h10]
    simp (disch := decide) only [fld_append_fld]
    exact fld_whole w

end Sys2Proof.Proofs
end

section
/-! PROOFS. Slot words and the operations they stand for (O2, O3). -/

namespace Sys2Proof.Proofs

open Sys2Proof Sys2Proof.Machine

/-! Words and the operations that their opcodes name (R175, R178). -/

/-- The opcode of word `w` of slot `sl` names operation `i`, and the reserved bits of the word are zero, which a hint does not ask. -/
def Names (sl : Slot) (w : Word) (i : Instr) : Prop := opOfSlot sl w = some i ∧ (isHint i = true ∨ reservedZero sl w = true)

section Names
variable {op : BitVec 8} {i : Instr}

/-- The word that an opcode and fields make names the operation that the table of its slot gives them. -/
theorem names_of_codec {α : Type} {ok : α → Prop} {pack : BitVec 8 → α → Word} {unpack : Word → α} {sl : Slot} {x : α}
    {table : Word → Nat → α → Option Instr} (c : Codec ok pack unpack (reservedZero sl)) (hx : ok x)
    (ht : ∀ w, opOfSlot sl w = table w (fld w 0 8).toNat (unpack w)) (h : table (pack op x) op.toNat x = some i) :
    Names sl (pack op x) i :=
  ⟨by rw [ht, c.opcode, c.fields op x hx, h], .inr (c.zero op x)⟩

theorem names_packC {x : CW} (h : opC op.toNat x = some i) : Names .C (packC op x) i :=
  names_of_codec (table := fun _ => opC) codecC trivial (fun _ => rfl) h

theorem names_packVec {x : VW} (h : opV op.toNat x = some i) : Names .V (packVec op x) i :=
  names_of_codec (table := fun _ => opV) codecV trivial (fun _ => rfl) h

theorem names_packM {x : MW} (h : opM op.toNat x = some i) : Names .M (packM op x) i :=
  names_of_codec (table := fun _ => opM) codecM trivial (fun _ => rfl) h

theorem names_packL {x : LW} (h : opL op.toNat x (packL op x) = some i) : Names .L (packL op x) i :=
  names_of_codec (table := fun w n x => opL n x w) codecL trivial (fun _ => rfl) h

theorem names_packW {x : WW} (h : opW op.toNat x = some i) : Names .W (packW op x) i :=
  names_of_codec (table := fun _ => opW) codecW trivial (fun _ => rfl) h

theorem names_packE {x : EW} (h : opE op.toNat x = some i) : Names .E (packE op x) i :=
  names_of_codec (table := fun _ => opE) codecE trivial (fun _ => rfl) h

theorem names_packX {x : XW} (h : opX op.toNat x = some i) : Names .X (packX op x) i :=
  names_of_codec (table := fun _ => opX) codecX trivial (fun _ => rfl) h

theorem names_packAB {x : ABW} (h : opAB op.toNat x = some i) : Names (abSlot x) (packAB op x) i := by
  unfold abSlot
  split
  · next hb => exact names_of_codec (sl := .B) (table := fun _ => opAB) (codecAB true) hb (fun _ => rfl) h
  · next hb => exact names_of_codec (sl := .A) (table := fun _ => opAB) (codecAB false) (Bool.eq_false_iff.mpr hb) (fun _ => rfl) h

end Names

/-- The opcodes 0xF0 to 0xFE of slot L are the hints (R178). -/
theorem opL_hint {n : Nat} {x : LW} {w : Word} (hlo : 0xF0 ≤ n) (hhi : n ≤ 0xFE) :
    opL n x w = some (.lSlotHint (fld w 0 4) (fld w 8 56)) := by
  unfold opL
  split
  case h_10 => exact if_pos ⟨hlo, hhi⟩
  all_goals omega

theorem names_hint {op : BitVec 4} {rest : BitVec 56} (h : op.toNat < 15) :
    Names .L (rest ++ (0xF : BitVec 4) ++ op) (.lSlotHint op rest) := by
  have hop : fld (rest ++ (0xF : BitVec 4) ++ op : Word) 0 4 = op := by simp (disch := decide) only [fld, fld_append_low, fld_all]
  have hrest : fld (rest ++ (0xF : BitVec 4) ++ op : Word) 8 56 = rest := by simp (disch := decide) only [fld, fld_append_high, fld_all]
  have hmark : fld (rest ++ (0xF : BitVec 4) ++ op : Word) 4 4 = 0xF := by
    simp (disch := decide) only [fld, fld_append_low, fld_append_high, fld_all]
  have hcode : (fld (rest ++ (0xF : BitVec 4) ++ op : Word) 0 8).toNat = 0xF0 + op.toNat := by
    rw [← fld_append_fld _ (a := 4) (m := 4) (b := 0) (n := 4) rfl, hmark, hop, BitVec.toNat_append, ← Nat.shiftLeft_add_eq_or_of_lt op.isLt]
    rfl
  exact ⟨by rw [opOfSlot, hcode, opL_hint (by omega) (by omega), hop, hrest], .inl (decide_eq_true h)⟩

/-! What the checks of R179 ask of the forms that share an opcode. -/

theorem wellFormed_iff {i : Instr} : i.WellFormed ↔ illCheck i = none := Option.isNone_iff_eq_none

theorem formIll_none {f : Form} (h : formIll f = none) : f.opOk = true ∧ f.clean = true := by
  unfold formIll at h
  split at h
  · cases h
  · split at h
    · cases h
    · simp_all

/-- The set-up forms are slot B's (Table 9.19). -/
theorem slotB_of_bForm {x : ABW} {d s1 s2 : Role} {ok : Bool} {lat : Nat} (h : formIll (bForm x d s1 s2 ok lat) = none) : x.slotB = true :=
  (formIll_none h).1

theorem illCheck_hint {op : BitVec 4} {rest : BitVec 56} : illCheck (.lSlotHint op rest) = none ↔ op.toNat < 15 := by
  unfold illCheck
  split <;> simp_all

theorem opC_syswr {x : CW} (h : illCheck (.syswr x) = none) : opC 0x11 x = some (.syswr x) := by
  have hc := (formIll_none h).2
  simp_all [cForm, opC]

theorem opC_govloadWrite {x : CW} (h : illCheck (.govloadWrite x) = none) : opC 0x11 x = some (.govloadWrite x) := by
  have hx : x.imm24 = 0x10 := beq_iff_eq.mp (formIll_none h).2
  simp [opC, hx]

theorem opC_tretpcWrite {x : CW} (h : illCheck (.tretpcWrite x) = none) : opC 0x11 x = some (.tretpcWrite x) := by
  have hx : x.imm24 = 0x1C := beq_iff_eq.mp (formIll_none h).2
  simp [opC, hx]

theorem opC_tstatWrite {x : CW} (h : illCheck (.tstatWrite x) = none) : opC 0x11 x = some (.tstatWrite x) := by
  have hx : x.imm24 = 0x1D := beq_iff_eq.mp (formIll_none h).2
  simp [opC, hx]

/-- The word of a well-formed slot operation names it. -/
theorem names_of_slotWord {i : Instr} {sl : Slot} {w : Word} (hw : i.WellFormed) (h : slotWord i = some (sl, w)) : Names sl w i := by
  rw [wellFormed_iff] at hw
  cases i
  case br x | bri x | call x | calli x | ret x | loop x | exit x | yield x | wait x | trap x | sysrd x | tret x | ownset x | ownlat x
      | ownbkt x | ownrd x | wayset x | occrd x | rngset x | whlset x | tlbinv x | mswr x | rtset x | partset x | partcol x | partslc x
      | partchn x | partlnk x | ownasgn x | tenset x | genadv x | errinj x | selftst x | ctxstop x | frmset x =>
    cases h
    exact names_packC rfl
  case mov x | add x | sub x | mul x | mulh x | div x | rem x | and x | or x | xor x | shl x | shr x | min x | max x | adds x | subs x
      | cmp x | sel x | clz x | popc x | ext x =>
    cases h
    exact names_packAB rfl
  case vmov x | vbcast x | vadd x | vsub x | vmul x | vfma x | vfms x | vdiv x | vmin x | vmax x | vabs x | vneg x | vsqrt x | vrcp x
      | vrsqrt x | vexp2 x | vlog2 x | vszadd x | vcmp x | vsel x | vand x | vor x | vxor x | vnot x | vshl x | vshr x | vadds x | vsubs x
      | vmulh x | vcvt x | vrsum x | vrmax x | vrmin x | vperm x | vrot x | vextr x | vins x | viota x | pand x | por x | pxor x | pnot x
      | pmov x | pcnt x | pfirst x =>
    cases h
    exact names_packVec rfl
  case ld x | ldsc x | vld x | vldg x | tld x | tldg x | pld x | pfh x | pfhx x =>
    cases h
    exact names_packL rfl
  case st x | stsc x | vst x | vsts x | tst x | tsts x | pst x | mark x | stnt x =>
    cases h
    exact names_packW rfl
  case mcall x | accget x | accput x | accclr x | accmov x | accst x | latget x | latput x | latld x | accrd x =>
    cases h
    exact names_packM rfl
  case copyMemToTile x | copyTileToMem x | copyTileToTile x | copyMemToMem x | mcast x | copyh x | talloc x | tfree x | launch x | racq x
      | rrel x | barCore x | barQuad x | barStack x | barPkg x | barPod x | tmmatch x | tmmerge x | tmunmrg x | tmcomp x | tmfree x
      | tmsize x | smopen x | smpush x | smfeed x | smlimit x | smend x | smdrain x =>
    cases h
    exact names_packE rfl
  case xexp x | xtrn x | xcvt x | xqnt x | shseal x | shfree x | xratio x | xred x =>
    cases h
    exact names_packX rfl
  case acwAdd t x | acwMin t x | acwMax t x | acwAnd t x | acwOr t x | acwXor t x | acwSwap t x | acwCas t x | acwfAdd t x | acwfMin t x
      | acwfMax t x | acwfAnd t x | acwfOr t x | acwfXor t x | acwfSwap t x | acwfCas t x =>
    cases h
    cases t <;> exact names_packE rfl
  case adr x | agbase x | agdim x | agidx x | agind x | agmode x | agrd x | agclr x | mpset x | mprd x =>
    cases h
    exact names_packAB (if_pos (slotB_of_bForm hw))
  case syswr x =>
    cases h
    exact names_packC (opC_syswr hw)
  case govloadWrite x =>
    cases h
    exact names_packC (opC_govloadWrite hw)
  case tretpcWrite x =>
    cases h
    exact names_packC (opC_tretpcWrite hw)
  case tstatWrite x =>
    cases h
    exact names_packC (opC_tstatWrite hw)
  case lSlotHint op rest =>
    cases h
    exact names_hint (illCheck_hint.mp hw)
  all_goals exact nomatch h

/-! The word of the operation that an opcode names. -/

section Tables
variable {n : Nat} {i : Instr}

theorem slotWord_of_opC {x : CW} (h : opC n x = some i) : slotWord i = some (.C, packC (BitVec.ofNat 8 n) x) := by
  unfold opC at h
  split at h <;> cases h
  case h_12 => split_ifs <;> rfl
  all_goals rfl

theorem slotWord_of_opAB {x : ABW} (h : opAB n x = some i) : slotWord i = some (abSlot x, packAB (BitVec.ofNat 8 n) x) := by
  unfold opAB at h
  split at h
  all_goals
    try split at h
    all_goals cases h
    all_goals rfl

theorem slotWord_of_opV {x : VW} (h : opV n x = some i) : slotWord i = some (.V, packVec (BitVec.ofNat 8 n) x) := by
  unfold opV at h
  split at h <;> cases h <;> rfl

theorem slotWord_of_opM {x : MW} (h : opM n x = some i) : slotWord i = some (.M, packM (BitVec.ofNat 8 n) x) := by
  unfold opM at h
  split at h <;> cases h <;> rfl

theorem slotWord_of_opW {x : WW} (h : opW n x = some i) : slotWord i = some (.W, packW (BitVec.ofNat 8 n) x) := by
  unfold opW at h
  split at h <;> cases h <;> rfl

theorem slotWord_of_opE {x : EW} (h : opE n x = some i) : slotWord i = some (.E, packE (BitVec.ofNat 8 n) x) := by
  unfold opE at h
  split at h <;> cases h <;> rfl

theorem slotWord_of_opX {x : XW} (h : opX n x = some i) : slotWord i = some (.X, packX (BitVec.ofNat 8 n) x) := by
  unfold opX at h
  split at h <;> cases h <;> rfl

/-- An opcode of slot L names an operation of Table 9.21 or, from 0xF0 to 0xFE, a hint. -/
theorem slotWord_of_opL {x : LW} {w : Word} (h : opL n x w = some i) :
    (isHint i = false ∧ slotWord i = some (.L, packL (BitVec.ofNat 8 n) x)) ∨ (0xF0 ≤ n ∧ i = .lSlotHint (fld w 0 4) (fld w 8 56)) := by
  unfold opL at h
  split at h
  case h_10 =>
    split at h <;> cases h
    next hn => exact .inr ⟨hn.1, rfl⟩
  all_goals
    cases h
    exact .inl ⟨rfl, rfl⟩

end Tables

/-- The word of a hint: its high bits, 0xF, and its number (R178). -/
theorem hint_word {w : Word} (h : 0xF0 ≤ (fld w 0 8).toNat) : fld w 8 56 ++ (0xF : BitVec 4) ++ fld w 0 4 = w := by
  have hmark : fld w 4 4 = 0xF := by
    rw [← fld_append_fld w (a := 4) (m := 4) (b := 0) (n := 4) rfl, BitVec.toNat_append,
      ← Nat.shiftLeft_add_eq_or_of_lt (fld w 0 4).isLt, Nat.shiftLeft_eq] at h
    exact BitVec.eq_of_toNat_eq (by show _ = 15; omega)
  rw [← hmark]
  simp (disch := decide) only [fld_append_fld]
  exact fld_whole w

/-- Only hints go without the check of reserved bits, and only slot L has them (R178). -/
theorem slot_of_isHint {i : Instr} {sl : Slot} {w : Word} (hi : isHint i = true) (h : slotWord i = some (sl, w)) : sl = .L := by
  cases i
  case lSlotHint op rest => cases h; rfl
  all_goals exact nomatch hi

/-- A word of another slot than L whose fields make the word of the operation it names is that word. -/
theorem slotWord_of_codec {α : Type} {ok : α → Prop} {pack : BitVec 8 → α → Word} {unpack : Word → α} {sl : Slot} {i : Instr} {w : Word}
    (c : Codec ok pack unpack (reservedZero sl)) (hsl : sl ≠ .L) (hz : isHint i = true ∨ reservedZero sl w = true)
    (h : slotWord i = some (sl, pack (BitVec.ofNat 8 (fld w 0 8).toNat) (unpack w))) : slotWord i = some (sl, w) := by
  have hr := hz.resolve_left fun hi => hsl (slot_of_isHint hi h)
  rwa [BitVec.ofNat_toNat, BitVec.setWidth_eq, c.word w hr] at h

/-- A word that names an operation is the word of that operation. -/
theorem slotWord_of_names {i : Instr} {sl : Slot} {w : Word} (h : Names sl w i) : slotWord i = some (sl, w) := by
  obtain ⟨ho, hz⟩ := h
  cases sl with
  | C => exact slotWord_of_codec codecC nofun hz (slotWord_of_opC ho)
  | A => exact slotWord_of_codec (sl := .A) (codecAB false) nofun hz (slotWord_of_opAB ho)
  | B => exact slotWord_of_codec (sl := .B) (codecAB true) nofun hz (slotWord_of_opAB ho)
  | V => exact slotWord_of_codec codecV nofun hz (slotWord_of_opV ho)
  | M => exact slotWord_of_codec codecM nofun hz (slotWord_of_opM ho)
  | W => exact slotWord_of_codec codecW nofun hz (slotWord_of_opW ho)
  | E => exact slotWord_of_codec codecE nofun hz (slotWord_of_opE ho)
  | X => exact slotWord_of_codec codecX nofun hz (slotWord_of_opX ho)
  | L =>
    obtain ⟨hi, h⟩ | ⟨hn, rfl⟩ := slotWord_of_opL ho
    · rw [BitVec.ofNat_toNat, BitVec.setWidth_eq, codecL.word w (hz.resolve_left (by simp [hi]))] at h
      exact h
    · rw [slotWord, hint_word hn]

/-! Decoding (R169, R179). -/

theorem illCheck_of_isHint {i : Instr} (h : isHint i = true) : illCheck i = none := by
  cases i
  case lSlotHint op rest => exact illCheck_hint.mpr (of_decide_eq_true h)
  all_goals exact nomatch h

/-- A slot word decodes to the well-formed operation that it names, and to no other. -/
theorem decodeSlot_ok_iff {i : Instr} {sl : Slot} {w : Word} : decodeSlot sl w = .ok i ↔ Names sl w i ∧ i.WellFormed := by
  rw [wellFormed_iff]
  unfold decodeSlot Names
  split
  · next ho => simp [ho]
  · next j ho =>
    rw [ho]
    constructor
    · intro h
      split at h
      · next hi =>
        cases h
        exact ⟨⟨rfl, .inl hi⟩, illCheck_of_isHint hi⟩
      · split at h
        · cases h
        · next hr =>
          split at h <;> cases h
          next hn => exact ⟨⟨rfl, .inr (by simpa using hr)⟩, hn⟩
    · rintro ⟨⟨hj, hz⟩, hn⟩
      cases hj
      split
      · rfl
      · next hi =>
        rw [hz.resolve_left hi, hn]
        rfl

/-- Settles O2: the word of a well-formed operation names it, and a word decodes to the well-formed operation that it names. -/
theorem slotWordRoundTrip : Obligations.SlotWordRoundTrip := by
  unfold Obligations.SlotWordRoundTrip
  exact fun i sl w hw h => decodeSlot_ok_iff.mpr ⟨names_of_slotWord hw h, hw⟩

/-- Settles O3: a word that decodes names a well-formed operation, whose word it is. -/
theorem slotWordUnique : Obligations.SlotWordUnique := by
  unfold Obligations.SlotWordUnique
  intro i sl w h
  obtain ⟨hn, hw⟩ := decodeSlot_ok_iff.mp h
  exact ⟨slotWord_of_names hn, hw⟩

end Sys2Proof.Proofs
end

section
/-! PROOFS. Micro-op words and bundles (O1, O4, O5). -/

namespace Sys2Proof.Proofs

open Sys2Proof Sys2Proof.Machine

/-! Micro-ops (R182, R240). -/

theorem decodeMop_packMop {op : BitVec 8} {x : MopW} {i : Instr} (h : opMop op.toNat x = some i) : decodeMop (packMop op x) = some i := by
  show (if mopReservedZero (packMop op x) = true then opMop (fld (packMop op x) 0 8).toNat (unpackMop (packMop op x)) else none) = _
  rw [if_pos (codecMop.zero op x), codecMop.opcode, codecMop.fields op x trivial, h]

theorem mopWord_of_opMop {n : Nat} {x : MopW} {i : Instr} (h : opMop n x = some i) : mopWord i = some (packMop (BitVec.ofNat 8 n) x) := by
  unfold opMop at h
  split at h <;> cases h <;> rfl

theorem decodeMop_of_mopWord {i : Instr} {w : Word} (h : mopWord i = some w) : decodeMop w = some i := by
  cases i
  case ktile x | fetcha x | fetchb x | lata x | latb x | groups x | stepa x | stepb x | scalea x | scaleb x | accsel x | filla x | fillb x
     | cntset x | cntdec x | jnz x | jmp x | parmrd x | done x | nopm x =>
    cases h
    exact decodeMop_packMop rfl
  all_goals exact nomatch h

theorem mopWord_of_decodeMop {i : Instr} {w : Word} (h : decodeMop w = some i) : mopWord i = some w := by
  change (if mopReservedZero w = true then opMop (fld w 0 8).toNat (unpackMop w) else none) = _ at h
  split at h
  · next hz => rw [mopWord_of_opMop h, BitVec.ofNat_toNat, BitVec.setWidth_eq, codecMop.word w hz]
  · cases h

/-- Settles O4: the layout of micro-op words, and the table of their codes read both ways. -/
theorem microWordRoundTrip : Obligations.MicroWordRoundTrip := by
  unfold Obligations.MicroWordRoundTrip
  exact fun i w => ⟨decodeMop_of_mopWord, mopWord_of_decodeMop⟩

/-! Bundles (R162). -/

theorem ofBytes_toBytes (n : Nat) : ∀ x, ofBytes (toBytes n x) = x % 256 ^ n := by
  induction n with
  | zero => intro x; exact (Nat.mod_one x).symm
  | succ n ih =>
    intro x
    rw [toBytes, ofBytes, ih, BitVec.toNat_ofNat, show 256 ^ (n + 1) = 256 * 256 ^ n from Nat.pow_succ']
    exact Nat.mod_mul.symm

theorem maskSlots_single (sl : Slot) : maskSlots (BitVec.ofNat 32 (2 ^ sl.num)) = [sl] := by cases sl <;> decide

theorem headerIll_single (sl : Slot) : headerIll (BitVec.ofNat 32 (2 ^ sl.num)) = none := by cases sl <;> decide

/-- The number in the first bytes of a list. -/
theorem ofBytes_take {n x k : Nat} (l : List Byte) (hk : k = n) : ofBytes ((toBytes n x ++ l).take k) = x % 256 ^ n := by
  rw [hk, List.take_left' (toBytes_length n x), ofBytes_toBytes]

theorem drop_toBytes {n k x : Nat} (l : List Byte) (hk : k = n) : (toBytes n x ++ l).drop k = l := by
  rw [hk, List.drop_left' (toBytes_length n x)]

theorem decodeBundle_encodeBundle {i : Instr} {sl : Slot} {w : Word} (h : decodeSlot sl w = .ok i) (imm : BitVec 32) (rest : List Byte) :
    decodeBundle (encodeBundle sl imm w ++ rest) = .bundle ⟨BitVec.ofNat 32 (2 ^ sl.num), imm, [(sl, i)]⟩ rest := by
  have hsize : bundleSize (BitVec.ofNat 32 (2 ^ sl.num)) = 16 := by rw [bundleSize, maskSlots_single]; rfl
  have hmask : BitVec.ofNat 32 (2 ^ sl.num % 256 ^ 4) = BitVec.ofNat 32 (2 ^ sl.num) := by cases sl <;> rfl
  have himm : BitVec.ofNat 32 (imm.toNat % 256 ^ 4) = imm := by
    rw [Nat.mod_eq_of_lt (show imm.toNat < 256 ^ 4 from imm.isLt), BitVec.ofNat_toNat, BitVec.setWidth_eq]
  have hword : BitVec.ofNat 64 (w.toNat % 256 ^ 8) = w := by
    rw [Nat.mod_eq_of_lt (show w.toNat < 256 ^ 8 from w.isLt), BitVec.ofNat_toNat, BitVec.setWidth_eq]
  have hops : decodeSlots [sl] (toBytes 8 w.toNat ++ rest) = .ok [(sl, i)] := by
    simp only [decodeSlots, ofBytes_take, hword, h]
  have hbytes : encodeBundle sl imm w ++ rest = toBytes 4 (2 ^ sl.num) ++ (toBytes 4 imm.toNat ++ (toBytes 8 w.toNat ++ rest)) := by
    simp only [encodeBundle, List.append_assoc]
  have hlen : (encodeBundle sl imm w ++ rest).length = 16 + rest.length := by
    simp only [hbytes, List.length_append, toBytes_length]
    omega
  have hslots : (encodeBundle sl imm w ++ rest).drop 8 = toBytes 8 w.toNat ++ rest := by
    rw [hbytes, show 8 = 4 + 4 from rfl, ← List.drop_drop, drop_toBytes _ rfl, drop_toBytes _ rfl]
  have hrest : (encodeBundle sl imm w ++ rest).drop 16 = rest := by
    rw [show 16 = 8 + 8 from rfl, ← List.drop_drop, hslots, drop_toBytes _ rfl]
  have himmBytes : ofBytes (((encodeBundle sl imm w ++ rest).drop 4).take 4) = imm.toNat % 256 ^ 4 := by
    rw [hbytes, drop_toBytes _ rfl, ofBytes_take _ rfl]
  have hheader : ofBytes ((encodeBundle sl imm w ++ rest).take 4) = 2 ^ sl.num % 256 ^ 4 := by
    rw [hbytes, ofBytes_take _ rfl]
  simp only [decodeBundle, hheader, hmask, himmBytes, himm, hsize, hlen, headerIll_single, maskSlots_single, hslots, hops, hrest]
  rw [if_neg (by omega), if_neg (by omega)]

/-- Settles O5: the header names the one slot, whose word decodes to the operation (O2). -/
theorem bundleRoundTrip : Obligations.BundleRoundTrip := by
  unfold Obligations.BundleRoundTrip
  exact fun i sl w imm rest hw h => decodeBundle_encodeBundle (slotWordRoundTrip i sl w hw h) imm rest

/-- Settles O1, by decoding each word. -/
theorem manualWordsDecode : Obligations.ManualWordsDecode := by
  unfold Obligations.ManualWordsDecode
  exact ⟨by decide, by decide, by decide, by decide, by decide, by decide⟩

end Sys2Proof.Proofs
end

section
/-! PROOFS. Where control goes when a bundle ends (O7). -/

namespace Sys2Proof.Proofs

open Sys2Proof Sys2Proof.Machine Sys2Proof.Safety

section Ends
variable {s : State} {k : Cur}

/-- The state in which a bundle is over, and its context advanced. -/
def bundleOver (s : State) (k : Cur) : State := { s with cur := none }.setCtx k.ctx ((s.ctx k.ctx).advance k (s.now k.ctx))

theorem bundleOver_ctx : (bundleOver s k).ctx k.ctx = (s.ctx k.ctx).advance k (s.now k.ctx) := State.ctx_setCtx_self _ _ _

theorem bundleOver_only : OnlyCtx s (bundleOver s k) k.ctx := ⟨rfl, fun _ hd => State.ctx_setCtx_ne _ _ hd⟩

/-- A bundle without a TRAP ends with its context advanced, which enters what its pc names unless it goes on in sequence (R168). -/
theorem finishBundle_eq (ht : k.trap = none) : s.finishBundle k =
    if ((bundleOver s k).ctx k.ctx).pc = k.h + k.size then bundleOver s k else (bundleOver s k).enter k.ctx := by
  unfold State.finishBundle
  rw [ht]
  rfl

theorem finishBundle_spec (ht : k.trap = none) : OnlyCtx s (s.finishBundle k) k.ctx ∧ (s.finishBundle k).cur = none ∧
    sameButEntry ((s.finishBundle k).ctx k.ctx) ((s.ctx k.ctx).advance k (s.now k.ctx)) ∧
    (((s.ctx k.ctx).advance k (s.now k.ctx)).pc = k.h + k.size →
      (s.finishBundle k).ctx k.ctx = (s.ctx k.ctx).advance k (s.now k.ctx)) := by
  have hctx := bundleOver_ctx (s := s) (k := k)
  have honly := bundleOver_only (s := s) (k := k)
  rw [finishBundle_eq ht, hctx]
  split
  · exact ⟨honly, rfl, by rw [hctx]; exact rfl, fun _ => hctx⟩
  · next hp =>
    obtain ⟨hrest, hsame⟩ := enter_only (bundleOver s k) k.ctx
    rw [hctx] at hsame
    exact ⟨⟨by rw [hrest.rest]; rfl, fun d hd => (hrest.others d hd).trans (honly.others d hd)⟩, rfl, hsame, fun e => absurd e hp⟩

theorem step_ends (hp : s.phase = .issue) (hc : s.cur = some k) (hl : k.todo = []) : step s = .next (s.finishBundle k) := by
  obtain ⟨-, hend, -⟩ := stepRunsDecoded
  exact hend s k hp hc hl

end Ends

/-- Settles O7: the step that ends a bundle rewrites its context by `Ctx.advance` (`finishBundle_spec`), and each rule of the loop
stack is one branch of `loopEnd` or `loopBranch`. -/
theorem bundleEnds : Obligations.BundleEnds := by
  unfold Obligations.BundleEnds
  refine ⟨⟨?sequence, ?transfer⟩, ?loopEnd, ?loopBranch⟩
  case sequence =>
    intro s k hp hc hl hj ht x e
    obtain ⟨honly, hcur, hsame, hseq⟩ := finishBundle_spec (s := s) ht
    have hy : x.advance k (s.now k.ctx) = { x with pc := e.2, loops := e.1 } := by simp only [Ctx.advance, hj, e]
    rw [hy] at hsame hseq
    exact ⟨_, step_ends hp hc hl, honly, hcur, hsame, fun h => by rw [hseq h]; exact ⟨rfl, rfl⟩⟩
  case transfer =>
    intro s k a hp hc hl hj ht x
    obtain ⟨honly, hcur, hsame, -⟩ := finishBundle_spec (s := s) ht
    simp only [Ctx.advance, hj] at hsame
    exact ⟨_, step_ends hp hc hl, honly, hcur, hsame⟩
  case loopEnd =>
    intro e depth x l
    refine ⟨fun hd hs h1 => ?_, fun hd hs h1 => ?_, fun h => ?_, rfl⟩
    · simp [loopEnd, hd, hs, h1]
    · simp [loopEnd, hd, hs, Nat.not_lt.mpr h1]
    · rw [loopEnd, if_neg (by simpa [Decidable.imp_iff_not_or] using h)]
  case loopBranch =>
    intro t depth x l
    refine ⟨fun hd h => ?_, fun h => ?_, rfl⟩
    · rw [loopBranch, if_pos]
      simp only [Bool.and_eq_true, decide_eq_true_eq, Bool.not_eq_true', decide_eq_false_iff_not]
      exact ⟨hd, by omega⟩
    · rw [loopBranch, if_neg]
      simp only [Bool.and_eq_true, decide_eq_true_eq, Bool.not_eq_true', decide_eq_false_iff_not]
      omega

end Sys2Proof.Proofs
end

section
/-! PROOFS. Faults found before issue freeze their context (O50). -/

namespace Sys2Proof.Proofs

open Sys2Proof Sys2Proof.Machine Sys2Proof.Safety

section Freeze
variable {s : State} {c : Nat} {e : FaultInfo}

/-- A context that is delivered no fault freezes as FAULT_FREEZE leaves it (R335, R336). -/
theorem freezeAt_frozenFor {x : Ctx} (found : Nat × Nat) (now mark : Nat) (h : x.frz.fault = none) :
    x.freezeAt (mkRec c x e) now mark true found = frozenFor c x e now mark := by
  have hw : (x.inflight.filter fun l => !l.isReg && decide (l.src = 0)) = windows x :=
    List.filter_congr fun l _ => by simp [Landing.isReg]
  rw [Ctx.freezeAt_first _ _ _ _ _ h]
  unfold frozenFor Ctx.snapNow snapOf
  rw [hw]
  cases x.snap <;> rfl

/-- A fault before issue freezes the context that takes it (R335). -/
theorem takeFault_frozenFor (hs : (s.ctx c).st = .ready ∨ (s.ctx c).st = .blocked) (hd : (s.ctx c).dying = none)
    (hf : (s.ctx c).frz.fault = none) :
    (s.takeFault c e true).ctx c = frozenFor c (s.ctx c) e (s.now c) s.serial := by
  have hrun : ¬ ((s.ctx c).st = .empty || (s.ctx c).st = .retired || (s.ctx c).st = .dormant || (s.ctx c).dying.isSome) = true := by
    obtain hs | hs := hs <;> simp [hs, hd]
  rw [← freezeAt_frozenFor (s.foundIn, e.order) _ _ hf]
  unfold State.takeFault
  dsimp only
  rw [if_neg hrun]
  refine Eq.trans ?_ (State.ctx_setCtx_self s c _)
  split
  · split <;> rfl
  · rfl

/-- A fault that is no refusal, no wrong attribute and no refusal by the host is taken, and that is all (R142, R356, R376). -/
theorem faultBundle_plain (rs : List Run) (h : e.cls ≠ 0x0E) (h' : e.cls = 0x0B → e.code ≠ 10 ∧ e.code ≠ 13) :
    s.faultBundle c e rs = s.takeFault c e true := by
  unfold State.faultBundle
  dsimp only
  rw [if_neg h, if_neg, if_neg]
  · simp only [Bool.and_eq_true, decide_eq_true_eq]
    exact fun ⟨hc, hn⟩ => (h' hc).1 hn
  · simp only [Bool.and_eq_true, decide_eq_true_eq]
    exact fun ⟨hc, hn⟩ => (h' hc).2 hn

/-- A context that nothing holds back and no stop is asked of is looked at by its next bundle alone (R53). -/
structure Issues (s : State) (c : Nat) : Prop where
  state  : (s.ctx c).st = .ready ∨ (s.ctx c).st = .blocked
  stays  : (s.ctx c).exiting = false
  lives  : (s.ctx c).dying = none
  asked  : (s.ctx c).stop = none
  bubble : (s.ctx c).bubble ≤ s.now c
  free   : s.heldUp c = false

/-- What the fetch of the next bundle finds. -/
inductive FetchFault (s : State) (c : Nat) (e : FaultInfo) : Prop where
  | xlate {n : Nat} (hf : s.fetchBundle c = .xlate n) (he : e = fetchInfo (s.ctx c).pc n)
  | ill {n sl : Nat} {o : Nat × Nat × Nat} (hf : s.fetchBundle c = .ill n sl o) (he : e = illInfo (s.ctx c).pc n sl o)
  | bundle {h size : Nat} {b : Bundle} (hf : s.fetchBundle c = .bundle h size b)
      (hw : s.waits (runsOf c (curOf c h size b ((s.ctx c).resumed (s.now c))) ((s.ctx c).resumed (s.now c)) b.ops) = false)
      (he : s.bundleFault (curOf c h size b ((s.ctx c).resumed (s.now c)))
        (runsOf c (curOf c h size b ((s.ctx c).resumed (s.now c))) ((s.ctx c).resumed (s.now c)) b.ops) = some e)

theorem look_fault (h : Issues s c) (hf : FetchFault s c e) : s.look c = .fault e := by
  have hidle : ¬ (!((s.ctx c).st = .ready || (s.ctx c).st = .blocked) || (s.ctx c).exiting || (s.ctx c).dying.isSome ||
      decide (s.now c < (s.ctx c).bubble)) = true := by
    have hb := Nat.not_lt.mpr h.bubble
    obtain hs | hs := h.state <;> simp [hs, h.stays, h.lives, hb]
  unfold State.look
  dsimp only
  rw [if_neg hidle, h.free]
  cases hf with
  | xlate hf he => simp [hf, he]
  | ill hf he => simp [hf, he]
  | bundle hf hw he => simp [hf, h.asked, hw, he]

theorem execFaultFreeze_look (h : s.look c = .fault e) : ∃ rs, execFaultFreeze c s = .next (s.faultBundle c e rs) := by
  unfold execFaultFreeze
  rw [h]
  exact ⟨_, rfl⟩

theorem exec_faultFreeze (c : Nat) (s : State) : exec (.faultFreeze c) s = execFaultFreeze c s := rfl

/-- FAULT_FREEZE (R335). -/
theorem faultFreezes (hi : Issues s c) (hf : FetchFault s c e) (hn : (s.ctx c).frz.fault = none) (h : e.cls ≠ 0x0E)
    (h' : e.cls = 0x0B → e.code ≠ 10 ∧ e.code ≠ 13) : ∃ t,
      exec (.faultFreeze c) s = .next t ∧ OnlyCtx s t c ∧ t.ctx c = frozenFor c (s.ctx c) e (s.now c) s.serial := by
  obtain ⟨rs, hrs⟩ := execFaultFreeze_look (look_fault hi hf)
  rw [exec_faultFreeze, hrs, faultBundle_plain rs h h']
  exact ⟨_, rfl, State.takeFault_only s c e true, takeFault_frozenFor hi.state hi.lives hn⟩

end Freeze

end Sys2Proof.Proofs
end

section
/-! PROOFS. Delivery of faults, and writes of the device's own that meet a frozen context (O50). -/

namespace Sys2Proof.Proofs

open Sys2Proof Sys2Proof.Machine Sys2Proof.Safety

/-! What writes of the device's own leave of one context: as it was, or frozen with its partition (R378). -/

/-- A context that may have been frozen by its TDI entering ERROR. -/
def TdiMay (x y : Ctx) : Prop := y = x ∨ y = { x with st := .frozen, frz := { x.frz with tdi := true } }

theorem tdiEnterError_tdiMay (s : State) (p c : Nat) : TdiMay (s.ctx c) ((s.tdiEnterError p).ctx c) := by
  unfold State.tdiEnterError
  dsimp only
  obtain ⟨-, hin, hout⟩ := State.mapCtxs_spec (s.updPart p fun q => { q with tdi := .error }) fun _ x =>
    if x.part = p && !(x.st = .empty) then { x with st := .frozen, frz := { x.frz with tdi := true } } else x
  by_cases hc : c ∈ (s.updPart p fun q => { q with tdi := .error }).ctxs.map Prod.fst
  · refine (hin c hc) ▸ ?_
    split
    · exact .inr rfl
    · exact .inl rfl
  · exact .inl (hout c hc)

theorem guardHit_tdiMay (s : State) (p c : Nat) : TdiMay (s.ctx c) ((s.guardHit p).ctx c) := by
  unfold State.guardHit
  split
  · exact .inl rfl
  · exact tdiEnterError_tdiMay s p c

theorem snoopFirst_ctx (s : State) (pa c : Nat) : (s.snoopFirst pa).1.ctx c = s.ctx c := by
  unfold State.snoopFirst
  dsimp only
  split <;> rfl

theorem irqRaised_ctx (q : Posted) (s : State) (c : Nat) : (irqRaised q s).ctx c = s.ctx c := by
  unfold irqRaised
  split <;> rfl

theorem writePa_ctx (s : State) (p : Port) (pa : Nat) (d : List Byte) (c : Nat) : (s.writePa p pa d).ctx c = s.ctx c := by
  rw [(writePa_step s p pa d).rest]
  rfl

theorem postedWrite_tdiMay (s : State) (q : Posted) (c : Nat) : TdiMay (s.ctx c) ((s.postedWrite q).1.ctx c) := by
  unfold State.postedWrite
  dsimp only
  split
  · next g _ => exact (irqRaised_ctx q (s.guardHit g) c) ▸ guardHit_tdiMay s g c
  · split
    · exact .inl (irqRaised_ctx q s c)
    · split
      · exact .inl rfl
      · have h := snoopFirst_ctx s q.pa c
        split
        · next e => rw [e] at h; exact .inl h
        · next e => rw [e] at h; exact .inl ((irqRaised_ctx q _ c).trans ((writePa_ctx _ _ _ _ c).trans h))

theorem postWrite_tdiMay (s : State) (q : Posted) (c : Nat) : TdiMay (s.ctx c) ((s.postWrite q).ctx c) := by
  unfold State.postWrite
  dsimp only
  split
  · exact .inl rfl
  · have h := postedWrite_tdiMay s q c
    split
    · next e => rwa [e] at h
    · next e => rwa [e] at h

theorem hflog_tdiMay (s : State) (l : List Nat) (v c : Nat) : TdiMay (s.ctx c) ((s.hflog l v).ctx c) := by
  unfold State.hflog
  dsimp only
  split
  · exact .inl rfl
  · exact postWrite_tdiMay _ _ c

/-- A frozen context stays so, with its fault, its end and its registers. -/
theorem TdiMay.frozen {x y : Ctx} (h : TdiMay x y) (hs : x.st = .frozen) :
    y.st = .frozen ∧ y.frz.fault = x.frz.fault ∧ y.dying = x.dying ∧ ∀ cls n, y.reg cls n = x.reg cls n := by
  obtain rfl | rfl := h
  · exact ⟨hs, rfl, rfl, fun _ _ => rfl⟩
  · exact ⟨rfl, rfl, rfl, fun cls n => by cases cls <;> rfl⟩

/-! Delivery (R338). -/

/-- What a delivery to the handler of its tenant leaves of a context: the fault record, where and how its handler begins, and all that
it keeps. -/
structure Delivered (x : Ctx) (r : Rec) (tvec : Word) (y : Ctx) (h : Bool) : Prop where
  traps : y.flt = r.withHeld h ∧ y.tretpc = BitVec.ofNat 64 x.pc ∧ y.level = .S ∧ y.plevel = .U ∧ y.intrap = true ∧ y.heldBit = h ∧
    y.pc = tvec.toNat % 2 ^ 56
  freeze : y.frz = { x.frz with fault := none }
  regs   : ∀ cls n, y.reg cls n = x.reg cls n
  tokens : ∀ n, ¬ (r.cls = 0x0C ∧ r.tokenNum = n) → y.token n = x.token n
  queues : y.loadQ = x.loadQ ∧ y.storeQ = x.storeQ ∧ y.inflight = x.inflight
  snap   : r.cls ≠ 7 → y.snap = x.snap ∧ (h = true ↔ ∃ sn, x.snap = some sn ∧ (sn.heldL ≠ [] ∨ sn.heldW ≠ []))

theorem dropSeal_eq (x : Ctx) (r : Rec) : x.dropSeal r = { x with snap := (x.dropSeal r).snap } := by
  unfold Ctx.dropSeal
  split
  · split
    · split <;> rfl
    · rfl
  · rfl

/-- Only the fault of a SHSEAL takes it out of the buffer (Table 24.5). -/
theorem dropSeal_snap {x : Ctx} {r : Rec} (h : r.cls ≠ 7) : (x.dropSeal r).snap = x.snap := by
  unfold Ctx.dropSeal
  split
  · split
    · rw [if_neg (by simp [h])]
    · rfl
  · rfl

theorem holdsEntries_iff (x : Ctx) : x.holdsEntries = true ↔ ∃ sn, x.snap = some sn ∧ (sn.heldL ≠ [] ∨ sn.heldW ≠ []) := by
  unfold Ctx.holdsEntries
  cases x.snap <;> simp

/-- The tokens of a context that is delivered a fault: a token's failure is taken from the token (R338). -/
def tokensAfter (x : Ctx) (r : Rec) : Tbl Tok :=
  if r.cls = 0x0C && r.tokenNum < 64 then (x.setToken r.tokenNum { x.token r.tokenNum with fail := none }).tok else x.tok

theorem tget_tokensAfter {x : Ctx} {r : Rec} {n : Nat} (h : ¬ (r.cls = 0x0C ∧ r.tokenNum = n)) : tget {} (tokensAfter x r) n = x.token n := by
  unfold tokensAfter
  split
  · next hc =>
    simp only [Bool.and_eq_true, decide_eq_true_eq] at hc
    exact tget_tset_ne _ _ _ fun e => h ⟨hc.1, e.symm⟩
  · rfl

theorem enterTrap_eq (x : Ctx) (r : Rec) (v : Word) : x.enterTrap r v = { x with
    snap := (x.dropSeal r).snap, tok := tokensAfter x r, flt := r.withHeld (x.dropSeal r).holdsEntries, tretpc := BitVec.ofNat 64 x.pc,
    heldBit := (x.dropSeal r).holdsEntries, intrap := true, plevel := .U, level := .S, pc := v.toNat % 2 ^ 56, st := .ready,
    exitHeld := x.exiting, exiting := false, frz := { x.frz with fault := none } } := by
  have hd := dropSeal_eq x r
  unfold Ctx.enterTrap tokensAfter
  dsimp only
  generalize (x.dropSeal r).holdsEntries = b
  generalize x.dropSeal r = y at hd
  generalize y.snap = n at hd
  subst hd
  split <;> rfl

theorem enterTrap_delivered (x : Ctx) (r : Rec) (v : Word) : Delivered x r v (x.enterTrap r v) (x.dropSeal r).holdsEntries := by
  rw [enterTrap_eq]
  refine ⟨⟨rfl, rfl, rfl, rfl, rfl, rfl, rfl⟩, rfl, ?_, fun n h => tget_tokensAfter h, ⟨rfl, rfl, rfl⟩, fun h7 => ?_⟩
  · intro cls n; cases cls <;> rfl
  · have hs := dropSeal_snap (x := x) h7
    exact ⟨hs, by rw [holdsEntries_iff, hs]⟩

/-- The state of a context is none of what a delivery says. -/
theorem Delivered.restated {x y : Ctx} {r : Rec} {v : Word} {h : Bool} (hd : Delivered x r v y h) (st : CtxState) :
    Delivered x r v { y with st := st } h :=
  ⟨hd.traps, hd.freeze, fun cls n => (hd.regs cls n) ▸ (by cases cls <;> rfl), hd.tokens, hd.queues, hd.snap⟩

/-- The object that a context runs in is none of what a delivery says. -/
theorem Delivered.entered {x y z : Ctx} {r : Rec} {v : Word} {h : Bool} (hd : Delivered x r v y h) (hz : sameButEntry z y) :
    Delivered x r v z h := by
  rw [hz]
  exact ⟨hd.traps, hd.freeze, fun cls n => (hd.regs cls n) ▸ (by cases cls <;> rfl), hd.tokens, hd.queues, hd.snap⟩

section Delivery
variable {s : State} {c : Nat} {r : Rec} {a : Nat} {b : Bool}

theorem trapDue_of (hf : (s.ctx c).frz.fault = some (r, a, b)) (hd : (s.ctx c).dying = none)
    (hl : ∀ l ∈ (s.ctx c).inflight, l.cls = .a ∨ l.cls = .l) (hw : s.handlerWants c = none) : s.trapDue c = true := by
  have hc : (s.ctx c).captured = true := by
    simp only [Ctx.captured, hf, hd, Option.isSome_some, Option.isNone_none, Bool.true_and, List.all_eq_true]
    intro l hm
    obtain h | h := hl l hm <;> simp [Landing.isReg, h]
  rw [State.trapDue, hc, hw]
  rfl

/-- Whom a fault goes to (R338, R351, R364). -/
theorem handled_iff : s.handled c r = true ↔ (s.ctx c).level = .U ∧ (s.tvec (s.ctx c)).getLsbD 63 = true ∧ r.cls ≠ 0x10 ∧
    ¬ (r.cls = 0x0B ∧ r.code = 9) ∧ s.handlerOk c ((s.tvec (s.ctx c)).toNat % 2 ^ 56) = true := by
  simp [State.handled, and_assoc, imp_iff_not_or]

/-- The context that a delivery puts in its handler: ready, or frozen while another cause holds it. -/
def inHandler (s : State) (c : Nat) (r : Rec) : Ctx :=
  let y := (s.ctx c).enterTrap r (s.tvec (s.ctx c))
  if y.frz.clear then y else { y with st := .frozen }

theorem inHandler_spec : Delivered (s.ctx c) r (s.tvec (s.ctx c)) (inHandler s c r) ((s.ctx c).dropSeal r).holdsEntries ∧
    (inHandler s c r).st = if (inHandler s c r).frz.clear then .ready else .frozen := by
  have hd := enterTrap_delivered (s.ctx c) r (s.tvec (s.ctx c))
  unfold inHandler
  dsimp only
  split
  · exact ⟨hd, by rw [enterTrap_eq]⟩
  · exact ⟨hd.restated _, rfl⟩

theorem struckBad_self (s : State) : s.struckBad s = false := by
  unfold State.struckBad
  split
  · next h => rw [h]; rfl
  · rfl

theorem execTrapDelivery_handled (hf : (s.ctx c).frz.fault = some (r, a, b)) (hdue : s.trapDue c = true) (ha : s.pkg.armed = none)
    (hh : s.handled c r = true) : execTrapDelivery c s = .next ((s.setCtx c (inHandler s c r)).enter c) := by
  unfold execTrapDelivery
  simp only [hf, hdue, hh, Bool.and_self, if_true, strikeCode_calm ha, struckBad_self, Bool.false_eq_true, if_false]
  rfl

theorem execTrapDelivery_unhandled (hf : (s.ctx c).frz.fault = some (r, a, b)) (hdue : s.trapDue c = true)
    (hh : s.handled c r = false) : ∃ l, execTrapDelivery c s = .next (
      if r.cls = 0x0B ∧ r.code = 9 then (s.setCtx c ((s.ctx c).beginDeath r)).hflog l (4 * (s.ctx c).part + 2)
      else s.setCtx c ((s.ctx c).beginDeath r)) := by
  unfold execTrapDelivery
  simp only [hf, hdue, hh, Bool.and_false, Bool.false_eq_true, if_false, if_true, struckBad_self, Bool.and_eq_true, decide_eq_true_eq]
  exact ⟨_, rfl⟩

theorem execTrapDelivery_waits {p : Nat} (h : s.handlerWants c = some p) : execTrapDelivery c s = .next s := by
  have hdue : s.trapDue c = false := by simp [State.trapDue, h]
  unfold execTrapDelivery
  dsimp only
  split
  · rfl
  · simp [hdue]

theorem exec_trapDelivery (c : Nat) (s : State) : exec (.trapDelivery c) s = execTrapDelivery c s := rfl

/-- Delivery to the handler (R338): its context alone changes, as `Delivered` says, and goes on unless another cause holds it. -/
theorem deliversToHandler (hf : (s.ctx c).frz.fault = some (r, a, b)) (hdue : s.trapDue c = true) (ha : s.pkg.armed = none)
    (hh : s.handled c r = true) : ∃ t h, exec (.trapDelivery c) s = .next t ∧ OnlyCtx s t c ∧ t.cur = s.cur ∧
      Delivered (s.ctx c) r (s.tvec (s.ctx c)) (t.ctx c) h ∧ (t.ctx c).st = if (t.ctx c).frz.clear then .ready else .frozen := by
  obtain ⟨honly, -, hctx⟩ := setCtx_onlyCtx s c (inHandler s c r)
  obtain ⟨hrest, hsame⟩ := enter_only (s.setCtx c (inHandler s c r)) c
  obtain ⟨hd, hst⟩ := inHandler_spec (s := s) (c := c) (r := r)
  rw [hctx] at hsame
  refine ⟨_, _, execTrapDelivery_handled hf hdue ha hh, ⟨by rw [hrest.rest]; rfl, fun d hne => ?_⟩, rfl, hd.entered hsame, ?_⟩
  · exact (hrest.others d hne).trans (honly.others d hne)
  · rw [hsame]
    exact hst

/-- The context's end begins (R338, R341). -/
theorem beginsEnd (hf : (s.ctx c).frz.fault = some (r, a, b)) (hdue : s.trapDue c = true) (hh : s.handled c r = false)
    (h2 : ¬ (r.cls = 0x0B ∧ r.code = 9)) : ∃ t h, exec (.trapDelivery c) s = .next t ∧ OnlyCtx s t c ∧ t.cur = s.cur ∧
      t.ctx c = { s.ctx c with dying := some (r.withHeld h), st := .frozen, frz := { (s.ctx c).frz with fault := none } } := by
  obtain ⟨l, hl⟩ := execTrapDelivery_unhandled hf hdue hh
  rw [if_neg h2] at hl
  exact ⟨_, ((s.ctx c).dropSeal r).holdsEntries, hl, setCtx_onlyCtx s c _⟩

/-- A second-stage fault is told to the hypervisor, and its context's end begins (R364). -/
theorem tellsHypervisor (hf : (s.ctx c).frz.fault = some (r, a, b)) (hdue : s.trapDue c = true) (h2 : r.cls = 0x0B ∧ r.code = 9) : ∃ t h,
    exec (.trapDelivery c) s = .next t ∧ Told t (4 * (s.ctx c).part + 2) ∧ (t.ctx c).dying = some (r.withHeld h) ∧ (t.ctx c).st = .frozen ∧
      (t.ctx c).frz.fault = none ∧ ∀ cls n, (t.ctx c).reg cls n = (s.ctx c).reg cls n := by
  have hh : s.handled c r = false := by
    refine Bool.eq_false_iff.mpr fun e => ?_
    obtain ⟨-, -, -, hn, -⟩ := handled_iff.mp e
    exact hn h2
  obtain ⟨l, hl⟩ := execTrapDelivery_unhandled hf hdue hh
  rw [if_pos h2] at hl
  obtain ⟨-, -, hctx⟩ := setCtx_onlyCtx s c ((s.ctx c).beginDeath r)
  obtain ⟨-, hfrozen, hreg⟩ := (s.ctx c).beginDeath_spec r
  obtain ⟨hst, hfault, hdying, hkeep⟩ := (hflog_tdiMay (s.setCtx c ((s.ctx c).beginDeath r)) l (4 * (s.ctx c).part + 2) c).frozen
    (by rw [hctx, hfrozen])
  rw [hctx] at hfault hdying hkeep
  exact ⟨_, ((s.ctx c).dropSeal r).holdsEntries, hl, hflog_told _ _ _, hdying, hst, hfault, fun cls n => (hkeep cls n).trans (hreg cls n)⟩

end Delivery

end Sys2Proof.Proofs
end

section
/-! PROOFS. The end of a context by termination (O50). -/

namespace Sys2Proof.Proofs

open Sys2Proof Sys2Proof.Machine Sys2Proof.Safety

/-! Calls dropped. -/

/-- Calls of one context have been dropped: nothing else goes but what of the context is in flight, and what the calls used. -/
structure CallsDropped (c : Nat) (s t : State) : Prop where
  rest   : t = { s with ctxs := t.ctxs, calls := t.calls, micro := t.micro, users := t.users }
  self   : t.ctx c = { s.ctx c with inflight := (t.ctx c).inflight }
  others : ∀ d, d ≠ c → t.ctx d = s.ctx d

theorem dropCall_dropped (s : State) (k : Call) : CallsDropped k.ctx s (s.dropCall k) := by
  have hself : (s.dropCall k).ctx k.ctx =
      { s.ctx k.ctx with inflight := (s.ctx k.ctx).inflight.filter fun l => !(l.cls = .a && l.src = k.id) } :=
    State.ctx_setCtx_self _ _ _
  exact ⟨rfl, by rw [hself], fun d hd => State.ctx_setCtx_ne _ _ hd⟩

theorem CallsDropped.trans {c : Nat} {s t u : State} (h : CallsDropped c s t) (g : CallsDropped c t u) : CallsDropped c s u := by
  refine ⟨?_, ?_, fun d hd => (g.others d hd).trans (h.others d hd)⟩
  · have hu := g.rest
    rw [h.rest] at hu
    exact hu
  · rw [g.self, h.self]

theorem dropCalls_dropped {c : Nat} {l : List Call} (hl : ∀ k ∈ l, k.ctx = c) (s : State) :
    CallsDropped c s (l.foldl State.dropCall s) := by
  refine List.foldlRecOn l State.dropCall ⟨rfl, rfl, fun _ _ => rfl⟩ fun t ht k hk => ht.trans ?_
  rw [← hl k hk]
  exact dropCall_dropped t k

theorem mem_dropCalls (l : List Call) : ∀ (s : State) {j : Call}, j ∈ (l.foldl State.dropCall s).calls → j ∈ s.calls ∧ j ∉ l := by
  induction l with
  | nil => exact fun s j h => ⟨h, List.not_mem_nil⟩
  | cons k l ih =>
    intro s j h
    obtain ⟨hj, hl⟩ := ih (s.dropCall k) h
    have hj : j ∈ s.calls.filter fun i => !(i.id = k.id) := hj
    obtain ⟨hs, hk⟩ := List.mem_filter.mp hj
    refine ⟨hs, fun hm => (List.mem_cons.mp hm).elim ?_ hl⟩
    rintro rfl
    simp at hk

/-! Grants dropped. -/

/-- What holds of the default and of every entry kept holds of what is read. -/
theorem tget_filter_value {α : Type} {d : α} (p : α → Bool) (hd : p d = true) (n : Nat) :
    ∀ t : Tbl α, p (tget d (t.filter fun e => p e.2) n) = true
  | [] => hd
  | (k, v) :: t => by
    have ih := tget_filter_value p hd n t
    cases hv : p v with
    | false => rwa [List.filter_cons_of_neg (by simp [hv])]
    | true =>
      rw [List.filter_cons_of_pos (by simp [hv]), tget]
      split
      · exact hv
      · exact ih

/-- The core of a context whose grants are dropped. -/
theorem core_dropGrants (s : State) (c : Nat) : ∃ k : Core, (s.dropGrants c).core (coreOf c) =
    { k with accs := k.accs.filter (fun a => !(a.2.holder = some c)), lats := k.lats.filter fun l => !(l.2.holder = some c) } :=
  ⟨_, tget_tset_self _ _ _ _⟩

theorem holdsAcc_dropGrants (s : State) (c a : Nat) : (s.dropGrants c).holdsAcc c a = false := by
  obtain ⟨k, hk⟩ := core_dropGrants s c
  have h := tget_filter_value (d := ({} : AccTile)) (fun x => !(x.holder = some c)) (by simp) a k.accs
  rw [State.holdsAcc, hk]
  simpa using h

theorem holdsLat_dropGrants (s : State) (c l : Nat) : (s.dropGrants c).holdsLat c l = false := by
  obtain ⟨k, hk⟩ := core_dropGrants s c
  have h := tget_filter_value (d := ({} : LatchT)) (fun x => !(x.holder = some c)) (by simp) l k.lats
  rw [State.holdsLat, hk]
  simpa using h

/-! The quire breaks. -/

/-- A quire that no counted episode names breaks, and poisons none (R374). -/
theorem breakQuire_quiet {s : State} {n : Nat} (h : ∀ ep ∈ s.eps, ep.count = 0 ∨ n ∉ ep.quires) :
    s.breakQuire n = s.updQuire n fun q => { q with broken := true } := by
  unfold State.breakQuire
  dsimp only
  refine List.foldlRecOn (motive := fun t => t = s.updQuire n fun q => { q with broken := true }) _ _ rfl fun t ht ep hep => ?_
  rw [if_neg, ht]
  obtain h0 | hn := h ep hep
  · simp [h0]
  · simp [hn]

theorem quire_updQuire_broken {s : State} {n : Nat} {q : Quire} (h : (s.updQuire n fun q => { q with broken := true }).quire n = some q) :
    q.broken = true := by
  unfold State.quire State.updQuire mapIf at h
  rw [findFirst_eq_find?] at h
  have hq : (q.id = n) := by simpa using List.find?_some h
  obtain ⟨x, -, rfl⟩ := List.mem_map.mp (List.mem_of_find?_eq_some h)
  split at hq
  · next hx => rw [if_pos hx]
  · next hx => exact absurd (decide_eq_true hq) hx

/-! CONTEXT_TERMINATE (R341). -/

/-- The state in which a context has given up its calls and its grants. -/
def released (s : State) (c : Nat) : State := ((s.calls.filter fun k => k.ctx = c).foldl State.dropCall s).dropGrants c

/-- A context that has come to its end: nothing is left of what it waited for, held, looped in or had in flight. -/
def ended (x : Ctx) : Ctx :=
  { x with
    st := .retired, frames := [], frameWait := false, dying := none, snap := none, frz := {}, holds := [], loops := [], depth := 0,
    maps := [], stop := none, block := .none, inflight := [], replay := [], ucap := [], exiting := false, pendFault := none, age := 0,
    aged := false }

section Released
variable (s : State) (c : Nat)

theorem callsDropped : CallsDropped c s ((s.calls.filter fun k => k.ctx = c).foldl State.dropCall s) :=
  dropCalls_dropped (fun _ hk => by simpa using (List.mem_filter.mp hk).2) s

/-- Partitions, quires, episodes, memory and the package are none of what a context gives up. -/
theorem released_keeps : (released s c).parts = s.parts ∧ (released s c).quires = s.quires ∧ (released s c).eps = s.eps ∧
    (released s c).mem = s.mem ∧ (released s c).pkg = s.pkg := by
  have hd := (callsDropped s c).rest
  have hf := dropGrants_frees ((s.calls.filter fun k => k.ctx = c).foldl State.dropCall s) c
  unfold released
  rw [hf]
  dsimp only
  rw [hd]
  exact ⟨rfl, rfl, rfl, rfl, rfl⟩

theorem released_self : (released s c).ctx c = { s.ctx c with inflight := ((released s c).ctx c).inflight } := by
  rw [released, ctx_dropGrants]
  exact (callsDropped s c).self

theorem released_others {d : Nat} (hd : d ≠ c) : (released s c).ctx d = s.ctx d :=
  (ctx_dropGrants _ c d).trans ((callsDropped s c).others d hd)

theorem released_calls {k : Call} (hk : k ∈ (released s c).calls) : k.ctx ≠ c := by
  have hk : k ∈ ((s.calls.filter fun k => k.ctx = c).foldl State.dropCall s).calls := by
    rw [released, dropGrants_frees _ c] at hk
    exact hk
  obtain ⟨hs, hn⟩ := mem_dropCalls _ s hk
  exact fun he => hn (List.mem_filter.mpr ⟨hs, decide_eq_true he⟩)

end Released

/-- What CONTEXT_TERMINATE leaves: the context has ended, its frames are its partition's again, and its quire is broken (R341, R374). -/
def afterEnd (s : State) (c : Nat) : State :=
  ((released s c).updPart (s.ctx c).part fun p => { p with frames := p.frames ++ (s.ctx c).frames }).setCtx c (ended (s.ctx c))
    |>.updQuire (s.ctx c).quire fun q => { q with broken := true }

theorem endContext_eq {s : State} {c : Nat} (h : ∀ ep ∈ s.eps, ep.count = 0 ∨ (s.ctx c).quire ∉ ep.quires) :
    s.endContext c = afterEnd s c := by
  obtain ⟨-, -, heps, -, -⟩ := released_keeps s c
  have hself := released_self s c
  have hpart := congrArg Ctx.part hself
  have hframes := congrArg Ctx.frames hself
  have hquire := congrArg Ctx.quire hself
  have hended : ended ((released s c).ctx c) = ended (s.ctx c) := (congrArg ended hself).trans rfl
  dsimp only at hpart hframes hquire
  show (((released s c).updPart ((released s c).ctx c).part fun p => { p with frames := p.frames ++ ((released s c).ctx c).frames }).setCtx c
    (ended ((released s c).ctx c))).breakQuire ((released s c).ctx c).quire = _
  rw [hpart, hframes, hquire, hended, breakQuire_quiet (heps ▸ h)]
  rfl

section AfterEnd
variable (s : State) (c : Nat)

theorem afterEnd_self : (afterEnd s c).ctx c = ended (s.ctx c) := by
  rw [afterEnd, ctx_updQuire, State.ctx_setCtx_self]

theorem afterEnd_others {d : Nat} (hd : d ≠ c) : (afterEnd s c).ctx d = s.ctx d := by
  rw [afterEnd, ctx_updQuire, State.ctx_setCtx_ne _ _ hd]
  exact released_others s c hd

theorem afterEnd_pkg : (afterEnd s c).pkg = s.pkg := by
  obtain ⟨-, -, -, -, hpkg⟩ := released_keeps s c
  exact hpkg

theorem afterEnd_calls {k : Call} (hk : k ∈ (afterEnd s c).calls) : k.ctx ≠ c := released_calls s c hk

theorem afterEnd_holdsAcc (a : Nat) : (afterEnd s c).holdsAcc c a = false := holdsAcc_dropGrants _ c a

theorem afterEnd_holdsLat (l : Nat) : (afterEnd s c).holdsLat c l = false := holdsLat_dropGrants _ c l

theorem afterEnd_quire {q : Quire} (hq : (afterEnd s c).quire (s.ctx c).quire = some q) : q.broken = true := quire_updQuire_broken hq

theorem afterEnd_part (p : Nat) : (afterEnd s c).part p =
    if p = (s.ctx c).part then { s.part p with frames := (s.part p).frames ++ (s.ctx c).frames } else s.part p := by
  have hp : ∀ n, (released s c).part n = s.part n := fun n => by rw [State.part, (released_keeps s c).1]; rfl
  unfold afterEnd
  rw [part_updQuire, State.part_setCtx, State.updPart_eq]
  split
  · next h => rw [h, State.part_setPart_self, hp]
  · next h => rw [State.part_setPart_ne _ _ h, hp]

theorem afterEnd_frames : ((afterEnd s c).part (s.ctx c).part).frames = (s.part (s.ctx c).part).frames ++ (s.ctx c).frames := by
  rw [afterEnd_part, if_pos rfl]

theorem afterEnd_rawByte (a : Nat) : (afterEnd s c).rawByte a = s.rawByte a := by
  obtain ⟨-, -, -, hmem, -⟩ := released_keeps s c
  refine rawByte_congr (t := afterEnd s c) ?_ (fun p => ?_) a
  · exact hmem
  rw [afterEnd_part]
  split <;> rfl

end AfterEnd

theorem deathDue_of {s : State} {c : Nat} {r : Rec} (hd : (s.ctx c).dying = some r) (hl : (s.ctx c).loadQ = []) (hs : (s.ctx c).storeQ = [])
    (hi : ∀ l ∈ (s.ctx c).inflight, l.cls = .a ∨ l.cls = .l) (he : ∀ e ∈ s.cmds, e.ctx ≠ c)
    (hk : ∀ k ∈ s.calls, k.ctx = c → k.stopped.isSome = true) : s.deathDue c = true := by
  have hreg : ∀ l ∈ (s.ctx c).inflight, l.isReg = false := fun l hm => by
    obtain h | h := hi l hm <;> simp [Landing.isReg, h]
  simp only [State.deathDue, hd, hl, hs, Option.isSome_some, List.isEmpty_nil, Bool.true_and, Bool.and_eq_true, List.all_eq_true,
    Bool.not_eq_true', List.any_eq_false, decide_eq_true_eq, Bool.or_eq_true, decide_eq_false_iff_not]
  exact ⟨⟨hreg, he⟩, fun k hm => (Decidable.em (k.ctx = c)).elim (fun h => .inr (hk k hm h)) .inl⟩

theorem writeRecord_recorded {s : State} {c : Nat} (r : Rec) (h : ∀ q, s.quire (s.ctx c).quire = some q → q.recorded = true) :
    s.writeRecord c r = (s, true) := by
  unfold State.writeRecord
  dsimp only
  split
  · next q hq => rw [if_pos (h q hq)]
  · rfl

theorem exec_contextTerminate (c : Nat) (s : State) : exec (.contextTerminate c) s = execContextTerminate c s := rfl

/-- CONTEXT_TERMINATE of a context whose commands and calls are over, and whose quire has its record (R341). -/
theorem terminates {s : State} {c : Nat} {r : Rec} (hd : (s.ctx c).dying = some r) (hdue : s.deathDue c = true)
    (hq : ∀ q, s.quire (s.ctx c).quire = some q → q.recorded = true)
    (he : ∀ ep ∈ s.eps, ep.count = 0 ∨ (s.ctx c).quire ∉ ep.quires) :
    exec (.contextTerminate c) s = .next (afterEnd (s.raise (4 * (s.ctx c).part + 1)) c) := by
  rw [exec_contextTerminate, execContextTerminate, hd]
  dsimp only
  rw [if_pos hdue, writeRecord_recorded r hq]
  dsimp only
  rw [endContext_eq (s := s.raise _) he]

/-- Settles O50: what FAULT_FREEZE looks at is the next bundle alone (`look_fault`), a delivery is one context rewritten and, for a
second-stage fault, one write of the device's own that leaves it frozen (`hflog_tdiMay`), and a termination is `afterEnd`. -/
theorem faultDelivery : Obligations.FaultDelivery := by
  unfold Obligations.FaultDelivery
  intro s c
  refine ⟨?freeze, ?delivery, fun p h => execTrapDelivery_waits h, ?termination⟩
  case freeze =>
    intro e hst hex hdy hbu hbl hstop hf hlw ht hcase
    have hi : Issues s c := ⟨hst, hex, hdy, hstop, hbu, by simp [State.heldUp, hbl, hlw, ht]⟩
    obtain ⟨n, hx, h10, h13, rfl⟩ | ⟨n, sl, o, hx, rfl⟩ | ⟨h, size, b, hx, hE, hB, hw, he⟩ := hcase
    · exact faultFreezes hi (.xlate hx rfl) hf (by simp) fun _ => ⟨h10, h13⟩
    · exact faultFreezes hi (.ill hx rfl) hf (by simp) (by simp)
    · exact faultFreezes hi (.bundle hx hw he) hf hE fun h => absurd h hB
  case delivery =>
    intro r a b hf hdy hl ha hw
    have hdue := trapDue_of hf hdy hl hw
    refine ⟨fun hU hen hcls h2 hok => ?handler, fun hno h2 => ?ends, fun hcls hcode => tellsHypervisor hf hdue ⟨hcls, hcode⟩⟩
    case handler =>
      obtain ⟨t, h, ht, honly, hcur, hd, hst⟩ := deliversToHandler hf hdue ha (handled_iff.mpr ⟨hU, hen, hcls, h2, hok⟩)
      obtain ⟨hflt, hpcs, hlevel, hplevel, hintrap, hheld, hpc⟩ := hd.traps
      obtain ⟨hlq, hsq, hin⟩ := hd.queues
      refine ⟨t, h, ht, honly, hcur, hflt, hpcs, hlevel, hplevel, hintrap, hheld, hpc, hd.freeze, fun h1 h2 h3 h4 => ?_, fun hor => ?_,
        hd.regs, hd.tokens, hlq, hsq, hin, hd.snap⟩
      · rw [hst, if_pos]
        rw [clear_iff, hd.freeze]
        exact ⟨h1, h2, rfl, h3, h4⟩
      · rw [hst, if_neg]
        rw [clear_iff, hd.freeze]
        rintro ⟨h1, h2, -, -, h4⟩
        obtain h | h | h := hor
        · exact Bool.false_ne_true (h1.symm.trans h)
        · exact Bool.false_ne_true (h2.symm.trans h)
        · exact Bool.false_ne_true (h4.symm.trans h)
    case ends =>
      refine beginsEnd hf hdue (Bool.eq_false_iff.mpr fun e => ?_) h2
      obtain ⟨hU, hen, hcls, -, hok⟩ := handled_iff.mp e
      obtain h | h | h | h := hno
      · exact h hU
      · exact Bool.false_ne_true (h.symm.trans hen)
      · exact hcls h
      · exact Bool.false_ne_true (h.symm.trans hok)
  case termination =>
    intro r hd hl hs hi he hk hq hep
    exact ⟨_, terminates hd (deathDue_of hd hl hs hi he hk) hq hep,
      by rw [afterEnd_pkg]; exact List.mem_cons_self,
      afterEnd_self _ c, fun d hne => afterEnd_others _ c hne, fun k hk => afterEnd_calls _ c hk,
      fun a _ => afterEnd_holdsAcc _ c a, fun l _ => afterEnd_holdsLat _ c l, afterEnd_frames _ c, fun q hq => afterEnd_quire _ c hq,
      afterEnd_rawByte _ c⟩

end Sys2Proof.Proofs
end

section
/-! PROOFS. Results of the scalar forms of slots A and B (O20, O21). -/

namespace Sys2Proof.Proofs

open Sys2Proof Sys2Proof.Machine Sys2Proof.Safety

/-- A scalar form completes with what its effect computes of a and b. -/
theorem scalarResult_of {mk : ABW → Instr} {e g : Bool → Nat → Int → Int → Int}
    (hx : ∀ w s, exec (mk w) s = s.runOp (mk w) fun s r => s.scalarOp r w e) (hg : ∀ sg n a b, e sg n a b = g sg n a b) :
    ScalarResult mk g := by
  intro s k w f h
  rw [← hg]
  exact resultLands_of ((hx w s).trans (State.runOp_performs h _ _))

/-! The results of Table 10.3 that the model computes another way. -/

theorem ite_lt_eq_min (a b : Int) : (if b < a then b else a) = min a b := by
  split <;> omega

theorem ite_lt_eq_max (a b : Int) : (if a < b then b else a) = max a b := by
  split <;> omega

/-- Saturation to the range of a type. -/
theorem clampI_range (sg : Bool) (n : Nat) (x : Int) : clampI (loI sg n) (hiI sg n) x = max (loI sg n) (min (hiI sg n) x) := by
  have hlo := loI_nonpos sg n
  have hhi := hiI_nonneg sg n
  unfold clampI
  split
  · omega
  · split <;> omega

theorem shrR_eq (sg : Bool) (n : Nat) (a b : Int) : shrR sg n a b =
    if (b % 128).toNat < n then a / ((2 ^ (b % 128).toNat : Nat) : Int) else if sg = true ∧ a < 0 then -1 else 0 := by
  simp only [shrR, Bool.and_eq_true, decide_eq_true_eq]

/-- Settles O20: each form completes with its own function of a and b (`scalarResult_of`). -/
theorem scalarArithmetic : Obligations.ScalarArithmetic := by
  unfold Obligations.ScalarArithmetic
  refine ⟨?mov, ?add, ?sub, ?mul, ?mulh, ?div, ?rem, ?min, ?max, ?adds, ?subs⟩
  case min => exact scalarResult_of (fun _ _ => rfl) fun _ _ => ite_lt_eq_min
  case max => exact scalarResult_of (fun _ _ => rfl) fun _ _ => ite_lt_eq_max
  case adds => exact scalarResult_of (fun _ _ => rfl) fun sg n a b => clampI_range sg n (a + b)
  case subs => exact scalarResult_of (fun _ _ => rfl) fun sg n a b => clampI_range sg n (a - b)
  all_goals exact scalarResult_of (fun _ _ => rfl) fun _ _ _ _ => rfl

/-- Settles O21: each form completes with its own function of a and b; EXT reads its field from the whole first source. -/
theorem scalarBits : Obligations.ScalarBits := by
  unfold Obligations.ScalarBits
  refine ⟨?and, ?or, ?xor, ?shl, ?shr, ?clz, ?popc, fun s k w f h => ?ext⟩
  case shr => exact scalarResult_of (fun _ _ => rfl) shrR_eq
  case ext => exact resultLands_of (State.runOp_performs h _ _)
  all_goals exact scalarResult_of (fun _ _ => rfl) fun _ _ _ _ => rfl

end Sys2Proof.Proofs
end

section
/-! PROOFS. Comparison and selection (O23). -/

namespace Sys2Proof.Proofs

open Sys2Proof Sys2Proof.Machine Sys2Proof.Safety

/-- All ones of a width that is not a numeral, so that nothing evaluates the power. -/
theorem allOnes_toNat (n : Nat) : (BitVec.allOnes n).toNat = 2 ^ n - 1 := BitVec.toNat_allOnes

theorem predAll_toNat (b : Bool) : (predAll b).toNat = if b = true then 2 ^ 512 - 1 else 0 := by
  cases b
  · exact BitVec.toNat_zero (w := 512)
  · exact allOnes_toNat 512

/-- A guard holds where there is none, or where bit 0 of its predicate differs from SENSE (R30). -/
theorem guard_iff (x : Ctx) (p : BitVec 7) (sense : Bool) :
    x.guard p sense = true ↔ p = 0x7F ∨ (x.pred p.toNat).getLsbD 0 ≠ sense := by
  unfold Ctx.guard
  split
  · next h => exact iff_of_true rfl (.inl h)
  · next h => rw [bne_iff_ne, or_iff_right h]

/-- SEL is element-wise to its guard: nothing suppresses it as a whole (R195). -/
theorem performs_sel {s : State} {k : Cur} {w : ABW} {f : Form} (h : Acts s k (.sel w) f) : Performs s k (.sel w) f := by
  refine ⟨h, ?_⟩
  obtain rfl : selForm w = f := Option.some.inj h.form
  rfl

/-- Settles O23: CMP fills its predicate with one bit, and SEL, which always performs, chooses by its guard. -/
theorem compareAndSelect : Obligations.CompareAndSelect := by
  unfold Obligations.CompareAndSelect
  refine ⟨fun s k w f h => ?cmp, fun s k w f h => ?sel⟩
  case cmp =>
    show ResultLands s k (.cmp w) f .p
      (if condInt (cmpCond w) ((opOf k (.cmp w) f).sA w) ((opOf k (.cmp w) f).cmpB w) = true then 2 ^ 512 - 1 else 0)
    rw [← predAll_toNat]
    exact resultLands_of (State.runOp_performs h _ _)
  case sel =>
    simp only [← guard_iff]
    exact resultLands_of (State.runOp_performs (performs_sel h) _ _)

end Sys2Proof.Proofs
end

section
/-! PROOFS. The address, set-up and parameter forms of slot B (O24). -/

namespace Sys2Proof.Proofs

open Sys2Proof Sys2Proof.Machine Sys2Proof.Safety

/-! One field of a set's image rewritten. -/

/-- Bits [m + k − 1 : m] depend on the bits below m + k alone. -/
theorem div_mod_congr_low {a b m k l : Nat} (h : a % 2 ^ l = b % 2 ^ l) (hl : m + k ≤ l) : a / 2 ^ m % 2 ^ k = b / 2 ^ m % 2 ^ k := by
  have hd : 2 ^ m * 2 ^ k ∣ 2 ^ l := Nat.pow_add 2 m k ▸ Nat.pow_dvd_pow 2 hl
  rw [← Nat.mod_mul_right_div_self, ← Nat.mod_mul_right_div_self, ← Nat.mod_mod_of_dvd a hd, h, Nat.mod_mod_of_dvd b hd]

/-- Bits from m on depend on the bits from any l below m on alone. -/
theorem div_congr_high {a b m l : Nat} (h : a / 2 ^ l = b / 2 ^ l) (hl : l ≤ m) : a / 2 ^ m = b / 2 ^ m := by
  obtain ⟨d, rfl⟩ := Nat.exists_eq_add_of_le hl
  rw [Nat.pow_add, ← Nat.div_div_eq_div_mul, ← Nat.div_div_eq_div_mul, h]

theorem add_two_pow_mul_lt {x y l m : Nat} (hx : x < 2 ^ l) (hy : y < 2 ^ m) : x + 2 ^ l * y < 2 ^ (l + m) := by
  calc x + 2 ^ l * y < 2 ^ l + 2 ^ l * y := Nat.add_lt_add_right hx _
    _ = 2 ^ l * (y + 1) := by rw [Nat.mul_add, Nat.mul_one, Nat.add_comm]
    _ ≤ 2 ^ l * 2 ^ m := Nat.mul_le_mul_left _ hy
    _ = 2 ^ (l + m) := (Nat.pow_add 2 l m).symm

/-- For a width that is not a numeral, so that nothing evaluates the power. -/
theorem toNat_ofNat_of_lt {x n : Nat} (h : x < 2 ^ n) : (BitVec.ofNat n x).toNat = x := Nat.mod_eq_of_lt h

section Put
variable (a : BitVec 512) {l n : Nat} (v : Nat)

/-- The image with one field rewritten: what lies below the field, the new value, and what lies above. -/
theorem agPut_toNat (h : l + n ≤ 512) :
    (agPut a l n v).toNat = a.toNat % 2 ^ l + 2 ^ l * (v % 2 ^ n + 2 ^ n * (a.toNat / 2 ^ (l + n))) := by
  have hsplit : a.toNat % 2 ^ l + 2 ^ l * (a.toNat / 2 ^ l % 2 ^ n + 2 ^ n * (a.toNat / 2 ^ (l + n))) = a.toNat := by
    rw [Nat.pow_add, ← Nat.div_div_eq_div_mul, Nat.mod_add_div, Nat.mod_add_div]
  have hsum : a.toNat - a.toNat / 2 ^ l % 2 ^ n * 2 ^ l + v % 2 ^ n * 2 ^ l =
      a.toNat % 2 ^ l + 2 ^ l * (v % 2 ^ n + 2 ^ n * (a.toNat / 2 ^ (l + n))) := by
    rw [Nat.mul_add] at hsplit ⊢
    rw [Nat.mul_comm _ (2 ^ l), Nat.mul_comm _ (2 ^ l)]
    omega
  have htop : a.toNat / 2 ^ (l + n) < 2 ^ (512 - (l + n)) := by
    rw [Nat.div_lt_iff_lt_mul (Nat.two_pow_pos _), ← Nat.pow_add, Nat.sub_add_cancel h]
    exact a.isLt
  have hlt : a.toNat % 2 ^ l + 2 ^ l * (v % 2 ^ n + 2 ^ n * (a.toNat / 2 ^ (l + n))) < 2 ^ 512 := by
    have hpow := add_two_pow_mul_lt (Nat.mod_lt a.toNat (Nat.two_pow_pos l))
      (add_two_pow_mul_lt (Nat.mod_lt v (Nat.two_pow_pos n)) htop)
    rwa [← Nat.add_assoc, Nat.add_sub_cancel' h] at hpow
  unfold agPut
  rw [hsum]
  exact toNat_ofNat_of_lt hlt

/-- The field itself holds the value, cut to its width. -/
theorem agPut_self (h : l + n ≤ 512) : (agPut a l n v).toNat / 2 ^ l % 2 ^ n = v % 2 ^ n := by
  rw [agPut_toNat a v h, Nat.add_mul_div_left _ _ (Nat.two_pow_pos l),
    Nat.div_eq_of_lt (Nat.mod_lt _ (Nat.two_pow_pos l)), Nat.zero_add, Nat.add_mul_mod_self_left, Nat.mod_mod]

/-- A field below or above is as it was. -/
theorem agPut_other (h : l + n ≤ 512) {m k : Nat} (hd : m + k ≤ l ∨ l + n ≤ m) :
    (agPut a l n v).toNat / 2 ^ m % 2 ^ k = a.toNat / 2 ^ m % 2 ^ k := by
  have hput := agPut_toNat a v h
  obtain hd | hd := hd
  · refine div_mod_congr_low ?_ hd
    rw [hput, Nat.add_mul_mod_self_left, Nat.mod_mod]
  · refine congrArg (· % 2 ^ k) (div_congr_high ?_ hd)
    rw [hput, Nat.pow_add, ← Nat.div_div_eq_div_mul, Nat.add_mul_div_left _ _ (Nat.two_pow_pos l),
      Nat.div_eq_of_lt (Nat.mod_lt _ (Nat.two_pow_pos l)), Nat.zero_add, Nat.add_mul_div_left _ _ (Nat.two_pow_pos n),
      Nat.div_eq_of_lt (Nat.mod_lt _ (Nat.two_pow_pos n)), Nat.zero_add]

/-- A field takes the low bits of the value alone. -/
theorem agPut_congr {v w : Nat} (h : v % 2 ^ n = w % 2 ^ n) : agPut a l n v = agPut a l n w := by
  unfold agPut
  rw [h]

end Put

/-! Several fields, one after another. -/

/-- Each field of a list (its lowest bit, its width, its value) written into an image. -/
def agPuts (a : BitVec 512) (ws : List (Nat × Nat × Nat)) : BitVec 512 := ws.foldl (fun a e => agPut a e.1 e.2.1 e.2.2) a

/-- The fields that AGIND writes, from the bits of its immediate. -/
theorem agPut_flags (a : BitVec 512) (h f : Nat) :
    agPut (agPut (agPut (agPut a 448 8 h) 456 2 (f % 4)) 458 1 (bits f 3 3)) 459 1 (bits f 2 2) =
      agPuts a [(448, 8, h), (456, 2, f), (458, 1, f / 8), (459, 1, f / 4)] := by
  have hdim : f % 4 % 2 ^ 2 = f % 2 ^ 2 := Nat.mod_mod f 4
  have hen : bits f 3 3 % 2 ^ 1 = f / 8 % 2 ^ 1 := Nat.mod_mod (f / 8) 2
  have hwide : bits f 2 2 % 2 ^ 1 = f / 4 % 2 ^ 1 := Nat.mod_mod (f / 4) 2
  simp only [agPuts, List.foldl_cons, List.foldl_nil]
  rw [agPut_congr _ hdim, agPut_congr _ hen, agPut_congr _ hwide]

/-- Fields of Table 4.3 lie within the image, and two of them apart. -/
theorem agFields_apart : ∀ x ∈ agFields, x.1 + x.2 ≤ 512 ∧
    ∀ y ∈ agFields, y.1 ≠ x.1 → y.1 + y.2 ≤ x.1 ∨ x.1 + x.2 ≤ y.1 := by decide

section Puts
variable {ws : List (Nat × Nat × Nat)} (hf : ∀ e ∈ ws, (e.1, e.2.1) ∈ agFields)
include hf

theorem agPuts_other {l n : Nat} (hl : (l, n) ∈ agFields) (hne : ∀ e ∈ ws, e.1 ≠ l) (a : BitVec 512) :
    (agPuts a ws).toNat / 2 ^ l % 2 ^ n = a.toNat / 2 ^ l % 2 ^ n := by
  induction ws generalizing a with
  | nil => rfl
  | cons e ws ih =>
    obtain ⟨hin, hapart⟩ := agFields_apart _ (hf e List.mem_cons_self)
    refine (ih (fun x hx => hf x (List.mem_cons_of_mem _ hx)) (fun x hx => hne x (List.mem_cons_of_mem _ hx)) _).trans ?_
    exact agPut_other a _ hin (hapart _ hl (hne e List.mem_cons_self).symm)

theorem agPuts_mem (hd : (ws.map Prod.fst).Nodup) {l n v : Nat} (hm : (l, n, v) ∈ ws) (a : BitVec 512) :
    (agPuts a ws).toNat / 2 ^ l % 2 ^ n = v % 2 ^ n := by
  induction ws generalizing a with
  | nil => exact absurd hm List.not_mem_nil
  | cons e ws ih =>
    have hf' := fun x hx => hf x (List.mem_cons_of_mem e hx)
    obtain ⟨hnew, hd'⟩ := List.nodup_cons.mp hd
    obtain rfl | hm := List.mem_cons.mp hm
    · have hl := hf _ List.mem_cons_self
      refine (agPuts_other hf' hl (fun x hx he => hnew (he ▸ List.mem_map_of_mem hx)) _).trans ?_
      exact agPut_self a v (agFields_apart _ hl).1
    · exact ih hf' hd' hm _

/-- A set-up form whose effect is to write fields of Table 4.3. -/
theorem setsFields_of (hd : (ws.map Prod.fst).Nodup) {s : State} {k : Cur} {i : Instr} {f : Form}
    (h : exec i s = .next ((opened s k f).setSet (opOf k i f) fun a => agPuts a ws)) : SetsFields s k i f ws :=
  ⟨_, resultLands_of h, fun _ _ _ hm => agPuts_mem hf hd hm _, fun _ _ hl hne => agPuts_other hf hl hne _⟩

end Puts

/-! The forms. -/

/-- The fields of each dimension (Table 4.3): COUNT, STRIDE and IDX. -/
theorem dimension_fields : ∀ d < 4,
    (64 + 32 * d, 32) ∈ agFields ∧ (192 + 32 * d, 32) ∈ agFields ∧ (320 + 32 * d, 32) ∈ agFields := by decide

theorem bits_word (x i : Nat) : bits x (64 * i + 63) (64 * i) = x / 2 ^ (64 * i) % 2 ^ 64 := by
  rw [bits, show 64 * i + 63 + 1 - 64 * i = 64 by omega]

/-- Settles O24: a set-up form writes a list of fields of Table 4.3, and every other form has one result. -/
theorem setUpAndParameterForms : Obligations.SetUpAndParameterForms := by
  unfold Obligations.SetUpAndParameterForms
  refine ⟨⟨fun s k w f h => ?agbase, fun s k w f h => ?agdim, fun s k w f h => ?agidx, fun s k w f h => ?agind,
    fun s k w f h => ?agmode, fun s k w f h => ?agclr⟩, fun s k w f h => ?adr, fun s k w f h => ?agrd, fun s k w f h => ?mpset,
    fun s k w f h => ?mprd⟩
  case agbase => exact setsFields_of (by simp [agFields]) (by simp) (State.runOp_performs h _ _)
  case agdim =>
    obtain ⟨hcount, hstride, -⟩ := dimension_fields (w.imm15.toNat % 4) (Nat.mod_lt _ (by decide))
    exact setsFields_of (by simp [hcount, hstride]) (by simp) (State.runOp_performs h _ _)
  case agidx =>
    obtain ⟨-, -, hidx⟩ := dimension_fields (w.imm15.toNat % 4) (Nat.mod_lt _ (by decide))
    exact setsFields_of (by simp [hidx]) (by simp) (State.runOp_performs h _ _)
  case agind =>
    refine setsFields_of (by simp [agFields]) (by simp) ((State.runOp_performs h _ _).trans
      (congrArg (fun g => Host.Outcome.next ((opened s k f).setSet (opOf k (.agind w) f) g))
        (funext fun a => agPut_flags a w.src1.toNat w.imm15.toNat)))
  case agmode =>
    refine setsFields_of (by simp [agFields]) (by simp) ((State.runOp_performs h _ _).trans
      (congrArg (fun g => Host.Outcome.next ((opened s k f).setSet (opOf k (.agmode w) f) g)) (funext fun a => ?_)))
    simp only [agPuts, List.foldl_cons, List.foldl_nil]
    exact agPut_congr a (Nat.mod_mod _ 2)
  case agclr =>
    have hzero : (0 : BitVec 512).toNat = 0 := BitVec.toNat_zero
    rw [← hzero]
    exact resultLands_of (State.runOp_performs h _ _)
  case adr =>
    rw [← sext_toNat]
    exact resultLands_of (State.runOp_performs h _ _)
  case agrd =>
    rw [← bits_word]
    exact resultLands_of (State.runOp_performs h _ _)
  case mpset => exact resultLands_of (State.runOp_performs h _ _)
  case mprd => exact resultLands_of (State.runOp_performs h _ _)

end Sys2Proof.Proofs
end

section
/-! PROOFS. Transfers of control, loops, waits and addresses (O40 to O42). -/

namespace Sys2Proof.Proofs

open Sys2Proof Sys2Proof.Machine Sys2Proof.Safety

section Context
variable {s : State} {k : Cur} {i : Instr} {f : Form}

/-- A result put in flight by the operation of a bundle, `s0` or not. -/
theorem opened_result (s : State) (k : Cur) (f : Form) (cls : Cls) (v : Nat) : (opened s k f).result k.ctx f cls v =
    (opened s k f).setCtx k.ctx
      { latched s k f with inflight := (s.ctx k.ctx).inflight ++ newLanding s k f cls f.lat (some v) 0 } := by
  unfold State.result newLanding
  rw [State.land_eq]
  by_cases hz : cls = .s ∧ f.dst = 0
  · rw [if_pos ⟨hz.1, hz.2, rfl⟩, if_pos hz, List.append_nil]
    exact (setCtx_setCtx _ _ _ _).symm
  · rw [if_neg fun e => hz ⟨e.1, e.2.1⟩, if_neg hz, opened_ctx_self]
    rfl

theorem ctxBecomes_of {g : Ctx → Ctx} (h : exec i s = .next ((opened s k f).updCtx k.ctx g)) : CtxBecomes s k i f g := by
  rw [State.updCtx_eq, opened_ctx_self] at h
  exact ⟨_, h, opened_setCtx_only s k f _, rfl, State.ctx_setCtx_self _ _ _⟩

theorem ctxBecomes_id_of (h : exec i s = .next (opened s k f)) : CtxBecomes s k i f fun x => x :=
  ⟨_, h, opened_only s k f, rfl, opened_ctx_self s k f⟩

theorem jumpTo_cur {t : State} {j : Cur} (h : t.cur = some j) (a : Nat) (b : Bool) :
    t.jumpTo a b = { t with cur := some { j with jump := some a, branch := b } } := by
  unfold State.jumpTo
  rw [h]

/-- A transfer, once its context has changed. -/
theorem transfers_of {x : Ctx} {g : Ctx → Ctx} {a : Nat} {b : Bool}
    (h : exec i s = .next (((opened s k f).setCtx k.ctx x).jumpTo a b)) (hx : x = g (latched s k f)) : Transfers s k i f a b g := by
  have hcur : ((opened s k f).setCtx k.ctx x).cur = some (acted k) := rfl
  obtain ⟨hrest, hothers⟩ := opened_setCtx_only s k f x
  rw [jumpTo_cur hcur] at h
  exact ⟨_, h, ⟨rfl, hothers⟩, rfl, (State.ctx_setCtx_self _ _ _).trans hx⟩

/-- A transfer that leaves its context as it is. -/
theorem transfers_id_of {a : Nat} {b : Bool} (h : exec i s = .next ((opened s k f).jumpTo a b)) :
    Transfers s k i f a b fun x => x := by
  refine transfers_of (x := latched s k f) ?_ rfl
  rw [h]
  exact congrArg (fun t : State => Host.Outcome.next (t.jumpTo a b)) (setCtx_setCtx _ _ _ _).symm

/-- A call (R188): the link in flight, one level deeper. -/
theorem transfers_of_callTo {a : Nat} (h : exec i s = .next ((opened s k f).callTo (opOf k i f) a)) :
    Transfers s k i f a false fun x => { x with
      inflight := x.inflight ++ newLanding s k f .s f.lat (some (k.h + k.size)) 0, depth := (x.depth + 1) % 2 ^ 16 } := by
  refine transfers_of (x := _) ?_ rfl
  rw [h]
  unfold State.callTo
  dsimp only
  rw [show (opOf k i f).c = k.ctx from rfl, show (opOf k i f).f = f from rfl, opened_result, State.updCtx_eq, State.ctx_setCtx_self,
    setCtx_setCtx]
  rfl

end Context

/-- Settles O40: each transfer changes its context and tells its bundle where control goes. -/
theorem controlTransfers : Obligations.ControlTransfers := by
  unfold Obligations.ControlTransfers
  intro s k f w call
  refine ⟨fun h => ?br, fun h => ?bri, fun h => ?call, fun h => ?calli, fun h => ?ret⟩
  case br => exact transfers_id_of (State.runOp_performs h _ _)
  case bri => exact transfers_id_of (State.runOp_performs h _ _)
  case call => exact transfers_of_callTo (State.runOp_performs h _ _)
  case calli => exact transfers_of_callTo (State.runOp_performs h _ _)
  case ret =>
    refine transfers_of (State.runOp_performs h _ _) ?_
    rw [show (opOf k (.ret w) f).c = k.ctx from rfl, opened_ctx_self]

/-! Addresses (R220, R188). -/

theorem addrOf_spec (base index u : Nat) (d : BitVec 8) : addrOf base index u d < 2 ^ 64 ∧
    ((addrOf base index u d : Nat) : Int) = ((base : Int) + (index : Int) + (u : Int) * d.toInt) % ((2 ^ 64 : Nat) : Int) := by
  refine ⟨wrapN_lt _ 64, ?_⟩
  rw [addrOf, natCast_wrapN, sext_toNat, Int.natCast_add]

theorem dispTarget_spec (h : Nat) (d : BitVec 24) : dispTarget h d < 2 ^ 64 ∧
    ((dispTarget h d : Nat) : Int) = ((h : Int) + 8 * d.toInt) % ((2 ^ 64 : Nat) : Int) := by
  refine ⟨wrapN_lt _ 64, ?_⟩
  rw [dispTarget, natCast_wrapN, dispInt, sext_toNat]

/-- Settles O41: an address is a sum modulo 2^64, of the operands that each form names in its unit. -/
theorem addressArithmetic : Obligations.AddressArithmetic := by
  unfold Obligations.AddressArithmetic
  exact ⟨⟨addrOf_spec, fun _ _ _ => ⟨rfl, rfl, rfl, rfl, rfl⟩, fun _ _ _ => ⟨rfl, rfl, rfl, rfl, rfl⟩⟩, dispTarget_spec⟩

/-! Loops and waits. -/

/-- The end of a YIELD (R191). -/
theorem exec_yieldExpiry_due {s : State} {c n : Nat} (hb : (s.ctx c).block = .yield n) (hd : n ≤ s.now c ∨ (s.ctx c).stop.isSome) :
    exec (.yieldExpiry c) s = .next (s.setCtx c
      { s.ctx c with block := .none, st := if (s.ctx c).st = .blocked then .ready else (s.ctx c).st }) := by
  show execYieldExpiry c s = _
  unfold execYieldExpiry
  simp only [hb]
  exact congrArg _ (if_pos hd)

/-- Settles O42: LOOP by whether its count is zero, YIELD by whether its number is. -/
theorem loopsAndWaits : Obligations.LoopsAndWaits := by
  unfold Obligations.LoopsAndWaits
  intro s k f w
  refine ⟨fun h => ?loop, fun h => ?exit, fun h => ?yield, fun h => ?wait, fun c n hb hd => ?expiry⟩
  case loop =>
    have hx := State.runOp_performs h (fun s r => if r.src 0 = 0 then s.jumpTo (dispTarget r.k.h w.imm24) false else
      s.updCtx r.c fun x => { x with loops := ⟨r.after, dispTarget r.k.h w.imm24, r.src 0, x.depth⟩ :: x.loops }) noSup
    split
    · next hz => exact transfers_id_of (hx.trans (congrArg _ (if_pos hz)))
    · next hz => exact ctxBecomes_of (hx.trans (congrArg _ (if_neg hz)))
  case exit => exact ctxBecomes_of (State.runOp_performs h _ _)
  case yield =>
    have hx : exec (.yield w) s = _ := State.runOp_performs h _ _
    split
    · next hz => exact ctxBecomes_id_of (hx.trans (congrArg _ (if_pos hz)))
    · next hz => exact ctxBecomes_of (hx.trans (congrArg _ (if_neg hz)))
  case wait => exact ctxBecomes_id_of (State.runOp_performs h _ _)
  case expiry => exact ⟨_, exec_yieldExpiry_due hb hd, setCtx_onlyCtx s c _⟩

end Sys2Proof.Proofs
end

section
/-! PROOFS. TRAP at the end of its bundle, and the return from a trap (O43). -/

namespace Sys2Proof.Proofs

open Sys2Proof Sys2Proof.Machine Sys2Proof.Safety

/-! TRAP (R193). -/

theorem onlyCtx_trans {s t u : State} {c : Nat} (h : OnlyCtx s t c) (g : OnlyCtx t u c) : OnlyCtx s u c := by
  refine ⟨?_, fun d hd => (g.others d hd).trans (h.others d hd)⟩
  have e := g.rest
  rw [h.rest] at e
  exact e

/-- A fault taken while no bundle is being issued leaves none. -/
theorem takeFault_no_bundle {s : State} {c : Nat} {f : FaultInfo} {b : Bool} (h : s.cur = none) :
    OnlyCtx s (s.takeFault c f b) c ∧ (s.takeFault c f b).cur = none := by
  refine ⟨State.takeFault_only s c f b, ?_⟩
  unfold State.takeFault
  dsimp only
  rw [State.setCtx_cur, h]
  split <;> exact h

section Trap
variable {s : State} {k : Cur} {n : Nat}

/-- What the end of a bundle that trapped takes. -/
def trapInfo (k : Cur) (n : Nat) : FaultInfo :=
  { cls := 0x0D, code := n, slot := 0, pc := k.h, opc := n, delayed := true, id := k.trapId }

/-- The end of the same bundle without its TRAP, and one empty issue cycle. -/
def trapFinds (s : State) (k : Cur) : State :=
  (s.finishBundle { k with trap := none }).updCtx k.ctx fun x =>
    { x with bubble := (s.finishBundle { k with trap := none }).now k.ctx + 2 }

theorem finishBundle_trap (ht : k.trap = some n) : s.finishBundle k = (trapFinds s k).takeFault k.ctx (trapInfo k n) false := by
  unfold trapFinds State.finishBundle
  rw [ht]
  rfl

theorem trapFinds_only : OnlyCtx s (trapFinds s k) k.ctx ∧ (trapFinds s k).cur = none := by
  obtain ⟨⟨hrest, hothers⟩, hcur, -, -⟩ := finishBundle_spec (s := s) (k := { k with trap := none }) rfl
  unfold trapFinds
  refine ⟨⟨?_, fun d hd => (State.ctx_setCtx_ne _ _ hd).trans (hothers d hd)⟩, hcur⟩
  rw [hrest]
  rfl

/-- Where control goes touches neither the state of a context nor its faults. -/
theorem advance_keeps (x : Ctx) (k : Cur) (now : Nat) :
    (x.advance k now).st = x.st ∧ (x.advance k now).dying = x.dying ∧ (x.advance k now).frz = x.frz := by
  unfold Ctx.advance
  split <;> exact ⟨rfl, rfl, rfl⟩

/-- The loop-end step has run (R193), and the context runs as it did. -/
theorem trapFinds_ctx : ((trapFinds s k).ctx k.ctx).pc = ((s.ctx k.ctx).advance k (s.now k.ctx)).pc ∧
    ((trapFinds s k).ctx k.ctx).st = (s.ctx k.ctx).st ∧ ((trapFinds s k).ctx k.ctx).dying = (s.ctx k.ctx).dying ∧
    ((trapFinds s k).ctx k.ctx).frz = (s.ctx k.ctx).frz := by
  obtain ⟨-, -, hsame, -⟩ := finishBundle_spec (s := s) (k := { k with trap := none }) rfl
  obtain ⟨hst, hdying, hfrz⟩ := advance_keeps (s.ctx k.ctx) { k with trap := none } (s.now k.ctx)
  rw [trapFinds, State.updCtx_eq, State.ctx_setCtx_self, hsame]
  exact ⟨rfl, hst, hdying, hfrz⟩

theorem step_traps (hp : s.phase = .issue) (hc : s.cur = some k) (hl : k.todo = []) (ht : k.trap = some n)
    (hs : (s.ctx k.ctx).st = .ready) (hd : (s.ctx k.ctx).dying = none) (hf : (s.ctx k.ctx).frz.fault = none) : ∃ t r,
      step s = .next t ∧ OnlyCtx s t k.ctx ∧ t.cur = none ∧ (t.ctx k.ctx).st = .frozen ∧
        (t.ctx k.ctx).frz.fault = some (r, s.now k.ctx + 1, false) ∧ r.cls = 0x0D ∧ r.code = n % 2 ^ 16 ∧
        r.pc = BitVec.ofNat 64 k.h ∧ (t.ctx k.ctx).pc = ((s.ctx k.ctx).advance k (s.now k.ctx)).pc := by
  have hstep := (step_ends hp hc hl).trans (congrArg _ (finishBundle_trap ht))
  obtain ⟨honly, hcur⟩ := trapFinds_only (s := s) (k := k)
  obtain ⟨hpc, hst, hdying, hfrz⟩ := trapFinds_ctx (s := s) (k := k)
  have hcol : (trapFinds s k).freezeCol k.ctx = s.now k.ctx + 1 := by
    rw [honly.rest]
    exact if_pos (by simp [State.issuing, hp])
  have hcls := mkRec_cls k.ctx ((trapFinds s k).ctx k.ctx) (trapInfo k n)
  have hcode := mkRec_code k.ctx ((trapFinds s k).ctx k.ctx) (trapInfo k n)
  obtain ⟨htaken, hnone⟩ := takeFault_no_bundle (c := k.ctx) (f := trapInfo k n) (b := false) hcur
  have hx := takeFault_late (s := trapFinds s k) (trapInfo k n) rfl (by rw [hst, hs]; rfl) (hdying.trans hd)
  rw [hcol, Ctx.freezeAt_first _ _ _ _ _ ((congrArg Freeze.fault hfrz).trans hf)] at hx
  refine ⟨_, _, hstep, onlyCtx_trans honly htaken, hnone, ?_, ?_, hcls, hcode, rfl, ?_⟩
  · rw [hx]
  · rw [hx]
  · rw [hx]
    exact hpc

end Trap

/-! TRET (R340). -/

section Return
variable {s : State} {k : Cur} {w : CW} {f : Form}

theorem setReg_keeps (x : Ctx) (c : Cls) (n v : Nat) : let y := x.setReg c n v
    y = { x with s := y.s, v := y.v, p := y.p, ag := y.ag, m := y.m } := by
  cases c
  case s =>
    dsimp only [Ctx.setReg]
    split <;> rfl
  all_goals rfl

/-- Results replayed change registers and the results in flight, and are no longer to be replayed. -/
theorem replayAt_keeps (x : Ctx) (now : Nat) : let y := x.replayAt now
    y = { x with s := y.s, v := y.v, p := y.p, ag := y.ag, m := y.m, inflight := y.inflight, replay := [] } := by
  intro y
  refine List.foldlRecOn (motive := fun y : Ctx =>
    y = { x with s := y.s, v := y.v, p := y.p, ag := y.ag, m := y.m, inflight := y.inflight, replay := [] }) _ _ rfl fun t ht l _ => ?_
  split
  · next v _ =>
    have hset := setReg_keeps t l.cls l.idx v
    dsimp only at hset ⊢
    rw [hset, ht]
  · exact ht

/-- What TRET makes of its context: the return, and, where an EXIT is in force again, the replay (log 20). -/
def returned (x : Ctx) (now : Nat) : Ctx := if x.trapReturn.exiting then x.trapReturn.replayAt now else x.trapReturn

theorem returned_keeps (x : Ctx) (now : Nat) : let y := returned x now
    y = { x.trapReturn with s := y.s, v := y.v, p := y.p, ag := y.ag, m := y.m, inflight := y.inflight, replay := y.replay } := by
  intro y
  unfold y returned
  split
  · rw [replayAt_keeps]
  · rfl

/-- What the return gives back beside level, program counter and INTRAP. -/
theorem trapReturn_fields (x : Ctx) : let y := x.trapReturn
    y.heldBit = false ∧ y.exiting = (x.exiting || x.exitHeld) ∧ y.inflight = x.inflight ∧
      ∀ sn, x.snap = some sn →
        y.snap = none ∧ y.holds = sn.holds ∧ y.loops = sn.loops ∧ y.depth = sn.depth ∧ y.ratio = sn.ratio ∧
        y.loadQ = sn.heldL ++ x.loadQ ∧ y.storeQ = sn.heldW ++ x.storeQ ∧ y.replay = sn.results := by
  unfold Ctx.trapReturn
  dsimp only
  split
  · next sn hs =>
    refine ⟨rfl, rfl, rfl, fun sn' hs' => ?_⟩
    obtain rfl : sn = sn' := Option.some.inj (hs.symm.trans hs')
    exact ⟨rfl, rfl, rfl, rfl, rfl, rfl, rfl, rfl⟩
  · next hs => exact ⟨rfl, rfl, rfl, fun sn' hs' => absurd (hs.symm.trans hs') nofun⟩

theorem returned_spec (x : Ctx) (now : Nat) : let y := returned x now
    y.level = x.plevel ∧ y.intrap = false ∧ y.heldBit = false ∧ y.exiting = (x.exiting || x.exitHeld) ∧
      (y.exiting = false → y = x.trapReturn) := by
  intro y
  have e : y = { x.trapReturn with
    s := y.s, v := y.v, p := y.p, ag := y.ag, m := y.m, inflight := y.inflight, replay := y.replay } := returned_keeps x now
  obtain ⟨hheld, hexiting, -⟩ := trapReturn_fields x
  obtain ⟨hlevel, -, hintrap, -⟩ := x.trapReturn_spec
  have hy : y.exiting = (x.exiting || x.exitHeld) := (congrArg Ctx.exiting e).trans hexiting
  refine ⟨(congrArg Ctx.level e).trans hlevel, (congrArg Ctx.intrap e).trans hintrap, (congrArg Ctx.heldBit e).trans hheld, hy,
    fun hq => if_neg ?_⟩
  rw [hexiting, ← hy, hq]
  exact Bool.false_ne_true

/-- What the snapshot buffer holds goes back (R340). -/
theorem returned_snap {x : Ctx} {sn : Snap} (now : Nat) (h : x.snap = some sn) : let y := returned x now
    y.snap = none ∧ y.holds = sn.holds ∧ y.loops = sn.loops ∧ y.depth = sn.depth ∧ y.ratio = sn.ratio ∧
      y.loadQ = sn.heldL ++ x.loadQ ∧ y.storeQ = sn.heldW ++ x.storeQ ∧
      (y.exiting = false → y.replay = sn.results ∧ y.inflight = x.inflight) := by
  intro y
  have e : y = { x.trapReturn with
    s := y.s, v := y.v, p := y.p, ag := y.ag, m := y.m, inflight := y.inflight, replay := y.replay } := returned_keeps x now
  obtain ⟨-, -, -, -, hquiet⟩ := returned_spec x now
  obtain ⟨-, -, hinflight, hsnap⟩ := trapReturn_fields x
  obtain ⟨hnone, hholds, hloops, hdepth, hratio, hloadQ, hstoreQ, hreplay⟩ := hsnap sn h
  refine ⟨(congrArg Ctx.snap e).trans hnone, (congrArg Ctx.holds e).trans hholds, (congrArg Ctx.loops e).trans hloops,
    (congrArg Ctx.depth e).trans hdepth, (congrArg Ctx.ratio e).trans hratio, (congrArg Ctx.loadQ e).trans hloadQ,
    (congrArg Ctx.storeQ e).trans hstoreQ, fun hq => ?_⟩
  rw [show y = _ from hquiet hq]
  exact ⟨hreplay, hinflight⟩

/-- The state that TRET leaves: its context returned, its calls' pipes to retry their walks, and a transfer to TRETPC. -/
def returnedState (s : State) (k : Cur) (f : Form) : State :=
  { (opened s k f).setCtx k.ctx (returned (latched s k f) (s.now k.ctx + 2)) with
    calls := s.calls.map fun c => if c.ctx = k.ctx then { c with stopped := none } else c
    cur := some { acted k with jump := some (s.ctx k.ctx).tretpc.toNat, branch := false } }

theorem exec_tret (h : Performs s k (.tret w) f) : exec (.tret w) s = .next (returnedState s k f) := by
  refine (State.runOp_performs h _ _).trans (congrArg _ ?_)
  dsimp only
  rw [State.updCtx_eq, show (opOf k (.tret w) f).c = k.ctx from rfl, opened_ctx_self, jumpTo_cur (j := acted k) rfl]
  unfold State.retryWalks mapIf
  simp only [decide_eq_true_eq]
  rfl

end Return

/-- Settles O43: the end of a bundle that trapped is its end without the TRAP, then a fault taken (`finishBundle_trap`); a return is
`Ctx.trapReturn`, and the replay that an EXIT in force again brings. -/
theorem trapAndReturn : Obligations.TrapAndReturn := by
  unfold Obligations.TrapAndReturn
  intro s k f w
  refine ⟨fun h => ?trap, fun n => step_traps, fun h => ?tret⟩
  case trap => exact ⟨_, State.runOp_performs h _ _, ⟨rfl, fun _ hd => opened_ctx_ne s k f hd⟩, opened_ctx_self s k f, rfl⟩
  case tret =>
    have hself : (returnedState s k f).ctx k.ctx = returned (latched s k f) (s.now k.ctx + 2) := State.ctx_setCtx_self _ _ _
    obtain ⟨hlevel, hintrap, hheld, hexiting, hquiet⟩ := returned_spec (latched s k f) (s.now k.ctx + 2)
    obtain ⟨-, -, -, hreg⟩ := (latched s k f).trapReturn_spec
    refine ⟨_, exec_tret h, rfl, rfl, fun d hd => ?_, ?_⟩
    · exact (State.ctx_setCtx_ne _ _ hd).trans (opened_ctx_ne s k f hd)
    · rw [hself]
      refine ⟨hlevel, hintrap, hheld, rfl, hexiting, fun hq cls n => ?_, fun sn hs => returned_snap (x := latched s k f) _ hs⟩
      rw [hquiet hq, hreg]
      cases cls <;> rfl

end Sys2Proof.Proofs
end

section
/-! PROOFS. Reads and writes of the system registers (O44). -/

namespace Sys2Proof.Proofs

open Sys2Proof Sys2Proof.Machine Sys2Proof.Safety

/-! Reads do not see the hold latches that their own operation sets. -/

/-- Nothing but contexts and the bundle differs, and context `c` in its hold latches alone. -/
structure LatchesOnly (s t : State) (c : Nat) : Prop where
  rest : t = { s with ctxs := t.ctxs, cur := t.cur }
  ctx  : t.ctx c = { s.ctx c with holds := (t.ctx c).holds }

theorem latchesOnly_opened (s : State) (k : Cur) (f : Form) : LatchesOnly s (opened s k f) k.ctx :=
  ⟨rfl, by rw [opened_ctx_self]; rfl⟩

section Latches
variable {s t : State} {c : Nat}

theorem LatchesOnly.sysReg (h : LatchesOnly s t c) (n : Nat) : t.sysReg c n = s.sysReg c n := by
  obtain ⟨hr, hx⟩ := h
  unfold State.sysReg
  rw [hx, hr]
  rfl

theorem LatchesOnly.atDawn (h : LatchesOnly s t c) : LatchesOnly s.atDawn t.atDawn c := by
  obtain ⟨hr, hx⟩ := h
  have hd : t.dawn = s.dawn := by rw [hr]
  unfold State.atDawn
  rw [hd]
  split
  · exact ⟨by rw [hr], rfl⟩
  · exact ⟨hr, hx⟩

theorem LatchesOnly.dawnOf (h : LatchesOnly s t c) : LatchesOnly (s.dawnOf c) (t.dawnOf c) c := by
  obtain ⟨dr, dx⟩ := h.atDawn
  obtain ⟨hr, hx⟩ := h
  have hst : (t.atDawn.ctx c).st = (s.atDawn.ctx c).st := by rw [dx]
  have hnow : t.core (coreOf c) = s.core (coreOf c) := by rw [hr]; rfl
  have hdawn : t.atDawn.core (coreOf c) = s.atDawn.core (coreOf c) := by rw [dr]; rfl
  unfold State.dawnOf
  dsimp only
  rw [hst, hnow, hdawn]
  split
  · refine ⟨by rw [dr]; rfl, ?_⟩
    simp only [State.ctx_setCore, State.ctx_setCtx_self]
    exact hx
  · exact ⟨dr, dx⟩

theorem LatchesOnly.sysSeen (h : LatchesOnly s t c) (n : Nat) : t.sysSeen c n = s.sysSeen c n := by
  unfold State.sysSeen
  rw [h.sysReg, h.dawnOf.sysReg]

end Latches

/-! What a context holds of a core (R80). -/

section Held
variable {α : Type} [DecidableEq α] (d : α)

/-- Entries laid over a table leave the keys they do not name. -/
theorem tget_overlay_of_not_mem {l : Tbl α} {n : Nat} (h : ∀ e ∈ l, e.1 ≠ n) (t : Tbl α) :
    tget d (l.foldl (fun t e => tset d t e.1 e.2) t) n = tget d t n :=
  List.foldlRecOn (motive := fun u => tget d u n = tget d t n) l _ rfl fun _ hu e he =>
    (tget_tset_ne d _ _ (h e he).symm).trans hu

/-- What they name reads as one of them. -/
theorem tget_overlay_of_mem {l : Tbl α} {n : Nat} {p : α → Prop} (hp : ∀ e ∈ l, p e.2) (h : ∃ e ∈ l, e.1 = n) (t : Tbl α) :
    p (tget d (l.foldl (fun t e => tset d t e.1 e.2) t) n) := by
  induction l generalizing t with
  | nil => exact absurd h (by simp)
  | cons e l ih =>
    have hp' := fun x hx => hp x (List.mem_cons_of_mem e hx)
    by_cases hl : ∃ e ∈ l, e.1 = n
    · exact ih hp' hl _
    · have hn : e.1 = n := by simpa [hl] using h
      refine (tget_overlay_of_not_mem d (fun x hx hxn => hl ⟨x, hx, hxn⟩) _).symm ▸ ?_
      rw [← hn, tget_tset_self]
      exact hp e List.mem_cons_self

end Held

theorem withHeld_accs_of_not_held {x y : Core} {c n : Nat} (h : ∀ e ∈ y.accs, e.1 = n → e.2.holder ≠ some c) :
    tget {} (x.withHeld y c).accs n = tget {} x.accs n :=
  tget_overlay_of_not_mem _ (fun e he hn => by
    obtain ⟨hin, hheld⟩ := List.mem_filter.mp he
    exact h e hin hn (of_decide_eq_true hheld)) _

theorem withHeld_lats_of_not_held {x y : Core} {c n : Nat} (h : ∀ e ∈ y.lats, e.1 = n → e.2.holder ≠ some c) :
    tget {} (x.withHeld y c).lats n = tget {} x.lats n :=
  tget_overlay_of_not_mem _ (fun e he hn => by
    obtain ⟨hin, hheld⟩ := List.mem_filter.mp he
    exact h e hin hn (of_decide_eq_true hheld)) _

theorem withHeld_accs_of_held {x y : Core} {c n : Nat} (h : ∃ e ∈ y.accs, e.1 = n ∧ e.2.holder = some c) :
    (tget {} (x.withHeld y c).accs n).holder = some c := by
  obtain ⟨e, hin, hn, hheld⟩ := h
  exact tget_overlay_of_mem (p := fun a : AccTile => a.holder = some c) _ (fun e he => of_decide_eq_true (List.mem_filter.mp he).2)
    ⟨e, List.mem_filter.mpr ⟨hin, decide_eq_true hheld⟩, hn⟩ _

theorem withHeld_lats_of_held {x y : Core} {c n : Nat} (h : ∃ e ∈ y.lats, e.1 = n ∧ e.2.holder = some c) :
    (tget {} (x.withHeld y c).lats n).holder = some c := by
  obtain ⟨e, hin, hn, hheld⟩ := h
  exact tget_overlay_of_mem (p := fun a : LatchT => a.holder = some c) _ (fun e he => of_decide_eq_true (List.mem_filter.mp he).2)
    ⟨e, List.mem_filter.mpr ⟨hin, decide_eq_true hheld⟩, hn⟩ _

/-! The reads. -/

section Reads
variable {s : State} {k : Cur} {f : Form} {w : CW}

theorem atDawn_opened_owner (o : Nat) : (opened s k f).atDawn.owner o = s.atDawn.owner o := by
  rw [(latchesOnly_opened s k f).atDawn.rest]
  rfl

theorem atDawn_opened_occ : (opened s k f).atDawn.occ = s.atDawn.occ := by
  rw [(latchesOnly_opened s k f).atDawn.rest]

theorem sysrd_lands (h : Performs s k (.sysrd w) f) : ResultLands s k (.sysrd w) f .s (s.sysSeen k.ctx w.imm24.toNat) := by
  rw [← (latchesOnly_opened s k f).sysSeen]
  exact resultLands_of (State.runOp_performs h _ _)

theorem ownrd_lands (h : Performs s k (.ownrd w) f) :
    ResultLands s k (.ownrd w) f .s ((s.atDawn.owner ((opOf k (.ownrd w) f).src 1)).read w.imm24.toNat) := by
  rw [← atDawn_opened_owner (f := f)]
  exact resultLands_of (State.runOp_performs h _ _)

theorem occrd_lands (h : Performs s k (.occrd w) f) : ResultLands s k (.occrd w) f .s
    (tget 0 s.atDawn.occ (256 * bits ((opOf k (.occrd w) f).src 1) 25 16 + (opOf k (.occrd w) f).src 1 % 256) % 2 ^ 11) := by
  rw [← atDawn_opened_occ (f := f)]
  exact resultLands_of (State.runOp_performs h _ _)

/-- Which registers read as the cycle began, and which as they stand (log 18). -/
theorem sysSeen_now (c n : Nat) (h : n = 0 ∨ n = 1 ∨ n = 4 ∨ 0x16 ≤ n) : s.sysSeen c n = s.sysReg c n :=
  if_pos (by simpa [or_assoc] using h)

theorem sysSeen_dawn (c n : Nat) (h2 : 2 ≤ n) (h4 : n ≠ 4) (h : n < 0x16) : s.sysSeen c n = (s.dawnOf c).sysReg c n :=
  if_neg (by simp; omega)

theorem dawnOf_running {c : Nat} (he : (s.atDawn.ctx c).st ≠ .empty) (hc : (s.atDawn.ctx c).st ≠ .claimed) : s.dawnOf c = s.atDawn :=
  if_neg (by simp [he, hc])

theorem dawnOf_beginning {c : Nat} (h : (s.atDawn.ctx c).st = .empty ∨ (s.atDawn.ctx c).st = .claimed) :
    s.dawnOf c = (s.atDawn.setCtx c (s.ctx c)).setCore (coreOf c) ((s.atDawn.core (coreOf c)).withHeld (s.core (coreOf c)) c) :=
  if_pos (by simpa using h)

theorem atDawn_none (h : s.dawn = none) : s.atDawn = s := by
  unfold State.atDawn
  rw [h]

theorem atDawn_some {d : Dawn} (h : s.dawn = some d) : s.atDawn = { s with
    ctxs := d.ctxs, cores := d.cores, calls := d.calls, cols := d.cols, parts := d.parts, owners := d.owners, occ := d.occ,
    pkg := d.pkg } := by
  unfold State.atDawn
  rw [h]

/-- The latencies that a selector of OWNRD reads, four to a word. -/
theorem owner_read_lat (o : Owner) {n : Nat} (h : n < 16) : o.read (n + 1) =
    tget 0 o.lat (4 * n) + tget 0 o.lat (4 * n + 1) * 2 ^ 16 + tget 0 o.lat (4 * n + 2) * 2 ^ 32 + tget 0 o.lat (4 * n + 3) * 2 ^ 48 := by
  have hle : n + 1 ≤ 16 := h
  simp [Owner.read, hle, upto, List.range_succ, sumN, Nat.add_assoc]

end Reads

/-! The writes. -/

section Writes
variable {s : State} {k : Cur} {i : Instr} {f : Form}

theorem pkgBecomes_of {g : Pkg → Pkg} (h : exec i s = .next ((opened s k f).updPkg g)) : PkgBecomes s k i f g := by
  obtain ⟨hc, hx, ho⟩ := opened_also s k f
  exact ⟨_, h, ⟨hc, hx, ho⟩, rfl⟩

/-- A partition form whose partition is the context's own. -/
theorem partBecomes_own_of {g : Part → Part} (h : exec i s = .next ((opened s k f).updPart ((opened s k f).ctx k.ctx).part g)) :
    PartBecomes s k i f (s.ctx k.ctx).part g := by
  rw [opened_ctx_self] at h
  exact partBecomes_of h

/-- A partition with TVEC of tenant `n` written (Table 10.7). -/
def withTvec (n v : Nat) (x : Part) : Part :=
  let d : Tenant := tget {} x.tenants n
  let e : Tenant := { d with tvec := BitVec.ofNat 64 (bits v 63 63 * 2 ^ 63 + v % 2 ^ 56) }
  { x with tenants := tset {} x.tenants n e }

/-- SYSWR of each register that it writes (R198, Table 10.7). -/
theorem syswr_becomes {w : CW} (h : Performs s k (.syswr w) f) : let v := (opOf k (.syswr w) f).src 1
    (w.imm24 = 0x12 → PartBecomes s k (.syswr w) f (s.ctx k.ctx).part fun x => { x with lbxdrop := v % 2 ^ 32 }) ∧
    (w.imm24 = 0x13 → PkgBecomes s k (.syswr w) f fun x => { x with tlim := v % 2 ^ 16 }) ∧
    (w.imm24 = 0x14 → PartBecomes s k (.syswr w) f (s.ctx k.ctx).part fun x =>
      let n := (s.ctx k.ctx).tenant
      let d : Tenant := tget {} x.tenants n
      let e : Tenant := { d with tvec := BitVec.ofNat 64 (bits v 63 63 * 2 ^ 63 + v % 2 ^ 56) }
      { x with tenants := tset {} x.tenants n e }) ∧
    (w.imm24 = 0x15 → PkgBecomes s k (.syswr w) f fun x => { x with hflogBase := bits v 51 12, hflogNpg := v % 256 }) ∧
    (w.imm24 = 0x1E → CtxBecomes s k (.syswr w) f fun x => { x with tscra := BitVec.ofNat 64 v }) ∧
    (w.imm24 = 0x1F → CtxBecomes s k (.syswr w) f fun x => { x with tscrb := BitVec.ofNat 64 v }) := by
  intro v
  have hx (n : BitVec 24) (hn : w.imm24 = n) : exec (.syswr w) s = .next ((opened s k f).sysWrite k.ctx n.toNat v) :=
    hn ▸ State.runOp_performs h _ _
  refine ⟨fun hn => ?lbxdrop, fun hn => ?tlim, fun hn => ?tvec, fun hn => ?hflog, fun hn => ?tscra, fun hn => ?tscrb⟩
  case lbxdrop => exact partBecomes_own_of (hx _ hn)
  case tlim => exact pkgBecomes_of (hx _ hn)
  case tvec =>
    have hw : exec (.syswr w) s = .next ((opened s k f).updPart ((opened s k f).ctx k.ctx).part
      (withTvec ((opened s k f).ctx k.ctx).tenant v)) := hx _ hn
    rw [opened_ctx_self] at hw
    exact partBecomes_of hw
  case hflog => exact pkgBecomes_of (hx _ hn)
  case tscra => exact ctxBecomes_of (hx _ hn)
  case tscrb => exact ctxBecomes_of (hx _ hn)

end Writes

/-- Settles O44: reads see the state as it was before their own latches (`LatchesOnly`), and each write is the change of one register. -/
theorem systemRegisters : Obligations.SystemRegisters := by
  unfold Obligations.SystemRegisters
  refine ⟨⟨fun s k f w => ⟨sysrd_lands, ownrd_lands, occrd_lands⟩, fun s c n => ?seen,
    fun o => ⟨rfl, rfl, fun n => owner_read_lat o⟩,
    fun s c => ⟨rfl, rfl, rfl, rfl, rfl, rfl, rfl, rfl, rfl, rfl, rfl⟩⟩, fun s k f w => ?writes⟩
  case seen =>
    refine ⟨sysSeen_now c n, sysSeen_dawn c n, dawnOf_running, dawnOf_beginning, fun x y n => ?_, atDawn_none, fun d => atDawn_some⟩
    exact ⟨withHeld_accs_of_not_held, withHeld_lats_of_not_held, withHeld_accs_of_held, withHeld_lats_of_held⟩
  intro p v
  refine ⟨syswr_becomes, fun h => ?govload, fun h => ?tretpc, fun h => ?tstat⟩
  case govload => exact partBecomes_own_of (State.runOp_performs h _ _)
  case tretpc => exact ctxBecomes_of (State.runOp_performs h _ _)
  case tstat =>
    have hx : exec (.tstatWrite w) s = _ := State.runOp_performs h _ _
    by_cases hv : (v (.tstatWrite w)).testBit 3 = true
    · simp only [hv, if_true]
      exact ctxBecomes_of (hx.trans (congrArg _ (if_pos hv)))
    · simp only [hv]
      exact ctxBecomes_id_of (hx.trans (congrArg _ (if_neg hv)))

end Sys2Proof.Proofs
end

section
/-! PROOFS. Folds of writes over the entries of a table (O46, O47). -/

namespace Sys2Proof.Proofs

open Sys2Proof Sys2Proof.Machine Sys2Proof.Safety

variable {α : Type} [DecidableEq α] (d : α)

/-- Every key of a list rewritten by `g`, once or again where it stands twice: a key stands in the relation `P` to what it was, if
`g` brings it there and keeps it there; the others are as they were. -/
theorem tget_foldl_tset {P : Nat → α → α → Prop} {g : Nat → α → α}
    (hg : ∀ n x y, y = x ∨ P n x y → P n x (g n y)) (t : Tbl α) (n : Nat) (l : List Nat) :
    let u := l.foldl (fun t m => tset d t m (g m (tget d t m))) t
    (n ∈ l → P n (tget d t n) (tget d u n)) ∧ (n ∉ l → tget d u n = tget d t n) := by
  induction l using List.reverseRecOn with
  | nil => exact ⟨nofun, fun _ => rfl⟩
  | append_singleton l m ih =>
    obtain ⟨hin, hout⟩ := ih
    simp only [List.foldl_append, List.foldl_cons, List.foldl_nil, List.mem_append, List.mem_singleton]
    by_cases hm : n = m
    · subst hm
      rw [tget_tset_self]
      refine ⟨fun _ => hg n _ _ ?_, fun h => absurd (.inr rfl) h⟩
      by_cases hl : n ∈ l
      · exact .inr (hin hl)
      · exact .inl (hout hl)
    · rw [tget_tset_ne d _ _ hm]
      exact ⟨fun h => hin (h.resolve_right hm), fun h => hout fun hl => h (.inl hl)⟩

omit [DecidableEq α] in
/-- A key that no entry names reads as the default. -/
theorem tget_of_not_mem {t : Tbl α} {n : Nat} (h : n ∉ t.map Prod.fst) : tget d t n = d := by
  induction t with
  | nil => rfl
  | cons e t ih =>
    obtain ⟨m, x⟩ := e
    simp only [List.map_cons, List.mem_cons, not_or] at h
    rw [tget, if_neg (Ne.symm h.1), ih h.2]

/-- Every entry of a table rewritten by `g`, which keeps the default. -/
theorem tget_foldl_entries {P : α → α → Prop} {g : α → α} (hg : ∀ x y, y = x ∨ P x y → P x (g y)) (hd : P d d)
    (t : Tbl α) (n : Nat) :
    P (tget d t n) (tget d (t.foldl (fun u e => tset d u e.1 (g (tget d u e.1))) t) n) := by
  obtain ⟨hin, hout⟩ := tget_foldl_tset d (P := fun _ => P) (g := fun _ => g) (fun _ => hg) t n (t.map Prod.fst)
  rw [List.foldl_map] at hin hout
  by_cases hm : n ∈ t.map Prod.fst
  · exact hin hm
  · rw [hout hm, tget_of_not_mem d hm]
    exact hd

end Sys2Proof.Proofs
end

section
/-! PROOFS. Invalidations, and the writes that wait for a core's calls (O46). -/

namespace Sys2Proof.Proofs

open Sys2Proof Sys2Proof.Machine Sys2Proof.Safety

/-! Translations dropped (R202). -/

section Drop
variable (drop : Trans → Bool)

/-- A list without the translations that `drop` selects. -/
def KeptOf (x y : List Trans) : Prop := y = x.filter fun t => !drop t

theorem keptOf_filter {x y : List Trans} (h : y = x ∨ KeptOf drop x y) : KeptOf drop x (y.filter fun t => !drop t) := by
  obtain rfl | rfl := h
  · rfl
  · simp [KeptOf, List.filter_filter]

theorem tget_keepTrans (l : Tbl (List Trans)) (u : Nat) : tget [] (keepTrans drop l) u = (tget [] l u).filter fun t => !drop t :=
  tget_foldl_entries [] (P := KeptOf drop) (fun _ _ => keptOf_filter drop) rfl l u

/-- A quad whose TLBs have lost what `drop` selects. -/
def QuadKept (x y : Quad) : Prop :=
  y = { x with tlb := y.tlb } ∧ ∀ u, KeptOf drop (tget [] x.tlb u) (tget [] y.tlb u)

theorem quadKept_keepTrans {x y : Quad} (h : y = x ∨ QuadKept drop x y) : QuadKept drop x { y with tlb := keepTrans drop y.tlb } := by
  refine ⟨?_, fun u => ?_⟩
  · obtain rfl | ⟨h, -⟩ := h
    · rfl
    · rw [h]
  · rw [tget_keepTrans]
    obtain rfl | ⟨-, h⟩ := h
    · rfl
    · exact keptOf_filter drop (.inr (h u))

/-- A stack whose TLB has. -/
def StackKept (x y : Stack) : Prop := y = { x with tlb := x.tlb.filter fun t => !drop t }

theorem stackKept_filter {x y : Stack} (h : y = x ∨ StackKept drop x y) :
    StackKept drop x { y with tlb := y.tlb.filter fun t => !drop t } := by
  obtain rfl | rfl := h
  · rfl
  · simp [StackKept, List.filter_filter]

theorem foldl_updQuad (g : Quad → Quad) (l : Tbl Quad) (s : State) : l.foldl (fun s e => s.updQuad e.1 g) s =
    { s with quads := l.foldl (fun u e => tset {} u e.1 (g (tget {} u e.1))) s.quads } := by
  induction l generalizing s with
  | nil => rfl
  | cons e l ih => exact ih _

theorem foldl_updStack (g : Stack → Stack) (l : Tbl Stack) (s : State) : l.foldl (fun s e => s.updStack e.1 g) s =
    { s with stackTab := l.foldl (fun u e => tset {} u e.1 (g (tget {} u e.1))) s.stackTab } := by
  induction l generalizing s with
  | nil => rfl
  | cons e l ih => exact ih _

/-- Every TLB of the package loses them, and nothing else differs. -/
theorem dropTrans_spec (s : State) : let t := s.dropTrans drop
    t = { s with quads := t.quads, stackTab := t.stackTab } ∧ (∀ q, QuadKept drop (s.quad q) (t.quad q)) ∧
      ∀ q, StackKept drop (s.stack q) (t.stack q) := by
  have hquad : QuadKept drop {} {} := ⟨rfl, fun _ => rfl⟩
  have hstack : StackKept drop {} {} := rfl
  unfold State.dropTrans
  rw [foldl_updQuad, foldl_updStack]
  exact ⟨rfl, fun q => tget_foldl_entries _ (fun _ _ => quadKept_keepTrans drop) hquad _ q,
    fun q => tget_foldl_entries _ (fun _ _ => stackKept_filter drop) hstack _ q⟩

end Drop

/-- What a selector of TLBINV names (R202). -/
theorem tlbDrops_iff (p a b kind : Nat) (x : Trans) : tlbDrops p a b kind x = true ↔ x.part = p ∧ ((kind = 0 ∧ x.tenant = a % 8) ∨
    (kind = 1 ∧ x.tenant = b % 8 ∧ x.va = a / 2 ^ x.size * 2 ^ x.size) ∨ 2 ≤ kind) := by
  match kind with
  | 0 => simp [tlbDrops]
  | 1 => simp [tlbDrops, Trans.covers, and_assoc]
  | n + 2 => simp [tlbDrops]

/-! Stores to be translated again (R367). -/

theorem forgetStores_spec (s : State) (p : Nat) : s.forgetStores p = { s with ctxs := (s.forgetStores p).ctxs } ∧
    ∀ d, (s.forgetStores p).ctx d = { s.ctx d with storeQ := ((s.forgetStores p).ctx d).storeQ } ∧
      ((s.forgetStores p).ctx d).storeQ.map bare = (s.ctx d).storeQ.map bare := by
  unfold State.forgetStores
  obtain ⟨hrest, hin, hout⟩ := s.mapCtxs_spec fun _ x => if x.part = p then { x with storeQ := x.storeQ.map fun e =>
    if e.reach = 0 && e.tile = 0 then { e with known := false, units := [] } else e } else x
  refine ⟨hrest, fun d => ?_⟩
  by_cases hd : d ∈ s.ctxs.map Prod.fst
  · rw [hin d hd]
    split
    · refine ⟨rfl, ?_⟩
      rw [List.map_map]
      refine List.map_congr_left fun e _ => ?_
      dsimp only [Function.comp]
      split <;> rfl
    · exact ⟨rfl, rfl⟩
  · rw [hout d hd]
    exact ⟨rfl, rfl⟩

/-! TLBINV as a whole. -/

/-- The state that TLBINV of context `c` leaves of the opened one. -/
def invalidated (s : State) (p c : Nat) (drop : Trans → Bool) : State :=
  let u := ((s.dropTrans drop).forgetStores p).forgetAsks p
  u.newWait.2.updCtx c fun x => { x with block := .tlbinv u.newWait.1 u.serial }

theorem sameButQueue_block {x y : Ctx} (h : x = { y with storeQ := x.storeQ }) : x = { y with block := x.block, storeQ := x.storeQ } := by
  rw [h]

theorem sameButQueue_waits {x y : Ctx} (h : x = { y with storeQ := x.storeQ }) (b : Block) :
    { x with block := b } = { y with block := b, storeQ := x.storeQ } := by
  rw [h]

theorem invalidated_spec (s : State) (p c : Nat) (drop : Trans → Bool) : let t := invalidated s p c drop
    t = { s with ctxs := t.ctxs, quads := t.quads, stackTab := t.stackTab, fresh := s.fresh + 1,
                 pkg := { s.pkg with ats := s.pkg.ats.filter (fun e => !(e.1 / 2 ^ 36 = p)),
                                     atsReq := s.pkg.atsReq.filter (fun e => !(e / 2 ^ 36 = p)) } } ∧
    (t.ctx c).block = .tlbinv (s.cycle + Config.delay s.fresh) s.serial ∧
    (∀ d, t.ctx d = { s.ctx d with block := (t.ctx d).block, storeQ := (t.ctx d).storeQ } ∧
      (t.ctx d).storeQ.map bare = (s.ctx d).storeQ.map bare ∧ (d ≠ c → (t.ctx d).block = (s.ctx d).block)) ∧
    (∀ q, QuadKept drop (s.quad q) (t.quad q)) ∧ ∀ q, StackKept drop (s.stack q) (t.stack q) := by
  obtain ⟨hdrop, hquads, hstacks⟩ := dropTrans_spec drop s
  obtain ⟨hforget, hctx⟩ := forgetStores_spec (s.dropTrans drop) p
  unfold invalidated
  generalize (s.dropTrans drop).forgetStores p = v at hforget hctx
  generalize s.dropTrans drop = u at hdrop hquads hstacks hforget hctx
  obtain ⟨quads, stackTab, rfl⟩ : ∃ q l, u = { s with quads := q, stackTab := l } := ⟨_, _, hdrop⟩
  obtain ⟨ctxs, rfl⟩ : ∃ l, v = { s with quads := quads, stackTab := stackTab, ctxs := l } := ⟨_, hforget⟩
  refine ⟨rfl, congrArg Ctx.block (State.ctx_setCtx_self _ _ _), fun d => ?_, hquads, hstacks⟩
  obtain ⟨hsame, hbare⟩ := hctx d
  by_cases hd : d = c
  · subst hd
    simp only [State.updCtx_eq, State.ctx_setCtx_self]
    exact ⟨sameButQueue_waits hsame _, hbare, fun h => absurd rfl h⟩
  · have hblock := congrArg Ctx.block hsame
    rw [State.updCtx_eq, State.ctx_setCtx_ne _ _ hd]
    exact ⟨sameButQueue_block hsame, hbare, fun _ => hblock⟩

theorem exec_tlbinv {s : State} {k : Cur} {f : Form} {w : CW} (h : Performs s k (.tlbinv w) f) : exec (.tlbinv w) s =
    .next (invalidated (opened s k f) k.before.part k.ctx
      (tlbDrops k.before.part ((opOf k (.tlbinv w) f).src 0) ((opOf k (.tlbinv w) f).src 1) w.imm24.toNat)) :=
  State.runOp_performs h _ _

/-- The acknowledgements end the wait (R202). -/
theorem exec_tlbinvComplete_due {s : State} {c n m : Nat} (hb : (s.ctx c).block = .tlbinv n m) (hn : n ≤ s.cycle)
    (hs : ∀ d ∈ s.ctxs, d.2.part = (s.ctx c).part → ∀ e ∈ d.2.storeQ, e.reach = 0 ∨ e.tile ≠ 0 ∨ m ≤ e.id) :
    exec (.tlbinvComplete c) s = .next (s.setCtx c { s.ctx c with block := .none }) := by
  have hdone : s.translatedBefore (s.ctx c).part m = false := by
    unfold State.translatedBefore
    simp only [List.any_eq_false, Bool.and_eq_true, decide_eq_true_eq, List.any_eq_true, not_and, not_exists, Bool.not_eq_true',
      decide_eq_false_iff_not]
    intro d hd hp e he
    have := hs d hd hp e he
    omega
  show execTlbinvComplete c s = _
  unfold execTlbinvComplete
  simp only [hb, hdone, hn]
  rfl

/-! Writes that wait for a core's calls (R78, R203). -/

theorem foldl_updCore_nodup (g : Core → Core) {l : List Nat} (hl : l.Nodup) (s : State) : let t := l.foldl (fun s n => s.updCore n g) s
    t = { s with cores := t.cores } ∧ ∀ n, t.core n = if l.contains n then g (s.core n) else s.core n := by
  induction l generalizing s with
  | nil => exact ⟨rfl, fun _ => rfl⟩
  | cons m l ih =>
    obtain ⟨hm, hl⟩ := List.nodup_cons.mp hl
    obtain ⟨hrest, hcore⟩ := ih hl (s.updCore m g)
    refine ⟨hrest, fun n => ?_⟩
    rw [List.foldl_cons, hcore, List.contains_cons]
    by_cases hn : n = m
    · subst hn
      simp [hm]
    · simp [hn, State.core_setCore_ne]

/-- The cores of a partition, each once. -/
theorem coreList_nodup (p : Part) : p.coreList.Nodup := List.Nodup.filter _ List.nodup_range

section StoreWrite
variable {s : State} {k : Cur} {i : Instr} {f : Form} {w : CW}

theorem storeCores_nodup (r : Run) : (s.storeCores r w).Nodup := by
  unfold State.storeCores
  split
  · exact List.nodup_singleton _
  · exact coreList_nodup _

/-- A store write waits on every core it reaches (R203). -/
theorem storeWrite_spec {b : Bool} (h : exec i s = .next ((opened s k f).storeWrite (opOf k i f) w b)) : ∃ t, exec i s = .next t ∧
    t = { s with ctxs := t.ctxs, cur := t.cur, cores := t.cores } ∧ Also s t k f (fun x => { x with block := .storeWrite }) ∧
    let p : PendWrite := ⟨k.ctx, b, (opOf k i f).src 0, BitVec.ofNat 64 ((opOf k i f).src 1)⟩
    ∀ n, t.core n = if (if w.imm24 = 0 then [coreOf k.ctx] else (s.part k.before.part).coreList).contains n
      then { s.core n with pend := (s.core n).pend ++ [p] } else s.core n := by
  let p : PendWrite := ⟨k.ctx, b, (opOf k i f).src 0, BitVec.ofNat 64 ((opOf k i f).src 1)⟩
  obtain ⟨hrest, hcore⟩ := foldl_updCore_nodup (fun x => { x with pend := x.pend ++ [p] })
    (storeCores_nodup (s := opened s k f) (w := w) (opOf k i f)) (opened s k f)
  have hself : (opened s k f).storeWrite (opOf k i f) w b =
    (((opened s k f).storeCores (opOf k i f) w).foldl (fun s n => s.updCore n fun x => { x with pend := x.pend ++ [p] })
      (opened s k f)).updCtx k.ctx fun x => { x with block := .storeWrite } := rfl
  rw [hself] at h
  generalize ((opened s k f).storeCores (opOf k i f) w).foldl _ _ = u at hrest hcore h
  obtain ⟨cores, rfl⟩ : ∃ l, u = { opened s k f with cores := l } := ⟨_, hrest⟩
  exact ⟨_, h, rfl, also_setCtx (congrArg (fun x : Ctx => { x with block := .storeWrite }) (opened_ctx_self s k f)) rfl rfl, hcore⟩

end StoreWrite

/-- A core's pending writes applied let contexts go on: each is as it was, or waits no longer. -/
def LetsGo (s t : State) : Prop :=
  t = { s with ctxs := t.ctxs } ∧ ∀ c, t.ctx c = s.ctx c ∨ t.ctx c = { s.ctx c with block := .none }

/-- The contexts of applied writes go on, where no core they wait for is left (R203). -/
def letGo (s : State) (p : PendWrite) : State :=
  if s.storeWaits p.ctx then s
  else s.updCtx p.ctx fun x => if x.block = .storeWrite then { x with block := .none } else x

theorem letGo_letsGo {s t : State} (h : LetsGo s t) (p : PendWrite) : LetsGo s (letGo t p) := by
  obtain ⟨hrest, hctx⟩ := h
  unfold letGo
  split
  · exact ⟨hrest, hctx⟩
  · refine ⟨by rw [hrest]; rfl, fun c => ?_⟩
    by_cases hc : c = p.ctx
    · subst hc
      rw [State.updCtx_eq, State.ctx_setCtx_self]
      split
      · obtain h | h := hctx p.ctx <;> rw [h] <;> exact .inr rfl
      · exact hctx p.ctx
    · rw [State.updCtx_eq, State.ctx_setCtx_ne _ _ hc]
      exact hctx c

/-- STORE_WRITE_APPLY (R78). -/
theorem exec_storeWriteApply_idle {s : State} {n : Nat} (h : ∀ c ∈ s.calls, c.core ≠ n) :
    ∃ t, exec (.storeWriteApply n) s = .next t ∧
    LetsGo (s.setCore n { (s.core n).pend.foldl Core.applyWrite (s.core n) with pend := [] }) t := by
  have hidle : ¬ (s.calls.any fun k => k.core = n) = true := by simpa using h
  refine ⟨_, if_neg hidle, ?_⟩
  exact List.foldlRecOn (motive := LetsGo _) _ letGo ⟨rfl, fun _ => .inl rfl⟩ fun t ht p _ => letGo_letsGo ht p

theorem opened_storeQ (s : State) (k : Cur) (f : Form) (d : Nat) : ((opened s k f).ctx d).storeQ = (s.ctx d).storeQ := by
  by_cases hd : d = k.ctx
  · rw [hd, opened_ctx_self]
    rfl
  · rw [opened_ctx_ne s k f hd]

/-- Settles O46: TLBINV by what each of its steps leaves (`invalidated_spec`), a store write by the cores it reaches, each once, and its
taking effect by the contexts it lets go. -/
theorem invalidationsAndStoreWrites : Obligations.InvalidationsAndStoreWrites := by
  unfold Obligations.InvalidationsAndStoreWrites
  intro s k f w
  refine ⟨fun h => ?tlbinv, tlbDrops_iff, fun c n m hb hn hs => ?complete, fun h => ?mswr, fun h => ?rtset, fun n h => ?apply⟩
  case tlbinv =>
    have hx := exec_tlbinv h
    obtain ⟨hrest, hblock, hctx, hquads, hstacks⟩ := invalidated_spec (opened s k f) k.before.part k.ctx
      (tlbDrops k.before.part ((opOf k (.tlbinv w) f).src 0) ((opOf k (.tlbinv w) f).src 1) w.imm24.toNat)
    generalize invalidated (opened s k f) k.before.part k.ctx
      (tlbDrops k.before.part ((opOf k (.tlbinv w) f).src 0) ((opOf k (.tlbinv w) f).src 1) w.imm24.toNat) = t
      at hx hrest hblock hctx hquads hstacks
    have hcur := congrArg State.cur hrest
    refine ⟨t, _, hx, Nat.le_add_right _ _, hcur, by rw [hcur]; exact hrest, hblock, fun d => ?_, hquads, hstacks⟩
    obtain ⟨hsame, hbare, hkept⟩ := hctx d
    exact ⟨hsame, hbare.trans (congrArg (List.map bare) (opened_storeQ s k f d)), fun hd =>
      (hkept hd).trans (congrArg Ctx.block (opened_ctx_ne s k f hd))⟩
  case complete => exact ⟨_, exec_tlbinvComplete_due hb hn hs, setCtx_onlyCtx s c _⟩
  case mswr => exact storeWrite_spec (State.runOp_performs h _ _)
  case rtset => exact storeWrite_spec (State.runOp_performs h _ _)
  case apply =>
    obtain ⟨t, ht, hrest, hctx⟩ := exec_storeWriteApply_idle h
    refine ⟨t, ht, ?_, ?_, fun m hm => ?_, hctx⟩
    · rw [hrest]
      rfl
    · rw [hrest]
      exact State.core_setCore_self _ _ _
    · rw [hrest]
      exact State.core_setCore_ne _ _ hm

end Sys2Proof.Proofs
end

section
/-! PROOFS. Wheel words: their positions given up, and those of a core handed over (O47). -/

namespace Sys2Proof.Proofs

open Sys2Proof Sys2Proof.Machine Sys2Proof.Safety

/-- Field j of a WHEEL word, 10 bits (Table 4.11). -/
def wheelField (w : Word) (j : Nat) : Nat := bits w.toNat (10 * j + 9) (10 * j)

theorem wheelField_testBit (w : Word) (j i : Nat) : (wheelField w j).testBit i = (decide (i < 10) && w.getLsbD (10 * j + i)) := by
  rw [wheelField, bits, show 10 * j + 9 + 1 - 10 * j = 10 by omega, Nat.testBit_mod_two_pow, Nat.testBit_div_two_pow, Nat.add_comm i]
  rfl

/-- A word with one field cleared. -/
def clearField (w : Word) (m : Nat) : Word := w &&& ~~~(BitVec.ofNat 64 (1023 * 2 ^ (10 * m)))

theorem wheelField_clearField (w : Word) {j m : Nat} (hj : j < 4) :
    wheelField (clearField w m) j = if j = m then 0 else wheelField w j := by
  have hbit : ∀ i, (1023 * 2 ^ (10 * m)).testBit (10 * j + i) =
      (decide (10 * m ≤ 10 * j + i) && decide (10 * j + i - 10 * m < 10)) := by
    intro i
    rw [Nat.testBit_mul_two_pow, show 1023 = 2 ^ 10 - 1 from rfl, Nat.testBit_two_pow_sub_one]
  refine Nat.eq_of_testBit_eq fun i => ?_
  rw [wheelField_testBit, clearField, BitVec.getLsbD_and, BitVec.getLsbD_not, BitVec.getLsbD_ofNat, hbit]
  by_cases hi : i < 10
  · have hlt : 10 * j + i < 64 := by omega
    by_cases hm : j = m
    · subst hm
      simp [hi]
    · have hout : ¬ (10 * m ≤ 10 * j + i ∧ 10 * j + i - 10 * m < 10) := by omega
      simp [hi, hlt, hm, wheelField_testBit]
      omega
  · simp only [hi, decide_false, Bool.false_and]
    split
    · rw [Nat.zero_testBit]
    · rw [wheelField_testBit]
      simp [hi]

/-- Does a field name a position of one of the columns, 16 to a column? -/
def namesColumn (cols : List Nat) (p : Nat) : Bool := decide (512 ≤ p) && cols.contains (p % 512 / 16)

/-- The positions of columns given up, field by field (R204). -/
theorem wheelField_dropPositions (cols : List Nat) (w : Word) {j : Nat} (hj : j < 4) :
    wheelField (dropPositions cols w) j = if namesColumn cols (wheelField w j) = true then 0 else wheelField w j := by
  have h : ∀ n : Nat, wheelField ((upto n).foldl (fun w m => if namesColumn cols (wheelField w m) then clearField w m else w) w) j =
      if j < n ∧ namesColumn cols (wheelField w j) = true then 0 else wheelField w j := by
    intro n
    induction n with
    | zero => simp [upto]
    | succ n ih =>
      rw [upto, List.range_succ, List.foldl_append, List.foldl_cons, List.foldl_nil, ← upto]
      by_cases hjn : j = n
      · subst hjn
        rw [if_neg fun h => Nat.lt_irrefl j h.1] at ih
        split
        · next hc => rw [wheelField_clearField _ hj, if_pos rfl, if_pos ⟨Nat.lt_succ_self j, ih ▸ hc⟩]
        · next hc => rw [ih, if_neg fun h => hc (ih.symm ▸ h.2)]
      · have hlt : j < n + 1 ↔ j < n := by omega
        simp only [hlt, ← ih]
        split
        · rw [wheelField_clearField _ hj, if_neg hjn]
        · rfl
  exact (h 4).trans (by simp [hj])

theorem dropPositions_eq_self {cols : List Nat} {w : Word} (h : ∀ j < 4, namesColumn cols (wheelField w j) = false) :
    dropPositions cols w = w := by
  refine List.foldlRecOn (motive := (· = w)) (upto 4) _ rfl fun v hv j hj => ?_
  subst hv
  have hkept : ¬ namesColumn cols (wheelField v j) = true := by simp [h j (List.mem_range.mp hj)]
  exact if_neg hkept

/-- Four fields of 10 bits laid side by side. -/
theorem packed_fields {a b c d : Nat} (ha : a < 2 ^ 10) (hb : b < 2 ^ 10) (hc : c < 2 ^ 10) (hd : d < 2 ^ 10) :
    let x := a + b * 2 ^ 10 + c * 2 ^ 20 + d * 2 ^ 30
    x / 2 ^ 0 % 2 ^ 10 = a ∧ x / 2 ^ 10 % 2 ^ 10 = b ∧ x / 2 ^ 20 % 2 ^ 10 = c ∧ x / 2 ^ 30 % 2 ^ 10 = d := by
  omega

/-- The default positions of a core: those of its own contexts (R78). -/
theorem wheelField_handOver (x : Core) {n j : Nat} (hn : n < 128) (hj : j < 4) : wheelField (x.handOver n).wheel j = 512 + 4 * n + j := by
  have hwheel : (x.handOver n).wheel.toNat =
      (512 + 4 * n) + (512 + 4 * n + 1) * 2 ^ 10 + (512 + 4 * n + 2) * 2 ^ 20 + (512 + 4 * n + 3) * 2 ^ 30 := by
    simp only [Core.handOver, upto, List.range_succ, List.range_zero, List.nil_append, List.cons_append, List.map_cons, List.map_nil, sumN,
      BitVec.toNat_ofNat]
    omega
  rw [wheelField, bits, hwheel, show 10 * j + 9 + 1 - 10 * j = 10 by omega]
  obtain ⟨h0, h1, h2, h3⟩ := packed_fields (a := 512 + 4 * n) (b := 512 + 4 * n + 1) (c := 512 + 4 * n + 2) (d := 512 + 4 * n + 3)
    (by omega) (by omega) (by omega) (by omega)
  interval_cases j
  exacts [h0, h1, h2, h3]

end Sys2Proof.Proofs
end

section
/-! PROOFS. The forms that hand out partitions (O47). -/

namespace Sys2Proof.Proofs

open Sys2Proof Sys2Proof.Machine Sys2Proof.Safety

/-! The cores of columns. -/

theorem mem_flatMap_colCores {l : List Nat} {n : Nat} : n ∈ l.flatMap colCores ↔ n / 4 ∈ l := by
  simp only [List.mem_flatMap, colCores, upto, List.mem_map, List.mem_range]
  constructor
  · rintro ⟨c, hc, j, hj, rfl⟩
    rwa [show (4 * c + j) / 4 = c by omega]
  · exact fun h => ⟨n / 4, h, n % 4, Nat.mod_lt n (by decide), Nat.div_add_mod n 4⟩

theorem foldl_updCore_eq (g : Nat → Core → Core) (l : List Nat) (s : State) : l.foldl (fun s n => s.updCore n (g n)) s =
    { s with cores := l.foldl (fun t m => tset {} t m (g m (tget {} t m))) s.cores } := by
  induction l generalizing s with
  | nil => rfl
  | cons m l ih => exact ih _

/-- Cores rewritten by what does nothing a second time. -/
theorem foldl_updCore_core {g : Nat → Core → Core} (hg : ∀ n x, g n (g n x) = g n x) (l : List Nat) (s : State) (n : Nat) :
    (l.foldl (fun s n => s.updCore n (g n)) s).core n = if n ∈ l then g n (s.core n) else s.core n := by
  obtain ⟨hin, hout⟩ := tget_foldl_tset ({} : Core) (P := fun n x y => y = g n x) (g := g)
    (fun n x y h => by obtain rfl | rfl := h; exacts [rfl, hg n x]) s.cores n l
  rw [foldl_updCore_eq]
  split
  · next h => exact hin h
  · next h => exact hout h

theorem tget_map_entries {α : Type} {d : α} {g : α → α} (hd : g d = d) (t : Tbl α) (n : Nat) :
    tget d (t.map fun e => (e.1, g e.2)) n = g (tget d t n) := by
  induction t with
  | nil => exact hd.symm
  | cons e t ih =>
    simp only [List.map_cons, tget, ih]
    split <;> rfl

theorem givePositions_core (s : State) (cols : List Nat) (n : Nat) : (s.givePositions cols).core n = { s.core n with
    wheel := dropPositions cols (s.core n).wheel, wheelOld := (s.core n).wheelOld.map (dropPositions cols) } := by
  refine tget_map_entries (g := fun x : Core => { x with
    wheel := dropPositions cols x.wheel, wheelOld := x.wheelOld.map (dropPositions cols) }) ?_ s.cores n
  have h : dropPositions cols 0 = 0 := dropPositions_eq_self fun j _ => by simp [namesColumn, wheelField, bits]
  show ({ wheel := dropPositions cols 0 } : Core) = _
  rw [h]

/-! PARTCOL (R204, R78). -/

/-- The columns of `v` that are none of `w`. -/
def columnsBeyond (v w : Nat) : List Nat := (upto 32).filter fun c => bit v c && !bit w c

theorem mem_columnsBeyond {v w c : Nat} (hc : c < 32) : c ∈ columnsBeyond v w ↔ v.testBit c = true ∧ w.testBit c = false := by
  simp [columnsBeyond, upto, bit, hc]

/-- The cores once a partition's columns are `v`, where they were `w`: the gained ones handed over, the positions of the lost ones
given up everywhere, and the lost ones without any. -/
def sharedOut (s : State) (w v : Nat) : State :=
  let s := ((columnsBeyond v w).flatMap colCores).foldl (fun s n => s.updCore n fun x => x.handOver n) s
  let s := s.givePositions (columnsBeyond w v)
  ((columnsBeyond w v).flatMap colCores).foldl (fun s n => s.updCore n fun x => { x with wheel := 0, wheelOld := none }) s

theorem sharedOut_rest (s : State) (w v : Nat) : sharedOut s w v = { s with cores := (sharedOut s w v).cores } := by
  unfold sharedOut
  rw [foldl_updCore_eq fun n x => x.handOver n, foldl_updCore_eq fun _ x => { x with wheel := 0, wheelOld := none }]
  rfl

theorem sharedOut_core (s : State) (w v n : Nat) : (sharedOut s w v).core n =
    let x := if n / 4 ∈ columnsBeyond v w then (s.core n).handOver n else s.core n
    if n / 4 ∈ columnsBeyond w v then { x with wheel := 0, wheelOld := none }
    else { x with wheel := dropPositions (columnsBeyond w v) x.wheel, wheelOld := x.wheelOld.map (dropPositions (columnsBeyond w v)) } := by
  unfold sharedOut
  dsimp only
  rw [foldl_updCore_core (g := fun _ x => { x with wheel := 0, wheelOld := none }) (fun _ _ => rfl), givePositions_core,
    foldl_updCore_core (g := fun n x => x.handOver n) (fun _ _ => rfl)]
  simp only [mem_flatMap_colCores]

section Shared
variable {s : State} {w v n : Nat} (hn : n < 128)
include hn

theorem sharedOut_gained (hv : v.testBit (n / 4) = true) (hw : w.testBit (n / 4) = false) :
    (sharedOut s w v).core n = (s.core n).handOver n := by
  have hgained : n / 4 ∈ columnsBeyond v w := (mem_columnsBeyond (by omega)).mpr ⟨hv, hw⟩
  have hlost : n / 4 ∉ columnsBeyond w v := fun h => by simp [(mem_columnsBeyond (by omega)).mp h] at hw
  have hkept : dropPositions (columnsBeyond w v) ((s.core n).handOver n).wheel = ((s.core n).handOver n).wheel := by
    refine dropPositions_eq_self fun j hj => ?_
    rw [wheelField_handOver _ hn hj, namesColumn, show (512 + 4 * n + j) % 512 / 16 = n / 4 by omega]
    simp [hlost]
  rw [sharedOut_core, if_pos hgained]
  dsimp only
  rw [if_neg hlost, hkept]
  rfl

theorem sharedOut_lost (hv : v.testBit (n / 4) = false) (hw : w.testBit (n / 4) = true) :
    (sharedOut s w v).core n = { s.core n with wheel := 0, wheelOld := none } := by
  have hlost : n / 4 ∈ columnsBeyond w v := (mem_columnsBeyond (by omega)).mpr ⟨hw, hv⟩
  have hgained : n / 4 ∉ columnsBeyond v w := fun h => by simp [(mem_columnsBeyond (by omega)).mp h] at hv
  rw [sharedOut_core, if_neg hgained]
  exact if_pos hlost

theorem sharedOut_kept (h : v.testBit (n / 4) = w.testBit (n / 4)) : (sharedOut s w v).core n = { s.core n with
    wheel := dropPositions (columnsBeyond w v) (s.core n).wheel,
    wheelOld := (s.core n).wheelOld.map (dropPositions (columnsBeyond w v)) } := by
  have hgained : n / 4 ∉ columnsBeyond v w := fun hm => by
    obtain ⟨hv, hw⟩ := (mem_columnsBeyond (by omega)).mp hm
    simp [hv, hw] at h
  have hlost : n / 4 ∉ columnsBeyond w v := fun hm => by
    obtain ⟨hw, hv⟩ := (mem_columnsBeyond (by omega)).mp hm
    simp [hv, hw] at h
  rw [sharedOut_core, if_neg hgained]
  exact if_neg hlost

end Shared

theorem namesColumn_iff {v w p : Nat} : namesColumn (columnsBeyond w v) p = true ↔
    512 ≤ p ∧ w.testBit (p % 512 / 16) = true ∧ v.testBit (p % 512 / 16) = false := by
  rw [namesColumn, Bool.and_eq_true, decide_eq_true_eq, List.contains_iff_mem, mem_columnsBeyond (by omega)]

/-- Each core once the columns are shared out. -/
theorem partcol_cores {s : State} {w v n : Nat} (hn : n < 128) : let t := sharedOut s w v
    let now := v.testBit (n / 4)
    let was := w.testBit (n / 4)
    (now = true → was = false → t.core n = (s.core n).handOver n) ∧
    (now = false → was = true → t.core n = { s.core n with wheel := 0, wheelOld := none }) ∧
    (now = was → t.core n = { s.core n with wheel := (t.core n).wheel, wheelOld := (t.core n).wheelOld } ∧
      ∀ j, j < 4 →
        let p := bits (s.core n).wheel.toNat (10 * j + 9) (10 * j)
        let gone := w.testBit (p % 512 / 16) = true ∧ v.testBit (p % 512 / 16) = false
        bits (t.core n).wheel.toNat (10 * j + 9) (10 * j) = if 512 ≤ p ∧ gone then 0 else p) := by
  refine ⟨sharedOut_gained hn, sharedOut_lost hn, fun h => ?_⟩
  rw [sharedOut_kept hn h]
  refine ⟨rfl, fun j hj => (wheelField_dropPositions _ _ hj).trans ?_⟩
  simp only [namesColumn_iff]
  rfl

theorem recomputeNets_idle {s : State} (h : s.eps = []) (old : State) : s.recomputeNets old = s := by
  simp only [State.recomputeNets, h, List.foldl_nil, List.filter_nil]
  rw [← h]

section Forms
variable {s : State} {k : Cur} {f : Form} {w : CW}

/-- The columns lost, as PARTCOL selects them. -/
theorem filter_lost (v old : Nat) : ((upto 32).filter fun c => !bit v c && bit old c) = columnsBeyond old v :=
  List.filter_congr fun _ _ => Bool.and_comm _ _

/-- PARTCOL while no episode is in progress: no barrier network has one to poison (R42). -/
theorem exec_partcol_idle (h : Performs s k (.partcol w) f) (he : s.eps = []) :
    let a := (opOf k (.partcol w) f).src 0
    let v := (opOf k (.partcol w) f).src 1 % 2 ^ 32
    let gained := columnsBeyond v (s.part a).cols
    exec (.partcol w) s = .next ((((sharedOut ((opened s k f).updPart a fun p => { p with cols := v }) (s.part a).cols v).freshQuiet 0
      (gained.flatMap colCores)).freshQuiet 1 gained).freshQuiet 4 gained) := by
  intro a v gained
  refine (State.runOp_performs h _ _).trans (congrArg _ ?_)
  dsimp only
  rw [filter_lost]
  refine recomputeNets_idle ?_ _
  show (sharedOut _ _ _).eps = []
  rw [sharedOut_rest]
  exact he

/-- A partition form that touches quiet counts besides. -/
theorem partQuiet_of {i : Instr} {n cls : Nat} {l : List Nat} {g : Part → Part}
    (h : exec i s = .next (((opened s k f).freshQuiet cls l).updPart n g)) : ∃ t, exec i s = .next t ∧
      Also s t k f (fun x => x) ∧ t = { s with ctxs := t.ctxs, cur := t.cur, parts := t.parts, quiet := t.quiet } ∧
      t.part n = g (s.part n) := by
  obtain ⟨hc, hx, ho⟩ := opened_also s k f
  exact ⟨_, h, ⟨hc, hx, ho⟩, rfl, State.part_setPart_self _ _ _⟩

end Forms

theorem handOver_position {n : Nat} (x : Core) (hn : n < 128) {j : Nat} (hj : j < 4) : (x.handOver n).position j = some (4 * n + j) := by
  have hfield : bits (x.handOver n).wheelNow (10 * j + 9) (10 * j) = 512 + 4 * n + j := wheelField_handOver x hn hj
  unfold Core.position
  rw [hfield]
  dsimp only
  rw [if_pos (by omega), show (512 + 4 * n + j) % 512 = 4 * n + j by omega]

/-- Settles O47: every form by its change of the opened state; PARTCOL by what each core is once the columns are shared out. -/
theorem partitionForms : Obligations.PartitionForms := by
  unfold Obligations.PartitionForms
  refine ⟨fun s k f w => ?forms, fun n x hn => ⟨rfl, rfl, rfl, fun j => handOver_position x hn⟩⟩
  intro a b
  refine ⟨fun h => ?partset, fun h hr => ?release, fun h hr => ?partslc, fun h => ?partchn, fun h => ?partlnk, fun h hr => ?unassign,
    fun h hr => ?assign, fun h => ?tenset, fun h => ?frmset, fun h he => ?partcol⟩
  case partset => exact partBecomes_of (State.runOp_performs h _ _)
  case release =>
    have hx : exec (.partslc w) s = _ := (State.runOp_performs h _ _).trans (congrArg _ (if_pos hr))
    refine ⟨_, s.cycle + Config.delay s.fresh, hx, Nat.le_add_right _ _, also_setCtx ?_ rfl rfl, rfl⟩
    exact congrArg (fun x : Ctx => { x with
      block := .partslc (a (.partslc w)) (bits (b (.partslc w)) 9 0) (bits (b (.partslc w)) 25 16) (s.cycle + Config.delay s.fresh) })
      (opened_ctx_self s k f)
  case partslc =>
    have hjoin : ¬ bit (b (.partslc w)) 31 = true := by simp [hr]
    have hx : exec (.partslc w) s = _ := (State.runOp_performs h _ _).trans (congrArg _ (if_neg hjoin))
    exact partQuiet_of (g := fun p => { p with slices := rangeApply (b (.partslc w)) p.slices }) hx
  case partchn =>
    have hx : exec (.partchn w) s = _ := State.runOp_performs h _ _
    exact partQuiet_of (g := fun p => { p with chans := rangeApply (b (.partchn w)) p.chans }) hx
  case partlnk => exact partBecomes_of (State.runOp_performs h _ _)
  case unassign => exact ownerBecomes_of ((State.runOp_performs h _ _).trans (congrArg _ (if_pos hr)))
  case assign =>
    have hassign : ¬ bit (b (.ownasgn w)) 63 = true := by simp [hr]
    have hx : exec (.ownasgn w) s = _ := (State.runOp_performs h _ _).trans (congrArg _ (if_neg hassign))
    obtain ⟨hcur, hrest, -, hothers, -⟩ := ownbkt_spec s k f (a (.ownasgn w)) 1024 16384
    dsimp only at hx hcur hrest hothers
    rw [hcur] at hrest
    refine ⟨_, hx, ?_, State.owner_setOwner_self _ _ _, fun q hq => (State.owner_setOwner_ne _ _ hq).trans (hothers q hq)⟩
    exact congrArg (fun t : State => t.setOwner (a (.ownasgn w)) _) hrest
  case tenset => exact partBecomes_of (State.runOp_performs h _ _)
  case frmset => exact partBecomes_of (State.runOp_performs h _ _)
  case partcol =>
    obtain ⟨hcur, hown, hctxs⟩ := opened_also s k f
    have hx := exec_partcol_idle h he
    have hrest := sharedOut_rest ((opened s k f).updPart (a (.partcol w)) fun p => { p with cols := b (.partcol w) % 2 ^ 32 })
      (s.part (a (.partcol w))).cols (b (.partcol w) % 2 ^ 32)
    have hcores := fun n => partcol_cores (s := (opened s k f).updPart (a (.partcol w)) fun p => { p with cols := b (.partcol w) % 2 ^ 32 })
      (w := (s.part (a (.partcol w))).cols) (v := b (.partcol w) % 2 ^ 32) (n := n)
    dsimp only at hx hrest hcores
    generalize sharedOut _ _ _ = u at hx hrest hcores
    obtain ⟨cores, rfl⟩ : ∃ l, u = { (opened s k f).updPart (a (.partcol w)) fun p => { p with cols := b (.partcol w) % 2 ^ 32 } with
      cores := l } := ⟨_, hrest⟩
    exact ⟨_, hx, ⟨hcur, hown, hctxs⟩, rfl, State.part_setPart_self _ _ _, fun q hq => State.part_setPart_ne _ _ hq,
      fun n hn => hcores n hn⟩

end Sys2Proof.Proofs
end

section
/-! PROOFS. Vector arithmetic (O25), and the bitwise, shift, select and element-moving forms (O27). -/

namespace Sys2Proof.Proofs

open Sys2Proof Sys2Proof.Machine Sys2Proof.Safety

/-! Forms of two and three sources (R206, R210). -/

section
variable {s : State} {k : Cur} {i : Instr} {f : Form}

/-- A form of three sources, by what it does to three elements. -/
theorem lanesLand_vec3 {w : VW} {fe : Ty → Nat → Nat → Nat → Nat} {e : Nat → Nat} (h : Performs s k i f)
    (hi : exec i s = s.runOp i fun s r => s.vec3 r w fe)
    (he : ∀ j, fe (vTy w) (vEl k i f (vTy w) 0 j) (vEl k i f (vTy w) 1 j) (vEl k i f (vTy w) 2 j) = e j) :
    LanesLand s k i f (vTy w) e := lanesLand_congr (lanesLand_of_vecOp h hi rfl) he

/-- An element counts modulo 2^w alone. -/
theorem lanesLand_congr_mod {ty : Ty} {e e' : Nat → Nat} (h : LanesLand s k i f ty e)
    (he : ∀ j, e j % 2 ^ ty.width = e' j % 2 ^ ty.width) : LanesLand s k i f ty e' := by
  obtain ⟨v, hv, hel⟩ := h
  exact ⟨v, hv, fun j hj => by rw [hel j hj, he j]⟩

end

section
variable {t : Ty} {g : Fmt} {sg : Bool} {n a b c : Nat}

theorem vElem3_flt {ff : Fmt → Ext → Ext → Ext → Nat} {fi : Int → Int → Int → Int} (ht : t = .flt g) :
    vElem3 t ff fi a b c = ff g (decodeF g a) (decodeF g b) (decodeF g c) := by rw [ht]; rfl

theorem vElem3_int {ff : Fmt → Ext → Ext → Ext → Nat} {fi : Int → Int → Int → Int} (ht : t = .int sg n) :
    vElem3 t ff fi a b c = wrapN (fi (extI sg n a) (extI sg n b) (extI sg n c)) n := by rw [ht]; rfl

end

theorem vecTwo_of_vec2 {mk : VW → Instr} {ff : Fmt → Ext → Ext → Nat} {fi : Bool → Nat → Int → Int → Int}
    (hx : ∀ w s, exec (mk w) s = s.runOp (mk w) fun s r => s.vec2 r w fun t => vElem2 t ff fi) : VecTwo mk ff fi := fun s _ w _ h =>
  ⟨fun _ hw => lanesLand_vec2 h (hx w s) fun _ => vElem2_flt hw, fun _ _ hw => lanesLand_vec2 h (hx w s) fun _ => vElem2_int hw⟩

theorem vecThree_of_vec3 {mk : VW → Instr} {ff : Fmt → Ext → Ext → Ext → Nat} {fi : Int → Int → Int → Int}
    (hx : ∀ w s, exec (mk w) s = s.runOp (mk w) fun s r => s.vec3 r w fun t => vElem3 t ff fi) : VecThree mk ff fi := fun s _ w _ h =>
  ⟨fun _ hw => lanesLand_vec3 h (hx w s) fun _ => vElem3_flt hw, fun _ _ hw => lanesLand_vec3 h (hx w s) fun _ => vElem3_int hw⟩

/-- Settles O25: each form by what it does to the elements of a floating and of an integer type. -/
theorem vectorArithmetic : Obligations.VectorArithmetic :=
  ⟨vecTwo_of_vec2 fun _ _ => rfl, vecTwo_of_vec2 fun _ _ => rfl, vecTwo_of_vec2 fun _ _ => rfl, vecThree_of_vec3 fun _ _ => rfl,
    vecThree_of_vec3 fun _ _ => rfl⟩

/-! What the bitwise and shift forms do to an element (R210). -/

/-- The complement of an element flips its bits. -/
theorem compl_eq_xor {n a : Nat} (h : a < 2 ^ n) : 2 ^ n - 1 - a = a ^^^ (2 ^ n - 1) := by
  have hflip := congrArg BitVec.toNat (BitVec.xor_allOnes (x := BitVec.ofNat n a))
  rw [BitVec.toNat_xor, BitVec.toNat_not, BitVec.toNat_allOnes, BitVec.toNat_ofNat, Nat.mod_eq_of_lt h] at hflip
  exact hflip.symm

/-- Modulo 2^n a multiple of an element read in a type is that of its own bits. -/
theorem wrapN_extI_mul (sg : Bool) (n a m : Nat) : wrapN (extI sg n a * (m : Int)) n = a * m % 2 ^ n := by
  have hbits : extI sg n a % ((2 ^ n : Nat) : Int) = (a : Int) % ((2 ^ n : Nat) : Int) := by
    rw [← natCast_wrapN, wrapN_extI, Int.natCast_mod]
  apply Int.natCast_inj.mp
  rw [natCast_wrapN, Int.mul_emod, hbits, ← Int.mul_emod]
  norm_cast

/-- A shift to the left of an integer element, within the width of its type. -/
theorem iOnly_shlR_mod {t : Ty} {sg : Bool} {n a b : Nat} (ht : t = .int sg n) :
    iOnly (fun _ n x _ => shlR n x (b : Int)) t a b % 2 ^ t.width = (if b % 128 < n then a * 2 ^ (b % 128) else 0) % 2 ^ t.width := by
  have hshl (x : Int) : shlR n x (b : Int) = if b % 128 < n then x * ((2 ^ (b % 128) : Nat) : Int) else 0 := rfl
  rw [iOnly, vElem2_int ht, show t.width = n by rw [ht]; rfl, Nat.mod_eq_of_lt (wrapN_lt _ n), hshl]
  split
  · exact wrapN_extI_mul sg n a _
  · rw [wrapN_zero, Nat.zero_mod]

/-- Settles O27: each form by what it does to an element; VEXTR has one result. -/
theorem vectorBitsAndMoves : Obligations.VectorBitsAndMoves := by
  unfold Obligations.VectorBitsAndMoves
  intro s k w f
  refine ⟨?and, ?or, ?xor, ?not, ?shl, ?shr, ?mov, ?bcast, ?sel, ?perm, ?rot, ?ins, ?iota, ?extr⟩
  case and => exact fun h => lanesLand_vec2 h rfl fun _ => rfl
  case or => exact fun h => lanesLand_vec2 h rfl fun _ => rfl
  case xor => exact fun h => lanesLand_vec2 h rfl fun _ => rfl
  case not => exact fun h => lanesLand_vec1 h rfl fun _ => compl_eq_xor (elem_lt _ _ _)
  case shl => exact fun sg n hw h => lanesLand_congr_mod (lanesLand_vec2 h rfl fun _ => rfl) fun _ => iOnly_shlR_mod hw
  case shr => exact fun sg n hw h => lanesLand_vec2 h rfl fun _ => vElem2_int hw
  case mov => exact fun h => lanesLand_vec1 h rfl fun _ => rfl
  case bcast => exact fun h => lanesLand_of_vecOp h rfl rfl
  case sel => exact fun h => lanesLand_of_vecOp h rfl rfl
  case perm => exact fun h => lanesLand_of_vecOp h rfl rfl
  case rot => exact fun h => lanesLand_of_vecOp h rfl rfl
  case ins => exact fun h => lanesLand_of_vecOp h rfl rfl
  case iota => exact fun h => lanesLand_of_vecOp h rfl rfl
  case extr => exact fun h => resultLands_of (State.runOp_performs h _ _)

end Sys2Proof.Proofs
end

section
/-! PROOFS. VCMP and the predicate forms (O30). -/

namespace Sys2Proof.Proofs

open Sys2Proof Sys2Proof.Machine Sys2Proof.Safety

/-! Bits of a predicate (R70, R215). -/

/-- Each bit of a predicate that is built from its bits. -/
theorem buildP_bit (f : Nat → Bool) {j : Nat} (h : j < 512) : (buildP f).getLsbD j = f j := by
  have hl : ((upto 512).map fun i => b2n (f i)).length = 512 := by simp [upto]
  have hplace := packNat_element 1 _ j (h.trans_eq hl.symm)
  rw [Nat.mul_one, pow_one] at hplace
  rw [buildP, BitVec.getLsbD_ofNat, decide_eq_true h, Bool.true_and, Nat.testBit_eq_decide_div_mod_eq, ← Nat.shiftRight_eq_div_pow,
    hplace, List.getD_eq_getElem?_getD, List.getElem?_map, upto, List.getElem?_range h]
  show decide (b2n (f j) % 2 = 1) = f j
  cases f j <;> rfl

/-- A bit of a predicate source is the bit of its value. -/
theorem pbit_ofNat (x : Nat) {j : Nat} (h : j < 512) : (BitVec.ofNat 512 x).getLsbD j = x.testBit j := by
  rw [BitVec.getLsbD_ofNat, decide_eq_true h, Bool.true_and]

section
variable {s : State} {k : Cur} {i : Instr} {f : Form}

/-- A form that acts bit by bit under its guard. -/
theorem bitsLand_of_predForm {g : Bool → Bool → Bool} (h : Performs s k i f) (hi : exec i s = s.runOp i fun s r => s.predForm r g) :
    ∃ p : PReg, ResultLands s k i f .p p.toNat ∧ ∀ j, j < 512 → p.getLsbD j =
      if bitActive (opOf k i f).g f.sense j then g (((opOf k i f).src 0).testBit j) (((opOf k i f).src 1).testBit j)
      else (k.before.pred f.dst).getLsbD j := by
  refine ⟨_, resultLands_of (hi.trans (State.runOp_performs h _ _)), fun j hj => ?_⟩
  rw [predOp, buildP_bit _ hj, pbit_ofNat _ hj, pbit_ofNat _ hj]
  rfl

end

/-- The active bits of a predicate source that are 1, rising (R215). -/
theorem activeOnes_eq (g : Option PReg) (sense : Bool) (x : Nat) :
    ((upto 512).filter fun j => bitActive g sense j && (BitVec.ofNat 512 x).getLsbD j) =
      (List.range 512).filter fun j => bitActive g sense j && x.testBit j :=
  List.filter_congr fun _ hj => by rw [pbit_ofNat x (List.mem_range.mp hj)]

theorem predCount_eq (g : Option PReg) (sense : Bool) (x : Nat) : predCount g sense (BitVec.ofNat 512 x) =
    ((List.range 512).filter fun j => bitActive g sense j && x.testBit j).length := by
  rw [predCount, activeOnes_eq]

theorem predFirst_eq_headD (g : Option PReg) (sense : Bool) (a : PReg) : predFirst g sense a =
    ((upto 512).filter fun j => bitActive g sense j && a.getLsbD j).headD 512 := by
  rw [List.headD_eq_head?_getD, List.head?_filter, ← findFirst_eq_find?]
  unfold predFirst
  split
  · next hj => rw [hj, Option.getD_some]
  · next hj => rw [hj, Option.getD_none]

theorem predFirst_eq (g : Option PReg) (sense : Bool) (x : Nat) : predFirst g sense (BitVec.ofNat 512 x) =
    ((List.range 512).filter fun j => bitActive g sense j && x.testBit j).headD 512 := by
  rw [predFirst_eq_headD, activeOnes_eq]

/-- What VCMP writes in a bit (R213). -/
theorem predCmp_bit (t : Ty) (g : Option PReg) (sense : Bool) (cc : Nat) (va vb : VReg) (old : PReg) {b : Nat} (h : b < 512) :
    (predCmp t g sense cc va vb old).getLsbD b =
      (let test := fun j => condElem t cc (elem t.width va j) (elem t.width vb j)
       let act := fun j => elemActive g sense t.width j
       if t.width = 8 then (if act (2 * b) then test (2 * b) && test (2 * b + 1) else old.getLsbD b)
       else if t.count ≤ b then false
       else if act b then test b else old.getLsbD b) := by
  rw [predCmp, buildP_bit _ h]
  dsimp only
  by_cases hw : t.width = 8
  · rw [if_pos hw, if_pos hw, hw]
  · rw [if_neg hw, if_neg hw]

/-- Settles O30: each bit of the predicate that a form builds, and the active bits that the counting forms count. -/
theorem predicateAndCompare : Obligations.PredicateAndCompare := by
  unfold Obligations.PredicateAndCompare
  refine ⟨fun s k w f h => ?cmp, fun s k w f => ?bits⟩
  case cmp => exact ⟨_, resultLands_of (State.runOp_performs h _ _), fun b hb => predCmp_bit _ _ _ _ _ _ _ hb⟩
  case bits =>
    intro bitsOf ones
    refine ⟨fun h => bitsLand_of_predForm h rfl, fun h => bitsLand_of_predForm h rfl, fun h => bitsLand_of_predForm h rfl,
      fun h => bitsLand_of_predForm h rfl, fun h => bitsLand_of_predForm h rfl, fun h => ?count, fun h => ?first⟩
    case count => exact predCount_eq _ _ _ ▸ resultLands_of (State.runOp_performs h _ _)
    case first => exact predFirst_eq _ _ _ ▸ resultLands_of (State.runOp_performs h _ _)

end Sys2Proof.Proofs
end

section
/-! PROOFS. Loads and stores enter their queues (O31, O32). -/

namespace Sys2Proof.Proofs

open Sys2Proof Sys2Proof.Machine Sys2Proof.Safety

section
variable (s : State) (k : Cur) (f : Form)

/-- The context once load `e` stands in its queue, its result in flight without a value. -/
def loadCtx (cls : Cls) (lat : Nat) (e : QEntry) : Ctx :=
  { latched s k f with
    loadQ := (s.ctx k.ctx).loadQ ++ [e], inflight := (s.ctx k.ctx).inflight ++ newLanding s k f cls lat none s.serial }

/-- The context once its store queue is `q`. -/
def storeCtx (q : List QEntry) : Ctx := { latched s k f with storeQ := q }

variable {s k f} {i : Instr}

/-- An entry holds what its operation read, however long it is to wait. -/
theorem entryOf_entry (wait due tile : Nat) (addrs : List Nat) :
    EntryOf ((opOf k i f).entry (opened s k f) s.serial wait due tile addrs) s k i f tile addrs :=
  ⟨rfl, rfl, rfl, rfl, rfl, rfl, rfl, rfl, ⟨rfl, rfl⟩, rfl, ⟨rfl, rfl⟩⟩

/-- A load that enters its queue: its entry stands last, under the number and after the wait that it takes. -/
theorem pushLoad_eq (cls : Cls) (tile : Nat) (addrs : List Nat) (more : Nat) : ∃ e, EntryOf e s k i f tile addrs ∧
    (opened s k f).pushLoad (opOf k i f) cls tile addrs more = (numbered s k).setCtx k.ctx (loadCtx s k f cls (f.lat + more) e) := by
  obtain ⟨wait, hpush⟩ : ∃ wait, (opened s k f).pushLoad (opOf k i f) cls tile addrs more =
      let q := ((numbered s k).setCtx k.ctx (latched s k f)).updCtx k.ctx fun x =>
        { x with loadQ := x.loadQ ++ [(opOf k i f).entry (opened s k f) s.serial wait (f.lat + more) tile addrs] }
      if (decide (cls = .s) && decide (f.dst = 0)) = true then q else q.land k.ctx f.slot cls f.dst (f.lat + more) none s.serial :=
    ⟨_, rfl⟩
  refine ⟨_, entryOf_entry wait (f.lat + more) tile addrs, hpush.trans ?_⟩
  rw [updCtx_setCtx]
  unfold loadCtx newLanding
  by_cases hz : cls = .s ∧ f.dst = 0
  · rw [if_pos hz, List.append_nil, hz.1, hz.2]
    rfl
  · rw [if_neg hz, if_neg (by simpa using hz), State.land_eq, if_neg (fun e => hz ⟨e.1, e.2.1⟩), State.ctx_setCtx_self, setCtx_setCtx]
    rfl

/-- A store to a tile may be translated as it enters; that changes what is known of entries alone (R72, R150). -/
theorem knowTile_setCtx (t : State) (c : Nat) (x : Ctx) (e : QEntry) : ∃ q, q.map bare = x.storeQ.map bare ∧
    (t.setCtx c x).knowTile c e = t.setCtx c { x with storeQ := q } := by
  unfold State.knowTile
  split
  · split
    · refine ⟨mapIf (fun a => decide (a.id = e.id)) _ x.storeQ, ?_, updCtx_setCtx _ _ _ _⟩
      rw [mapIf, List.map_map]
      exact List.map_congr_left fun a _ => (apply_ite bare _ _ _).trans (ite_self _)
    · exact ⟨x.storeQ, rfl, rfl⟩
  · exact ⟨x.storeQ, rfl, rfl⟩

/-- A store that enters its queue: its entry stands last, under the number and after the wait that it takes. -/
theorem pushStore_eq (tile : Nat) (addrs : List Nat) : ∃ e q, EntryOf e s k i f tile addrs ∧ e.data = (opOf k i f).src 2 ∧
    q.map bare = ((s.ctx k.ctx).storeQ ++ [e]).map bare ∧
    (opened s k f).pushStore (opOf k i f) tile addrs = (numbered s k).setCtx k.ctx (storeCtx s k f q) := by
  obtain ⟨wait, hpush⟩ : ∃ wait,
      let e := (opOf k i f).entry (opened s k f) s.serial wait 0 tile addrs
      let t := ((numbered s k).setCtx k.ctx (latched s k f)).updCtx k.ctx fun x => { x with storeQ := x.storeQ ++ [e] }
      (opened s k f).pushStore (opOf k i f) tile addrs = if tile = 0 then t else t.knowTile k.ctx e := ⟨_, rfl⟩
  dsimp only at hpush
  rw [updCtx_setCtx] at hpush
  by_cases htile : tile = 0
  · rw [if_pos htile] at hpush
    exact ⟨_, _, entryOf_entry wait 0 tile addrs, rfl, rfl, hpush⟩
  · rw [if_neg htile] at hpush
    obtain ⟨q, hq, hknow⟩ := knowTile_setCtx (numbered s k) k.ctx _ _
    exact ⟨_, q, entryOf_entry wait 0 tile addrs, rfl, hq, hpush.trans hknow⟩

/-- The advance of the set that a form drew from changes its context alone (R197). -/
theorem advanceSet_setCtx (x : Ctx) (b : BitVec 512) : ((numbered s k).setCtx k.ctx x).advanceSet (opOf k i f) b =
    (numbered s k).setCtx k.ctx (advanced s k f b x) := by
  unfold State.advanceSet advanced opOf
  dsimp only
  by_cases hheld : (f.fld 0).val = 0xFF
  · rw [if_pos hheld, if_pos hheld]
    exact updCtx_setCtx _ _ _ _
  · rw [if_neg hheld, if_neg hheld, State.land_eq, if_neg (fun e => nomatch e.1), State.ctx_setCtx_self, setCtx_setCtx]
    rfl

/-- An operation that puts a load in its queue. -/
theorem loadQueues_of {cls : Cls} {tile : Nat} {addrs : List Nat}
    (h : exec i s = .next ((opened s k f).pushLoad (opOf k i f) cls tile addrs 0)) : LoadQueues s k i f cls f.lat tile addrs := by
  obtain ⟨e, he, hpush⟩ := pushLoad_eq cls tile addrs 0
  exact ⟨_, e, h.trans (congrArg _ hpush), ⟨numbered_onlyQueue _, rfl, State.ctx_setCtx_self _ _ _⟩, he⟩

theorem gatherQueues_of (h : exec i s = .next ((opened s k f).gather (opOf k i f))) : GatherQueues s k i f := by
  unfold GatherQueues
  intro d
  obtain ⟨e, he, hpush⟩ := pushLoad_eq (s := s) (k := k) (f := f) (i := i) .v d.2.2 d.1 (drawMore (opOf k i f))
  have hgather : (opened s k f).gather (opOf k i f) = _ :=
    (congrArg (fun t : State => t.advanceSet (opOf k i f) d.2.1) hpush).trans (advanceSet_setCtx _ _)
  exact ⟨_, e, h.trans (congrArg _ hgather), ⟨numbered_onlyQueue _, rfl, State.ctx_setCtx_self _ _ _⟩, he⟩

/-- An operation that puts a store in its queue. -/
theorem storeQueues_of {tile : Nat} {addrs : List Nat}
    (h : exec i s = .next ((opened s k f).pushStore (opOf k i f) tile addrs)) : StoreQueues s k i f tile addrs := by
  obtain ⟨e, q, he, hdata, hq, hpush⟩ := pushStore_eq tile addrs
  exact ⟨_, e, h.trans (congrArg _ hpush), ⟨q, numbered_onlyQueue _, rfl, State.ctx_setCtx_self _ _ _, hq⟩, he, hdata⟩

theorem scatterQueues_of (h : exec i s = .next ((opened s k f).scatter (opOf k i f))) : ScatterQueues s k i f := by
  unfold ScatterQueues
  intro d
  obtain ⟨e, q, he, hdata, hq, hpush⟩ := pushStore_eq (s := s) (k := k) (f := f) (i := i) d.2.2 d.1
  have hscatter : (opened s k f).scatter (opOf k i f) = _ :=
    (congrArg (fun t : State => t.advanceSet (opOf k i f) d.2.1) hpush).trans (advanceSet_setCtx _ _)
  exact ⟨_, e, h.trans (congrArg _ hscatter), ⟨q, numbered_onlyQueue _, rfl, State.ctx_setCtx_self _ _ _, hq⟩, he, hdata⟩

end

/-- Settles O31: each load puts its entry in the load queue, and a gather advances its set. -/
theorem loadsQueue : Obligations.LoadsQueue := by
  unfold Obligations.LoadsQueue
  intro s k f
  refine ⟨?ld, ?vld, ?pld, ?tld, ?vldg, ?tldg, ?shseal⟩
  case ld => exact fun w h => loadQueues_of (State.runOp_performs h _ _)
  case vld => exact fun w h => loadQueues_of (State.runOp_performs h _ _)
  case pld => exact fun w h => loadQueues_of (State.runOp_performs h _ _)
  case tld => exact fun w h => loadQueues_of (State.runOp_performs h _ _)
  case vldg => exact fun w h => gatherQueues_of (State.runOp_performs h _ _)
  case tldg => exact fun w h => gatherQueues_of (State.runOp_performs h _ _)
  case shseal => exact fun w h => loadQueues_of (State.runOp_performs h _ _)

/-- Settles O32: each store puts its entry in the store queue, and a scatter advances its set. -/
theorem storesQueue : Obligations.StoresQueue := by
  unfold Obligations.StoresQueue
  intro s k f w
  refine ⟨?st, ?stnt, ?vst, ?pst, ?tst, ?vsts, ?tsts⟩
  case st => exact fun h => storeQueues_of (State.runOp_performs h _ _)
  case stnt => exact fun h => storeQueues_of (State.runOp_performs h _ _)
  case vst => exact fun h => storeQueues_of (State.runOp_performs h _ _)
  case pst => exact fun h => storeQueues_of (State.runOp_performs h _ _)
  case tst => exact fun h => storeQueues_of (State.runOp_performs h _ _)
  case vsts => exact fun h => scatterQueues_of (State.runOp_performs h _ _)
  case tsts => exact fun h => scatterQueues_of (State.runOp_performs h _ _)

end Sys2Proof.Proofs
end

section
/-! PROOFS. What reset leaves (O10), and the levels of the forms (O18). -/

namespace Sys2Proof.Proofs

open Sys2Proof Sys2Proof.Machine Sys2Proof.Safety

/-- Settles O10: every table of the reset state is empty, so each part reads as its default. -/
theorem resetState : Obligations.ResetState := by
  unfold Obligations.ResetState
  exact ⟨⟨rfl, rfl⟩, rfl, fun _ => rfl, fun _ => rfl, fun _ => rfl, rfl, rfl, rfl, rfl, rfl, rfl⟩

/-! A form of slot C names its level; every other form is of level U (Tables 9.18, 10.10). -/

@[simp] theorem cForm_level (w : CW) (fa fb : Role) (ok : Bool) (lat : Nat) (lev : Level) : (cForm w fa fb ok lat lev).level = lev := rfl
@[simp] theorem scalarForm_level (w : ABW) (two : Bool) (lat : Nat) : (scalarForm w two lat).level = .U := rfl
@[simp] theorem cmpForm_level (w : ABW) : (cmpForm w).level = .U := rfl
@[simp] theorem selForm_level (w : ABW) : (selForm w).level = .U := rfl
@[simp] theorem bForm_level (w : ABW) (d a b : Role) (ok : Bool) (lat : Nat) : (bForm w d a b ok lat).level = .U := rfl
@[simp] theorem vForm_level (w : VW) (d a b c : Role) (ok ok2 : Bool) (lat : Nat) (ew : Bool) :
    (vForm w d a b c ok ok2 lat ew).level = .U := rfl
@[simp] theorem lForm_level (w : LW) (d a b : Role) (ok rest : Bool) (lat : Nat) (ew : Bool) :
    (lForm w d a b ok rest lat ew).level = .U := rfl
@[simp] theorem hintForm_level : hintForm.level = .U := rfl
@[simp] theorem wForm_level (w : WW) (d a b : Role) (ok rest ew : Bool) : (wForm w d a b ok rest ew).level = .U := rfl
@[simp] theorem markForm_level (w : WW) : (markForm w).level = .U := rfl
@[simp] theorem mForm_level (w : MW) (d a b : Role) (call : Bool) (lat : Nat) : (mForm w d a b call lat).level = .U := rfl
@[simp] theorem eForm_level (w : EW) (a b : Role) (ext : Option Bool) (rest : Bool) : (eForm w a b ext rest).level = .U := rfl
@[simp] theorem xForm_level (w : XW) (d a b : Role) (ok ok2 : Bool) (lat : Nat) : (xForm w d a b ok ok2 lat).level = .U := rfl

/-- Settles O18: each instruction's form is built for its slot, and only those of slot C name another level than U. -/
theorem levelsOfForms : Obligations.LevelsOfForms := by
  unfold Obligations.LevelsOfForms
  intro i f h
  cases i <;> cases h <;> simp

end Sys2Proof.Proofs
end

section
/-! PROOFS. Every step answers a next state and keeps the canonical form of memory (O8, O9): the base. -/

namespace Sys2Proof.Proofs

open Sys2Proof Sys2Proof.Machine Sys2Proof.Safety

section
variable {s : State} (h : MemWf s)
include h

theorem memWf_of_memStep {t : State} (g : MemStep s t) : MemWf t :=
  ⟨g.form h.1, by rw [g.rest]; exact h.2⟩

theorem memWf_congr {t : State} (hm : t.mem = s.mem) (hr : t.remote = s.remote) : MemWf t :=
  ⟨hm ▸ h.1, hr ▸ h.2⟩

theorem memWf_mapCtxs (f : Nat → Ctx → Ctx) : MemWf (s.mapCtxs f) := by
  rw [(State.mapCtxs_spec s f).1]
  exact h

theorem memWf_setRemoteBytes (k : Nat) (l : List Byte) : MemWf (s.setRemoteBytes k l) := by
  obtain ⟨rest, form⟩ := setRemoteBytes_step l s k
  rw [rest]
  exact ⟨h.1, form h.2⟩

theorem memWf_foldl {α : Type} {f : State → α → State} (hf : ∀ t a, MemWf t → MemWf (f t a)) (l : List α) :
    MemWf (l.foldl f s) := by
  induction l generalizing s with
  | nil => exact h
  | cons a l ih => exact ih (hf s a h)

end

end Sys2Proof.Proofs
end

section
/-! PROOFS. Memory keeps its form: registers, faults, accesses and queues (O9). -/

namespace Sys2Proof.Proofs

open Sys2Proof Sys2Proof.Machine Sys2Proof.Safety

-- One proof at a time: proofs that wait for one another hold a thread each, and the check's memory is bounded.
set_option Elab.async false

section
variable {s : State} (h : MemWf s)
include h

theorem memWf_setCtx (c : Nat) (x : Ctx) : MemWf (s.setCtx c x) := h

theorem memWf_setCol (n : Nat) (x : Col) : MemWf (s.setCol n x) := h

theorem memWf_setOwner (o : Nat) (x : Owner) : MemWf (s.setOwner o x) := h

theorem memWf_updCtx (c : Nat) (f : Ctx → Ctx) : MemWf (s.updCtx c f) := h

theorem memWf_updCore (n : Nat) (f : Core → Core) : MemWf (s.updCore n f) := h

theorem memWf_updQuad (n : Nat) (f : Quad → Quad) : MemWf (s.updQuad n f) := h

theorem memWf_updStack (n : Nat) (f : Stack → Stack) : MemWf (s.updStack n f) := h

theorem memWf_updPart (p : Nat) (f : Part → Part) : MemWf (s.updPart p f) := h

theorem memWf_updOwner (o : Nat) (f : Owner → Owner) : MemWf (s.updOwner o f) := h

theorem memWf_updPkg (f : Pkg → Pkg) : MemWf (s.updPkg f) := h

theorem memWf_newSerial : MemWf s.newSerial.2 := h

theorem memWf_newFree : MemWf s.newFree.2 := h

theorem memWf_newWait : MemWf s.newWait.2 := h

theorem memWf_raise (v : Nat) : MemWf (s.raise v) := h

theorem memWf_freeGen (g : Nat) : MemWf (s.freeGen g) := by
  unfold State.freeGen
  split <;> exact h

theorem memWf_bumpGen (g : Nat) : MemWf (s.bumpGen g) := by
  unfold State.bumpGen
  grind [memWf_congr, memWf_freeGen]

theorem memWf_land (c : Nat) (sl : Slot) (cls : Cls) (n lat : Nat) (v : Option Nat) (src : Nat) : MemWf (s.land c sl cls n lat v src) := by
  unfold State.land
  split <;> exact h

theorem memWf_result (c : Nat) (f : Form) (cls : Cls) (v : Nat) : MemWf (s.result c f cls v) := by
  unfold State.result
  grind [memWf_land]

theorem memWf_takeFault (c : Nat) (f : FaultInfo) (before : Bool) : MemWf (s.takeFault c f before) := by
  unfold State.takeFault
  grind [memWf_congr, memWf_setCtx]

theorem memWf_tdiEnterError (p : Nat) : MemWf (s.tdiEnterError p) := by
  unfold State.tdiEnterError
  grind [memWf_updPart, memWf_mapCtxs, memWf_raise]

theorem memWf_setRawBytes (pa : Nat) (l : List Byte) : MemWf (s.setRawBytes pa l) :=
  memWf_of_memStep h (setRawBytes_step l s pa)

theorem memWf_addDemand (cls inst n : Nat) : MemWf (s.addDemand cls inst n) := h

theorem memWf_setL2 (k : Nat) (x : L2Set) : MemWf (s.setL2 k x) := h

theorem memWf_addOcc (slice o : Nat) (up : Bool) : MemWf (s.addOcc slice o up) := h

theorem memWf_writeBack (part : Nat) (w : Option Way) : MemWf (s.writeBack part w) :=
  memWf_of_memStep h (writeBack_step _ _ _)

theorem memWf_fill (p : Port) (slice line : Nat) : MemWf (s.fill p slice line).1 :=
  memWf_of_memStep h (fill_step _ _ _ _)

theorem memWf_unpoison (line : Nat) (d : List Byte) : MemWf (s.unpoison line d) :=
  memWf_of_memStep h (unpoison_step _ _ _)

theorem memWf_readPa (p : Port) (pa n : Nat) : MemWf (s.readPa p pa n).1 :=
  memWf_of_memStep h (readPa_step _ _ _ _)

theorem memWf_writePa (p : Port) (pa : Nat) (d : List Byte) : MemWf (s.writePa p pa d) :=
  memWf_of_memStep h (writePa_step _ _ _ _)

theorem memWf_guardHit (p : Nat) : MemWf (s.guardHit p) := by
  unfold State.guardHit
  grind [memWf_tdiEnterError]

theorem memWf_snoopFirst (pa : Nat) : MemWf (s.snoopFirst pa).1 := by
  unfold State.snoopFirst
  grind [memWf_updPkg]

theorem memWf_postedWrite (q : Posted) : MemWf (s.postedWrite q).1 := by
  unfold State.postedWrite
  grind [memWf_raise, memWf_guardHit, memWf_snoopFirst, memWf_writePa]

theorem memWf_postWrite (q : Posted) : MemWf (s.postWrite q) := by
  unfold State.postWrite
  grind [memWf_updPkg, memWf_postedWrite]

theorem memWf_drainPosted : MemWf s.drainPosted :=
  memWf_foldl (memWf_updPkg h _) (fun _ q ht => memWf_postWrite ht q) _

theorem memWf_ownWrite (part pa : Nat) (d : List Byte) : MemWf (s.ownWrite part pa d) :=
  memWf_foldl h (fun _ _ ht => memWf_postWrite ht _) _

theorem memWf_count (part word : Nat) : MemWf (s.count part word) := by
  unfold State.count
  grind [memWf_postWrite]

theorem memWf_updTile (id : Nat) (f : Tile → Tile) : MemWf (s.updTile id f) := h

theorem memWf_updQuire (id : Nat) (f : Quire → Quire) : MemWf (s.updQuire id f) := h

theorem memWf_readPlace (y : Eye) (p : Port) (pl : Place) (n : Nat) : MemWf (s.readPlace y p pl n).1 := by
  unfold State.readPlace
  grind [memWf_readPa]

theorem memWf_writeUnit (p : Port) (u : WUnit) : MemWf (s.writeUnit p u) := by
  unfold State.writeUnit
  grind [memWf_writePa, memWf_updTile]

theorem memWf_fillTlb1 (u : Tlb) (t : Trans) : MemWf (s.fillTlb1 u t) := h

theorem memWf_setC (t : Trans) : MemWf (s.setC t) := by
  unfold State.setC
  split <;> exact h

theorem memWf_askHost (p : Nat) : MemWf (s.askHost p) := h

theorem memWf_useAsks (ks : List Nat) : MemWf (s.useAsks ks) := by
  unfold State.useAsks
  split <;> exact h

theorem memWf_useRefused (part : Nat) : MemWf (s.useRefused part) := by
  unfold State.useRefused
  grind [memWf_useAsks]

theorem memWf_tickAsks : MemWf s.tickAsks := by
  unfold State.tickAsks
  split <;> exact h

theorem memWf_translate (u : Tlb) (part tenant va : Nat) : MemWf (s.translate u part tenant va).1 := by
  unfold State.translate
  grind [memWf_fillTlb1, memWf_useAsks, memWf_setC, memWf_updStack, memWf_askHost]

theorem memWf_access (u : Tlb) (part tenant : Nat) (lvl : Level) (want : Want) (remoteOk : Bool) (va align : Nat) : MemWf (s.access u part
    tenant lvl want remoteOk va align).1 := by
  unfold State.access
  grind [memWf_translate, memWf_count]

theorem memWf_enter (c : Nat) : MemWf (s.enter c) := h

theorem memWf_fetchCached (c a n : Nat) : MemWf (s.fetchCached c a n) := by
  unfold State.fetchCached
  grind [memWf_translate]

theorem memWf_sysWrite (c n v : Nat) : MemWf (s.sysWrite c n v) := by
  unfold State.sysWrite
  split <;> exact h

theorem memWf_pushLetter (part : Nat) (l : BitVec 512) : MemWf (s.pushLetter part l) := h

theorem memWf_faultBundle (c : Nat) (f : FaultInfo) (rs : List Run) : MemWf (s.faultBundle c f rs) := by
  unfold State.faultBundle
  grind [memWf_takeFault, memWf_tdiEnterError, memWf_count, memWf_useRefused]

theorem memWf_beginBundle (c : Nat) : MemWf (s.beginBundle c) := by
  unfold State.beginBundle
  grind [memWf_congr, memWf_faultBundle, memWf_fetchCached, memWf_setCtx]

theorem memWf_noSup (r : Run) : MemWf (noSup s r) := h

theorem memWf_finishBundle (k : Cur) : MemWf (s.finishBundle k) := by
  have ha : MemWf ({ s with cur := none }.updCtx k.ctx fun x => x.advance k (s.now k.ctx)) := h
  have he : ∀ {t : State}, MemWf t → MemWf (if (t.ctx k.ctx).pc = k.h + k.size then t else t.enter k.ctx) :=
    fun ht => by split; exacts [ht, memWf_enter ht _]
  unfold State.finishBundle
  dsimp only
  split
  · exact memWf_takeFault (memWf_updCtx (he ha) _ _) _ _ _
  · exact he ha

theorem memWf_jumpTo (t : Nat) (branch : Bool) : MemWf (s.jumpTo t branch) := by
  unfold State.jumpTo
  split
  · exact h
  · exact h

theorem memWf_merge : MemWf s.merge := by
  have hs := memWf_foldl (f := fun t c => t.updCtx c fun x => x.afterMerge (s.look c)
    (((coresOf s.live).flatMap fun k => pickTwo ((s.readyOf k).filter fun e => s.live.contains e.1)).contains c)) h
    (fun _ _ ht => memWf_updCtx ht _ _) s.live
  exact memWf_foldl (f := fun t c => match (if s.look c = .blocked then s.fetchWants c else none) with
    | some p => t.askHost p
    | none => t) hs (fun t c ht => by split; exacts [memWf_askHost ht _, ht]) s.live

theorem memWf_callTo (r : Run) (t : Nat) : MemWf (s.callTo r t) := by
  unfold State.callTo
  grind [memWf_result, memWf_updCtx, memWf_jumpTo]

theorem memWf_retryWalks (c : Nat) : MemWf (s.retryWalks c) := h

theorem memWf_enqueueWith (r : Run) (nop : Bool) (shape : Option (Option (BitVec 768))) (vecs : List VReg) : MemWf (s.enqueueWith r nop
    shape vecs) :=
  h

theorem memWf_enqueue (r : Run) : MemWf (s.enqueue r) := h

theorem memWf_enqueueNop (r : Run) : MemWf (s.enqueueNop r) := h

theorem memWf_updCmd (id : Nat) (f : ECmd → ECmd) : MemWf (s.updCmd id f) := h

theorem memWf_doneCmd (id : Nat) (fail : Option Rec) : MemWf (s.doneCmd id fail) := h

theorem memWf_failCmd (e : ECmd) (code adr : Nat) : MemWf (s.failCmd e code adr) := h

theorem memWf_failXlate (e : ECmd) (code adr : Nat) : MemWf (s.failXlate e code adr) := h

theorem memWf_addPool (slice part n : Nat) : MemWf (s.addPool slice part n) := h

theorem memWf_settle (slice c : Nat) : MemWf (s.settle slice c) := by
  unfold State.settle
  dsimp only
  split
  · exact h
  · exact memWf_addPool (memWf_setCtx h c _) slice _ _

theorem memWf_settleAll (slice part : Nat) : MemWf (s.settleAll slice part) :=
  memWf_foldl h (fun _ _ ht => by split; exacts [memWf_settle ht _ _, ht]) _

theorem memWf_settleCtx (c : Nat) : MemWf (s.settleCtx c) := memWf_foldl h (fun _ _ ht => memWf_settle ht _ _) _

theorem memWf_payFrom (c slice bytes : Nat) (normal : Bool) : MemWf (s.payFrom c slice bytes normal) := by
  unfold State.payFrom
  split <;> exact h

theorem memWf_setPort (n : Nat) (p : SlicePort) : MemWf (s.setPort n p) := h

theorem memWf_charge (c slice bytes id : Nat) : MemWf (s.charge c slice bytes id).1 := by
  have hs := memWf_settleAll h slice (s.ctx c).part
  unfold State.charge
  dsimp only
  generalize s.settleAll slice (s.ctx c).part = t at hs ⊢
  split
  · split
    · exact memWf_addDemand (memWf_setPort (memWf_payFrom hs c slice bytes _) slice _) 2 slice bytes
    · exact memWf_setPort hs slice _
  · exact memWf_setPort hs slice _

theorem memWf_setBucket (o rate depth : Nat) : MemWf (s.setBucket o rate depth) := by
  refine memWf_updOwner (memWf_foldl h (fun t e ht => ?_) _) o _
  split
  · exact memWf_foldl ht (fun u sl hu => memWf_addPool (memWf_setCtx (memWf_settle hu sl e.1) _ _) _ _ _) _
  · exact ht

theorem memWf_hflog (words : List Nat) (irq : Nat) : MemWf (s.hflog words irq) := by
  unfold State.hflog
  grind [memWf_raise, memWf_updPkg, memWf_postWrite]

theorem memWf_kill (c code adr : Nat) (op : Option FaultInfo) : MemWf (s.kill c code adr op) := by
  unfold State.kill
  grind [memWf_setCtx]

theorem memWf_chargeReader (r : Reader) (code adr : Nat) : MemWf (s.chargeReader r code adr).1 := by
  cases r with
  | none => exact h
  | ctx c op => exact memWf_kill h c code adr op
  | cmd id =>
    unfold State.chargeReader
    grind [memWf_updCmd, memWf_doneCmd]

theorem memWf_killAll (l : List Nat) (adr : Nat) (r : Reader) : MemWf (s.killAll l adr r) :=
  memWf_foldl h (fun _ _ ht => memWf_kill ht _ _ _ _) _

theorem memWf_dropTlb1 (quad idx n : Nat) : MemWf (s.dropTlb1 quad idx n) := h

theorem memWf_storeLost (core : Nat) : MemWf (s.storeLost core).1 := h

theorem memWf_retirePage (pa : Nat) : MemWf (s.retirePage pa) := by
  unfold State.retirePage
  grind [memWf_updPkg, memWf_count]

theorem memWf_dropWay (part slice set way : Nat) : MemWf (s.dropWay part slice set way) :=
  memWf_of_memStep h (dropWay_step _ _ _ _ _)

theorem memWf_quarantine (part slice set way : Nat) : MemWf (s.quarantine part slice set way) := by
  unfold State.quarantine
  grind [memWf_dropWay, memWf_setL2, memWf_count]

theorem memWf_uncorrectable_row (u : UnitD) (r : Reader) (base : Bool) : MemWf (State.uncorrectable.row s u r base).s := by
  unfold State.uncorrectable.row
  split
  · exact h
  · exact memWf_chargeReader (memWf_updTile h _ _) r 3 u.unit

theorem memWf_uncorrectable_store (u : UnitD) (r : Reader) : MemWf (State.uncorrectable.store s u r).s :=
  memWf_killAll (memWf_storeLost h u.unit) _ u.unit r

theorem memWf_uncorrectable (u : UnitD) (r : Reader) : MemWf (s.uncorrectable u r).s := by
  unfold State.uncorrectable
  grind [memWf_uncorrectable_row, memWf_uncorrectable_store, memWf_dropWay, memWf_quarantine, memWf_updPkg, memWf_retirePage,
    memWf_killAll, memWf_chargeReader, memWf_kill, memWf_updStack, memWf_updCtx, memWf_updQuad, memWf_dropTlb1]

theorem memWf_startTest (desc : Word) (ctx : Option Nat) (w0 retired : Nat) (killed : List Nat) :
    MemWf (s.startTest desc ctx w0 retired killed) := h

theorem memWf_strike (desc : Word) (unc inj lasting : Bool) (r : Reader) : MemWf (s.strike desc unc inj lasting r) := by
  unfold State.strike
  grind [memWf_uncorrectable, memWf_count, memWf_startTest]

theorem memWf_poisonRead (r : Reader) (desc adr : Nat) : MemWf (s.poisonRead r desc adr) := by
  unfold State.poisonRead
  grind [memWf_congr, memWf_chargeReader, memWf_count, memWf_startTest]

theorem memWf_poisonLine (r : Reader) (pa : Nat) : MemWf (s.poisonLine r pa) := by
  unfold State.poisonLine
  grind [memWf_poisonRead]

theorem memWf_strikeArmed (r : Reader) (hit : UnitD → Bool) : MemWf (s.strikeArmed r hit) := by
  unfold State.strikeArmed
  grind [memWf_updPkg, memWf_strike]

theorem memWf_strikeTest (desc : Word) : MemWf (s.strikeTest desc) := by
  unfold State.strikeTest
  grind [memWf_strikeArmed]

theorem memWf_strikeMem (r : Reader) (p : Port) (pa n : Nat) (write : Bool) : MemWf (s.strikeMem r p pa n write) := by
  unfold State.strikeMem
  grind [memWf_strikeArmed]

theorem memWf_strikeFrames (part : Nat) (sel : Nat → Way → Bool) : MemWf (s.strikeFrames part sel) := by
  unfold State.strikeFrames
  grind [memWf_strikeArmed]

theorem memWf_strikeTile (r : Reader) (t : Tile) (off n : Nat) : MemWf (s.strikeTile r t off n) := by
  unfold State.strikeTile
  grind [memWf_strikeArmed]

theorem memWf_strikeRegs (c : Nat) (reads : List (Cls × Nat)) (snap : Bool) : MemWf (s.strikeRegs c reads snap) := by
  unfold State.strikeRegs
  grind [memWf_strikeArmed]

theorem memWf_strikeUnit (r : Reader) (struct unit loc : Nat) : MemWf (s.strikeUnit r struct unit loc) := by
  unfold State.strikeUnit
  grind [memWf_strikeArmed]

theorem memWf_strikeTlb (u : Tlb) (part tenant va : Nat) (r : Reader) : MemWf (s.strikeTlb u part tenant va r) := by
  unfold State.strikeTlb
  split
  · exact h
  · split
    · exact memWf_strikeUnit h r 11 _ _
    · exact h

theorem memWf_strikeWalk (u : Tlb) (part tenant va : Nat) (r : Reader) : MemWf (s.strikeWalk u part tenant va r) := by
  unfold State.strikeWalk
  split
  · exact h
  · exact memWf_foldl h (fun _ _ ht => memWf_strikeMem ht _ _ _ _ _) _

theorem memWf_strikeVa (r : Reader) (part tenant va n : Nat) : MemWf (s.strikeVa r part tenant va n) := by
  refine memWf_foldl h (fun t e ht => ?_) _
  dsimp only
  have hu := memWf_foldl (f := fun t pa => t.strikeMem r (ownPort part) pa 8 false) ht
    (fun _ _ hu => memWf_strikeMem hu _ _ _ _ _) (t.walkReads part tenant e.1)
  split
  · exact memWf_strikeMem hu _ _ _ _ _
  · exact hu

theorem memWf_strikeCode (r : Reader) (part tenant a : Nat) : MemWf (s.strikeCode r part tenant a) := by
  unfold State.strikeCode
  split
  · exact h
  · exact memWf_foldl (memWf_foldl h (fun _ _ ht => memWf_strikeMem ht _ _ _ _ _) _) (fun _ _ ht => memWf_strikeVa ht _ _ _ _ _) _

theorem memWf_strikePosted : MemWf s.strikePosted :=
  memWf_foldl h (fun _ _ ht => memWf_strikeMem ht _ _ _ _ _) _

theorem memWf_dropPage (part page : Nat) : MemWf (s.dropPage part page) := by
  refine memWf_foldl h (fun t e ht => ?_) _
  split
  · exact memWf_foldl ht (fun u w hu => by grind [memWf_dropWay]) _
  · exact ht

theorem memWf_restorePage (pa : Nat) : MemWf (s.restorePage pa) := by
  unfold State.restorePage
  grind [memWf_guardHit, memWf_dropPage, memWf_setRawBytes, memWf_updPkg]

theorem memWf_reach (w : Who) (want : Want) (va align : Nat) : MemWf (s.reach w want va align).1 := by
  unfold State.reach
  grind [memWf_strikeTlb, memWf_strikeWalk, memWf_access, memWf_poisonLine, memWf_strikeMem]

theorem memWf_pay (w : Who) (p : Port) (pa n : Nat) (write : Bool) : MemWf (s.pay w p pa n write).1 := by
  unfold State.pay
  grind [memWf_addDemand, memWf_charge]

theorem memWf_accessed (w : Who) : MemWf (s.accessed w) := h

theorem memWf_cross (w : Who) (n : Nat) : MemWf (s.cross w n) := h

theorem memWf_overLink (w : Who) : MemWf (s.overLink w) := by
  unfold State.overLink
  split
  · exact h
  · exact h

theorem memWf_wantSwitch (pkg pa n : Nat) : MemWf (s.wantSwitch pkg pa n) := h

theorem memWf_callUses (id : Nat) (l : List (Nat × Nat)) : MemWf (s.callUses id l) := h

theorem memWf_within (c from_ : Nat) (b : Option Nat) : MemWf (s.within c from_ b).2 := h

theorem memWf_readVaS (w : Who) (va n sent : Nat) : MemWf (s.readVaS w va n sent).1 := by
  unfold State.readVaS
  grind [memWf_reach, memWf_wantSwitch, memWf_cross, memWf_overLink, memWf_poisonLine, memWf_pay, memWf_callUses, memWf_readPlace]

theorem memWf_readVa (w : Who) (va n : Nat) : MemWf (s.readVa w va n).1 := by
  unfold State.readVa
  grind [memWf_readVaS]

theorem memWf_unitVa (w : Who) (va n : Nat) (d : List Byte) : MemWf (s.unitVa w va n d).1 := by
  unfold State.unitVa
  grind [memWf_reach]

theorem memWf_noteCover (pl : Place) (writer lo hi size : Nat) : MemWf (s.noteCover pl writer lo hi size).1 := by
  unfold State.noteCover
  grind [memWf_updPkg]

theorem memWf_healLine (p : Port) (line : Nat) : MemWf (s.healLine p line) := by
  have hu := memWf_unpoison h line (List.replicate 128 0)
  unfold State.healLine
  grind [memWf_setL2]

theorem memWf_healBy (p : Port) (writer : Nat) (u : WUnit) : MemWf (s.healBy p writer u) := by
  unfold State.healBy
  split
  · grind [memWf_noteCover, memWf_healLine]
  · split
    · split
      · exact memWf_foldl h (fun t r ht => by grind [memWf_noteCover, memWf_updTile]) _
      · exact h
    · exact h
  · exact h

theorem memWf_perform (w : Who) (nt : Bool) (u : WUnit) : MemWf (s.perform w nt u).1 := by
  unfold State.perform
  split
  · exact h
  · dsimp only
    split
    · grind [memWf_cross, memWf_accessed, memWf_writeUnit, memWf_healBy]
    · grind [memWf_wantSwitch, memWf_setRemoteBytes, memWf_cross]
    · grind [memWf_guardHit, memWf_snoopFirst, memWf_strikeMem, memWf_pay, memWf_cross, memWf_writeUnit, memWf_healBy]

theorem memWf_readTileS (w : Who) (id tile off n sent : Nat) : MemWf (s.readTileS w id tile off n sent).1 := by
  unfold State.readTileS
  grind [memWf_strikeTile, memWf_poisonRead, memWf_accessed, memWf_cross, memWf_callUses, memWf_readPlace]

theorem memWf_readTile (w : Who) (id h off n : Nat) : MemWf (s.readTile w id h off n).1 := by
  unfold State.readTile
  grind [memWf_readTileS]

end

section
variable {s : State} (h : MemWf s)
include h

end

/-- A read that goes on with another keeps the form, where both do. -/
theorem memWf_fbind {α β : Type} {r : State × Fetch α} {f : State → α → State × Fetch β} (hr : MemWf r.1)
    (hf : ∀ t a, MemWf t → MemWf (f t a).1) : MemWf (fbind r f).1 := by
  obtain ⟨s, x⟩ := r
  cases x with
  | ok a => exact hf s a hr
  | xlate k a => exact hr
  | operand k a => exact hr
  | wait => exact hr
  | dead => exact hr

section
variable {s : State} (h : MemWf s)
include h

end

theorem memWf_gotFetch {α : Type} {r : State × Got α} (hr : MemWf r.1) : MemWf (gotFetch r).1 := by
  obtain ⟨s, x⟩ := r
  cases x <;> exact hr

section
variable {s : State} (h : MemWf s)
include h

end

theorem memWf_fmapM {α β : Type} {f : State → α → State × Fetch β} (hf : ∀ t a, MemWf t → MemWf (f t a).1) (l : List α) :
    ∀ {s : State}, MemWf s → MemWf (fmapM f l s).1 := by
  induction l with
  | nil => exact fun h => h
  | cons a l ih => exact fun h => memWf_fbind (hf _ a h) fun _ _ ht => memWf_fbind (ih ht) fun _ _ hu => hu

section
variable {s : State} (h : MemWf s)
include h

theorem memWf_spaceRead (w : Who) (ag : BitVec 512) (tiles : Tbl Nat) (pos : Int) (n sent : Nat) :
    MemWf (s.spaceRead w ag tiles pos n sent).1 := by
  unfold State.spaceRead
  grind [memWf_updCtx, memWf_readTileS, memWf_readVaS]

theorem memWf_readUnitsOf (w : Who) (g : Grid) (sent : Nat) (l got : List (Int × Nat)) :
    MemWf (s.readUnitsOf w g sent l got).1 := by
  induction l generalizing s got with
  | nil => exact h
  | cons u l ih =>
    unfold State.readUnitsOf
    split
    · exact ih h got
    · grind [memWf_spaceRead]

end

theorem memWf_unitsFetch {α : Type} {r : State × Fetch Unit × List (Int × Nat)} (f : List (Int × Nat) → α) (hr : MemWf r.1) :
    MemWf (unitsFetch r f).1 := by
  obtain ⟨s, x, got⟩ := r
  cases x <;> exact hr

section
variable {s : State} (h : MemWf s)
include h

theorem memWf_gridFrom (w : Who) (g : Grid) (n sent : Nat) (l : List (Nat × Nat)) (got : List (Int × Nat)) :
    MemWf (s.gridFrom w g n sent l got).1 := by
  unfold State.gridFrom
  split
  · exact h
  · exact memWf_unitsFetch _ (memWf_readUnitsOf h w g sent _ got)

theorem memWf_gridRead (w : Who) (g : Grid) (n sent : Nat) (l : List (Nat × Nat)) : MemWf (s.gridRead w g n sent l).1 :=
  memWf_gridFrom h w g n sent l []

theorem memWf_scaleFrom (w : Who) (sg : BitVec 512) (tiles : Tbl Nat) (sch width : Nat) (l : List (Nat × Nat)) (got : List (Int × Nat)) :
    MemWf (s.scaleFrom w sg tiles sch width l got).1 := by
  unfold State.scaleFrom
  grind [memWf_unitsFetch, memWf_readUnitsOf]

theorem memWf_setEpisode (n : Net) (b : Nat) (e : Option Episode) : MemWf (s.setEpisode n b e) := h

theorem memWf_poison (ep : Episode) : MemWf (s.poison ep) := by
  unfold State.poison
  split
  · exact h
  · exact memWf_count (memWf_setEpisode (memWf_foldl h (fun t id ht => by grind [memWf_doneCmd]) _) _ _ _) _ 6

theorem memWf_idleBarrier (ep : Episode) : MemWf (s.idleBarrier ep) := h

theorem memWf_endEpisode (ep : Episode) : MemWf (s.endEpisode ep) :=
  memWf_idleBarrier (memWf_foldl h (fun _ id ht => memWf_doneCmd ht id none) ep.cmds) ep

theorem memWf_countArrival (ep : Episode) (cmd : Option ECmd) : MemWf (s.countArrival ep cmd) := by
  unfold State.countArrival
  cases cmd with
  | none => grind [memWf_setEpisode, memWf_idleBarrier, memWf_endEpisode]
  | some e => grind [memWf_doneCmd, memWf_setEpisode, memWf_idleBarrier, memWf_endEpisode]

theorem memWf_joinPosts (n : Net) (b k : Nat) : MemWf (s.joinPosts n b k) := by
  induction k generalizing s with
  | zero => exact h
  | succ k ih =>
    unfold State.joinPosts
    grind [memWf_setEpisode, memWf_poison, memWf_countArrival]

theorem memWf_arrive (e : ECmd) (n : Net) (b cnt : Nat) : MemWf (s.arrive e n b cnt) := by
  unfold State.arrive
  grind [memWf_failCmd, memWf_updCmd, memWf_count, memWf_poison, memWf_countArrival, memWf_setEpisode, memWf_joinPosts]

theorem memWf_postArrival (part b : Nat) (bad : Bool) : MemWf (s.postArrival part b bad) := by
  unfold State.postArrival
  grind [memWf_count, memWf_setEpisode, memWf_poison, memWf_countArrival]

theorem memWf_post (part b : Nat) : MemWf (s.post part b) := by
  unfold State.post
  grind [memWf_postArrival]

theorem memWf_postFailed (part b : Nat) : MemWf (s.postFailed part b) := memWf_postArrival h part b true

theorem memWf_breakQuire (q : Nat) : MemWf (s.breakQuire q) :=
  memWf_foldl (memWf_updQuire h q _) (fun t ep ht => by grind [memWf_poison, memWf_setEpisode]) _

theorem memWf_idleBroken (q : Nat) : MemWf (s.idleBroken q) := h

theorem memWf_recomputeNets (old : State) : MemWf (s.recomputeNets old) := by
  unfold State.recomputeNets
  exact memWf_congr (memWf_foldl (f := fun t e => if (!(s.netParts e.net = old.netParts e.net)) && e.count ≠ 0 then t.poison e else t) h
    (fun t e ht => by grind [memWf_poison]) s.eps) rfl rfl

theorem memWf_ringWrite (part pos n : Nat) (d : List Byte) : MemWf (s.ringWrite part pos n d) := by
  induction n generalizing s pos d with
  | zero => exact h
  | succ n ih => exact ih (memWf_ownWrite h _ _ _) _ _

theorem memWf_appendParcel {part : Nat} {p : Parcel} {t : State} (ht : s.appendParcel part p = some t) : MemWf t := by
  unfold State.appendParcel at ht
  dsimp only at ht
  split at ht
  · cases ht
  · cases ht
    exact memWf_updPart (memWf_ringWrite h _ _ _ _) part _

theorem memWf_park (part : Nat) (p : Parcel) : MemWf (s.park part p) := by
  unfold State.park
  split
  · exact memWf_appendParcel h ‹_›
  · exact memWf_updPart h part _

theorem memWf_unpark (part : Nat) : MemWf (s.unpark part) := by
  refine memWf_foldl (memWf_updPart h part _) (fun t p ht => ?_) _
  split
  · exact memWf_appendParcel ht ‹_›
  · exact memWf_updPart ht part _

theorem memWf_clearParcel (part at_ : Nat) : MemWf (s.clearParcel part at_) := by
  unfold State.clearParcel
  grind [memWf_ringWrite, memWf_updPart]

theorem memWf_replayParcel (part c : Nat) (p : Parcel) : MemWf (s.replayParcel part c p) := by
  unfold State.replayParcel
  grind [memWf_updTile, memWf_post, memWf_clearParcel]

theorem memWf_replayWaiting (part c : Nat) (p : Parcel) : MemWf (s.replayWaiting part c p) := by
  unfold State.replayWaiting
  grind [memWf_updTile, memWf_post]

theorem memWf_replayMember (part seq member c : Nat) : MemWf (s.replayMember part seq member c) :=
  memWf_foldl (memWf_updPart (memWf_foldl h (fun _ _ ht => memWf_replayParcel ht part c _) _) part _)
    (fun _ _ ht => memWf_replayWaiting ht part c _) _

theorem memWf_swDrop (w : SwWord) : MemWf (s.swDrop w) :=
  memWf_updPkg (memWf_setRemoteBytes h (remoteKey w.pkg w.pa) (toBytes 8 w.word)) _

theorem memWf_swRoom (switch : Nat) : MemWf (s.swRoom switch) := by
  unfold State.swRoom
  grind [memWf_swDrop]

theorem memWf_swUpdate (pkg pa u : Nat) (f : Nat → Nat) : MemWf (s.swUpdate pkg pa u f).1 := by
  unfold State.swUpdate
  grind [memWf_swRoom, memWf_updPkg]

theorem memWf_toSwitch (w : Who) (pkg pa : Nat) : MemWf (s.toSwitch w pkg pa) := by
  unfold State.toSwitch
  split <;> exact h

theorem memWf_acwAt (w : Who) (va u : Nat) (sends : Bool) (f : Nat → Nat) (ph : Phys) : MemWf (s.acwAt w va u sends f ph).1 := by
  unfold State.acwAt
  grind [memWf_toSwitch, memWf_cross, memWf_swUpdate, memWf_poisonLine, memWf_snoopFirst, memWf_strikeMem, memWf_pay, memWf_readPa,
    memWf_guardHit, memWf_writePa]

theorem memWf_acwUnit (w : Who) (va u : Nat) (fetches : Bool) (f : Nat → Nat) : MemWf (s.acwUnit w va u fetches f).1 := by
  unfold State.acwUnit
  grind [memWf_reach, memWf_acwAt]

theorem memWf_pushLoad (r : Run) (cls : Cls) (tile : Nat) (addrs : List Nat) (more : Nat) : MemWf (s.pushLoad r cls tile addrs more) := by
  unfold State.pushLoad
  grind [memWf_newSerial, memWf_within, memWf_updCtx, memWf_land]

theorem memWf_advanceSet (r : Run) (b : BitVec 512) : MemWf (s.advanceSet r b) := by
  unfold State.advanceSet
  grind [memWf_updCtx, memWf_land]

theorem memWf_faultLate (c : Nat) (f : FaultInfo) : MemWf (s.faultLate c f) := by
  unfold State.faultLate
  grind [memWf_updCtx, memWf_takeFault]

theorem memWf_queueFault (c : Nat) (load : Bool) (e : QEntry) (f : FaultInfo) : MemWf (s.queueFault c load e f) := by
  unfold State.queueFault
  grind [memWf_faultLate, memWf_updCtx]

theorem memWf_queueXlate (c : Nat) (load : Bool) (e : QEntry) (code adr : Nat) : MemWf (s.queueXlate c load e code adr) := by
  unfold State.queueXlate
  grind [memWf_queueFault]

theorem memWf_readEntry (c : Nat) (e : QEntry) (u : Nat × Nat × Nat) : MemWf (s.readEntry c e u).1 := by
  unfold State.readEntry
  dsimp only
  split
  · exact memWf_readVa h _ _ _
  · exact memWf_readTile h _ _ _ _ _

theorem memWf_sealFault (c : Nat) (e : QEntry) (code adr : Nat) : MemWf (s.sealFault c e code adr) := memWf_queueFault h c true e _

theorem memWf_sealShape (c : Nat) (e : QEntry) : MemWf (s.sealShape c e) := by
  unfold State.sealShape
  dsimp only
  split
  · exact memWf_sealFault h c e _ _
  · split
    · exact memWf_sealFault h c e _ _
    · exact h

theorem memWf_readUnits (c n : Nat) : MemWf (s.readUnits c n) := by
  induction n generalizing s with
  | zero => exact h
  | succ n ih =>
    unfold State.readUnits
    grind [memWf_sealShape, memWf_setCtx, memWf_readEntry, memWf_queueXlate, memWf_updCtx]

theorem memWf_latldStep (c : Nat) (m : MatEntry) (n : Nat) : MemWf (s.latldStep c m n) := by
  induction n generalizing s with
  | zero => exact h
  | succ n ih =>
    unfold State.latldStep
    grind [memWf_setCtx, memWf_gridRead, memWf_queueXlate, memWf_queueFault, memWf_updCtx, memWf_updCore]

theorem memWf_storeUnits (w : Who) (e : QEntry) (l : List (Nat × Nat × Nat)) : MemWf (s.storeUnits w e l).1 := by
  induction l generalizing s with
  | nil => exact h
  | cons u l ih =>
    unfold State.storeUnits
    grind [memWf_unitVa]

theorem memWf_accstUnits (w : Who) (e : QEntry) (m : MatEntry) (l : List ((Nat × Nat) × List Byte)) :
    MemWf (s.accstUnits w e m l).1 := by
  induction l generalizing s with
  | nil => exact h
  | cons u l ih =>
    unfold State.accstUnits
    grind [memWf_unitVa]

theorem memWf_entryUnits (w : Who) (e : QEntry) : MemWf (s.entryUnits w e).1 := by
  unfold State.entryUnits
  grind [memWf_accstUnits, memWf_storeUnits]

theorem memWf_updStore (c id : Nat) (f : QEntry → QEntry) : MemWf (s.updStore c id f) := h

theorem memWf_knowTile (c : Nat) (e : QEntry) : MemWf (s.knowTile c e) := by
  unfold State.knowTile
  grind [memWf_entryUnits, memWf_updStore]

theorem memWf_pushStore (r : Run) (tile : Nat) (addrs : List Nat) : MemWf (s.pushStore r tile addrs) := by
  unfold State.pushStore
  dsimp only
  split
  · exact h
  · exact memWf_knowTile (memWf_updCtx (memWf_newWait (memWf_newSerial h)) _ _) _ _

theorem memWf_know (c : Nat) (e : QEntry) : MemWf (s.know c e).1 := by
  unfold State.know
  grind [memWf_entryUnits, memWf_queueXlate, memWf_queueFault, memWf_updStore, memWf_updCtx]

theorem memWf_knowList (c : Nat) (l : List QEntry) : MemWf (s.knowList c l).1 := by
  induction l generalizing s with
  | nil => exact h
  | cons e l ih =>
    unfold State.knowList
    grind [memWf_know]

theorem memWf_knowAll (c id : Nat) : MemWf (s.knowAll c id).1 := memWf_knowList h c _

theorem memWf_loadStep (c : Nat) : MemWf (s.loadStep c) := by
  unfold State.loadStep
  dsimp only
  split
  · exact h
  · next e _ _ =>
    have hk := memWf_knowAll h c e.id
    split
    · exact h
    · split
      · exact memWf_queueFault h c true e _
      · split
        · exact memWf_queueXlate h c true e _ _
        · generalize s.knowAll c e.id = r at hk ⊢
          obtain ⟨t, known⟩ := r
          have ht : MemWf { t with fresh := t.fresh + 1 } := hk
          cases known with
          | false => exact hk
          | true =>
            dsimp only
            split
            · exact memWf_latldStep ht c _ _
            · exact memWf_readUnits ht c _

theorem memWf_performUnits (c : Nat) (e : QEntry) (n : Nat) (l : List WUnit) : MemWf (s.performUnits c e n l) := by
  induction n generalizing s l with
  | zero => cases l <;> exact h
  | succ n ih =>
    cases l with
    | nil => exact h
    | cons u l =>
      unfold State.performUnits
      grind [memWf_perform, memWf_updStore, memWf_updCtx]

theorem memWf_storeMove (c : Nat) (e : QEntry) : MemWf (s.storeMove c e) := by
  unfold State.storeMove
  grind [memWf_congr, memWf_reach, memWf_queueFault, memWf_know, memWf_newSerial, memWf_newWait, memWf_updStore, memWf_performUnits]

theorem memWf_storeStep (c : Nat) : MemWf (s.storeStep c) := by
  unfold State.storeStep
  grind [memWf_storeMove]

theorem memWf_scPerform (c id n : Nat) : MemWf (s.scPerform c id n) := by
  induction n generalizing s with
  | zero => exact h
  | succ n ih =>
    unfold State.scPerform
    grind [memWf_storeMove]

theorem memWf_queueStep (c : Nat) : MemWf (s.queueStep c) := by
  unfold State.queueStep
  grind [memWf_loadStep, memWf_storeStep]

theorem memWf_hint (r : Run) (va : Nat) : MemWf (s.hint r va) := h

theorem memWf_hintLine (h : Hint) : MemWf (s.hintLine h).1 := by
  unfold State.hintLine
  grind [memWf_strikeTlb, memWf_strikeWalk, memWf_access, memWf_count, memWf_setL2, memWf_strikeMem, memWf_charge, memWf_fill]

theorem memWf_hintStep : MemWf s.hintStep := by
  have hs : MemWf { s with hints := [] } := h
  refine memWf_foldl hs (fun t e ht => ?_) s.hints
  split
  · exact ht
  · have hl := memWf_hintLine ht e
    generalize t.hintLine e = r at hl ⊢
    obtain ⟨u, b⟩ := r
    cases b <;> exact hl

end

end Sys2Proof.Proofs
end

section
/-! PROOFS. Memory keeps its form: the engines, the matrix array, the governor and saves (O9). -/

namespace Sys2Proof.Proofs

open Sys2Proof Sys2Proof.Machine Sys2Proof.Safety

-- One proof at a time: proofs that wait for one another hold a thread each, and the check's memory is bounded.
set_option Elab.async false

section
variable {s : State} (h : MemWf s)
include h

theorem memWf_scalarOp (r : Run) (w : ABW) (g : Bool → Nat → Int → Int → Int) : MemWf (s.scalarOp r w g) := by
  unfold State.scalarOp
  grind [memWf_result]

theorem memWf_vecOp (r : Run) (t : Ty) (f : Nat → Nat) : MemWf (s.vecOp r t f) := h

theorem memWf_vec1 (r : Run) (w : VW) (f : Ty → Nat → Nat) : MemWf (s.vec1 r w f) := h

theorem memWf_vec2 (r : Run) (w : VW) (f : Ty → Nat → Nat → Nat) : MemWf (s.vec2 r w f) := h

theorem memWf_vec3 (r : Run) (w : VW) (f : Ty → Nat → Nat → Nat → Nat) : MemWf (s.vec3 r w f) := h

theorem memWf_reduceOp (r : Run) (w : VW) (kind : Nat) : MemWf (s.reduceOp r w kind) := h

theorem memWf_predForm (r : Run) (f : Bool → Bool → Bool) : MemWf (s.predForm r f) := h

theorem memWf_freeShapesDue (st : Nat) : MemWf (s.freeShapesDue st) := h

theorem memWf_engVa (w : Who) (va n : Nat) : MemWf (s.engVa w va n).1 := by
  unfold State.engVa
  grind [memWf_fbind, memWf_gotFetch, memWf_readVa, memWf_updCmd]

end

theorem memWf_readAsOne {α : Type} {r : State × Fetch α} (id : Nat) (hr : MemWf r.1) : MemWf (readAsOne id r).1 := by
  rw [readAsOne_fst]
  exact hr

section
variable {s : State} (h : MemWf s)
include h

theorem memWf_engTile (w : Who) (t : Tile) (h off n : Nat) : MemWf (s.engTile w t h off n).1 := by
  unfold State.engTile
  grind [memWf_fbind, memWf_gotFetch, memWf_readTile]

theorem memWf_engElem (w : Who) (t : Tile) (h row col : Nat) : MemWf (s.engElem w t h row col).1 := by
  unfold State.engElem
  grind [memWf_fbind, memWf_engTile]

theorem memWf_chainScale (w : Who) (k : Chain) (r c : Nat) : MemWf (s.chainScale w k r c).1 := by
  unfold State.chainScale
  grind [memWf_fbind, memWf_engVa]

theorem memWf_chainLoad (w : Who) (k : Chain) (r c x : Nat) : MemWf (s.chainLoad w k r c x).1 := by
  unfold State.chainLoad
  grind [memWf_fbind, memWf_chainScale]

theorem memWf_chainStore (w : Who) (k : Chain) (r c : Nat) : MemWf (s.chainStore w k r c).1 := by
  unfold State.chainStore
  grind [memWf_fbind, memWf_fmapM, memWf_engElem, memWf_chainScale]

theorem memWf_engUnits (w : Who) (whole a n : Nat) : MemWf (s.engUnits w whole a n).1 := by
  unfold State.engUnits
  grind [memWf_fbind, memWf_fmapM, memWf_engVa]

theorem memWf_planeLoad (w : Who) (k : Chain) (j : Nat) : MemWf (s.planeLoad w k j).1 := by
  unfold State.planeLoad
  grind [memWf_count, memWf_fbind, memWf_fmapM, memWf_engUnits, memWf_chainLoad]

theorem memWf_planeStore (w : Who) (k : Chain) (j : Nat) : MemWf (s.planeStore w k j).1 := by
  unfold State.planeStore
  grind [memWf_fbind, memWf_fmapM, memWf_count, memWf_chainStore]

theorem memWf_blockLoad (w : Who) (k : Chain) (n : Nat) : MemWf (s.blockLoad w k n).1 := by
  unfold State.blockLoad
  grind [memWf_fbind, memWf_engUnits, memWf_fmapM, memWf_chainLoad]

theorem memWf_blockStore (w : Who) (k : Chain) (n : Nat) : MemWf (s.blockStore w k n).1 := by
  unfold State.blockStore
  grind [memWf_fbind, memWf_fmapM, memWf_chainStore]

theorem memWf_packLoad (w : Who) (k : Chain) (r n g pos : Nat) : MemWf (s.packLoad w k r n g pos).1 := by
  induction n generalizing s g pos with
  | zero => exact h
  | succ n ih =>
    unfold State.packLoad
    refine memWf_fbind (memWf_engUnits h w _ _ _) fun t ms ht => ?_
    dsimp only
    split
    · exact ht
    · exact memWf_fbind (memWf_engUnits ht w _ _ _) fun u d hu => memWf_fbind (ih hu _ _) fun _ _ hv => hv

theorem memWf_chainItem (w : Who) (k : Chain) (n : Nat) : MemWf (s.chainItem w k n).1 := by
  unfold State.chainItem
  split
  · split
    · exact memWf_planeLoad h w k n
    · split
      · exact memWf_fbind (memWf_packLoad h w k n _ _ _) fun t xs ht => memWf_fmapM (fun _ _ hu => memWf_chainLoad hu w k n _ _) _ ht
      · exact memWf_blockLoad h w k n
  · split
    · exact memWf_planeStore h w k n
    · split
      · refine memWf_fbind (memWf_fmapM (fun _ _ hu => memWf_chainStore hu w k n _) _ h) fun t xs ht => ?_
        dsimp only
        split <;> exact ht
      · exact memWf_blockStore h w k n

theorem memWf_plainItem (w : Who) (e : ECmd) (n : Nat) : MemWf (s.plainItem w e n).1 := by
  unfold State.plainItem
  grind [memWf_fbind, memWf_engVa, memWf_engTile]

theorem memWf_copyItem (w : Who) (e : ECmd) (n : Nat) : MemWf (s.copyItem w e n).1 := by
  unfold State.copyItem
  grind [memWf_chainItem, memWf_plainItem]

theorem memWf_enterTile (t : Tile) (c n : Nat) : MemWf (s.enterTile t c n) := memWf_foldl h (fun _ _ ht => memWf_updCtx ht _ _) _

theorem memWf_leaveTile (t : Tile) : MemWf (s.leaveTile t) := by
  unfold State.leaveTile
  grind [memWf_congr, memWf_mapCtxs]

theorem memWf_setAllocQ (a : Nat) (l : List Nat) : MemWf (s.setAllocQ a l) := by
  unfold State.setAllocQ
  split <;> exact h

theorem memWf_beginTalloc (e : ECmd) : MemWf (s.beginTalloc e) := by
  unfold State.beginTalloc
  grind [memWf_failCmd, memWf_updCmd, memWf_setAllocQ]

theorem memWf_returnTile (id : Nat) : MemWf (s.returnTile id) := by
  unfold State.returnTile
  split
  · refine memWf_foldl (f := State.freeGen) ?_ (fun _ _ ht => memWf_freeGen ht _) _
    exact h
  · exact h

theorem memWf_beginTfree (e : ECmd) : MemWf (s.beginTfree e) := by
  unfold State.beginTfree
  grind [memWf_failCmd, memWf_leaveTile, memWf_updTile, memWf_updCmd]

theorem memWf_stepTfree (e : ECmd) : MemWf (s.stepTfree e) := by
  unfold State.stepTfree
  grind [memWf_returnTile, memWf_doneCmd]

theorem memWf_failDest (e : ECmd) (d sub code : Nat) : MemWf (s.failDest e d sub code) := by
  unfold State.failDest
  grind [memWf_updCmd, memWf_postFailed]

theorem memWf_failUnit (e : ECmd) (d sub code adr : Nat) : MemWf (s.failUnit e d sub code adr) := by
  unfold State.failUnit
  grind [memWf_failDest, memWf_doneCmd]

theorem memWf_settleHurt (id d : Nat) : MemWf (s.settleHurt id d) := by
  unfold State.settleHurt
  grind [memWf_updCmd, memWf_failDest]

theorem memWf_parkAll (e : ECmd) (q : Quire) (member n : Nat) (u : EUnit) (place : EUnit → Nat) (barn : Nat) (post : Bool) :
    MemWf (s.parkAll e q member n u place barn post).1 := by
  delta State.parkAll
  extract_lets k l runs one
  split
  · exact h
  · exact memWf_foldl h (fun _ _ ht => memWf_park ht _ _) _

theorem memWf_writeTile (w : Who) (e : ECmd) (id h off : Nat) (u : EUnit) : MemWf (s.writeTile w e id h off u).1 := by
  unfold State.writeTile
  grind [memWf_perform, memWf_parkAll]

theorem memWf_writeVa (w : Who) (e : ECmd) (a : Nat) (acw : Option Nat) (u : EUnit) : MemWf (s.writeVa w e a acw u).1 := by
  unfold State.writeVa
  grind [memWf_acwUnit, memWf_unitVa, memWf_perform, memWf_updCmd]

theorem memWf_writeDeliver (w : Who) (e : ECmd) (off : Nat) (u : EUnit) (last : Bool) : MemWf (s.writeDeliver w e off u last).1 := by
  unfold State.writeDeliver
  grind [memWf_updCmd, memWf_parkAll, memWf_perform, memWf_post]

theorem memWf_writeOne (w : Who) (e : ECmd) (n : Nat) : MemWf (s.writeOne w e n) := by
  unfold State.writeOne
  grind [memWf_writeVa, memWf_writeTile, memWf_writeDeliver, memWf_settleHurt, memWf_failUnit, memWf_updCmd]

theorem memWf_readOne (w : Who) (e : ECmd) (n : Nat) : MemWf (s.readOne w e n) := by
  unfold State.readOne
  split
  · exact h
  · next i _ =>
    have hr := memWf_readAsOne e.id (memWf_copyItem h w e i)
    grind [memWf_updCmd, memWf_settleHurt, memWf_failUnit]

theorem memWf_move (id n : Nat) : MemWf (s.move id n) := by
  induction n generalizing s with
  | zero => exact h
  | succ n ih =>
    unfold State.move
    split
    · exact h
    · split
      · exact h
      · refine ih ?_
        have hn := memWf_newFree h
        split
        · exact hn
        · exact memWf_writeOne hn _ _ _
        · exact memWf_readOne hn _ _ _
        · split
          · exact memWf_readOne hn _ _ _
          · exact memWf_writeOne hn _ _ _

theorem memWf_moveSome (e : ECmd) : MemWf (s.moveSome e) :=
  memWf_move (s := { s with fresh := s.fresh + 1 }) h e.id _

theorem memWf_sendOff (e : ECmd) : MemWf (s.sendOff e) := by
  unfold State.sendOff
  split
  · refine memWf_foldl (memWf_updCmd h _ _) (fun t d ht => ?_) _
    exact ht
  · exact h

theorem memWf_strikeMap (c n : Nat) : MemWf (s.strikeMap c n) := by
  unfold State.strikeMap
  grind [memWf_strikeArmed]

theorem memWf_needMap (c n empty : Nat) : MemWf (s.needMap c n empty).1 := by
  have hs := memWf_strikeMap h c n
  unfold State.needMap
  split
  · exact h
  · dsimp only
    split <;> exact hs

theorem memWf_needTile (e : ECmd) (n : Nat) : MemWf (s.needTile e n).1 := by
  unfold State.needTile
  split <;> exact h

theorem memWf_readKeys (w : Who) (t : Tile) (h : Nat) (f : Fmt) (n d : Nat) : MemWf (s.readKeys w t h f n d).1 := by
  unfold State.readKeys
  grind [memWf_fmapM, memWf_fbind, memWf_engElem]

theorem memWf_serveMatch (w : Who) (e : ECmd) : MemWf (s.serveMatch w e).1 := by
  unfold State.serveMatch
  dsimp only
  split
  · exact h
  · split
    · exact h
    · split
      · exact h
      · refine memWf_fbind (memWf_needTile h e _) fun t x ht => ?_
        split
        · exact ht
        · split
          · exact ht
          · refine memWf_fbind ?_ fun u _ hu => memWf_fbind (memWf_readKeys hu _ _ _ _ _ _) fun _ _ hv => hv
            split
            · refine memWf_fbind (memWf_needMap ht _ _ _) fun u m hu => ?_
              split
              · split <;> exact hu
              · exact hu
            · exact ht

theorem memWf_serveMerge (w : Who) (e : ECmd) : MemWf (s.serveMerge w e).1 := by
  unfold State.serveMerge
  dsimp only
  split
  · exact h
  · split
    · exact h
    · refine memWf_fbind (memWf_needMap h _ _ _) fun t m ht => memWf_fbind (memWf_needTile ht e _) fun u d hu =>
        memWf_fbind (memWf_needTile hu e _) fun v x hv => ?_
      split
      · split
        · exact hv
        · exact memWf_fbind (memWf_fmapM (fun _ _ h1 => memWf_fmapM (fun _ _ h2 => memWf_fbind (memWf_engElem h2 _ _ _ _ _)
            fun _ _ h3 => memWf_fbind (memWf_fmapM (fun _ _ h4 => memWf_fbind (memWf_engElem h4 _ _ _ _ _) fun _ _ h5 => h5) _ h3)
              fun _ _ h6 => h6) _ h1) _ hv) fun _ _ h7 => h7
      · exact hv

theorem memWf_serveUnmerge (w : Who) (e : ECmd) : MemWf (s.serveUnmerge w e).1 := by
  unfold State.serveUnmerge
  dsimp only
  split
  · exact h
  · refine memWf_fbind (memWf_needMap h _ _ _) fun t m ht => memWf_fbind (memWf_needTile ht e _) fun u d hu =>
      memWf_fbind (memWf_needTile hu e _) fun v x hv => ?_
    split
    · split
      · exact hv
      · exact memWf_fbind (memWf_fmapM (fun _ _ h1 => memWf_fmapM (fun _ _ h2 => memWf_fbind (memWf_engTile h2 _ _ _ _ _)
          fun _ _ h3 => h3) _ h1) _ hv) fun _ _ h4 => h4
    · exact hv

theorem memWf_serveSize (e : ECmd) : MemWf (s.serveSize e).1 := by
  refine memWf_fbind (memWf_needMap h _ _ _) fun t m ht => memWf_fbind (memWf_needTile ht e _) fun u d hu => ?_
  split
  · dsimp only
    split <;> split <;> exact hu
  · exact hu

theorem memWf_serveComp (e : ECmd) : MemWf (s.serveComp e).1 := by
  unfold State.serveComp
  dsimp only
  split
  · exact h
  · refine memWf_fbind (memWf_needMap h _ _ _) fun t f ht => memWf_fbind (memWf_needMap ht _ _ _) fun u g hu => ?_
    split
    · exact hu
    · split
      · split <;> exact hu
      · exact hu

theorem memWf_tmServe (e : ECmd) : MemWf (s.tmServe e).1 := by
  unfold State.tmServe
  grind [memWf_serveMatch, memWf_serveMerge, memWf_serveUnmerge, memWf_serveSize, memWf_serveComp]

theorem memWf_tmRun (e : ECmd) : MemWf (s.tmRun e) := by
  unfold State.tmRun
  grind [memWf_tmServe, memWf_failCmd, memWf_failXlate, memWf_updCtx, memWf_updCmd]

theorem memWf_tmStep (quad : Nat) : MemWf (s.tmStep quad) := by
  unfold State.tmStep
  grind [memWf_updQuad, memWf_updCmd, memWf_tmRun, memWf_moveSome, memWf_doneCmd]

theorem memWf_readRuns (w : Who) (n a : Nat) : MemWf (s.readRuns w n a).1 := by
  induction n generalizing s a with
  | zero => exact h
  | succ n ih =>
    exact memWf_fbind (memWf_engVa h _ _ _) fun _ _ h1 => memWf_fbind (memWf_fmapM (fun _ _ h2 => memWf_engVa h2 _ _ _) _ h1)
      fun _ _ h3 => memWf_fbind (ih h3 _) fun _ _ h4 => h4

theorem memWf_setSession (quad : Nat) (z : Option Session) : MemWf (s.setSession quad z) := h

theorem memWf_strikeBuf (e : ECmd) (quad n : Nat) : MemWf (s.strikeBuf e quad n) := by
  unfold State.strikeBuf
  grind [memWf_strikeArmed]

theorem memWf_failStruck (quad : Nat) (e : ECmd) : MemWf (s.failStruck quad e) := by
  unfold State.failStruck
  split <;> exact h

theorem memWf_smOpen (quad : Nat) (e : ECmd) : MemWf (s.smOpen quad e) := by
  unfold State.smOpen
  grind [memWf_failStruck, memWf_failCmd, memWf_updQuad, memWf_engVa, memWf_setSession, memWf_doneCmd, memWf_failXlate]

theorem memWf_smEntry (e : ECmd) (i : Nat) : MemWf (s.smEntry e i).1 := by
  unfold State.smEntry
  grind [memWf_fbind, memWf_fmapM, memWf_engVa]

theorem memWf_smSpill (quad : Nat) (e : ECmd) (z : Session) : MemWf (s.smSpill quad e z) := by
  unfold State.smSpill
  grind [memWf_setSession, memWf_updCmd, memWf_writeOne]

theorem memWf_smAccept (quad : Nat) (e : ECmd) (z : Session) (i : Nat) : MemWf (s.smAccept quad e z i) := by
  have hr := memWf_readAsOne e.id (memWf_smEntry h e i)
  unfold State.smAccept
  grind [memWf_failCmd, memWf_failXlate, memWf_strikeBuf, memWf_failStruck, memWf_updCmd, memWf_setSession]

theorem memWf_finishUnits (e : ECmd) : MemWf (s.finishUnits e) := by
  unfold State.finishUnits
  grind [memWf_sendOff, memWf_doneCmd]

theorem memWf_smTake (quad id n : Nat) : MemWf (s.smTake quad id n) := by
  induction n generalizing s with
  | zero => exact h
  | succ n ih =>
    unfold State.smTake
    grind [memWf_failStruck, memWf_smSpill, memWf_smAccept, memWf_updCmd, memWf_finishUnits]

theorem memWf_smEntries (quad : Nat) (e : ECmd) (most : Nat) : MemWf (s.smEntries quad e most) := by
  unfold State.smEntries
  split
  · exact memWf_smTake (s := { s with fresh := s.fresh + 1 }) h quad e.id _
  · grind [memWf_failCmd, memWf_failXlate, memWf_updCmd]

theorem memWf_smDrain (quad : Nat) (e : ECmd) (z : Session) : MemWf (s.smDrain quad e z) := by
  unfold State.smDrain
  split
  · grind [memWf_moveSome, memWf_finishUnits, memWf_setSession]
  · split
    · exact memWf_failCmd h _ _ _
    · have hb := memWf_strikeBuf h e quad z.buf.length
      have hr : ∀ {t : State}, MemWf t → MemWf (readAsOne e.id (t.readRuns (t.whoCmd e) z.runs (dSpill z.desc))).1 :=
        fun ht => memWf_readAsOne e.id (memWf_readRuns ht _ _ _)
      grind [memWf_failStruck, memWf_failCmd, memWf_setSession, memWf_updCmd, memWf_failXlate]

theorem memWf_smServe (quad : Nat) (e : ECmd) : MemWf (s.smServe quad e) := by
  unfold State.smServe
  grind [memWf_smOpen, memWf_failCmd, memWf_failStruck, memWf_smEntries, memWf_setSession, memWf_doneCmd, memWf_smDrain]

theorem memWf_smStep (quad : Nat) : MemWf (s.smStep quad) := by
  unfold State.smStep
  grind [memWf_updQuad, memWf_smServe]

theorem memWf_saveUnits (w : Who) (l : List EUnit) : MemWf (s.saveUnits w l).1 := by
  induction l generalizing s with
  | nil => exact h
  | cons u l ih =>
    unfold State.saveUnits
    grind [memWf_unitVa, memWf_perform]

theorem memWf_saveSession (z : Session) : MemWf (s.saveSession z).1 := by
  have hu := memWf_saveUnits h z.who z.runUnits
  unfold State.saveSession
  grind

theorem memWf_listEntry (w : Who) (t : Tile) (h i : Nat) : MemWf (s.listEntry w t h i).1 := by
  unfold State.listEntry
  grind [memWf_fbind, memWf_fmapM, memWf_engTile]

theorem memWf_beginPlan (e : ECmd) (p : Plan) : MemWf (s.beginPlan e p) := by
  unfold State.beginPlan
  split <;> exact h

theorem memWf_beginMcast (e : ECmd) : MemWf (s.beginMcast e) := by
  unfold State.beginMcast
  split
  · exact memWf_failCmd h _ _ _
  · split
    · next l t _ _ =>
      have hr := memWf_fmapM (fun t i ht => memWf_listEntry ht (t.whoCmd e) l e.opa i) (upto e.opc) h
      grind [memWf_updCmd, memWf_newWait, memWf_failXlate, memWf_failCmd]
    · exact memWf_failCmd h _ _ _
    · exact memWf_failCmd h _ _ _

theorem memWf_present (e : ECmd) : MemWf (s.present e) := by
  unfold State.present
  grind [memWf_fmapM, memWf_engVa, memWf_failXlate, memWf_failCmd, memWf_updCtx, memWf_doneCmd]

theorem memWf_stepCopy (e : ECmd) : MemWf (s.stepCopy e) := by
  unfold State.stepCopy
  grind [memWf_moveSome, memWf_sendOff, memWf_present, memWf_doneCmd, memWf_finishUnits]

theorem memWf_dropGrants (c : Nat) : MemWf (s.dropGrants c) :=
  memWf_updCore (memWf_foldl (memWf_foldl h (fun _ _ ht => memWf_freeGen ht _) _) (fun _ _ ht => memWf_freeGen ht _) _) _ _

theorem memWf_checkStart (c : Nat) : MemWf (s.checkStart c) := by
  unfold State.checkStart
  grind [memWf_strikeCode, memWf_enter, memWf_takeFault]

theorem memWf_beginAcw (e : ECmd) (fetches : Bool) : MemWf (s.beginAcw e fetches) := by
  unfold State.beginAcw
  grind [memWf_newWait, memWf_updCmd, memWf_failCmd]

theorem memWf_stepAcw (e : ECmd) (c : Nat) (fetches : Bool) : MemWf (s.stepAcw e c fetches) := by
  unfold State.stepAcw
  grind [memWf_acwUnit, memWf_updCmd, memWf_doneCmd, memWf_failXlate, memWf_failCmd, memWf_writeOne, memWf_finishUnits]

end

/-- What goes on from a read keeps the form, where each of its ways does. -/
theorem memWf_afterFetch {r : State × Fetch (List Byte)} {f : State → List Byte → State} {g o : State → Nat → Nat → State}
    {w d : State → State} (hr : MemWf r.1) (hf : ∀ t a, MemWf t → MemWf (f t a)) (hg : ∀ t k a, MemWf t → MemWf (g t k a))
    (ho : ∀ t k a, MemWf t → MemWf (o t k a)) (hw : ∀ t, MemWf t → MemWf (w t)) (hd : ∀ t, MemWf t → MemWf (d t)) :
    MemWf (match (generalizing := false) r with
      | (t, .ok a) => f t a
      | (t, .xlate k a) => g t k a
      | (t, .operand k a) => o t k a
      | (t, .wait) => w t
      | (t, .dead) => d t) := by
  obtain ⟨t, x⟩ := r
  cases x with
  | ok a => exact hf t a hr
  | xlate k a => exact hg t k a hr
  | operand k a => exact ho t k a hr
  | wait => exact hw t hr
  | dead => exact hd t hr
section
variable {s : State} (h : MemWf s)
include h

theorem memWf_stepLaunch (e : ECmd) : MemWf (s.stepLaunch e) := by
  delta State.stepLaunch
  extract_lets x
  split
  · split
    · exact memWf_doneCmd (memWf_pushLetter h _ _) _ _
    · exact h
  · apply memWf_afterFetch (memWf_engVa h (s.whoCmd e) e.opa 64)
    case hg => exact fun _ _ _ ht => memWf_failXlate ht _ _ _
    case ho => exact fun _ _ _ ht => memWf_failCmd ht _ _ _
    case hw => exact fun _ ht => ht
    case hd => exact fun _ ht => ht
    case hf =>
      intro t b ht
      extract_lets +onlyGivenNames l
      have hc := memWf_strikeCode ht (.cmd e.id) x.part (lTenant l) (lEntry l)
      cases t.letterWants x.part l with
      | some p => exact memWf_askHost ht p
        | none =>
        dsimp only
        split
        · exact hc
        · split
          · exact memWf_updCmd hc _ _
          · exact memWf_failCmd (memWf_count hc _ _) _ _ _

theorem memWf_setHolder (part i : Nat) (z : Range) (device : Bool) : MemWf (s.setHolder part i z device) := h

theorem memWf_cleanPages (part : Nat) (ps : List Nat) : MemWf (s.cleanPages part ps) := by
  refine memWf_foldl (memWf_strikeFrames h part _) (fun t e ht => ?_) _
  split
  · refine memWf_foldl ht (fun u w hu => ?_) _
    grind [memWf_writeBack, memWf_setL2]
  · exact ht

theorem memWf_beginRange (e : ECmd) : MemWf (s.beginRange e) := by
  unfold State.beginRange
  split <;> exact h

theorem memWf_stepRange (e : ECmd) (acquire : Bool) : MemWf (s.stepRange e acquire) := by
  unfold State.stepRange
  grind [memWf_doneCmd, memWf_askHost, memWf_useAsks, memWf_setHolder, memWf_updPkg, memWf_cleanPages]

theorem memWf_readyCmds : MemWf s.readyCmds := memWf_foldl h (fun _ _ ht => memWf_updCmd (memWf_newSerial ht) _ _) _

theorem memWf_beginCmd (e : ECmd) : MemWf (s.beginCmd e) := by
  unfold State.beginCmd
  grind [memWf_newWait, memWf_updCmd, memWf_arrive, memWf_doneCmd, memWf_failCmd, memWf_updQuad, memWf_beginAcw, memWf_beginPlan,
    memWf_beginMcast, memWf_beginTalloc, memWf_beginTfree, memWf_beginRange]

theorem memWf_beginCmds : MemWf s.beginCmds :=
  memWf_foldl h (fun _ _ ht => by split; exacts [ht, memWf_beginCmd ht _]) _

theorem memWf_stepCmd (id : Nat) : MemWf (s.stepCmd id) := by
  unfold State.stepCmd
  grind [memWf_stepAcw, memWf_stepCopy, memWf_stepTfree, memWf_stepLaunch, memWf_stepRange]

theorem memWf_engines : MemWf s.engines :=
  memWf_foldl (memWf_foldl (memWf_foldl (memWf_beginCmds (memWf_readyCmds h)) (fun _ _ ht => memWf_stepCmd ht _) _)
    (fun _ _ ht => memWf_smStep (memWf_tmStep ht _) _) _) (fun _ _ ht => memWf_unpark ht _) _

theorem memWf_enqueueCopy (r : Run) : MemWf (s.enqueueCopy r) := by
  unfold State.enqueueCopy
  grind [memWf_strikeUnit, memWf_enqueueWith]

theorem memWf_bootPart0 : MemWf s.bootPart0 := h

theorem memWf_setAcc (core a : Nat) (x : AccTile) : MemWf (s.setAcc core a x) := h

theorem memWf_setLatch (core l : Nat) (x : LatchT) : MemWf (s.setLatch core l x) := h

theorem memWf_grantAcc (c a : Nat) : MemWf (s.grantAcc c a) := by
  unfold State.grantAcc
  grind [memWf_setAcc, memWf_bumpGen]

theorem memWf_releaseAcc (core a : Nat) : MemWf (s.releaseAcc core a) := by
  unfold State.releaseAcc
  grind [memWf_setAcc, memWf_freeGen]

theorem memWf_grantLat (c l : Nat) : MemWf (s.grantLat c l) := by
  unfold State.grantLat
  grind [memWf_setLatch, memWf_bumpGen]

theorem memWf_releaseLat (core l : Nat) : MemWf (s.releaseLat core l) := by
  unfold State.releaseLat
  grind [memWf_setLatch, memWf_freeGen]

theorem memWf_window (r : Run) (cls : Cls) (n : Nat) : MemWf (s.window r cls n) := by
  unfold State.window
  grind [memWf_land]

theorem memWf_strikeAcc (r : Run) (a : Nat) : MemWf (s.strikeAcc r a) := by
  unfold State.strikeAcc
  grind [memWf_strikeUnit]

theorem memWf_updCall (id : Nat) (f : Call → Call) : MemWf (s.updCall id f) := h

theorem memWf_dropCall (k : Call) : MemWf (s.dropCall k) := h

theorem memWf_callFault (k : Call) (f : FaultInfo) : MemWf (s.callFault k f) := by
  unfold State.callFault
  grind [memWf_faultLate]

theorem memWf_pipeFault (k : Call) (f : FaultInfo) : MemWf (s.pipeFault k f) := by
  unfold State.pipeFault
  grind [memWf_callFault, memWf_updCtx]

theorem memWf_endCall (k : Call) (f : FaultInfo) : MemWf (s.endCall k f) := by
  unfold State.endCall
  grind [memWf_dropCall, memWf_callFault]

theorem memWf_rowVals (k : Call) (j : Job) (o : Opnd) (i : Nat) (got : List (Int × Nat)) : MemWf (s.rowVals k j o i got).1 := by
  unfold State.rowVals
  grind [memWf_gridFrom]

end

theorem memWf_unitsBind {α β : Type} {r : State × Fetch α × List (Int × Nat)}
    {f : State → α → List (Int × Nat) → State × Fetch β × Job} (j : Job) (put : List (Int × Nat) → Job) (hr : MemWf r.1)
    (hf : ∀ t a got, MemWf t → MemWf (f t a got).1) : MemWf (unitsBind r f j put).1 := by
  obtain ⟨s, x, got⟩ := r
  cases x with
  | ok a => exact hf s a got hr
  | xlate c a => exact hr
  | operand c a => exact hr
  | wait => exact hr
  | dead => exact hr

section
variable {s : State} (h : MemWf s)
include h

theorem memWf_readRow (k : Call) (j : Job) (o : Opnd) (i : Nat) : MemWf (s.readRow k j o i).1 := by
  unfold State.readRow
  dsimp only
  split
  · exact h
  · refine memWf_unitsBind j _ (memWf_rowVals h k j o i _) fun t v got ht => ?_
    split
    · exact memWf_unitsBind j _ (memWf_scaleFrom ht _ _ _ _ _ _ _) fun _ _ _ hu => hu
    · exact ht

theorem memWf_askRow (k : Call) (j : Job) : MemWf (s.askRow k j).2 := by
  unfold State.askRow
  split <;> exact h

theorem memWf_rowStep (id : Nat) : MemWf (s.rowStep id) := by
  unfold State.rowStep
  split
  · exact h
  · next k _ =>
    split
    · exact h
    · next j l _ =>
      have hk := memWf_knowAll h k.ctx k.id
      have hr : ∀ {t : State} (o i), MemWf t → MemWf (t.readRow k j o i).1 := fun o i ht => memWf_readRow ht k j o i
      grind [memWf_askRow, memWf_updCall, memWf_pipeFault, memWf_endCall, memWf_dropCall]

theorem memWf_rowSteps (id n : Nat) : MemWf (s.rowSteps id n) := by
  induction n generalizing s with
  | zero => exact h
  | succ n ih => exact ih (memWf_rowStep h id)

theorem memWf_pipes : MemWf s.pipes := memWf_foldl h (fun _ _ ht => memWf_rowSteps ht _ _) _

theorem memWf_arrayTake (core : Nat) : MemWf (s.arrayTake core) := by
  unfold State.arrayTake
  split <;> exact h

theorem memWf_breachFreeze (core : Nat) : MemWf (s.breachFreeze core) := by
  refine memWf_foldl h (fun t c ht => ?_) _
  dsimp only
  split
  · exact ht
  · split <;> exact memWf_setCtx ht _ _

theorem memWf_suffer (core : Nat) : MemWf (s.suffer core) :=
  memWf_foldl h (fun _ _ ht => by split; exacts [memWf_updCtx (memWf_updCall ht _ _) _ _, ht]) _

theorem memWf_breachThaw (core : Nat) : MemWf (s.breachThaw core) :=
  memWf_foldl (memWf_updCore h core _) (fun _ _ ht => by dsimp only; split; exacts [memWf_setCtx ht _ _, ht]) _

theorem memWf_breachCycle (core : Nat) : MemWf (s.breachCycle core) := by
  have hs := memWf_suffer h core
  unfold State.breachCycle
  split
  · exact h
  · dsimp only
    generalize s.suffer core = t at hs ⊢
    refine memWf_addDemand (memWf_foldl ?_ (fun _ _ ht => memWf_updCtx ht _ _) _) 0 core 1
    exact hs

theorem memWf_arrayCycle (cores : List Nat) : MemWf (s.arrayCycle cores) :=
  memWf_foldl h (fun _ _ ht => memWf_arrayTake (memWf_breachCycle ht _) _) _

theorem memWf_sense : MemWf s.sense.2 := h

theorem memWf_senseAll : MemWf s.senseAll := memWf_foldl h (fun _ _ ht => memWf_setCol (memWf_sense (memWf_sense ht)) _ _) _

theorem memWf_moveRung (o r : Nat) : MemWf (s.moveRung o r) := memWf_updOwner h o _

theorem memWf_markNarrow (o cls : Nat) : MemWf (s.markNarrow o cls) := by
  unfold State.markNarrow
  grind [memWf_mapCtxs]

theorem memWf_tickPart (us : List (Nat × Nat × Nat)) (part : Nat) : MemWf (s.tickPart us part).1 := h

theorem memWf_applyTick (t : Tick) : MemWf (s.applyTick t) :=
  memWf_congr (memWf_foldl (memWf_foldl h (fun _ _ ht => memWf_markNarrow (memWf_moveRung ht _ _) _ _) t.narrow)
    (fun _ _ ht => memWf_moveRung ht _ _) t.widen) rfl rfl

theorem memWf_microFault (k : Call) (code word : Nat) : MemWf (s.microFault k code word) := by
  unfold State.microFault
  grind [memWf_endCall]

theorem memWf_openWindow (k : Call) : MemWf (s.openWindow k) := h

theorem memWf_chooseSource (k : Call) (a : Nat) (b : Bool) (x : Source) : MemWf (s.chooseSource k a b x) := by
  unfold State.chooseSource
  grind [memWf_microFault, memWf_updCall]

theorem memWf_chooseFill (k : Call) (a : Nat) (b : Bool) (imm : Nat) : MemWf (s.chooseFill k a b imm) := by
  unfold State.chooseFill
  grind [memWf_microFault, memWf_chooseSource, memWf_fill]

theorem memWf_stepIndex (k : Call) (a : Nat) (b : Bool) (imm : BitVec 16) : MemWf (s.stepIndex k a b imm) := by
  unfold State.stepIndex
  grind [memWf_microFault, memWf_updCall]

theorem memWf_setCtr (k : Call) (i : BitVec 2) (v : Nat) : MemWf (s.setCtr k i v) := h

theorem memWf_writeImage (part : Nat) (i : Image) (stream : List Byte) : MemWf (s.writeImage part i stream) :=
  memWf_foldl h (fun _ _ ht => memWf_ownWrite ht _ _ _) _

theorem memWf_strikeFramesOf (part : Nat) (i : Image) : MemWf (s.strikeFramesOf part i) :=
  memWf_foldl h (fun _ _ ht => memWf_strikeMem ht _ _ _ _ _) _

theorem memWf_requestStop (c : Nat) : MemWf (s.requestStop c) := h

theorem memWf_saveSessions (q : Nat) (l : List Nat) : MemWf (s.saveSessions q l).1 := by
  induction l generalizing s with
  | nil => exact h
  | cons n l ih =>
    unfold State.saveSessions
    grind [memWf_saveSession]

theorem memWf_emptyCtx (c : Nat) : MemWf (s.emptyCtx c) := by
  unfold State.emptyCtx
  grind [memWf_settleCtx, memWf_dropGrants, memWf_setCtx, memWf_freeGen]

theorem memWf_saveReady (c : Nat) : MemWf (s.saveReady c).1 := by
  unfold State.saveReady
  grind [memWf_saveSessions]

theorem memWf_finishSave (q : Quire) (images : List Image) (zs : List Session) : MemWf (s.finishSave q images zs) := by
  have hs : MemWf (((s.tiles.filter fun t => t.quire = q.id).map Tile.id).foldl State.returnTile s) :=
    memWf_foldl h (fun _ _ ht => memWf_returnTile ht _) _
  unfold State.finishSave
  dsimp only
  generalize ((s.tiles.filter fun t => t.quire = q.id).map Tile.id).foldl State.returnTile s = t at hs ⊢
  generalize upto 32 = l
  refine memWf_congr (memWf_foldl (f := fun s n => match s.session n with
    | some z => if z.quire = q.id then s.setSession n none else s
    | none => s) hs (fun u n hu => ?_) l) rfl rfl
  split
  · split
    · exact memWf_setSession hu _ _
    · exact hu
  · exact hu

theorem memWf_strikeSave (c : Nat) (p : SavePlan) (zs : List Session) : MemWf (s.strikeSave c p zs) := by
  unfold State.strikeSave
  grind [memWf_strikeCode, memWf_strikeArmed]

end

end Sys2Proof.Proofs
end

section
/-! PROOFS. Memory keeps its form: quires, partitions, the host and the clock (O9). -/

namespace Sys2Proof.Proofs

open Sys2Proof Sys2Proof.Machine Sys2Proof.Safety

-- One proof at a time: proofs that wait for one another hold a thread each, and the check's memory is bounded.
set_option Elab.async false

section
variable {s : State} (h : MemWf s)
include h

theorem memWf_claim (part : Nat) (l : BitVec 512) (cs : List Nat) : MemWf (s.claim part l cs) := by
  delta State.claim
  extract_lets n w t lvl u q
  have ht : MemWf t := h
  have hu : MemWf u := memWf_foldl ht (fun _ _ hv => memWf_bumpGen (memWf_setCtx hv _ _) _) _
  exact hu

theorem memWf_takeRoom (q : Quire) (cs : List Nat) (i : Image) : MemWf (s.takeRoom q cs i) := by
  delta State.takeRoom
  extract_lets c k t1 t2 t3 x
  have h1 : MemWf t1 := memWf_foldl h (fun t p ht => by
    refine memWf_foldl (f := State.bumpGen) ?_ (fun _ _ hu => memWf_bumpGen hu _) _
    exact ht) _
  have h2 : MemWf t2 := memWf_foldl h1 (fun _ _ ht => memWf_bumpGen (memWf_setAcc ht _ _ _) _) _
  have h3 : MemWf t3 := memWf_foldl h2 (fun _ _ ht => memWf_bumpGen (memWf_setLatch ht _ _ _) _) _
  exact memWf_bumpGen (memWf_setCtx h3 c x) c

theorem memWf_reclaim (q : Quire) (cs : List Nat) : MemWf (s.reclaim q cs) :=
  memWf_updQuire (memWf_foldl (memWf_foldl (memWf_newWait h) (fun _ _ ht => memWf_takeRoom ht _ _ _) _)
    (fun _ _ ht => memWf_setSession ht _ _) _) _ _

theorem memWf_release (q : Quire) : MemWf (s.release q) := by
  delta State.release
  extract_lets zs t1 ids t2 t3 t4
  have h1 : MemWf t1 := memWf_foldl h (fun _ _ ht => memWf_setSession ht _ _) _
  have h2 : MemWf t2 := memWf_foldl h1 (fun _ _ ht => memWf_returnTile ht _) _
  have h3 : MemWf t3 := memWf_foldl h2 (fun _ _ ht => memWf_emptyCtx ht _) _
  split
  · exact memWf_updQuire h3 _ _
  · exact memWf_updPart (s := t4) h3 _ _

theorem memWf_writeDone (part tenant owner va v : Nat) : MemWf (s.writeDone part tenant owner va v).1 := by
  unfold State.writeDone
  grind [memWf_askHost, memWf_useAsks, memWf_count, memWf_guardHit, memWf_snoopFirst, memWf_strikeMem, memWf_setC, memWf_writePa]

theorem memWf_writeDones (part tenant owner va : Nat) (l : List Nat) : MemWf (s.writeDones part tenant owner va l).1 := by
  induction l generalizing s va with
  | nil => exact h
  | cons v l ih =>
    unfold State.writeDones
    grind [memWf_writeDone]

theorem memWf_complete (part : Nat) (l : BitVec 512) (status : Nat) : MemWf (s.complete part l status).1 := by
  unfold State.complete
  grind [memWf_writeDone, memWf_raise]

theorem memWf_dismiss (part : Nat) (l : BitVec 512) : MemWf (s.dismiss part l) := by
  unfold State.dismiss
  dsimp only
  split
  · exact memWf_foldl h (fun _ _ ht => memWf_foldl (memWf_updQuire ht _ _) (fun _ _ hu => memWf_updCtx hu _ _) _) _
  · exact memWf_count h part 7

theorem memWf_leaveQueue (part prio : Nat) : MemWf (s.leaveQueue part prio) := h

theorem memWf_leftLetter (part prio : Nat) (l : Letter) : MemWf (s.leftLetter part prio l) := h

theorem memWf_leftSaved (part : Nat) (q : Quire) : MemWf (s.leftSaved part q) := h

theorem memWf_passQueue (part prio : Nat) : MemWf (s.passQueue part prio) := by
  unfold State.passQueue
  grind [memWf_reclaim, memWf_updQuire, memWf_updPart, memWf_leftSaved, memWf_dismiss, memWf_leaveQueue, memWf_askHost, memWf_leftLetter,
    memWf_strikeCode, memWf_claim, memWf_complete, memWf_count]

theorem memWf_setHolds (part prio : Nat) : MemWf (s.setHolds part prio) := h

theorem memWf_startMember (q : Quire) (m : Nat) : MemWf (s.startMember q m) := by
  unfold State.startMember
  grind [memWf_newFree, memWf_strikeFramesOf, memWf_setCtx, memWf_updPart, memWf_replayMember, memWf_checkStart]

theorem memWf_freezeStarted (q : Quire) : MemWf (s.freezeStarted q) :=
  memWf_foldl h (fun _ _ ht => by split; exacts [memWf_breachFreeze ht _, ht]) _

theorem memWf_freeThings (q : Quire) : MemWf (s.freeThings q) :=
  memWf_foldl (memWf_foldl h (fun _ _ ht => memWf_returnTile ht _) _) (fun _ _ ht => memWf_setSession ht _ _) _

theorem memWf_endQuire (q : Quire) : MemWf (s.endQuire q) := by
  have hs : MemWf ((q.members.filter fun c => (s.ctx c).quire = q.id).foldl State.emptyCtx (s.idleBroken q.id)) :=
    memWf_foldl (memWf_idleBroken h q.id) (fun _ _ ht => memWf_emptyCtx ht _) _
  exact memWf_congr (memWf_updPart hs q.part fun p => { p with savedPass := tset 0 p.savedPass q.id 0 }) rfl rfl

theorem memWf_grantSlice (part t : Nat) : MemWf (s.grantSlice part t) := h

theorem memWf_firstSlice (part : Nat) : MemWf (s.firstSlice part) := by
  unfold State.firstSlice
  grind [memWf_grantSlice]

theorem memWf_stopTenant (part t : Nat) : MemWf (s.stopTenant part t) :=
  memWf_foldl h (fun _ _ hu => memWf_foldl (memWf_updQuire hu _ _) (fun _ _ hv => memWf_requestStop hv _) _) _

theorem memWf_writeRecord (c : Nat) (r : Rec) : MemWf (s.writeRecord c r).1 := by
  unfold State.writeRecord
  grind [memWf_writeDones, memWf_updQuire]

theorem memWf_endContext (c : Nat) : MemWf (s.endContext c) :=
  memWf_breakQuire (memWf_setCtx (memWf_updPart (memWf_dropGrants (memWf_foldl h (fun _ _ ht => memWf_dropCall ht _) _) c) _ _) c _) _

theorem memWf_dropTrans (drop : Trans → Bool) : MemWf (s.dropTrans drop) :=
  memWf_foldl (memWf_foldl h (fun _ _ ht => memWf_updQuad ht _ _) _) (fun _ _ ht => memWf_updStack ht _ _) _

theorem memWf_forgetStores (part : Nat) : MemWf (s.forgetStores part) := by
  unfold State.forgetStores
  grind [memWf_mapCtxs, memWf_reach]

theorem memWf_forgetAsks (part : Nat) : MemWf (s.forgetAsks part) := h

theorem memWf_storeWrite (r : Run) (w : CW) (routine : Bool) : MemWf (s.storeWrite r w routine) :=
  memWf_updCtx (memWf_foldl h (fun _ _ ht => memWf_updCore ht _ _) _) _ _

theorem memWf_freshQuiet (cls : Nat) (l : List Nat) : MemWf (s.freshQuiet cls l) := h

theorem memWf_givePositions (cols : List Nat) : MemWf (s.givePositions cols) := h

theorem memWf_flushSlice (part slice : Nat) : MemWf (s.flushSlice part slice) := by
  refine memWf_foldl (memWf_strikeFrames h part _) (fun t j ht => memWf_setL2 (memWf_foldl ht (fun u w hu => ?_) _) _ _) _
  grind [memWf_writeBack, memWf_addOcc]

theorem memWf_advanceL2 (p g : Nat) : MemWf (s.advanceL2 p g) := h

theorem memWf_later (i : Instr) : MemWf (s.later i) := h

theorem memWf_writeMsix (i : Nat) (data : Word) : MemWf (s.writeMsix i data) := h

theorem memWf_writeBudget (v : Nat) : MemWf (s.writeBudget v) := by
  unfold State.writeBudget
  grind [memWf_updPkg]

theorem memWf_writeRecWord (part w v : Nat) : MemWf (s.writeRecWord part w v) := by
  unfold State.writeRecWord
  grind [memWf_updPkg, memWf_guardHit, memWf_updPart]

theorem memWf_dropLetter (part : Nat) : MemWf (s.dropLetter part) := by
  unfold State.dropLetter
  grind [memWf_updPart, memWf_raise]

theorem memWf_takeChecked (part : Nat) (l : BitVec 512) : MemWf (s.takeChecked part l) := by
  unfold State.takeChecked
  grind [memWf_count, memWf_pushLetter, memWf_dropLetter]

theorem memWf_checkLetter (part : Nat) (l : BitVec 512) : MemWf (s.checkLetter part l).1 := by
  unfold State.checkLetter
  grind [memWf_askHost, memWf_strikeCode, memWf_takeChecked]

theorem memWf_takeLetter (part : Nat) (l : BitVec 512) : MemWf (s.takeLetter part l) := by
  unfold State.takeLetter
  grind [memWf_updPart, memWf_checkLetter]

theorem memWf_arriveLetters (part : Nat) (l : List (BitVec 512)) : MemWf (s.arriveLetters part l) := by
  induction l generalizing s with
  | nil => exact h
  | cons x l ih =>
    unfold State.arriveLetters
    grind [memWf_checkLetter, memWf_updPart]

theorem memWf_genadv (p : Nat) : MemWf (s.genadv p) := by
  unfold State.genadv
  grind [memWf_congr, memWf_advanceL2]

theorem memWf_endPart (part : Nat) : MemWf (s.endPart part) := by
  unfold State.endPart
  grind [memWf_congr, memWf_mapCtxs]

theorem memWf_strikeHost (part pa n : Nat) (write : Bool) : MemWf (s.strikeHost part pa n write) :=
  memWf_foldl h (fun _ _ ht => memWf_strikeMem ht _ _ _ _ _) _

theorem memWf_snoopLine (line : Nat) (inv : Bool) : MemWf (s.snoopLine line inv) := by
  refine memWf_foldl (memWf_foldl h (fun _ _ ht => memWf_strikeFrames ht _ _) _) (fun t e ht => ?_) _
  refine memWf_foldl ht (fun u w hu => ?_) _
  grind [memWf_writeBack, memWf_dropWay, memWf_setL2]

theorem memWf_hostWrite (part pa : Nat) (d : List Byte) : MemWf (s.hostWrite part pa d) := by
  refine memWf_foldl h (fun t l ht => ?_) _
  grind [memWf_guardHit, memWf_strikeHost, memWf_writePa]

theorem memWf_afterReset : MemWf s.afterReset := ⟨twfFrom_filter _ _ _ h.1, h.2⟩

theorem memWf_poisonLines (keys : List Nat) : MemWf (s.poisonLines keys) := h

theorem memWf_remoteWrite (pa : Nat) (d : List Byte) (elide : Bool) : MemWf (s.remoteWrite pa d elide).1 := by
  unfold State.remoteWrite
  grind [memWf_count, memWf_guardHit, memWf_snoopFirst, memWf_strikeMem, memWf_writePa]

theorem memWf_takeDelivery (spkg sctx part seq member tile off : Nat) (rows : List (List Byte)) (post : Bool) (barn : Nat)
    (good : Bool) : MemWf (s.takeDelivery spkg sctx part seq member tile off rows post barn good) := by
  have hp : ∀ {t : State}, MemWf t → MemWf (if !post then t else if good then t.post part barn else t.postFailed part barn) :=
    fun ht => by split; exacts [ht, by split; exacts [memWf_post ht _ _, memWf_postFailed ht _ _]]
  unfold State.takeDelivery
  split
  · exact h
  · split
    · exact h
    · split
      · exact h
      · dsimp only
        split
        · exact h
        · split
          · exact hp (memWf_updTile h _ _)
          · split
            · exact h
            · exact memWf_foldl h (fun _ _ ht => memWf_park ht _ _) _

theorem memWf_podArrive (job b cnt : Nat) : MemWf (s.podArrive job b cnt) := by
  unfold State.podArrive
  grind [memWf_count, memWf_countArrival, memWf_setEpisode, memWf_joinPosts]

theorem memWf_gather (r : Run) : MemWf (s.gather r) := by
  unfold State.gather
  grind [memWf_pushLoad, memWf_advanceSet]

theorem memWf_scatter (r : Run) : MemWf (s.scatter r) := by
  unfold State.scatter
  grind [memWf_pushStore, memWf_advanceSet]

theorem memWf_scAct (r : Run) : MemWf (s.scAct r) := by
  unfold State.scAct
  grind [memWf_pushLoad, memWf_loadStep, memWf_pushStore, memWf_scPerform]

theorem memWf_withTurn (core c : Nat) : MemWf (s.withTurn core c) := h

theorem memWf_scAsks (core c : Nat) : MemWf (s.scAsks core c) := by
  delta State.scAsks
  extract_lets t
  split
  · exact memWf_foldl h (fun _ _ ht => memWf_updPkg ht _) _
  · exact h

theorem memWf_endCycle : MemWf s.endCycle := by
  refine memWf_drainPosted (memWf_strikePosted (memWf_engines (memWf_pipes (memWf_hintStep
    (memWf_foldl (memWf_arrayCycle h _) (fun t c ht => ?_) _)))))
  split
  · exact ht
  · exact memWf_queueStep ht c

theorem memWf_repay (part : Nat) : MemWf (s.repay part) := by
  unfold State.repay
  split <;> exact h

theorem memWf_tickCols : MemWf s.tickCols := by
  have hw : ∀ {t : State}, MemWf t → MemWf (if t.cycle % 512 = 0 then
      { t with cores := t.cores.map fun (e : Nat × Core) => (e.1, { e.2 with wheelOld := none }) } else t) :=
    fun ht => by split <;> exact ht
  exact hw (memWf_foldl h (fun _ _ ht => memWf_setCol ht _ _) _)

theorem memWf_tickShapes : MemWf s.tickShapes := memWf_foldl h (fun _ _ ht => memWf_freeShapesDue ht _) _

theorem memWf_tickCalls : MemWf s.tickCalls := h

theorem memWf_tickCtxs : MemWf s.tickCtxs :=
  memWf_mapCtxs (memWf_foldl h (fun _ _ ht => memWf_breachFreeze ht _) _) _

theorem memWf_tickParts : MemWf s.tickParts :=
  memWf_foldl (memWf_foldl h (fun _ _ ht => memWf_firstSlice (memWf_repay ht _) _) _) (fun _ _ ht => memWf_arriveLetters ht _ _) _

theorem memWf_tickWants : MemWf s.tickWants := memWf_foldl h (fun _ _ ht => memWf_askHost ht _) _

theorem memWf_tick : MemWf s.tick := by
  have next : ∀ {t : State}, MemWf t → MemWf { t with cycle := t.cycle + 1 } := id
  have warm : ∀ {t : State}, MemWf t → MemWf (if t.cycle % 64 = 0 then t.senseAll else t) :=
    fun ht => by split; exacts [memWf_senseAll ht, ht]
  have begun : ∀ {t : State}, MemWf t → MemWf { t with
      phase := .events, agenda := t.periodic,
      dawn := some ⟨t.ctxs, t.cores, t.calls, t.cols, t.parts, t.owners, t.occ, t.pkg⟩ } := id
  exact begun (warm (memWf_tickWants (memWf_tickParts (memWf_tickCtxs (memWf_tickCalls (memWf_tickShapes (memWf_tickCols
    (memWf_tickAsks (next (memWf_endCycle h))))))))))

theorem memWf_strikeFetch (c a n : Nat) : MemWf (s.strikeFetch c a n) := by
  refine memWf_foldl h (fun t e ht => ?_) _
  have hw := memWf_strikeWalk (memWf_strikeTlb ht (tlbOf c) (s.ctx c).part (s.ctx c).tenant e.1 (.ctx c none))
    (tlbOf c) (s.ctx c).part (s.ctx c).tenant e.1 (.ctx c none)
  dsimp only
  split
  · exact memWf_strikeMem hw _ _ _ _ _
  · exact hw

theorem memWf_strikeBundle (c : Nat) : MemWf (s.strikeBundle c) := by
  unfold State.strikeBundle
  split
  · exact h
  · split
    · next a size b _ =>
      dsimp only
      split
      · exact h
      · have hf := memWf_strikeFetch h c a size
        have hr : ∀ {t : State} (l : List Run), MemWf t → MemWf (l.foldl (fun t r => match (if r.sup then none else r.target) with
            | some u => t.strikeCode (.ctx c none) ((s.ctx c).resumed (s.now c)).part ((s.ctx c).resumed (s.now c)).tenant u.addr
            | none => t) t) := fun l ht => memWf_foldl ht (fun _ _ hu => by split; exacts [memWf_strikeCode hu _ _ _ _, hu]) l
        split
        · exact memWf_poisonLine (hr _ (memWf_strikeRegs hf _ _ _)) _ _
        · exact hr _ (memWf_strikeRegs hf _ _ _)
    · exact h

theorem memWf_setSet (r : Run) (f : BitVec 512 → BitVec 512) : MemWf (s.setSet r f) := h

end

end Sys2Proof.Proofs
end

section
/-! PROOFS. Every instruction answers a next state whose memory keeps its form (O8, O9). -/

namespace Sys2Proof.Proofs

open Sys2Proof Sys2Proof.Machine Sys2Proof.Safety

-- One proof at a time: proofs that wait for one another hold a thread each, and the check's memory is bounded.
set_option Elab.async false

/-- An answer that is a next state, whose memory is in form where that of `s` is. -/
def Answers (s : State) (o : Out) : Prop := ∃ t, o = .next t ∧ (MemWf s → MemWf t)

theorem answers_next (s t : State) : Answers s (.next t) ↔ (MemWf s → MemWf t) := by
  refine ⟨fun ⟨u, hu, h⟩ => ?_, fun h => ⟨t, rfl, h⟩⟩
  cases hu
  exact h

theorem answers_ite {s : State} {c : Prop} [Decidable c] {o p : Out} (ho : Answers s o) (hp : Answers s p) :
    Answers s (if c then o else p) := by
  split
  · exact ho
  · exact hp

theorem memWf_foldl_fst {α β : Type} {f : State × β → α → State × β} (hf : ∀ a p, MemWf a.1 → MemWf (f a p).1) (l : List α)
    {a : State × β} (h : MemWf a.1) : MemWf (l.foldl f a).1 := by
  induction l generalizing a with
  | nil => exact h
  | cons p l ih => exact ih (hf a p h)

theorem memWf_act {s : State} {eff sup : State → Run → State} (he : ∀ t r, MemWf t → MemWf (eff t r))
    (hs : ∀ t r, MemWf t → MemWf (sup t r)) (h : MemWf s) (k : Cur) (i : Instr) (f : Form) : MemWf (s.act k i f eff sup) := by
  unfold State.act
  grind [memWf_updCtx, memWf_congr]

/-- Every slot operation answers, where its effect and its suppressed effect keep the form of memory. -/
theorem runOp_answers {s : State} {i : Instr} {eff : State → Run → State} {sup : State → Run → State}
    (he : ∀ t r, MemWf t → MemWf (eff t r)) (hs : ∀ t r, MemWf t → MemWf (sup t r) := by exact fun _ r h => memWf_noSup h r) :
    Answers s (s.runOp i eff sup) := by
  unfold State.runOp
  grind [answers_next, memWf_act, memWf_faultBundle, memWf_congr]

/-- Every micro-op answers, where its effect keeps the form of memory. -/
theorem mop_answers {s : State} {eff : State → Call → Nat → State} (he : ∀ t k a, MemWf t → MemWf (eff t k a)) :
    Answers s (s.mop eff) := by
  unfold State.mop
  grind [answers_next, memWf_strikeUnit, memWf_updCall, memWf_congr]

/-! The events, and the operations whose effect is more than one of the model's functions. -/

theorem faultFreeze_answers (c : Nat) (s : State) : Answers s (execFaultFreeze c s) := by
  unfold execFaultFreeze
  grind [answers_next, memWf_congr, memWf_faultBundle]

theorem ageCountExpiry_answers (c : Nat) (s : State) : Answers s (execAgeCountExpiry c s) := by
  unfold execAgeCountExpiry
  grind [answers_next, memWf_congr, memWf_setCtx]

theorem ret_answers (w : CW) (s : State) : Answers s (execRet w s) := by
  unfold execRet
  exact runOp_answers fun t r h => by grind [memWf_updCtx, memWf_jumpTo]

theorem loop_answers (w : CW) (s : State) : Answers s (execLoop w s) := by
  unfold execLoop
  exact runOp_answers fun t r h => by grind [memWf_jumpTo, memWf_updCtx]

theorem yield_answers (w : CW) (s : State) : Answers s (execYield w s) := by
  unfold execYield
  exact runOp_answers fun t r h => by grind [memWf_updCtx]

theorem yieldExpiry_answers (c : Nat) (s : State) : Answers s (execYieldExpiry c s) := by
  unfold execYieldExpiry
  grind [answers_next, memWf_congr, memWf_setCtx]

theorem trap_answers (w : CW) (s : State) : Answers s (execTrap w s) := by
  unfold execTrap
  exact runOp_answers fun t r h => by grind [memWf_congr]

theorem tret_answers (w : CW) (s : State) : Answers s (execTret w s) := by
  unfold execTret
  exact runOp_answers fun t r h => by grind [memWf_updCtx, memWf_retryWalks, memWf_jumpTo]

theorem engineCommandComplete_answers (cmd : Nat) (s : State) : Answers s (execEngineCommandComplete cmd s) := by
  unfold execEngineCommandComplete
  grind [answers_next, memWf_congr, memWf_updCtx, memWf_complete]

theorem errorStrike_answers (desc : BitVec 64) (unc lasting : Bool) (s : State) : Answers s (execErrorStrike desc unc lasting s)
    := by
  unfold execErrorStrike
  grind [answers_next, memWf_congr, memWf_strike, memWf_strikeTest]

theorem selfTestVerdict_answers (test : Nat) (s : State) : Answers s (execSelfTestVerdict test s) := by
  unfold execSelfTestVerdict
  grind [answers_next, memWf_congr, memWf_setL2, memWf_restorePage, memWf_updPkg, memWf_updCore, memWf_hflog, memWf_updCtx]

theorem switchWriteback_answers (word : Nat) (s : State) : Answers s (execSwitchWriteback word s) := by
  unfold execSwitchWriteback
  grind [answers_next, memWf_congr, memWf_swDrop]

theorem markerComplete_answers (c : Nat) (s : State) : Answers s (execMarkerComplete c s) := by
  unfold execMarkerComplete
  grind [answers_next, memWf_congr, memWf_queueFault, memWf_updCtx, memWf_complete]

theorem resultLanding_answers (c : Nat) (s : State) : Answers s (execResultLanding c s) := by
  unfold execResultLanding
  grind [answers_next, memWf_congr, memWf_setCtx]

theorem lateLoadFreeze_answers (c : Nat) (s : State) : Answers s (execLateLoadFreeze c s) := by
  unfold execLateLoadFreeze
  grind [answers_next, memWf_congr, memWf_setCtx]

theorem lateLoadArrival_answers (c : Nat) (s : State) : Answers s (execLateLoadArrival c s) := by
  unfold execLateLoadArrival
  grind [answers_next, memWf_congr, memWf_setCtx]

theorem allocationServed_answers (alloc : Nat) (s : State) : Answers s (execAllocationServed alloc s) := by
  unfold execAllocationServed
  grind [answers_next, memWf_congr, memWf_setAllocQ, memWf_failCmd, memWf_foldl, memWf_bumpGen, memWf_enterTile, memWf_doneCmd]

theorem deliveryCheck_answers (delivery : Nat) (good : Bool) (s : State) : Answers s (execDeliveryCheck delivery good s) := by
  unfold execDeliveryCheck
  grind [answers_next, memWf_congr, memWf_updCmd]

theorem parcelTimeout_answers (part : Nat) (s : State) : Answers s (execParcelTimeout part s) := by
  unfold execParcelTimeout
  grind [answers_next, memWf_congr, memWf_updPart, memWf_failDest, memWf_updCmd]

theorem mapStoreWaitServed_answers (quad : Nat) (s : State) : Answers s (execMapStoreWaitServed quad s) := by
  unfold execMapStoreWaitServed
  grind [answers_next, memWf_congr, memWf_updCmd, memWf_tmRun]

theorem smopenSetAsideServed_answers (quad : Nat) (s : State) : Answers s (execSmopenSetAsideServed quad s) := by
  unfold execSmopenSetAsideServed
  grind [answers_next, memWf_congr, memWf_updQuad, memWf_updCmd]

theorem smpush_answers (w : EW) (s : State) : Answers s (execSmpush w s) := by
  unfold execSmpush
  exact runOp_answers fun t r h => by grind [memWf_enqueueWith, memWf_enqueueNop]

theorem handlerArrival_answers (c : Nat) (s : State) : Answers s (execHandlerArrival c s) := by
  unfold execHandlerArrival
  grind [answers_next, memWf_congr, memWf_dropGrants, memWf_setCtx, memWf_checkStart]

theorem accget_answers (w : MW) (s : State) : Answers s (execAccget w s) := by
  unfold execAccget
  exact runOp_answers fun t r h => by grind [memWf_grantAcc, memWf_window]

theorem accput_answers (w : MW) (s : State) : Answers s (execAccput w s) := by
  unfold execAccput
  exact runOp_answers fun t r h => by grind [memWf_releaseAcc, memWf_window]

theorem accclr_answers (w : MW) (s : State) : Answers s (execAccclr w s) := by
  unfold execAccclr
  exact runOp_answers fun t r h => by grind [memWf_setAcc, memWf_window]

theorem accmov_answers (w : MW) (s : State) : Answers s (execAccmov w s) := by
  unfold execAccmov
  exact runOp_answers fun t r h => by grind [memWf_strikeAcc, memWf_setAcc, memWf_window]

theorem latget_answers (w : MW) (s : State) : Answers s (execLatget w s) := by
  unfold execLatget
  exact runOp_answers fun t r h => by grind [memWf_grantLat, memWf_window]

theorem latput_answers (w : MW) (s : State) : Answers s (execLatput w s) := by
  unfold execLatput
  exact runOp_answers fun t r h => by grind [memWf_releaseLat, memWf_window]

theorem accrd_answers (w : MW) (s : State) : Answers s (execAccrd w s) := by
  unfold execAccrd
  exact runOp_answers fun t r h => by grind [memWf_strikeAcc, memWf_result]

theorem accst_answers (w : MW) (s : State) : Answers s (execAccst w s) := by
  unfold execAccst
  exact runOp_answers fun t r h => by grind [memWf_strikeAcc, memWf_newSerial, memWf_newWait, memWf_updCtx, memWf_knowTile,
    memWf_land]

theorem latld_answers (w : MW) (s : State) : Answers s (execLatld w s) := by
  unfold execLatld
  exact runOp_answers fun t r h => by grind [memWf_newSerial, memWf_newWait, memWf_updCtx, memWf_land]

theorem mcall_answers (w : MW) (s : State) : Answers s (execMcall w s) := by
  unfold execMcall
  refine runOp_answers fun t r h => ?_
  extract_lets core t1
  have h1 : MemWf t1 := memWf_foldl (memWf_strikeAcc h ..) (fun _ _ hu => memWf_strikeUnit hu ..) _
  exact memWf_congr h1 rfl rfl

theorem matrixCallComplete_answers (call : Nat) (s : State) : Answers s (execMatrixCallComplete call s) := by
  unfold execMatrixCallComplete
  grind [answers_next, memWf_congr, memWf_setAcc, memWf_dropCall]

theorem breachBegin_answers (core : Nat) (s : State) : Answers s (execBreachBegin core s) := by
  unfold execBreachBegin
  grind [answers_next, memWf_congr, memWf_updCore, memWf_suffer, memWf_breachFreeze]

theorem breachEnd_answers (core : Nat) (s : State) : Answers s (execBreachEnd core s) := by
  unfold execBreachEnd
  grind [answers_next, memWf_congr, memWf_breachThaw]

theorem breachTimeout_answers (core : Nat) (s : State) : Answers s (execBreachTimeout core s) := by
  unfold execBreachTimeout
  grind [answers_next, memWf_congr, memWf_foldl, memWf_endCall, memWf_breachThaw]

/-- A partition's part of a governor tick, its reports put behind those before it. -/
def tickAfter (us : List (Nat × Nat × Nat)) (a : State × List Tick) (p : Nat) : State × List Tick :=
  ((a.1.tickPart us p).1, a.2 ++ [(a.1.tickPart us p).2])

theorem governorTick_answers (s : State) : Answers s (execGovernorTick s) := by
  delta execGovernorTick
  refine answers_ite ((answers_next s s).2 id) ?_
  extract_lets old s1 us cols down parts
  have hp (h : MemWf s) : MemWf (parts.foldl (tickAfter us) (s1, [])).1 :=
    memWf_foldl_fst (f := tickAfter us) (fun a p ha => memWf_tickPart (s := a.1) ha us p) parts h
  split
  next t ts heq =>
  extract_lets t1 t2 t3 t4
  refine (answers_next s _).2 fun h => ?_
  have ht : MemWf t := by
    have := hp h
    exact (congrArg (fun a => MemWf a.1) heq).mp this
  have h1 : MemWf t1 := memWf_foldl ht (fun _ _ hu => memWf_applyTick hu _) _
  have h3 : MemWf t3 := memWf_foldl (s := t2) h1 (fun _ _ hu => memWf_setCol hu ..) _
  have h4 : MemWf t4 := h3
  split
  · exact memWf_raise h4 50
  · exact h4

theorem columnStepUp_answers (col : Nat) (s : State) : Answers s (execColumnStepUp col s) := by
  unfold execColumnStepUp
  grind [answers_next, memWf_congr, memWf_setCol, memWf_raise]

theorem budgetArbiter_answers (s : State) : Answers s (execBudgetArbiter s) := by
  unfold execBudgetArbiter
  grind [answers_next, memWf_congr, memWf_foldl, memWf_setCol]

theorem ktile_answers (w : MopW) (s : State) : Answers s (execKtile w s) := by
  unfold execKtile
  exact mop_answers fun t k a h => by grind [memWf_congr, memWf_microFault, memWf_updCall, memWf_openWindow]

theorem kTileWindowOpen_answers (call : Nat) (s : State) : Answers s (execKTileWindowOpen call s) := by
  unfold execKTileWindowOpen
  grind [answers_next, memWf_congr, memWf_openWindow]

theorem fetcha_answers (_w : MopW) (s : State) : Answers s (execFetcha _w s) := by
  unfold execFetcha
  exact mop_answers fun _ _ _ h => memWf_chooseSource h ..

theorem fetchb_answers (_w : MopW) (s : State) : Answers s (execFetchb _w s) := by
  unfold execFetchb
  exact mop_answers fun _ _ _ h => memWf_chooseSource h ..

theorem lata_answers (w : MopW) (s : State) : Answers s (execLata w s) := by
  unfold execLata
  exact mop_answers fun _ _ _ h => memWf_chooseSource h ..

theorem latb_answers (w : MopW) (s : State) : Answers s (execLatb w s) := by
  unfold execLatb
  exact mop_answers fun _ _ _ h => memWf_chooseSource h ..

theorem filla_answers (w : MopW) (s : State) : Answers s (execFilla w s) := by
  unfold execFilla
  exact mop_answers fun _ _ _ h => memWf_chooseFill h ..

theorem fillb_answers (w : MopW) (s : State) : Answers s (execFillb w s) := by
  unfold execFillb
  exact mop_answers fun _ _ _ h => memWf_chooseFill h ..

theorem groups_answers (_w : MopW) (s : State) : Answers s (execGroups _w s) := by
  unfold execGroups
  exact mop_answers fun t k a h => by grind [memWf_microFault, memWf_askRow, memWf_updCall]

theorem stepa_answers (w : MopW) (s : State) : Answers s (execStepa w s) := by
  unfold execStepa
  exact mop_answers fun _ _ _ h => memWf_stepIndex h ..

theorem stepb_answers (w : MopW) (s : State) : Answers s (execStepb w s) := by
  unfold execStepb
  exact mop_answers fun _ _ _ h => memWf_stepIndex h ..

theorem scalea_answers (w : MopW) (s : State) : Answers s (execScalea w s) := by
  unfold execScalea
  exact mop_answers fun _ _ _ h => memWf_updCall h ..

theorem scaleb_answers (w : MopW) (s : State) : Answers s (execScaleb w s) := by
  unfold execScaleb
  exact mop_answers fun _ _ _ h => memWf_updCall h ..

theorem accsel_answers (w : MopW) (s : State) : Answers s (execAccsel w s) := by
  unfold execAccsel
  exact mop_answers fun _ _ _ h => memWf_updCall h ..

theorem cntset_answers (w : MopW) (s : State) : Answers s (execCntset w s) := by
  unfold execCntset
  exact mop_answers fun _ _ _ h => memWf_setCtr h ..

theorem cntdec_answers (w : MopW) (s : State) : Answers s (execCntdec w s) := by
  unfold execCntdec
  exact mop_answers fun _ _ _ h => memWf_setCtr h ..

theorem jnz_answers (w : MopW) (s : State) : Answers s (execJnz w s) := by
  unfold execJnz
  exact mop_answers fun t k a h => by grind [memWf_updCall]

theorem jmp_answers (w : MopW) (s : State) : Answers s (execJmp w s) := by
  unfold execJmp
  exact mop_answers fun _ _ _ h => memWf_updCall h ..

theorem parmrd_answers (w : MopW) (s : State) : Answers s (execParmrd w s) := by
  unfold execParmrd
  exact mop_answers fun _ _ _ h => memWf_setCtr h ..

theorem done_answers (_w : MopW) (s : State) : Answers s (execDone _w s) := by
  unfold execDone
  exact mop_answers fun t k a h => by grind [memWf_congr, memWf_updCall, memWf_microFault]

theorem nopm_answers (_w : MopW) (s : State) : Answers s (execNopm _w s) := by
  unfold execNopm
  exact mop_answers fun _ _ _ h => h

theorem urgentStop_answers (c : Nat) (s : State) : Answers s (execUrgentStop c s) := by
  unfold execUrgentStop
  grind [answers_next, memWf_congr, memWf_setCtx]

theorem stopTimeout_answers (c : Nat) (s : State) : Answers s (execStopTimeout c s) := by
  unfold execStopTimeout
  grind [answers_next, memWf_congr, memWf_setCtx]

theorem contextSave_answers (c : Nat) (s : State) : Answers s (execContextSave c s) := by
  unfold execContextSave
  grind [answers_next, memWf_congr, memWf_setCtx, memWf_saveReady, memWf_strikeSave, memWf_updPart, memWf_foldl,
    memWf_writeImage, memWf_returnTile, memWf_emptyCtx, memWf_updQuire, memWf_finishSave]

theorem frameExhaustion_answers (c : Nat) (s : State) : Answers s (execFrameExhaustion c s) := by
  unfold execFrameExhaustion
  grind [answers_next, memWf_congr, memWf_updPart, memWf_setCtx, memWf_hflog]

theorem schedulerPass_answers (part : Nat) (s : State) : Answers s (execSchedulerPass part s) := by
  unfold execSchedulerPass
  grind [answers_next, memWf_congr, memWf_foldl, memWf_passQueue]

theorem letterReserving_answers (part prio : Nat) (s : State) : Answers s (execLetterReserving part prio s) := by
  unfold execLetterReserving
  grind [answers_next, memWf_congr, memWf_setHolds]

theorem startSignal_answers (quire : Nat) (s : State) : Answers s (execStartSignal quire s) := by
  unfold execStartSignal
  grind [answers_next, memWf_congr, memWf_foldl, memWf_startMember, memWf_freezeStarted, memWf_updQuire]

theorem safePointStop_answers (c : Nat) (s : State) : Answers s (execSafePointStop c s) := by
  unfold execSafePointStop
  grind [answers_next, memWf_congr, memWf_release, memWf_setCtx]

theorem contextRetire_answers (c : Nat) (s : State) : Answers s (execContextRetire c s) := by
  unfold execContextRetire
  grind [answers_next, memWf_congr, memWf_dropGrants, memWf_setCtx]

theorem quireRetire_answers (quire : Nat) (s : State) : Answers s (execQuireRetire quire s) := by
  unfold execQuireRetire
  grind [answers_next, memWf_congr, memWf_freeThings, memWf_complete, memWf_endQuire]

theorem sliceEnd_answers (part : Nat) (s : State) : Answers s (execSliceEnd part s) := by
  unfold execSliceEnd
  grind [answers_next, memWf_congr, memWf_updPart, memWf_grantSlice, memWf_stopTenant]

theorem trapDelivery_answers (c : Nat) (s : State) : Answers s (execTrapDelivery c s) := by
  unfold execTrapDelivery
  grind [answers_next, memWf_congr, memWf_strikeCode, memWf_setCtx, memWf_enter, memWf_hflog]

theorem contextTerminate_answers (c : Nat) (s : State) : Answers s (execContextTerminate c s) := by
  unfold execContextTerminate
  grind [answers_next, memWf_congr, memWf_writeRecord, memWf_raise, memWf_endContext]

theorem tstatWrite_answers (w : CW) (s : State) : Answers s (execTstatWrite w s) := by
  unfold execTstatWrite
  exact runOp_answers fun t r h => by grind [memWf_updCtx]

theorem tlbinv_answers (w : CW) (s : State) : Answers s (execTlbinv w s) := by
  unfold execTlbinv
  exact runOp_answers fun t r h => by grind [memWf_dropTrans, memWf_forgetStores, memWf_forgetAsks, memWf_newWait, memWf_updCtx]

theorem tlbinvComplete_answers (c : Nat) (s : State) : Answers s (execTlbinvComplete c s) := by
  unfold execTlbinvComplete
  grind [answers_next, memWf_congr, memWf_updCtx]

theorem storeWriteApply_answers (core : Nat) (s : State) : Answers s (execStoreWriteApply core s) := by
  unfold execStoreWriteApply
  grind [answers_next, memWf_congr, memWf_updCore, memWf_foldl, memWf_updCtx, memWf_storeWrite]

theorem partcol_answers (w : CW) (s : State) : Answers s (execPartcol w s) := by
  unfold execPartcol
  exact runOp_answers fun t r h => by grind [memWf_updPart, memWf_foldl, memWf_updCore, memWf_givePositions, memWf_freshQuiet,
    memWf_recomputeNets]

theorem partslc_answers (w : CW) (s : State) : Answers s (execPartslc w s) := by
  unfold execPartslc
  exact runOp_answers fun t r h => by grind [memWf_newWait, memWf_updCtx, memWf_freshQuiet, memWf_updPart]

theorem sliceReleaseWritebackEnd_answers (c : Nat) (s : State) : Answers s (execSliceReleaseWritebackEnd c s) := by
  unfold execSliceReleaseWritebackEnd
  grind [answers_next, memWf_congr, memWf_count, memWf_foldl, memWf_flushSlice, memWf_updPart, memWf_updCtx]

theorem partchn_answers (w : CW) (s : State) : Answers s (execPartchn w s) := by
  unfold execPartchn
  exact runOp_answers fun t r h => by grind [memWf_freshQuiet, memWf_updPart]

theorem ownasgn_answers (w : CW) (s : State) : Answers s (execOwnasgn w s) := by
  unfold execOwnasgn
  exact runOp_answers fun t r h => by grind [memWf_setOwner, memWf_setBucket]

theorem genadv_answers (w : CW) (s : State) : Answers s (execGenadv w s) := by
  unfold execGenadv
  exact runOp_answers fun t r h => by grind [memWf_congr, memWf_genadv, memWf_advanceL2, memWf_newWait, memWf_updCtx]

theorem generationZeroingEnd_answers (struct : Nat) (s : State) : Answers s (execGenerationZeroingEnd struct s) := by
  unfold execGenerationZeroingEnd
  grind [answers_next, memWf_congr, memWf_foldl, memWf_setL2, memWf_advanceL2, memWf_mapCtxs, memWf_genadv]

theorem selftst_answers (w : CW) (s : State) : Answers s (execSelftst w s) := by
  unfold execSelftst
  exact runOp_answers fun t r h => by grind [memWf_congr, memWf_strikeTest, memWf_startTest, memWf_updCtx]

theorem ctxstop_answers (w : CW) (s : State) : Answers s (execCtxstop w s) := by
  unfold execCtxstop
  exact runOp_answers fun t r h => by grind [memWf_updCtx]

theorem pbudgetWrite_answers (data : BitVec 64) (s : State) : Answers s (execPbudgetWrite data s) := by
  unfold execPbudgetWrite
  grind [answers_next, memWf_congr, memWf_writeBudget]

theorem partitionRecordWrite_answers (part word : Nat) (data : BitVec 64) (s : State) : Answers s (execPartitionRecordWrite part
    word data s) := by
  unfold execPartitionRecordWrite
  grind [answers_next, memWf_congr, memWf_writeRecWord]

theorem bar0Write_answers (off len : Nat) (data : BitVec 64) (s : State) : Answers s (execBar0Write off len data s) := by
  unfold execBar0Write
  grind [answers_next, memWf_congr, memWf_updPkg, memWf_writeBudget, memWf_writeMsix, memWf_writeRecWord]

theorem letterboxWrite_answers (off : Nat) (full : Bool) (data : List Byte) (s : State) : Answers s (execLetterboxWrite off full
    data s) := by
  unfold execLetterboxWrite
  grind [answers_next, memWf_congr, memWf_updPkg, memWf_takeLetter]

theorem tdispLock_answers (part : Nat) (s : State) : Answers s (execTdispLock part s) := by
  unfold execTdispLock
  grind [answers_next, memWf_congr, memWf_updPart]

theorem tdispRun_answers (part : Nat) (s : State) : Answers s (execTdispRun part s) := by
  unfold execTdispRun
  grind [answers_next, memWf_congr, memWf_updPart]

theorem tdispUnlock_answers (part : Nat) (s : State) : Answers s (execTdispUnlock part s) := by
  unfold execTdispUnlock
  grind [answers_next, memWf_congr, memWf_endPart, memWf_genadv, memWf_updPart]

theorem tdiError_answers (part : Nat) (s : State) : Answers s (execTdiError part s) := by
  unfold execTdiError
  grind [answers_next, memWf_congr, memWf_tdiEnterError]

theorem ideLoss_answers (s : State) : Answers s (execIdeLoss s) := by
  unfold execIdeLoss
  grind [answers_next, memWf_congr, memWf_foldl, memWf_tdiEnterError, memWf_updPkg]

theorem spdmRequest_answers (req : SpdmReq) (s : State) : Answers s (execSpdmRequest req s) := by
  unfold execSpdmRequest
  grind [answers_next, memWf_congr, memWf_updPkg, memWf_raise]

theorem hdmDecoderCommit_answers (part base size : Nat) (s : State) : Answers s (execHdmDecoderCommit part base size s) := by
  unfold execHdmDecoderCommit
  grind [answers_next, memWf_congr, memWf_updPart]

theorem hostMemRead_answers (hpa len : Nat) (s : State) : Answers s (execHostMemRead hpa len s) := by
  unfold execHostMemRead
  grind [answers_next, memWf_congr, memWf_later, memWf_strikeHost, memWf_updPkg]

theorem hostSnoop_answers (line : Nat) (inv : Bool) (s : State) : Answers s (execHostSnoop line inv s) := by
  unfold execHostSnoop
  grind [answers_next, memWf_congr, memWf_snoopLine]

theorem hostMemWrite_answers (hpa : Nat) (data : List Byte) (s : State) : Answers s (execHostMemWrite hpa data s) := by
  unfold execHostMemWrite
  grind [answers_next, memWf_congr, memWf_later, memWf_hostWrite, memWf_foldl, memWf_snoopLine, memWf_setRawBytes]

theorem backInvalidationResponse_answers (line : Nat) (dirty : Option (List Byte)) (s : State) : Answers s
    (execBackInvalidationResponse line dirty s) := by
  unfold execBackInvalidationResponse
  grind [answers_next, memWf_congr, memWf_updPkg, memWf_hostWrite]

theorem atsTranslationResponse_answers (hpaPage : Nat) (answer : Option Nat) (s : State) : Answers s (execAtsTranslationResponse
    hpaPage answer s) := by
  unfold execAtsTranslationResponse
  grind [answers_next, memWf_congr, memWf_updPkg]

theorem firmwareStage_answers (image : List Byte) (version : BitVec 64) (keySlot : Nat) (sigGood raise : Bool) (s : State) :
    Answers s (execFirmwareStage image version keySlot sigGood raise s) := by
  unfold execFirmwareStage
  grind [answers_next, memWf_congr, memWf_updPkg, memWf_raise]

theorem bootComplete_answers (selfTest : Bool) (s : State) : Answers s (execBootComplete selfTest s) := by
  unfold execBootComplete
  grind [answers_next, memWf_congr, memWf_updPkg, memWf_bootPart0]

theorem coldReset_answers (s : State) : Answers s (execColdReset s) := by
  unfold execColdReset
  grind [answers_next, memWf_congr, memWf_afterReset]

theorem warmReset_answers (s : State) : Answers s (execWarmReset s) := by
  unfold execWarmReset
  grind [answers_next, memWf_congr, memWf_afterReset, memWf_updPkg, memWf_foldl]

theorem linkTraining_answers (switch pkg : Nat) (s : State) : Answers s (execLinkTraining switch pkg s) := by
  unfold execLinkTraining
  grind [answers_next, memWf_congr, memWf_updPkg]

theorem fareriLinkLoss_answers (switch : Nat) (s : State) : Answers s (execFareriLinkLoss switch s) := by
  unfold execFareriLinkLoss
  grind [answers_next, memWf_congr, memWf_updPkg]

theorem switchFailure_answers (switch : Nat) (s : State) : Answers s (execSwitchFailure switch s) := by
  unfold execSwitchFailure
  grind [answers_next, memWf_congr, memWf_updPkg, memWf_poisonLines, memWf_foldl, memWf_updCmd, memWf_doneCmd, memWf_hflog]

theorem fareriFlitArrival_answers (flit : Flit) (s : State) : Answers s (execFareriFlitArrival flit s) := by
  unfold execFareriFlitArrival
  grind [answers_next, memWf_congr, memWf_remoteWrite, memWf_later, memWf_count, memWf_strikeMem, memWf_post, memWf_takeDelivery,
    memWf_wantSwitch, memWf_setRemoteBytes, memWf_podArrive, memWf_updPkg, memWf_guardHit, memWf_snoopFirst, memWf_writePa]

theorem pfhx_answers (w : LW) (s : State) : Answers s (execPfhx w s) := by
  unfold execPfhx
  exact runOp_answers fun t r h => by grind [memWf_foldl, memWf_hint]

theorem mark_answers (w : WW) (s : State) : Answers s (execMark w s) := by
  unfold execMark
  exact runOp_answers fun t r h => by grind [memWf_newSerial, memWf_updCtx, memWf_enqueueNop]

theorem slotWheelPosition_answers (core : Nat) (s : State) : Answers s (execSlotWheelPosition core s) := by
  unfold execSlotWheelPosition
  grind [answers_next, memWf_congr, memWf_withTurn, memWf_foldl, memWf_scAsks]

/-- Every instruction answers a next state, whose memory keeps its form. -/
theorem exec_answers (i : Instr) (s : State) : Answers s (exec i s) := by
  cases i with
  | br _ | bri _ => exact runOp_answers fun _ _ h => memWf_jumpTo h ..
  | call _ | calli _ => exact runOp_answers fun _ _ h => memWf_callTo h ..
  | exit _ | xratio _ => exact runOp_answers fun _ _ h => memWf_updCtx h ..
  | wait _ | lSlotHint _ _ => exact runOp_answers fun _ _ h => h
  | mov _ | add _ | sub _ | mul _ | mulh _ | div _ | rem _ | and _ | or _ | xor _ | shl _ | shr _ | min _ | max _ | adds _
    | subs _ | clz _ | popc _ | ext _ | sel _ => exact runOp_answers fun _ _ h => memWf_scalarOp h ..
  | cmp _ | vcmp _ | pcnt _ | pfirst _ | sysrd _ | ownrd _ | occrd _ | adr _ | mpset _ | mprd _ | vcvt _ | vextr _ | xexp _
    | xtrn _ | xcvt _ | xqnt _ | xred _ | agrd _ => exact runOp_answers fun _ _ h => memWf_result h ..
  | vmov _ | vabs _ | vneg _ | vsqrt _ | vrcp _ | vrsqrt _ | vexp2 _ | vlog2 _ | vnot _
    => exact runOp_answers fun _ _ h => memWf_vec1 h ..
  | vbcast _ | viota _ | vszadd _ | vsel _ | vperm _ | vrot _ | vins _ => exact runOp_answers fun _ _ h => memWf_vecOp h ..
  | vadd _ | vsub _ | vmul _ | vdiv _ | vmin _ | vmax _ | vand _ | vor _ | vxor _ | vshl _ | vshr _ | vadds _ | vsubs _ | vmulh _
    => exact runOp_answers fun _ _ h => memWf_vec2 h ..
  | vfma _ | vfms _ => exact runOp_answers fun _ _ h => memWf_vec3 h ..
  | vrsum _ | vrmax _ | vrmin _ => exact runOp_answers fun _ _ h => memWf_reduceOp h ..
  | pand _ | por _ | pxor _ | pnot _ | pmov _ => exact runOp_answers fun _ _ h => memWf_predForm h ..
  | shseal _ | ld _ | vld _ | pld _ | tld _ => exact runOp_answers fun _ _ h => memWf_pushLoad h ..
  | tmmatch _ | tmmerge _ | tmunmrg _ | tmcomp _ | tmfree _ | tmsize _ | smopen _ | smfeed _ | smlimit _ | smend _ | smdrain _
    | copyTileToTile _ | copyMemToMem _ | mcast _ | copyh _ | talloc _ | tfree _ | launch _ | racq _ | rrel _ | barCore _
    | barQuad _ | barStack _ | barPkg _ | barPod _ | acwAdd _ _ | acwMin _ _ | acwMax _ _ | acwAnd _ _ | acwOr _ _ | acwXor _ _
    | acwSwap _ _ | acwCas _ _ | acwfAdd _ _ | acwfMin _ _ | acwfMax _ _ | acwfAnd _ _ | acwfOr _ _ | acwfXor _ _ | acwfSwap _ _
    | acwfCas _ _ => exact runOp_answers (fun _ _ h => memWf_enqueue h ..) fun _ _ h => memWf_enqueueNop h _
  | copyMemToTile _ | copyTileToMem _
    => exact runOp_answers (fun _ _ h => memWf_enqueueCopy h ..) fun _ _ h => memWf_enqueueNop h _
  | syswr _ | govloadWrite _ | tretpcWrite _ => exact runOp_answers fun _ _ h => memWf_sysWrite h ..
  | ownset _ | ownlat _ | wayset _ => exact runOp_answers fun _ _ h => memWf_updOwner h ..
  | ownbkt _ => exact runOp_answers fun _ _ h => memWf_setBucket h ..
  | whlset _ => exact runOp_answers fun _ _ h => memWf_updCore h ..
  | mswr _ | rtset _ => exact runOp_answers fun _ _ h => memWf_storeWrite h ..
  | partset _ | partlnk _ | frmset _ | rngset _ | tenset _ => exact runOp_answers fun _ _ h => memWf_updPart h ..
  | errinj _ => exact runOp_answers fun _ _ h => memWf_updPkg h ..
  | ldsc _ | stsc _ => exact runOp_answers (fun _ _ h => memWf_scAct h ..)
  | vldg _ | tldg _ => exact runOp_answers fun _ _ h => memWf_gather h ..
  | pfh _ => exact runOp_answers fun _ _ h => memWf_hint h ..
  | st _ | vst _ | pst _ | stnt _ | tst _ => exact runOp_answers fun _ _ h => memWf_pushStore h ..
  | vsts _ | tsts _ => exact runOp_answers fun _ _ h => memWf_scatter h ..
  | agbase _ | agdim _ | agidx _ | agind _ | agmode _ | agclr _ => exact runOp_answers fun _ _ h => memWf_setSet h ..
  | shfree _ => exact runOp_answers fun _ _ h => memWf_updStack h ..
  | faultFreeze c => exact faultFreeze_answers c s
  | ageCountExpiry c => exact ageCountExpiry_answers c s
  | ret w => exact ret_answers w s
  | loop w => exact loop_answers w s
  | yield w => exact yield_answers w s
  | yieldExpiry c => exact yieldExpiry_answers c s
  | trap w => exact trap_answers w s
  | tret w => exact tret_answers w s
  | engineCommandComplete cmd => exact engineCommandComplete_answers cmd s
  | errorStrike desc unc lasting => exact errorStrike_answers desc unc lasting s
  | selfTestVerdict test => exact selfTestVerdict_answers test s
  | switchWriteback word => exact switchWriteback_answers word s
  | markerComplete c => exact markerComplete_answers c s
  | resultLanding c => exact resultLanding_answers c s
  | lateLoadFreeze c => exact lateLoadFreeze_answers c s
  | lateLoadArrival c => exact lateLoadArrival_answers c s
  | allocationServed alloc => exact allocationServed_answers alloc s
  | deliveryCheck delivery good => exact deliveryCheck_answers delivery good s
  | parcelTimeout part => exact parcelTimeout_answers part s
  | mapStoreWaitServed quad => exact mapStoreWaitServed_answers quad s
  | smopenSetAsideServed quad => exact smopenSetAsideServed_answers quad s
  | smpush w => exact smpush_answers w s
  | handlerArrival c => exact handlerArrival_answers c s
  | accget w => exact accget_answers w s
  | accput w => exact accput_answers w s
  | accclr w => exact accclr_answers w s
  | accmov w => exact accmov_answers w s
  | latget w => exact latget_answers w s
  | latput w => exact latput_answers w s
  | accrd w => exact accrd_answers w s
  | accst w => exact accst_answers w s
  | latld w => exact latld_answers w s
  | mcall w => exact mcall_answers w s
  | matrixCallComplete call => exact matrixCallComplete_answers call s
  | breachBegin core => exact breachBegin_answers core s
  | breachEnd core => exact breachEnd_answers core s
  | breachTimeout core => exact breachTimeout_answers core s
  | governorTick => exact governorTick_answers s
  | columnStepUp col => exact columnStepUp_answers col s
  | budgetArbiter => exact budgetArbiter_answers s
  | ktile w => exact ktile_answers w s
  | kTileWindowOpen call => exact kTileWindowOpen_answers call s
  | fetcha _w => exact fetcha_answers _w s
  | fetchb _w => exact fetchb_answers _w s
  | lata w => exact lata_answers w s
  | latb w => exact latb_answers w s
  | filla w => exact filla_answers w s
  | fillb w => exact fillb_answers w s
  | groups _w => exact groups_answers _w s
  | stepa w => exact stepa_answers w s
  | stepb w => exact stepb_answers w s
  | scalea w => exact scalea_answers w s
  | scaleb w => exact scaleb_answers w s
  | accsel w => exact accsel_answers w s
  | cntset w => exact cntset_answers w s
  | cntdec w => exact cntdec_answers w s
  | jnz w => exact jnz_answers w s
  | jmp w => exact jmp_answers w s
  | parmrd w => exact parmrd_answers w s
  | done _w => exact done_answers _w s
  | nopm _w => exact nopm_answers _w s
  | urgentStop c => exact urgentStop_answers c s
  | stopTimeout c => exact stopTimeout_answers c s
  | contextSave c => exact contextSave_answers c s
  | frameExhaustion c => exact frameExhaustion_answers c s
  | schedulerPass part => exact schedulerPass_answers part s
  | letterReserving part prio => exact letterReserving_answers part prio s
  | startSignal quire => exact startSignal_answers quire s
  | safePointStop c => exact safePointStop_answers c s
  | contextRetire c => exact contextRetire_answers c s
  | quireRetire quire => exact quireRetire_answers quire s
  | sliceEnd part => exact sliceEnd_answers part s
  | trapDelivery c => exact trapDelivery_answers c s
  | contextTerminate c => exact contextTerminate_answers c s
  | tstatWrite w => exact tstatWrite_answers w s
  | tlbinv w => exact tlbinv_answers w s
  | tlbinvComplete c => exact tlbinvComplete_answers c s
  | storeWriteApply core => exact storeWriteApply_answers core s
  | partcol w => exact partcol_answers w s
  | partslc w => exact partslc_answers w s
  | sliceReleaseWritebackEnd c => exact sliceReleaseWritebackEnd_answers c s
  | partchn w => exact partchn_answers w s
  | ownasgn w => exact ownasgn_answers w s
  | genadv w => exact genadv_answers w s
  | generationZeroingEnd struct => exact generationZeroingEnd_answers struct s
  | selftst w => exact selftst_answers w s
  | ctxstop w => exact ctxstop_answers w s
  | pbudgetWrite data => exact pbudgetWrite_answers data s
  | partitionRecordWrite part word data => exact partitionRecordWrite_answers part word data s
  | bar0Write off len data => exact bar0Write_answers off len data s
  | letterboxWrite off full data => exact letterboxWrite_answers off full data s
  | tdispLock part => exact tdispLock_answers part s
  | tdispRun part => exact tdispRun_answers part s
  | tdispUnlock part => exact tdispUnlock_answers part s
  | tdiError part => exact tdiError_answers part s
  | ideLoss => exact ideLoss_answers s
  | spdmRequest req => exact spdmRequest_answers req s
  | hdmDecoderCommit part base size => exact hdmDecoderCommit_answers part base size s
  | hostMemRead hpa len => exact hostMemRead_answers hpa len s
  | hostSnoop line inv => exact hostSnoop_answers line inv s
  | hostMemWrite hpa data => exact hostMemWrite_answers hpa data s
  | backInvalidationResponse line dirty => exact backInvalidationResponse_answers line dirty s
  | atsTranslationResponse hpaPage answer => exact atsTranslationResponse_answers hpaPage answer s
  | firmwareStage image version keySlot sigGood raise => exact firmwareStage_answers image version keySlot sigGood raise s
  | bootComplete selfTest => exact bootComplete_answers selfTest s
  | coldReset => exact coldReset_answers s
  | warmReset => exact warmReset_answers s
  | linkTraining switch pkg => exact linkTraining_answers switch pkg s
  | fareriLinkLoss switch => exact fareriLinkLoss_answers switch s
  | switchFailure switch => exact switchFailure_answers switch s
  | fareriFlitArrival flit => exact fareriFlitArrival_answers flit s
  | pfhx w => exact pfhx_answers w s
  | mark w => exact mark_answers w s
  | slotWheelPosition core => exact slotWheelPosition_answers core s

end Sys2Proof.Proofs
end

section
/-! PROOFS. Every step answers a next state whose memory keeps its form (O8, O9): the phases of a scheduler cycle. -/

namespace Sys2Proof.Proofs

open Sys2Proof Sys2Proof.Machine Sys2Proof.Safety

/-- An event that answers whatever the state. -/
def Safe (f : State → Out) : Prop := ∀ s, Answers s (f s)

/-- A list of possible events, all of which answer. -/
def AllSafe (l : List (Option (State → Out))) : Prop := ∀ f, some f ∈ l → Safe f

theorem answers_of_memWf {s t : State} {o : Out} (h : Answers t o) (ht : MemWf s → MemWf t) : Answers s o := by
  obtain ⟨u, ho, hu⟩ := h
  exact ⟨u, ho, hu ∘ ht⟩

theorem firstDue_safe {l : List (Option (State → Out))} (hl : AllSafe l) {f : State → Out} (h : firstDue l = some f) : Safe f := by
  induction l with
  | nil => cases h
  | cons x l ih =>
    cases x with
    | some g =>
      obtain rfl : g = f := Option.some.inj h
      exact hl g List.mem_cons_self
    | none => exact ih (fun g hg => hl g (List.mem_cons_of_mem _ hg)) h

theorem allSafe_append {l l' : List (Option (State → Out))} (h : AllSafe l) (h' : AllSafe l') : AllSafe (l ++ l') :=
  fun f hf => (List.mem_append.mp hf).elim (h f) (h' f)

theorem allSafe_nil : AllSafe [] := fun _ h => absurd h List.not_mem_nil

theorem allSafe_cons {x : Option (State → Out)} {l : List (Option (State → Out))} (hx : ∀ f, x = some f → Safe f)
    (hl : AllSafe l) : AllSafe (x :: l) := fun f hf => (List.mem_cons.mp hf).elim (fun h => hx f h.symm) (hl f)

theorem allSafe_map_cons {α : Type} {x : Option α} {g : α → State → Out} {l : List (Option (State → Out))} (hg : ∀ a, Safe (g a))
    (hl : AllSafe l) : AllSafe (x.map g :: l) := by
  refine allSafe_cons (fun f hf => ?_) hl
  obtain ⟨a, -, rfl⟩ := Option.map_eq_some_iff.mp hf
  exact hg a

theorem allSafe_findSome_cons {α : Type} {as : List α} {g : α → Option (State → Out)} {l : List (Option (State → Out))}
    (hg : ∀ a f, g a = some f → Safe f) (hl : AllSafe l) : AllSafe (as.findSome? g :: l) := by
  refine allSafe_cons (fun f hf => ?_) hl
  obtain ⟨a, -, ha⟩ := List.exists_of_findSome?_eq_some hf
  exact hg a f ha

theorem breachEvent_safe {s : State} {core : Nat} {f : State → Out} (h : s.breachEvent core = some f) : Safe f := by
  unfold State.breachEvent at h
  dsimp only at h
  split at h <;> split at h <;> try split at h
  all_goals cases h
  · exact breachBegin_answers core
  · exact breachEnd_answers core
  · exact breachTimeout_answers core

theorem blockOver_safe {s : State} {c : Nat} {f : State → Out} (h : s.blockOver c = some f) : Safe f := by
  unfold State.blockOver at h
  split at h <;> try split at h
  all_goals cases h
  · exact tlbinvComplete_answers c
  · exact sliceReleaseWritebackEnd_answers c

theorem workEvents_safe (s : State) : AllSafe s.workEvents :=
  allSafe_map_cons engineCommandComplete_answers <| allSafe_map_cons matrixCallComplete_answers <|
  allSafe_map_cons kTileWindowOpen_answers <| allSafe_findSome_cons (fun _ _ => breachEvent_safe) <|
  allSafe_map_cons storeWriteApply_answers <| allSafe_map_cons (fun d => deliveryCheck_answers d _) <|
  allSafe_map_cons parcelTimeout_answers <| allSafe_map_cons allocationServed_answers <|
  allSafe_map_cons mapStoreWaitServed_answers <| allSafe_map_cons smopenSetAsideServed_answers <|
  allSafe_map_cons switchWriteback_answers <| allSafe_map_cons switchFailure_answers <|
  allSafe_map_cons selfTestVerdict_answers <| allSafe_map_cons generationZeroingEnd_answers allSafe_nil

theorem ctxEvents_safe (s : State) : AllSafe s.ctxEvents :=
  allSafe_map_cons markerComplete_answers <| allSafe_map_cons lateLoadArrival_answers <|
  allSafe_map_cons trapDelivery_answers <| allSafe_map_cons contextTerminate_answers <|
  allSafe_map_cons lateLoadFreeze_answers <| allSafe_map_cons handlerArrival_answers <|
  allSafe_map_cons yieldExpiry_answers <| allSafe_findSome_cons (fun _ _ => blockOver_safe) <|
  allSafe_map_cons contextRetire_answers <| allSafe_map_cons stopTimeout_answers <|
  allSafe_map_cons urgentStop_answers <| allSafe_map_cons safePointStop_answers <|
  allSafe_map_cons contextSave_answers <| allSafe_map_cons frameExhaustion_answers <|
  allSafe_map_cons ageCountExpiry_answers <| allSafe_map_cons slotWheelPosition_answers allSafe_nil

theorem partEvents_safe (s : State) : AllSafe s.partEvents := by
  refine allSafe_map_cons startSignal_answers <| allSafe_map_cons quireRetire_answers <|
    allSafe_map_cons sliceEnd_answers <| allSafe_findSome_cons (fun p f hf => ?_) allSafe_nil
  obtain ⟨k, -, rfl⟩ := Option.map_eq_some_iff.mp hf
  exact letterReserving_answers p k

theorem periodic_safe (i : Periodic) : Safe i.act := by
  cases i with
  | governorTick => exact governorTick_answers
  | budgetArbiter => exact budgetArbiter_answers
  | schedulerPass p => exact schedulerPass_answers p

/-- The machine's own next event answers, and taking it from the agenda leaves memory alone. -/
theorem nextEvent_safe {s t : State} {f : State → Out} (h : s.nextEvent = some (f, t)) : Safe f ∧ (MemWf s → MemWf t) := by
  unfold State.nextEvent at h
  split at h
  · cases h
    exact ⟨bootComplete_answers _, id⟩
  · split at h
    next g hg =>
      cases h
      exact ⟨firstDue_safe (workEvents_safe s) hg, id⟩
    next =>
      split at h
      next i l _ =>
        cases h
        exact ⟨periodic_safe i, id⟩
      next =>
        split at h
        next c _ =>
          cases h
          exact ⟨columnStepUp_answers c, id⟩
        next =>
          obtain ⟨g, hg, he⟩ := Option.map_eq_some_iff.mp h
          cases he
          exact ⟨firstDue_safe (allSafe_append (ctxEvents_safe s) (partEvents_safe s)) hg, id⟩

theorem dueInput_memWf {s t : State} {i : Instr} (h : s.dueInput = some (i, t)) : MemWf s → MemWf t := by
  unfold State.dueInput at h
  split at h
  · split at h
    · cases h
      exact id
    · cases h
  · cases h

theorem stepEvents_answers (s : State) : Answers s (stepEvents s) := by
  unfold stepEvents
  split
  next i t hi => exact answers_of_memWf (exec_answers i t) (dueInput_memWf hi)
  next =>
    split
    next f t hf =>
      obtain ⟨hs, ht⟩ := nextEvent_safe hf
      exact answers_of_memWf (hs t) ht
    next => exact (answers_next _ _).2 id

theorem stepScan_answers (s : State) : Answers s (stepScan s) := by
  unfold stepScan
  split
  · exact faultFreeze_answers _ s
  · split
    · exact resultLanding_answers _ s
    · exact (answers_next _ _).2 memWf_merge

theorem stepIssue_answers (s : State) : Answers s (stepIssue s) := by
  unfold stepIssue
  split
  · split
    · exact (answers_next _ _).2 fun h => memWf_finishBundle h _
    · exact exec_answers _ s
  · split
    · exact (answers_next _ _).2 id
    next c l _ =>
      have h0 (h : MemWf s) : MemWf ({ s with todo := l }.strikeBundle c) := memWf_strikeBundle (s := { s with todo := l }) h c
      have h1 (h : MemWf s) : MemWf (({ s with todo := l }.strikeBundle c).beginBundle c) := memWf_beginBundle (h0 h) c
      dsimp only
      split
      · exact (answers_next _ _).2 h0
      · split
        · exact (answers_next _ _).2 h1
        · split
          · exact (answers_next _ _).2 h1
          · exact answers_of_memWf (exec_answers _ _) h1

theorem microNext_memWf {s t : State} {id : Nat} (h : s.microNext id = .error t) : MemWf s → MemWf t := by
  unfold State.microNext at h
  grind [memWf_microFault, memWf_congr]

theorem stepMicro_answers (id : Nat) (s : State) : Answers s (stepMicro id s) := by
  unfold stepMicro
  split
  · exact exec_answers _ s
  next t ht => exact (answers_next _ _).2 (microNext_memWf ht)

/-- Every step answers a next state, whose memory keeps its form. -/
theorem step_answers (s : State) : Answers s (step s) := by
  unfold step
  split
  · exact stepMicro_answers _ s
  · split
    · exact (answers_next _ _).2 memWf_tick
    · exact stepEvents_answers s
    · exact stepScan_answers s
    · exact stepIssue_answers s

/-- Settles O8: every instruction answers, and so does every phase of a step. -/
theorem machineNeverStops : Obligations.MachineNeverStops := by
  unfold Obligations.MachineNeverStops
  constructor
  · intro s
    obtain ⟨t, ht, -⟩ := step_answers s
    exact ⟨t, ht⟩
  · intro i s
    obtain ⟨t, ht, -⟩ := exec_answers i s
    exact ⟨t, ht⟩

/-- Settles O9: memory changes through byte writes in form only, in every phase of a step. -/
theorem stepKeepsMemoryForm : Obligations.StepKeepsMemoryForm := by
  unfold Obligations.StepKeepsMemoryForm
  intro s t h ht
  obtain ⟨u, hu, hm⟩ := step_answers s
  cases ht.symm.trans hu
  exact hm h

end Sys2Proof.Proofs
end

section
/-! PROOFS. The commands of slot E, at issue and at completion (O39). -/

namespace Sys2Proof.Proofs

open Sys2Proof Sys2Proof.Machine Sys2Proof.Safety

/-- A copy captures its shape with its operands; where no error is armed that is all that sets it apart (R250, R256). -/
theorem enqueueCopy_calm {s : State} (h : s.pkg.armed = none) (r : Run) :
    s.enqueueCopy r = s.enqueueWith r false (s.captureShape r) [] := by
  unfold State.enqueueCopy
  split
  · rw [strikeUnit_calm h]
  · rfl

/-- Every command of slot E issues by `enqueueWith`, with a shape and vectors of its own. -/
theorem exec_command {i : Instr} {f : Form} (hf : formOf i = some f) (hs : f.slot = .E) :
    ∃ eff : State → Run → State, (∀ s, exec i s = s.runOp i eff State.enqueueNop) ∧
      ∀ s r, s.pkg.armed = none → ∃ shape vecs, eff s r = s.enqueueWith r false shape vecs := by
  cases i <;> simp only [formOf, reduceCtorEq, Option.some.injEq] at hf
  all_goals
    subst hf
    simp only [cForm, scalarForm, cmpForm, selForm, bForm, vForm, lForm, hintForm, wForm, markForm, mForm, eForm, xForm, abSlot_ne_E,
      reduceCtorEq] at hs
  case copyMemToTile w => exact ⟨_, fun _ => rfl, fun s r h => ⟨_, _, enqueueCopy_calm h r⟩⟩
  case copyTileToMem w => exact ⟨_, fun _ => rfl, fun s r h => ⟨_, _, enqueueCopy_calm h r⟩⟩
  all_goals exact ⟨_, fun _ => rfl, fun _ _ _ => ⟨none, _, rfl⟩⟩

theorem commandIssues_of_enqueueWith {s : State} {k : Cur} {i : Instr} {f : Form} {nop : Bool} {shape : Option (Option (BitVec 768))}
    {vecs : List VReg} (h : exec i s = .next ((opened s k f).enqueueWith (opOf k i f) nop shape vecs)) :
    CommandIssues s k i f nop (latched s k f) := by
  refine ⟨_, (opOf k i f).cmdOf s.serial nop shape vecs, h, rfl, fun d hd => ?_, ?_,
    rfl, rfl, rfl, rfl, rfl, rfl, rfl, rfl, rfl, rfl, rfl, rfl, rfl, rfl⟩
  · exact (State.ctx_setCtx_ne _ _ hd).trans (opened_ctx_ne s k f hd)
  · exact (State.ctx_setCtx_self _ _ _).trans (congrArg (Ctx.produce · _ _) (opened_ctx_self s k f))

/-- A command that performs issues with its operands captured (R250). -/
theorem commandIssues_of_slotE {s : State} {k : Cur} {i : Instr} {f : Form} (ha : s.pkg.armed = none) (h : Performs s k i f)
    (hs : (formOf i).map Form.slot = some .E) : CommandIssues s k i f false (latched s k f) := by
  rw [h.1.form] at hs
  obtain ⟨eff, hrun, heff⟩ := exec_command h.1.form (Option.some.inj hs)
  obtain ⟨shape, vecs, he⟩ := heff (opened s k f) (opOf k i f) ha
  exact commandIssues_of_enqueueWith ((hrun s).trans ((State.runOp_performs h _ _).trans (congrArg _ he)))

/-- A command that is over leaves the commands, and its token completes (R155, R156, R342). -/
theorem execEngineCommandComplete_over {s : State} {id : Nat} {e : ECmd} (hc : s.cmd id = some e) (ho : s.cmdOver e = true) :
    execEngineCommandComplete id s = .next { s.updCtx e.ctx fun x => x.complete e.kout e.id e.fail with
      cmds := s.cmds.filter fun f => !(f.id = id) } := by
  unfold execEngineCommandComplete
  rw [hc]
  dsimp only
  rw [if_pos ho]
  rfl

theorem cmdOver_of {s : State} {e : ECmd} (h : (e.nop = false ∧ e.acted = true ∧ e.wait ≤ s.cycle) ∨
    (e.nop = true ∧ ∀ x ∈ e.kins, s.prodBusy e.ctx x = false)) : s.cmdOver e = true := by
  unfold State.cmdOver
  obtain ⟨hn, ha, hw⟩ | ⟨hn, hk⟩ := h
  · simp [hn, ha, hw]
  · simpa [hn] using hk

/-- Settles O39: every command of slot E issues by `enqueueWith`; one that is over is taken off the commands. -/
theorem engineCommands : Obligations.EngineCommands := by
  unfold Obligations.EngineCommands
  refine ⟨fun s k f ha => ⟨fun mk hmk w h => commandIssues_of_slotE ha h ?_, fun mk hmk ty w h => commandIssues_of_slotE ha h ?_,
    fun mk hmk ty w h => commandIssues_of_slotE ha h ?_⟩, fun s id e hc ho => ?complete⟩
  case complete =>
    refine ⟨_, execEngineCommandComplete_over hc (cmdOver_of ho), rfl, rfl, fun d hd => State.ctx_setCtx_ne _ _ hd, ?_⟩
    rw [← cmd_id hc]
    exact State.ctx_setCtx_self _ _ _
  all_goals
    simp only [List.mem_cons, List.not_mem_nil, or_false] at hmk
    repeat
      obtain rfl | hmk := hmk
      · rfl

end Sys2Proof.Proofs
end

section
/-! PROOFS. The micro-ops of a matrix call (O38). -/

namespace Sys2Proof.Proofs

open Sys2Proof Sys2Proof.Machine Sys2Proof.Safety

/-! Calls by number. -/

section Calls
variable {s : State} {id : Nat}

/-- The call found under a number has that number. -/
theorem call_id {k : Call} (h : s.call id = some k) : k.id = id := by simpa using findFirst_prop h

/-- A change of a call that keeps its number is what is found under that number. -/
theorem call_updCall {f : Call → Call} (h : ∀ k, k.id = id → (f k).id = id) : (s.updCall id f).call id = (s.call id).map f := by
  unfold State.call State.updCall mapIf
  dsimp only
  rw [findFirst_map (fun k => by by_cases hi : k.id = id <;> simp [hi, h])]
  cases hk : findFirst (fun k : Call => decide (k.id = id)) s.calls with
  | none => rfl
  | some k =>
    have := findFirst_prop hk
    simp only [Option.map_some, this, if_true]

theorem call_updCall_ne {f : Call → Call} (h : ∀ k, k.id = id → (f k).id = id) {d : Nat} (hd : d ≠ id) :
    (s.updCall id f).call d = s.call d := by
  unfold State.call State.updCall mapIf
  dsimp only
  rw [findFirst_map (fun k => by by_cases hi : k.id = id <;> simp [hi, h, hd.symm])]
  cases hk : findFirst (fun k : Call => decide (k.id = d)) s.calls with
  | none => rfl
  | some k =>
    have : k.id = d := by simpa using findFirst_prop hk
    simp [this, hd]

theorem updCall_updCall {f g : Call → Call} (hg : ∀ k, k.id = id → (g k).id = id) :
    (s.updCall id g).updCall id f = s.updCall id (f ∘ g) := by
  unfold State.updCall mapIf
  simp only [List.map_map]
  congr 2
  funext k
  by_cases hi : k.id = id <;> simp [hi, hg]

end Calls

/-- The call once its word has been counted: the next word follows (R239). -/
def counted (k : Call) : Call := { k with upc := k.upc + 1, words := k.words + 1 }

/-- The state that the effect of a micro-op finds. -/
def wordCounted (s : State) (id : Nat) (k : Call) : State := s.updCall id fun _ => counted k

section Word
variable {s : State} {id : Nat} {k : Call} (h : Runs s id k)
include h

theorem mop_runs (eff : State → Call → Nat → State) : s.mop eff = .next (eff (wordCounted s id k) (counted k) k.upc) := by
  unfold State.mop
  rw [h.micro]
  dsimp only
  rw [h.call]
  dsimp only
  rw [strikeUnit_calm h.calm]
  rfl

theorem counted_id : (counted k).id = id := by
  have hk := call_id h.call
  exact hk

theorem wordCounted_call : (wordCounted s id k).call id = some (counted k) := by
  unfold wordCounted
  rw [call_updCall (f := fun _ => counted k) fun _ _ => counted_id h, h.call]
  rfl

theorem wordCounted_call_ne {d : Nat} (hd : d ≠ id) : (wordCounted s id k).call d = s.call d :=
  call_updCall_ne (f := fun _ => counted k) (fun _ _ => counted_id h) hd

/-- A word whose effect leaves its call as counted. -/
theorem wordRuns_counted {i : Instr} {g : Call → Call} (hr : exec i s = .next (wordCounted s id k)) (hg : g (counted k) = counted k) :
    WordRuns s id k i g (some id) :=
  ⟨_, hr, congrArg (fun m => { wordCounted s id k with micro := m }) h.micro,
    (wordCounted_call h).trans (congrArg some hg.symm), fun _ => wordCounted_call_ne h⟩

/-- A word whose effect is a change of its call and of the routine that runs. -/
theorem wordRuns_of {i : Instr} {f g : Call → Call} {m : Option Nat}
    (hr : exec i s = .next { (wordCounted s id k).updCall id f with micro := m }) (hf : ∀ c, (f c).id = c.id)
    (hg : f (counted k) = g (counted k)) : WordRuns s id k i g m := by
  refine ⟨_, hr, rfl, ?_, fun d hd => ?_⟩
  · refine (call_updCall (s := wordCounted s id k) fun c hc => (hf c).trans hc).trans ?_
    rw [wordCounted_call h]
    exact congrArg some hg
  · exact (call_updCall_ne (fun c hc => (hf c).trans hc) hd).trans (wordCounted_call_ne h hd)

/-- A word whose effect is two changes of its call, one after the other. -/
theorem wordRuns_of_two {i : Instr} {f f' g : Call → Call} {m : Option Nat}
    (hr : exec i s = .next { ((wordCounted s id k).updCall id f').updCall id f with micro := m }) (hf : ∀ c, (f c).id = c.id)
    (hf' : ∀ c, (f' c).id = c.id) (hg : f (f' (counted k)) = g (counted k)) : WordRuns s id k i g m := by
  rw [updCall_updCall fun c hc => (hf' c).trans hc] at hr
  exact wordRuns_of h hr (fun c => (hf (f' c)).trans (hf' c)) hg

/-- A micro-op that changes its call alone. -/
theorem wordRuns_upd {i : Instr} {eff : State → Call → Nat → State} {f g : Call → Call} (hi : exec i s = s.mop eff)
    (he : eff (wordCounted s id k) (counted k) k.upc = (wordCounted s id k).updCall k.id f) (hf : ∀ c, (f c).id = c.id)
    (hg : f (counted k) = g (counted k)) : WordRuns s id k i g (some id) := by
  refine wordRuns_of h ?_ hf hg
  rw [hi, mop_runs h, he, call_id h.call, ← h.micro]
  rfl

end Word

/-! What the effects do where they meet no fault. -/

section Effects
variable {s : State} {k : Call} {a : Nat} {b : Bool}

theorem chooseSource_free (h : (if b then k.srcB else k.srcA) = none) (x : Source) :
    s.chooseSource k a b x = s.updCall k.id fun q => if b then { q with srcB := some x } else { q with srcA := some x } := by
  unfold State.chooseSource
  rw [h]
  rfl

theorem chooseFill_free (h : (if b then k.srcB else k.srcA) = none) {imm : Nat} (hi : k.ladder = 2 → imm < 256) :
    s.chooseFill k a b imm =
      s.updCall k.id fun q => if b then { q with srcB := some (.fill imm) } else { q with srcA := some (.fill imm) } := by
  unfold State.chooseFill
  rw [if_neg (by simpa using hi)]
  exact chooseSource_free h _

theorem stepIndex_free {imm : BitVec 16} (h : 0 ≤ ((if b then k.kB else k.kA : Nat) : Int) + imm.toInt) :
    s.stepIndex k a b imm = s.updCall k.id fun q =>
      if b then { q with kB := (((if b then k.kB else k.kA : Nat) : Int) + imm.toInt).toNat }
      else { q with kA := (((if b then k.kB else k.kA : Nat) : Int) + imm.toInt).toNat } := by
  unfold State.stepIndex
  rw [sext_toNat]
  exact if_neg (not_lt.mpr h)

end Effects

/-! KTILE and GROUPS. -/

section Begin
variable {s : State} {id : Nat} {k : Call} (h : Runs s id k) {w : MopW}
include h

/-- KTILE begins the next K-tile: its window opens at once, or the routine waits for it (R240). -/
theorem execKtile_runs (hi : w.imm16 = 0) (hn : k.kt < k.n) :
    execKtile w s = .next (
      if k.jobs = [] ∧ k.opens k.kt ≤ s.now k.ctx then
        ((wordCounted s id k).updCall id fun q => { q with kt := q.kt + 1 }).openWindow (counted k)
      else { ((wordCounted s id k).updCall id fun q => { q with kt := q.kt + 1 }).updCall id fun q => { q with waiting := true }
        with micro := none }) := by
  have hn' : ¬ (counted k).n < (counted k).kt + 1 := Nat.not_lt.mpr hn
  unfold execKtile
  rw [mop_runs h, if_neg (not_not.mpr hi), if_neg hn', counted_id h]
  refine congrArg _ (if_congr ?_ rfl rfl)
  rw [Bool.and_eq_true, List.isEmpty_iff, decide_eq_true_eq]
  exact Iff.rfl

/-- The window of the K-tile that begins opens at once (R107, R108, R122). -/
theorem wordRuns_ktile_opens (hi : w.imm16 = 0) (hn : k.kt < k.n) (ho : k.jobs = [] ∧ k.opens k.kt ≤ s.now k.ctx) :
    WordRuns s id k (.ktile w) (fun c => { c with
      kt := k.kt + 1, rung := s.rungFor k.owner, pm := pmWindow k.pm (s.rungFor k.owner), srcA := none, srcB := none, isOpen := true,
      waiting := false, frzAt := k.frz }) (some id) := by
  have hr := execKtile_runs h hi hn
  rw [if_pos ho] at hr
  unfold State.openWindow at hr
  rw [counted_id h] at hr
  exact wordRuns_of_two h hr (fun _ => rfl) (fun _ => rfl) rfl

/-- The window of the K-tile that begins has not come, or groups are left: the routine waits (R240). -/
theorem wordRuns_ktile_waits (hi : w.imm16 = 0) (hn : k.kt < k.n) (ho : ¬ (k.jobs = [] ∧ k.opens k.kt ≤ s.now k.ctx)) :
    WordRuns s id k (.ktile w) (fun c => { c with kt := k.kt + 1, waiting := true }) none := by
  have hr := execKtile_runs h hi hn
  rw [if_neg ho] at hr
  exact wordRuns_of_two h hr (fun _ => rfl) (fun _ => rfl) rfl

end Begin

/-- The groups that GROUPS asks for, before the wait for their rows (R240, R241). -/
def newJob (s : State) (k : Call) (x y : Source) : Job :=
  { kt := k.kt - 1, rung := k.rung, kA := k.kA, kB := k.kB, srcA := x, srcB := y, scA := k.scA, scB := k.scB, trn := k.trn,
    rowsA := [], rowsB := [], start := s.now k.ctx, wait := 0, filled := false, left := 0 }

/-- The first row of a new job is A's first: its pipes wait for it, not before this cycle (R143). -/
theorem askRow_newJob (s : State) (k : Call) (x y : Source) :
    ∃ n, s.now k.ctx ≤ n ∧ s.askRow k (newJob s k x y) = (n, { s with fresh := s.fresh + 1 }) := by
  have hr : k.nextRow (newJob s k x y) = some (false, 0) := if_pos (Nat.succ_pos _)
  unfold State.askRow
  rw [hr]
  exact ⟨_, le_max_left _ _, rfl⟩

/-! The effect of each micro-op. -/

theorem execFetcha_eq (w : MopW) (s : State) : exec (.fetcha w) s = s.mop fun s k a => s.chooseSource k a false .desc := rfl
theorem execFetchb_eq (w : MopW) (s : State) : exec (.fetchb w) s = s.mop fun s k a => s.chooseSource k a true .desc := rfl
theorem execLata_eq (w : MopW) (s : State) : exec (.lata w) s =
    s.mop fun s k a => s.chooseSource k a false (.latch (w.imm16.toNat % 4)) := rfl
theorem execLatb_eq (w : MopW) (s : State) : exec (.latb w) s =
    s.mop fun s k a => s.chooseSource k a true (.latch (w.imm16.toNat % 4)) := rfl
theorem execFilla_eq (w : MopW) (s : State) : exec (.filla w) s = s.mop fun s k a => s.chooseFill k a false w.imm16.toNat := rfl
theorem execFillb_eq (w : MopW) (s : State) : exec (.fillb w) s = s.mop fun s k a => s.chooseFill k a true w.imm16.toNat := rfl
theorem execStepa_eq (w : MopW) (s : State) : exec (.stepa w) s = s.mop fun s k a => s.stepIndex k a false w.imm16 := rfl
theorem execStepb_eq (w : MopW) (s : State) : exec (.stepb w) s = s.mop fun s k a => s.stepIndex k a true w.imm16 := rfl
theorem execScalea_eq (w : MopW) (s : State) : exec (.scalea w) s =
    s.mop fun s k _ => s.updCall k.id fun q => { q with scA := w.imm16.getLsbD 0 && dScen k.da.toNat } := rfl
theorem execScaleb_eq (w : MopW) (s : State) : exec (.scaleb w) s =
    s.mop fun s k _ => s.updCall k.id fun q => { q with scB := w.imm16.getLsbD 0 && dScen k.db.toNat } := rfl
theorem execAccsel_eq (w : MopW) (s : State) : exec (.accsel w) s =
    s.mop fun s k _ => s.updCall k.id fun q => { q with trn := w.imm16.getLsbD 0 } := rfl
theorem execCntset_eq (w : MopW) (s : State) : exec (.cntset w) s = s.mop fun s k _ => s.setCtr k w.ctr w.imm16.toNat := rfl
theorem execCntdec_eq (w : MopW) (s : State) : exec (.cntdec w) s = s.mop fun s k _ => s.setCtr k w.ctr (k.ctr w.ctr - 1) := rfl
theorem execJnz_eq (w : MopW) (s : State) : exec (.jnz w) s =
    s.mop fun s k _ => if k.ctr w.ctr = 0 then s else s.updCall k.id fun q => { q with upc := w.target.toNat } := rfl
theorem execJmp_eq (w : MopW) (s : State) : exec (.jmp w) s =
    s.mop fun s k _ => s.updCall k.id fun q => { q with upc := w.target.toNat } := rfl
theorem execNopm_eq (w : MopW) (s : State) : exec (.nopm w) s = s.mop fun s _ _ => s := rfl
theorem execParmrd_eq (w : MopW) (s : State) : exec (.parmrd w) s =
    s.mop fun s k _ => s.setCtr k w.ctr (bits ((k.mp.getD w.parm.toNat 0).toNat) (16 * (w.imm16.toNat % 4) + 15) (16 * (w.imm16.toNat % 4))) := rfl

theorem bits_quarter (n q : Nat) : bits n (16 * q + 15) (16 * q) = n / 2 ^ (16 * q) % 2 ^ 16 := by
  rw [bits, show 16 * q + 15 + 1 - 16 * q = 16 by omega]

/-- A call that has asked for the groups `j`, its indices moved on by the depth of a K-tile. -/
def asked (j : Job) (k : Call) : Call :=
  { k with jobs := k.jobs ++ [j], isOpen := false, kA := k.kA + k.depth, kB := k.kB + k.depth }

/-- GROUPS under both sources, where neither names latch elements beyond its latch (R241). -/
theorem execGroups_runs {s : State} {id : Nat} {k : Call} (h : Runs s id k) {w : MopW} {x y : Source} (hx : k.srcA = some x)
    (hy : k.srcB = some y) (hk : k.kt ≠ 0) (hA : k.latchOver ⟨false, k.da.toNat, k.agA, k.sgA, k.kA, x, k.scA⟩ = false)
    (hB : k.latchOver ⟨true, k.db.toNat, k.agB, k.sgB, k.kB, y, k.scB⟩ = false) :
    ∃ n, s.now k.ctx ≤ n ∧ exec (.groups w) s = .next ({ wordCounted s id k with fresh := s.fresh + 1 }.updCall id
      (asked { newJob s k x y with wait := n, left := ceilDiv k.depth (k.step (newJob s k x y)) })) := by
  obtain ⟨n, hn, ha⟩ := askRow_newJob (wordCounted s id k) (counted k) x y
  have hl : ((counted k).latchOver ((counted k).opnd (newJob (wordCounted s id k) (counted k) x y) false) ||
      (counted k).latchOver ((counted k).opnd (newJob (wordCounted s id k) (counted k) x y) true)) = false :=
    Bool.or_eq_false_iff.mpr ⟨hA, hB⟩
  refine ⟨n, hn, ?_⟩
  show execGroups w s = _
  unfold execGroups
  rw [mop_runs h]
  have hx' : (counted k).srcA = some x := hx
  have hy' : (counted k).srcB = some y := hy
  have hk' : (counted k).kt ≠ 0 := hk
  rw [hx', hy']
  dsimp only
  unfold newJob at ha hl
  rw [if_neg hk', if_neg (Bool.eq_false_iff.mp hl), ha, counted_id h]
  rfl

/-- Settles O38: each micro-op by its effect on the call whose word has been counted. -/
theorem microOps : Obligations.MicroOps := by
  unfold Obligations.MicroOps
  refine ⟨fun s id k w h => ?_, fun s id k w h => ⟨fun hi hn => ?ktile, fun x y hx hy hk hA hB => ?groups⟩⟩
  case ktile =>
    split
    next ho => exact wordRuns_ktile_opens h hi hn ho
    next ho => exact wordRuns_ktile_waits h hi hn ho
  case groups =>
    obtain ⟨n, hn, hr⟩ := execGroups_runs h hx hy hk hA hB
    refine ⟨_, { newJob s k x y with wait := n, left := ceilDiv k.depth (k.step (newJob s k x y)) }, hr, rfl,
      fun d hd => ?_, ?_, rfl, rfl, rfl, rfl, rfl, rfl, rfl, rfl, rfl, rfl, rfl, rfl, rfl, rfl, hn, rfl⟩
    · exact (call_updCall_ne (f := asked _) (fun _ hc => hc) hd).trans (wordCounted_call_ne h hd)
    · exact (call_updCall (f := asked _) fun _ hc => hc).trans (congrArg (Option.map _) (wordCounted_call h))
  refine ⟨fun hs => ?_, fun hs => ?_, fun hs => ?_, fun hs => ?_, fun hs hi => ?_, fun hs hi => ?_, fun hk => ?_, fun hk => ?_,
    ?_, ?_, ?_, ?_, ?_, ?jnz, ?_, ?parmrd, ?nopm, fun hk ho => ?done⟩
  case jnz =>
    by_cases hz : k.cnt.getD w.ctr.toNat 0 = 0
    · exact wordRuns_counted h (((execJnz_eq w s).trans (mop_runs h _)).trans (congrArg _ (if_pos hz))) (if_pos hz)
    · exact wordRuns_upd h (execJnz_eq w s) (if_neg hz) (fun _ => rfl) (if_neg hz).symm
  case parmrd =>
    refine wordRuns_upd h (execParmrd_eq w s) rfl (fun _ => rfl) ?_
    rw [← bits_quarter]
    rfl
  case nopm => exact wordRuns_counted h ((execNopm_eq w s).trans (mop_runs h _)) rfl
  case done =>
    refine wordRuns_of h (f := fun c => { c with ended := true }) ?_ (fun _ => rfl) rfl
    have hc : ((counted k).kt = (counted k).n && !(counted k).isOpen) = true := by simp [counted, hk, ho]
    show execDone w s = _
    unfold execDone
    rw [mop_runs h, if_pos hc, counted_id h]
  · exact wordRuns_upd h (execFetcha_eq w s) (chooseSource_free (b := false) hs _) (fun _ => rfl) rfl
  · exact wordRuns_upd h (execFetchb_eq w s) (chooseSource_free (b := true) hs _) (fun _ => rfl) rfl
  · exact wordRuns_upd h (execLata_eq w s) (chooseSource_free (b := false) hs _) (fun _ => rfl) rfl
  · exact wordRuns_upd h (execLatb_eq w s) (chooseSource_free (b := true) hs _) (fun _ => rfl) rfl
  · exact wordRuns_upd h (execFilla_eq w s) (chooseFill_free (b := false) hs hi) (fun _ => rfl) rfl
  · exact wordRuns_upd h (execFillb_eq w s) (chooseFill_free (b := true) hs hi) (fun _ => rfl) rfl
  · exact wordRuns_upd h (execStepa_eq w s) (stepIndex_free (b := false) hk) (fun _ => rfl) rfl
  · exact wordRuns_upd h (execStepb_eq w s) (stepIndex_free (b := true) hk) (fun _ => rfl) rfl
  · exact wordRuns_upd h (execScalea_eq w s) rfl (fun _ => rfl) rfl
  · exact wordRuns_upd h (execScaleb_eq w s) rfl (fun _ => rfl) rfl
  · exact wordRuns_upd h (execAccsel_eq w s) rfl (fun _ => rfl) rfl
  · exact wordRuns_upd h (execCntset_eq w s) rfl (fun _ => rfl) rfl
  · exact wordRuns_upd h (execCntdec_eq w s) rfl (fun _ => rfl) rfl
  · exact wordRuns_upd h (execJmp_eq w s) rfl (fun _ => rfl) rfl

end Sys2Proof.Proofs
end

section
/-! PROOFS. Accumulator tiles and latches (O36). -/

namespace Sys2Proof.Proofs

open Sys2Proof Sys2Proof.Machine Sys2Proof.Safety

theorem freeGen_gens (s : State) (g : Nat) : (s.freeGen g).gens = s.gens := by
  rw [freeGen_eq]

/-- The state with the generations and the structures being zeroed of `u`. -/
def withGens (t u : State) : State := { t with gens := u.gens, zeroing := u.zeroing }

/-- Freeing a generation takes from the state its generations and the structures being zeroed alone. -/
theorem freeGen_congr {s t : State} (hg : t.gens = s.gens) (hz : t.zeroing = s.zeroing) (g : Nat) :
    t.freeGen g = withGens t (s.freeGen g) := by
  unfold withGens
  rw [freeGen_gens, ← hg]
  unfold State.freeGen
  rw [hg, hz]
  split
  · rw [← hg, ← hz]
  · rw [← hg]

theorem bumpGen_congr {s t : State} (hg : t.gens = s.gens) (hz : t.zeroing = s.zeroing) (g : Nat) :
    t.bumpGen g = withGens t (s.bumpGen g) := by
  unfold State.bumpGen
  exact freeGen_congr (s := { s with gens := tset 0 s.gens g (tget 0 s.gens g + 1) })
    (t := { t with gens := tset 0 t.gens g (tget 0 t.gens g + 1) }) (by rw [hg]) hz g

section
variable {s : State} {k : Cur} {i : Instr} {f : Form}

/-- A grant form whose effect, before its window, is a change of its core's tiles and latches and of the generations of `u`. -/
theorem grantForm_of {cls : Cls} {n : Nat} {h : Core → Core} {u : State} (hc : cls ≠ .s)
    (hr : exec i s = .next ((withGens ((opened s k f).updCore (coreOf k.ctx) h) u).window (opOf k i f) cls n)) : GrantForm s k i f cls n h u := by
  unfold State.window at hr
  rw [State.land_eq, if_neg fun e => hc e.1] at hr
  refine ⟨_, hr, .mk rfl ?_ fun d hd => ?_, rfl, State.core_setCore_self _ _ _, fun m hm => State.core_setCore_ne _ _ hm⟩
  · exact (State.ctx_setCtx_self _ _ _).trans (congrArg (fun x : Ctx =>
      { x with inflight := x.inflight ++ [Landing.mk cls n (s.now k.ctx + f.lat) none 0 f.slot] }) (opened_ctx_self s k f))
  · exact (State.ctx_setCtx_ne _ _ hd).trans (opened_ctx_ne s k f hd)

/-- A tile or latch is granted: all zero and the context's; a grant of one it holds already changes nothing (R229). -/
theorem accget_spec {w : MW} (h : Performs s k (.accget w) f) :
    if s.holdsAcc k.ctx w.tgt.toNat then CtxBecomes s k (.accget w) f (fun x => x)
    else GrantForm s k (.accget w) f .a w.tgt.toNat (fun x => { x with accs := tset {} x.accs w.tgt.toNat { holder := some k.ctx } })
      (s.bumpGen (genAcc (coreOf k.ctx) w.tgt.toNat)) := by
  have hr : exec (.accget w) s = .next _ := State.runOp_performs h _ _
  split
  next hh => exact ctxBecomes_id_of (hr.trans (congrArg _ (if_pos hh)))
  next hh =>
    refine grantForm_of (by decide) (hr.trans (congrArg _ ((if_neg hh).trans ?_)))
    exact congrArg (fun t : State => t.window (opOf k _ f) _ _) (bumpGen_congr (s := s) (by rfl) (by rfl) _)

theorem latget_spec {w : MW} (h : Performs s k (.latget w) f) :
    if s.holdsLat k.ctx w.tgt.toNat then CtxBecomes s k (.latget w) f (fun x => x)
    else GrantForm s k (.latget w) f .l w.tgt.toNat (fun x => { x with lats := tset {} x.lats w.tgt.toNat { holder := some k.ctx } })
      (s.bumpGen (genLat (coreOf k.ctx) w.tgt.toNat)) := by
  have hr : exec (.latget w) s = .next _ := State.runOp_performs h _ _
  split
  next hh => exact ctxBecomes_id_of (hr.trans (congrArg _ (if_pos hh)))
  next hh =>
    refine grantForm_of (by decide) (hr.trans (congrArg _ ((if_neg hh).trans ?_)))
    exact congrArg (fun t : State => t.window (opOf k _ f) _ _) (bumpGen_congr (s := s) (by rfl) (by rfl) _)

/-- A tile or latch is released: free and empty (R229). -/
theorem accput_spec {w : MW} (h : Performs s k (.accput w) f) :
    GrantForm s k (.accput w) f .a w.tgt.toNat (fun x => { x with accs := tset {} x.accs w.tgt.toNat {} })
      (s.freeGen (genAcc (coreOf k.ctx) w.tgt.toNat)) := by
  refine grantForm_of (by decide) ((State.runOp_performs h _ _ : exec (.accput w) s = .next _).trans (congrArg _ ?_))
  exact congrArg (fun t : State => t.window (opOf k _ f) _ _) (freeGen_congr (s := s) (by rfl) (by rfl) _)

theorem latput_spec {w : MW} (h : Performs s k (.latput w) f) :
    GrantForm s k (.latput w) f .l w.tgt.toNat (fun x => { x with lats := tset {} x.lats w.tgt.toNat {} })
      (s.freeGen (genLat (coreOf k.ctx) w.tgt.toNat)) := by
  refine grantForm_of (by decide) ((State.runOp_performs h _ _ : exec (.latput w) s = .next _).trans (congrArg _ ?_))
  exact congrArg (fun t : State => t.window (opOf k _ f) _ _) (freeGen_congr (s := s) (by rfl) (by rfl) _)

/-- A move copies the values and the postmark of its source (R229). -/
theorem accmov_spec {w : MW} (ha : s.pkg.armed = none) (h : Performs s k (.accmov w) f) :
    GrantForm s k (.accmov w) f .a w.tgt.toNat (fun x =>
      { x with accs := tset {} x.accs w.tgt.toNat { s.acc (coreOf k.ctx) w.src1.toNat with holder := some k.ctx } }) s := by
  refine grantForm_of (by decide) ((State.runOp_performs h _ _ : exec (.accmov w) s = .next _).trans (congrArg _ ?_))
  unfold State.strikeAcc
  rw [strikeUnit_calm (s := opened s k f) ha]
  rfl

/-- The lanes of ACCRD: four rows of values, or the postmark (R230). -/
theorem elem_accLanes (t : AccTile) (q : Nat) {j : Nat} (hj : j < 256) : elem 32 (accLanes t q) j =
    if bit q 4 then (if j = 0 then t.pm.toNat % 2 ^ 32 else if j = 1 then t.pm.toNat / 2 ^ 32 else 0)
    else (tget 0 t.vals (64 * (4 * (q % 16)) + j)).toNat := by
  have hpm := t.pm.isLt
  rw [accLanes, elem_buildV 32 _ hj]
  refine Nat.mod_eq_of_lt ?_
  split
  · split
    · exact Nat.mod_lt _ (by decide)
    · split
      · omega
      · decide
  · exact BitVec.isLt _

theorem accrd_spec {w : MW} (ha : s.pkg.armed = none) (h : Performs s k (.accrd w) f) :
    ResultLands s k (.accrd w) f .v
      (accLanes (s.acc (coreOf k.ctx) w.src1.toNat) ((opOf k (.accrd w) f).src 1)).toNat := by
  refine resultLands_of ((State.runOp_performs h _ _ : exec (.accrd w) s = .next _).trans (congrArg _ ?_))
  unfold State.strikeAcc
  rw [strikeUnit_calm (s := opened s k f) ha]
  rfl

end

/-! LATLD and ACCST at issue (R232, R236). -/

/-- A window of a tile or latch, put in flight for a context that has just changed. -/
theorem land_setCtx (t : State) (c : Nat) (x : Ctx) (sl : Slot) {cls : Cls} (hc : cls ≠ .s) (n lat : Nat) (v : Option Nat) (src : Nat) :
    (t.setCtx c x).land c sl cls n lat v src =
      t.setCtx c { x with inflight := x.inflight ++ [⟨cls, n, t.now c + lat, v, src, sl⟩] } := by
  unfold State.land
  rw [if_neg (by simp [hc]), updCtx_setCtx]
  rfl

section
variable {s : State} {k : Cur} {f : Form} {w : MW}

/-- The entry of LATLD or ACCST: its tile or latch number, and what it captures of the matrix side (R236). -/
def matQueued (s : State) (k : Cur) (i : Instr) (f : Form) (wait due n : Nat) (a : AccTile) : QEntry :=
  { (opOf k i f).entry (opened s k f) s.serial wait due 0 [] with
    data := n, mat := some ((opOf k i f).matEntry ((opOf k i f).src 0) a) }

theorem entryOf_matQueued (s : State) (k : Cur) (i : Instr) (f : Form) (wait due n : Nat) (a : AccTile) :
    EntryOf (matQueued s k i f wait due n a) s k i f 0 [] :=
  ⟨rfl, rfl, rfl, rfl, rfl, rfl, rfl, rfl, ⟨rfl, rfl⟩, rfl, ⟨rfl, rfl⟩⟩

/-- LATLD enters the load queue with its latch as destination (R236). -/
theorem latld_queues (h : Performs s k (.latld w) f) : ∃ t e, exec (.latld w) s = .next t ∧ EntryOf e s k (.latld w) f 0 [] ∧
    e.data = w.tgt.toNat ∧ OnlyQueue s t k.ctx ∧ t.cur = some (acted k) ∧
    t.ctx k.ctx = { latched s k f with
      loadQ := (s.ctx k.ctx).loadQ ++ [e],
      inflight := (s.ctx k.ctx).inflight ++ [⟨.l, w.tgt.toNat, s.now k.ctx + f.lat, none, s.serial, f.slot⟩] } := by
  obtain ⟨wait, hrun⟩ : ∃ wait, exec (.latld w) s = .next ((((numbered s k).setCtx k.ctx (latched s k f)).updCtx k.ctx fun x =>
      { x with loadQ := x.loadQ ++ [matQueued s k (.latld w) f wait f.lat w.tgt.toNat {}] }).land
        k.ctx f.slot .l w.tgt.toNat f.lat none s.serial) := ⟨_, State.runOp_performs h _ _⟩
  rw [updCtx_setCtx, land_setCtx _ _ _ _ (by decide)] at hrun
  exact ⟨_, _, hrun, entryOf_matQueued _ _ _ _ _ _ _ _, rfl, numbered_onlyQueue _, rfl, State.ctx_setCtx_self _ _ _⟩

omit w in
/-- A store that may be translated as it enters stands last in its queue either way. -/
theorem knowTile_if (b : Prop) [Decidable b] (e : QEntry) : ∃ q, q.map bare = ((s.ctx k.ctx).storeQ ++ [e]).map bare ∧
    (if b then ((numbered s k).setCtx k.ctx (storeCtx s k f ((s.ctx k.ctx).storeQ ++ [e]))).knowTile k.ctx e
      else (numbered s k).setCtx k.ctx (storeCtx s k f ((s.ctx k.ctx).storeQ ++ [e]))) =
        (numbered s k).setCtx k.ctx (storeCtx s k f q) := by
  split
  · exact knowTile_setCtx (numbered s k) k.ctx (storeCtx s k f _) e
  · exact ⟨_, rfl, rfl⟩

/-- ACCST enters the store queue with the values and the postmark as they stand, its tile a source for 16 cycles (R232). -/
theorem accst_queues (ha : s.pkg.armed = none) (h : Performs s k (.accst w) f) : ∃ t e m, exec (.accst w) s = .next t ∧
    EntryOf e s k (.accst w) f 0 [] ∧ e.mat = some m ∧ m.vals = (s.acc (coreOf k.ctx) w.tgt.toNat).vals ∧
    m.pm = (s.acc (coreOf k.ctx) w.tgt.toNat).pm ∧
    QueuedStore s k f (fun x =>
      { x with inflight := x.inflight ++ [⟨.a, w.tgt.toNat, s.now k.ctx + f.lat, some 0, s.serial, f.slot⟩] }) t e := by
  have hs : (opened s k f).strikeAcc (opOf k (.accst w) f) w.tgt.toNat = opened s k f :=
    strikeUnit_calm (s := opened s k f) ha _ _ _ _
  obtain ⟨wait, hrun⟩ : ∃ wait, exec (.accst w) s =
      let e := matQueued s k (.accst w) f wait 0 w.tgt.toNat (s.acc (coreOf k.ctx) w.tgt.toNat)
      let t := ((numbered s k).setCtx k.ctx (latched s k f)).updCtx k.ctx fun x => { x with storeQ := x.storeQ ++ [e] }
      .next ((if agMode (tget 0 k.before.ag (dAg ((opOf k (.accst w) f).src 0))) then t.knowTile k.ctx e else t).land
        k.ctx f.slot .a w.tgt.toNat f.lat (some 0) s.serial) := by
    refine ⟨(opened s k f).newSerial.2.newWait.1, (State.runOp_performs h _ _).trans ?_⟩
    dsimp only
    rw [hs]
    rfl
  dsimp only at hrun
  rw [updCtx_setCtx] at hrun
  obtain ⟨q, hq, hk⟩ := knowTile_if (f := f) (agMode (tget 0 k.before.ag (dAg ((opOf k (.accst w) f).src 0))) = true)
    (matQueued s k (.accst w) f wait 0 w.tgt.toNat (s.acc (coreOf k.ctx) w.tgt.toNat))
  have hr := hrun.trans (congrArg (fun t : State => Host.Outcome.next (t.land k.ctx f.slot .a w.tgt.toNat f.lat (some 0) s.serial)) hk)
  rw [land_setCtx _ _ _ _ (by decide)] at hr
  exact ⟨_, _, _, hr, entryOf_matQueued _ _ _ _ _ _ _ _, rfl, rfl, rfl, q, numbered_onlyQueue _, rfl,
    State.ctx_setCtx_self _ _ _, hq⟩

end

/-- Settles O36: each form by what it changes of its core, its context and the generations. -/
theorem accumulatorAndLatchForms : Obligations.AccumulatorAndLatchForms := by
  unfold Obligations.AccumulatorAndLatchForms
  refine ⟨fun s k f w ha => ⟨accget_spec, accput_spec, fun h => ?clear, accmov_spec ha, latget_spec, latput_spec, fun h => ?read⟩,
    fun s k f w => ⟨latld_queues, accst_queues⟩⟩
  case clear => exact grantForm_of (by decide) (State.runOp_performs h _ _)
  case read => exact ⟨_, accrd_spec ha h, fun j hj => elem_accLanes _ _ hj⟩

end Sys2Proof.Proofs
end

section
/-! PROOFS. The transform unit (O49). -/

namespace Sys2Proof.Proofs

open Sys2Proof Sys2Proof.Machine Sys2Proof.Safety

section
variable {s : State} {k : Cur} {f : Form} {w : XW}

/-- The transposed blocks (R258). -/
theorem xtrn_lands (h : Performs s k (.xtrn w) f) : ∃ v : VReg, ResultLands s k (.xtrn w) f .v v.toNat ∧ ∀ j, j < (tyOr w.type).count →
    elem (tyOr w.type).width v j =
      elem (tyOr w.type).width ((opOf k (.xtrn w) f).vsrc 0) (j / 256 * 256 + 16 * (j % 16) + j % 256 / 16) :=
  ⟨_, resultLands_of (State.runOp_performs h _ _), fun _ hj => (elem_buildV _ _ hj).trans (elem_mod _ _ _)⟩

/-- The quantised codes, zero beyond the elements of the source (R268). -/
theorem xqnt_lands (h : Performs s k (.xqnt w) f) : ∃ v : VReg, ResultLands s k (.xqnt w) f .v v.toNat ∧ ∀ j, j < 1024 → elem 8 v j =
    if j < (tyOr w.type2).count then quantize (tyOr w.type)
      ((tyOr w.type2).value (elem (tyOr w.type2).width ((opOf k (.xqnt w) f).vsrc 0) j))
      (decodeF .bf16 (elem 16 ((opOf k (.xqnt w) f).vsrc 1) (j / 32))) % 2 ^ 8
    else 0 :=
  ⟨_, resultLands_of (State.runOp_performs h _ _), fun _ hj => (elem_buildV 8 _ hj).trans (apply_ite (· % 2 ^ 8) _ _ _)⟩

/-- The sums of the rows by the fixed tree, in lanes 0 to 15 (R102, R268). -/
theorem xred_lands (h : Performs s k (.xred w) f) : ∃ v : VReg, ResultLands s k (.xred w) f .v v.toNat ∧ ∀ j, j < 256 → elem 32 v j =
    if j < 16 then treeSum ((List.range (64 / (tyOr w.type2).bytes)).map fun n => rne .f32 ((tyOr w.type2).value
      (elem (tyOr w.type2).width ((opOf k (.xred w) f).vsrc 0) (64 / (tyOr w.type2).bytes * j + n)))) % 2 ^ 32
    else 0 :=
  ⟨_, resultLands_of (State.runOp_performs h _ _), fun _ hj => (elem_buildV 32 _ hj).trans (apply_ite (· % 2 ^ 32) _ _ _)⟩

end

/-- Settles O49: each form by the register it builds, or by the one part of the machine that it changes. -/
theorem transformForms : Obligations.TransformForms := by
  unfold Obligations.TransformForms
  intro s k f w
  refine ⟨fun h => resultLands_of (State.runOp_performs h _ _), xtrn_lands, xqnt_lands, xred_lands,
    fun h => ctxBecomes_of (State.runOp_performs h _ _), fun h => ?shfree⟩
  case shfree =>
    exact ⟨_, State.runOp_performs h _ _, .mk rfl (opened_ctx_self s k f) fun _ hd => opened_ctx_ne s k f hd, rfl,
      tget_tset_self _ _ _ _, fun _ hq => tget_tset_ne _ _ _ hq⟩

end Sys2Proof.Proofs
end

section
/-! PROOFS. A bundle that meets a fault before issue (O16). -/

namespace Sys2Proof.Proofs

open Sys2Proof Sys2Proof.Machine Sys2Proof.Safety

/-! The bundle being issued stays as it is through writes of the device's own and a TDI's ERROR. -/

theorem tdiEnterError_cur (s : State) (p : Nat) : (s.tdiEnterError p).cur = s.cur := by
  unfold State.tdiEnterError
  dsimp only
  rw [State.raise_eq, State.updPkg_cur, (State.mapCtxs_spec _ _).1]
  rfl

theorem guardHit_cur (s : State) (p : Nat) : (s.guardHit p).cur = s.cur := by
  unfold State.guardHit
  split
  · rfl
  · exact tdiEnterError_cur s p

theorem snoopFirst_cur (s : State) (pa : Nat) : (s.snoopFirst pa).1.cur = s.cur := by
  unfold State.snoopFirst
  dsimp only
  split <;> rfl

theorem irqRaised_cur (q : Posted) (s : State) : (irqRaised q s).cur = s.cur := by
  unfold irqRaised
  split <;> rfl

theorem writePa_cur (s : State) (p : Port) (pa : Nat) (d : List Byte) : (s.writePa p pa d).cur = s.cur := by
  rw [(writePa_step s p pa d).rest]

theorem postedWrite_cur (s : State) (q : Posted) : (s.postedWrite q).1.cur = s.cur := by
  unfold State.postedWrite
  dsimp only
  split
  · next g _ => exact (irqRaised_cur q (s.guardHit g)).trans (guardHit_cur s g)
  · split
    · exact irqRaised_cur q s
    · split
      · rfl
      · have h := snoopFirst_cur s q.pa
        split
        · next e => rw [e] at h; exact h
        · next e => rw [e] at h; exact (irqRaised_cur q _).trans ((writePa_cur _ _ _ _).trans h)

theorem postWrite_cur (s : State) (q : Posted) : (s.postWrite q).cur = s.cur := by
  unfold State.postWrite
  dsimp only
  split
  · rfl
  · have h := postedWrite_cur s q
    split
    · next e => rwa [e] at h
    · next e => rwa [e] at h

theorem useRefused_pkg (s : State) (p : Nat) : ∃ g, s.useRefused p = s.updPkg g := by
  unfold State.useRefused State.useAsks
  split
  · exact ⟨id, rfl⟩
  · exact ⟨_, rfl⟩

/-- Such a context keeps its registers. -/
theorem TdiMay.reg {x y : Ctx} (h : TdiMay x y) (cls : Cls) (n : Nat) : y.reg cls n = x.reg cls n := by
  obtain rfl | rfl := h
  · rfl
  · cases cls <;> rfl

/-! What a fault found in a bundle does beyond being taken (R142, R356, R376). -/

section
variable (s : State) (c : Nat) (e : FaultInfo) (rs : List Run)

theorem faultBundle_tdiMay (d : Nat) : TdiMay ((s.takeFault c e true).ctx d) ((s.faultBundle c e rs).ctx d) := by
  unfold State.faultBundle
  dsimp only
  split
  · split
    · split
      · exact tdiEnterError_tdiMay _ _ d
      · exact .inl rfl
    · exact .inl rfl
  · split
    · exact postWrite_tdiMay _ _ d
    · split
      · obtain ⟨g, hg⟩ := useRefused_pkg (s.takeFault c e true) ((s.takeFault c e true).ctx c).part
        exact .inl (hg ▸ rfl)
      · exact .inl rfl

theorem faultBundle_cur : (s.faultBundle c e rs).cur = (s.takeFault c e true).cur := by
  unfold State.faultBundle
  dsimp only
  split
  · split
    · split
      · exact tdiEnterError_cur _ _
      · rfl
    · rfl
  · split
    · exact postWrite_cur _ _
    · split
      · obtain ⟨g, hg⟩ := useRefused_pkg (s.takeFault c e true) ((s.takeFault c e true).ctx c).part
        exact hg ▸ rfl
      · rfl

/-- No locked TDI, no wrong attribute and no refused page: the fault is taken, and that is all. -/
theorem faultBundle_only (hu : e.cls = 0x0E → ∀ p, (s.part p).tdi = .unlocked)
    (hn : ¬ (e.cls = 0x0B ∧ (e.code = 10 ∨ e.code = 13))) : s.faultBundle c e rs = s.takeFault c e true := by
  by_cases he : e.cls = 0x0E
  · unfold State.faultBundle
    dsimp only
    rw [if_pos he]
    split
    · next p _ =>
      have hp : (s.takeFault c e true).locked p = false := by
        have ht : (s.takeFault c e true).part p = s.part p := by
          rw [(State.takeFault_only s c e true).rest]
          rfl
        rw [State.locked, ht, hu he p]
        rfl
      rw [hp]
      rfl
    · rfl
  · exact faultBundle_plain rs he fun hc => ⟨fun h => hn ⟨hc, .inl h⟩, fun h => hn ⟨hc, .inr h⟩⟩

end

theorem frozenFor_reg (c : Nat) (x : Ctx) (e : FaultInfo) (now mark : Nat) (cls : Cls) (n : Nat) :
    (frozenFor c x e now mark).reg cls n = x.reg cls n := by
  cases cls <;> rfl

/-- Settles O16: every operation runs through `runOp`, which takes the fault before anything of the bundle acts. -/
theorem faultBeforeIssue : Obligations.FaultBeforeIssue := by
  unfold Obligations.FaultBeforeIssue
  refine ⟨fun s k i f e hc hk hf he hs hd hn => ?_, fun s k i f hc hk hf he => ?_⟩
  · intro y
    obtain ⟨eff, hrun⟩ := exec_runOp hf
    have hr := (hrun s).trans (State.runOp_fault hc hk hf he _ _)
    generalize runsOf k.ctx k k.before k.todo = rs at hr
    have hy : ({ s with cur := none }.takeFault k.ctx e true).ctx k.ctx = y :=
      takeFault_frozenFor (s := { s with cur := none }) (.inl hs) hd hn
    have ho := State.takeFault_only { s with cur := none } k.ctx e true
    have hm := faultBundle_tdiMay { s with cur := none } k.ctx e rs
    refine ⟨_, hr, ?_, ?_, fun d cls n => ?_, fun hu hx => ?_⟩
    · rw [faultBundle_cur]
      unfold State.takeFault
      dsimp only
      split <;> rfl
    · have h := hm k.ctx
      rw [hy] at h
      obtain h | h := h
      · exact ⟨y.frz.tdi, h⟩
      · exact ⟨true, h⟩
    · rw [(hm d).reg]
      by_cases hdk : d = k.ctx
      · rw [hdk, hy]
        exact frozenFor_reg _ _ _ _ _ _ _
      · rw [ho.others d hdk]
        rfl
    · rw [faultBundle_only { s with cur := none } k.ctx e rs hu hx]
      exact ⟨⟨ho.rest, ho.others⟩, hy⟩
  · obtain ⟨eff, hrun⟩ := exec_runOp hf
    rw [hrun, hrun, State.runOp_first hc hk hf he]

end Sys2Proof.Proofs
end

section
/-! PROOFS. TDISP states, loss of IDE, measurements and staged firmware (O57). -/

namespace Sys2Proof.Proofs

open Sys2Proof Sys2Proof.Machine Sys2Proof.Safety

/-- A change of every context that leaves an untouched one as it is. -/
theorem ctx_mapCtxs {f : Nat → Ctx → Ctx} (hf : ∀ c, f c {} = {}) (s : State) (c : Nat) : (s.mapCtxs f).ctx c = f c (s.ctx c) := by
  obtain ⟨-, hin, hout⟩ := State.mapCtxs_spec s f
  by_cases hc : c ∈ s.ctxs.map Prod.fst
  · exact hin c hc
  · have hd : s.ctx c = {} := tget_of_not_mem ({} : Ctx) hc
    rw [hout c hc, hd, hf]

/-! The TDI of a partition enters ERROR (R378). -/

section Error
variable (s : State) (p : Nat)

theorem tdiEnterError_only : s.tdiEnterError p =
    { s with parts := (s.tdiEnterError p).parts, ctxs := (s.tdiEnterError p).ctxs, pkg := (s.tdiEnterError p).pkg } := by
  unfold State.tdiEnterError
  dsimp only
  rw [State.raise_eq, (State.mapCtxs_spec _ _).1]
  rfl

theorem tdiEnterError_parts : (s.tdiEnterError p).parts = (s.updPart p fun q => { q with tdi := .error }).parts := by
  unfold State.tdiEnterError
  dsimp only
  rw [State.raise_eq, (State.mapCtxs_spec _ _).1]
  rfl

theorem part_tdiEnterError (q : Nat) : (s.tdiEnterError p).part q = if q = p then { s.part p with tdi := .error } else s.part q := by
  have h : (s.tdiEnterError p).part q = (s.updPart p fun q => { q with tdi := .error }).part q := by
    rw [State.part, tdiEnterError_parts]
    rfl
  rw [h, State.updPart_eq]
  split
  next hq => rw [hq, State.part_setPart_self]
  next hq => exact State.part_setPart_ne _ _ hq

theorem tdiEnterError_raised : (s.tdiEnterError p).pkg.raised = 49 :: s.pkg.raised := by
  unfold State.tdiEnterError
  dsimp only
  rw [State.raise_eq, (State.mapCtxs_spec _ _).1]
  rfl

theorem tdiEnterError_ide : (s.tdiEnterError p).pkg.ide = s.pkg.ide := by
  unfold State.tdiEnterError
  dsimp only
  rw [State.raise_eq, (State.mapCtxs_spec _ _).1]
  rfl

theorem ctx_tdiEnterError (c : Nat) : (s.tdiEnterError p).ctx c =
    if (s.ctx c).part = p ∧ (s.ctx c).st ≠ .empty then { s.ctx c with st := .frozen, frz := { (s.ctx c).frz with tdi := true } }
    else s.ctx c := by
  unfold State.tdiEnterError
  dsimp only
  refine (ctx_mapCtxs (s := s.updPart p fun q => { q with tdi := .error }) (fun _ => ?_) c).trans (if_congr ?_ rfl rfl)
  · exact if_neg (by simp)
  · rw [Bool.and_eq_true, decide_eq_true_eq, Bool.not_eq_true', decide_eq_false_iff_not]
    exact Iff.rfl

end Error

/-! The loss of IDE: each of the TDIs enters ERROR in turn. -/

/-- A partition in ERROR whose contexts are all frozen by it, with vector 49 raised. -/
structure InError (s : State) (p : Nat) : Prop where
  tdi    : (s.part p).tdi = .error
  raised : 49 ∈ s.pkg.raised
  ctxs   : ∀ c, (s.ctx c).part = p → (s.ctx c).st ≠ .empty → (s.ctx c).st = .frozen ∧ (s.ctx c).frz.tdi = true

theorem inError_tdiEnterError (s : State) (p : Nat) : InError (s.tdiEnterError p) p := by
  refine ⟨?_, ?_, fun c hp he => ?_⟩
  · rw [part_tdiEnterError, if_pos rfl]
  · rw [tdiEnterError_raised]
    exact List.mem_cons_self
  · rw [ctx_tdiEnterError] at *
    by_cases h : (s.ctx c).part = p ∧ (s.ctx c).st ≠ .empty
    · rw [if_pos h]
      exact ⟨rfl, rfl⟩
    · rw [if_neg h] at hp he
      exact absurd ⟨hp, he⟩ h

/-- It stays so when another TDI enters ERROR, and so does one that is neither LOCKED nor in RUN. -/
theorem InError.tdiEnterError {s : State} {p : Nat} (h : InError s p) (q : Nat) : InError (s.tdiEnterError q) p := by
  refine ⟨?_, ?_, fun c hp he => ?_⟩
  · rw [part_tdiEnterError]
    split
    · rfl
    · exact h.tdi
  · rw [tdiEnterError_raised]
    exact List.mem_cons_of_mem _ h.raised
  · rw [ctx_tdiEnterError] at *
    by_cases hq : (s.ctx c).part = q ∧ (s.ctx c).st ≠ .empty
    · rw [if_pos hq]
      exact ⟨rfl, rfl⟩
    · rw [if_neg hq] at hp he ⊢
      exact h.ctxs c hp he

theorem inError_foldl {l : List Nat} {p : Nat} (s : State) (h : p ∈ l ∨ InError s p) : InError (l.foldl State.tdiEnterError s) p := by
  induction l generalizing s with
  | nil => exact h.resolve_left List.not_mem_nil
  | cons q l ih =>
    refine ih _ ?_
    obtain hm | he := h
    · obtain rfl | hm := List.mem_cons.mp hm
      · exact .inr (inError_tdiEnterError s p)
      · exact .inl hm
    · exact .inr (he.tdiEnterError q)

theorem foldl_tdiEnterError_ide (l : List Nat) (s : State) : (l.foldl State.tdiEnterError s).pkg.ide = s.pkg.ide := by
  induction l generalizing s with
  | nil => rfl
  | cons q l ih => exact (ih _).trans (tdiEnterError_ide s q)

theorem foldl_tdiEnterError_tdi (l : List Nat) (s : State) (p : Nat) :
    ((l.foldl State.tdiEnterError s).part p).tdi = .error ∨ ((l.foldl State.tdiEnterError s).part p).tdi = (s.part p).tdi := by
  induction l generalizing s with
  | nil => exact .inr rfl
  | cons q l ih =>
    obtain h | h := ih (s.tdiEnterError q)
    · exact .inl h
    · rw [List.foldl_cons, h, part_tdiEnterError]
      split
      · exact .inl rfl
      · exact .inr rfl

/-- A value of a table that is not the default stands in it under its key. -/
theorem mem_of_tget_ne {α : Type} {d : α} {t : Tbl α} {n : Nat} (h : tget d t n ≠ d) : (n, tget d t n) ∈ t := by
  induction t with
  | nil => exact absurd rfl h
  | cons e t ih =>
    obtain ⟨m, x⟩ := e
    rw [tget] at h ⊢
    by_cases he : m = n
    · rw [if_pos he, he]
      exact List.mem_cons_self
    · rw [if_neg he] at h ⊢
      exact List.mem_cons_of_mem _ (ih h)

/-- The TDIs that the loss of IDE puts into ERROR. -/
def ideUsers (s : State) : List Nat := (s.parts.filter fun e => e.2.tdi = .locked || e.2.tdi = .run).map Prod.fst

theorem mem_ideUsers {s : State} {p : Nat} (h : (s.part p).tdi = .locked ∨ (s.part p).tdi = .run) : p ∈ ideUsers s := by
  have hd : s.part p ≠ {} := fun e => by rw [e] at h; cases h <;> contradiction
  refine List.mem_map.mpr ⟨(p, s.part p), List.mem_filter.mpr ⟨mem_of_tget_ne hd, ?_⟩, rfl⟩
  simpa using h

theorem foldl_tdiEnterError_ctx (l : List Nat) (s : State) (c : Nat) :
    ((l.foldl State.tdiEnterError s).ctx c).part = (s.ctx c).part ∧
      ((s.ctx c).st ≠ .empty → ((l.foldl State.tdiEnterError s).ctx c).st ≠ .empty) := by
  induction l generalizing s with
  | nil => exact ⟨rfl, id⟩
  | cons q l ih =>
    obtain ⟨hp, hs⟩ := ih (s.tdiEnterError q)
    obtain h | h := tdiEnterError_tdiMay s q c
    · exact ⟨hp.trans (by rw [h]), fun he => hs (by rwa [h])⟩
    · exact ⟨hp.trans (by rw [h]), fun _ => hs (by rw [h]; exact fun e => nomatch e)⟩

theorem exec_ideLoss (s : State) :
    exec .ideLoss s = .next ((ideUsers s).foldl State.tdiEnterError (s.updPkg fun k => { k with ide := false })) := rfl

theorem ideLoss_spec (s : State) : ∃ t, exec .ideLoss s = .next t ∧ t.pkg.ide = false ∧
    ∀ p, (t.part p).tdi ≠ .locked ∧ (t.part p).tdi ≠ .run ∧
      ((s.part p).tdi = .locked ∨ (s.part p).tdi = .run → (t.part p).tdi = .error ∧ 49 ∈ t.pkg.raised ∧
        ∀ c, (s.ctx c).part = p → (s.ctx c).st ≠ .empty → (t.ctx c).st = .frozen ∧ (t.ctx c).frz.tdi = true) := by
  refine ⟨_, exec_ideLoss s, foldl_tdiEnterError_ide _ _, fun p => ?_⟩
  by_cases hu : (s.part p).tdi = .locked ∨ (s.part p).tdi = .run
  · obtain ⟨ht, hr, hc⟩ := inError_foldl (s.updPkg fun k => { k with ide := false }) (.inl (mem_ideUsers hu))
    refine ⟨by rw [ht]; decide, by rw [ht]; decide, fun _ => ⟨ht, hr, fun c hp he => ?_⟩⟩
    obtain ⟨hpart, hst⟩ := foldl_tdiEnterError_ctx (ideUsers s) (s.updPkg fun k => { k with ide := false }) c
    exact hc c (hpart.trans hp) (hst he)
  · obtain ⟨hl, hr⟩ := not_or.mp hu
    obtain h | h := foldl_tdiEnterError_tdi (ideUsers s) (s.updPkg fun k => { k with ide := false }) p
    · exact ⟨by rw [h]; decide, by rw [h]; decide, fun g => absurd g hu⟩
    · exact ⟨h ▸ hl, h ▸ hr, fun g => absurd g hu⟩

/-! TDISP requests (R309, R310). -/

section Tdisp
variable {s : State} {p : Nat}

theorem pageOf_table (n : Nat) : pageOf (n * 65536) = n := Nat.mul_div_cancel n (by decide)

/-- The pages protected are the second-stage table's own and those of the tables its entries name (R309). -/
theorem tablePages_root (s : State) (p n : Nat) : n ∈ s.tablePages p 5 0 (n * 65536) := by
  rw [State.tablePages, pageOf_table]
  exact List.mem_cons_self

theorem tablePages_entry {n i : Nat} (hi : i < 32) (h63 : (s.peekWord p (n * 65536 + 8 * i)).testBit 63 = true)
    (h62 : (s.peekWord p (n * 65536 + 8 * i)).testBit 62 = false) (hb : s.bad2 p 0 (s.peekWord p (n * 65536 + 8 * i)) = false) :
    bits (s.peekWord p (n * 65536 + 8 * i)) 51 16 ∈ s.tablePages p 5 0 (n * 65536) := by
  have hc : (bit (s.peekWord p (n * 65536 + 8 * i)) 63 && !bit (s.peekWord p (n * 65536 + 8 * i)) 62 &&
      !s.bad2 p 0 (s.peekWord p (n * 65536 + 8 * i))) = true := by simp [bit, h63, h62, hb]
  rw [State.tablePages]
  refine List.mem_cons_of_mem _ (List.mem_flatMap.mpr ⟨i, List.mem_range.mpr hi, ?_⟩)
  dsimp only
  rw [if_pos hc]
  rw [State.tablePages, pageOf_table]
  exact List.mem_cons_self

theorem exec_tdispLock (h : s.pkg.ide = true ∧ (s.part p).en = true ∧ (s.part p).tdi = .unlocked) : ∃ d,
    exec (.tdispLock p) s = .next (s.updPart p fun q =>
      { q with tdi := .locked, digest := some d, tables := s.tablePages p 5 0 ((s.part p).ssbase * 65536) }) := by
  obtain ⟨hi, he, ht⟩ := h
  have hc : (s.pkg.ide && (s.part p).en && (s.part p).tdi = .unlocked) = true := by simp [hi, he, ht]
  exact ⟨_, if_pos hc⟩

theorem exec_tdispLock_refused (h : s.pkg.ide = false ∨ (s.part p).en = false ∨ (s.part p).tdi ≠ .unlocked) :
    exec (.tdispLock p) s = .next s := by
  refine if_neg ?_
  simp only [Bool.and_eq_true, decide_eq_true_eq]
  rintro ⟨⟨hi, he⟩, ht⟩
  obtain h | h | h := h
  · exact absurd hi (by simp [h])
  · exact absurd he (by simp [h])
  · exact h ht

theorem exec_tdispRun (h : (s.part p).tdi = .locked) :
    exec (.tdispRun p) s = .next (s.updPart p fun q => { q with tdi := .run }) := if_pos h

theorem exec_tdiError (h : (s.part p).tdi = .locked ∨ (s.part p).tdi = .run) : exec (.tdiError p) s = .next (s.tdiEnterError p) :=
  if_pos (by simpa using h)

theorem exec_tdispUnlock (h : (s.part p).tdi ≠ .unlocked) : exec (.tdispUnlock p) s =
    .next ((if (s.part p).tdi = .error then (s.endPart p).genadv p else s).updPart p fun q =>
      { q with tdi := .unlocked, digest := none, tables := [] }) := if_neg h

/-- A change of one partition alone. -/
theorem updPart_spec (s : State) (p : Nat) (f : Part → Part) : s.updPart p f = { s with parts := (s.updPart p f).parts } ∧
    (s.updPart p f).part p = f (s.part p) ∧ ∀ q, q ≠ p → (s.updPart p f).part q = s.part q :=
  ⟨rfl, State.part_setPart_self _ _ _, fun _ hq => State.part_setPart_ne _ _ hq⟩

/-! The unlock from ERROR (R378, log 72). -/

theorem endPart_quires (s : State) (p : Nat) : (s.endPart p).quires = s.quires.map fun q =>
    if q.part = p then { q with recorded := true, broken := true } else q := by
  unfold State.endPart
  dsimp only
  rw [(State.mapCtxs_spec _ _).1]

theorem endPart_part (s : State) (p q : Nat) : (s.endPart p).part q = s.part q := by
  unfold State.endPart
  dsimp only
  rw [(State.mapCtxs_spec _ _).1]
  rfl

/-- The context whose end an unlock from ERROR begins. -/
def endedByUnlock (x : Ctx) : Ctx :=
  { x with frz := { x.frz with tdi := false } }.beginDeath (match x.dying with | some r => r | none => {})

theorem endPart_ctx (s : State) (p c : Nat) : (s.endPart p).ctx c =
    if (s.ctx c).part = p ∧ (s.ctx c).st ≠ .empty then endedByUnlock (s.ctx c) else s.ctx c := by
  unfold State.endPart
  dsimp only
  refine (ctx_mapCtxs (fun _ => ?_) _ c).trans (if_congr ?_ rfl rfl)
  · exact if_neg (by simp)
  · rw [Bool.and_eq_true, decide_eq_true_eq, Bool.not_eq_true', decide_eq_false_iff_not]
    exact Iff.rfl

theorem endedByUnlock_spec (x : Ctx) : (endedByUnlock x).dying.isSome = true ∧ (endedByUnlock x).frz.tdi = false ∧ ∀ cls n, (endedByUnlock x).reg cls n = x.reg cls n := by
  refine ⟨rfl, rfl, fun cls n => ?_⟩
  cases cls <;> rfl

theorem genadv_ctx (s : State) (p c : Nat) : (s.genadv p).ctx c = s.ctx c := by
  unfold State.genadv
  dsimp only
  split <;> rfl

theorem genadv_quires (s : State) (p : Nat) : (s.genadv p).quires = s.quires := by
  unfold State.genadv
  dsimp only
  split <;> rfl

theorem genadv_l2gen (s : State) (p : Nat) (h : (s.part p).l2gen + 1 < 2 ^ 16) :
    ((s.genadv p).part p).l2gen = (s.part p).l2gen + 1 := by
  unfold State.genadv
  dsimp only
  rw [if_pos h]
  exact congrArg Part.l2gen (State.part_setPart_self s p _)

theorem tdispUnlock_error (h : (s.part p).tdi = .error) : ∃ t, exec (.tdispUnlock p) s = .next t ∧ (t.part p).tdi = .unlocked ∧
    (t.part p).digest = none ∧ (t.part p).tables = [] ∧
    ((s.part p).l2gen + 1 < 2 ^ 16 → (t.part p).l2gen = (s.part p).l2gen + 1) ∧
    (∀ q ∈ t.quires, q.part = p → q.recorded = true ∧ q.broken = true) ∧
    (∀ c, (s.ctx c).part ≠ p ∨ (s.ctx c).st = .empty → t.ctx c = s.ctx c) ∧
    ∀ c, (s.ctx c).part = p → (s.ctx c).st ≠ .empty → (t.ctx c).dying.isSome = true ∧ (t.ctx c).frz.tdi = false ∧
      ∀ cls n, (t.ctx c).reg cls n = (s.ctx c).reg cls n := by
  have hr := exec_tdispUnlock (s := s) (p := p) (by rw [h]; decide)
  rw [if_pos h] at hr
  obtain ⟨-, hp, -⟩ := updPart_spec ((s.endPart p).genadv p) p fun q => { q with tdi := .unlocked, digest := none, tables := [] }
  have hc : ∀ c, (((s.endPart p).genadv p).updPart p fun q => { q with tdi := .unlocked, digest := none, tables := [] }).ctx c =
      (s.endPart p).ctx c := genadv_ctx (s.endPart p) p
  refine ⟨_, hr, by rw [hp], by rw [hp], by rw [hp], fun hg => ?_, fun q hq hqp => ?_, fun c he => ?_, fun c hcp he => ?_⟩
  · rw [hp]
    exact (genadv_l2gen (s.endPart p) p (by rwa [endPart_part])).trans (by rw [endPart_part])
  · have hq' : q ∈ (s.endPart p).quires := genadv_quires (s.endPart p) p ▸ hq
    rw [endPart_quires] at hq'
    obtain ⟨q0, -, rfl⟩ := List.mem_map.mp hq'
    by_cases h0 : q0.part = p
    · rw [if_pos h0]
      exact ⟨rfl, rfl⟩
    · rw [if_neg h0] at hqp
      exact absurd hqp h0
  · rw [hc, endPart_ctx, if_neg fun hn => he.elim (fun hp => hp hn.1) hn.2]
  · rw [hc, endPart_ctx, if_pos ⟨hcp, he⟩]
    exact endedByUnlock_spec _

end Tdisp

/-! SPDM requests (R305, R310, R317, R324). -/

section Spdm
variable (s : State)

/-- The state in which the answer `a` stands last under vector 49. -/
def answered (a : Option (BitVec 512)) : State :=
  ({ s with fresh := s.fresh + 1 }.updPkg fun k => { k with doe := k.doe ++ [a] }).raise 49

theorem exec_measure (i : Nat) :
    exec (.spdmRequest (.measure i)) s = .next (answered s ((s.measure i).map fun b => Config.signed b s.fresh)) := rfl

theorem exec_ideKeys : exec (.spdmRequest .ideKeys) s =
    if s.runs then .next ((answered s (some (Config.signed 0 s.fresh))).updPkg fun k => { k with ide := true })
    else .next (answered s none) := rfl

theorem measure_rom : s.measure 1 = some Config.romDigest := rfl

variable {s}

theorem measure_booting {i : Nat} (h1 : i ≠ 1) (hb : s.pkg.boot ≠ .running) : s.measure i = none := by
  unfold State.measure State.runs
  rw [if_neg h1, if_pos (by simp [hb])]

theorem measure_running {i : Nat} (h1 : i ≠ 1) (hb : s.pkg.boot = .running) : s.measure i =
    if i = 2 then some (Config.digest (match s.pkg.flash with | some f => f.1 | none => []))
    else if 16 ≤ i ∧ i < 28 then some (match (s.part (i - 16)).digest with | some d => d | none => 0)
    else none :=
  have hr : ¬ (!s.runs) = true := by simp [State.runs, hb]
  (if_neg h1).trans (if_neg hr)

theorem measure_part {p : Nat} (hp : p < 12) (hb : s.pkg.boot = .running) :
    s.measure (16 + p) = some (match (s.part p).digest with | some d => d | none => 0) := by
  rw [measure_running (by omega) hb, if_neg (by omega), if_pos (by omega), Nat.add_sub_cancel_left]

theorem measure_undefined {i : Nat} (hb : s.pkg.boot = .running) (h1 : i ≠ 1) (h2 : i ≠ 2) (h : i < 16 ∨ 28 ≤ i) :
    s.measure i = none := by
  rw [measure_running h1 hb, if_neg h2, if_neg (by omega)]

end Spdm

/-- Settles O57: each event by the state it answers; the loss of IDE is a fold of errors over the TDIs that used it. -/
theorem securityEvents : Obligations.SecurityEvents := by
  unfold Obligations.SecurityEvents
  intro s
  refine ⟨fun p hi he ht => ?lock, fun p h => exec_tdispLock_refused h, fun p h => ⟨_, exec_tdispRun h, updPart_spec _ _ _⟩,
    fun p h => ?error, fun p h => ?unlock, fun p h => tdispUnlock_error h, ideLoss_spec s, fun i => ?measure, ?keys,
    fun img v key sig up => ⟨fun h => ?stage, fun h => ?refuse⟩⟩
  case lock =>
    obtain ⟨d, hr⟩ := exec_tdispLock ⟨hi, he, ht⟩
    obtain ⟨hrest, hself, hne⟩ := updPart_spec s p fun q =>
      { q with tdi := .locked, digest := some d, tables := s.tablePages p 5 0 ((s.part p).ssbase * 65536) }
    exact ⟨_, d, _, hr, hrest, hself, tablePages_root _ _ _, fun i hi => tablePages_entry hi, hne⟩
  case error =>
    refine ⟨_, exec_tdiError h, tdiEnterError_only s p, ?_, fun q hq => ?_, ?_, fun c hc => ?_, fun c hp he => ?_⟩
    · rw [part_tdiEnterError, if_pos rfl]
    · rw [part_tdiEnterError, if_neg hq]
    · rw [tdiEnterError_raised]
      exact List.mem_cons_self
    · rw [ctx_tdiEnterError, if_neg fun hn => hc.elim (fun hp => hp hn.1) hn.2]
    · rw [ctx_tdiEnterError, if_pos ⟨hp, he⟩]
  case unlock =>
    have hu : (s.part p).tdi ≠ .unlocked := by obtain h | h := h <;> rw [h] <;> decide
    have he : (s.part p).tdi ≠ .error := by obtain h | h := h <;> rw [h] <;> decide
    have hr := exec_tdispUnlock hu
    rw [if_neg he] at hr
    exact ⟨_, hr, updPart_spec _ _ _⟩
  case measure =>
    refine ⟨_, _, exec_measure s i, rfl, rfl, List.mem_cons_self, fun h => ?_, fun h1 hb => ?_, fun hb => ⟨fun h => ?_, fun p hp h => ?_,
      fun h1 h2 h => ?_⟩⟩
    · rw [h, measure_rom]
      rfl
    · rw [measure_booting h1 hb]
      rfl
    · rw [h, measure_running (by decide) hb]
      rfl
    · rw [h, measure_part hp hb]
      rfl
    · rw [measure_undefined hb h1 h2 h]
      rfl
  case keys =>
    rw [exec_ideKeys]
    by_cases hb : s.pkg.boot = .running
    · have hs : s.runs = true := by simpa [State.runs] using hb
      rw [if_pos hs]
      exact ⟨_, rfl, rfl, List.mem_cons_self, fun _ => ⟨rfl, rfl⟩, fun h => absurd hb h⟩
    · have hs : ¬ s.runs = true := by simpa [State.runs] using hb
      rw [if_neg hs]
      exact ⟨_, rfl, rfl, List.mem_cons_self, fun h => absurd h hb, fun _ => ⟨rfl, rfl⟩⟩
  case stage =>
    refine if_neg ?_
    obtain h | h := h <;> simp [h]
  case refuse =>
    refine if_pos ?_
    obtain h | h := h <;> simp [h]

end Sys2Proof.Proofs
end

section
/-! PROOFS. Fields of a postmark (O37). -/

namespace Sys2Proof.Proofs

open Sys2Proof Sys2Proof.Machine Sys2Proof.Safety

/-! Fields written into a number. -/

theorem putBits_eq (x l n v : Nat) : putBits x l n v = 2 ^ l * (2 ^ n * (x / 2 ^ l / 2 ^ n) + v % 2 ^ n) + x % 2 ^ l := by
  have hx : 2 ^ l * (x / 2 ^ l) + x % 2 ^ l = x := Nat.div_add_mod x (2 ^ l)
  have hq : 2 ^ n * (x / 2 ^ l / 2 ^ n) + x / 2 ^ l % 2 ^ n = x / 2 ^ l := Nat.div_add_mod (x / 2 ^ l) (2 ^ n)
  have hm := congrArg (2 ^ l * ·) hq
  simp only [Nat.mul_add] at hm ⊢
  rw [putBits, Nat.mul_comm _ (2 ^ l), Nat.mul_comm (v % 2 ^ n)]
  omega

theorem testBit_putBits (x l n v b : Nat) :
    (putBits x l n v).testBit b = if l ≤ b ∧ b < l + n then v.testBit (b - l) else x.testBit b := by
  rw [putBits_eq, Nat.testBit_two_pow_mul_add _ (Nat.mod_lt _ (Nat.two_pow_pos l)),
    Nat.testBit_two_pow_mul_add _ (Nat.mod_lt _ (Nat.two_pow_pos n))]
  by_cases hl : b < l
  · rw [if_pos hl, if_neg (by omega), Nat.testBit_mod_two_pow, decide_eq_true hl, Bool.true_and]
  · rw [if_neg hl]
    by_cases hn : b - l < n
    · rw [if_pos hn, if_pos (by omega), Nat.testBit_mod_two_pow, decide_eq_true hn, Bool.true_and]
    · rw [if_neg hn, if_neg (by omega), Nat.testBit_div_two_pow, Nat.testBit_div_two_pow]
      congr 1
      omega

theorem putBits_lt {x l n w : Nat} (v : Nat) (hx : x < 2 ^ w) (h : l + n ≤ w) : putBits x l n v < 2 ^ w := by
  refine Nat.lt_pow_two_of_testBit _ fun b hb => ?_
  rw [testBit_putBits, if_neg (by omega)]
  exact Nat.testBit_lt_two_pow (hx.trans_le (Nat.pow_le_pow_right (by decide) hb))

/-- The field written reads as its value. -/
theorem field_putBits_self (x l n v : Nat) : putBits x l n v / 2 ^ l % 2 ^ n = v % 2 ^ n := by
  refine Nat.eq_of_testBit_eq fun b => ?_
  rw [Nat.testBit_mod_two_pow, Nat.testBit_div_two_pow, testBit_putBits, Nat.testBit_mod_two_pow]
  by_cases hb : b < n
  · rw [if_pos (by omega), Nat.add_sub_cancel_right]
  · rw [decide_eq_false hb, Bool.false_and, Bool.false_and]

/-- A field apart from the one written reads as before. -/
theorem field_putBits_other (x v : Nat) {l n l' n' : Nat} (h : l' + n' ≤ l ∨ l + n ≤ l') :
    putBits x l n v / 2 ^ l' % 2 ^ n' = x / 2 ^ l' % 2 ^ n' := by
  refine Nat.eq_of_testBit_eq fun b => ?_
  rw [Nat.testBit_mod_two_pow, Nat.testBit_div_two_pow, testBit_putBits, Nat.testBit_mod_two_pow, Nat.testBit_div_two_pow]
  by_cases hb : b < n'
  · rw [if_neg (by omega)]
  · rw [decide_eq_false hb, Bool.false_and, Bool.false_and]

/-- What stands above the field written stays. -/
theorem div_putBits (x v : Nat) {l n w : Nat} (h : l + n ≤ w) : putBits x l n v / 2 ^ w = x / 2 ^ w := by
  refine Nat.eq_of_testBit_eq fun b => ?_
  rw [Nat.testBit_div_two_pow, testBit_putBits, if_neg (by omega), Nat.testBit_div_two_pow]

/-! The postmark of a call (R121, R122). -/

theorem fieldAt_lt (w : Word) (l n : Nat) : fieldAt w l n < 2 ^ n := Nat.mod_lt _ (Nat.two_pow_pos n)

/-- A word made of a number below 2^64. -/
theorem toNat_word {x : Nat} (h : x < 2 ^ 64) : (BitVec.ofNat 64 x).toNat = x := BitVec.toNat_ofNat x 64 ▸ Nat.mod_eq_of_lt h

theorem pmIssue_first {pm : Word} (o : Nat) (h : Word) (hp : fieldAt pm 48 5 = 0) : (pmIssue pm o h).toNat =
    putBits (putBits (putBits (putBits pm.toNat 0 8 o) 8 2 (fieldAt h 11 2)) 10 2 (fieldAt h 9 2)) 12 2 (fieldAt h 7 2) := by
  have hc : pmCount pm = 0 := hp
  unfold pmIssue
  dsimp only
  rw [if_pos hc]
  exact toNat_word (putBits_lt _ (putBits_lt _ (putBits_lt _ (putBits_lt _ pm.isLt (by decide)) (by decide)) (by decide)) (by decide))

theorem pmIssue_later {pm : Word} (o : Nat) (h : Word) (hp : fieldAt pm 48 5 ≠ 0) : (pmIssue pm o h).toNat =
    putBits (putBits pm.toNat 10 2 (min (fieldAt pm 10 2) (fieldAt h 9 2))) 12 2 (max (fieldAt pm 12 2) (fieldAt h 7 2)) := by
  have hc : ¬ pmCount pm = 0 := hp
  unfold pmIssue
  dsimp only
  rw [if_neg hc]
  exact toNat_word (putBits_lt _ (putBits_lt _ pm.isLt (by decide)) (by decide))

theorem pmIssue_spec (pm h : Word) (o : Nat) :
    (pmIssue pm o h).toNat / 2 ^ 14 = pm.toNat / 2 ^ 14 ∧
    (fieldAt pm 48 5 = 0 → fieldAt (pmIssue pm o h) 0 8 = o % 256 ∧ fieldAt (pmIssue pm o h) 8 2 = fieldAt h 11 2 ∧
      fieldAt (pmIssue pm o h) 10 2 = fieldAt h 9 2 ∧ fieldAt (pmIssue pm o h) 12 2 = fieldAt h 7 2) ∧
    (fieldAt pm 48 5 ≠ 0 → fieldAt (pmIssue pm o h) 0 8 = fieldAt pm 0 8 ∧ fieldAt (pmIssue pm o h) 8 2 = fieldAt pm 8 2 ∧
      fieldAt (pmIssue pm o h) 10 2 = min (fieldAt pm 10 2) (fieldAt h 9 2) ∧
      fieldAt (pmIssue pm o h) 12 2 = max (fieldAt pm 12 2) (fieldAt h 7 2)) := by
  have hm := Nat.mod_eq_of_lt (fieldAt_lt h 11 2)
  have hm' := Nat.mod_eq_of_lt (fieldAt_lt h 9 2)
  have hm'' := Nat.mod_eq_of_lt (fieldAt_lt h 7 2)
  by_cases hp : fieldAt pm 48 5 = 0
  · have he := pmIssue_first o h hp
    refine ⟨?_, fun _ => ⟨?_, ?_, ?_, ?_⟩, fun hn => absurd hp hn⟩
    · rw [he, div_putBits _ _ (by decide), div_putBits _ _ (by decide), div_putBits _ _ (by decide), div_putBits _ _ (by decide)]
    · rw [fieldAt, he, field_putBits_other _ _ (by decide), field_putBits_other _ _ (by decide), field_putBits_other _ _ (by decide),
        field_putBits_self]
      rfl
    · rw [fieldAt, he, field_putBits_other _ _ (by decide), field_putBits_other _ _ (by decide), field_putBits_self, hm]
    · rw [fieldAt, he, field_putBits_other _ _ (by decide), field_putBits_self, hm']
    · rw [fieldAt, he, field_putBits_self, hm'']
  · have he := pmIssue_later o h hp
    refine ⟨?_, fun hn => absurd hn hp, fun _ => ⟨?_, ?_, ?_, ?_⟩⟩
    · rw [he, div_putBits _ _ (by decide), div_putBits _ _ (by decide)]
    · rw [fieldAt, he, field_putBits_other _ _ (by decide), field_putBits_other _ _ (by decide)]
      rfl
    · rw [fieldAt, he, field_putBits_other _ _ (by decide), field_putBits_other _ _ (by decide)]
      rfl
    · rw [fieldAt, he, field_putBits_other _ _ (by decide), field_putBits_self]
      exact Nat.mod_eq_of_lt (lt_of_le_of_lt (min_le_left _ _) (fieldAt_lt pm 10 2))
    · rw [fieldAt, he, field_putBits_self]
      exact Nat.mod_eq_of_lt (max_lt (fieldAt_lt pm 12 2) (fieldAt_lt h 7 2))

/-- What a window leaves in the postmark before its count: the rung of its place, or the widest beyond the sixteenth (R122). -/
def windowBits (pm : Word) (r : Nat) : Nat :=
  if fieldAt pm 48 5 < 16 then putBits pm.toNat (16 + 2 * fieldAt pm 48 5) 2 r
  else if pm.getLsbD 53 then putBits pm.toNat 54 2 (max (fieldAt pm 54 2) r)
  else putBits (putBits pm.toNat 54 2 r) 53 1 1

theorem windowBits_lt (pm : Word) (r : Nat) : windowBits pm r < 2 ^ 64 := by
  unfold windowBits
  split
  · exact putBits_lt _ pm.isLt (by omega)
  · split
    · exact putBits_lt _ pm.isLt (by decide)
    · exact putBits_lt _ (putBits_lt _ pm.isLt (by decide)) (by decide)

theorem pmWindow_toNat (pm : Word) (r : Nat) : (pmWindow pm r).toNat = putBits (windowBits pm r) 48 5 (min (fieldAt pm 48 5 + 1) 31) := by
  have hw : pmWindow pm r = BitVec.ofNat 64 (putBits (windowBits pm r) 48 5 (min (fieldAt pm 48 5 + 1) 31)) := by
    have hc : fieldAt pm 48 5 = pmCount pm := rfl
    have hb : fieldAt pm 54 2 = bits pm.toNat 55 54 := rfl
    unfold pmWindow windowBits
    dsimp only
    rw [hc, hb]
    split
    · rfl
    · cases hb : bit pm.toNat 53 <;> simp [bit, BitVec.getLsbD] at hb ⊢ <;> simp [hb]
  rw [hw, toNat_word (putBits_lt _ (windowBits_lt pm r) (by decide))]

theorem getLsbD_pmWindow (pm : Word) (r : Nat) {b : Nat} (hb : b < 48 ∨ 53 ≤ b) :
    (pmWindow pm r).getLsbD b = (windowBits pm r).testBit b := by
  rw [BitVec.getLsbD, pmWindow_toNat, testBit_putBits, if_neg (by omega)]

theorem fieldAt_pmWindow (pm : Word) (r : Nat) {l n : Nat} (h : l + n ≤ 48 ∨ 53 ≤ l) :
    fieldAt (pmWindow pm r) l n = windowBits pm r / 2 ^ l % 2 ^ n := by
  rw [fieldAt, pmWindow_toNat, field_putBits_other _ _ h]

theorem pmWindow_spec (pm : Word) (r : Nat) (hr : r < 4) :
    fieldAt (pmWindow pm r) 48 5 = min (fieldAt pm 48 5 + 1) 31 ∧
    (fieldAt pm 48 5 < 16 → fieldAt (pmWindow pm r) (16 + 2 * fieldAt pm 48 5) 2 = r ∧
      ∀ b, b < 48 ∨ 53 ≤ b → b ≠ 16 + 2 * fieldAt pm 48 5 → b ≠ 17 + 2 * fieldAt pm 48 5 →
        (pmWindow pm r).getLsbD b = pm.getLsbD b) ∧
    (16 ≤ fieldAt pm 48 5 → (pmWindow pm r).getLsbD 53 = true ∧
      fieldAt (pmWindow pm r) 54 2 = (if pm.getLsbD 53 = true then max (fieldAt pm 54 2) r else r) ∧
      ∀ b, b < 48 ∨ 56 ≤ b → (pmWindow pm r).getLsbD b = pm.getLsbD b) := by
  refine ⟨?_, fun hn => ⟨?_, fun b hb h0 h1 => ?_⟩, fun hn => ⟨?_, ?_, fun b hb => ?_⟩⟩
  · rw [fieldAt, pmWindow_toNat, field_putBits_self]
    exact Nat.mod_eq_of_lt (lt_of_le_of_lt (min_le_right _ _) (by decide))
  · rw [fieldAt_pmWindow _ _ (by omega), windowBits, if_pos hn, field_putBits_self]
    exact Nat.mod_eq_of_lt hr
  · rw [getLsbD_pmWindow _ _ hb, windowBits, if_pos hn, testBit_putBits, if_neg (by omega)]
    rfl
  · rw [getLsbD_pmWindow _ _ (by decide), windowBits, if_neg (by omega)]
    split
    next h => rw [testBit_putBits, if_neg (by decide)]; exact h
    next => rw [testBit_putBits, if_pos (by decide)]; rfl
  · rw [fieldAt_pmWindow _ _ (by decide), windowBits, if_neg (by omega)]
    split
    next => rw [field_putBits_self]; exact Nat.mod_eq_of_lt (max_lt (fieldAt_lt pm 54 2) hr)
    next => rw [field_putBits_other _ _ (by decide), field_putBits_self]; exact Nat.mod_eq_of_lt hr
  · rw [getLsbD_pmWindow _ _ (by omega), windowBits, if_neg (by omega)]
    split
    next => rw [testBit_putBits, if_neg (by omega)]; rfl
    next => rw [testBit_putBits, if_neg (by omega), testBit_putBits, if_neg (by omega)]; rfl

/-- The marks of breach, exhaustion and heat at completion (R122). -/
theorem pmDone_spec (pm : Word) (late exhaust therm : Bool) : ∀ b, b < 64 → (pmDone pm late exhaust therm).getLsbD b =
    (pm.getLsbD b || (b = 56 && late) || (b = 57 && exhaust) || (b = 58 && therm)) := by
  have h : ∀ late exhaust therm : Bool, ∀ b < 64,
      (BitVec.ofNat 64 (b2n late * 2 ^ 56 + b2n exhaust * 2 ^ 57 + b2n therm * 2 ^ 58)).getLsbD b =
        ((decide (b = 56) && late) || (decide (b = 57) && exhaust) || (decide (b = 58) && therm)) := by decide
  intro b hb
  rw [pmDone, BitVec.getLsbD_or, h late exhaust therm b hb, Bool.or_assoc, Bool.or_assoc, Bool.or_assoc]

end Sys2Proof.Proofs
end

section
/-! PROOFS. A matrix call at its issue, its windows and its completion (O37). -/

namespace Sys2Proof.Proofs

open Sys2Proof Sys2Proof.Machine Sys2Proof.Safety

/-! Issue (R238). -/

/-- The call that an MCALL issues, with all it captures, but the latches that it reads. -/
def issuedCall (s : State) (k : Cur) (f : Form) (w : MW) (ls : List Nat) : Call :=
  let a := (opOf k (.mcall w) f).src 0
  let b := (opOf k (.mcall w) f).src 1
  let o := s.owner k.before.owner
  let e := (tget 0 (s.core (coreOf k.ctx)).routs w.rout.toNat).toNat
  let set := fun (n : Nat) => tget 0 k.before.ag n
  { id := s.serial, core := coreOf k.ctx, ctx := k.ctx, pc := k.h, opa := BitVec.ofNat 64 a, opb := BitVec.ofNat 64 b,
    acc := w.tgt.toNat, owner := k.before.owner, ladder := fieldAt o.hdr 11 2, da := BitVec.ofNat 64 a,
    db := BitVec.ofNat 64 b, mp := (List.range 8).map fun i => tget 0 k.before.m i,
    agA := set (a % 16), agB := set (b % 16), sgA := set (a / 2 ^ 28 % 16), sgB := set (b / 2 ^ 28 % 16),
    tiles := k.before.tiles, level := k.before.level, mode := w.mode.toNat, cap := w.cap.toNat,
    lat := tget 0 o.lat w.rout.toNat, n := a / 2 ^ 59 % 32 + 1, depth := 4 * (a / 2 ^ 48 % 1024), c0 := s.now k.ctx,
    frz := 0, frzAt := 0, first := e % 1024, last := e / 2 ^ 16 % 1024, upc := e % 1024, words := 0,
    cnt := [a / 2 ^ 59 % 32 + 1, 0, 0, 0], kt := 0, kA := 0, kB := 0, trn := false, scA := a.testBit 32, scB := b.testBit 32,
    srcA := none, srcB := none, isOpen := false, waiting := false, ended := false, rung := 0,
    vals := (s.acc (coreOf k.ctx) w.tgt.toNat).vals,
    pm := pmIssue (s.acc (coreOf k.ctx) w.tgt.toNat).pm k.before.owner o.hdr, jobs := [], stopped := none,
    uses := [(0, coreOf k.ctx), (4, colOf k.ctx)], late := false, exhaust := false,
    therm := decide ((s.col (colOf k.ctx)).q < 8), latches := ls }

section Issue
variable {s : State} {k : Cur} {f : Form} {w : MW}

/-- The state that the issue leaves, before its tile is in flight. -/
def callIssued (s : State) (k : Cur) (f : Form) (c : Call) : State :=
  { opened s k f with serial := s.serial + 1, calls := s.calls ++ [c], micro := some s.serial }

theorem dAg_eq (d : Nat) : dAg d = d % 16 := by
  simp [dAg, bits]

theorem exec_mcall (ha : s.pkg.armed = none) (h : Performs s k (.mcall w) f) : exec (.mcall w) s =
    .next ((callIssued s k f (issuedCall s k f w ((opened s k f).callLatches (opOf k (.mcall w) f)))).land k.ctx f.slot .a w.tgt.toNat
      (tget 0 (s.owner k.before.owner).lat w.rout.toNat) none s.serial) := by
  have hacc : (opened s k f).strikeAcc (opOf k (.mcall w) f) w.tgt.toNat = opened s k f :=
    strikeUnit_calm (s := opened s k f) ha _ _ _ _
  have hlat : ∀ l : List Nat, l.foldl (fun t n => t.strikeUnit (.ctx (opOf k (.mcall w) f).c
      (some (opOf k (.mcall w) f).opInfo)) 8 (coreOf (opOf k (.mcall w) f).c) n) (opened s k f) = opened s k f :=
    fun l => List.foldl_fixed' (fun n => strikeUnit_calm (s := opened s k f) ha _ _ _ n) l
  refine (State.runOp_performs h _ _).trans (congrArg _ ?_)
  dsimp only
  rw [hacc, hlat]
  simp only [dAg_eq]
  rfl

theorem callIssued_ctx (c : Call) : (callIssued s k f c).ctx k.ctx = latched s k f := opened_ctx_self s k f

/-- The issue changes the calls, the routine that runs and its context, whose tile is in flight. -/
theorem mcall_issues (ha : s.pkg.armed = none) (h : Performs s k (.mcall w) f) : ∃ t ls, exec (.mcall w) s = .next t ∧
    t = { s with ctxs := t.ctxs, cur := some (acted k), serial := s.serial + 1, calls := s.calls ++ [issuedCall s k f w ls],
                 micro := some s.serial } ∧
    (∀ d, d ≠ k.ctx → t.ctx d = s.ctx d) ∧
    t.ctx k.ctx = { latched s k f with inflight := (s.ctx k.ctx).inflight ++
      [⟨.a, w.tgt.toNat, s.now k.ctx + tget 0 (s.owner k.before.owner).lat w.rout.toNat, none, s.serial, f.slot⟩] } := by
  have hr := exec_mcall ha h
  rw [State.land_eq, if_neg fun e => nomatch e.1] at hr
  refine ⟨_, _, hr, rfl, fun d hd => (State.ctx_setCtx_ne _ _ hd).trans (opened_ctx_ne s k f hd), ?_⟩
  exact (State.ctx_setCtx_self _ _ _).trans (congrArg (fun x : Ctx => { x with inflight := x.inflight ++
    [Landing.mk .a w.tgt.toNat (s.now k.ctx + tget 0 (s.owner k.before.owner).lat w.rout.toNat) none s.serial f.slot] })
    (callIssued_ctx (s := s) (k := k) (f := f) _))

end Issue

/-! Windows and completion (R107, R108, R122). -/

/-- A call whose K-tile window opens at rung `r`. -/
def windowOpened (r : Nat) (q : Call) : Call :=
  { q with rung := r, pm := pmWindow q.pm r, srcA := none, srcB := none, isOpen := true, waiting := false, frzAt := q.frz }

section Ends
variable {s : State} {id : Nat} {k : Call} (hk : s.call id = some k)
include hk

/-- A K-tile window opens at its cycle, at its owner's rung (R107, R108). -/
theorem window_opens (hj : k.jobs = []) (hw : k.waiting = true) (hc : k.opens (k.kt - 1) ≤ s.now k.ctx) :
    ∃ t, exec (.kTileWindowOpen id) s = .next t ∧ t = { s with micro := some id, calls := t.calls } ∧
      (∀ d, d ≠ id → t.call d = s.call d) ∧
      t.call id = some { k with rung := s.rungFor k.owner, pm := pmWindow k.pm (s.rungFor k.owner), srcA := none, srcB := none,
                                isOpen := true, waiting := false, frzAt := k.frz } := by
  have hm : s.mayOpen k = true := by simp [State.mayOpen, hj, hw, hc]
  have hr : exec (.kTileWindowOpen id) s = .next (s.openWindow k) := by
    show execKTileWindowOpen id s = _
    unfold execKTileWindowOpen
    rw [hk]
    exact if_pos hm
  have ho : s.openWindow k = { s.updCall id (windowOpened (s.rungFor k.owner)) with micro := some id } := by
    rw [← call_id hk]
    rfl
  rw [ho] at hr
  refine ⟨_, hr, rfl, fun d hd => call_updCall_ne (f := windowOpened _) (fun _ hq => hq) hd, ?_⟩
  exact (call_updCall (f := windowOpened _) fun _ hq => hq).trans (congrArg (Option.map (windowOpened _)) hk)

/-- A call completes: its values and postmark reach the tile together (R122, R242). -/
theorem exec_matrixCallComplete (hj : k.jobs = []) (he : k.ended = true) (hc : k.c0 + k.lat + k.frz ≤ s.now k.ctx) :
    exec (.matrixCallComplete id) s = .next ((s.setAcc k.core k.acc
      { s.acc k.core k.acc with vals := k.vals, pm := pmDone k.pm k.late k.exhaust k.therm }).dropCall k) := by
  show execMatrixCallComplete id s = _
  unfold execMatrixCallComplete
  rw [hk]
  exact if_pos (by simp [hj, he, hc])

end Ends

section Completion
variable (s : State) (k : Call) (a : AccTile)

theorem setAcc_dropCall_only : (s.setAcc k.core k.acc a).dropCall k =
    let t := (s.setAcc k.core k.acc a).dropCall k
    { s with calls := s.calls.filter (fun c => !(c.id = k.id)), micro := if s.micro = some k.id then none else s.micro,
             users := t.users, cores := t.cores, ctxs := t.ctxs } := rfl

theorem acc_setAcc_dropCall : ((s.setAcc k.core k.acc a).dropCall k).acc k.core k.acc = a := by
  show tget {} ((s.setAcc k.core k.acc a).core k.core).accs k.acc = a
  unfold State.setAcc
  rw [State.updCore_eq, State.core_setCore_self]
  exact tget_tset_self _ _ _ _

theorem acc_setAcc_dropCall_ne {n m : Nat} (h : (n, m) ≠ (k.core, k.acc)) :
    ((s.setAcc k.core k.acc a).dropCall k).acc n m = s.acc n m := by
  show tget {} ((s.setAcc k.core k.acc a).core n).accs m = tget {} (s.core n).accs m
  unfold State.setAcc
  rw [State.updCore_eq]
  by_cases hn : n = k.core
  · rw [hn, State.core_setCore_self]
    exact tget_tset_ne _ _ _ fun hm => h (by rw [hn, hm])
  · rw [State.core_setCore_ne _ _ hn]

theorem latchT_setAcc_dropCall (n l : Nat) : ((s.setAcc k.core k.acc a).dropCall k).latchT n l = s.latchT n l := by
  show tget {} ((s.setAcc k.core k.acc a).core n).lats l = tget {} (s.core n).lats l
  unfold State.setAcc
  rw [State.updCore_eq]
  by_cases hn : n = k.core
  · rw [hn, State.core_setCore_self]
  · rw [State.core_setCore_ne _ _ hn]

/-- The instances a call drew on count as its owner's uses of the window (R111). -/
theorem users_setAcc_dropCall :
    (∀ u ∈ ((s.setAcc k.core k.acc a).dropCall k).users, u ∈ s.users ∨ u.2.2 = k.owner) ∧
      ∀ u ∈ k.uses, (u.1, u.2, k.owner) ∈ ((s.setAcc k.core k.acc a).dropCall k).users := by
  show (∀ u ∈ s.users ++ (k.uses.map fun u => (u.1, u.2, k.owner)).filter fun u => !s.users.contains u,
      u ∈ s.users ∨ u.2.2 = k.owner) ∧
    ∀ u ∈ k.uses, (u.1, u.2, k.owner) ∈ s.users ++ (k.uses.map fun u => (u.1, u.2, k.owner)).filter fun u => !s.users.contains u
  constructor
  · intro u hu
    obtain hu | hu := List.mem_append.mp hu
    · exact .inl hu
    · obtain ⟨v, -, rfl⟩ := List.mem_map.mp (List.mem_filter.mp hu).1
      exact .inr rfl
  · intro u hu
    by_cases hs : (u.1, u.2, k.owner) ∈ s.users
    · exact List.mem_append_left _ hs
    · exact List.mem_append_right _ (List.mem_filter.mpr ⟨List.mem_map_of_mem hu, by simpa using hs⟩)

end Completion

/-- Settles O37: the issue by what it captures, windows and completion by the events due, the postmark field by field. -/
theorem matrixCalls : Obligations.MatrixCalls := by
  unfold Obligations.MatrixCalls
  refine ⟨fun s k f w ha h => ?issue, fun s id k hk hj => ⟨window_opens hk hj, fun he hc => ?done⟩, fun pm h o => pmIssue_spec pm h o,
    fun pm r hr => pmWindow_spec pm r hr⟩
  case issue =>
    obtain ⟨t, ls, hr, ht, hne, hself⟩ := mcall_issues ha h
    exact ⟨t, issuedCall s k f w ls, hr, ht, hne, hself, rfl⟩
  case done =>
    obtain ⟨hold, hnew⟩ := users_setAcc_dropCall s k
      { s.acc k.core k.acc with vals := k.vals, pm := pmDone k.pm k.late k.exhaust k.therm }
    have hid := call_id hk
    refine ⟨_, exec_matrixCallComplete hk hj he hc, ?_, ?_, ?_, fun n a h => acc_setAcc_dropCall_ne s k _ h,
      fun n l => latchT_setAcc_dropCall s k _ n l, hold, hnew, fun d hd => State.ctx_setCtx_ne _ _ hd, ?_⟩
    · rw [← hid]
      exact setAcc_dropCall_only s k _
    · rw [acc_setAcc_dropCall]
    · rw [acc_setAcc_dropCall]
      exact pmDone_spec _ _ _ _
    · rw [← hid]
      exact State.ctx_setCtx_self _ _ _

end Sys2Proof.Proofs
end

section
/-! PROOFS. What a write of the device's own of less than a line leaves of the machine (R307, R309): frames stay in or out of service and
empty ones empty, nothing is poisoned, and a context is at most frozen with its partition (O56). -/

namespace Sys2Proof.Proofs

open Sys2Proof Sys2Proof.Machine Sys2Proof.Safety

/-! Frames of a set. -/

/-- The same frames are out of service, and the empty ones are empty. -/
structure SameFrames (x y : L2Set) : Prop where
  quar    : y.quar = x.quar
  lasting : y.lasting = x.lasting
  empty   : ∀ w, tget none x.ways w = none → tget none y.ways w = none

theorem SameFrames.refl (x : L2Set) : SameFrames x x := ⟨rfl, rfl, fun _ => id⟩

theorem SameFrames.trans {x y z : L2Set} (h : SameFrames x y) (g : SameFrames y z) : SameFrames x z :=
  ⟨g.quar.trans h.quar, g.lasting.trans h.lasting, fun w hw => g.empty w (h.empty w hw)⟩

/-- A line that is rewritten where it stands, whatever its recency. -/
theorem sameFrames_rewrite {x : L2Set} {w : Nat} {y : Way} (h : tget none x.ways w = some y) (r : List Nat) (y' : Way) :
    SameFrames x { x with ways := tset none x.ways w (some y'), recency := r } := by
  refine ⟨rfl, rfl, fun v hv => ?_⟩
  have hvw : v ≠ w := fun e => nomatch h.symm.trans (e ▸ hv : tget none x.ways w = none)
  show tget none (tset none x.ways w (some y')) v = none
  rw [tget_tset_ne _ _ _ hvw, hv]

theorem l2set_setL2_self (s : State) (k : Nat) (x : L2Set) : (s.setL2 k x).l2set k = x := tget_tset_self _ _ _ _

theorem l2set_setL2_ne (s : State) {k n : Nat} (x : L2Set) (h : n ≠ k) : (s.setL2 k x).l2set n = s.l2set n := tget_tset_ne _ _ _ h

/-! Writes to memory and within a line. -/

/-- Bytes of memory and the demand on its channels change alone. -/
def MemOnly (s t : State) : Prop := t = { s with mem := t.mem, demand := t.demand }

theorem MemOnly.refl (s : State) : MemOnly s s := rfl

theorem MemOnly.trans {s t u : State} (h : MemOnly s t) (g : MemOnly t u) : MemOnly s u := by
  unfold MemOnly at h g
  rw [h] at g
  exact g

theorem setRawByte_memOnly (s : State) (pa : Nat) (b : Byte) : MemOnly s (s.setRawByte pa b) := by
  unfold State.setRawByte
  split <;> rfl

theorem setRawBytes_memOnly (l : List Byte) : ∀ (s : State) (pa : Nat), MemOnly s (s.setRawBytes pa l) := by
  induction l with
  | nil => exact fun s _ => .refl s
  | cons b l ih => exact fun s pa => (setRawByte_memOnly s pa b).trans (ih _ _)

theorem setElideBit_memOnly (s : State) (pa : Nat) (b : Bool) : MemOnly s (s.setElideBit pa b) := setRawByte_memOnly _ _ _

theorem portWrite_memOnly (s : State) (line : Nat) (e : Bool) (d : List Byte) : MemOnly s (s.portWrite line e d) := by
  unfold State.portWrite
  split
  · split
    · exact setElideBit_memOnly _ _ _
    · exact (setRawBytes_memOnly _ _ _).trans (setElideBit_memOnly _ _ _)
  · exact setRawBytes_memOnly _ _ _

theorem burstWrite_memOnly (s : State) (line : Nat) (e : Bool) (d : List Byte) : MemOnly s (s.burstWrite line e d) := by
  unfold State.burstWrite State.burst
  split
  · exact .refl s
  · split
    · split <;> rfl
    · exact .refl s

/-- A write that covers no line whole cures none. -/
theorem unpoison_short {d : List Byte} (hd : d.length < 128) (s : State) (line : Nat) : s.unpoison line d = s :=
  if_neg (Nat.ne_of_lt hd)

theorem memWrite_memOnly {d : List Byte} (hd : d.length < 128) (s : State) (p : Port) (line off : Nat) :
    MemOnly s (s.memWrite p line off d) := by
  unfold State.memWrite
  dsimp only
  rw [unpoison_short hd]
  exact (portWrite_memOnly _ _ _ _).trans (burstWrite_memOnly _ _ _ _)

/-- An access that fills no line and covers none whole. -/
structure ShortWrite (s t : State) : Prop where
  rest : t = { s with mem := t.mem, l2 := t.l2, demand := t.demand }
  sets : ∀ k, SameFrames (s.l2set k) (t.l2set k)

theorem ShortWrite.refl (s : State) : ShortWrite s s := ⟨rfl, fun _ => .refl _⟩

theorem ShortWrite.trans {s t u : State} (h : ShortWrite s t) (g : ShortWrite t u) : ShortWrite s u := by
  refine ⟨?_, fun k => (h.sets k).trans (g.sets k)⟩
  have e := g.rest
  rw [h.rest] at e
  exact e

theorem MemOnly.shortWrite {s t : State} (h : MemOnly s t) : ShortWrite s t := by
  rw [h]
  exact ⟨rfl, fun _ => .refl _⟩

theorem setL2_shortWrite {s : State} {k : Nat} {x : L2Set} (h : SameFrames (s.l2set k) x) : ShortWrite s (s.setL2 k x) := by
  refine ⟨rfl, fun n => ?_⟩
  by_cases hn : n = k
  · rw [hn, l2set_setL2_self]
    exact h
  · rw [l2set_setL2_ne _ _ hn]
    exact .refl _

theorem l2Write_shortWrite {p : Port} (hp : p.cache = false) {d : List Byte} (hd : d.length < 128) (s : State) (line off : Nat) :
    ShortWrite s (s.l2Write p line off d) := by
  unfold State.l2Write
  split
  · exact (memWrite_memOnly hd _ _ _ _).shortWrite
  · dsimp only
    split
    · next w _ =>
      split
      · next y hy =>
        rw [unpoison_short hd]
        refine setL2_shortWrite ?_
        split
        · next ht => rw [if_pos ht] at hy; exact sameFrames_rewrite (x := s.l2set _) hy _ _
        · next ht => rw [if_neg ht] at hy; exact sameFrames_rewrite hy _ _
      · exact .refl s
    · rw [hp]
      exact (memWrite_memOnly hd _ _ _ _).shortWrite

theorem writePa_shortWrite {p : Port} (hp : p.cache = false) {d : List Byte} (hd : d.length < 128) (s : State) (pa : Nat) :
    ShortWrite s (s.writePa p pa d) := by
  refine List.foldlRecOn (motive := ShortWrite s) _ _ (.refl s) fun t ht i _ => ht.trans (l2Write_shortWrite hp ?_ _ _ _)
  rw [List.length_take, List.length_drop]
  omega

/-! Writes of the device's own. -/

theorem TdiMay.trans {x y z : Ctx} (h : TdiMay x y) (g : TdiMay y z) : TdiMay x z := by
  obtain rfl | rfl := h
  · exact g
  · obtain rfl | rfl := g
    · exact .inr rfl
    · exact .inr rfl

/-- No page is protected (R309). -/
def Unguarded (s : State) : Prop := ∀ e ∈ s.parts, e.2.tables = []

/-- What a write of the device's own of less than a line leaves. -/
structure OwnWrite (s t : State) : Prop where
  rest : t = { s with mem := t.mem, l2 := t.l2, demand := t.demand, ctxs := t.ctxs, parts := t.parts,
                      pkg := { s.pkg with snoops := t.pkg.snoops, raised := t.pkg.raised, pending := t.pkg.pending,
                                          posted := t.pkg.posted, hflogCount := t.pkg.hflogCount } }
  sets : ∀ k, SameFrames (s.l2set k) (t.l2set k)
  ctxs : ∀ c, TdiMay (s.ctx c) (t.ctx c)
  told : ∀ v, Told s v → Told t v
  free : Unguarded s → t.ctxs = s.ctxs ∧ t.parts = s.parts

theorem OwnWrite.refl (s : State) : OwnWrite s s := ⟨rfl, fun _ => .refl _, fun _ => .inl rfl, fun _ => id, fun _ => ⟨rfl, rfl⟩⟩

theorem OwnWrite.trans {s t u : State} (h : OwnWrite s t) (g : OwnWrite t u) : OwnWrite s u := by
  refine ⟨?_, fun k => (h.sets k).trans (g.sets k), fun c => (h.ctxs c).trans (g.ctxs c), fun v hv => g.told v (h.told v hv),
    fun hs => ?_⟩
  · have e := g.rest
    rw [h.rest] at e
    exact e
  · obtain ⟨hc, hp⟩ := h.free hs
    obtain ⟨gc, gp⟩ := g.free (by unfold Unguarded; rw [hp]; exact hs)
    exact ⟨gc.trans hc, gp.trans hp⟩

theorem ShortWrite.ownWrite {s t : State} (h : ShortWrite s t) : OwnWrite s t := by
  obtain ⟨hrest, hsets⟩ := h
  refine ⟨?_, hsets, fun c => .inl ?_, fun v hv => ?_, fun _ => ?_⟩
  · rw [hrest]
  · rw [hrest]; rfl
  · rw [hrest]; exact hv
  · rw [hrest]; exact ⟨rfl, rfl⟩

theorem raise_ownWrite (s : State) (v : Nat) : OwnWrite s (s.raise v) :=
  ⟨rfl, fun _ => .refl _, fun _ => .inl rfl, fun _ h => h.imp (List.mem_cons_of_mem _) id, fun _ => ⟨rfl, rfl⟩⟩

theorem irqRaised_ownWrite (q : Posted) (s : State) : OwnWrite s (irqRaised q s) := by
  unfold irqRaised
  split
  · exact raise_ownWrite s _
  · exact .refl s

/-- A write of the device's own that waits. -/
theorem wait_ownWrite (s : State) (q : Posted) : OwnWrite s (s.updPkg fun k => { k with posted := k.posted ++ [q] }) :=
  ⟨rfl, fun _ => .refl _, fun _ => .inl rfl, fun _ h => h.imp id fun ⟨r, hr, hi⟩ => ⟨r, List.mem_append_left _ hr, hi⟩,
    fun _ => ⟨rfl, rfl⟩⟩

theorem snoopFirst_ownWrite (s : State) (pa : Nat) : OwnWrite s (s.snoopFirst pa).1 := by
  unfold State.snoopFirst
  dsimp only
  split
  · exact .refl s
  · exact ⟨rfl, fun _ => .refl _, fun _ => .inl rfl, fun _ => id, fun _ => ⟨rfl, rfl⟩⟩

/-- A TDI enters ERROR for a page that it protects. -/
theorem tdiEnterError_ownWrite {s : State} (hg : ¬ Unguarded s) (p : Nat) : OwnWrite s (s.tdiEnterError p) := by
  refine ⟨?_, fun k => ?_, fun c => tdiEnterError_tdiMay s p c, fun v hv => ?_, fun h => absurd h hg⟩
  all_goals
    unfold State.tdiEnterError
    dsimp only
    rw [State.raise_eq, (State.mapCtxs_spec _ _).1]
  · rfl
  · exact .refl _
  · exact hv.imp (List.mem_cons_of_mem _) id

theorem guardHit_ownWrite {s : State} (hg : ¬ Unguarded s) (p : Nat) : OwnWrite s (s.guardHit p) := by
  unfold State.guardHit
  split
  · exact .refl s
  · exact tdiEnterError_ownWrite hg p

theorem not_unguarded_of_guardOf {s : State} {pa g : Nat} (h : s.guardOf pa = some g) : ¬ Unguarded s :=
  fun hu => nomatch (guardOf_none hu pa).symm.trans h

theorem postedWrite_ownWrite (s : State) {q : Posted} (hq : q.bytes < 128) : OwnWrite s (s.postedWrite q).1 := by
  unfold State.postedWrite
  dsimp only
  split
  · next hg => exact (guardHit_ownWrite (not_unguarded_of_guardOf hg) _).trans (irqRaised_ownWrite q _)
  · split
    · exact irqRaised_ownWrite q s
    · split
      · exact .refl s
      · have h := snoopFirst_ownWrite s q.pa
        split
        · next e => rw [e] at h; exact h
        · next e =>
          rw [e] at h
          refine (h.trans (writePa_shortWrite rfl ?_ _ _).ownWrite).trans (irqRaised_ownWrite q _)
          unfold Posted.bytes at hq
          split
          · next ha => rw [toBytes_length]; decide
          · next ha => rwa [if_neg ha] at hq

theorem postWrite_ownWrite (s : State) {q : Posted} (hq : q.bytes < 128) : OwnWrite s (s.postWrite q) := by
  unfold State.postWrite
  dsimp only
  split
  · exact wait_ownWrite s q
  · have h := postedWrite_ownWrite s hq
    split
    · next e => rwa [e] at h
    · next e => rw [e] at h; exact h.trans (wait_ownWrite _ q)

theorem count_ownWrite (s : State) (p n : Nat) : OwnWrite s (s.count p n) := postWrite_ownWrite s (by decide : (8 : Nat) < 128)

/-- A record of eight words or fewer. -/
theorem hflog_ownWrite (s : State) {l : List Nat} (hl : l.length ≤ 8) (v : Nat) : OwnWrite s (s.hflog l v) := by
  unfold State.hflog
  dsimp only
  split
  · exact raise_ownWrite s v
  · refine OwnWrite.trans (t := s.updPkg fun k => { k with hflogCount := (k.hflogCount + 1) % 4096 })
      ⟨rfl, fun _ => .refl _, fun _ => .inl rfl, fun _ => id, fun _ => ⟨rfl, rfl⟩⟩ (postWrite_ownWrite _ ?_)
    have : (l.flatMap (toBytes 8)).length = 8 * l.length := by
      simp [List.length_flatMap, toBytes_length, Nat.mul_comm]
    show (l.flatMap (toBytes 8)).length < 128
    omega

end Sys2Proof.Proofs
end

section
/-! PROOFS. Contexts charged with an error, and what an uncorrectable error loses (R379, R380; O56). -/

namespace Sys2Proof.Proofs

open Sys2Proof Sys2Proof.Machine Sys2Proof.Safety

/-! What an error leaves of a context. -/

/-- A context that an error can end. -/
def Alive (x : Ctx) : Prop := x.st ≠ .empty ∧ x.st ≠ .retired ∧ x.dying = none

/-- A context frozen by a MACHINE fault of CODE 3 that is delivered to nobody but the end of it. -/
def Doomed (x : Ctx) : Prop := x.st = .frozen ∧ ∃ r f, x.frz.fault = some (r, f, false) ∧ r.cls = 0x10 ∧ r.code = 3

theorem charged_iff {s t : State} {c : Nat} : Charged s t c ↔ (Alive (s.ctx c) → Doomed (t.ctx c)) :=
  ⟨fun h ⟨he, hr, hd⟩ => h he hr hd, fun h he hr hd => h ⟨he, hr, hd⟩⟩

/-- What errors leave of a context: its registers, and its end, if one has come to it. -/
structure Harm (x y : Ctx) : Prop where
  regs   : ∀ cls n, y.reg cls n = x.reg cls n
  alive  : Alive x → Alive y
  doomed : Doomed x → Doomed y

theorem Harm.refl (x : Ctx) : Harm x x := ⟨fun _ _ => rfl, id, id⟩

theorem Harm.trans {x y z : Ctx} (h : Harm x y) (g : Harm y z) : Harm x z :=
  ⟨fun cls n => (g.regs cls n).trans (h.regs cls n), g.alive ∘ h.alive, g.doomed ∘ h.doomed⟩

theorem TdiMay.harm {x y : Ctx} (h : TdiMay x y) : Harm x y := by
  obtain rfl | rfl := h
  · exact .refl _
  · exact ⟨fun cls _ => by cases cls <;> rfl, fun ⟨_, _, hd⟩ => ⟨nofun, nofun, hd⟩, fun ⟨_, hf⟩ => ⟨rfl, hf⟩⟩

/-- What a charge leaves of a context. -/
def chargedCtx (x : Ctx) (r : Rec) (now mark : Nat) (found : Nat × Nat) : Ctx :=
  { x.freezeAt r now mark false found with
    st := .frozen
    frz := { (x.freezeAt r now mark false found).frz with
      fault := (x.freezeAt r now mark false found).frz.fault.map fun f => (r, f.2.1, false), found := some found } }

theorem kill_eq (s : State) (c code adr : Nat) (op : Option FaultInfo) : s.kill c code adr op = s ∧ ¬ Alive (s.ctx c) ∨
    ∃ f now mark found, f.cls = 0x10 ∧ f.code = code ∧
      s.kill c code adr op = s.setCtx c (chargedCtx (s.ctx c) (mkRec c (s.ctx c) f) now mark found) := by
  unfold State.kill
  dsimp only
  split
  · next h =>
    refine .inl ⟨rfl, fun ⟨he, hr, hd⟩ => ?_⟩
    simp [he, hr, hd] at h
  · exact .inr ⟨_, _, _, _, rfl, rfl, rfl⟩

section ChargedCtx
variable (x : Ctx) (c : Nat) (f : FaultInfo) (now mark : Nat) (found : Nat × Nat)

theorem freezeAt_fault (r : Rec) (b : Bool) : ∃ o, (x.freezeAt r now mark b found).frz.fault = some o := by
  unfold Ctx.freezeAt
  split
  · next o ho =>
    split
    · exact ⟨_, rfl⟩
    · exact ⟨o, ho⟩
  · exact ⟨_, rfl⟩

theorem freezeAt_dying (r : Rec) (b : Bool) : (x.freezeAt r now mark b found).dying = x.dying := by
  unfold Ctx.freezeAt
  split
  · split <;> rfl
  · rfl

theorem chargedCtx_doomed (hf : f.cls = 0x10) (hc : f.code = 3) : Doomed (chargedCtx x (mkRec c x f) now mark found) := by
  obtain ⟨o, ho⟩ := freezeAt_fault x now mark found (mkRec c x f) false
  refine ⟨rfl, mkRec c x f, o.2.1, congrArg (Option.map _) ho, ?_, ?_⟩
  · rw [mkRec_cls, hf]
  · rw [mkRec_code, hc]; rfl

theorem chargedCtx_harm (hf : f.cls = 0x10) (hc : f.code = 3) : Harm x (chargedCtx x (mkRec c x f) now mark found) := by
  refine ⟨fun cls n => Eq.trans ?_ (Ctx.freezeAt_reg x (mkRec c x f) now mark false found cls n), fun h => ⟨nofun, nofun, ?_⟩,
    fun _ => chargedCtx_doomed x c f now mark found hf hc⟩
  · cases cls <;> rfl
  · exact (freezeAt_dying x now mark found _ _).trans h.2.2

end ChargedCtx

theorem kill_only (s : State) (c code adr : Nat) (op : Option FaultInfo) :
    s.kill c code adr op = { s with ctxs := (s.kill c code adr op).ctxs } := by
  obtain ⟨e, -⟩ | ⟨_, _, _, _, -, -, e⟩ := kill_eq s c code adr op
  · rw [e]
  · rw [e]; rfl

theorem kill_harm (s : State) (c adr : Nat) (op : Option FaultInfo) (d : Nat) : Harm (s.ctx d) ((s.kill c 3 adr op).ctx d) := by
  obtain ⟨e, -⟩ | ⟨f, _, _, _, hf, hc, e⟩ := kill_eq s c 3 adr op
  · rw [e]; exact .refl _
  · rw [e]
    by_cases hd : d = c
    · rw [hd, State.ctx_setCtx_self]
      exact chargedCtx_harm _ _ f _ _ _ hf hc
    · rw [State.ctx_setCtx_ne _ _ hd]
      exact .refl _

theorem kill_dooms {s : State} {c : Nat} (h : Alive (s.ctx c)) (adr : Nat) (op : Option FaultInfo) :
    Doomed ((s.kill c 3 adr op).ctx c) := by
  obtain ⟨-, hn⟩ | ⟨f, _, _, _, hf, hc, e⟩ := kill_eq s c 3 adr op
  · exact absurd h hn
  · rw [e, State.ctx_setCtx_self]
    exact chargedCtx_doomed _ _ f _ _ _ hf hc

theorem killAll_only (l : List Nat) (adr : Nat) (r : Reader) (s : State) :
    s.killAll l adr r = { s with ctxs := (s.killAll l adr r).ctxs } := by
  refine List.foldlRecOn (motive := fun t : State => t = { s with ctxs := t.ctxs }) l _ rfl fun t ht c _ => ?_
  rw [kill_only, ht]

theorem killAll_harm (l : List Nat) (adr : Nat) (r : Reader) (s : State) (d : Nat) : Harm (s.ctx d) ((s.killAll l adr r).ctx d) :=
  List.foldlRecOn (motive := fun t => Harm (s.ctx d) (State.ctx t d)) l _ (.refl _) fun t ht c _ => ht.trans (kill_harm t c adr _ d)

theorem killAll_dooms {l : List Nat} {c : Nat} (hc : c ∈ l) {s : State} (h : Alive (s.ctx c)) (adr : Nat) (r : Reader) :
    Doomed ((s.killAll l adr r).ctx c) := by
  obtain ⟨l, m, rfl⟩ := List.append_of_mem hc
  unfold State.killAll
  rw [List.foldl_append]
  exact (killAll_harm m adr r _ c).doomed (kill_dooms ((killAll_harm l adr r s c).alive h) adr _)

/-- A context that is not EMPTY is found by what holds of it. -/
theorem mem_ctxsWith {s : State} {c : Nat} {f : Ctx → Bool} (hs : (s.ctx c).st ≠ .empty) (hf : f (s.ctx c) = true) :
    c ∈ s.ctxsWith f := by
  have hmem : (c, s.ctx c) ∈ s.ctxs := mem_of_tget_ne fun e => hs (congrArg Ctx.st e)
  exact List.mem_map.mpr ⟨_, List.mem_filter.mpr ⟨hmem, by simp [hs, hf]⟩, rfl⟩

/-! Frames, lines and pages lost. -/

/-- A frame that is empty and quarantined. -/
def Retired (x : L2Set) (w : Nat) : Prop := tget none x.ways w = none ∧ w ∈ x.quar

theorem SameFrames.retired {x y : L2Set} (h : SameFrames x y) {w : Nat} (hx : Retired x w) : Retired y w :=
  ⟨h.empty w hx.1, h.quar ▸ hx.2⟩

section Frames
variable (s : State) (p sl j w : Nat)

theorem dropWay_only : s.dropWay p sl j w =
    { s with l2 := (s.dropWay p sl j w).l2, occ := (s.dropWay p sl j w).occ } := by
  unfold State.dropWay
  dsimp only
  split
  · split <;> rfl
  · rfl

theorem l2set_dropWay : (s.dropWay p sl j w).l2set (64 * sl + j) =
    { s.l2set (64 * sl + j) with ways := tset none (s.l2set (64 * sl + j)).ways w none } :=
  l2set_setL2_self _ _ _

/-- What a quarantine does before it is counted. -/
def quarantined : State :=
  (s.dropWay p sl j w).setL2 (64 * sl + j) { (s.dropWay p sl j w).l2set (64 * sl + j) with
    quar := if ((s.dropWay p sl j w).l2set (64 * sl + j)).quar.contains w then ((s.dropWay p sl j w).l2set (64 * sl + j)).quar
            else w :: ((s.dropWay p sl j w).l2set (64 * sl + j)).quar }

theorem quarantined_only : quarantined s p sl j w =
    { s with l2 := (quarantined s p sl j w).l2, occ := (quarantined s p sl j w).occ } := by
  unfold quarantined
  rw [dropWay_only]
  rfl

theorem quarantined_retired : Retired ((quarantined s p sl j w).l2set (64 * sl + j)) w := by
  unfold quarantined
  rw [l2set_setL2_self, l2set_dropWay]
  refine ⟨tget_tset_self none (s.l2set (64 * sl + j)).ways w none, ?_⟩
  dsimp only
  split
  · next h => exact List.contains_iff_mem.mp h
  · exact List.mem_cons_self

theorem quarantine_ownWrite : OwnWrite (quarantined s p sl j w) (s.quarantine p sl j w) := count_ownWrite _ _ _

end Frames

theorem retirePage_eq (s : State) (pa : Nat) : ∃ t, t = { s with pkg := { s.pkg with tBits := t.pkg.tBits } } ∧
    pageOf pa ∈ t.pkg.tBits ∧ OwnWrite t (s.retirePage pa) := by
  unfold State.retirePage
  split
  · next h => exact ⟨s, rfl, List.contains_iff_mem.mp h, .refl s⟩
  · exact ⟨_, rfl, List.mem_cons_self, count_ownWrite (s.updPkg fun k => { k with tBits := pageOf pa :: k.tBits }) _ _⟩

/-! What an uncorrectable error leaves alone. -/

/-- An error's first effects: no test has begun, no clock has moved, and contexts are harmed at most. -/
structure Wound (s t : State) : Prop where
  tests : t.tests = s.tests
  clock : t.cols = s.cols ∧ t.cycle = s.cycle
  armed : t.pkg.armed = s.pkg.armed
  ctxs  : ∀ c, Harm (s.ctx c) (t.ctx c)

theorem Wound.refl (s : State) : Wound s s := ⟨rfl, ⟨rfl, rfl⟩, rfl, fun _ => .refl _⟩

theorem Wound.trans {s t u : State} (h : Wound s t) (g : Wound t u) : Wound s u :=
  ⟨g.tests.trans h.tests, ⟨g.clock.1.trans h.clock.1, g.clock.2.trans h.clock.2⟩, g.armed.trans h.armed,
    fun c => (h.ctxs c).trans (g.ctxs c)⟩

/-- What changes no context, test or clock. -/
theorem Wound.of_eq {s t : State} (ht : t.tests = s.tests) (hc : t.cols = s.cols) (hy : t.cycle = s.cycle)
    (ha : t.pkg.armed = s.pkg.armed) (hx : t.ctxs = s.ctxs) : Wound s t :=
  ⟨ht, ⟨hc, hy⟩, ha, fun c => by unfold State.ctx; rw [hx]; exact .refl _⟩

theorem OwnWrite.wound {s t : State} (h : OwnWrite s t) : Wound s t :=
  ⟨by rw [h.rest], ⟨by rw [h.rest], by rw [h.rest]⟩, by rw [h.rest], fun c => (h.ctxs c).harm⟩

theorem kill_wound (s : State) (c adr : Nat) (op : Option FaultInfo) : Wound s (s.kill c 3 adr op) :=
  ⟨by rw [kill_only], ⟨by rw [kill_only], by rw [kill_only]⟩, by rw [kill_only], kill_harm s c adr op⟩

theorem killAll_wound (s : State) (l : List Nat) (adr : Nat) (r : Reader) : Wound s (s.killAll l adr r) :=
  ⟨by rw [killAll_only], ⟨by rw [killAll_only], by rw [killAll_only]⟩, by rw [killAll_only], killAll_harm l adr r s⟩

theorem dropWay_wound (s : State) (p sl j w : Nat) : Wound s (s.dropWay p sl j w) := by
  rw [dropWay_only]
  exact .of_eq rfl rfl rfl rfl rfl

theorem quarantine_wound (s : State) (p sl j w : Nat) : Wound s (s.quarantine p sl j w) := by
  refine Wound.trans ?_ (quarantine_ownWrite s p sl j w).wound
  rw [quarantined_only]
  exact .of_eq rfl rfl rfl rfl rfl

theorem retirePage_wound (s : State) (pa : Nat) : Wound s (s.retirePage pa) := by
  obtain ⟨t, ht, -, hw⟩ := retirePage_eq s pa
  refine Wound.trans ?_ hw.wound
  rw [ht]
  exact .of_eq rfl rfl rfl rfl rfl

/-- A map that is lost harms its context in nothing else. -/
theorem mapLost_wound (s : State) (c m : Nat) : Wound s (s.updCtx c fun x => { x with maps := tset .empty x.maps m .lost }) := by
  refine ⟨rfl, ⟨rfl, rfl⟩, rfl, fun d => ?_⟩
  rw [State.updCtx_eq]
  by_cases hd : d = c
  · rw [hd, State.ctx_setCtx_self]
    exact ⟨fun cls _ => by cases cls <;> rfl, id, id⟩
  · rw [State.ctx_setCtx_ne _ _ hd]
    exact .refl _

/-- The loss of a dirty line, but for the contexts it ends. -/
def lineLost (s : State) (w : Way) : State :=
  if paHost (128 * w.line) then s.updPkg fun k => { k with poison := w.line :: k.poison } else s.retirePage (128 * w.line)

theorem lineLost_wound (s : State) (w : Way) : Wound s (lineLost s w) := by
  unfold lineLost
  split
  · exact .of_eq rfl rfl rfl rfl rfl
  · exact retirePage_wound s _

theorem uncorrectable_row_wound (s : State) (u : UnitD) (base : Bool) : Wound s (State.uncorrectable.row s u .none base).s := by
  unfold State.uncorrectable.row
  split
  · exact .refl s
  · exact .of_eq rfl rfl rfl rfl rfl

theorem uncorrectable_store_wound (s : State) (u : UnitD) : Wound s (State.uncorrectable.store s u .none).s := by
  have h : Wound s (s.storeLost u.unit).1 := .of_eq rfl rfl rfl rfl rfl
  exact h.trans (killAll_wound _ _ _ _)

theorem uncorrectable_wound (s : State) (u : UnitD) : Wound s (s.uncorrectable u .none).s := by
  unfold State.uncorrectable
  dsimp only
  split
  case h_1 =>
    split
    · exact .refl s
    · split
      · exact .refl s
      · split
        · exact dropWay_wound s _ _ _ _
        · exact ((quarantine_wound s _ _ _ _).trans (lineLost_wound _ _)).trans (killAll_wound _ _ _ _)
  case h_2 => exact (quarantine_wound s _ _ _ _).trans (killAll_wound _ _ _ _)
  case h_3 => exact retirePage_wound s _
  case h_4 => exact uncorrectable_row_wound s u false
  case h_5 => exact uncorrectable_row_wound s u true
  case h_6 =>
    split
    · exact kill_wound s _ _ _
    · exact .refl s
  case h_7 =>
    split
    · exact kill_wound s _ _ _
    · exact .refl s
  case h_8 => exact uncorrectable_store_wound s u
  case h_9 => exact .of_eq rfl rfl rfl rfl rfl
  case h_10 => exact .of_eq rfl rfl rfl rfl rfl
  case h_11 =>
    split
    · exact mapLost_wound s _ _
    · exact .refl s
  case h_12 => exact .of_eq rfl rfl rfl rfl rfl
  case h_13 =>
    split
    · exact uncorrectable_store_wound s u
    · split
      · exact .of_eq rfl rfl rfl rfl rfl
      · split
        · exact .refl s
        · exact kill_wound s _ _ _

end Sys2Proof.Proofs
end

section
/-! PROOFS. Errors that strike: the test that begins, and what each structure loses (Table 25.5; O56). -/

namespace Sys2Proof.Proofs

open Sys2Proof Sys2Proof.Machine Sys2Proof.Safety

/-! The test of the unit that an error struck (R382). -/

/-- The test that an error starts, its record beginning with `w0`. -/
def errorTest (s : State) (d : Word) (w0 retired : Nat) (killed : List Nat) : SelfTest :=
  { desc := d, ends := s.testNow (unitD d.toNat) + 1 + Config.delay s.fresh % testLimit (unitD d.toNat), ctx := none,
    w0 := BitVec.ofNat 64 w0, retired := retired, killed := killed }

theorem startTest_eq (s : State) (d : Word) (w0 retired : Nat) (killed : List Nat) : s.startTest d none w0 retired killed =
    { s with tests := s.tests ++ [errorTest s d w0 retired killed], fresh := s.fresh + 1 } := rfl

/-- What is known of the test of an error of unit `d` whose verdict is LASTING or not. -/
structure TestOf (s : State) (d : Word) (lasting : Bool) (x : SelfTest) : Prop where
  desc    : x.desc = d
  ctx     : x.ctx = none
  later   : s.testNow (unitD d.toNat) < x.ends
  soon    : x.ends ≤ s.testNow (unitD d.toNat) + testLimit (unitD d.toNat)
  verdict : bits x.w0.toNat 43 42 = if lasting = true then 2 else 1
  part    : bits x.w0.toNat 15 12 = s.unitPart (unitD d.toNat) % 16

/-- The fields of an error record's first word (Table 25.7). -/
theorem errorWord_bits {code v : Nat} (hv : v < 4) (dirty : Bool) (owner p : Nat) :
    let x := (BitVec.ofNat 64 (errorWord code v false dirty owner p)).toNat
    bits x 63 48 = code % 2 ^ 16 ∧ bits x 43 42 = v ∧ bits x 15 12 = p % 16 := by
  have hd : b2n dirty ≤ 1 := by cases dirty <;> decide
  simp only [errorWord, bits, b2n, Bool.false_eq_true, if_false, BitVec.toNat_ofNat] at hd ⊢
  omega

theorem testNow_congr {s t : State} (h : t.cols = s.cols ∧ t.cycle = s.cycle) (u : UnitD) : t.testNow u = s.testNow u := by
  unfold State.testNow State.col
  rw [h.1, h.2]

theorem errorTest_testOf {s v : State} (h : Wound s v) (d : Word) (lasting dirty : Bool) (code owner retired : Nat) (killed : List Nat) :
    TestOf s d lasting (errorTest v d
      (errorWord code (if lasting then 2 else 1) false dirty owner (s.unitPart (unitD d.toNat))) retired killed) := by
  have hlim := Nat.mod_lt (Config.delay v.fresh) (testLimit_pos (unitD d.toNat))
  have hnow := testNow_congr h.clock (unitD d.toNat)
  obtain ⟨-, hv, hp⟩ := errorWord_bits (code := code) (v := if lasting then 2 else 1) (by cases lasting <;> decide) dirty owner
    (s.unitPart (unitD d.toNat))
  refine ⟨rfl, rfl, ?_, ?_, hv, hp⟩
  · simp only [errorTest]
    omega
  · simp only [errorTest]
    omega

/-- An uncorrectable error's losses, and its count at the partition of the unit. -/
def struckCount (s : State) (u : UnitD) : State :=
  if s.unitPart u = 15 then (s.uncorrectable u .none).s
  else (s.uncorrectable u .none).s.count (s.unitPart u) (if u.isTlb then 2 else 3)

section Strikes
variable {s : State} {d : Word} (hk : unitKnown d.toNat = true) (ha : s.pkg.armed = none)
include hk ha

/-- A corrected error is counted, and its unit is tested. -/
theorem exec_errorStrike_corrected (l : Bool) :
    let c := if s.unitPart (unitD d.toNat) = 15 then s else s.count (s.unitPart (unitD d.toNat)) 2
    exec (.errorStrike d false l) s = .next { c with fresh := c.fresh + 1, tests := s.tests ++ [errorTest c d
      (errorWord 1 (if l then 2 else 1) false false (s.lineOwner (unitD d.toNat)) (s.unitPart (unitD d.toNat))) 0 []] } ∧
    Wound s c := by
  intro c
  have hw : Wound s c := by
    show Wound s (if _ then _ else _)
    split
    · exact .refl s
    · exact (count_ownWrite s _ _).wound
  refine ⟨(if_pos hk).trans (congrArg _ ?_), hw⟩
  rw [← hw.tests]
  exact strikeTest_calm (s := c.startTest d none _ _ _) (hw.armed.trans ha) d

/-- An uncorrectable one loses what its structure holds, is counted, and its unit is tested. -/
theorem exec_errorStrike_uncorrectable (l : Bool) : ∃ v x, OwnWrite (s.uncorrectable (unitD d.toNat) .none).s v ∧ Wound s v ∧
    TestOf s d l x ∧ exec (.errorStrike d true l) s = .next { v with tests := s.tests ++ [x], fresh := v.fresh + 1 } := by
  let k := s.uncorrectable (unitD d.toNat) .none
  have hown : OwnWrite k.s (struckCount s (unitD d.toNat)) := by
    unfold struckCount
    split
    · exact .refl _
    · exact count_ownWrite _ _ _
  have hw := (uncorrectable_wound s (unitD d.toNat)).trans hown.wound
  refine ⟨_, _, hown, hw, errorTest_testOf hw d l k.dirty k.code k.owner k.retired k.killed, (if_pos hk).trans (congrArg _ ?_)⟩
  rw [← hw.tests]
  exact strikeTest_calm (s := (struckCount s (unitD d.toNat)).startTest d none _ _ _) (hw.armed.trans ha) d

end Strikes

/-! What each structure loses. -/

theorem TdiMay.part_owner {x y : Ctx} (h : TdiMay x y) : y.part = x.part ∧ y.owner = x.owner ∧ y.maps = x.maps := by
  obtain rfl | rfl := h
  · exact ⟨rfl, rfl, rfl⟩
  · exact ⟨rfl, rfl, rfl⟩

theorem OwnWrite.pkg {s t : State} (h : OwnWrite s t) : t.pkg.poison = s.pkg.poison ∧ t.pkg.tBits = s.pkg.tBits := by
  rw [h.rest]
  exact ⟨rfl, rfl⟩

theorem ctx_quarantined (s : State) (p sl j w c : Nat) : (quarantined s p sl j w).ctx c = s.ctx c := by
  rw [quarantined_only]
  rfl

theorem quarantine_tdiMay (s : State) (p sl j w c : Nat) : TdiMay (s.ctx c) ((s.quarantine p sl j w).ctx c) :=
  ctx_quarantined s p sl j w c ▸ (quarantine_ownWrite s p sl j w).ctxs c

theorem quarantine_retired (s : State) (p sl j w : Nat) : Retired ((s.quarantine p sl j w).l2set (64 * sl + j)) w :=
  ((quarantine_ownWrite s p sl j w).sets _).retired (quarantined_retired s p sl j w)

theorem lineLost_marks (s : State) (w : Way) : if paHost (128 * w.line) = true then w.line ∈ (lineLost s w).pkg.poison
    else pageOf (128 * w.line) ∈ (lineLost s w).pkg.tBits := by
  unfold lineLost
  split
  · exact List.mem_cons_self
  · obtain ⟨t, -, hmem, hown⟩ := retirePage_eq s (128 * w.line)
    rw [hown.pkg.2]
    exact hmem

theorem lineLost_sets (s : State) (w : Way) (k : Nat) : SameFrames (s.l2set k) ((lineLost s w).l2set k) := by
  unfold lineLost
  split
  · exact .refl _
  · obtain ⟨t, ht, -, hown⟩ := retirePage_eq s (128 * w.line)
    have hk : t.l2set k = s.l2set k := by rw [ht]; rfl
    exact hk ▸ hown.sets k

theorem l2set_killAll (s : State) (l : List Nat) (adr : Nat) (r : Reader) (k : Nat) : (s.killAll l adr r).l2set k = s.l2set k := by
  rw [killAll_only]
  rfl

theorem pkg_killAll (s : State) (l : List Nat) (adr : Nat) (r : Reader) : (s.killAll l adr r).pkg = s.pkg := by
  rw [killAll_only]

section Loses
variable {s v : State} {u : UnitD} (hv : OwnWrite (s.uncorrectable u .none).s v)

section Line
variable {w : Way} (hu : u.struct = 0) (hw : tget none (s.l2set (64 * u.unit + bits u.loc 9 4)).ways (u.loc % 16) = some w)
  (hg : w.gen = (s.part (s.unitPart u)).l2gen)
include hu hw hg

theorem uncorrectable_dirty (hd : w.dirty = true) :
    let q := s.quarantine (s.unitPart u) u.unit (bits u.loc 9 4) (u.loc % 16)
    (s.uncorrectable u .none).s = (lineLost q w).killAll (q.ctxsWith fun x => x.part = s.unitPart u && x.owner = w.owner)
      (128 * w.line) .none := by
  simp only [State.uncorrectable, hu, hw, State.wayLive, hg, hd, decide_true, Bool.not_true, Bool.false_eq_true, if_false]
  rfl

theorem uncorrectable_clean (hd : w.dirty = false) :
    (s.uncorrectable u .none).s = s.dropWay (s.unitPart u) u.unit (bits u.loc 9 4) (u.loc % 16) := by
  simp only [State.uncorrectable, hu, hw, State.wayLive, hg, hd, decide_true, Bool.not_true, Bool.not_false, Bool.false_eq_true,
    if_false, if_true]

include hv

/-- The contexts of the owner of a dirty line end with it. -/
theorem dirty_charges (hd : w.dirty = true) {c : Nat} (hp : (s.ctx c).part = s.unitPart u) (ho : (s.ctx c).owner = w.owner) :
    Charged s v c := by
  refine charged_iff.mpr fun h => (hv.ctxs c).harm.doomed ?_
  rw [uncorrectable_dirty hu hw hg hd]
  have hq := quarantine_tdiMay s (s.unitPart u) u.unit (bits u.loc 9 4) (u.loc % 16) c
  have halive := hq.harm.alive h
  obtain ⟨hpart, howner, -⟩ := hq.part_owner
  exact killAll_dooms (mem_ctxsWith halive.1 (by simp [hpart, howner, hp, ho])) (((lineLost_wound _ w).ctxs c).alive halive) _ _

/-- A dirty line is poisoned in the host's memory, and its page is retired in the device's. -/
theorem dirty_marks (hd : w.dirty = true) :
    if paHost (128 * w.line) = true then w.line ∈ v.pkg.poison else pageOf (128 * w.line) ∈ v.pkg.tBits := by
  rw [hv.pkg.1, hv.pkg.2, uncorrectable_dirty hu hw hg hd, pkg_killAll]
  exact lineLost_marks _ w

theorem dirty_retires (hd : w.dirty = true) : Retired (v.l2set (64 * u.unit + bits u.loc 9 4)) (u.loc % 16) := by
  refine (hv.sets _).retired ?_
  rw [uncorrectable_dirty hu hw hg hd, l2set_killAll]
  exact (lineLost_sets _ w _).retired (quarantine_retired s _ _ _ _)

/-- A clean line goes, with nobody charged. -/
theorem clean_drops (hd : w.dirty = false) (hun : Unguarded s) :
    tget none (v.l2set (64 * u.unit + bits u.loc 9 4)).ways (u.loc % 16) = none ∧
      (v.l2set (64 * u.unit + bits u.loc 9 4)).quar = (s.l2set (64 * u.unit + bits u.loc 9 4)).quar ∧
      v.pkg.tBits = s.pkg.tBits ∧ v.pkg.poison = s.pkg.poison ∧ ∀ c, v.ctx c = s.ctx c := by
  rw [uncorrectable_clean hu hw hg hd] at hv
  have hset := hv.sets (64 * u.unit + bits u.loc 9 4)
  rw [l2set_dropWay] at hset
  obtain ⟨hpoison, htbits⟩ := hv.pkg
  have hfree := hv.free
  rw [dropWay_only] at hpoison htbits hfree
  refine ⟨hset.empty _ (tget_tset_self none (s.l2set _).ways _ none), hset.quar, htbits, hpoison, fun c => ?_⟩
  exact congrArg (fun t : Tbl Ctx => tget {} t c) (hfree hun).1

end Line

section Tag
variable (hu : u.struct = 1)
include hu

theorem uncorrectable_tag : (s.uncorrectable u .none).s = (s.quarantine (s.unitPart u) u.unit (bits u.loc 9 4) (u.loc % 16)).killAll
    (s.ctxsWith fun x => x.part = s.unitPart u) u.unit .none := by
  simp only [State.uncorrectable, hu]

include hv

theorem tag_retires : Retired (v.l2set (64 * u.unit + bits u.loc 9 4)) (u.loc % 16) := by
  refine (hv.sets _).retired ?_
  rw [uncorrectable_tag hu, l2set_killAll]
  exact quarantine_retired s _ _ _ _

theorem tag_charges {c : Nat} (hp : (s.ctx c).part = s.unitPart u) : Charged s v c := by
  refine charged_iff.mpr fun h => (hv.ctxs c).harm.doomed ?_
  rw [uncorrectable_tag hu]
  exact killAll_dooms (mem_ctxsWith h.1 (by simp [hp])) ((quarantine_tdiMay s _ _ _ _ c).harm.alive h) _ _

end Tag

include hv

/-- A page of device memory is retired. -/
theorem page_retires (hu : u.struct = 2) : pageOf (128 * u.loc) ∈ v.pkg.tBits := by
  obtain ⟨t, -, hmem, hown⟩ := retirePage_eq s (128 * u.loc)
  have hs : (s.uncorrectable u .none).s = s.retirePage (128 * u.loc) := by simp only [State.uncorrectable, hu, State.chargeReader]
  rw [hv.pkg.2, hs, hown.pkg.2]
  exact hmem

/-- A row of a tile is poisoned. -/
theorem row_poisons {b : Bool} {y z : Tile} {off : Nat} (hu : u.struct = if b = true then 4 else 3)
    (hy : s.tileAt b u.unit u.loc = some (y, off)) (hz : s.tile y.id = some z) :
    ∃ z', v.tile y.id = some z' ∧ off / z.pitch ∈ z'.poison ∧ z'.bytes = z.bytes := by
  have hs : (s.uncorrectable u .none).s = s.updTile y.id fun t => { t with poison := off / t.pitch :: t.poison } := by
    cases b
    · have h3 : u.struct = 3 := hu
      simp only [State.uncorrectable, h3, State.uncorrectable.row, hy, State.chargeReader]
    · have h4 : u.struct = 4 := hu
      simp only [State.uncorrectable, h4, State.uncorrectable.row, hy, State.chargeReader]
  have ht : v.tile y.id = (s.uncorrectable u .none).s.tile y.id := by rw [hv.rest]; rfl
  rw [hs, tile_updTile (f := fun t : Tile => { t with poison := off / t.pitch :: t.poison }) hz fun _ => rfl] at ht
  exact ⟨_, ht, List.mem_cons_self, rfl⟩

/-- What is charged to a context that stood alone is charged to it. -/
theorem charged_of_kill {c adr : Nat} {op : Option FaultInfo} (h : (s.uncorrectable u .none).s = s.kill c 3 adr op) : Charged s v c := by
  refine charged_iff.mpr fun ha => (hv.ctxs c).harm.doomed ?_
  rw [h]
  exact kill_dooms ha _ _

/-- An accumulator tile ends the context it is granted to. -/
theorem acc_charges {c : Nat} (hu : u.struct = 7) (hc : (tget {} (s.core u.unit).accs u.loc).holder = some c) : Charged s v c :=
  charged_of_kill hv (adr := u.unit) (op := none) (by simp only [State.uncorrectable, hu, hc, Reader.opOf])

theorem latch_charges {c : Nat} (hu : u.struct = 8) (hc : (tget {} (s.core u.unit).lats u.loc).holder = some c) : Charged s v c :=
  charged_of_kill hv (adr := u.unit) (op := none) (by simp only [State.uncorrectable, hu, hc, Reader.opOf])

/-- A microprogram store is zeroed with its routine table, and ends the contexts with calls there. -/
theorem store_loses (hu : u.struct = 9) : (v.core u.unit).store = [] ∧ (v.core u.unit).routs = [] ∧
    ∀ k ∈ s.calls, coreOf k.ctx = u.unit → Charged s v k.ctx := by
  have hs : (s.uncorrectable u .none).s = (s.storeLost u.unit).1.killAll (s.storeLost u.unit).2 u.unit .none := by
    simp only [State.uncorrectable, hu, State.uncorrectable.store]
  have hcore : v.core u.unit = { s.core u.unit with store := [], routs := [] } := by
    have h : v.core u.unit = (s.uncorrectable u .none).s.core u.unit := by rw [hv.rest]; rfl
    rw [h, hs, killAll_only]
    exact State.core_setCore_self s u.unit _
  refine ⟨by rw [hcore], by rw [hcore], fun k hk hc => charged_iff.mpr fun h => (hv.ctxs _).harm.doomed ?_⟩
  rw [hs]
  have hin : k.ctx ∈ (s.storeLost u.unit).2 :=
    List.mem_filter.mpr ⟨(mem_coreContexts _).mpr hc, List.any_eq_true.mpr ⟨k, hk, decide_eq_true rfl⟩⟩
  exact killAll_dooms (s := (s.storeLost u.unit).1) hin h _ _

theorem shape_freed (hu : u.struct = 10) : tget none (v.stack u.unit).shapes u.loc = none := by
  have h : v.stack u.unit = (s.uncorrectable u .none).s.stack u.unit := by rw [hv.rest]; rfl
  have hs : (s.uncorrectable u .none).s = s.updStack u.unit fun k => { k with shapes := tset none k.shapes u.loc none } := by
    simp only [State.uncorrectable, hu]
  rw [h, hs, State.updStack_eq, State.stack_setStack_self]
  exact tget_tset_self none (s.stack u.unit).shapes u.loc none

theorem tlbEntry_freed (hu : u.struct = 11) : (v.stack u.unit).tlb = (s.stack u.unit).tlb.eraseIdx u.loc := by
  have h : v.stack u.unit = (s.uncorrectable u .none).s.stack u.unit := by rw [hv.rest]; rfl
  have hs : (s.uncorrectable u .none).s = s.updStack u.unit fun k => { k with tlb := k.tlb.eraseIdx u.loc } := by
    simp only [State.uncorrectable, hu]
  rw [h, hs, State.updStack_eq, State.stack_setStack_self]

theorem map_lost {c m : Nat} (hu : u.struct = 12) (hm : s.mapAt u.unit u.loc = some (c, m)) : tget .empty (v.ctx c).maps m = .lost := by
  have hs : (s.uncorrectable u .none).s = s.updCtx c fun x => { x with maps := tset .empty x.maps m .lost } := by
    simp only [State.uncorrectable, hu, hm]
  obtain ⟨-, -, hmaps⟩ := (hv.ctxs c).part_owner
  rw [hmaps, hs, State.updCtx_eq, State.ctx_setCtx_self]
  exact tget_tset_self .empty (s.ctx c).maps m .lost

theorem session_breaks {z : Session} (hu : u.struct = 13) (hz : (s.quad u.unit).session = some z) :
    (v.quad u.unit).session = some { z with broken := true } := by
  have h : v.quad u.unit = (s.uncorrectable u .none).s.quad u.unit := by rw [hv.rest]; rfl
  have hs : (s.uncorrectable u .none).s = s.updQuad u.unit fun q => { q with session := q.session.map fun z => { z with broken := true } } := by
    simp only [State.uncorrectable, hu]
  rw [h, hs, State.updQuad_eq, State.quad_setQuad_self]
  exact congrArg (Option.map _) hz

/-- A register or a snapshot ends its context. -/
theorem register_charges (hu : u.struct = 5 ∨ u.struct = 6 ∨ u.struct = 14) : Charged s v (4 * u.unit + bits u.loc 17 16) := by
  refine charged_iff.mpr fun h => charged_iff.mp (charged_of_kill hv (c := u.ctx) (adr := u.unit) (op := none) ?_) h
  have hlive : ((s.ctx u.ctx).st = .empty || (s.ctx u.ctx).st = .retired : Bool) = false := by simp [UnitD.ctx, h.1, h.2.1]
  obtain hu | hu | hu := hu
  all_goals simp only [State.uncorrectable, hu, UnitD.isStore, UnitD.isTlb, hlive, Reader.opOf]; rfl

end Loses

end Sys2Proof.Proofs
end

section
/-! PROOFS. Verdicts of self-tests and the loss of a switch (R377, R382, R383; O56). -/

namespace Sys2Proof.Proofs

open Sys2Proof Sys2Proof.Machine Sys2Proof.Safety

/-! Verdicts. -/

/-- What the verdict of test `t` does to its unit. -/
def judged (s : State) (t : SelfTest) : State :=
  let u := unitD t.desc.toNat
  let k := 64 * u.unit + bits u.loc 9 4
  let x := s.l2set k
  if bits t.w0.toNat 43 42 = 1 then
    if decide (u.struct ≤ 1) then
      if x.lasting.contains (u.loc % 16) then s else s.setL2 k { x with quar := x.quar.filter (· ≠ u.loc % 16) }
    else if u.struct = 2 && t.ctx.isSome && s.pkg.tBits.contains (pageOf (128 * u.loc)) &&
        !s.pkg.lastPages.contains (pageOf (128 * u.loc)) then s.restorePage (128 * u.loc)
    else s
  else if decide (u.struct ≤ 1) then
    s.setL2 k { x with lasting := if x.quar.contains (u.loc % 16) then u.loc % 16 :: x.lasting else x.lasting }
  else if u.struct = 2 then s.updPkg fun k => { k with lastPages := pageOf (128 * u.loc) :: k.lastPages }
  else if u.inCore then s.updCore u.unit fun k => { k with lasting := true }
  else s

/-- The SELFTST that asked for test `t` goes on. -/
def unblocked (s : State) (t : SelfTest) : State :=
  match t.ctx with
  | some c => s.updCtx c fun x => if x.block = .selftst t.desc then { x with block := .none } else x
  | none => s

/-- The record of a verdict is told to the partition of the unit, or to the hypervisor (R383). -/
def verdictTold (s : State) (t : SelfTest) : State :=
  s.hflog [t.w0.toNat, t.desc.toNat, t.retired, t.killed.length % 2 ^ 16 + (t.killed.headD 0) * 2 ^ 16, 0, 0, 0, 0]
    (if bits t.w0.toNat 15 12 = 15 then 48 else 4 * bits t.w0.toNat 15 12 + 2)

theorem exec_selfTestVerdict {s : State} {n : Nat} {x : SelfTest} (h : s.tests[n]? = some x)
    (he : x.ends ≤ s.testNow (unitD x.desc.toNat)) :
    exec (.selfTestVerdict n) s = .next (unblocked (verdictTold (judged { s with tests := s.tests.eraseIdx n } x) x) x) := by
  show execSelfTestVerdict n s = _
  unfold execSelfTestVerdict
  rw [h]
  exact if_neg (Nat.not_lt.mpr he)

theorem unblocked_only (s : State) (t : SelfTest) : unblocked s t = { s with ctxs := (unblocked s t).ctxs } := by
  unfold unblocked
  split <;> rfl

theorem unblocked_reg (s : State) (t : SelfTest) (c : Nat) (cls : Cls) (m : Nat) :
    ((unblocked s t).ctx c).reg cls m = (s.ctx c).reg cls m := by
  unfold unblocked
  split
  · next d _ =>
    rw [State.updCtx_eq]
    by_cases hd : c = d
    · rw [hd, State.ctx_setCtx_self]
      split
      · cases cls <;> rfl
      · rfl
    · rw [State.ctx_setCtx_ne _ _ hd]
  · rfl

theorem unblocked_block (s : State) {t : SelfTest} {c : Nat} (h : t.ctx = some c) : ((unblocked s t).ctx c).block ≠ .selftst t.desc := by
  unfold unblocked
  rw [h]
  dsimp only
  rw [State.updCtx_eq, State.ctx_setCtx_self]
  split
  · nofun
  · assumption

theorem dropPage_only (s : State) (p pg : Nat) : s.dropPage p pg =
    { s with l2 := (s.dropPage p pg).l2, occ := (s.dropPage p pg).occ } := by
  unfold State.dropPage
  refine List.foldlRecOn (motive := fun t : State => t = { s with l2 := t.l2, occ := t.occ }) _ _ rfl fun t ht e _ => ?_
  split
  · refine List.foldlRecOn (motive := fun t : State => t = { s with l2 := t.l2, occ := t.occ }) _ _ ht fun t ht w _ => ?_
    split
    · split
      · rw [dropWay_only, ht]
      · exact ht
    · exact ht
  · exact ht

/-- An unprotected page returns to service. -/
theorem restorePage_unguarded {s : State} {pa : Nat} (h : s.guardOf pa = none) : ∃ t, MemOnly (s.dropPage (paPart pa) (pageOf pa)) t ∧
    s.restorePage pa = t.updPkg fun k => { k with tBits := k.tBits.filter (· ≠ pageOf pa), cBits := k.cBits.filter (· ≠ pageOf pa) } := by
  unfold State.restorePage
  rw [h]
  exact ⟨_, setRawBytes_memOnly _ _ _, rfl⟩

theorem restorePage_spec (s : State) (pa : Nat) :
    (s.restorePage pa).tests = s.tests ∧ ∀ c, TdiMay (s.ctx c) ((s.restorePage pa).ctx c) := by
  cases h : s.guardOf pa with
  | none =>
    obtain ⟨t, hm, e⟩ := restorePage_unguarded h
    rw [e, hm, dropPage_only]
    exact ⟨rfl, fun _ => .inl rfl⟩
  | some g =>
    have hg : s.restorePage pa = s.guardHit g := by
      unfold State.restorePage
      rw [h]
    rw [hg]
    exact ⟨(guardHit_ownWrite (not_unguarded_of_guardOf h) g).wound.tests, guardHit_tdiMay s g⟩

theorem judged_spec (s : State) (t : SelfTest) : (judged s t).tests = s.tests ∧ ∀ c, TdiMay (s.ctx c) ((judged s t).ctx c) := by
  have hsame : s.tests = s.tests ∧ ∀ c, TdiMay (s.ctx c) (s.ctx c) := ⟨rfl, fun _ => .inl rfl⟩
  unfold judged
  dsimp only
  split
  · split
    · split
      · exact hsame
      · exact hsame
    · split
      · exact restorePage_spec s _
      · exact hsame
  · split
    · exact hsame
    · split
      · exact hsame
      · split <;> exact hsame

section Verdicts
variable {s : State} {t : SelfTest}

section Transient
variable (hg : bits t.w0.toNat 43 42 = 1)
include hg

theorem judged_frame_transient (hu : (unitD t.desc.toNat).struct ≤ 1) :
    let u := unitD t.desc.toNat
    let key := 64 * u.unit + bits u.loc 9 4
    (u.loc % 16 ∉ (s.l2set key).lasting → u.loc % 16 ∉ ((judged s t).l2set key).quar) ∧
      (u.loc % 16 ∈ (s.l2set key).lasting → ((judged s t).l2set key).quar = (s.l2set key).quar) := by
  unfold judged
  dsimp only
  rw [if_pos hg, if_pos (decide_eq_true hu)]
  refine ⟨fun h => ?_, fun h => ?_⟩
  · rw [if_neg (by simpa using h), l2set_setL2_self]
    simp
  · rw [if_pos (by simpa using h)]

theorem judged_page_transient (hu : (unitD t.desc.toNat).struct = 2) (hc : t.ctx.isSome = true)
    (hl : pageOf (128 * (unitD t.desc.toNat).loc) ∉ s.pkg.lastPages) (hn : s.guardOf (128 * (unitD t.desc.toNat).loc) = none) :
    pageOf (128 * (unitD t.desc.toNat).loc) ∉ (judged s t).pkg.tBits := by
  unfold judged
  dsimp only
  rw [if_pos hg, if_neg (by simp [hu])]
  split
  · obtain ⟨_, -, e⟩ := restorePage_unguarded hn
    rw [e]
    simp
  · next h =>
    intro hm
    exact h (by simp [hu, hc, hl, hm])

end Transient

section Lasting
variable (hb : ¬ bits t.w0.toNat 43 42 = 1)
include hb

theorem judged_frame_lasting (hu : (unitD t.desc.toNat).struct ≤ 1) :
    let u := unitD t.desc.toNat
    let key := 64 * u.unit + bits u.loc 9 4
    ((judged s t).l2set key).quar = (s.l2set key).quar ∧
      (u.loc % 16 ∈ (s.l2set key).quar → u.loc % 16 ∈ ((judged s t).l2set key).lasting) := by
  unfold judged
  dsimp only
  rw [if_neg hb, if_pos (decide_eq_true hu), l2set_setL2_self]
  refine ⟨rfl, fun h => ?_⟩
  dsimp only
  rw [if_pos (by simpa using h)]
  exact List.mem_cons_self

theorem judged_page_lasting (hu : (unitD t.desc.toNat).struct = 2) :
    judged s t = s.updPkg fun k => { k with lastPages := pageOf (128 * (unitD t.desc.toNat).loc) :: k.lastPages } := by
  unfold judged
  dsimp only
  rw [if_neg hb, if_neg (by simp [hu]), if_pos hu]

theorem judged_core_lasting (hu : (unitD t.desc.toNat).inCore = true) : ((judged s t).core (unitD t.desc.toNat).unit).lasting = true := by
  have hstruct : 2 < (unitD t.desc.toNat).struct := by
    simp only [UnitD.inCore, Bool.or_eq_true, decide_eq_true_eq] at hu
    omega
  unfold judged
  dsimp only
  rw [if_neg hb, if_neg (by simp; omega), if_neg (by omega), if_pos hu, State.updCore_eq, State.core_setCore_self]

end Lasting

end Verdicts

/-! The loss of a switch (R377). -/

/-- What is lost with switch `n`: the words it held and the lines they stand in. -/
def switchLost (s : State) (n : Nat) : State :=
  (s.updPkg fun k =>
    { k with lost := tset 0 k.lost n 0, marks := k.marks.filter (fun m => !(m.2 = n)),
             switchWords := k.switchWords.filter fun w => !(w.switch = n) }).poisonLines
    ((s.pkg.marks.filter fun m => m.2 = n).map fun m => m.1 / 16)

/-- An update in flight to a switch that is lost fails. -/
def updateFailed (s : State) (e : ECmd) : State :=
  if e.acted then s.updCmd e.id fun f => { f with fail := some (s.failRec e 0x07 0x070F e.opa) }
  else s.doneCmd e.id (some (s.failRec e 0x07 0x070F e.opa))

def updatesFailed (s : State) (n : Nat) : State :=
  (s.cmds.filter fun e => !isMcast e.op && e.begun && e.dests.any fun d => Config.switchOf d.1 = n).foldl updateFailed s

/-- Partition `p` is told of a switch that is lost. -/
def lossTold (s : State) (p : Nat) : State := s.hflog [errorWord 5 0 false false 0 p, 0, 0, 0, 0, 0, 0, 0] (4 * p + 2)

def lossesTold (s : State) (n : Nat) : State := ((s.parts.filter fun e => e.2.through n).map Prod.fst).foldl lossTold s

theorem exec_switchFailure (s : State) (n : Nat) :
    exec (.switchFailure n) s = .next (lossesTold (updatesFailed (switchLost s n) n) n) := rfl

theorem updatesFailed_only (s : State) (n : Nat) :
    updatesFailed s n = { s with cmds := (updatesFailed s n).cmds, fresh := (updatesFailed s n).fresh } := by
  unfold updatesFailed
  refine List.foldlRecOn (motive := fun t : State => t = { s with cmds := t.cmds, fresh := t.fresh }) _ _ rfl fun t ht e _ => ?_
  unfold updateFailed
  rw [ht]
  split <;> rfl

theorem lossTold_ownWrite (s : State) (p : Nat) : OwnWrite s (lossTold s p) := hflog_ownWrite s (le_refl 8) _

theorem foldl_lossTold_ownWrite (l : List Nat) (s : State) : OwnWrite s (l.foldl lossTold s) :=
  List.foldlRecOn (motive := OwnWrite s) l _ (.refl s) fun t ht p _ => ht.trans (lossTold_ownWrite t p)

theorem lossesTold_told {s : State} {n p : Nat} (h : ∃ e ∈ s.parts, e.1 = p ∧ e.2.through n = true) : Told (lossesTold s n) (4 * p + 2) := by
  obtain ⟨e, he, rfl, ht⟩ := h
  have hmem : e.1 ∈ (s.parts.filter fun e => e.2.through n).map Prod.fst := List.mem_map_of_mem (List.mem_filter.mpr ⟨he, ht⟩)
  unfold lossesTold
  obtain ⟨l, m, hl⟩ := List.append_of_mem hmem
  rw [hl, List.foldl_append]
  exact (foldl_lossTold_ownWrite m _).told _ (hflog_told _ _ _)

/-- A command that failed for the loss of a switch. -/
def LinkFailed (f : ECmd) : Prop := ∃ r, f.fail = some r ∧ r.cls = 12 ∧ r.code = 0x070F

theorem failRec_linkFailed (s : State) (e : ECmd) (adr : Nat) :
    (s.failRec e 0x07 0x070F adr).cls = 12 ∧ (s.failRec e 0x07 0x070F adr).code = 0x070F := by
  unfold State.failRec
  rw [mkRec_cls, mkRec_code]
  exact ⟨rfl, rfl⟩

theorem cmd_updCmd_if (s : State) (i id : Nat) {g : ECmd → ECmd} (h : ∀ e, (g e).id = e.id) :
    (s.updCmd i g).cmd id = (s.cmd id).map fun e => if e.id = i then g e else e := by
  unfold State.cmd State.updCmd mapIf
  dsimp only
  rw [findFirst_map fun e => by split <;> simp [h]]
  simp only [decide_eq_true_eq]

/-- The failure of a command whose number is that of `e`: every command of the number that stands as `e` does has failed then. -/
theorem updateFailed_eq (s : State) (e : ECmd) : ∃ (t : State) (g : ECmd → ECmd), updateFailed s e = t.updCmd e.id g ∧ t.cmds = s.cmds ∧
    (∀ x, (g x).id = x.id) ∧ (∀ x, g x = x ∨ LinkFailed (g x)) ∧ ∀ x, x.acted = e.acted → LinkFailed (g x) := by
  have hr := failRec_linkFailed s e e.opa
  unfold updateFailed
  by_cases ha : e.acted = true
  · rw [if_pos ha]
    exact ⟨s, _, rfl, rfl, fun _ => rfl, fun _ => .inr ⟨_, rfl, hr⟩, fun _ _ => ⟨_, rfl, hr⟩⟩
  · rw [if_neg ha]
    refine ⟨s.newWait.2, _, rfl, rfl, fun x => ?_, fun x => ?_, fun x hx => ?_⟩
    · split <;> rfl
    · split
      · exact .inl rfl
      · exact .inr ⟨_, rfl, hr⟩
    · rw [if_neg (hx ▸ ha)]
      exact ⟨_, rfl, hr⟩

/-- A command stays as it was, or fails; the one that is looked at fails. -/
theorem updateFailed_cmd {s : State} {id : Nat} {e f : ECmd} (hf : s.cmd id = some f) (h : f = e ∨ LinkFailed f) (e' : ECmd) :
    ∃ g, (updateFailed s e').cmd id = some g ∧ (g = e ∨ LinkFailed g) ∧ (LinkFailed f ∨ e = e' → LinkFailed g) := by
  obtain ⟨t, g, ht, hcmds, hid, hkeep, hfail⟩ := updateFailed_eq s e'
  have hcmd : (updateFailed s e').cmd id = some (if f.id = e'.id then g f else f) := by
    rw [ht, cmd_updCmd_if t e'.id id hid, State.cmd, hcmds, ← State.cmd, hf]
    rfl
  refine ⟨_, hcmd, ?_⟩
  by_cases hi : f.id = e'.id
  · rw [if_pos hi]
    obtain hg | hg := hkeep f
    · refine ⟨hg.symm ▸ h, fun hl => ?_⟩
      obtain hl | rfl := hl
      · exact hg.symm ▸ hl
      · exact h.elim (fun hfe => hfail f (congrArg ECmd.acted hfe)) fun hl => hg.symm ▸ hl
    · exact ⟨.inr hg, fun _ => hg⟩
  · rw [if_neg hi]
    exact ⟨h, fun hl => hl.elim (fun hl => hl) fun he => h.resolve_left fun hfe => hi (by rw [hfe, he])⟩

theorem foldl_updateFailed_cmd {id : Nat} {e : ECmd} (l : List ECmd) : ∀ {s : State} {f : ECmd}, s.cmd id = some f →
    (f = e ∨ LinkFailed f) → ∃ g, (l.foldl updateFailed s).cmd id = some g ∧ (LinkFailed f ∨ e ∈ l → LinkFailed g) := by
  induction l with
  | nil => exact fun hf _ => ⟨_, hf, fun h => h.elim (fun h => h) nofun⟩
  | cons e' l ih =>
    intro s f hf h
    obtain ⟨g, hg, hcase, hself⟩ := updateFailed_cmd hf h e'
    obtain ⟨k, hk, hks⟩ := ih hg hcase
    refine ⟨k, hk, fun hl => hks ?_⟩
    obtain hl | hl := hl
    · exact .inl (hself (.inl hl))
    · exact (List.mem_cons.mp hl).imp (fun he => hself (.inr he)) fun hl => hl

/-- An update in flight to the switch fails. -/
theorem updatesFailed_cmd {s : State} {n id : Nat} {e : ECmd} {d : Nat × Nat} (hc : s.cmd id = some e) (hm : isMcast e.op = false)
    (hb : e.begun = true) (hd : d ∈ e.dests) (hn : Config.switchOf d.1 = n) :
    ∃ f, (updatesFailed s n).cmd id = some f ∧ LinkFailed f := by
  obtain ⟨g, hg, hl⟩ := foldl_updateFailed_cmd (e := e) (s.cmds.filter fun e =>
    !isMcast e.op && e.begun && e.dests.any fun d => Config.switchOf d.1 = n) hc (.inl rfl)
  refine ⟨g, hg, hl (.inr (List.mem_filter.mpr ⟨?_, ?_⟩))⟩
  · unfold State.cmd at hc
    rw [findFirst_eq_find?] at hc
    exact List.mem_of_find?_eq_some hc
  · simp only [hm, hb, Bool.not_false, Bool.true_and, List.any_eq_true]
    exact ⟨d, hd, decide_eq_true hn⟩

end Sys2Proof.Proofs
end

section
/-! PROOFS. Errors and self-tests, assembled (O56). -/

namespace Sys2Proof.Proofs

open Sys2Proof Sys2Proof.Machine Sys2Proof.Safety

theorem verdictTold_ownWrite (s : State) (t : SelfTest) : OwnWrite s (verdictTold s t) := hflog_ownWrite s (le_refl 8) _

/-- What is told of a verdict leaves the frames, pages and cores as the verdict left them. -/
theorem verdict_keeps (s : State) (x : SelfTest) (k n : Nat) :
    let t := unblocked (verdictTold (judged s x) x) x
    SameFrames ((judged s x).l2set k) (t.l2set k) ∧ t.pkg.tBits = (judged s x).pkg.tBits ∧
      t.pkg.lastPages = (judged s x).pkg.lastPages ∧ t.core n = (judged s x).core n := by
  intro t
  have hw := verdictTold_ownWrite (judged s x) x
  have ht : t = { verdictTold (judged s x) x with ctxs := t.ctxs } := unblocked_only _ _
  rw [ht]
  refine ⟨hw.sets k, hw.pkg.2, ?_, ?_⟩
  · rw [hw.rest]
  · rw [hw.rest]; rfl

/-- The words, marks and lines of a switch that is lost are gone, and everything else of the package's switches stays. -/
theorem switchFailure_pkg (s : State) (n : Nat) :
    let t := lossesTold (updatesFailed (switchLost s n) n) n
    t.pkg.marks = s.pkg.marks.filter (fun m => !(m.2 = n)) ∧ t.pkg.switchWords = s.pkg.switchWords.filter (fun w => !(w.switch = n)) ∧
      t.pkg.lost = tset 0 s.pkg.lost n 0 ∧ t.pkg.poison = (switchLost s n).pkg.poison := by
  intro t
  have hw : OwnWrite (updatesFailed (switchLost s n) n) t := foldl_lossTold_ownWrite _ _
  rw [hw.rest, updatesFailed_only]
  exact ⟨rfl, rfl, rfl, rfl⟩

theorem switchLost_poisons {s : State} {n : Nat} {m : Nat × Nat} (hm : m ∈ s.pkg.marks) (hn : m.2 = n) :
    m.1 / 16 ∈ (switchLost s n).pkg.poison := by
  have hkey : m.1 / 16 ∈ (s.pkg.marks.filter fun m => m.2 = n).map fun m => m.1 / 16 :=
    List.mem_map_of_mem (f := fun m : Nat × Nat => m.1 / 16) (List.mem_filter.mpr ⟨hm, by simpa using hn⟩)
  refine List.mem_append.mpr ?_
  by_cases hp : m.1 / 16 ∈ s.pkg.poison
  · exact .inl hp
  · exact .inr (List.mem_filter.mpr ⟨hkey, by simpa using hp⟩)

/-- Settles O56: strikes by the structure they hit, verdicts and the loss of a switch by what they leave before they are told. -/
theorem errorsAndTests : Obligations.ErrorsAndTests := by
  unfold Obligations.ErrorsAndTests
  intro s
  refine ⟨fun d l hk ha => ?corrected, fun d l hk ha => ?uncorrectable, fun n x hx he => ?verdict, fun n => ?switch⟩
  case corrected =>
    obtain ⟨hexec, hw⟩ := exec_errorStrike_corrected hk ha l
    have hx := errorTest_testOf hw d l false 1 (s.lineOwner (unitD d.toNat)) 0 []
    obtain ⟨hcode, -, -⟩ := errorWord_bits (code := 1) (v := if l then 2 else 1) (by cases l <;> decide) false
      (s.lineOwner (unitD d.toNat)) (s.unitPart (unitD d.toNat))
    exact ⟨_, _, hexec, rfl, rfl, hx.desc, hx.ctx, hx.later, hx.soon, hcode, hx.verdict, hx.part⟩
  case uncorrectable =>
    obtain ⟨v, x, hv, hw, hx, hexec⟩ := exec_errorStrike_uncorrectable hk ha l
    exact ⟨_, x, hexec, rfl, hx.desc, hx.ctx, hx.later, hx.verdict, hx.part, fun c => (hw.ctxs c).regs,
      fun _ hu hway hg hd _ _ hp ho _ => dirty_charges hv hu hway hg hd hp ho,
      fun _ hu hway hg hd => (dirty_marks hv hu hway hg hd :),
      fun _ hu hway hg hd => (dirty_retires hv hu hway hg hd :),
      fun _ hu hway hg hd hun => (clean_drops hv hu hway hg hd hun :),
      fun hu => (tag_retires hv hu :),
      fun hu _ _ _ hp => tag_charges hv hu hp,
      fun hu => (page_retires hv hu :),
      fun _ _ _ hu hy _ hz => row_poisons hv hu hy hz,
      fun _ hu hc => acc_charges hv hu hc,
      fun _ hu hc => latch_charges hv hu hc,
      fun hu => (store_loses hv hu :),
      fun hu => (shape_freed hv hu :),
      fun hu => (tlbEntry_freed hv hu :),
      fun _ _ hu hm => map_lost hv hu hm,
      fun _ hu hz => session_breaks hv hu hz,
      fun hu => (register_charges hv hu :)⟩
  case verdict =>
    generalize hs : ({ s with tests := s.tests.eraseIdx n } : State) = s'
    have hexec := exec_selfTestVerdict hx he
    rw [hs] at hexec
    have hset : ∀ k, s'.l2set k = s.l2set k := by
      rw [← hs]
      exact fun _ => rfl
    obtain ⟨htests, hctxs⟩ := judged_spec s' x
    have hw := verdictTold_ownWrite (judged s' x) x
    have honly := unblocked_only (verdictTold (judged s' x) x) x
    obtain ⟨hsets, htbits, hlast, hcore⟩ := verdict_keeps s' x (64 * (unitD x.desc.toNat).unit + bits (unitD x.desc.toNat).loc 9 4)
      (unitD x.desc.toNat).unit
    refine ⟨_, hexec, ?_, ?_, fun c hc => unblocked_block _ hc, fun c cls m => ?_, fun hg hu => ?_, fun hg hu => ?_,
      fun hg hu hc hl hn => ?_, fun hb hu => ?_, fun hb hu => ?_, fun hb hu => ?_⟩
    · rw [honly]
      exact hw.wound.tests.trans (htests.trans (by rw [← hs]))
    · rw [honly]
      exact hflog_told _ _ _
    · rw [unblocked_reg, (hw.ctxs c).harm.regs, (hctxs c).harm.regs, ← hs]
      rfl
    · rw [hsets.quar, ← hset]
      exact (judged_frame_transient hg hu).1
    · intro hm
      rw [← hset] at hm
      rw [hsets.quar, ← hset]
      exact (judged_frame_transient hg hu).2 hm
    · rw [htbits, ← hs]
      exact judged_page_transient hg hu hc hl hn
    · obtain ⟨hquar, hlasting⟩ := judged_frame_lasting (s := s') hb hu
      rw [hsets.quar, hsets.lasting, ← hset]
      exact ⟨hquar, hlasting⟩
    · rw [htbits, hlast, judged_page_lasting hb hu, ← hs]
      exact ⟨List.mem_cons_self, rfl⟩
    · rw [hcore]
      exact judged_core_lasting hb hu
  case switch =>
    obtain ⟨hmarks, hwords, hlost, hpoison⟩ := switchFailure_pkg s n
    refine ⟨_, exec_switchFailure s n, fun m hm => ?_, fun w hw => ?_, ?_, fun _ m hm hn => ?_, fun p hp => ?_,
      fun id e d hc hm hb hd hn => ?_⟩
    · rw [hmarks] at hm
      simpa using (List.mem_filter.mp hm).2
    · rw [hwords] at hw
      simpa using (List.mem_filter.mp hw).2
    · rw [hlost]
      exact tget_tset_self _ _ _ _
    · rw [hpoison]
      exact switchLost_poisons hm hn
    · refine lossesTold_told ?_
      rw [updatesFailed_only]
      exact hp
    · obtain ⟨f, hf, r, hfail, hcls, hcode⟩ := updatesFailed_cmd (s := switchLost s n) hc hm hb hd hn
      have hw : OwnWrite (updatesFailed (switchLost s n) n) (lossesTold (updatesFailed (switchLost s n) n) n) :=
        foldl_lossTold_ownWrite _ _
      refine ⟨f, r, Eq.trans ?_ hf, hfail, hcls, hcode⟩
      rw [hw.rest]
      rfl

end Sys2Proof.Proofs
end
